-- ==== Sys2Proof/Word.lean ====
section
/-!
DEFINITION. Words of the machine and the plainest facts about them.

R2, R3, R10, R11 (spec/00): values are written as two's-complement bit patterns, bytes are little-endian, `Wrap`
keeps the low bits of an exact integer and `Sat` clamps an exact integer to a type's range.
-/
namespace Sys2Proof

/-- One byte. -/
abbrev Byte := BitVec 8
/-- A 32-bit register word (R31, R65). -/
abbrev W32 := BitVec 32
/-- A 64-bit scalar, pair or literal (R65, R68). -/
abbrev W64 := BitVec 64

/-- `Wrap(n, n_w)` of R11: the low `w` bits of an exact natural number. -/
def wrapN (w n : Nat) : Nat := n % 2 ^ w

/-- `Wrap(z, t)` of R11 as a bit pattern of width `w` held in a natural number. -/
def wrapZ (w : Nat) (z : Int) : Nat := (z % (2 ^ w : Int)).toNat

/-- The value of the low `w` bits of `n` read as two's complement. -/
def signed (w n : Nat) : Int :=
  let m := n % 2 ^ w
  if 2 ^ (w - 1) ≤ m ∧ 0 < w then (m : Int) - (2 ^ w : Nat) else m

/-- `Sat` to a signed (`sg`) or unsigned range of width `w` (R11). -/
def satZ (sg : Bool) (w : Nat) (z : Int) : Int :=
  if sg then max (-(2 ^ (w - 1) : Nat) : Int) (min ((2 ^ (w - 1) : Nat) - 1 : Int) z)
  else max 0 (min ((2 ^ w : Nat) - 1 : Int) z)

/-- Ceiling division. -/
def ceilDiv (a b : Nat) : Nat := (a + b - 1) / b

end Sys2Proof
end

