-- ==== Sys2Proof/Machine/Sha512.lean ====
section
/-!
DEFINITION. SHA-512 as FIPS 180-4 defines it, the digest of measurements (R337, R424).

Its constants are the first 64 bits of the fractional parts of the square roots of the first 8 primes and of the cube roots of the
first 80; they are computed here from that.  Words are big-endian.
-/
namespace Sys2Proof.Sha512

/-- The greatest `x` with `x ^ 3 ≤ n`, built from bit `k - 1` down on `x`. -/
def cubeRoot (n : Nat) : Nat → Nat → Nat
  | 0, x => x
  | k + 1, x => cubeRoot n k (if (x + 2 ^ k) ^ 3 ≤ n then x + 2 ^ k else x)

/-- The greatest `x` with `x ^ 2 ≤ n`. -/
def squareRoot (n : Nat) : Nat → Nat → Nat
  | 0, x => x
  | k + 1, x => squareRoot n k (if (x + 2 ^ k) ^ 2 ≤ n then x + 2 ^ k else x)

/-- The first 80 primes. -/
def primes : List Nat := (List.range 410).filter fun n => decide (2 ≤ n) && (List.range 21).all fun d => decide (d < 2 ∨ n ≤ d ∨ n % d ≠ 0)

/-- The initial hash value. -/
def initial : List W64 := (primes.take 8).map fun p => BitVec.ofNat 64 (squareRoot (p * 2 ^ 128) 69 0)

/-- The round constants. -/
def roundKeys : List W64 := primes.map fun p => BitVec.ofNat 64 (cubeRoot (p * 2 ^ 192) 68 0)

def bigSigma0 (x : W64) : W64 := x.rotateRight 28 ^^^ x.rotateRight 34 ^^^ x.rotateRight 39
def bigSigma1 (x : W64) : W64 := x.rotateRight 14 ^^^ x.rotateRight 18 ^^^ x.rotateRight 41
def smallSigma0 (x : W64) : W64 := x.rotateRight 1 ^^^ x.rotateRight 8 ^^^ (x >>> 7)
def smallSigma1 (x : W64) : W64 := x.rotateRight 19 ^^^ x.rotateRight 61 ^^^ (x >>> 6)

/-- The message schedule, last word first: `n` words more. -/
def schedule : Nat → List W64 → List W64
  | 0, ws => ws
  | n + 1, ws => schedule n ((smallSigma1 (ws.getD 1 0) + ws.getD 6 0 + smallSigma0 (ws.getD 14 0) + ws.getD 15 0) :: ws)

/-- One round on the eight working variables. -/
def round (v : List W64) (kw : W64 × W64) : List W64 :=
  match v with
  | [a, b, c, d, e, f, g, h] =>
    let t1 := h + bigSigma1 e + ((e &&& f) ^^^ (~~~e &&& g)) + kw.1 + kw.2
    let t2 := bigSigma0 a + ((a &&& b) ^^^ (a &&& c) ^^^ (b &&& c))
    [t1 + t2, a, b, c, d + t1, e, f, g]
  | _ => v

/-- One block of 16 words. -/
def block (hash : List W64) (ws : List W64) : List W64 :=
  (hash.zip ((roundKeys.zip (schedule 64 ws.reverse).reverse).foldl round hash)).map fun x => x.1 + x.2

/-- A number as `k` big-endian bytes. -/
def bytesBE (k n : Nat) : List Byte := (List.range k).map fun i => BitVec.ofNat 8 (n / 256 ^ (k - 1 - i))

/-- Big-endian words of a message whose length is a multiple of 8. -/
def wordsBE : List Byte → List W64
  | a :: b :: c :: d :: e :: f :: g :: h :: r => (a ++ b ++ c ++ d ++ e ++ f ++ g ++ h) :: wordsBE r
  | _ => []

/-- A message with its padding: a 1 bit, zeros, and its length in bits as 128 bits. -/
def padded (m : List Byte) : List Byte :=
  m ++ 0x80 :: List.replicate ((239 - m.length % 128) % 128) 0 ++ bytesBE 16 (8 * m.length)

/-- The blocks in turn. -/
def blocks : Nat → List W64 → List W64 → List W64
  | 0, _, hash => hash
  | n + 1, ws, hash => if ws = [] then hash else blocks n (ws.drop 16) (block hash (ws.take 16))

/-- The digest: 64 bytes. -/
def digest (m : List Byte) : List Byte :=
  let ws := wordsBE (padded m)
  (blocks (ws.length / 16) ws initial).flatMap fun w => bytesBE 8 w.toNat

end Sys2Proof.Sha512
end

