-- ==== Sys2Proof/Operand.lean ====
section
/-!
DEFINITION. Register specifiers, types, permutation modifiers and the two operand shapes an encoded instruction has
(spec/06, R138 to R149; spec/03, R63, R74).
-/
namespace Sys2Proof

/-- A 9-bit register specifier (R142), reserved codes left out. -/
inductive Spec where
  | v (n : Fin 128)
  | s (n : Fin 64)
  | x (n : Fin 8)
  | q (n : Fin 4)
  | p (n : Fin 8)
  | lit
  | zero
  | ind (k : Fin 8) (o : Fin 16)
deriving DecidableEq, Repr

/-- The 9-bit code of a specifier (R142). -/
def Spec.code : Spec → Nat
  | .v n => n.val
  | .s n => 128 + n.val
  | .x n => 256 + n.val
  | .q n => 264 + n.val
  | .p n => 272 + n.val
  | .lit => 0x17E
  | .zero => 0x17F
  | .ind k o => 384 + 16 * k.val + o.val

/-- Reads a 9-bit specifier; reserved codes give none (R142). -/
def Spec.ofCode (c : Nat) : Option Spec :=
  if h : c < 128 then some (.v ⟨c, h⟩)
  else if h : c - 128 < 64 then some (.s ⟨c - 128, h⟩)
  else if c < 256 then none
  else if h : c - 256 < 8 then some (.x ⟨c - 256, h⟩)
  else if h : c - 264 < 4 then some (.q ⟨c - 264, h⟩)
  else if c < 272 then none
  else if h : c - 272 < 8 then some (.p ⟨c - 272, h⟩)
  else if c = 0x17E then some .lit
  else if c = 0x17F then some .zero
  else if c < 384 then none
  else if c < 512 then
    some (.ind ⟨(c - 384) / 16 % 8, Nat.mod_lt _ (by decide)⟩ ⟨(c - 384) % 16, Nat.mod_lt _ (by decide)⟩)
  else none

/-- The operand types of TY (R146). -/
inductive Ty where
  | i32 | i64 | n32 | n64 | f64 | f32 | f16 | bf16 | i16 | n16 | i8 | n8 | pred | z64 | ptr | b8
deriving DecidableEq, Repr

/-- TY codes in the order of R146. -/
def Ty.code : Ty → Nat
  | .i32 => 0 | .i64 => 1 | .n32 => 2 | .n64 => 3 | .f64 => 4 | .f32 => 5 | .f16 => 6 | .bf16 => 7
  | .i16 => 8 | .n16 => 9 | .i8 => 10 | .n8 => 11 | .pred => 12 | .z64 => 13 | .ptr => 14 | .b8 => 15

/-- Reads a TY code; 0x10 to 0x1F are reserved (R146). -/
def Ty.ofCode : Nat → Option Ty
  | 0 => some .i32 | 1 => some .i64 | 2 => some .n32 | 3 => some .n64
  | 4 => some .f64 | 5 => some .f32 | 6 => some .f16 | 7 => some .bf16
  | 8 => some .i16 | 9 => some .n16 | 10 => some .i8 | 11 => some .n8
  | 12 => some .pred | 13 => some .z64 | 14 => some .ptr | 15 => some .b8
  | _ => none

/-- Bits of a value of the type; a predicate counts as one bit (R87, R89, R144). -/
def Ty.width : Ty → Nat
  | .i64 | .n64 | .f64 | .z64 | .ptr => 64
  | .i32 | .n32 | .f32 => 32
  | .i16 | .n16 | .f16 | .bf16 => 16
  | .i8 | .n8 | .b8 => 8
  | .pred => 1

/-- Bytes a load or store of the type moves (R219). -/
def Ty.bytes (t : Ty) : Nat := if t = .pred then 1 else t.width / 8

def Ty.wide (t : Ty) : Bool := t.width = 64

/-- Signed integer types (R87). -/
def Ty.signedInt : Ty → Bool
  | .i8 | .i16 | .i32 | .i64 => true
  | _ => false

def Ty.isInt : Ty → Bool
  | .i8 | .i16 | .i32 | .i64 | .n8 | .n16 | .n32 | .n64 => true
  | _ => false

def Ty.isFloat : Ty → Bool
  | .f64 | .f32 | .f16 | .bf16 => true
  | _ => false

/-- The permutation modifiers of R74. -/
inductive Perm where
  | none
  | bfly (k : Fin 6)
  | rot8 (k : Fin 8)
  | rev
  | bcast (j : Fin 64)
deriving DecidableEq, Repr

/-- The short form of an instruction: LEN 00, word 0 alone (R138). -/
structure Short where
  /-- VER 01 when true (R145). -/
  ver1 : Bool
  d : Spec
  a : Spec
deriving DecidableEq, Repr

/-- Which of the forms with more than one word an instruction takes (R138). -/
inductive LongForm where
  | len01 | len10 | len11
deriving DecidableEq, Repr

/-- Every field of an instruction of LEN 01, 10 or 11 (R138 to R141); a form that lacks a field holds the implied value. -/
structure Long where
  form : LongForm
  ver1 : Bool
  d : Spec
  a : Spec
  b : Spec
  c : Spec
  /-- PN: 1 negates the guard. -/
  pn : Bool
  /-- PI: the guard predicate. -/
  pi : Fin 8
  perm : Perm
  look : Fin 16
  ty : Ty
  mod : Fin 128
  imm : Fin 65536
  lit : W64
deriving DecidableEq, Repr

end Sys2Proof
end

