-- ==== Sys2Proof/Syntax.lean ====
section
/-!
DEFINITION. The syntax: one constructor for each row of spec/opcode_table.json.

Rows 0 to 204 are instructions: a row of a 32-bit short form takes `Short`, any other row takes `Long` (spec/06, R138).
Rows 205 to 315 are the device's own steps and the requests that reach it from outside (spec/95): their arguments name
what the step acts on, or carry what comes from outside the module.
-/
namespace Sys2Proof

/-- Names one entry of the device: its core, strand slot and piece-table position (R29, R288). -/
structure EntryRef where
  core : Nat
  slot : Nat
  pos : Nat
deriving DecidableEq, Repr

/-- Every step of the part, one constructor for each row of the opcode table. -/
inductive Instr where
  /-- NOP (R157). -/
  | nop (o : Short)
  /-- NOP_LONG (R157). -/
  | nopLong (o : Long)
  /-- EXIT (R158). -/
  | exit (o : Short)
  /-- EXIT_LONG (R158). -/
  | exitLong (o : Long)
  /-- JOIN (R159). -/
  | join (o : Short)
  /-- JOIN_LONG (R159). -/
  | joinLong (o : Long)
  /-- YIELD (R160). -/
  | yield (o : Short)
  /-- YIELD_LONG (R160). -/
  | yieldLong (o : Long)
  /-- RET (R161). -/
  | ret (o : Short)
  /-- RET_LONG (R161). -/
  | retLong (o : Long)
  /-- ELECT (R162). -/
  | elect (o : Short)
  /-- ELECT_LONG (R162). -/
  | electLong (o : Long)
  /-- TRAP (R163). -/
  | trap (o : Short)
  /-- TRAP_LONG (R163). -/
  | trapLong (o : Long)
  /-- IDX (R164). -/
  | idx (o : Short)
  /-- IDX_LONG (R164). -/
  | idxLong (o : Long)
  /-- FORMOF (R165). -/
  | formof (o : Short)
  /-- FORMOF_LONG (R165). -/
  | formofLong (o : Long)
  /-- BRA (R161). -/
  | bra (o : Long)
  /-- CALL (R161). -/
  | call (o : Long)
  /-- BRU (R166). -/
  | bru (o : Long)
  /-- BRC (R167). -/
  | brc (o : Long)
  /-- YIELDC (R168). -/
  | yieldc (o : Long)
  /-- SPLIT (R44). -/
  | split (o : Long)
  /-- FUSE (R45). -/
  | fuse (o : Long)
  /-- VOTE (R172). -/
  | vote (o : Short)
  /-- VOTE_LONG (R172). -/
  | voteLong (o : Long)
  /-- REORD (R173). -/
  | reord (o : Long)
  /-- MOV (R176). -/
  | mov (o : Short)
  /-- MOV_LONG (R176). -/
  | movLong (o : Long)
  /-- MOVI (R176). -/
  | movi (o : Short)
  /-- MOVI_LONG (R176). -/
  | moviLong (o : Long)
  /-- SEL (R176). -/
  | sel (o : Short)
  /-- SEL_LONG (R176). -/
  | selLong (o : Long)
  /-- IADD (R177). -/
  | iadd (o : Short)
  /-- IADD_LONG (R177). -/
  | iaddLong (o : Long)
  /-- ISUB (R177). -/
  | isub (o : Short)
  /-- ISUB_LONG (R177). -/
  | isubLong (o : Long)
  /-- INEG (R177). -/
  | ineg (o : Short)
  /-- INEG_LONG (R177). -/
  | inegLong (o : Long)
  /-- IABS (R177). -/
  | iabs (o : Short)
  /-- IABS_LONG (R177). -/
  | iabsLong (o : Long)
  /-- IMIN (R177). -/
  | imin (o : Short)
  /-- IMIN_LONG (R177). -/
  | iminLong (o : Long)
  /-- IMAX (R177). -/
  | imax (o : Short)
  /-- IMAX_LONG (R177). -/
  | imaxLong (o : Long)
  /-- IMUL (R178). -/
  | imul (o : Short)
  /-- IMUL_LONG (R178). -/
  | imulLong (o : Long)
  /-- IMULH (R178). -/
  | imulh (o : Short)
  /-- IMULH_LONG (R178). -/
  | imulhLong (o : Long)
  /-- IMAD (R178). -/
  | imad (o : Short)
  /-- IMAD_LONG (R178). -/
  | imadLong (o : Long)
  /-- SHL (R179). -/
  | shl (o : Short)
  /-- SHL_LONG (R179). -/
  | shlLong (o : Long)
  /-- SHR (R179). -/
  | shr (o : Short)
  /-- SHR_LONG (R179). -/
  | shrLong (o : Long)
  /-- SAR (R179). -/
  | sar (o : Short)
  /-- SAR_LONG (R179). -/
  | sarLong (o : Long)
  /-- ROL (R179). -/
  | rol (o : Short)
  /-- ROL_LONG (R179). -/
  | rolLong (o : Long)
  /-- AND (R180). -/
  | and (o : Short)
  /-- AND_LONG (R180). -/
  | andLong (o : Long)
  /-- OR (R180). -/
  | or (o : Short)
  /-- OR_LONG (R180). -/
  | orLong (o : Long)
  /-- XOR (R180). -/
  | xor (o : Short)
  /-- XOR_LONG (R180). -/
  | xorLong (o : Long)
  /-- ANDN (R180). -/
  | andn (o : Short)
  /-- ANDN_LONG (R180). -/
  | andnLong (o : Long)
  /-- NOT (R180). -/
  | not (o : Short)
  /-- NOT_LONG (R180). -/
  | notLong (o : Long)
  /-- POPC (R180). -/
  | popc (o : Short)
  /-- POPC_LONG (R180). -/
  | popcLong (o : Long)
  /-- CLZ (R180). -/
  | clz (o : Short)
  /-- CLZ_LONG (R180). -/
  | clzLong (o : Long)
  /-- CTZ (R180). -/
  | ctz (o : Short)
  /-- CTZ_LONG (R180). -/
  | ctzLong (o : Long)
  /-- BREV (R180). -/
  | brev (o : Short)
  /-- BREV_LONG (R180). -/
  | brevLong (o : Long)
  /-- BFX (R181). -/
  | bfx (o : Short)
  /-- BFX_LONG (R181). -/
  | bfxLong (o : Long)
  /-- BFI (R181). -/
  | bfi (o : Short)
  /-- BFI_LONG (R181). -/
  | bfiLong (o : Long)
  /-- ICMP (R182). -/
  | icmp (o : Short)
  /-- ICMP_LONG (R182). -/
  | icmpLong (o : Long)
  /-- PLOG (R184). -/
  | plog (o : Short)
  /-- PLOG_LONG (R184). -/
  | plogLong (o : Long)
  /-- LEA (R185). -/
  | lea (o : Short)
  /-- LEA_LONG (R185). -/
  | leaLong (o : Long)
  /-- ICVT (R186). -/
  | icvt (o : Short)
  /-- ICVT_LONG (R186). -/
  | icvtLong (o : Long)
  /-- FADD (R193). -/
  | fadd (o : Short)
  /-- FADD_LONG (R193). -/
  | faddLong (o : Long)
  /-- FSUB (R193). -/
  | fsub (o : Short)
  /-- FSUB_LONG (R193). -/
  | fsubLong (o : Long)
  /-- FMUL (R193). -/
  | fmul (o : Short)
  /-- FMUL_LONG (R193). -/
  | fmulLong (o : Long)
  /-- FMIN (R195). -/
  | fmin (o : Short)
  /-- FMIN_LONG (R195). -/
  | fminLong (o : Long)
  /-- FMAX (R195). -/
  | fmax (o : Short)
  /-- FMAX_LONG (R195). -/
  | fmaxLong (o : Long)
  /-- FFMA (R193). -/
  | ffma (o : Short)
  /-- FFMA_LONG (R193). -/
  | ffmaLong (o : Long)
  /-- FABS (R196). -/
  | fabs (o : Short)
  /-- FABS_LONG (R196). -/
  | fabsLong (o : Long)
  /-- FNEG (R196). -/
  | fneg (o : Short)
  /-- FNEG_LONG (R196). -/
  | fnegLong (o : Long)
  /-- FCLASS (R197). -/
  | fclass (o : Short)
  /-- FCLASS_LONG (R197). -/
  | fclassLong (o : Long)
  /-- FCMP (R198). -/
  | fcmp (o : Short)
  /-- FCMP_LONG (R198). -/
  | fcmpLong (o : Long)
  /-- FRCP (R193). -/
  | frcp (o : Long)
  /-- FRSQ (R194). -/
  | frsq (o : Long)
  /-- FSQRT (R193). -/
  | fsqrt (o : Long)
  /-- FDIV (R193). -/
  | fdiv (o : Long)
  /-- FEXP2 (R194). -/
  | fexp2 (o : Long)
  /-- FLOG2 (R194). -/
  | flog2 (o : Long)
  /-- FTANH (R194). -/
  | ftanh (o : Long)
  /-- FCVT (R200). -/
  | fcvt (o : Short)
  /-- FCVT_LONG (R200). -/
  | fcvtLong (o : Long)
  /-- FCVT_B8 (R200). -/
  | fcvtB8 (o : Long)
  /-- FITOF (R200). -/
  | fitof (o : Long)
  /-- FFTOI (R201). -/
  | fftoi (o : Short)
  /-- FFTOI_LONG (R201). -/
  | fftoiLong (o : Long)
  /-- QCVT (R202). -/
  | qcvt (o : Long)
  /-- QSCALE_FIT (R203). -/
  | qscaleFit (o : Long)
  /-- QSCALE_APPLY (R203). -/
  | qscaleApply (o : Long)
  /-- PERM (R206). -/
  | perm (o : Long)
  /-- REDU (R207). -/
  | redu (o : Long)
  /-- SCAN (R208). -/
  | scan (o : Long)
  /-- ZMOD (R211). -/
  | zmod (o : Long)
  /-- ZADD (R212). -/
  | zadd (o : Long)
  /-- ZSUB (R212). -/
  | zsub (o : Long)
  /-- ZMUL (R212). -/
  | zmul (o : Long)
  /-- ZMULC (R212). -/
  | zmulc (o : Long)
  /-- ZRED (R212). -/
  | zred (o : Long)
  /-- ZTOM (R212). -/
  | ztom (o : Long)
  /-- ZFROMM (R212). -/
  | zfromm (o : Long)
  /-- ZNTT (R213). -/
  | zntt (o : Long)
  /-- ZINTT (R213). -/
  | zintt (o : Long)
  /-- ZTWID (R214). -/
  | ztwid (o : Long)
  /-- LD (R219). -/
  | ld (o : Long)
  /-- LDP (R221). -/
  | ldp (o : Long)
  /-- LDS (R222). -/
  | lds (o : Long)
  /-- PREF (R223). -/
  | pref (o : Long)
  /-- ST (R219). -/
  | st (o : Long)
  /-- STP (R221). -/
  | stp (o : Long)
  /-- STS (R222). -/
  | sts (o : Long)
  /-- CHKB (R224). -/
  | chkb (o : Long)
  /-- CHKX (R224). -/
  | chkx (o : Long)
  /-- XSET (R225). -/
  | xset (o : Long)
  /-- ATOM (R226). -/
  | atom (o : Long)
  /-- ATOMS (R226). -/
  | atoms (o : Long)
  /-- CAS (R227). -/
  | cas (o : Long)
  /-- LOCK (R230). -/
  | lock (o : Long)
  /-- UNLOCK (R231). -/
  | unlock (o : Long)
  /-- FENCE (R241). -/
  | fence (o : Long)
  /-- CMAINT (R242). -/
  | cmaint (o : Long)
  /-- BARI (R237). -/
  | bari (o : Long)
  /-- BARV (R238). -/
  | barv (o : Long)
  /-- BARN (R238). -/
  | barn (o : Long)
  /-- BARW (R239). -/
  | barw (o : Long)
  /-- WAITV (R234). -/
  | waitv (o : Long)
  /-- WAITC (R235). -/
  | waitc (o : Long)
  /-- GANG (R249). -/
  | gang (o : Long)
  /-- FBLK (R253). -/
  | fblk (o : Long)
  /-- AMAP (R255). -/
  | amap (o : Long)
  /-- MMA (R260). -/
  | mma (o : Long)
  /-- MMAS (R260). -/
  | mmas (o : Long)
  /-- ZMMA (R260). -/
  | zmma (o : Long)
  /-- CMPR (R262). -/
  | cmpr (o : Long)
  /-- ACLR (R264). -/
  | aclr (o : Long)
  /-- ALD (R264). -/
  | ald (o : Long)
  /-- AST (R264). -/
  | ast (o : Long)
  /-- AMOV (R264). -/
  | amov (o : Long)
  /-- ASCL (R264). -/
  | ascl (o : Long)
  /-- ADRAIN (R267). -/
  | adrain (o : Long)
  /-- ADRAIN_MEM (R267). -/
  | adrainMem (o : Long)
  /-- CPY (R274). -/
  | cpy (o : Long)
  /-- CPYP (R276). -/
  | cpyp (o : Long)
  /-- CPYK (R278). -/
  | cpyk (o : Long)
  /-- COLL (R279). -/
  | coll (o : Long)
  /-- CSTAT (R273). -/
  | cstat (o : Long)
  /-- CNT (R281). -/
  | cnt (o : Long)
  /-- CANCEL (R283). -/
  | cancel (o : Long)
  /-- STRM (R284). -/
  | strm (o : Long)
  /-- STRX (R285). -/
  | strx (o : Long)
  /-- CSRR (R286). -/
  | csrr (o : Long)
  /-- CSRR_XFLAG (R286). -/
  | csrrXflag (o : Long)
  /-- CSRR_TRAPQ (R288). -/
  | csrrTrapq (o : Long)
  /-- CSRW (R286). -/
  | csrw (o : Long)
  /-- CSRW_XFLAG (R286). -/
  | csrwXflag (o : Long)
  /-- CSRW_RGEN (R98). -/
  | csrwRgen (o : Long)
  /-- CORE_PART_WRITE (R78). -/
  | corePartWrite (o : Long)
  /-- CORE_RET_WRITE (R86). -/
  | coreRetWrite (o : Long)
  /-- QE_PSUM_CLEAR (R359). -/
  | qePsumClear (o : Long)
  /-- QE_LSEED_WRITE (R98). -/
  | qeLseedWrite (o : Long)
  /-- TIME (R287). -/
  | time (o : Long)
  /-- SAVE (R289). -/
  | save (o : Long)
  /-- REST (R290). -/
  | rest (o : Long)
  /-- TRET (R291). -/
  | tret (o : Long)
  /-- CLRX (R292). -/
  | clrx (o : Long)
  /-- RPLR (R294). -/
  | rplr (o : Long)
  /-- RPLQ (R293). -/
  | rplq (o : Long)
  /-- QWAIT (R295). -/
  | qwait (o : Long)
  /-- FLTACK (R296). -/
  | fltack (o : Long)
  /-- REJOIN (R40). -/
  | rejoin (e : EntryRef)
  /-- FUSE_HOLD_END (R47). -/
  | fuseHoldEnd (e : EntryRef)
  /-- FUSE_RETRY (R170). -/
  | fuseRetry (e : EntryRef)
  /-- YIELDC_WAKE (R53). -/
  | yieldcWake (e : EntryRef)
  /-- WATCHDOG (R52). -/
  | watchdog (core slot : Nat)
  /-- TIMEOUT (R232). -/
  | timeout (e : EntryRef)
  /-- LOCK_RETRY (R230). -/
  | lockRetry (e : EntryRef)
  /-- WAITV_REEVALUATE (R234). -/
  | waitvReevaluate (e : EntryRef)
  /-- GANG_MEMBER_LEAVE (R250). -/
  | gangMemberLeave (flight snum : Nat)
  /-- GANG_LATCH_TIMEOUT (R251). -/
  | gangLatchTimeout (flight : Nat)
  /-- ENGINE_QUEUE_ENTER (R252). -/
  | engineQueueEnter (flight : Nat)
  /-- MATRIX_ENGINE_START (R350). -/
  | matrixEngineStart (core : Nat)
  /-- MATRIX_RETIRE (R350). -/
  | matrixRetire (core : Nat)
  /-- SYNC_MATRIX_COMPLETE (R265). -/
  | syncMatrixComplete (core : Nat)
  /-- DRAIN_PERFORM (R128). -/
  | drainPerform (core : Nat)
  /-- COPY_CHUNK_PERFORM (R274). -/
  | copyChunkPerform (op chunk : Nat)
  /-- STREAM_ELEMENT_DELIVER (R284). -/
  | streamElementDeliver (e : EntryRef) (queue : Nat)
  /-- COLL_EXCHANGE (R447). -/
  | collExchange (op : Nat) (agree : Bool) (others : List (List Byte))
  /-- COLL_ABORT_FLIT (R448). -/
  | collAbortFlit (fn : Nat) (id : W32) (use cause : Nat)
  /-- COLL_TIMEOUT (R280). -/
  | collTimeout (op : Nat)
  /-- FLIGHT_DISPATCH (R28). -/
  | flightDispatch
  /-- STALL_SWEEP (R55). -/
  | stallSweep (tag : Nat)
  /-- QUIESCENCE_COMPLETE (R385). -/
  | quiescenceComplete (flight : Nat)
  /-- CLRX_COMPLETE (R292). -/
  | clrxComplete (core : Nat)
  /-- REORDER_PHASE_CLOSE (R57). -/
  | reorderPhaseClose (tag : Nat)
  /-- LAUNCH_COMPLETE (R369). -/
  | launchComplete (tag : Nat)
  /-- PARTITION_WORD_TAKE_EFFECT (R79). -/
  | partitionWordTakeEffect (core : Nat)
  /-- POOL_ZEROING_DONE (R79). -/
  | poolZeroingDone (core : Nat)
  /-- RETENTION_ENTRY (R85). -/
  | retentionEntry (core bank : Nat)
  /-- RETENTION_ENTRY_DONE (R85). -/
  | retentionEntryDone (core bank : Nat)
  /-- RETENTION_EXIT_DONE (R85). -/
  | retentionExitDone (core bank : Nat)
  /-- BUDGET_REFILL (R400). -/
  | budgetRefill (part : Nat)
  /-- BUDGET_EXHAUSTED (R401). -/
  | budgetExhausted (part : Nat)
  /-- KICK (R358). -/
  | kick (fn qid : Nat) (w : W32)
  /-- Q0GO (R363). -/
  | q0go (fn : Nat)
  /-- SCHEDULING_PASS (R375). -/
  | schedulingPass (part : Nat)
  /-- FAULT_ACK (R367). -/
  | faultAck (fn qid : Nat)
  /-- SIGNAL (R367). -/
  | signal (fn qid : Nat)
  /-- WAIT (R367). -/
  | wait (fn qid : Nat)
  /-- WAIT_PACKET_DONE (R369). -/
  | waitPacketDone (fn qid : Nat)
  /-- COPY (R367). -/
  | copy (fn qid : Nat)
  /-- LAUNCH (R378). -/
  | launch (fn qid : Nat)
  /-- GANG_RESERVATION (R379). -/
  | gangReservation (fn qid : Nat)
  /-- ADMIT (R336). -/
  | admitPkt (fn qid : Nat)
  /-- ADMISSION_COMPLETE (R336). -/
  | admissionComplete (unit : Nat)
  /-- DESTROY (R339). -/
  | destroy (fn qid : Nat)
  /-- REGQ (R363). -/
  | regq (fn qid : Nat)
  /-- UNREGQ (R362). -/
  | unregq (fn qid : Nat)
  /-- RESETQ (R372). -/
  | resetq (fn qid : Nat)
  /-- REKEY (R372). -/
  | rekey (fn qid : Nat)
  /-- SEQ_GAP (R371). -/
  | seqGap (fn qid : Nat)
  /-- VF_RESET (R406). -/
  | vfReset (fn : Nat)
  /-- PF_QUEUE_RESET (R406). -/
  | pfQueueReset
  /-- FUNCTION_LEVEL_RESET (R406). -/
  | functionLevelReset (fn : Nat)
  /-- PARTITION_APPLY (R398). -/
  | partitionApply (part : Nat)
  /-- PARTITION_APPLY_DONE (R405). -/
  | partitionApplyDone (part : Nat)
  /-- PART_PROT_WRITE (R421). -/
  | partProtWrite (v : W64)
  /-- PART_WAYM_WRITE (R397). -/
  | partWaymWrite (owner : Nat) (mask : Nat)
  /-- REGION_APPLY (R399). -/
  | regionApply (region : Nat)
  /-- REGION_REVOKE (R399). -/
  | regionRevoke (region : Nat)
  /-- PAGE_SECTOR_MOVE (R404). -/
  | pageSectorMove (va : W64) (newFrame : Nat)
  /-- HOST_DMA (R111). -/
  | hostDma (fn : Nat) (addr : W64) (write : Bool) (len : Nat) (data : List Byte)
  /-- SEC_IWIN_WRITE (R413). -/
  | secIwinWrite (v : W64)
  /-- LINE_WRITEBACK (R415). -/
  | lineWriteback (line : Nat)
  /-- LINE_FILL (R416). -/
  | lineFill (line : Nat)
  /-- TABLE_APPLY (R434). -/
  | tableApply (sel : Nat)
  /-- TABLE_TAKE_EFFECT (R434). -/
  | tableTakeEffect
  /-- SLOT_SEND (R435). -/
  | slotSend (pair : Nat)
  /-- GONDOLA_RESPONSE (R436). -/
  | gondolaResponse (pair : Nat) (poisoned : Bool)
  /-- FLIT_RECEIVE (R431). -/
  | flitReceive (pair : Nat) (ok : Bool)
  /-- LOSS_OF_LOCK (R439). -/
  | lossOfLock (pair : Nat)
  /-- RETRAIN_END (R440). -/
  | retrainEnd (pair spares : Nat)
  /-- TETHER_STALL (R440). -/
  | tetherStall (pair : Nat)
  /-- PAIR_DOWN (R440). -/
  | pairDown (pair : Nat)
  /-- PEER_LINK_UP (R442). -/
  | peerLinkUp (port : Nat) (peerId : W32)
  /-- PEER_REQUEST (R445). -/
  | peerRequest (port fn exp rfn : Nat) (write : Bool) (offset len : Nat) (data : List Byte)
  /-- PEER_PORT_DOWN (R448). -/
  | peerPortDown (port : Nat)
  /-- PATROL_STEP (R452). -/
  | patrolStep
  /-- PATROL_DEFER_RETRY (R454). -/
  | patrolDeferRetry
  /-- FEATURE_COMMIT (R461). -/
  | featureCommit
  /-- TELEMETRY_SAMPLE (R466). -/
  | telemetrySample (tmax tgmax c0k c0g : Nat)
  /-- REGISTER_WRITE (R8). -/
  | registerWrite (fn offset size : Nat) (v : W64)
  /-- TEL_GET (R467). -/
  | telGet
  /-- SPMAP_GET (R467). -/
  | spmapGet
  /-- PATLOG_GET (R467). -/
  | patlogGet
  /-- RESET_PART (R467). -/
  | resetPart (part : Nat)
  /-- RESET_DEV (R467). -/
  | resetDev
  /-- LINK_RETRAIN (R467). -/
  | linkRetrain (pair : Nat)
  /-- DBG_NONCE (R427). -/
  | dbgNonce
  /-- DBG_UNLOCK (R428). -/
  | dbgUnlock (token : List Byte)
  /-- DBG_RD (R467). -/
  | dbgRd (addr : Nat)
  /-- DBG_WR (R467). -/
  | dbgWr (addr : Nat) (v : W64)
  /-- GET_CERTIFICATE (R423). -/
  | getCertificate (session : Nat)
  /-- KEY_EXCHANGE (R423). -/
  | keyExchange (fn : Nat)
  /-- GET_MEASUREMENTS (R424). -/
  | getMeasurements (session index : Nat)
  /-- KEY_LOAD (R418). -/
  | keyLoad (session fn : Nat) (tk : List Byte)
  /-- KEY_CLEAR (R418). -/
  | keyClear (session fn : Nat)
  /-- KEY_QUERY (R418). -/
  | keyQuery (session fn : Nat)
  /-- IDE_KM (R420). -/
  | ideKm (session fn : Nat) (key : List Byte)
  /-- LOCK_INTERFACE (R421). -/
  | lockInterface (fn : Nat)
  /-- START_INTERFACE (R421). -/
  | startInterface (fn : Nat)
  /-- STOP_INTERFACE (R421). -/
  | stopInterface (fn : Nat)
  /-- DEVICE_RESET (R394). -/
  | deviceReset
  /-- INITIAL_TRAINING (R441). -/
  | initialTraining (pair : Nat) (ok : Bool)
  /-- PATROL_TEST_END (R452). -/
  | patrolTestEnd (failing : List Nat)
  /-- POWER_THROTTLE (R465). -/
  | powerThrottle (pnow thr : Nat) (c0over : Bool)
  /-- D3HOT (R465). -/
  | d3hot (enter : Bool)
  /-- END_SESSION (R417). -/
  | endSession (session : Nat)
  /-- LIFECYCLE_TRANSITION (R426). -/
  | lifecycleTransition (target : Nat) (signed : Bool)
  /-- CHANNEL_SUBSTITUTION (R436). -/
  | channelSubstitution (channel : Nat)
  /-- SMBUS_FALLBACK (R467). -/
  | smbusFallback
deriving DecidableEq, Repr

end Sys2Proof
end

