-- ==== Sys2Proof/Machine/OpTable.lean ====
section
/-!
DEFINITION. The opcode map (spec/06, R148) and, for each opcode, the forms, operand classes, types and MOD and IMM values
that its instruction chapter gives (R156, R175, R192, R199, R204, R205, R210, R217, R259, R261, R263, R270).

The limits that the spec charges to ADM-TYP or ADM-ENC on the words alone are checked here together, so a word that
breaks one never decodes (assumption 18).
-/
namespace Sys2Proof

/-- Every opcode of the map of R148. -/
inductive Op where
  | nop | exit | join | yield | ret | elect | trap | idx | formof | bra | call | bru | brc | yieldc | split 
  | fuse | vote | reord | mov | movi | sel | iadd | isub | ineg | iabs | imin | imax | imul | imulh | imad 
  | shl | shr | sar | rol | and | or | xor | andn | not | popc | clz | ctz | brev | bfx | bfi | icmp 
  | plog | lea | icvt | fadd | fsub | fmul | fmin | fmax | ffma | fabs | fneg | fclass | fcmp | frcp 
  | frsq | fsqrt | fdiv | fexp2 | flog2 | ftanh | fcvt | fitof | fftoi | qcvt | qscale | perm | redu 
  | scan | zmod | zadd | zsub | zmul | zmulc | zred | ztom | zfromm | zntt | zintt | ztwid | ld | ldp 
  | lds | pref | st | stp | sts | chkb | chkx | xset | atom | atoms | cas | lock | unlock | fence | cmaint 
  | bari | barv | barn | barw | waitv | waitc | gang | fblk | amap | mma | mmas | zmma | cmpr | aclr 
  | ald | ast | amov | ascl | adrain | cpy | cpyp | cpyk | coll | cstat | cnt | cancel | strm | strx 
  | csrr | csrw | time | save | rest | tret | clrx | rplr | rplq | qwait | fltack 
deriving DecidableEq, Repr

/-- MAJ of an opcode (R148). -/
def Op.maj : Op → Nat
  | .nop | .exit | .join | .yield | .ret | .elect | .trap | .idx | .formof => 0x00
  | .bra | .call => 0x01
  | .bru => 0x02
  | .brc => 0x03
  | .yieldc => 0x04
  | .split | .fuse => 0x05
  | .vote => 0x06
  | .reord => 0x07
  | .mov | .movi | .sel => 0x08
  | .iadd | .isub | .ineg | .iabs | .imin | .imax => 0x09
  | .imul | .imulh | .imad => 0x0A
  | .shl | .shr | .sar | .rol => 0x0B
  | .and | .or | .xor | .andn | .not => 0x0C
  | .popc | .clz | .ctz | .brev => 0x0D
  | .bfx | .bfi => 0x0E
  | .icmp => 0x0F
  | .plog => 0x10
  | .lea => 0x11
  | .icvt => 0x12
  | .fadd | .fsub | .fmul | .fmin | .fmax => 0x18
  | .ffma => 0x19
  | .fabs | .fneg | .fclass => 0x1A
  | .fcmp => 0x1B
  | .frcp | .frsq | .fsqrt | .fdiv | .fexp2 | .flog2 | .ftanh => 0x1C
  | .fcvt | .fitof | .fftoi => 0x1D
  | .qcvt | .qscale => 0x1E
  | .perm => 0x20
  | .redu | .scan => 0x21
  | .zmod => 0x24
  | .zadd | .zsub | .zmul | .zmulc | .zred => 0x25
  | .ztom | .zfromm => 0x26
  | .zntt | .zintt | .ztwid => 0x27
  | .ld | .ldp | .lds | .pref => 0x28
  | .st | .stp | .sts => 0x29
  | .chkb | .chkx | .xset => 0x2A
  | .atom | .atoms | .cas => 0x2B
  | .lock | .unlock => 0x2C
  | .fence | .cmaint => 0x2D
  | .bari | .barv | .barn | .barw => 0x2E
  | .waitv | .waitc => 0x2F
  | .gang | .fblk | .amap => 0x30
  | .mma => 0x31
  | .mmas => 0x32
  | .zmma => 0x33
  | .cmpr => 0x34
  | .aclr | .ald | .ast | .amov | .ascl => 0x35
  | .adrain => 0x36
  | .cpy | .cpyp | .cpyk => 0x38
  | .coll => 0x39
  | .cstat | .cnt | .cancel => 0x3A
  | .strm | .strx => 0x3B
  | .csrr | .csrw | .time => 0x3C
  | .save | .rest | .tret | .clrx => 0x3D
  | .rplr | .rplq | .qwait | .fltack => 0x3E

/-- MIN of an opcode: its place in its row (R148). -/
def Op.min : Op → Nat
  | .nop | .bra | .bru | .brc | .yieldc | .split | .vote | .reord | .mov | .iadd | .imul | .shl | .and | .popc 
  | .bfx | .icmp | .plog | .lea | .icvt | .fadd | .ffma | .fabs | .fcmp | .frcp | .fcvt | .qcvt | .perm | .redu 
  | .zmod | .zadd | .ztom | .zntt | .ld | .st | .chkb | .atom | .lock | .fence | .bari | .waitv | .gang | .mma 
  | .mmas | .zmma | .cmpr | .aclr | .adrain | .cpy | .coll | .cstat | .strm | .csrr | .save | .rplr => 0
  | .exit | .call | .fuse | .movi | .isub | .imulh | .shr | .or | .clz | .bfi | .fsub | .fneg | .frsq | .fitof 
  | .qscale | .scan | .zsub | .zfromm | .zintt | .ldp | .stp | .chkx | .atoms | .unlock | .cmaint | .barv 
  | .waitc | .fblk | .ald | .cpyp | .cnt | .strx | .csrw | .rest | .rplq => 1
  | .join | .sel | .ineg | .imad | .sar | .xor | .ctz | .fmul | .fclass | .fsqrt | .fftoi | .zmul | .ztwid 
  | .lds | .sts | .xset | .cas | .barn | .amap | .ast | .cpyk | .cancel | .time | .tret | .qwait => 2
  | .yield | .iabs | .rol | .andn | .brev | .fmin | .fdiv | .zmulc | .pref | .barw | .amov | .clrx | .fltack => 3
  | .ret | .imin | .not | .fmax | .fexp2 | .zred | .ascl => 4
  | .elect | .imax | .flog2 => 5
  | .trap | .ftanh => 6
  | .idx => 7
  | .formof => 8

/-- The opcodes of a MAJ in MIN order; a reserved MAJ has none (R148). -/
def Op.ofMaj : Nat → List Op
  | 0x00 => [.nop, .exit, .join, .yield, .ret, .elect, .trap, .idx, .formof]
  | 0x01 => [.bra, .call]
  | 0x02 => [.bru]
  | 0x03 => [.brc]
  | 0x04 => [.yieldc]
  | 0x05 => [.split, .fuse]
  | 0x06 => [.vote]
  | 0x07 => [.reord]
  | 0x08 => [.mov, .movi, .sel]
  | 0x09 => [.iadd, .isub, .ineg, .iabs, .imin, .imax]
  | 0x0A => [.imul, .imulh, .imad]
  | 0x0B => [.shl, .shr, .sar, .rol]
  | 0x0C => [.and, .or, .xor, .andn, .not]
  | 0x0D => [.popc, .clz, .ctz, .brev]
  | 0x0E => [.bfx, .bfi]
  | 0x0F => [.icmp]
  | 0x10 => [.plog]
  | 0x11 => [.lea]
  | 0x12 => [.icvt]
  | 0x18 => [.fadd, .fsub, .fmul, .fmin, .fmax]
  | 0x19 => [.ffma]
  | 0x1A => [.fabs, .fneg, .fclass]
  | 0x1B => [.fcmp]
  | 0x1C => [.frcp, .frsq, .fsqrt, .fdiv, .fexp2, .flog2, .ftanh]
  | 0x1D => [.fcvt, .fitof, .fftoi]
  | 0x1E => [.qcvt, .qscale]
  | 0x20 => [.perm]
  | 0x21 => [.redu, .scan]
  | 0x24 => [.zmod]
  | 0x25 => [.zadd, .zsub, .zmul, .zmulc, .zred]
  | 0x26 => [.ztom, .zfromm]
  | 0x27 => [.zntt, .zintt, .ztwid]
  | 0x28 => [.ld, .ldp, .lds, .pref]
  | 0x29 => [.st, .stp, .sts]
  | 0x2A => [.chkb, .chkx, .xset]
  | 0x2B => [.atom, .atoms, .cas]
  | 0x2C => [.lock, .unlock]
  | 0x2D => [.fence, .cmaint]
  | 0x2E => [.bari, .barv, .barn, .barw]
  | 0x2F => [.waitv, .waitc]
  | 0x30 => [.gang, .fblk, .amap]
  | 0x31 => [.mma]
  | 0x32 => [.mmas]
  | 0x33 => [.zmma]
  | 0x34 => [.cmpr]
  | 0x35 => [.aclr, .ald, .ast, .amov, .ascl]
  | 0x36 => [.adrain]
  | 0x38 => [.cpy, .cpyp, .cpyk]
  | 0x39 => [.coll]
  | 0x3A => [.cstat, .cnt, .cancel]
  | 0x3B => [.strm, .strx]
  | 0x3C => [.csrr, .csrw, .time]
  | 0x3D => [.save, .rest, .tret, .clrx]
  | 0x3E => [.rplr, .rplq, .qwait, .fltack]
  | _ => []

/-- The opcode of a MAJ and MIN, if assigned (R148). -/
def Op.find (maj min : Nat) : Option Op := (Op.ofMaj maj)[min]?

/-- The LEN values that the opcode row admits (R148, R199). -/
def Op.lens : Op → List Nat
  | .nop | .exit | .join | .yield | .ret | .elect | .trap | .idx | .formof | .vote => [0, 1]
  | .bra | .call | .bru | .brc | .yieldc | .split | .fuse | .reord | .redu | .scan => [1]
  | .mov | .movi | .sel | .iadd | .isub | .ineg | .iabs | .imin | .imax | .imul | .imulh | .imad | .shl | .shr 
  | .sar | .rol | .and | .or | .xor | .andn | .not | .popc | .clz | .ctz | .brev | .bfx | .bfi | .icmp | .plog 
  | .lea | .icvt | .fadd | .fsub | .fmul | .fmin | .fmax | .ffma | .fabs | .fneg | .fclass | .fcmp | .fcvt 
  | .fitof | .fftoi => [0, 1, 2, 3]
  | .frcp | .frsq | .fsqrt | .fdiv | .fexp2 | .flog2 | .ftanh | .qcvt | .qscale | .perm | .zmod | .zadd 
  | .zsub | .zmul | .zmulc | .zred | .ztom | .zfromm | .zntt | .zintt | .ztwid | .ld | .ldp | .lds | .pref 
  | .st | .stp | .sts | .chkb | .chkx | .xset | .atom | .atoms | .cas | .lock | .unlock | .fence | .cmaint 
  | .bari | .barv | .barn | .barw | .waitv | .waitc | .gang | .fblk | .amap | .mma | .mmas | .zmma | .cmpr 
  | .aclr | .ald | .ast | .amov | .ascl | .adrain | .cpy | .cpyp | .cpyk | .coll | .cstat | .cnt | .cancel 
  | .strm | .strx | .csrr | .csrw | .time | .save | .rest | .tret | .clrx | .rplr | .rplq | .qwait | .fltack => [1, 3]

/-- The TY that LEN 00 and LEN 10 imply (R148, R149). -/
def Op.defaultTy : Op → Ty
  | .fadd | .fsub | .fmul | .fmin | .fmax | .ffma | .fabs | .fneg | .fclass | .fcmp | .fcvt | .fitof | .fftoi => .f32
  | _ => .i32

/-- Specifier classes as the operand letters of spec/07 name them: `v` a register named directly, `ind` one reached
through an index register. -/
inductive Sc where
  | v | ind | s | x | q | p | z | l
deriving DecidableEq, Repr

/-- What one operand field of an instruction admits: unused (it must hold the zero specifier, R150), or the classes
listed, with the operand 64 bits wide or not (R65) and its literal read at a type (R144). -/
inductive Field where
  | unused
  | uses (cls : List Sc) (wide : Bool) (lit : Ty)
deriving DecidableEq, Repr

/-- The four operand fields. -/
structure Fields where
  d : Field := .unused
  a : Field := .unused
  b : Field := .unused
  c : Field := .unused
deriving DecidableEq, Repr

def srcAll : List Sc := [.v, .ind, .s, .x, .q, .p, .z, .l]
def srcF : List Sc := [.v, .ind, .s, .q, .z, .l]
def dstInt : List Sc := [.v, .ind, .s, .p, .z]
def dstVSZ : List Sc := [.v, .ind, .s, .z]
def dstVZ : List Sc := [.v, .ind, .z]
def srcVSL : List Sc := [.v, .ind, .s, .l]
def srcSL : List Sc := [.s, .l]
/-- A pointer: an even pair named directly, or a scalar (spec/09). -/
def ptrF : Field := .uses [.v, .s] true .ptr
/-- An n32 source from V, S or L. -/
def n32F : Field := .uses srcVSL false .n32
/-- A status destination (R233). -/
def statF : Field := .uses dstVSZ false .n32

/-- The source field of an integer instruction (R175). -/
def iSrc (t : Ty) : Field := .uses srcAll t.wide t
def iDst (t : Ty) : Field := .uses dstInt t.wide t
def fSrc (t : Ty) : Field := .uses srcF t.wide t
def fDst (t : Ty) : Field := .uses dstVSZ t.wide t
def zSrc : Field := .uses srcF true .z64
def zDst : Field := .uses dstVSZ true .z64

/-- The IEEE format of a 2-bit target code (R199). -/
def fTarget : Nat → Ty
  | 0 => .f64
  | 1 => .f32
  | 2 => .f16
  | _ => .bf16

/-- The integer type of a 4-bit target code, if it is one (R186, R199). -/
def iTarget (c : Nat) : Option Ty :=
  match Ty.ofCode c with
  | some t => if t.isInt then some t else none
  | none => none

/-- Whether the target of a conversion is 64 bits wide. -/
def iTargetWide (c : Nat) : Bool := c = 1 || c = 3

/-- An address or offset field of a copy by its space code (R270). -/
def spaceF (sp : Nat) : Field := if sp = 1 then .uses srcSL false .n32 else ptrF

/-- The control and status registers that are wider than 32 bits, so that a v destination is a pair (R65, R286). -/
def csrWide (n : Nat) : Bool := n = 2 || n = 3 || n = 5 || n = 0x10 || (0x101 ≤ n && n ≤ 0x180)

/-- The operand fields of an opcode under its TY, MOD and IMM. -/
def Op.fields (op : Op) (t : Ty) (m imm : Nat) : Fields :=
  match op with
  | .nop | .exit | .join | .yield | .trap | .bra | .yieldc => {}
  | .ret => { a := .uses [.s] true .n64 }
  | .elect => { d := .uses [.p, .z] false .n32 }
  | .idx => { d := .uses dstVZ false .n32 }
  | .formof =>
    { d := .uses [.s, .z] false .n32,
      a := if m % 2 = 1 then .uses [.v] true .n64 else .uses [.v, .ind, .s, .x, .p, .z] false .n32 }
  | .call => { d := .uses [.s] true .n64 }
  | .bru => { a := .uses [.p, .s] true .n64 }
  | .brc => { a := .uses [.p] false .n32 }
  | .split | .fuse => { d := .uses [.s, .z] false .n32 }
  | .vote =>
    { d := if m % 4 = 2 then .uses [.s, .z] true .n64 else .uses [.p, .s, .v, .ind, .z] false .n32,
      a := .uses [.v, .ind, .s, .x, .q, .p] false .n32 }
  | .reord => { a := .uses [.v, .ind, .s] false .n32, b := .uses [.v] false .n32 }
  | .mov | .ineg | .iabs | .not | .popc | .clz | .ctz | .brev => { d := iDst t, a := iSrc t }
  | .movi => { d := iDst t }
  | .sel | .imad | .bfi => { d := iDst t, a := iSrc t, b := iSrc t, c := iSrc t }
  | .iadd | .isub | .imin | .imax | .imul | .imulh | .shl | .shr | .sar | .rol | .and | .or | .xor | .andn | .bfx
  | .icmp => { d := iDst t, a := iSrc t, b := iSrc t }
  | .plog => { d := iDst .i32, a := iSrc .i32, b := iSrc .i32, c := iSrc .i32 }
  | .lea => { d := .uses dstVSZ true .ptr, a := .uses [.v, .ind, .s, .z, .l] true .ptr, b := iSrc t }
  | .icvt => { d := .uses dstInt (iTargetWide (m % 16)) t, a := iSrc t }
  | .fadd | .fsub | .fmul | .fmin | .fmax | .fdiv => { d := fDst t, a := fSrc t, b := fSrc t }
  | .ffma => { d := fDst t, a := fSrc t, b := fSrc t, c := fSrc t }
  | .fabs | .fneg | .frcp | .frsq | .fsqrt | .fexp2 | .flog2 | .ftanh => { d := fDst t, a := fSrc t }
  | .fclass => { d := iDst .n32, a := fSrc t }
  | .fcmp => { d := iDst .n32, a := fSrc t, b := fSrc t }
  | .fcvt =>
    let tgt := if t = .b8 then fTarget (m / 32) else fTarget (m / 4 % 4)
    { d := fDst tgt, a := fSrc t }
  | .fitof => { d := fDst (fTarget (m / 4 % 4)), a := fSrc t }
  | .fftoi => { d := .uses dstVSZ (iTargetWide (m % 16)) t, a := fSrc t }
  | .qcvt => { d := fDst .n32, a := fSrc t }
  | .qscale =>
    if m / 64 = 1 then { d := fDst t, a := fSrc t, b := .uses srcF false .n32 } else { d := fDst .n32, a := fSrc t }
  | .perm => { d := .uses dstVZ t.wide t, a := .uses [.v] t.wide t, b := .uses [.v, .ind, .s, .z, .l] false .n32 }
  | .redu => { d := fDst t, a := .uses [.v, .ind, .s, .q] t.wide t }
  | .scan => { d := .uses dstVZ t.wide t, a := .uses [.v, .ind, .s, .q] t.wide t }
  | .zmod => { d := .uses [.s, .z] false .n32, a := .uses srcVSL true .n64 }
  | .zadd | .zsub | .zmul => { d := zDst, a := zSrc, b := zSrc }
  | .zmulc => { d := zDst, a := zSrc, b := zSrc, c := zSrc }
  | .zred | .ztom | .zfromm => { d := zDst, a := zSrc }
  | .zntt | .zintt => { d := .uses dstVZ true .z64, a := .uses [.v] true .z64, b := zSrc }
  | .ztwid => { d := zDst, a := zSrc, b := .uses [.v, .ind, .s, .z, .l] false .n32 }
  | .ld => { d := iDst t, a := ptrF }
  | .ldp => { d := .uses [.v] false .n32, a := ptrF }
  | .lds => { d := iDst t, a := n32F }
  | .pref => { a := ptrF }
  | .st => { a := ptrF, b := .uses [.v, .ind, .s, .p, .z, .l] t.wide t }
  | .stp => { a := ptrF, b := .uses [.v] false .n32 }
  | .sts => { a := n32F, b := .uses [.v, .ind, .s, .p, .z, .l] t.wide t }
  | .chkb => { a := .uses [.v, .ind, .s] t.wide t, b := .uses srcVSL t.wide t, c := .uses srcVSL t.wide t }
  | .chkx => { a := .uses [.x] false .n32 }
  | .xset => { d := .uses [.x] false .n32, a := n32F, b := n32F }
  | .atom => { d := fDst t, a := ptrF, b := .uses srcVSL t.wide t }
  | .atoms => { d := fDst t, a := n32F, b := .uses srcVSL t.wide t }
  | .cas =>
    { d := fDst t, a := if m / 64 = 1 then n32F else ptrF, b := .uses srcVSL t.wide t, c := .uses srcVSL t.wide t }
  | .lock | .unlock => { d := statF, a := ptrF }
  | .fence => {}
  | .cmaint => { a := ptrF, b := n32F }
  | .bari | .barn | .barw => { d := statF, a := n32F, b := n32F }
  | .barv => { d := statF, a := n32F }
  | .waitv => { d := statF, a := ptrF, b := .uses srcVSL t.wide t }
  | .waitc => { d := statF }
  | .gang => { d := statF, a := .uses srcSL true .n64 }
  | .fblk | .amap => { d := statF, a := n32F }
  | .mma | .mmas | .zmma => { a := .uses srcSL true .n64, b := .uses srcSL true .n64 }
  | .cmpr => { d := statF, a := .uses srcSL true .n64, b := .uses srcSL true .n64 }
  | .aclr | .amov => {}
  | .ald | .ast => { a := .uses srcSL true .n64 }
  | .ascl => { a := .uses srcSL t.wide t }
  | .adrain =>
    if m % 2 = 1 then { a := ptrF, b := .uses srcSL false .n32, c := .uses srcSL true .n64 }
    else { a := .uses srcSL true .n64 }
  | .cpy => { d := statF, a := spaceF (m % 4), b := spaceF (m / 4 % 4), c := .uses srcSL false .n32 }
  | .cpyp => { d := statF, a := .uses srcSL false .n32 }
  | .cpyk =>
    { d := statF, a := spaceF (m % 4), b := spaceF (m / 4 % 4),
      c := if m / 32 % 2 = 1 then .uses srcSL false .n32 else .unused }
  | .coll => { d := statF, a := ptrF, b := .uses srcSL false .n32, c := .uses srcSL false .n32 }
  | .cstat => { d := .uses [.s, .z] true .n64, a := n32F }
  | .cnt => { d := statF }
  | .cancel => { d := statF, a := n32F }
  | .strm => { d := statF, a := .uses srcSL false .n32 }
  | .strx => { d := statF }
  | .csrr => { d := .uses dstVSZ (csrWide imm) .n64 }
  | .csrw => { a := .uses srcSL true .n64 }
  | .time => { d := .uses [.s, .z] true .n64 }
  | .save => { d := .uses [.s, .z] false .n32, a := .uses srcSL true .n64, b := ptrF }
  | .rest => { d := .uses [.s, .z] false .n32, a := ptrF }
  | .tret => { a := .uses [.s] true .n64 }
  | .clrx => { d := .uses [.s, .z] false .n32 }
  | .rplr => { d := .uses [.s, .z] false .n32, a := .uses srcSL true .n64 }
  | .rplq => { d := statF, a := .uses srcSL false .n32 }
  | .qwait => { d := .uses [.s, .z] true .n64 }
  | .fltack => { d := .uses [.s, .z] false .n32, a := .uses srcSL false .n32, b := .uses srcSL false .n32 }

def tysInt : List Ty := [.i32, .i64, .n32, .n64, .i16, .n16, .i8, .n8]
def tysFloat : List Ty := [.f64, .f32, .f16, .bf16]
def tysAll : List Ty :=
  [.i32, .i64, .n32, .n64, .f64, .f32, .f16, .bf16, .i16, .n16, .i8, .n8, .pred, .z64, .ptr, .b8]
def tysNoPred : List Ty := [.i32, .i64, .n32, .n64, .f64, .f32, .f16, .bf16, .i16, .n16, .i8, .n8, .z64, .ptr, .b8]
def tysWord : List Ty := [.i32, .i64, .n32, .n64]

/-- The types an opcode allows; one that takes no type carries 0x00 (R146). -/
def Op.types : Op → List Ty
  | .mov | .sel => tysAll
  | .movi | .iadd | .isub | .ineg | .imin | .imax | .imul | .imulh | .imad | .shl | .shr | .sar | .rol | .and | .or
  | .xor | .andn | .not | .popc | .clz | .ctz | .brev | .bfx | .bfi | .icmp | .icvt | .fitof => tysInt
  | .iabs => [.i8, .i16, .i32, .i64]
  | .lea => [.i32, .i64]
  | .fadd | .fsub | .fmul | .fmin | .fmax | .ffma | .fabs | .fneg | .fclass | .fcmp | .frcp | .frsq | .fsqrt | .fdiv
  | .fexp2 | .flog2 | .ftanh | .fftoi | .qcvt | .qscale => tysFloat
  | .fcvt => tysFloat ++ [.b8]
  | .perm => [.i32, .i64, .n32, .n64, .f64, .f32, .pred, .z64, .ptr]
  | .redu | .scan => tysInt ++ tysFloat
  | .zmod => [.n64]
  | .zadd | .zsub | .zmul | .zmulc | .zred | .ztom | .zfromm | .zntt | .zintt | .ztwid => [.z64]
  | .ld | .lds | .st | .sts => tysNoPred
  | .ldp | .stp | .xset => [.n32]
  | .chkb => [.i32, .i64, .n32, .n64, .ptr]
  | .atom | .atoms => [.i32, .i64, .n32, .n64, .f64, .f32]
  | .cas | .waitv => tysWord
  | .mma => [.b8, .i8, .n8, .f16, .bf16, .f32, .f64]
  | .mmas => [.b8, .i8, .n8]
  | .zmma => [.z64]
  | .cmpr => [.b8, .i8, .n8]
  | .ald | .ast | .ascl | .adrain => [.f32, .f64, .i32, .z64]
  | .coll => tysNoPred
  | _ => [.i32]

/-- Whether TY is one the instruction allows: of its types, those that its operation or kind takes (R226, R279). -/
def Op.tyOk (op : Op) (t : Ty) (m imm : Nat) : Bool :=
  op.types.contains t && match op with
  | .atom | .atoms => imm % 8 = 0 || !(t = .f32 || t = .f64)
  | .coll => (m % 4 = 1 || m % 4 = 2) || [Ty.i32, .n32, .i64, .n64, .f32, .f64, .bf16].contains t
  | _ => true

/-- Whether the opcode accepts a guard other than p7 (R153, R189, R217, R246, R271). -/
def Op.anyGuard (op : Op) : Bool :=
  if op.maj < 8 then op = .exit || op = .idx else op.maj < 0x30

/-- Scope and order of the memory modifiers (R116, R218): `kind` is 0 for loads, 1 for stores, 2 for atomics, 3 for a
fence; `spad` limits the scope to strand and flight; `na` says bit 6 is free here. -/
def memModOk (kind : Nat) (spad na : Bool) (m : Nat) : Bool :=
  let ord := m % 4
  let scope := m / 4 % 8
  let rmt := m / 32 % 2
  let b6 := m / 64
  scope ≤ 4
  && (match kind with
      | 0 => ord ≤ 1
      | 1 => ord = 0 || ord = 2
      | 2 => true
      | _ => ord ≠ 0)
  && (kind = 2 || kind = 3 || ord ≠ 0 || scope = 0)
  && (!spad || scope ≤ 1)
  && (rmt = 0 || ((ord = 1 || ord = 3) && 3 ≤ scope))
  && (na || b6 = 0)

/-- The accumulator code that the input type of a multiply takes (R259). -/
def mmaAcc : Ty → Nat
  | .z64 => 0
  | .f64 => 2
  | .i8 | .n8 => 3
  | _ => 1

/-- Whether a MOD value is one the opcode defines (R151, item 9). -/
def Op.modOk (op : Op) (t : Ty) (m : Nat) : Bool :=
  match op with
  | .idx | .formof | .bru | .brc | .fuse | .iadd | .isub | .ineg | .iabs | .imul | .imad | .shl | .clrx | .bari
  | .strm => m ≤ 1
  | .yieldc => true
  | .split => m = 1 || m = 2
  | .vote => m ≤ 3
  | .icmp => m ≤ 5
  | .lea => m ≤ 7
  | .icvt => m < 32 && (iTarget (m % 16)).isSome
  | .fadd | .fsub | .fmul | .ffma | .frcp | .fsqrt | .fdiv => m ≤ 3
  | .fmin | .fmax => m = 0 || m = 4
  | .fcmp => m ≤ 7
  | .fcvt => if t = .b8 then m % 8 ≠ 0 else m < 16 && fTarget (m / 4) ≠ t
  | .fitof => m < 16
  | .fftoi => m < 64 && (iTarget (m % 16)).isSome
  | .qcvt => m % 8 ≠ 0 && m / 32 ≠ 3
  | .qscale => if m / 64 = 1 then m = 64 else m < 32 && m % 8 ≠ 0
  | .redu | .scan =>
    let op' := m % 8
    op' ≤ 5 && (t.isInt || op' ≤ 2)
      && (m / 8 % 4 = 0 || (t.isFloat && op' = 0))
      && (m / 32 % 2 = 0 || (t.isFloat && (op' = 1 || op' = 2)))
      && (m / 64 = 0 || op = .scan || (t.isInt && op' = 0))
  | .ld => memModOk 0 false true m
  | .lds => memModOk 0 true false m
  | .st => memModOk 1 false true m
  | .sts => memModOk 1 true false m
  | .ldp | .stp => m = 4 || m = 8 || m = 12
  | .pref => m ≤ 2
  | .atom => memModOk 2 false false m
  | .atoms => memModOk 2 true false m
  | .cas => if m / 64 = 1 then memModOk 2 true true m else memModOk 2 false true m
  | .lock => m / 32 ≤ 2
  | .unlock => m % 32 = 0 && m / 32 ≤ 2
  | .fence => memModOk 3 false false m
  | .cmaint => m < 16 && m % 4 ≠ 3
  | .barw | .waitv | .waitc | .gang | .qwait => m < 32
  | .mma | .zmma => m < 8 && m / 2 = mmaAcc t
  | .mmas => m < 16 && m / 2 % 4 = mmaAcc t
  | .cmpr => m < 64 && (if t = .b8 then m % 8 ≠ 0 else m % 32 = 0)
  | .ascl => m = 0 || (m = 1 && t = .i32)
  | .adrain => m < 8
  | .cpy | .cpyp => m < 16 && m % 4 ≠ 3 && m / 4 ≠ 3 && !(m % 4 = 2 && m / 4 = 2)
  | .cpyk => m < 64 && m % 4 ≠ 3 && m / 4 % 4 ≠ 3 && !(m % 4 = 2 && m / 4 % 4 = 2)
  | .coll =>
    m < 16 && (if m % 4 = 0 || m % 4 = 3 then m / 4 ≤ 2 else m / 4 = 0)
  | .tret => m ≤ 2
  | .rplr => m ≤ 7
  | _ => m = 0

/-- The CSR numbers that CSRR reads (R286). -/
def csrReadable : List Nat := [0, 1, 2, 3, 4, 5, 0x10, 0x100, 0x101, 0x102, 0x103, 0x104, 0x105, 0x180, 0x181]
/-- The CSR numbers that CSRW writes (R286). -/
def csrWritable : List Nat := [0, 1, 0x100, 0x101, 0x102, 0x103, 0x180, 0x181]

/-- Whether an IMM value is one the opcode defines (R150, R151). -/
def Op.immOk (op : Op) (t : Ty) (m imm : Nat) : Bool :=
  match op with
  | .trap | .bra | .call | .bru | .brc | .yieldc | .reord | .movi | .ld | .ldp | .lds | .pref | .st | .stp | .sts
  | .lock | .unlock => true
  | .plog => imm < 256
  | .fclass => imm < 1024
  | .fcvt => if t = .b8 then imm < 4 else imm = 0
  | .chkb => imm ≠ 0
  | .chkx => imm ≠ 0 && imm ≤ 128
  | .atom | .atoms =>
    imm < 7
  | .waitv => imm < 128 && imm % 8 ≤ 5 && imm / 8 % 8 ≠ 0 && imm / 8 % 8 ≤ 4 && (imm / 64 = 0 || 3 ≤ imm / 8 % 8)
  | .waitc => imm < 256
  | .gang => 1 ≤ imm && imm ≤ 6
  | .amap => imm < 8
  | .mma | .zmma => imm < 1024
  | .mmas => imm < 8192
  | .cmpr => imm < 512
  | .aclr | .ascl => imm < 16
  | .ald | .ast => imm < 128
  | .amov => imm < 256
  | .adrain => if m % 2 = 1 then imm < 16 else imm < 128
  | .cpy | .cpyp => if m % 4 = 2 || m / 4 = 2 then imm < 4 else imm = 0
  | .cpyk => imm ≠ 0
  | .coll => if m % 4 = 1 then imm < 256 else imm = 0
  | .strm | .strx => imm < 4
  | .csrr => csrReadable.contains imm
  | .csrw => csrWritable.contains imm
  | _ => imm = 0

/-- Whether the opcode's source A may carry a permutation modifier (R74, R206, R210, R213). -/
def Op.permOk (op : Op) (p : Perm) : Bool :=
  match op with
  | .zntt | .zintt => (match p with | .bfly _ => true | _ => false)
  | .perm | .zmod | .zadd | .zsub | .zmul | .zmulc | .zred | .ztom | .zfromm | .ztwid => p = .none
  | _ => true

/-- Consecutive registers that LDP, STP and REORD name: the register is a multiple of the count (R221). -/
def ldpCount (m : Nat) : Nat :=
  match m / 4 % 8 with
  | 1 => 2
  | 2 => 4
  | _ => 8

def Spec.vNum : Spec → Option Nat
  | .v n => some n.val
  | _ => none

end Sys2Proof
end

