-- ==== Sys2Proof/Machine/Raw.lean ====
section
/-!
DEFINITION. Instructions as opcode and fields, before they are given their row of the opcode table; the checks of R151
on the fields in the order of that rule (spec/06).
-/
namespace Sys2Proof

/-- Why an encoding is not an instruction: the kind 1 to 9 of R151 and the FIELD code of R334 that it reports; kind 10 is a
limit on classes that falls under ADM-TYP, kind 11 a limit of the instruction's own rule (assumption 18). -/
structure Reject where
  kind : Nat
  field : Nat
deriving DecidableEq, Repr

/-- An opcode with the fields of its form. -/
inductive Raw where
  | short (op : Op) (o : Short)
  | long (op : Op) (o : Long)
deriving DecidableEq, Repr

/-- LEN of a form (R138). -/
def LongForm.len : LongForm → Nat
  | .len01 => 1
  | .len10 => 2
  | .len11 => 3

/-- PMK and PMA of a modifier (R74). -/
def Perm.codes : Perm → Nat × Nat
  | .none => (0, 0)
  | .bfly k => (1, k.val)
  | .rot8 k => (2, k.val)
  | .rev => (3, 0)
  | .bcast j => (4, j.val)

/-- Reads PMK and PMA (R74). -/
def Perm.ofCodes (k a : Nat) : Option Perm :=
  match k with
  | 0 => if a = 0 then some .none else Option.none
  | 1 => if h : a < 6 then some (.bfly ⟨a, h⟩) else Option.none
  | 2 => if h : a < 8 then some (.rot8 ⟨a, h⟩) else Option.none
  | 3 => if a = 0 then some .rev else Option.none
  | 4 => if h : a < 64 then some (.bcast ⟨a, h⟩) else Option.none
  | _ => Option.none

/-- The class of a specifier. -/
def Spec.cls : Spec → Sc
  | .v _ => .v
  | .s _ => .s
  | .x _ => .x
  | .q _ => .q
  | .p _ => .p
  | .lit => .l
  | .zero => .z
  | .ind _ _ => .ind

/-- Whether a v register may name a 64-bit operand (R65): any other class is free of the limit here. -/
def Spec.evenOk (sp : Spec) : Bool :=
  match sp with
  | .v n => n.val % 2 = 0
  | _ => true

/-- Destinations charged to ADM-TYP: an x register outside XSET (R66). -/
def looseD : List Sc := [.x]

/-- Whether the field admits the specifier (R143, R65, R151 item 8); an unused field is item 9's.  `loose` lists classes whose
limit falls under ADM-TYP, which comes after the checks of R151; under that of D a queue is refused even where the field is unused (R143). -/
def Field.admits (f : Field) (loose : List Sc) (sp : Spec) : Bool :=
  match f with
  | .unused => sp ≠ .lit && (loose ≠ looseD || sp.cls ≠ .q)
  | .uses cls wide _ => (cls.contains sp.cls || loose.contains sp.cls) && (!wide || sp.evenOk)

/-- Whether a specifier stands in a field only under a limit of ADM-TYP. -/
def Field.typBad (f : Field) (loose : List Sc) (sp : Spec) : Bool :=
  match f with
  | .unused => false
  | .uses cls _ _ => loose.contains sp.cls && !(cls.contains sp.cls)

/-- Sources charged to ADM-TYP: an x register or a predicate of a floating-point or modular instruction (R189). -/
def Op.looseS (op : Op) : List Sc :=
  if (0x18 ≤ op.maj ∧ op.maj ≤ 0x1E) ∨ (0x24 ≤ op.maj ∧ op.maj ≤ 0x27) then [.p, .x] else []

/-- Whether a literal holds its value as R144 requires. -/
def litOk (t : Ty) (l : W64) : Bool :=
  let n := l.toNat
  match t with
  | .i64 | .n64 | .f64 | .z64 | .ptr => true
  | .i8 | .i16 | .i32 => wrapZ 64 (signed t.width n) = n
  | _ => n < 2 ^ t.width

/-- The literal type of a field. -/
def Field.litTy : Field → Option Ty
  | .unused => none
  | .uses _ _ t => some t

/-- Whether the literal, when the field holds its specifier, is well held (R144). -/
def Field.litOk (f : Field) (sp : Spec) (l : W64) : Bool :=
  match f with
  | .unused => true
  | .uses _ _ t => sp ≠ .lit || Sys2Proof.litOk t l

def Field.isUnused : Field → Bool
  | .unused => true
  | _ => false

/-- Registers that LDP, STP and REORD name in runs (R173, R221). -/
def runOk (op : Op) (o : Long) : Bool :=
  match op with
  | .ldp => (match o.d with
    | .v n => n.val % ldpCount o.mod.val = 0
    | _ => false)
  | .stp => (match o.b with
    | .v n => n.val % ldpCount o.mod.val = 0
    | _ => false)
  | _ => true

/-- The checks of R151 on one instruction's fields, items 6 to 9, in order: `none` when it is an instruction.  A TY of 0x01 to 0x0F on an
instruction that takes no type is both a TY it does not allow (kind 7) and an unused field (kind 9): the model reports the first of the
list, kind 7 (DESIGN CHOICE, assumption 53). -/
def checkLong (op : Op) (o : Long) : Option Reject :=
  let m := o.mod.val
  let imm := o.imm.val
  let fs := op.fields o.ty m imm
  let isV : Bool := match o.a with
    | .v _ => true
    | _ => false
  let ls := op.looseS
  let lits : Nat := (if o.a = .lit then 1 else 0) + (if o.b = .lit then 1 else 0) + (if o.c = .lit then 1 else 0)
  if (o.perm ≠ .none && !isV) || !(op.permOk o.perm) then some ⟨6, 5⟩
  else if !(op.tyOk o.ty m imm) then some ⟨7, 6⟩
  else if !(fs.d.admits looseD o.d) || o.d = .lit then some ⟨8, 0⟩
  else if !(fs.a.admits ls o.a) || (o.form = .len01 && o.a = .lit) || !(fs.a.litOk o.a o.lit) then some ⟨8, 1⟩
  else if !(fs.b.admits ls o.b) || (o.form = .len01 && o.b = .lit) || (o.a = .lit && o.b = .lit) || !(fs.b.litOk o.b o.lit)
  then some ⟨8, 2⟩
  else if !(fs.c.admits ls o.c) || (o.form ≠ .len11 && o.c = .lit) || (o.c = .lit && (o.a = .lit || o.b = .lit))
    || !(fs.c.litOk o.c o.lit) then some ⟨8, 3⟩
  else if o.form ≠ .len01 && lits ≠ 1 then some ⟨8, 10⟩
  else if !(op.modOk o.ty m) then some ⟨9, 7⟩
  else if fs.d.isUnused && o.d ≠ .zero then some ⟨9, 0⟩
  else if fs.a.isUnused && o.a ≠ .zero then some ⟨9, 1⟩
  else if fs.b.isUnused && o.b ≠ .zero then some ⟨9, 2⟩
  else if fs.c.isUnused && o.c ≠ .zero then some ⟨9, 3⟩
  else if !op.anyGuard && !(o.pi.val = 7 && !o.pn) then some ⟨9, 4⟩
  else if !(runOk op o) then some ⟨11, if op = .ldp then 0 else 2⟩
  else if !(op.immOk o.ty m imm) then some ⟨9, 8⟩
  else if op = .perm ∧ o.ty = .pred then some ⟨10, 6⟩
  else if fs.d.typBad looseD o.d then some ⟨10, 0⟩
  else if fs.a.typBad ls o.a then some ⟨10, 1⟩
  else if fs.b.typBad ls o.b then some ⟨10, 2⟩
  else if fs.c.typBad ls o.c then some ⟨10, 3⟩
  else none

/-- A short form as the long form it stands for (R138). -/
def Short.toLong (op : Op) (o : Short) : Long :=
  { form := .len01, ver1 := o.ver1, d := o.d, a := o.a, b := .zero, c := .zero, pn := false, pi := 7, perm := .none,
    look := 0, ty := op.defaultTy, mod := 0, imm := 0, lit := 0 }

/-- Fields that the short and literal forms leave at their implied values need no check (R138): only D and A are the
program's own, and MOD 0 and IMM 0 are what the form implies. -/
def checkShort (op : Op) (o : Short) : Option Reject :=
  let fs := op.fields op.defaultTy 0 0
  if !(op.tyOk op.defaultTy 0 0) then some ⟨7, 6⟩
  else if !(fs.d.admits looseD o.d) || o.d = .lit then some ⟨8, 0⟩
  else if !(fs.a.admits op.looseS o.a) || o.a = .lit then some ⟨8, 1⟩
  else if fs.d.isUnused && o.d ≠ .zero then some ⟨9, 0⟩
  else if fs.a.isUnused && o.a ≠ .zero then some ⟨9, 1⟩
  else if fs.d.typBad looseD o.d then some ⟨10, 0⟩
  else if fs.a.typBad op.looseS o.a then some ⟨10, 1⟩
  else none

/-- The literal form's checks: the literal stands in B, or in A with B zero (R138). -/
def checkLit (op : Op) (o : Long) : Option Reject :=
  let fs := op.fields o.ty 0 0
  if !(op.tyOk o.ty 0 0) then some ⟨7, 6⟩
  else if !(fs.d.admits looseD o.d) || o.d = .lit then some ⟨8, 0⟩
  else if !(fs.a.admits op.looseS o.a) || !(fs.a.litOk o.a o.lit) then some ⟨8, 1⟩
  else if o.b = .lit && (fs.b.isUnused || !(fs.b.admits op.looseS o.b) || !(fs.b.litOk o.b o.lit)) then some ⟨8, 2⟩
  else if fs.d.isUnused && o.d ≠ .zero then some ⟨9, 0⟩
  else if fs.a.isUnused && o.a ≠ .zero then some ⟨9, 1⟩
  else if fs.d.typBad looseD o.d then some ⟨10, 0⟩
  else if fs.a.typBad op.looseS o.a then some ⟨10, 1⟩
  else if fs.b.typBad op.looseS o.b then some ⟨10, 2⟩
  else none

/-- Whether the implied fields of the literal form hold their implied values. -/
def litImplied (op : Op) (o : Long) : Bool :=
  o.c = .zero && !o.pn && o.pi.val = 7 && o.perm = .none && o.look.val = 0 && o.ty = op.defaultTy && o.mod.val = 0
    && o.imm.val = 0 && ((o.b = .lit && o.a ≠ .lit) || (o.a = .lit && o.b = .zero))

/-- The checks for any raw instruction: the form is admitted, then the fields (R151). -/
def Raw.check : Raw → Option Reject
  | .short op o => if op.lens.contains 0 then checkShort op o else some ⟨3, 10⟩
  | .long op o =>
    if !(op.lens.contains o.form.len) then some ⟨3, 10⟩
    else match o.form with
      | .len10 => if litImplied op o then checkLit op o else some ⟨3, 10⟩
      | .len01 => if o.pn && o.pi.val = 7 then some ⟨5, 4⟩ else if o.lit ≠ 0 then some ⟨3, 10⟩ else checkLong op o
      | .len11 => if o.pn && o.pi.val = 7 then some ⟨5, 4⟩ else checkLong op o

/-! ### Words -/

/-- Word 0 (R139). -/
def word0 (len : Nat) (ver1 : Bool) (op : Op) (d a : Spec) : Nat :=
  len + 4 * (if ver1 then 1 else 0) + 16 * op.maj + 1024 * op.min + 16384 * d.code + 8388608 * a.code

/-- Word 1 (R140). -/
def word1 (o : Long) : Nat :=
  o.b.code + 512 * o.c.code + 262144 * o.pi.val + 2097152 * (if o.pn then 1 else 0)
    + 4194304 * o.perm.codes.1 + 33554432 * o.perm.codes.2

/-- Word 2 (R141). -/
def word2 (o : Long) : Nat :=
  o.look.val + 16 * o.ty.code + 512 * o.mod.val + 65536 * o.imm.val

/-- The 32-bit words of an instruction, in order (R137, R138). -/
def Raw.words : Raw → List Nat
  | .short op o => [word0 0 o.ver1 op o.d o.a]
  | .long op o =>
    let l := o.lit.toNat
    match o.form with
    | .len01 => [word0 1 o.ver1 op o.d o.a, word1 o, word2 o]
    | .len10 => [word0 2 o.ver1 op o.d o.a, l % 4294967296, l / 4294967296]
    | .len11 => [word0 3 o.ver1 op o.d o.a, word1 o, word2 o, l % 4294967296, l / 4294967296]

/-- Number of words that a LEN gives (R138). -/
def lenWords : Nat → Nat
  | 0 => 1
  | 1 => 3
  | 2 => 3
  | _ => 5

def Raw.nwords : Raw → Nat
  | .short _ _ => 1
  | .long _ o => lenWords o.form.len

/-- A specifier in a field, or the offence of its field code (R151 item 8). -/
def readSpec (field code : Nat) : Except Reject Spec :=
  match Spec.ofCode code with
  | some sp => .ok sp
  | none => .error ⟨8, field⟩

/-- Reads the fields of word 1 and word 2 in R151's order and then checks them.  Inside kind 8 the rule gives no order among the
specifiers and the literal: the model reports reserved codes of the four fields first, then each field's class and literal in the order D,
A, B, C (DESIGN CHOICE, assumption 53). -/
def readLong (op : Op) (form : LongForm) (ver1 : Bool) (w0 w1 w2 : Nat) (lit : W64) : Except Reject Raw :=
  if w1 / 2147483648 % 2 = 1 then .error ⟨5, 14⟩
  else if w1 / 2097152 % 2 = 1 ∧ w1 / 262144 % 8 = 7 then .error ⟨5, 4⟩
  else match Perm.ofCodes (w1 / 4194304 % 8) (w1 / 33554432 % 64) with
  | none => .error ⟨6, 5⟩
  | some pm =>
    let isV : Bool := w0 / 8388608 % 512 < 128
    if (pm ≠ .none && !isV) || !(op.permOk pm) then .error ⟨6, 5⟩
    else match Ty.ofCode (w2 / 16 % 32) with
    | none => .error ⟨7, 6⟩
    | some ty => do
      if !(op.tyOk ty (w2 / 512 % 128) (w2 / 65536 % 65536)) then .error ⟨7, 6⟩
      let d ← readSpec 0 (w0 / 16384 % 512)
      let a ← readSpec 1 (w0 / 8388608 % 512)
      let b ← readSpec 2 (w1 % 512)
      let c ← readSpec 3 (w1 / 512 % 512)
      let o : Long :=
        { form := form, ver1 := ver1, d := d, a := a, b := b, c := c, pn := w1 / 2097152 % 2 = 1,
          pi := ⟨w1 / 262144 % 8, Nat.mod_lt _ (by decide)⟩, perm := pm,
          look := ⟨w2 % 16, Nat.mod_lt _ (by decide)⟩, ty := ty,
          mod := ⟨w2 / 512 % 128, Nat.mod_lt _ (by decide)⟩, imm := ⟨w2 / 65536 % 65536, Nat.mod_lt _ (by decide)⟩,
          lit := lit }
      match (Raw.long op o).check with
      | none => .ok (.long op o)
      | some r => .error r

/-- The two halves of a literal, low word first (R137). -/
def joinLit (lo hi : Nat) : W64 := BitVec.ofNat 64 (lo + 4294967296 * hi)

/-- The literal form: the literal is in A when A holds its specifier, else in B (R138). -/
def readLit (op : Op) (ver1 : Bool) (w0 lo hi : Nat) : Except Reject Raw := do
  let d ← readSpec 0 (w0 / 16384 % 512)
  let a ← readSpec 1 (w0 / 8388608 % 512)
  let o : Long :=
    { form := .len10, ver1 := ver1, d := d, a := a, b := if a = .lit then .zero else .lit, c := .zero, pn := false,
      pi := 7, perm := .none, look := 0, ty := op.defaultTy, mod := 0, imm := 0, lit := joinLit lo hi }
  match (Raw.long op o).check with
  | none => .ok (.long op o)
  | some r => .error r

def readShort (op : Op) (ver1 : Bool) (w0 : Nat) : Except Reject Raw := do
  let d ← readSpec 0 (w0 / 16384 % 512)
  let a ← readSpec 1 (w0 / 8388608 % 512)
  let o : Short := { ver1 := ver1, d := d, a := a }
  match (Raw.short op o).check with
  | none => .ok (.short op o)
  | some r => .error r

/-- Decodes the words at the head of a kernel's remaining code, in the order of R151. -/
def Raw.decode (ws : List Nat) : Except Reject Raw :=
  match ws with
  | [] => .error ⟨4, 10⟩
  | w0 :: rest =>
    if 2 ≤ w0 / 4 % 4 then .error ⟨1, 10⟩
    else match Op.find (w0 / 16 % 64) (w0 / 1024 % 16) with
    | none => .error ⟨2, 13⟩
    | some op =>
      let len := w0 % 4
      let ver1 : Bool := w0 / 4 % 4 = 1
      if !(op.lens.contains len) then .error ⟨3, 10⟩
      else match len, rest with
        | 0, _ => readShort op ver1 w0
        | 1, w1 :: w2 :: _ => readLong op .len01 ver1 w0 w1 w2 0
        | 2, l0 :: l1 :: _ => readLit op ver1 w0 l0 l1
        | 3, w1 :: w2 :: l0 :: l1 :: _ => readLong op .len11 ver1 w0 w1 w2 (joinLit l0 l1)
        | _, _ => .error ⟨4, 10⟩

end Sys2Proof
end

