-- ==== Sys2Proof/WellFormed.lean ====
section
/-!
DEFINITION. What a well-formed instruction is: its fields pass the checks of R151 for its row of the opcode table, and the
row is the one that its fields select.  A step of the device is well formed when its arguments name parts that exist
(R15, R29, R356, R398, R399, R430, R442).
-/
namespace Sys2Proof

/-- The opcode and fields of an instruction; none for a step that has no encoding. -/
def Instr.toRaw : Instr → Option Raw
  | .nop o => some (.short .nop o)
  | .nopLong o => some (.long .nop o)
  | .exit o => some (.short .exit o)
  | .exitLong o => some (.long .exit o)
  | .join o => some (.short .join o)
  | .joinLong o => some (.long .join o)
  | .yield o => some (.short .yield o)
  | .yieldLong o => some (.long .yield o)
  | .ret o => some (.short .ret o)
  | .retLong o => some (.long .ret o)
  | .elect o => some (.short .elect o)
  | .electLong o => some (.long .elect o)
  | .trap o => some (.short .trap o)
  | .trapLong o => some (.long .trap o)
  | .idx o => some (.short .idx o)
  | .idxLong o => some (.long .idx o)
  | .formof o => some (.short .formof o)
  | .formofLong o => some (.long .formof o)
  | .bra o => some (.long .bra o)
  | .call o => some (.long .call o)
  | .bru o => some (.long .bru o)
  | .brc o => some (.long .brc o)
  | .yieldc o => some (.long .yieldc o)
  | .split o => some (.long .split o)
  | .fuse o => some (.long .fuse o)
  | .vote o => some (.short .vote o)
  | .voteLong o => some (.long .vote o)
  | .reord o => some (.long .reord o)
  | .mov o => some (.short .mov o)
  | .movLong o => some (.long .mov o)
  | .movi o => some (.short .movi o)
  | .moviLong o => some (.long .movi o)
  | .sel o => some (.short .sel o)
  | .selLong o => some (.long .sel o)
  | .iadd o => some (.short .iadd o)
  | .iaddLong o => some (.long .iadd o)
  | .isub o => some (.short .isub o)
  | .isubLong o => some (.long .isub o)
  | .ineg o => some (.short .ineg o)
  | .inegLong o => some (.long .ineg o)
  | .iabs o => some (.short .iabs o)
  | .iabsLong o => some (.long .iabs o)
  | .imin o => some (.short .imin o)
  | .iminLong o => some (.long .imin o)
  | .imax o => some (.short .imax o)
  | .imaxLong o => some (.long .imax o)
  | .imul o => some (.short .imul o)
  | .imulLong o => some (.long .imul o)
  | .imulh o => some (.short .imulh o)
  | .imulhLong o => some (.long .imulh o)
  | .imad o => some (.short .imad o)
  | .imadLong o => some (.long .imad o)
  | .shl o => some (.short .shl o)
  | .shlLong o => some (.long .shl o)
  | .shr o => some (.short .shr o)
  | .shrLong o => some (.long .shr o)
  | .sar o => some (.short .sar o)
  | .sarLong o => some (.long .sar o)
  | .rol o => some (.short .rol o)
  | .rolLong o => some (.long .rol o)
  | .and o => some (.short .and o)
  | .andLong o => some (.long .and o)
  | .or o => some (.short .or o)
  | .orLong o => some (.long .or o)
  | .xor o => some (.short .xor o)
  | .xorLong o => some (.long .xor o)
  | .andn o => some (.short .andn o)
  | .andnLong o => some (.long .andn o)
  | .not o => some (.short .not o)
  | .notLong o => some (.long .not o)
  | .popc o => some (.short .popc o)
  | .popcLong o => some (.long .popc o)
  | .clz o => some (.short .clz o)
  | .clzLong o => some (.long .clz o)
  | .ctz o => some (.short .ctz o)
  | .ctzLong o => some (.long .ctz o)
  | .brev o => some (.short .brev o)
  | .brevLong o => some (.long .brev o)
  | .bfx o => some (.short .bfx o)
  | .bfxLong o => some (.long .bfx o)
  | .bfi o => some (.short .bfi o)
  | .bfiLong o => some (.long .bfi o)
  | .icmp o => some (.short .icmp o)
  | .icmpLong o => some (.long .icmp o)
  | .plog o => some (.short .plog o)
  | .plogLong o => some (.long .plog o)
  | .lea o => some (.short .lea o)
  | .leaLong o => some (.long .lea o)
  | .icvt o => some (.short .icvt o)
  | .icvtLong o => some (.long .icvt o)
  | .fadd o => some (.short .fadd o)
  | .faddLong o => some (.long .fadd o)
  | .fsub o => some (.short .fsub o)
  | .fsubLong o => some (.long .fsub o)
  | .fmul o => some (.short .fmul o)
  | .fmulLong o => some (.long .fmul o)
  | .fmin o => some (.short .fmin o)
  | .fminLong o => some (.long .fmin o)
  | .fmax o => some (.short .fmax o)
  | .fmaxLong o => some (.long .fmax o)
  | .ffma o => some (.short .ffma o)
  | .ffmaLong o => some (.long .ffma o)
  | .fabs o => some (.short .fabs o)
  | .fabsLong o => some (.long .fabs o)
  | .fneg o => some (.short .fneg o)
  | .fnegLong o => some (.long .fneg o)
  | .fclass o => some (.short .fclass o)
  | .fclassLong o => some (.long .fclass o)
  | .fcmp o => some (.short .fcmp o)
  | .fcmpLong o => some (.long .fcmp o)
  | .frcp o => some (.long .frcp o)
  | .frsq o => some (.long .frsq o)
  | .fsqrt o => some (.long .fsqrt o)
  | .fdiv o => some (.long .fdiv o)
  | .fexp2 o => some (.long .fexp2 o)
  | .flog2 o => some (.long .flog2 o)
  | .ftanh o => some (.long .ftanh o)
  | .fcvt o => some (.short .fcvt o)
  | .fcvtLong o => some (.long .fcvt o)
  | .fcvtB8 o => some (.long .fcvt o)
  | .fitof o => some (.long .fitof o)
  | .fftoi o => some (.short .fftoi o)
  | .fftoiLong o => some (.long .fftoi o)
  | .qcvt o => some (.long .qcvt o)
  | .qscaleFit o => some (.long .qscale o)
  | .qscaleApply o => some (.long .qscale o)
  | .perm o => some (.long .perm o)
  | .redu o => some (.long .redu o)
  | .scan o => some (.long .scan o)
  | .zmod o => some (.long .zmod o)
  | .zadd o => some (.long .zadd o)
  | .zsub o => some (.long .zsub o)
  | .zmul o => some (.long .zmul o)
  | .zmulc o => some (.long .zmulc o)
  | .zred o => some (.long .zred o)
  | .ztom o => some (.long .ztom o)
  | .zfromm o => some (.long .zfromm o)
  | .zntt o => some (.long .zntt o)
  | .zintt o => some (.long .zintt o)
  | .ztwid o => some (.long .ztwid o)
  | .ld o => some (.long .ld o)
  | .ldp o => some (.long .ldp o)
  | .lds o => some (.long .lds o)
  | .pref o => some (.long .pref o)
  | .st o => some (.long .st o)
  | .stp o => some (.long .stp o)
  | .sts o => some (.long .sts o)
  | .chkb o => some (.long .chkb o)
  | .chkx o => some (.long .chkx o)
  | .xset o => some (.long .xset o)
  | .atom o => some (.long .atom o)
  | .atoms o => some (.long .atoms o)
  | .cas o => some (.long .cas o)
  | .lock o => some (.long .lock o)
  | .unlock o => some (.long .unlock o)
  | .fence o => some (.long .fence o)
  | .cmaint o => some (.long .cmaint o)
  | .bari o => some (.long .bari o)
  | .barv o => some (.long .barv o)
  | .barn o => some (.long .barn o)
  | .barw o => some (.long .barw o)
  | .waitv o => some (.long .waitv o)
  | .waitc o => some (.long .waitc o)
  | .gang o => some (.long .gang o)
  | .fblk o => some (.long .fblk o)
  | .amap o => some (.long .amap o)
  | .mma o => some (.long .mma o)
  | .mmas o => some (.long .mmas o)
  | .zmma o => some (.long .zmma o)
  | .cmpr o => some (.long .cmpr o)
  | .aclr o => some (.long .aclr o)
  | .ald o => some (.long .ald o)
  | .ast o => some (.long .ast o)
  | .amov o => some (.long .amov o)
  | .ascl o => some (.long .ascl o)
  | .adrain o => some (.long .adrain o)
  | .adrainMem o => some (.long .adrain o)
  | .cpy o => some (.long .cpy o)
  | .cpyp o => some (.long .cpyp o)
  | .cpyk o => some (.long .cpyk o)
  | .coll o => some (.long .coll o)
  | .cstat o => some (.long .cstat o)
  | .cnt o => some (.long .cnt o)
  | .cancel o => some (.long .cancel o)
  | .strm o => some (.long .strm o)
  | .strx o => some (.long .strx o)
  | .csrr o => some (.long .csrr o)
  | .csrrXflag o => some (.long .csrr o)
  | .csrrTrapq o => some (.long .csrr o)
  | .csrw o => some (.long .csrw o)
  | .csrwXflag o => some (.long .csrw o)
  | .csrwRgen o => some (.long .csrw o)
  | .corePartWrite o => some (.long .csrw o)
  | .coreRetWrite o => some (.long .csrw o)
  | .qePsumClear o => some (.long .csrw o)
  | .qeLseedWrite o => some (.long .csrw o)
  | .time o => some (.long .time o)
  | .save o => some (.long .save o)
  | .rest o => some (.long .rest o)
  | .tret o => some (.long .tret o)
  | .clrx o => some (.long .clrx o)
  | .rplr o => some (.long .rplr o)
  | .rplq o => some (.long .rplq o)
  | .qwait o => some (.long .qwait o)
  | .fltack o => some (.long .fltack o)
  | .rejoin _ => none
  | .fuseHoldEnd _ => none
  | .fuseRetry _ => none
  | .yieldcWake _ => none
  | .watchdog _ _ => none
  | .timeout _ => none
  | .lockRetry _ => none
  | .waitvReevaluate _ => none
  | .gangMemberLeave _ _ => none
  | .gangLatchTimeout _ => none
  | .engineQueueEnter _ => none
  | .matrixEngineStart _ => none
  | .matrixRetire _ => none
  | .syncMatrixComplete _ => none
  | .drainPerform _ => none
  | .copyChunkPerform _ _ => none
  | .streamElementDeliver _ _ => none
  | .collExchange _ _ _ => none
  | .collAbortFlit _ _ _ _ => none
  | .collTimeout _ => none
  | .flightDispatch => none
  | .stallSweep _ => none
  | .quiescenceComplete _ => none
  | .clrxComplete _ => none
  | .reorderPhaseClose _ => none
  | .launchComplete _ => none
  | .partitionWordTakeEffect _ => none
  | .poolZeroingDone _ => none
  | .retentionEntry _ _ => none
  | .retentionEntryDone _ _ => none
  | .retentionExitDone _ _ => none
  | .budgetRefill _ => none
  | .budgetExhausted _ => none
  | .kick _ _ _ => none
  | .q0go _ => none
  | .schedulingPass _ => none
  | .faultAck _ _ => none
  | .signal _ _ => none
  | .wait _ _ => none
  | .waitPacketDone _ _ => none
  | .copy _ _ => none
  | .launch _ _ => none
  | .gangReservation _ _ => none
  | .admitPkt _ _ => none
  | .admissionComplete _ => none
  | .destroy _ _ => none
  | .regq _ _ => none
  | .unregq _ _ => none
  | .resetq _ _ => none
  | .rekey _ _ => none
  | .seqGap _ _ => none
  | .vfReset _ => none
  | .pfQueueReset => none
  | .functionLevelReset _ => none
  | .partitionApply _ => none
  | .partitionApplyDone _ => none
  | .partProtWrite _ => none
  | .partWaymWrite _ _ => none
  | .regionApply _ => none
  | .regionRevoke _ => none
  | .pageSectorMove _ _ => none
  | .hostDma _ _ _ _ _ => none
  | .secIwinWrite _ => none
  | .lineWriteback _ => none
  | .lineFill _ => none
  | .tableApply _ => none
  | .tableTakeEffect => none
  | .slotSend _ => none
  | .gondolaResponse _ _ => none
  | .flitReceive _ _ => none
  | .lossOfLock _ => none
  | .retrainEnd _ _ => none
  | .tetherStall _ => none
  | .pairDown _ => none
  | .peerLinkUp _ _ => none
  | .peerRequest _ _ _ _ _ _ _ _ => none
  | .peerPortDown _ => none
  | .patrolStep => none
  | .patrolDeferRetry => none
  | .featureCommit => none
  | .telemetrySample _ _ _ _ => none
  | .registerWrite _ _ _ _ => none
  | .telGet => none
  | .spmapGet => none
  | .patlogGet => none
  | .resetPart _ => none
  | .resetDev => none
  | .linkRetrain _ => none
  | .dbgNonce => none
  | .dbgUnlock _ => none
  | .dbgRd _ => none
  | .dbgWr _ _ => none
  | .getCertificate _ => none
  | .keyExchange _ => none
  | .getMeasurements _ _ => none
  | .keyLoad _ _ _ => none
  | .keyClear _ _ => none
  | .keyQuery _ _ => none
  | .ideKm _ _ _ => none
  | .lockInterface _ => none
  | .startInterface _ => none
  | .stopInterface _ => none
  | .deviceReset => none
  | .initialTraining _ _ => none
  | .patrolTestEnd _ => none
  | .powerThrottle _ _ _ => none
  | .d3hot _ => none
  | .endSession _ => none
  | .lifecycleTransition _ _ => none
  | .channelSubstitution _ => none
  | .smbusFallback => none

/-- The CSR numbers whose write has a row of its own in the opcode table. -/
def csrwOwnRows : List Nat := [0, 1, 0x100, 0x102, 0x180, 0x181]

/-- Whether the fields select this row where several rows share an opcode. -/
def Instr.rowOk : Instr → Bool
  | .fcvtLong o => o.ty ≠ .b8
  | .fcvtB8 o => o.ty = .b8
  | .qscaleFit o => o.mod.val / 64 = 0
  | .qscaleApply o => o.mod.val / 64 = 1
  | .adrain o => o.mod.val % 2 = 0
  | .adrainMem o => o.mod.val % 2 = 1
  | .csrr o => o.imm.val ≠ 0 && o.imm.val ≠ 0x104
  | .csrrXflag o => o.imm.val = 0
  | .csrrTrapq o => o.imm.val = 0x104
  | .csrwXflag o => o.imm.val = 0
  | .csrwRgen o => o.imm.val = 1
  | .corePartWrite o => o.imm.val = 0x100
  | .coreRetWrite o => o.imm.val = 0x102
  | .qePsumClear o => o.imm.val = 0x180
  | .qeLseedWrite o => o.imm.val = 0x181
  | .csrw o => !(csrwOwnRows.contains o.imm.val)
  | _ => true

def EntryRef.ok (e : EntryRef) : Bool := e.core < 96 && e.slot ≤ 128 && e.pos < 8

/-- Whether a step's arguments name parts that exist. -/
def Instr.argsOk : Instr → Bool
  | .rejoin e | .fuseHoldEnd e | .fuseRetry e | .yieldcWake e | .timeout e | .lockRetry e | .waitvReevaluate e => e.ok
  | .streamElementDeliver e q => e.ok && q < 4
  | .watchdog core slot => core < 96 && slot < 128
  | .matrixEngineStart core | .matrixRetire core | .syncMatrixComplete core | .drainPerform core | .clrxComplete core
  | .partitionWordTakeEffect core | .poolZeroingDone core => core < 96
  | .retentionEntry core bank | .retentionEntryDone core bank | .retentionExitDone core bank => core < 96 && bank < 48
  | .budgetRefill p | .budgetExhausted p | .partitionApply p | .partitionApplyDone p | .resetPart p => p < 16
  | .schedulingPass p => p < 17
  | .kick fn qid _ => fn < 15 && qid < 8192
  | .q0go fn | .functionLevelReset fn | .lockInterface fn | .startInterface fn | .stopInterface fn | .keyExchange fn =>
    fn < 15
  | .vfReset fn => 1 ≤ fn && fn < 15
  | .regionApply g | .regionRevoke g => g < 512
  | .slotSend pair | .gondolaResponse pair _ | .flitReceive pair _ | .lossOfLock pair | .retrainEnd pair _
  | .tetherStall pair | .pairDown pair | .linkRetrain pair | .initialTraining pair _ => pair < 80
  | .peerLinkUp port _ | .peerPortDown port => port < 4
  | .peerRequest port fn exp rfn _ _ _ _ => port < 4 && fn < 15 && exp < 16 && rfn < 16
  | .hostDma fn _ _ _ _ => fn < 15
  | .registerWrite fn _ size _ => fn < 15 && 1 ≤ size && size ≤ 8
  | .admissionComplete unit => unit < 4
  | .faultAck fn _ | .signal fn _ | .wait fn _ | .waitPacketDone fn _ | .copy fn _ | .launch fn _ | .gangReservation fn _
  | .admitPkt fn _ | .destroy fn _ | .regq fn _ | .unregq fn _ | .resetq fn _ | .rekey fn _ | .seqGap fn _ => fn < 15
  | .keyLoad _ fn tk => fn < 15 && tk.length = 32
  | .dbgUnlock token => token.length = 1024
  | _ => true

/-- A well-formed instruction (R151) or step. -/
def Instr.wf (i : Instr) : Bool :=
  match i.toRaw with
  | some r => r.check.isNone && i.rowOk
  | none => i.argsOk

/-- `wf` as a proposition. -/
abbrev Instr.WellFormed (i : Instr) : Prop := i.wf = true

end Sys2Proof
end

