-- ==== Sys2Proof/Decode.lean ====
section
/-!
DEFINITION. The decoder, total on any bytes, and the encoder written from the same tables (spec/06, R137 to R151).

The decoder works in the order of R151 and names the FIELD code of the first offence.  It is defined on words as natural
numbers, so that both directions are arithmetic on digits.
-/
namespace Sys2Proof

/-- The row of the opcode table that a short form is. -/
def Op.shortRow (op : Op) (o : Short) : Option Instr :=
  match op with
  | .nop => some (.nop o)
  | .exit => some (.exit o)
  | .join => some (.join o)
  | .yield => some (.yield o)
  | .ret => some (.ret o)
  | .elect => some (.elect o)
  | .trap => some (.trap o)
  | .idx => some (.idx o)
  | .formof => some (.formof o)
  | .vote => some (.vote o)
  | .mov => some (.mov o)
  | .movi => some (.movi o)
  | .sel => some (.sel o)
  | .iadd => some (.iadd o)
  | .isub => some (.isub o)
  | .ineg => some (.ineg o)
  | .iabs => some (.iabs o)
  | .imin => some (.imin o)
  | .imax => some (.imax o)
  | .imul => some (.imul o)
  | .imulh => some (.imulh o)
  | .imad => some (.imad o)
  | .shl => some (.shl o)
  | .shr => some (.shr o)
  | .sar => some (.sar o)
  | .rol => some (.rol o)
  | .and => some (.and o)
  | .or => some (.or o)
  | .xor => some (.xor o)
  | .andn => some (.andn o)
  | .not => some (.not o)
  | .popc => some (.popc o)
  | .clz => some (.clz o)
  | .ctz => some (.ctz o)
  | .brev => some (.brev o)
  | .bfx => some (.bfx o)
  | .bfi => some (.bfi o)
  | .icmp => some (.icmp o)
  | .plog => some (.plog o)
  | .lea => some (.lea o)
  | .icvt => some (.icvt o)
  | .fadd => some (.fadd o)
  | .fsub => some (.fsub o)
  | .fmul => some (.fmul o)
  | .fmin => some (.fmin o)
  | .fmax => some (.fmax o)
  | .ffma => some (.ffma o)
  | .fabs => some (.fabs o)
  | .fneg => some (.fneg o)
  | .fclass => some (.fclass o)
  | .fcmp => some (.fcmp o)
  | .fcvt => some (.fcvt o)
  | .fftoi => some (.fftoi o)
  | _ => none

/-- The row of the opcode table that a longer form is. -/
def Op.longRow (op : Op) (o : Long) : Instr :=
  match op with
  | .nop => .nopLong o
  | .exit => .exitLong o
  | .join => .joinLong o
  | .yield => .yieldLong o
  | .ret => .retLong o
  | .elect => .electLong o
  | .trap => .trapLong o
  | .idx => .idxLong o
  | .formof => .formofLong o
  | .bra => .bra o
  | .call => .call o
  | .bru => .bru o
  | .brc => .brc o
  | .yieldc => .yieldc o
  | .split => .split o
  | .fuse => .fuse o
  | .vote => .voteLong o
  | .reord => .reord o
  | .mov => .movLong o
  | .movi => .moviLong o
  | .sel => .selLong o
  | .iadd => .iaddLong o
  | .isub => .isubLong o
  | .ineg => .inegLong o
  | .iabs => .iabsLong o
  | .imin => .iminLong o
  | .imax => .imaxLong o
  | .imul => .imulLong o
  | .imulh => .imulhLong o
  | .imad => .imadLong o
  | .shl => .shlLong o
  | .shr => .shrLong o
  | .sar => .sarLong o
  | .rol => .rolLong o
  | .and => .andLong o
  | .or => .orLong o
  | .xor => .xorLong o
  | .andn => .andnLong o
  | .not => .notLong o
  | .popc => .popcLong o
  | .clz => .clzLong o
  | .ctz => .ctzLong o
  | .brev => .brevLong o
  | .bfx => .bfxLong o
  | .bfi => .bfiLong o
  | .icmp => .icmpLong o
  | .plog => .plogLong o
  | .lea => .leaLong o
  | .icvt => .icvtLong o
  | .fadd => .faddLong o
  | .fsub => .fsubLong o
  | .fmul => .fmulLong o
  | .fmin => .fminLong o
  | .fmax => .fmaxLong o
  | .ffma => .ffmaLong o
  | .fabs => .fabsLong o
  | .fneg => .fnegLong o
  | .fclass => .fclassLong o
  | .fcmp => .fcmpLong o
  | .frcp => .frcp o
  | .frsq => .frsq o
  | .fsqrt => .fsqrt o
  | .fdiv => .fdiv o
  | .fexp2 => .fexp2 o
  | .flog2 => .flog2 o
  | .ftanh => .ftanh o
  | .fcvt => if o.ty = .b8 then .fcvtB8 o else .fcvtLong o
  | .fitof => .fitof o
  | .fftoi => .fftoiLong o
  | .qcvt => .qcvt o
  | .qscale => if o.mod.val / 64 = 1 then .qscaleApply o else .qscaleFit o
  | .perm => .perm o
  | .redu => .redu o
  | .scan => .scan o
  | .zmod => .zmod o
  | .zadd => .zadd o
  | .zsub => .zsub o
  | .zmul => .zmul o
  | .zmulc => .zmulc o
  | .zred => .zred o
  | .ztom => .ztom o
  | .zfromm => .zfromm o
  | .zntt => .zntt o
  | .zintt => .zintt o
  | .ztwid => .ztwid o
  | .ld => .ld o
  | .ldp => .ldp o
  | .lds => .lds o
  | .pref => .pref o
  | .st => .st o
  | .stp => .stp o
  | .sts => .sts o
  | .chkb => .chkb o
  | .chkx => .chkx o
  | .xset => .xset o
  | .atom => .atom o
  | .atoms => .atoms o
  | .cas => .cas o
  | .lock => .lock o
  | .unlock => .unlock o
  | .fence => .fence o
  | .cmaint => .cmaint o
  | .bari => .bari o
  | .barv => .barv o
  | .barn => .barn o
  | .barw => .barw o
  | .waitv => .waitv o
  | .waitc => .waitc o
  | .gang => .gang o
  | .fblk => .fblk o
  | .amap => .amap o
  | .mma => .mma o
  | .mmas => .mmas o
  | .zmma => .zmma o
  | .cmpr => .cmpr o
  | .aclr => .aclr o
  | .ald => .ald o
  | .ast => .ast o
  | .amov => .amov o
  | .ascl => .ascl o
  | .adrain => if o.mod.val % 2 = 1 then .adrainMem o else .adrain o
  | .cpy => .cpy o
  | .cpyp => .cpyp o
  | .cpyk => .cpyk o
  | .coll => .coll o
  | .cstat => .cstat o
  | .cnt => .cnt o
  | .cancel => .cancel o
  | .strm => .strm o
  | .strx => .strx o
  | .csrr => if o.imm.val = 0 then .csrrXflag o else if o.imm.val = 0x104 then .csrrTrapq o else .csrr o
  | .csrw => 
    if o.imm.val = 0 then .csrwXflag o
    else if o.imm.val = 1 then .csrwRgen o
    else if o.imm.val = 0x100 then .corePartWrite o
    else if o.imm.val = 0x102 then .coreRetWrite o
    else if o.imm.val = 0x180 then .qePsumClear o
    else if o.imm.val = 0x181 then .qeLseedWrite o
    else .csrw o
  | .time => .time o
  | .save => .save o
  | .rest => .rest o
  | .tret => .tret o
  | .clrx => .clrx o
  | .rplr => .rplr o
  | .rplq => .rplq o
  | .qwait => .qwait o
  | .fltack => .fltack o

/-- The row of a raw instruction; none for a short form that no row has. -/
def Raw.toInstr : Raw → Option Instr
  | .short op o => op.shortRow o
  | .long op o => some (op.longRow o)

/-- The 32-bit words of an instruction; a step of the device has none. -/
def Instr.words (i : Instr) : List Nat :=
  match i.toRaw with
  | some r => r.words
  | none => []

/-- Number of words of an instruction. -/
def Instr.nwords (i : Instr) : Nat :=
  match i.toRaw with
  | some r => r.nwords
  | none => 0

/-- Decodes the words at the head of the remaining code (R151). -/
def decodeWords (ws : List Nat) : Except Reject Instr :=
  match Raw.decode ws with
  | .error r => .error r
  | .ok r =>
    match r.toInstr with
    | some i => .ok i
    | none => .error ⟨3, 10⟩

/-- One 32-bit word from four bytes, little-endian (R3, R137). -/
def wordOfBytes (b0 b1 b2 b3 : Byte) : Nat :=
  b0.toNat + 256 * b1.toNat + 65536 * b2.toNat + 16777216 * b3.toNat

/-- The words that a run of bytes holds; bytes short of a word are dropped. -/
def wordsOfBytes : List Byte → List Nat
  | b0 :: b1 :: b2 :: b3 :: rest => wordOfBytes b0 b1 b2 b3 :: wordsOfBytes rest
  | _ => []

/-- The four bytes of a word, little-endian. -/
def bytesOfWord (w : Nat) : List Byte :=
  [BitVec.ofNat 8 w, BitVec.ofNat 8 (w / 256), BitVec.ofNat 8 (w / 65536), BitVec.ofNat 8 (w / 16777216)]

def bytesOfWords : List Nat → List Byte
  | [] => []
  | w :: ws => bytesOfWord w ++ bytesOfWords ws

/-- The decoder on bytes: total, and it rejects by the kind and field of R151. -/
def decode (bs : List Byte) : Except Reject Instr := decodeWords (wordsOfBytes bs)

/-- The encoder: the bytes of an instruction. -/
def encode (i : Instr) : List Byte := bytesOfWords i.words

/-- The 32-bit words, least significant first, of a number. -/
def wordsOfNat : Nat → Nat → List Nat
  | 0, _ => []
  | k + 1, w => w % 4294967296 :: wordsOfNat k (w / 4294967296)

/-- The five words of an instruction whose bits are `w`, bits from `nbits` up being 0. -/
def tableWords (nbits w : Nat) : List Nat := wordsOfNat 5 (w % 2 ^ nbits)

/-- What the decoder reads from an instruction whose bits are `w`, numbered as the opcode table numbers them. -/
def decodeTableWord (nbits w : Nat) : Option Instr :=
  match decode (bytesOfWords (tableWords nbits w)) with
  | .ok i => some i
  | .error _ => none

end Sys2Proof
end

