-- ==== Sys2Proof/Machine/Crypto.lean ====
section
/-!
DEFINITION. The cryptography of the security block: HMAC and HKDF over SHA-512 (RFC 2104, RFC 5869), AES-256 (FIPS 197), CMAC (SP
800-38B) and XTS (IEEE 1619) of a line, which is a permutation of lines (R370, R410, R411, R417).
-/
namespace Sys2Proof.Crypto

/-! ### HMAC and HKDF over SHA-512 -/

/-- HMAC-SHA-512: blocks are of 128 bytes. -/
def hmac (key msg : List Byte) : List Byte :=
  let k := if 128 < key.length then Sha512.digest key else key
  let k := k ++ List.replicate (128 - k.length) 0
  Sha512.digest (k.map (· ^^^ 0x5C) ++ Sha512.digest (k.map (· ^^^ 0x36) ++ msg))

/-- The blocks of HKDF-Expand from number `i`, `n` of them, after the block `prev`. -/
def expandFrom (prk info : List Byte) : Nat → Nat → List Byte → List Byte
  | 0, _, _ => []
  | n + 1, i, prev =>
    let t := hmac prk (prev ++ info ++ [BitVec.ofNat 8 i])
    t ++ expandFrom prk info n (i + 1) t

/-- HKDF-Expand to `len` bytes. -/
def expand (prk info : List Byte) (len : Nat) : List Byte := (expandFrom prk info (ceilDiv len 64) 1 []).take len

/-- HKDF: extract with a salt, then expand. -/
def hkdf (salt secret info : List Byte) (len : Nat) : List Byte := expand (hmac salt secret) info len

/-- The bytes of ASCII text. -/
def text (s : String) : List Byte := s.toList.map fun c => BitVec.ofNat 8 c.toNat

/-! ### The field of 256 elements -/

/-- Multiplication by x modulo x^8 + x^4 + x^3 + x + 1. -/
def xtime (a : Byte) : Byte := (a <<< 1) ^^^ (if a.msb then 0x1B else 0)

/-- The substitution box of AES, and its inverse, as FIPS 197 lists them. -/
def sbox : List Byte :=
  [0x63, 0x7C, 0x77, 0x7B, 0xF2, 0x6B, 0x6F, 0xC5, 0x30, 0x01, 0x67, 0x2B, 0xFE, 0xD7, 0xAB, 0x76] ++
  [0xCA, 0x82, 0xC9, 0x7D, 0xFA, 0x59, 0x47, 0xF0, 0xAD, 0xD4, 0xA2, 0xAF, 0x9C, 0xA4, 0x72, 0xC0] ++
  [0xB7, 0xFD, 0x93, 0x26, 0x36, 0x3F, 0xF7, 0xCC, 0x34, 0xA5, 0xE5, 0xF1, 0x71, 0xD8, 0x31, 0x15] ++
  [0x04, 0xC7, 0x23, 0xC3, 0x18, 0x96, 0x05, 0x9A, 0x07, 0x12, 0x80, 0xE2, 0xEB, 0x27, 0xB2, 0x75] ++
  [0x09, 0x83, 0x2C, 0x1A, 0x1B, 0x6E, 0x5A, 0xA0, 0x52, 0x3B, 0xD6, 0xB3, 0x29, 0xE3, 0x2F, 0x84] ++
  [0x53, 0xD1, 0x00, 0xED, 0x20, 0xFC, 0xB1, 0x5B, 0x6A, 0xCB, 0xBE, 0x39, 0x4A, 0x4C, 0x58, 0xCF] ++
  [0xD0, 0xEF, 0xAA, 0xFB, 0x43, 0x4D, 0x33, 0x85, 0x45, 0xF9, 0x02, 0x7F, 0x50, 0x3C, 0x9F, 0xA8] ++
  [0x51, 0xA3, 0x40, 0x8F, 0x92, 0x9D, 0x38, 0xF5, 0xBC, 0xB6, 0xDA, 0x21, 0x10, 0xFF, 0xF3, 0xD2] ++
  [0xCD, 0x0C, 0x13, 0xEC, 0x5F, 0x97, 0x44, 0x17, 0xC4, 0xA7, 0x7E, 0x3D, 0x64, 0x5D, 0x19, 0x73] ++
  [0x60, 0x81, 0x4F, 0xDC, 0x22, 0x2A, 0x90, 0x88, 0x46, 0xEE, 0xB8, 0x14, 0xDE, 0x5E, 0x0B, 0xDB] ++
  [0xE0, 0x32, 0x3A, 0x0A, 0x49, 0x06, 0x24, 0x5C, 0xC2, 0xD3, 0xAC, 0x62, 0x91, 0x95, 0xE4, 0x79] ++
  [0xE7, 0xC8, 0x37, 0x6D, 0x8D, 0xD5, 0x4E, 0xA9, 0x6C, 0x56, 0xF4, 0xEA, 0x65, 0x7A, 0xAE, 0x08] ++
  [0xBA, 0x78, 0x25, 0x2E, 0x1C, 0xA6, 0xB4, 0xC6, 0xE8, 0xDD, 0x74, 0x1F, 0x4B, 0xBD, 0x8B, 0x8A] ++
  [0x70, 0x3E, 0xB5, 0x66, 0x48, 0x03, 0xF6, 0x0E, 0x61, 0x35, 0x57, 0xB9, 0x86, 0xC1, 0x1D, 0x9E] ++
  [0xE1, 0xF8, 0x98, 0x11, 0x69, 0xD9, 0x8E, 0x94, 0x9B, 0x1E, 0x87, 0xE9, 0xCE, 0x55, 0x28, 0xDF] ++
  [0x8C, 0xA1, 0x89, 0x0D, 0xBF, 0xE6, 0x42, 0x68, 0x41, 0x99, 0x2D, 0x0F, 0xB0, 0x54, 0xBB, 0x16]

def invSbox : List Byte :=
  [0x52, 0x09, 0x6A, 0xD5, 0x30, 0x36, 0xA5, 0x38, 0xBF, 0x40, 0xA3, 0x9E, 0x81, 0xF3, 0xD7, 0xFB] ++
  [0x7C, 0xE3, 0x39, 0x82, 0x9B, 0x2F, 0xFF, 0x87, 0x34, 0x8E, 0x43, 0x44, 0xC4, 0xDE, 0xE9, 0xCB] ++
  [0x54, 0x7B, 0x94, 0x32, 0xA6, 0xC2, 0x23, 0x3D, 0xEE, 0x4C, 0x95, 0x0B, 0x42, 0xFA, 0xC3, 0x4E] ++
  [0x08, 0x2E, 0xA1, 0x66, 0x28, 0xD9, 0x24, 0xB2, 0x76, 0x5B, 0xA2, 0x49, 0x6D, 0x8B, 0xD1, 0x25] ++
  [0x72, 0xF8, 0xF6, 0x64, 0x86, 0x68, 0x98, 0x16, 0xD4, 0xA4, 0x5C, 0xCC, 0x5D, 0x65, 0xB6, 0x92] ++
  [0x6C, 0x70, 0x48, 0x50, 0xFD, 0xED, 0xB9, 0xDA, 0x5E, 0x15, 0x46, 0x57, 0xA7, 0x8D, 0x9D, 0x84] ++
  [0x90, 0xD8, 0xAB, 0x00, 0x8C, 0xBC, 0xD3, 0x0A, 0xF7, 0xE4, 0x58, 0x05, 0xB8, 0xB3, 0x45, 0x06] ++
  [0xD0, 0x2C, 0x1E, 0x8F, 0xCA, 0x3F, 0x0F, 0x02, 0xC1, 0xAF, 0xBD, 0x03, 0x01, 0x13, 0x8A, 0x6B] ++
  [0x3A, 0x91, 0x11, 0x41, 0x4F, 0x67, 0xDC, 0xEA, 0x97, 0xF2, 0xCF, 0xCE, 0xF0, 0xB4, 0xE6, 0x73] ++
  [0x96, 0xAC, 0x74, 0x22, 0xE7, 0xAD, 0x35, 0x85, 0xE2, 0xF9, 0x37, 0xE8, 0x1C, 0x75, 0xDF, 0x6E] ++
  [0x47, 0xF1, 0x1A, 0x71, 0x1D, 0x29, 0xC5, 0x89, 0x6F, 0xB7, 0x62, 0x0E, 0xAA, 0x18, 0xBE, 0x1B] ++
  [0xFC, 0x56, 0x3E, 0x4B, 0xC6, 0xD2, 0x79, 0x20, 0x9A, 0xDB, 0xC0, 0xFE, 0x78, 0xCD, 0x5A, 0xF4] ++
  [0x1F, 0xDD, 0xA8, 0x33, 0x88, 0x07, 0xC7, 0x31, 0xB1, 0x12, 0x10, 0x59, 0x27, 0x80, 0xEC, 0x5F] ++
  [0x60, 0x51, 0x7F, 0xA9, 0x19, 0xB5, 0x4A, 0x0D, 0x2D, 0xE5, 0x7A, 0x9F, 0x93, 0xC9, 0x9C, 0xEF] ++
  [0xA0, 0xE0, 0x3B, 0x4D, 0xAE, 0x2A, 0xF5, 0xB0, 0xC8, 0xEB, 0xBB, 0x3C, 0x83, 0x53, 0x99, 0x61] ++
  [0x17, 0x2B, 0x04, 0x7E, 0xBA, 0x77, 0xD6, 0x26, 0xE1, 0x69, 0x14, 0x63, 0x55, 0x21, 0x0C, 0x7D]

def subByte (a : Byte) : Byte := sbox.getD a.toNat 0
def unsubByte (a : Byte) : Byte := invSbox.getD a.toNat 0

theorem unsub_sub : ∀ a : Byte, unsubByte (subByte a) = a := by decide +kernel
theorem sub_unsub : ∀ a : Byte, subByte (unsubByte a) = a := by decide +kernel

theorem xor_left_comm (a b c : Byte) : a ^^^ (b ^^^ c) = b ^^^ (a ^^^ c) := by
  rw [← BitVec.xor_assoc, BitVec.xor_comm a b, BitVec.xor_assoc]

theorem xtime_xor (a b : Byte) : xtime (a ^^^ b) = xtime a ^^^ xtime b := by
  unfold xtime
  rw [BitVec.shiftLeft_xor_distrib, BitVec.msb_xor]
  cases a.msb <;> cases b.msb <;> simp [BitVec.xor_assoc, BitVec.xor_comm, xor_left_comm]

/-! ### AES-256 -/

/-- A block: its 16 bytes in order, column after column. -/
abbrev Block := Vector Byte 16

def subBytes : Equiv.Perm Block where
  toFun v := v.map subByte
  invFun v := v.map unsubByte
  left_inv v := by ext i h; simp [unsub_sub]
  right_inv v := by ext i h; simp [sub_unsub]

/-- Row `i mod 4` of a block moves left by that many columns. -/
def shiftRows : Equiv.Perm Block where
  toFun v := Vector.ofFn fun i : Fin 16 => v[(i.val + 4 * (i.val % 4)) % 16]
  invFun v := Vector.ofFn fun i : Fin 16 => v[(i.val + 12 * (i.val % 4)) % 16]
  left_inv v := by
    apply Vector.ext
    intro i h
    have e : (i + 12 * (i % 4) + 4 * ((i + 12 * (i % 4)) % 4)) % 16 = i := by omega
    simp [e]
  right_inv v := by
    apply Vector.ext
    intro i h
    have e : (i + 4 * (i % 4) + 12 * (i % 4)) % 16 = i := by omega
    simp [e]

/-- Byte `r` of a column mixed with the three that follow it in the column. -/
def mixByte (a b c d : Byte) : Byte := xtime a ^^^ xtime b ^^^ b ^^^ c ^^^ d
/-- The same backwards, 14 a + 11 b + 13 c + 9 d, from the sum `t` of the column. -/
def unmixSum (t a b c : Byte) : Byte := xtime (xtime (xtime t ^^^ (a ^^^ c)) ^^^ (a ^^^ b)) ^^^ (t ^^^ a)
def unmixByte (a b c d : Byte) : Byte := unmixSum (a ^^^ b ^^^ c ^^^ d) a b c

/-- Byte `i` of a block with its column's bytes after it. -/
def Block.column (f : Byte → Byte → Byte → Byte → Byte) (v : Block) : Block :=
  Vector.ofFn fun i : Fin 16 =>
    let k := i.val / 4 * 4
    f v[(k + i.val % 4) % 16] (v[(k + (i.val + 1) % 4) % 16]) (v[(k + (i.val + 2) % 4) % 16]) (v[(k + (i.val + 3) % 4) % 16])

theorem unmix_mix (a b c d : Byte) :
    unmixByte (mixByte a b c d) (mixByte b c d a) (mixByte c d a b) (mixByte d a b c) = a := by
  have e1 : mixByte a b c d ^^^ mixByte b c d a ^^^ mixByte c d a b ^^^ mixByte d a b c = a ^^^ b ^^^ c ^^^ d := by
    simp [mixByte, BitVec.xor_assoc, BitVec.xor_comm, xor_left_comm]
  have e2 : mixByte a b c d ^^^ mixByte c d a b = xtime (a ^^^ b ^^^ c ^^^ d) ^^^ (a ^^^ c) := by
    simp [mixByte, xtime_xor, BitVec.xor_assoc, BitVec.xor_comm, xor_left_comm]
  have e3 : mixByte a b c d ^^^ mixByte b c d a = xtime (a ^^^ c) ^^^ (a ^^^ b) := by
    simp [mixByte, xtime_xor, BitVec.xor_assoc, BitVec.xor_comm, xor_left_comm]
  unfold unmixByte
  rw [e1]
  unfold unmixSum
  rw [e2, e3]
  simp [mixByte, xtime_xor, BitVec.xor_assoc, BitVec.xor_comm, xor_left_comm]

theorem unmixSum_unmixSum (t a b c d : Byte) :
    unmixSum t a b c ^^^ unmixSum t b c d = xtime (xtime (a ^^^ b ^^^ c ^^^ d)) ^^^ (xtime (a ^^^ c) ^^^ (a ^^^ b)) := by
  simp [unmixSum, xtime_xor, BitVec.xor_assoc, BitVec.xor_comm, xor_left_comm]

theorem mix_unmix (a b c d : Byte) :
    mixByte (unmixByte a b c d) (unmixByte b c d a) (unmixByte c d a b) (unmixByte d a b c) = a := by
  obtain ⟨t, ht⟩ : ∃ t, t = a ^^^ b ^^^ c ^^^ d := ⟨_, rfl⟩
  have h1 : b ^^^ c ^^^ d ^^^ a = t := by rw [ht]; simp [BitVec.xor_comm, xor_left_comm]
  have h2 : c ^^^ d ^^^ a ^^^ b = t := by rw [ht]; simp [BitVec.xor_comm, xor_left_comm]
  have h3 : d ^^^ a ^^^ b ^^^ c = t := by rw [ht]; simp [BitVec.xor_comm, xor_left_comm]
  have e := unmixSum_unmixSum t a b c d
  have f := unmixSum_unmixSum t c d a b
  rw [← ht] at e
  rw [h2] at f
  unfold unmixByte mixByte
  rw [h1, h2, h3, ← ht, ← xtime_xor, e, BitVec.xor_assoc, BitVec.xor_assoc, f]
  have g : unmixSum t b c d = unmixSum t a b c ^^^ (xtime (xtime t) ^^^ (xtime (a ^^^ c) ^^^ (a ^^^ b))) := by
    rw [← e, ← BitVec.xor_assoc, BitVec.xor_self, BitVec.zero_xor]
  rw [g]
  simp [unmixSum, xtime_xor, BitVec.xor_assoc, BitVec.xor_comm, xor_left_comm, ht]

/-- A mix of columns undone by another. -/
theorem column_column (f g : Byte → Byte → Byte → Byte → Byte) (v : Block)
    (h : ∀ a b c d, g (f a b c d) (f b c d a) (f c d a b) (f d a b c) = a) : (v.column f).column g = v := by
  apply Vector.ext
  intro i hi
  interval_cases i <;> simp [Block.column, h]

def mixColumns : Equiv.Perm Block where
  toFun := Block.column mixByte
  invFun := Block.column unmixByte
  left_inv v := column_column _ _ v unmix_mix
  right_inv v := column_column _ _ v mix_unmix

/-- A block with another added. -/
def addBlock (k : Block) : Equiv.Perm Block where
  toFun v := Vector.zipWith (· ^^^ ·) v k
  invFun v := Vector.zipWith (· ^^^ ·) v k
  left_inv v := by ext i h; simp
  right_inv v := by ext i h; simp

/-- The next word of the key schedule from the one before it and the one eight before, as word `i` (FIPS 197, Nk = 8). -/
def nextWord (i : Nat) (prev old : List Byte) : List Byte :=
  let rcon : Byte := (List.range (i / 8 - 1)).foldl (fun x _ => xtime x) 1
  let t :=
    if i % 8 = 0 then match (prev.drop 1 ++ prev.take 1).map subByte with
      | b :: r => (b ^^^ rcon) :: r
      | [] => []
    else if i % 8 = 4 then prev.map subByte
    else prev
  t.zipWith (· ^^^ ·) old

/-- The key schedule from word `i` on: the words so far, last first. -/
def keyWords : Nat → Nat → List (List Byte) → List (List Byte)
  | 0, _, ws => ws
  | n + 1, i, ws => keyWords n (i + 1) (nextWord i (ws.headD []) (ws.getD 7 []) :: ws)

/-- Bytes as words of four. -/
def fours : List Byte → List (List Byte)
  | a :: b :: c :: d :: r => [a, b, c, d] :: fours r
  | _ => []

/-- A block of bytes from a list, 0 where it is too short. -/
def blockOf (bs : List Byte) : Block := Vector.ofFn fun i : Fin 16 => bs.getD i.val 0

/-- The 15 round keys of AES-256 from a key of 32 bytes. -/
def roundKeys (key : List Byte) : List Block :=
  let bytes := (keyWords 52 8 (fours ((key ++ List.replicate 32 0).take 32)).reverse).reverse.flatten
  (List.range 15).map fun r => blockOf (bytes.drop (16 * r))

/-- AES-256 under a key: a permutation of blocks. -/
def aes (key : List Byte) : Equiv.Perm Block :=
  match roundKeys key with
  | k0 :: ks => ks.zipIdx.foldl (fun e x =>
      ((e.trans subBytes).trans shiftRows).trans ((if x.2 = 13 then Equiv.refl Block else mixColumns).trans (addBlock x.1))) (addBlock k0)
  | [] => Equiv.refl Block

/-! ### CMAC (SP 800-38B) -/

/-- A number of 128 bits doubled in the field of 2^128 elements. -/
def double128 (x : BitVec 128) : BitVec 128 := (x <<< 1) ^^^ (if x.msb then 0x87 else 0)

/-- A block as a number whose first byte is the most significant, and back. -/
def Block.numBE (b : Block) : BitVec 128 := BitVec.ofNat 128 (b.toList.foldl (fun n x => 256 * n + x.toNat) 0)
def blockBE (x : BitVec 128) : Block := Vector.ofFn fun i : Fin 16 => x.extractLsb' (8 * (15 - i.val)) 8

/-- The chaining of CMAC over a message of `n` blocks at most: its last block takes the first subkey where it is whole, else the second with
a 1 bit after it. -/
def cmacFrom (key : List Byte) (k1 k2 : Block) : Nat → Block → List Byte → Block
  | 0, x, _ => x
  | n + 1, x, m =>
    if 16 < m.length then cmacFrom key k1 k2 n (aes key (addBlock (blockOf m) x)) (m.drop 16)
    else if m.length = 16 then aes key (addBlock k1 (addBlock (blockOf m) x))
    else aes key (addBlock k2 (addBlock (blockOf (m ++ [0x80])) x))

/-- AES-256-CMAC: 16 bytes. -/
def cmac (key msg : List Byte) : List Byte :=
  let l := (aes key (blockOf [])).numBE
  (cmacFrom key (blockBE (double128 l)) (blockBE (double128 (double128 l))) (msg.length / 16 + 1) (blockOf []) msg).toList

/-! ### XTS over a line of 512 bytes (IEEE 1619) -/

/-- A line as its 32 blocks. -/
def lineBlocks : BitVec 4096 ≃ Vector Block 32 where
  toFun x := Vector.ofFn fun j : Fin 32 => Vector.ofFn fun i : Fin 16 => x.extractLsb' (128 * j.val + 8 * i.val) 8
  invFun v := BitVec.ofFnLE fun k : Fin 4096 => (v[k.val / 128]'(by omega))[k.val / 8 % 16].getLsbD (k.val % 8)
  left_inv x := by
    apply BitVec.eq_of_getElem_eq
    intro k hk
    rw [BitVec.getElem_ofFnLE]
    have e : 128 * (k / 128) + 8 * (k / 8 % 16) + k % 8 = k := by omega
    have l : k % 8 < 8 := by omega
    simp [e, l, BitVec.getLsbD_eq_getElem, hk]
  right_inv v := by
    apply Vector.ext
    intro j hj
    apply Vector.ext
    intro i hi
    apply BitVec.eq_of_getElem_eq
    intro b hb
    have e1 : (128 * j + 8 * i + b) / 128 = j := by omega
    have e2 : (128 * j + 8 * i + b) / 8 % 16 = i := by omega
    have e3 : (128 * j + 8 * i + b) % 8 = b := by omega
    have l : 128 * j + 8 * i + b < 4096 := by omega
    simp [BitVec.getLsbD_eq_getElem, l, e1, e2, e3, hb]

/-- A number of 128 bits as a block, least significant byte first. -/
def blockLE (x : BitVec 128) : Block := Vector.ofFn fun i : Fin 16 => x.extractLsb' (8 * i.val) 8

/-- A block as a number, least significant byte first. -/
def Block.numLE (b : Block) : BitVec 128 := BitVec.ofNat 128 (b.toList.foldr (fun x n => x.toNat + 256 * n) 0)

/-- A permutation of each block of a line. -/
def eachBlock (f : Nat → Equiv.Perm Block) : Equiv.Perm (Vector Block 32) where
  toFun v := Vector.ofFn fun j : Fin 32 => f j.val v[j.val]
  invFun v := Vector.ofFn fun j : Fin 32 => (f j.val).symm v[j.val]
  left_inv v := by
    apply Vector.ext
    intro i h
    simp
  right_inv v := by
    apply Vector.ext
    intro i h
    simp

/-- AES-256-XTS of a line under a key of 64 bytes, the data key and the tweak key, and a tweak (R410, R411). -/
def xts (key : List Byte) (tweak : Nat) : Equiv.Perm (BitVec 4096) :=
  let e := aes (key.take 32)
  let t0 := (aes (key.drop 32) (blockLE (BitVec.ofNat 128 tweak))).numLE
  let t (j : Nat) : Block := blockLE ((List.range j).foldl (fun x _ => double128 x) t0)
  (lineBlocks.trans (eachBlock fun j => ((addBlock (t j)).trans e).trans (addBlock (t j)))).trans lineBlocks.symm

end Sys2Proof.Crypto
end

