-- ==== Sys2Proof/Config.lean ====
section
/-!
DEFINITION. What an implementation fixes and the values the spec leaves open.

A value with no body is free: no proof can see it.  A constant with a body is a choice of this model and is named in the
assumption log.
-/
namespace Sys2Proof.Config

/-! ### Free values (assumption 15) -/

/-- A fresh 64-bit value for the n-th draw: a value that the spec leaves open, applied to a counter of the state. -/
opaque freeWord : Nat → W64
/-- A free choice among the outcomes a rule allows, for the n-th draw: chunk order (R274), order of CMAINT ranges (R242). -/
opaque freeChoice : Nat → Nat
/-- Bytes drawn by the security block's random generator (R417, R427). -/
opaque freeBytes : Nat → Nat → List Byte

/-- Whether a debug token's RSASSA-PSS signature verifies (R427). -/
opaque tokenSigned : List Byte → Bool
/-- The bytes of the trap handler's signed image (R271, R288), which the spec does not give. -/
opaque firmwareByte : Nat → Byte
/-- The certificate chain of slot 0 (R423). -/
opaque certChain : List Byte
/-- The measured firmware digests of blocks 1 and 2 (R424). -/
opaque firmwareDigest : Nat → List Byte
/-- The fused device identity, bytes of the DEVID (R427, R469). -/
opaque deviceId : List Byte
/-! ### The device reserve (R361): physical bases chosen by this model's boot firmware (assumption 8) -/

/-- Bytes of the Gondola (R18, R109). -/
def gondolaBytes : Nat := 3 * 2 ^ 40
/-- Frames of 64 KiB (R109). -/
def frameCount : Nat := 3 * 2 ^ 24
/-- First byte of the device reserve. -/
def reserve : Nat := gondolaBytes - 2 ^ 33
def ttRoot : Nat := reserve
def fwdBase : Nat := reserve + 2 ^ 30
def fatBase : Nat := reserve + 2 ^ 30 + 2 ^ 20
def kickBase : Nat := reserve + 2 ^ 30 + 2 ^ 25
def qcbBase : Nat := reserve + 2 ^ 30 + 2 ^ 26
def slotBase : Nat := reserve + 2 ^ 30 + 2 ^ 27
def rplBase : Nat := reserve + 2 ^ 30 + 2 ^ 27 + 2 ^ 20
/-- The pool of window stores, 64 MiB. -/
def windowPool : Nat := reserve + 2 ^ 30 + 2 ^ 28
/-- Translation tables below the root are taken upward from here. -/
def ttPool : Nat := ttRoot + 2 ^ 16
/-- Frames below the reserve that hold parameter blocks, one page for each launch tag (R316). -/
def paramFrames : Nat := (reserve - 2 ^ 32) / 65536
/-- Device address of the parameter block of launch tag 0; later tags follow at 64 KiB. -/
def paramVa : Nat := 0xE000000000000
/-- Frames that region grants may take lie below this one. -/
def freeFrames : Nat := paramFrames

/-- Device address of the trap handler's image: the last page of the 52-bit space (assumption 10). -/
def firmware : Nat := 2 ^ 52 - 65536

/-! ### Fixed figures of the part -/

/-- Clocks of one microsecond at 1.6 GHz (R6, R21). -/
def clocksPerUs : Nat := 1600

end Sys2Proof.Config
end

