-- ==== Sys2Proof/Machine/Parts.lean ====
section
/-!
DEFINITION. The parts that the machine's state is made of, each plain data (spec/02, 03, 05, 10, 11, 16 to 20).
-/
namespace Sys2Proof.Machine

/-! ### Registers of an entry (R31, R65 to R72) -/

/-- A v register in its form (R31): DEN values are listed by offset in the entry's range. -/
inductive VReg where
  | uni (u : W32)
  | aff (base stride : W32)
  | den (vals : List W32)
deriving DecidableEq, Repr

/-- A predicate in its form (R31): an AFF predicate holds a threshold launch index and a sense. -/
inductive PReg where
  | uni (t : Bool)
  | aff (c : Nat) (sense : Bool)
  | den (vals : List Bool)
deriving DecidableEq, Repr

/-- An index register: UNI or DEN only (R66). -/
inductive XReg where
  | uni (w : W32)
  | den (vals : List W32)
deriving DecidableEq, Repr

/-- One divergence level (R36 to R40): a cut entry with its identity and piece count, or a mask entry with the saved
mask, the target, the set not yet run, and why an AFF comparison was masked (0 none, 1 AFF_RANGE, 2 PIECES, R326). -/
inductive Level where
  | cut (id : Nat) (count : Nat)
  | mask (saved : List Bool) (target : Nat) (pending : List Bool) (cause : Nat)
deriving DecidableEq, Repr

/-- One side of a copy: device memory, the flight's scratchpad, or a peer module (R270). -/
inductive Space where
  | mem | spad | peer
deriving DecidableEq, Repr

/-- A chunk of a copy (R274): where it writes and reads, and the index of its first word in a chain (R278). -/
structure Chunk where
  dst : Nat
  src : Nat
  len : Nat
  index : Nat
  started : Bool
  parked : Bool
deriving DecidableEq, Repr

/-- The chain link of a copy command (R278): none for CPY and CPYP. -/
inductive Link where
  | first | mid | last | only
deriving DecidableEq, Repr

/-- A copy outstanding on its engine (R274 to R278). -/
structure CopyOp where
  dsp : Space
  ssp : Space
  port : Nat
  chunks : List Chunk
  performed : Nat
  link : Option Link
  expect : W32
  /-- The identity of its chain, the sum of its own words written so far and that of the chain's commands retired before it. -/
  chain : Nat
  sum : W32
  prior : W32
  /-- The running index where the command starts in its chain. -/
  startIndex : Nat
  /-- Set when a peer refused a chunk (R445). -/
  denied : Bool
  cancelled : Bool
  /-- Its chain is broken: by a command before it, or by a merge of entries (R73, R278). -/
  broken : Bool
  /-- Physical pieces of device memory written so far (R129). -/
  wrote : List (Nat × Nat)
deriving DecidableEq, Repr

/-- A use of a collective (R279, R280). -/
structure CollOp where
  ident : W32
  use : Nat
  kind : Nat
  op : Nat
  ty : Ty
  count : Nat
  root : Nat
  buf : Nat
  rank : Nat
  parts : Nat
  local_ : List Byte
  progress : Nat
  /-- Physical pieces of device memory written (R129). -/
  wrote : List (Nat × Nat)
deriving DecidableEq, Repr

/-- What an outstanding asynchronous operation is (R72). -/
inductive AsyncKind where
  | copy (c : CopyOp)
  | matrix (engineId : Nat)
  | coll (c : CollOp)
  | stream (queue : Nat)
deriving DecidableEq, Repr

/-- An asynchronous operation of an entry: class as R72 numbers it, issue sequence number, and whether it has been
performed and waits only for the earlier operations of its class to retire (R129). -/
structure AsyncOp where
  id : Nat
  cls : Nat
  seq : Nat
  /-- TIME of its issue (R73). -/
  issued : Nat
  done : Bool
  code : Nat
  cause : Nat
  kind : AsyncKind
deriving DecidableEq, Repr

/-- A status word of the status store (R272, R273). -/
structure OpStat where
  id : Nat
  seq : Nat
  cls : Nat
  code : Nat
  cause : Nat
  chunks : Nat
  sum : W32
  issued : Nat
deriving DecidableEq, Repr

/-- Chain state of CPYK (R278): the sum and the count of the words written so far, and whether it is open. -/
structure Chain where
  /-- The identity of the chain, fresh with each `.first` and `.only`. -/
  id : Nat := 0
  sum : W32 := 0
  index : Nat := 0
  isOpen : Bool := false
  /-- A command of the chain was cancelled or refused (R273, R278). -/
  broken : Bool := false
  /-- The index at which the next command starts, and the sum of the commands retired. -/
  next : Nat := 0
  acc : W32 := 0
deriving DecidableEq, Repr

/-- A stream of an entry (R71, R284): its record, elements still to fetch, and the rows of elements queued by offset. -/
structure Stream where
  wide : Bool
  base : Nat
  istride : Int
  counts : List Nat
  strides : List Int
  total : Nat
  fetched : Nat
  queued : List (List W64)
  popped : Nat
  /-- The operation it counts as, while this entry keeps it. -/
  op : Option Nat
  /-- Ended by STRX or exhausted (R285). -/
  ended : Bool
deriving DecidableEq, Repr

/-- What a parked entry waits for (R53, R234, R235, R239, R230, R251, R295). -/
inductive Wait where
  | yieldc (cls t target : Nat)
  /-- A BARW, with the byte offset of the barrier word and the phase it waits to see end (R239). -/
  | barw (o : Long) (off phase : Nat)
  | waitv (o : Long)
  | waitc (o : Long)
  /-- A LOCK, with its place in the order of parking and the address of its word (R230). -/
  | lock (o : Long) (place va : Nat)
  /-- A matrix instruction at the latch, or released and waiting for the engine queue (R251, R252). -/
  | latch (id : Nat)
  | qwait (o : Long)
deriving DecidableEq, Repr

/-- Why an entry is neither ready nor parked (R71, R72, R47, R252, R265, R288, R292, R130, R267, R289). -/
inductive Hold where
  | queue (q : Nat)
  | counter (cls : Nat)
  | fuse (o : Long)
  | engine (id : Nat)
  | trapq
  | clrx (o : Long)
  | replay
  | fill (line : Nat)
  | save (flight : Nat) (o : Long)
  /-- A release, a wait or the end of an entry waits for its accesses to be performed and acknowledged (R124, R244). -/
  | acks
  /-- A REST waits for the banks it places a flight into (R85). -/
  | banks (core : Nat)
deriving DecidableEq, Repr

/-- What an entry is doing. -/
inductive Status where
  | ready
  | atJoin
  | parked (w : Wait) (deadline : Option Nat)
  | held (h : Hold)
  /-- Waits on the trap handler or on FAULT_ACK for a fault that may resume (R291, R296): fault code, function, record,
  and the words of the instruction to step over under TRET `.next`. -/
  | onHandler (code fn recno words : Nat)
  | done
deriving DecidableEq, Repr

/-- A register, register element or entry of a strand's own store whose stored word is beyond correction (R59, R61, R83): kind 0 v,
1 x, 2 s, 3 p, 4 cut stack, 5 mask stack, 6 piece table. -/
structure BadWord where
  kind : Nat
  num : Nat
  offset : Option Nat
  both : Bool
deriving DecidableEq, Repr

/-- The byte range one long-latency access holds while its window is open (R347, R352): distance left, address space
(0 device memory, 1 scratchpad), whether it wrote, item, range, and the PC of the instruction. -/
structure WinRec where
  left : Nat
  space : Nat
  wrote : Bool
  item : Nat
  addr : Nat
  len : Nat
  pc : Nat
deriving DecidableEq, Repr

/-- An independently scheduled part of a strand: the strand, a piece of a cut, or a strand made by SPLIT (R29). -/
structure Entry where
  pos : Nat
  start : Nat
  len : Nat
  wstart : Nat
  width : Nat
  snum : Nat
  pc : Nat
  status : Status
  retired : Nat
  regs : List VReg
  xregs : List XReg
  preds : List PReg
  scalars : List W64
  levels : List Level
  mask : List Bool
  dead : List Bool
  ended : List Bool
  xflag : Bool
  gen : W32
  modctx : Option (W64 × W64)
  counts : List Nat
  seq : Nat
  stats : List OpStat
  chain : Chain
  streams : List (Option Stream)
  ops : List AsyncOp
  order : Nat
  window : List WinRec
  bad : List BadWord
  /-- Destinations of retired copies and collectives that a WAITC has yet to invalidate (R129): address and bytes. -/
  dsts : List (Nat × Nat)
deriving DecidableEq, Repr

/-- A resident strand slot (R29): core, number (128 is the trap handler's own, R288), flight, watchdog counter (R52). -/
structure Slot where
  core : Nat
  num : Nat
  flight : Nat
  watchdog : Nat
  entries : List Entry
deriving DecidableEq, Repr

/-! ### Flights, launches and kernels -/

/-- An entry of the flight's barrier table (R236 to R240): word offset, `.items` mark, the items that arrived with the
phase their arrival carried, and decrements due at the end of the current phase. -/
structure Barrier where
  off : Nat
  items : Bool
  arrived : List (Nat × Nat)
  due : Nat
deriving DecidableEq, Repr

/-- A matrix instruction at the rendezvous latch (R251), or released and waiting for a place in an engine queue (R252), with
the values of its sources and of the modulus context.  The entries that arrived are those that wait for its identity. -/
structure Latch where
  id : Nat
  op : Op
  o : Long
  a : W64
  b : W64
  c : W64
  q : Option (W64 × W64)
  /-- The core whose engine queue it enters. -/
  core : Nat
  deadline : Option Nat
deriving DecidableEq, Repr

/-- An instruction in a core's engine queue, with the state it read as it entered (R252). -/
structure EngInstr where
  id : Nat
  flight : Nat
  op : Op
  o : Long
  /-- Operand values of A, B and C. -/
  a : W64
  b : W64
  c : W64
  q : Option (W64 × W64)
  fmt : Option (BitVec 512)
  maps : List (BitVec 128)
  /-- Clocks of engine occupancy (R259, R265). -/
  clocks : Nat
  started : Option Nat
  /-- The flight's scratchpad as it entered (R268). -/
  snap : List Host.Cell
  /-- A drain's tile, once its engine step has read it (R266, R267). -/
  data : List (Nat × W64)
  /-- A drain that waits as a replay entry (R267). -/
  parked : Bool
deriving DecidableEq, Repr

/-- Where a flight is (R28, R384, R386). -/
inductive FlightState where
  | resident
  /-- A save has been asked of the handler (R384); its entries still issue. -/
  | asked
  /-- A SAVE brings it to quiescence (R289); its entries do not issue. -/
  | saving
  | saved
deriving DecidableEq, Repr

/-- What the release of a replay entry performs (R130, R391): nothing by itself, since its instruction or operation is made
again; a load into the register a specifier names (for the whole instruction where its address is UNI); a store of bytes; or an
atomic with its operands. -/
inductive Work where
  | again
  | load (o : Long) (d : Spec) (ty : Ty) (whole : Bool)
  | store (o : Long) (bytes : List Byte)
  | atomic (op : Op) (o : Long) (b c : W64)
deriving DecidableEq, Repr

/-- A replay entry (R391) with the access it parked; cause 0 marks an access on its way to a line in the Gondola. -/
structure Replay where
  index : Nat
  cause : Nat
  kind : Nat
  owner : Nat
  slot : Nat
  entry : Nat
  pos : Nat
  addr : Nat
  len : Nat
  order : Nat
  aux : Nat
  src : Nat
  ptime : Nat
  /-- The tether pair, when a tether parked it (R439). -/
  pair : Option Nat
  core : Nat
  /-- The operation or drain it stands for. -/
  op : Nat
  /-- The flight it belongs to. -/
  flight : Nat
  /-- Launch index of its item, and the PC of its instruction. -/
  item : Nat
  pc : Nat
  /-- Instructions of the entry that may still issue before it completes (R344). -/
  left : Nat
  work : Work
deriving DecidableEq, Repr

/-- Bytes of the pool that a flight holds: core, part (0 register file, 1 accumulator store, 2 scratchpad), first byte
within the part and length (R28, R78, R85). -/
structure Alloc where
  core : Nat
  part : Nat
  start : Nat
  len : Nat
deriving DecidableEq, Repr

/-- A flight (R26, R28): its launch's tag, number, reorder phase, place and the state its strands share. -/
structure Flight where
  id : Nat
  tag : Nat
  num : Nat
  phase : Nat
  first : Nat
  last : Nat
  core : Nat
  pair : Bool
  state : FlightState
  /-- Strands of a saved flight, with their slot order (R62). -/
  saved : List Slot
  savedReplay : List Replay
  saveArea : Nat
  /-- Whether a handler is asked to place it again and on which core (R390). -/
  placing : Option Nat
  /-- The partition it was placed in, with the save-pool bytes reserved for it there (R386). -/
  part : Nat
  lmax : Nat
  alloc : List Alloc
  mirrored : Bool
  spadSize : Nat
  spad : List Host.Cell
  /-- Tiles as lists of the elements that are not zero, by element index (R76). -/
  tiles : List (List (Nat × W64))
  gang : List Nat
  gangE : Nat
  latch : Option Latch
  /-- Instructions that wait for a place in an engine queue, in order (R252). -/
  released : List Latch
  fmt : Option (BitVec 512)
  maps : List (BitVec 128)
  bars : List Barrier
  parkedSince : Option Nat
  /-- Storage of the flight beyond correction (R59, R260): (0, 8-byte word of the scratchpad) or (1, tile). -/
  spoiled : List (Nat × Nat)
  /-- Drains of a saved flight that wait as replay entries (R269). -/
  savedDrains : List EngInstr
deriving DecidableEq, Repr

/-- A grant record of a kernel or a launch (R315). -/
structure Grant where
  base : Nat
  fix : Nat
  pitem : Nat
  pflt : Nat
  ppar : Nat
  param : Nat
  rights : Nat
  shared : Bool
  owner : Nat
deriving DecidableEq, Repr

/-- A region of a launch: base, size and rights (R277). -/
structure LRegion where
  base : Nat
  size : Nat
  rights : Nat
deriving DecidableEq, Repr

/-- A record deposited in a reorder phase (R56, R57): die, key, launch index, continuation offset, payload words. -/
structure RRec where
  die : Nat
  key : Nat
  index : Nat
  cont : Nat
  payload : List W32
deriving DecidableEq, Repr

/-- A strand of a relaunched flight (R57): its range, its continuation and its records in order. -/
structure RStrand where
  start : Nat
  recs : List RRec
deriving DecidableEq, Repr

/-- A relaunched flight that waits for dispatch: die, number, strands. -/
structure RFlight where
  die : Nat
  num : Nat
  strands : List RStrand
deriving DecidableEq, Repr

/-- A launch committed and not completed (R25, R28, R378, R380). -/
structure Launch where
  tag : Nat
  seqNo : Nat
  order : Nat
  fn : Nat
  owner : Nat
  kid : W64
  n : Nat
  seed : W32
  cls : Nat
  parts : List Nat
  next : Nat
  nextFlight : Nat
  phase : Nat
  /-- Items of the phase, and records deposited in it. -/
  items : Nat
  deposit : Option LRegion
  recs : List RRec
  relaunch : List RFlight
  regions : List LRegion
  paramVa : Nat
  caddr : Nat
  cval : W64
  qid : Nat
  killed : Bool
  /-- Hardware queue slot of its queue as it committed (R69). -/
  qslot : Nat
  lastSweep : Nat
  /-- A sweep has saved a flight and its lowest undispatched flight goes next (R55). -/
  swept : Bool
deriving DecidableEq, Repr

/-- The kind of image that code belongs to (R148, R271). -/
inductive Image where
  | tenant | handler | engine
deriving DecidableEq, Repr

/-- A kernel admitted, or a firmware image: the fields of its header that act after admission (R313, R353). -/
structure Kernel where
  fn : Nat
  owner : Nat
  kid : W64
  image : Image
  width : Nat
  regs : Nat
  strands : Nat
  pair : Bool
  cls : Nat
  mirror : Bool
  tiles : Nat
  acls : Nat
  spad : Nat
  code : Nat
  words : Nat
  nmax : Nat
  grants : List Grant
  /-- Block offsets and types of the `.param` fields (R354). -/
  params : List (Nat × Nat)
  ldep : Nat
  reord : Bool
  /-- The lock words bound at admission: region, and offset as a polynomial in the launch symbols (R317, R329). -/
  locks : List (Nat × List (List Nat × Int))
  /-- The pages of the object as it was staged; those of its code are sealed (R137, R336). -/
  pages : List Nat
  unit : Nat
  sealedAt : Nat
  tko : Nat
  tkoBytes : Nat
deriving DecidableEq, Repr

/-! ### Cores -/

/-- A sector in a core cache (R18): its device sector number, data, whether it is dirty, and its owner tag.  `wrote` marks the
bytes that this core has written since the sector was last clean: a clean of the sector merges them into the coherent copy, so
that R120 holds for cores that write different bytes of one sector (assumption 6). -/
structure CacheSector where
  sector : Nat
  data : BitVec 1024
  dirty : Bool
  wrote : BitVec 128
  tag : Nat
deriving DecidableEq, Repr

/-- A line in a die cache or in the bonded tier (R18, R114): which of its four sectors are present and which of them are dirty,
and, in the bonded tier, the way that holds it. -/
structure HeldLine where
  line : Nat
  present : BitVec 4
  dirty : BitVec 4
  way : Nat
deriving DecidableEq, Repr

/-- Retention of a bank (R85). -/
inductive Bank where
  | live
  | entering (parked : Bool) (since : Nat) (exitAsked : Bool)
  | retained (parked : Bool)
  | leaving (parked : Bool) (since : Nat)
deriving DecidableEq, Repr

/-- A core (R15, R78, R84 to R86, R288, R352). -/
structure Core where
  rfg : Nat
  acg : Nat
  pend : Option (Nat × Nat)
  partBad : Bool
  zeroing : Option Nat
  corr : Nat
  rep : Nat
  lost : Nat
  banks : List Bank
  /-- Banks whose exit from retention a placement asked for: they stay live while one waits (assumption 3). -/
  woken : List Nat
  prken : Bool
  hzdEn : Bool
  hzdHits : Nat
  hzdLastPc : Nat
  trapq : List (W64 × W64)
  trapa : W64
  cache : List CacheSector
  relLog : List Nat
  replay : List Replay
  /-- Accesses accepted whose line is on its way from the Gondola (R349, R416). -/
  flying : List Replay
  queue : List EngInstr
  drains : List EngInstr
  /-- The clear sequence under way: the entry that issued it, `.pair`, and its end (R292). -/
  clearing : Option (EntryRef × Bool × Nat)
  /-- A clear has been asked of the handler and has not run (R407). -/
  clearAsked : Bool
  out : Bool
  /-- Corrected errors of the current patrol rotation: bank, row, count (R459). -/
  rowErrs : List (Nat × Nat × Nat)
  /-- The owner of the pair's last resident flight (R407), kept on the lower core. -/
  lastOwner : Option Nat
deriving DecidableEq, Repr

/-! ### Queue engine -/

/-- The function block QE_FN of one function (R356), with QE_REPLAY_CNT (R357). -/
structure FnBlock where
  q0base : W64 := 0
  q0lgs : Nat := 6
  q0auth : Bool := false
  q0class : Nat := 2
  q0bpri : Nat := 0
  q0ceil : Nat := 0
  q0stat : Nat := 0
  seqwin : Nat := 1000
  errbase : W64 := 0
  errcnt : Nat := 0
  fltbase : W64 := 0
  fltcnt : Nat := 0
  drop : Nat := 0
  macf : Nat := 0
  /-- Launch sequence number in force (R380). -/
  lseq : Nat := 0
  /-- Number of the next fault record (R395). -/
  recno : Nat := 0
deriving DecidableEq, Repr

/-- A queue control block (R373), with the packets of its window store. -/
structure Qcb where
  fn : Nat
  qid : Nat
  rbase : Nat
  size : Nat
  ridx : Nat
  widx : Nat
  cls : Nat
  auth : Bool
  state : Nat
  bpri : Nat
  epri : Nat
  ceil : Nat
  seq : Nat
  kgen : Nat
  wina : Nat
  /-- Packets held out of order, by sequence number (R371). -/
  held : List (Nat × List Byte)
  gapt : Nat
  infl : Nat
  slot : Option Nat
  /-- Packets whose MAC and number passed and that wait to be parsed (R371). -/
  parsed : List (List Byte)
  /-- A WAIT at the head whose condition has failed, with its deadline (R367, R369). -/
  waiting : Option (Option Nat)
  /-- The secret of the function's session at the registration, from which the ring key comes (R417). -/
  secret : Option Nat
  /-- The LAUNCH at the head found no room for its gang, or no tag, and is tried again at the next pass (R379, R380). -/
  tried : Bool
deriving DecidableEq, Repr

/-- A packet that has started and not completed (R369). -/
structure Started where
  id : Nat
  fn : Nat
  qid : Nat
  packet : List Byte
  /-- A COPY's operation; a LAUNCH's tag; an ADMIT's unit. -/
  copy : Option CopyOp
  tag : Option Nat
  unit : Option Nat
deriving DecidableEq, Repr

/-- A fault record kept by the device (R395): its function, number, whether it is open, and the context and entry it concerns. -/
structure FaultRec where
  fn : Nat
  recno : Nat
  code : Nat
  cls : Nat
  res : Bool
  isOpen : Bool
  tag : Nat
  /-- The flight and the launch index that name the entry, resident or saved (R385). -/
  flight : Nat
  item : Nat
  /-- Whether the fault concerned a context. -/
  launch : Bool
deriving DecidableEq, Repr

/-- A partition's fields, in force or in shadow (R398). -/
structure PartFields where
  pairs : Nat := 0
  fns : Nat := 0
  slots : Nat := 0
  c0slots : Nat := 0
  rfg : Nat := 12
  acg : Nat := 12
  tshare : Nat := 0
  period : Nat := 0
  refill : Nat := 0
  cap : Nat := 0
  saveb : Nat := 0
  savesz : Nat := 0
deriving DecidableEq, Repr

/-- A partition record (R398, R400). -/
structure Partition where
  cur : PartFields := {}
  shadow : PartFields := {}
  bal : Int := 0
  busy : Bool := false
  stat : Nat := 0
  /-- Pairs that leave in the application under way (R405). -/
  leaving : Nat := 0
  /-- Refills made, counted in periods of device time. -/
  charged : Nat := 0
deriving DecidableEq, Repr

/-- A region record (R399): the written fields and the state the device keeps. -/
structure Region where
  vbase : Nat := 0
  pages : Nat := 0
  owner : Nat := 0
  attr : Nat := 0
  rd : Bool := false
  wr : Bool := false
  big : Bool := false
  spool : Bool := false
  hostv : Bool := false
  fns : Nat := 0
  busy : Bool := false
  stat : Nat := 0
  live : Bool := false
deriving DecidableEq, Repr

/-- A unit of the Arbiter (R336): the admission under way. -/
structure Admission where
  fn : Nat
  qid : Nat
  packet : List Byte
  started : Nat
  /-- TIME at which the walk has ended: the unit checks two instructions a clock (R323). -/
  doneAt : Nat
  pages : List Nat
  id : Nat
deriving DecidableEq, Repr

/-- A run of sectors under one owner tag (R112); the latest run that holds a sector counts. -/
structure TagRun where
  first : Nat
  count : Nat
  tag : Nat
deriving DecidableEq, Repr

/-- A line whose only copy is in the Gondola, as it is stored there (R410, R411). -/
structure OffLine where
  line : Nat
  attr : Nat
  owner : Nat
  stored : BitVec 4096
  mac : W64
deriving DecidableEq, Repr

/-- The counter entry of a 4 KiB group (R414). -/
structure Group where
  group : Nat
  major : Nat
  minors : List Nat
  poison : List Bool
  /-- The entry holds an uncorrectable error (R416). -/
  bad : Bool
deriving DecidableEq, Repr

/-! ### Security, tethers, fleet -/

/-- A key slot (R417, R418). -/
structure KeySlot where
  /-- The secret that KEY_LOAD stored. -/
  secret : List Byte
  loaded : Bool
  epoch : Nat
  /-- The draw that gave the secret of owner 0 or 15. -/
  drawn : Option Nat
deriving DecidableEq, Repr

/-- A slot that is empty. -/
def KeySlot.empty : KeySlot := ⟨[], false, 0, none⟩

/-- An SPDM session (R423, R425): bound to a function, or to owner 0 over the side-band port. -/
structure Session where
  id : Nat
  fn : Nat
  secret : Nat
deriving DecidableEq, Repr

/-- A TDI's state (R421). -/
inductive Tdi where
  | unlocked | locked | run | error
deriving DecidableEq, Repr

/-- The link of a fibre pair (R439 to R441). -/
structure Link_ where
  state : Nat := 1
  spare : Nat := 0
  rtcnt : Nat := 0
  fltf : Nat := 0
  last : Nat := 0
  /-- TIME at which the retraining under way began. -/
  since : Option Nat := none
  stalled : Bool := false
  /-- Slots of the pair gone by (R435). -/
  sent : Nat := 0
deriving DecidableEq, Repr

/-- A request of a tether pair: its share, class, kind (1 read, 2 write, 3 a peer's chunk), line, and when its answer is due. -/
structure TReq where
  id : Nat
  pair : Nat
  share : Nat
  cls : Nat
  kind : Nat
  line : Nat
  sector : Nat
  fn : Nat
  /-- The slot in which it joined its queue. -/
  asked : Nat
  /-- Flits still to send: one a slot, each with one sector (R431, R435). -/
  left : Nat
  /-- The slot of its last flit. -/
  sentSlot : Option Nat
  /-- The slot in which its answer arrived (R436). -/
  answered : Option Nat
  /-- The owner in whose ways its line goes, and the die that asked (R114). -/
  owner : Nat
  die : Nat
  /-- Prefetches that the line completes: level, core and sector (R223). -/
  pref : List (Nat × Nat × Nat)
  /-- The operation and the destination of a peer's chunk (R444). -/
  chunk : Option (Nat × Nat)
deriving DecidableEq, Repr

/-- A slot-table entry (R433). -/
structure SlotEnt where
  share : Nat
  cls : Nat
deriving DecidableEq, Repr

/-- A peer port (R442). -/
structure Port where
  state : Nat := 1
  sess : Bool := false
  peerId : W32 := 0
deriving DecidableEq, Repr

/-- An import window, an export entry and a collective table entry of a function (R444 to R446), as written. -/
structure Import where
  v : Bool := false
  rights : Nat := 0
  ports : Nat := 0
  rfn : Nat := 0
  exp : Nat := 0
  size : Nat := 0
deriving DecidableEq, Repr

structure Export where
  v : Bool := false
  rights : Nat := 0
  rfn : Nat := 0
  peerId : W32 := 0
  base : W64 := 0
  size : Nat := 0
deriving DecidableEq, Repr

structure CollEnt where
  ident : W32 := 0
  v : Bool := false
  p : Nat := 0
  rank : Nat := 0
  nport : Nat := 0
  pport : Nat := 0
  nfn : Nat := 0
  pfn : Nat := 0
deriving DecidableEq, Repr

/-- A unit of the patrol (R452, R456): start of its last clean pass, owners that used it since, and service. -/
structure PatUnit where
  clean : Nat := 0
  owners : Nat := 0
  out : Bool := false
  /-- Columns swapped so far, for a column group's core. -/
  swapped : Nat := 0
deriving DecidableEq, Repr

/-- An entry of the patrol's failure log (R458). -/
structure PatLog where
  unit : Nat
  col : Nat
  act : Nat
  owners : Nat
  wstart : Nat
  wend : Nat
deriving DecidableEq, Repr

/-- The last answer the module gave outside: 0 management port, 1 SPDM, 2 host DMA, 3 peer, 4 PCIe register read. -/
structure Reply where
  dest : Nat
  status : Nat
  data : List Byte
deriving DecidableEq, Repr

/-- A request from outside that waits for a page in move (R111 row 1, R404, R445): a host DMA or a peer's chunk. -/
inductive Outside where
  | host (fn addr : Nat) (write : Bool) (len : Nat) (data : List Byte)
  | peer (port fn exp rfn : Nat) (write : Bool) (offset len : Nat) (data : List Byte)
deriving DecidableEq, Repr

/-- The spare map of R460. -/
structure Spares where
  cspr : Nat := 0
  cout : Nat := 0
  cols : Nat := 0
  mfib : Nat := 0
  pfib : Nat := 0
  wave : Nat := 0
  rows : Nat := 0
  rowf : Nat := 0
  gch : Nat := 0
  aout : Nat := 0
deriving DecidableEq, Repr

/-- MGMT_SPCORE of a logical core (R460). -/
structure SpCore where
  phys : Nat := 0
  sub : Bool := false
  out : Bool := false
  scol : Nat := 0
  cola : Nat := 0
  colb : Nat := 0
  prows : Nat := 0
deriving DecidableEq, Repr

/-- What the step takes next from outside the rules that fix it (assumption 3). -/
inductive Choice where
  /-- A step of the opcode table. -/
  | event (i : Instr)
  /-- A column of a core issues (R30). -/
  | issue (core column : Nat)
  /-- Clocks pass. -/
  | elapse (n : Nat)
  /-- A core cache evicts a sector, cleaning it first when it is dirty (R18, R113). -/
  | evict (core sector : Nat)
  /-- A stored register word is damaged beyond correction (R59, R61, R83). -/
  | damage (e : EntryRef) (w : BadWord)
  /-- An 8-byte word of a flight's scratchpad (kind 0) or a tile (kind 1) is damaged beyond correction (R59, R260). -/
  | spoil (flight kind index : Nat)
  /-- A single-bit error is corrected (R83, R84). -/
  | corrected (core bank row : Nat)
  /-- Someone outside the package rewrites a stored line (R410, R416). -/
  | tamper (line : Nat) (stored : BitVec 4096) (mac : W64)
  /-- The Gondola can no longer correct a sector (R437). -/
  | poison (sector : Nat)
  /-- An uncorrectable error in a counter entry (R416). -/
  | counterError (group : Nat)
  /-- An uncorrectable error in state that a partition shares, or that the whole device shares (R394, classes 4 and 5). -/
  | sharedError (part : Option Nat)
deriving DecidableEq, Repr

end Sys2Proof.Machine
end

