-- ==== Sys2Proof/Machine/Boot.lean ====
section
/-!
DEFINITION. Strands, flights, launches and kernels with nothing in them, and the trap handler as boot seats it on every core
(R24, R271, R288; assumption 10).
-/
namespace Sys2Proof.Machine

/-- A strand of `width` items at `pc`, with every register, predicate and counter 0 and no level open (R33, R69, R72). -/
def Entry.blank (width pc : Nat) : Entry where
  pos := 0
  start := 0
  len := width
  wstart := 0
  width := width
  snum := 0
  pc := pc
  status := .ready
  retired := 0
  regs := List.replicate 128 (.uni 0)
  xregs := List.replicate 8 (.uni 0)
  preds := List.replicate 7 (.uni false)
  scalars := List.replicate 64 0
  levels := []
  mask := List.replicate width true
  dead := List.replicate width false
  ended := List.replicate width false
  xflag := false
  gen := 1
  modctx := none
  counts := [0, 0, 0, 0]
  seq := 0
  stats := []
  chain := {}
  streams := [none, none, none, none]
  ops := []
  order := 0
  window := []
  bad := []
  dsts := []

/-- A flight of one strand on a core that holds nothing of the pool. -/
def Flight.blank (id tag core : Nat) : Flight where
  id := id
  tag := tag
  num := 0
  phase := 0
  first := 0
  last := 15
  core := core
  pair := false
  state := .resident
  saved := []
  savedReplay := []
  saveArea := 0
  placing := none
  part := 16
  lmax := 0
  alloc := []
  mirrored := false
  spadSize := 0
  spad := []
  tiles := []
  gang := []
  gangE := 31
  latch := none
  released := []
  fmt := none
  maps := List.replicate 8 0
  bars := []
  parkedSince := none
  spoiled := []
  savedDrains := []

/-- A launch of 16 items of a kernel, all dispatched, with no parameter block, grant or completion record. -/
def Launch.blank (tag fn owner : Nat) (kid : W64) : Launch where
  tag := tag
  seqNo := 0
  order := 0
  fn := fn
  owner := owner
  kid := kid
  n := 16
  seed := 1
  cls := 2
  parts := []
  next := 16
  nextFlight := 1
  phase := 0
  items := 16
  deposit := none
  recs := []
  relaunch := []
  regions := []
  paramVa := 0
  caddr := 0
  cval := 0
  qid := 0
  killed := false
  qslot := 0
  lastSweep := 0
  swept := false

/-- A kernel of one strand of 16 items and 128 registers whose code of 16,384 words begins at an address. -/
def Kernel.blank (fn owner : Nat) (kid : W64) (image : Image) (code : Nat) : Kernel where
  fn := fn
  owner := owner
  kid := kid
  image := image
  width := 16
  regs := 128
  strands := 1
  pair := false
  cls := 2
  mirror := false
  tiles := 0
  acls := 0
  spad := 0
  code := code
  words := 16384
  nmax := 16
  grants := []
  params := []
  ldep := 0xFFFF
  reord := false
  locks := []
  pages := []
  unit := 0
  sealedAt := 0
  tko := 0
  tkoBytes := 0

/-! ### The trap handler (R24, R271, R288) -/

/-- The kernel identifier under which the model holds the handler's image. -/
def handlerKid : W64 := 0xFFFFFFFFFFFFFFFF

/-- The handler's image (R271): what it holds is the firmware's, which the spec does not give. -/
def handlerKernel : Kernel := Kernel.blank 0 0 handlerKid .handler Config.firmware

/-- Tags from here on are those of the handlers' own contexts, one for each core: above every launch tag and every tag of a killed
launch. -/
def handlerTags : Nat := 2 ^ 64

/-- The handler's context on a core. -/
def handlerLaunch (core : Nat) : Launch := { Launch.blank (handlerTags + core) 0 0 handlerKid with cls := 0 }

/-- The handler's flight on a core, which is numbered as its core. -/
def handlerFlight (core : Nat) : Flight := Flight.blank core (handlerTags + core) core

/-- The handler's strand in slot 128 of a core: it has read TRAPQ and waits for an activation (R288). -/
def handlerSlot (core : Nat) : Slot :=
  ⟨core, 128, core, 0, [{ Entry.blank 16 Config.firmware with status := .held .trapq }]⟩

end Sys2Proof.Machine
end

