-- ==== Sys2Proof/Machine/State.lean ====
section
/-!
DEFINITION. The state of the machine, the reasons a step can stop, and the state after reset.

Every piece of state that the spec names is a field here or in a part of Machine/Parts.lean; INVENTORY.md lists each with
its rule.  `cur`, `agenda`, `draws`, `nextId`, `turns` and `ttNext`, and a core's `woken`, are the model's own (assumption 3,
assumption 15).
-/
namespace Sys2Proof.Machine

/-- The die caches, the bonded tier, the Gondola's stored lines and the counter store (R18, R114, R410, R414, R437). -/
structure Tier where
  /-- Lines of the four die caches, the most recently used first. -/
  dies : List (List HeldLine)
  /-- Lines of the bonded tier, the most recently used first. -/
  lines : List HeldLine
  /-- Bandwidth accounts of owners 0 to 15, in sectors (R114, R223). -/
  band : List Nat
  /-- Lines as the Gondola stores them; a line not listed stores zeros in order (assumption 7). -/
  offpkg : List OffLine
  groups : List Group
  poisoned : List Nat
deriving DecidableEq, Repr

/-- The queue engine, its function blocks, the fault rings and the Arbiter units (R336, R356, R373, R395). -/
structure QueueEngine where
  fns : List FnBlock
  qcbs : List Qcb
  /-- The doorbell words of the queue engine's strands (R358, R376). -/
  bells : List W64
  psum : Nat
  lseed : W32
  /-- The slots that the parse round under way has served (R377). -/
  round : List Nat
  /-- TIME of the last pass of each partition's slots, and of those that no partition holds (R375). -/
  passAt : List Nat
  started : List Started
  faults : List FaultRec
  units : List (Option Admission)
deriving DecidableEq, Repr

/-- Partitions, protection and regions (R397 to R399). -/
structure Oper where
  parts : List Partition
  prot : Nat
  waym : List Nat
  vfrst : Nat
  regions : List Region
deriving DecidableEq, Repr

/-- The security block and the management core's trust state (R413, R417 to R427). -/
structure Sec where
  /-- SEC_IWIN (R413). -/
  iwin : Nat
  iwinEn : Bool
  iwinBad : Bool
  macw : Nat
  keys : List KeySlot
  /-- Which draw of the random generator gave the boot salt (R417). -/
  salt : Nat
  integ : Nat
  life : Nat
  unlk : Nat
  dbgState : Nat
  dbgScope : Nat
  nonce : Option (List Byte)
  sessions : List Session
  tdis : List Tdi
  ide : List (Option (List Byte))
  /-- The measurement logs M of owners 0 to 15 (R337, R424). -/
  mlogs : List (List Byte)
deriving DecidableEq, Repr

/-- Tethers, peers and collectives (R432 to R448, R469). -/
structure Thx where
  slotCtr : Nat
  mst : List SlotEnt
  mstShadow : List SlotEnt
  pst : List (List SlotEnt)
  pstShadow : List (List SlotEnt)
  tapSel : Nat
  tapBusy : Bool
  tapStat : Nat
  tapFrame : Nat
  /-- The frame number at which the application under way takes effect (R434). -/
  tapDue : Nat
  links : List Link_
  reqs : List TReq
  ports : List Port
  imports : List (List Import)
  exports_ : List (List Export)
  colls : List (List CollEnt)
  /-- Uses counted of each collective: function, identifier, count (R448). -/
  collUses : List (Nat × W32 × Nat)
deriving DecidableEq, Repr

/-- Patrol, spares, features, power, telemetry and the side-band port (R452 to R467). -/
structure Fleet where
  patW : Nat
  fepoch : Nat
  patNext : Nat
  patForced : Nat
  patFails : Nat
  patLog : List PatLog
  patUnits : List PatUnit
  /-- The unit under test and the TIME its test began (R452). -/
  patTest : Option (Nat × Nat)
  /-- A failed unit whose core waits for its flights to be saved before a spare takes its number, and the failing columns (R456). -/
  patSwap : Option (Nat × List Nat)
  /-- Clocks spent on deferrals in the rotation under way (R454). -/
  patDefer : Nat
  /-- TIME of the last step or retry of the patrol. -/
  patLast : Nat
  /-- The unit of the next step is put off (R454). -/
  patWait : Bool
  spares : Spares
  spcore : List SpCore
  foffer : Nat
  faccept : Nat
  flocked : Bool
  fstat : Nat
  /-- The feature word in force (R461). -/
  features : Nat
  /-- An ADMIT has started since device reset (R461). -/
  admitted : Bool
  plim : Nat
  pnow : Nat
  thr : Nat
  c0over : Bool
  tmax : Nat
  tgmax : Nat
  c0kmax : Nat
  c0gmax : Nat
  rtmax : Nat
  c0exc : Nat
  /-- The side-band bus answers over SMBus (R467). -/
  smbus : Bool
  reply : Option Reply
  /-- Requests from outside that wait for a page in move (R111, R404). -/
  outside : List Outside
  d3 : Bool
deriving DecidableEq, Repr

/-- The state of the machine. -/
structure State where
  /-- TIME: clocks since device reset (R287). -/
  clock : Nat
  /-- The model's own: the entry that an instruction acts for. -/
  cur : EntryRef
  /-- The model's own: what comes next where no rule of the spec fixes the order. -/
  agenda : List Choice
  /-- The model's own: how many free values have been drawn. -/
  draws : Nat
  /-- The model's own: the next fresh name of a cut, an operation, a flight or a packet. -/
  nextId : Nat
  /-- The model's own: issues since the device was last given a turn (assumption 3). -/
  turns : Nat
  /-- The model's own: bytes of translation tables taken so far below the root. -/
  ttNext : Nat
  slots : List Slot
  flights : List Flight
  /-- Flights that are over, whose tiles and scratchpad still stand in the pool: nothing has taken or zeroed their bytes since
  (R79, R85, R310). -/
  remains : List Flight
  launches : List Launch
  kernels : List Kernel
  cores : List Core
  /-- Coherent memory by physical byte address (R19, R109), in canonical form: addresses rising, no byte that is 0. -/
  mem : List Host.Cell
  tags : List TagRun
  tier : Tier
  queue : QueueEngine
  oper : Oper
  sec : Sec
  thx : Thx
  fleet : Fleet
deriving DecidableEq, Repr

/-- Why a step stops with a fault of the model.  The spec's own faults are next states (R396). -/
inductive Fault where
  /-- Raised by an instruction's meaning when `cur` names no ready entry with its slot, flight, launch and kernel: no
  such instruction can issue (R30).  Safe: the machine does nothing where the hardware would have nothing to issue. -/
  | noEntry
deriving DecidableEq, Repr

/-- Why a step is refused. -/
inductive Refusal where
  /-- Raised by Dispatch for a row without a meaning.  Safe: nothing can be proved about such a row. -/
  | notModelled (mnemonic : String)
deriving DecidableEq, Repr

/-- A core after device reset (R78, R84, R86, R288, R352). -/
def Core.reset : Core where
  rfg := 12
  acg := 12
  pend := none
  partBad := false
  zeroing := none
  corr := 0
  rep := 0
  lost := 0
  banks := List.replicate 48 .live
  woken := []
  prken := true
  hzdEn := false
  hzdHits := 0
  hzdLastPc := 0
  trapq := []
  trapa := 0
  cache := []
  relLog := []
  replay := []
  flying := []
  queue := []
  drains := []
  clearing := none
  clearAsked := false
  out := false
  rowErrs := []
  lastOwner := none

/-- Reset values of `Tier`. -/
def Tier.reset : Tier where
  dies := List.replicate 4 []
  lines := []
  band := List.replicate 16 0
  offpkg := []
  groups := []
  poisoned := []

/-- Reset values of `QueueEngine`. -/
def QueueEngine.reset : QueueEngine where
  fns := List.replicate 15 {}
  qcbs := []
  bells := List.replicate 4 0
  psum := 0
  lseed := 0
  round := []
  passAt := List.replicate 17 0
  started := []
  faults := []
  units := List.replicate 4 none

/-- Reset values of `Oper`. -/
def Oper.reset : Oper where
  parts := List.replicate 16 {}
  prot := 0
  waym := 0xFFFF :: List.replicate 15 0
  vfrst := 0
  regions := List.replicate 512 {}

/-- Reset values of `Sec`. -/
def Sec.reset : Sec where
  iwin := 0
  iwinEn := false
  iwinBad := false
  macw := 0
  keys := ⟨[], true, 0, some 1⟩ :: List.replicate 14 .empty ++ [⟨[], true, 0, some 2⟩]
  salt := 0
  integ := 0
  life := 2
  unlk := 0
  dbgState := 0
  dbgScope := 0
  nonce := none
  sessions := []
  tdis := List.replicate 15 .unlocked
  ide := List.replicate 15 none
  mlogs := List.replicate 16 (List.replicate 64 0)

/-- Reset values of `Thx`. -/
def Thx.reset : Thx where
  slotCtr := 0
  mst := List.replicate 256 ⟨0xFE, 0⟩
  mstShadow := List.replicate 256 ⟨0xFF, 0⟩
  pst := List.replicate 4 (List.replicate 256 ⟨0xFE, 0⟩)
  pstShadow := List.replicate 4 (List.replicate 256 ⟨0xFF, 0⟩)
  tapSel := 0
  tapBusy := false
  tapStat := 0
  tapFrame := 0
  tapDue := 0
  links := List.replicate 80 {}
  reqs := []
  ports := List.replicate 4 {}
  imports := List.replicate 15 (List.replicate 16 {})
  exports_ := List.replicate 15 (List.replicate 16 {})
  colls := List.replicate 15 (List.replicate 16 {})
  collUses := []

/-- Reset values of `Fleet`; the fused ones are the model's (assumption 2). -/
def Fleet.reset : Fleet where
  patW := 0
  fepoch := 0
  patNext := 0
  patForced := 0
  patFails := 0
  patLog := List.replicate 16 ⟨0, 0, 0, 0, 0, 0⟩
  patUnits := List.replicate 868 {}
  patTest := none
  patSwap := none
  patDefer := 0
  patLast := 0
  patWait := false
  spares := { rowf := 4608 }
  spcore := (List.range 96).map fun c => { phys := c % 24 }
  foffer := 0xFF
  faccept := 0
  flocked := false
  fstat := 0
  features := 0
  admitted := false
  plim := 2200
  pnow := 0
  thr := 0
  c0over := false
  tmax := 0
  tgmax := 0
  c0kmax := 0
  c0gmax := 0
  rtmax := 0
  c0exc := 0
  smbus := false
  reply := none
  outside := []
  d3 := false

/-- The machine right after device reset: the trap handler stands in its own slot of every core (R288), and nothing else is
resident. -/
def State.reset : State where
  clock := 0
  cur := ⟨0, 0, 0⟩
  agenda := []
  draws := 3
  nextId := 96
  turns := 0
  ttNext := 0
  slots := (List.range 96).map handlerSlot
  flights := (List.range 96).map handlerFlight
  remains := []
  launches := (List.range 96).map handlerLaunch
  kernels := [handlerKernel]
  cores := List.replicate 96 Core.reset
  mem := []
  tags := []
  tier := Tier.reset
  queue := QueueEngine.reset
  oper := Oper.reset
  sec := Sec.reset
  thx := Thx.reset
  fleet := Fleet.reset

end Sys2Proof.Machine
end

