-- ==== Sys2Proof/Machine/Mem.lean ====
section
/-!
DEFINITION. Memory in canonical form, owner tags, the translation walk and the checks made on each access (spec/05, spec/17).
-/
namespace Sys2Proof.Machine

/-! ### Bytes -/

/-- The natural number that little-endian bytes hold (R3). -/
def leNat : List Byte → Nat
  | [] => 0
  | b :: bs => b.toNat + 256 * leNat bs

/-- The low `k` bytes of a number, little-endian (R3). -/
def leBytes : Nat → Nat → List Byte
  | 0, _ => []
  | k + 1, n => BitVec.ofNat 8 n :: leBytes k (n / 256)

/-- Bits [lo + w - 1 : lo] of a number. -/
def bits (n lo w : Nat) : Nat := n / 2 ^ lo % 2 ^ w

/-- A number with bits [lo + w - 1 : lo] replaced. -/
def setBits (n lo w v : Nat) : Nat := n - bits n lo w * 2 ^ lo + v % 2 ^ w * 2 ^ lo

/-! ### Memory: pairs of address and byte, addresses rising, no byte that is 0 (assumption 1) -/

/-- The byte at an address; an unlisted address reads 0. -/
def Memory.read : List Host.Cell → Nat → Byte
  | [], _ => 0
  | c :: m, a => if a = c.1 then c.2 else if a < c.1 then 0 else Memory.read m a

/-- Puts a cell in front unless its byte is what an unlisted address reads as. -/
def Memory.put (a : Nat) (b : Byte) (m : List Host.Cell) : List Host.Cell := if b = 0 then m else (a, b) :: m

/-- Writes one byte and keeps the canonical form. -/
def Memory.write : List Host.Cell → Nat → Byte → List Host.Cell
  | [], a, b => Memory.put a b []
  | c :: m, a, b =>
    if a < c.1 then Memory.put a b (c :: m)
    else if a = c.1 then Memory.put a b m
    else c :: Memory.write m a b

/-- Reads `n` bytes from an address upward. -/
def Memory.readN (m : List Host.Cell) : Nat → Nat → List Byte
  | _, 0 => []
  | a, n + 1 => Memory.read m a :: Memory.readN m (a + 1) n

/-- Writes bytes from an address upward. -/
def Memory.writeN (m : List Host.Cell) : Nat → List Byte → List Host.Cell
  | _, [] => m
  | a, b :: bs => Memory.writeN (Memory.write m a b) (a + 1) bs

/-- Zeroes `n` bytes from an address upward. -/
def Memory.clear (m : List Host.Cell) (a n : Nat) : List Host.Cell :=
  m.filter fun c => c.1 < a || a + n ≤ c.1

/-- Every cell lies above `lo`, addresses rise, and no byte is 0. -/
def Memory.above : Nat → List Host.Cell → Bool
  | _, [] => true
  | lo, c :: m => decide (lo ≤ c.1) && c.2 != 0 && Memory.above (c.1 + 1) m

/-- The canonical form of memory. -/
def Memory.wf (m : List Host.Cell) : Bool := Memory.above 0 m

/-! ### Physical memory, tags and lines -/

def State.peek (s : State) (pa n : Nat) : List Byte := Memory.readN s.mem pa n
def State.poke (s : State) (pa : Nat) (bs : List Byte) : State := { s with mem := Memory.writeN s.mem pa bs }
/-- The little-endian number of `n` bytes at a physical address. -/
def State.peekN (s : State) (pa n : Nat) : Nat := leNat (s.peek pa n)
def State.pokeN (s : State) (pa n v : Nat) : State := s.poke pa (leBytes n v)

/-- The owner tag of a sector (R112). -/
def tagOf : List TagRun → Nat → Nat
  | [], _ => 0
  | r :: rs, n => if r.first ≤ n ∧ n < r.first + r.count then r.tag else tagOf rs n

/-- Gives a run of sectors a tag (R112). -/
def State.setTags (s : State) (first count tag : Nat) : State :=
  { s with tags := ⟨first, count, tag⟩ :: s.tags.filter fun r => !(decide (first ≤ r.first) && decide (r.first + r.count ≤ first + count)) }

/-- The attribute-table entry of a frame: ATTR [1:0], INIT [2], HOSTV [3] (R412).  The frames of the device reserve have ATTR 01, INIT
1 and HOSTV 0 from boot on (R361). -/
def State.fat (s : State) (frame : Nat) : Nat :=
  let b := (Memory.read s.mem (Config.fatBase + frame / 2)).toNat
  if Config.reserve ≤ 65536 * frame then 5 else if frame % 2 = 0 then b % 16 else b / 16

def State.setFat (s : State) (frame v : Nat) : State :=
  let a := Config.fatBase + frame / 2
  let b := (Memory.read s.mem a).toNat
  let b' := if frame % 2 = 0 then b / 16 * 16 + v % 16 else b % 16 + 16 * (v % 16)
  { s with mem := Memory.write s.mem a (BitVec.ofNat 8 b') }

/-- The stored form of a line whose only copy is in the Gondola (R410). -/
def State.away (s : State) (line : Nat) : Option OffLine := s.tier.offpkg.find? fun l => l.line = line

/-! ### Translation (R109, R110, R402, R403) -/

/-- A leaf entry of the translation table (R109), with the address it was read from. -/
structure Leaf where
  prot : Nat
  owner : Nat
  isSealed : Bool
  rd : Bool
  wr : Bool
  move : Bool
  frame : Nat
  big : Bool
  addr : Nat
deriving DecidableEq, Repr

/-- What a walk finds: an entry that is not valid (with its MOVE bit), an entry that is TRANS_BAD, or a leaf. -/
inductive Walk where
  | invalid (move : Bool) (addr : Nat)
  | bad (addr : Nat)
  | leaf (l : Leaf)
deriving DecidableEq, Repr

/-- Reads a leaf word (R109) and applies R110; `big` says that the level takes 2 MiB leaves. -/
def leafOf (w addr : Nat) (big : Bool) : Walk :=
  if bits w 0 1 = 0 then .invalid (bits w 11 1 = 1) addr
  else if bits w 12 4 ≠ 0 ∨ bits w 42 22 ≠ 0 ∨ bits w 2 2 = 3 ∨ (bits w 8 1 = 1 ∧ bits w 10 1 = 1) ∨
      (bits w 1 1 = 1 ∧ (bits w 16 26 % 32 ≠ 0 ∨ !big)) ∨ Config.frameCount ≤ bits w 16 26 then .bad addr
  else .leaf ⟨bits w 2 2, bits w 4 4, bits w 8 1 = 1, bits w 9 1 = 1, bits w 10 1 = 1, bits w 11 1 = 1,
    bits w 16 26, bits w 1 1 = 1, addr⟩

/-- The address of the next table a table entry names, none where the entry is not valid, or TRANS_BAD (R402). -/
def tableOf (w addr : Nat) : Except Walk Nat :=
  if bits w 0 1 = 0 then .error (.invalid false addr)
  else if bits w 1 11 ≠ 0 then .error (.bad addr)
  else .ok (bits w 12 52 * 4096)

/-- The four-level walk (R402).  An address of 2^52 or above has no entry (R443, row 2 of R111). -/
def State.walk (s : State) (va : Nat) : Walk :=
  if 2 ^ 52 ≤ va then .invalid false 0 else
  let a1 := Config.ttRoot + 8 * bits va 39 13
  match tableOf (s.peekN a1 8) a1 with
  | .error e => e
  | .ok t2 =>
    let a2 := t2 + 8 * bits va 30 9
    match tableOf (s.peekN a2 8) a2 with
    | .error e => e
    | .ok t3 =>
      let a3 := t3 + 8 * bits va 21 9
      let w3 := s.peekN a3 8
      if bits w3 0 1 = 0 ∨ bits w3 1 1 = 1 then leafOf w3 a3 true
      else match tableOf w3 a3 with
        | .error e => e
        | .ok t4 =>
          let a4 := t4 + 8 * bits va 16 5
          leafOf (s.peekN a4 8) a4 false

/-- The valid forwarding entry of a frame, if any (R403): its address. -/
def State.fwdEntry (s : State) (frame : Nat) : Nat → Option Nat
  | 0 => none
  | k + 1 =>
    let a := Config.fwdBase + 128 * k
    let w := s.peekN a 8
    if bits w 63 1 = 1 ∧ bits w 0 26 = frame then some a else s.fwdEntry frame k

/-- The physical address that a leaf gives a device address, through the forwarding table while the page moves (R403). -/
def State.frameAddr (s : State) (l : Leaf) (va : Nat) : Nat :=
  let frame := if l.big then l.frame + bits va 16 5 else l.frame
  let old := frame * 65536 + va % 65536
  if l.move then
    match s.fwdEntry frame 4096 with
    | some a =>
      if (s.peekN (a + 64) 64) / 2 ^ (va % 65536 / 128) % 2 = 1 then bits (s.peekN a 8) 32 26 * 65536 + va % 65536 else old
    | none => old
  else old

/-! ### The checks of R111 -/

/-- What an access does (row 6 of R111).  `.pool` is SAVE or REST at a save record: the pages of a save pool carry neither RD
nor WR (R399), so row 6 does not apply (assumption 14). -/
inductive AccKind where
  | load | store | atomic | drain | fetch
  | pool (write : Bool)
deriving DecidableEq, Repr

def AccKind.writes : AccKind → Bool
  | .load | .fetch => false
  | .pool w => w
  | _ => true

/-- Who asks: the owner tag, the function, the tether share and class of its requests (R435), and whether the agent is one
of owner 0 that skips the owner checks. -/
structure Agent where
  owner : Nat
  fn : Nat
  share : Nat := 0xFE
  cls : Nat := 0
  /-- The die whose cache its accesses go through: its core's, and die 0 for an agent on no core (assumption 7). -/
  die : Nat := 0
deriving DecidableEq, Repr

/-- A fault that an access meets: code of R396, row of R111, cause, hardware error and address. -/
structure AccFault where
  code : Nat
  row : Nat
  cause : Nat := 0
  hwe : Bool := false
  addr : Nat
deriving DecidableEq, Repr

/-- The outcome of the checks on an access. -/
inductive Acc where
  /-- Served from these pieces: physical address and bytes, in order. -/
  | ok (pieces : List (Nat × Nat))
  /-- Parks with a cause (R392), at an address, on a tether pair when a tether parks it. -/
  | park (cause addr : Nat) (pair : Option Nat)
  | fault (f : AccFault)
  /-- The line must first be filled from the Gondola (R416). -/
  | wait (line : Nat)
  /-- The Gondola cannot correct the sector read (R437). -/
  | poisoned (addr : Nat)
deriving DecidableEq, Repr

/-- The live region that holds an address (R399). -/
def State.regionAt (s : State) (va : Nat) : Option Region :=
  s.oper.regions.find? fun r => r.live && decide (r.vbase ≤ va) && decide (va < r.vbase + 65536 * r.pages)

/-- Whether a tag-15 region at the address is granted to the function (row 4 of R111). -/
def State.sharedWith (s : State) (va fn : Nat) : Bool :=
  match s.regionAt va with
  | some r => bits r.fns fn 1 = 1
  | none => false

/-- Rows 1 to 6 of R111 for one sector; the physical address reached. -/
def State.checkPage (s : State) (g : Agent) (k : AccKind) (va : Nat) : Except Acc (Leaf × Nat) :=
  match s.walk va with
  | .invalid true _ => .error (.park 2 va none)
  | .invalid false _ => .error (.fault ⟨7, 2, 0, false, va⟩)
  | .bad a => .error (.fault ⟨8, 3, 0, false, a⟩)
  | .leaf l =>
    let pa := s.frameAddr l va
    let foreign := decide (g.owner ≠ 0) &&
      (decide (l.owner ≠ g.owner ∧ l.owner ≠ 15) || (decide (l.owner = 15) && !s.sharedWith va g.fn))
    if foreign then
      .error (if l.move then .park 2 va none else .fault ⟨9, 4, 0, false, va⟩)
    else if l.prot ≠ s.fat (pa / 65536) % 4 then .error (.fault ⟨10, 5, 0, false, va⟩)
    else if (match k with
        | .fetch => !l.isSealed
        | .load => !l.rd
        | .pool _ => false
        | _ => !l.wr || l.isSealed) then .error (.fault ⟨11, 6, 0, false, va⟩)
    else .ok (l, pa)

/-- The tether pair of a line (R435). -/
def pairOf (line : Nat) : Nat := line % 64

/-- Whether a share holds a position in the memory table in force (R435). -/
def State.hasSlot (s : State) (share : Nat) : Bool := s.thx.mst.any fun e => decide (e.share = share)

/-- Whether a list of lines holds a sector. -/
def holds (ls : List HeldLine) (sector : Nat) : Bool :=
  ls.any fun h => decide (h.line = sector / 4) && h.present.getLsbD (sector % 4)

/-- A sector is on the package (R18): in a die cache, in the bonded tier, or in the device reserve, which the model keeps there
(assumption 7). -/
def State.onPkg (s : State) (sector : Nat) : Bool :=
  decide (Config.reserve ≤ sector * 128) || holds s.tier.lines sector || s.tier.dies.any fun d => holds d sector

/-- What the tethers say of a sector that is in the Gondola alone: park, wait for a fill, or poison (R392, R435, R437, R439). -/
def State.tetherCheck (s : State) (g : Agent) (va pa : Nat) : Option Acc :=
  let p := pairOf (pa / 512)
  if s.tier.poisoned.contains (pa / 128) then some (.poisoned va)
  else if s.onPkg (pa / 128) then none
  else if (s.thx.links.getD p {}).state ≠ 0 then some (.park 1 va (some p))
  else if !s.hasSlot g.share then some (.park 4 va (some p))
  else some (.wait (pa / 512))

/-- The start addresses of the sectors that bytes [va, va + len) touch, each with the bytes touched in it. -/
def sectorsOf (va len : Nat) : List (Nat × Nat) :=
  if len = 0 then [] else
  let n := (va + len - 1) / 128 - va / 128 + 1
  (List.range n).map fun i =>
    let lo := if i = 0 then va else (va / 128 + i) * 128
    let hi := min (va + len) ((va / 128 + i + 1) * 128)
    (lo, hi - lo)

/-- Rows 1 to 6 over a list of sectors, giving the physical pieces and the leaf owners.  The rule does not say in which order an
access of several sectors is decided: the rows are decided for one sector after another (assumption 38). -/
def State.checkPages (s : State) (g : Agent) (k : AccKind) : List (Nat × Nat) → Except Acc (List (Nat × Nat × Nat × Nat))
  | [] => .ok []
  | (va, n) :: rest =>
    match s.checkPage g k va with
    | .error e => .error e
    | .ok (l, pa) =>
      match s.checkPages g k rest with
      | .error e => .error e
      | .ok ps => .ok ((va, pa, n, l.owner) :: ps)

/-- The sector of a core cache (R18). -/
def Core.hit (c : Core) (sector : Nat) : Option CacheSector := c.cache.find? fun x => x.sector = sector

/-- Row 8 of R111 and the tethers, for the pieces of an access.  A sector held by core `core`'s cache is served there.  The rule
does not say which of rows 2 to 8 a record calls a hardware error: the model calls row 8 one, and no other (assumption 19). -/
def State.checkTags (s : State) (g : Agent) (core : Option Nat) : List (Nat × Nat × Nat × Nat) → Option Acc
  | [] => none
  | (va, pa, _, owner) :: rest =>
    let cached := core.bind fun c => (s.cores[c]?).bind fun x => x.hit (pa / 128)
    let tag := match cached with
      | some x => x.tag
      | none => tagOf s.tags (pa / 128)
    if g.owner ≠ 0 ∧ tag ≠ owner then some (.fault ⟨9, 8, 1, true, va⟩)
    else match (if cached.isSome then none else s.tetherCheck g va pa) with
      | some a => some a
      | none => s.checkTags g core rest

/-- The checks of R111 on an access to [va, va + len) that must be a multiple of `align`. -/
def State.check (s : State) (g : Agent) (core : Option Nat) (k : AccKind) (va len align : Nat) : Acc :=
  match s.checkPages g k (sectorsOf va len) with
  | .error e => e
  | .ok ps =>
    if 1 < align ∧ va % align ≠ 0 then .fault ⟨12, 7, 0, false, va⟩
    else match s.checkTags g core ps with
      | some e => e
      | none => .ok (ps.map fun p => (p.2.1, p.2.2.1))

/-- Reads the pieces of an access from coherent memory. -/
def State.readPieces (s : State) (ps : List (Nat × Nat)) : List Byte := ps.flatMap fun p => s.peek p.1 p.2

/-- The bit of a sector within its line. -/
def sectorBit (sector : Nat) : BitVec 4 := BitVec.ofNat 4 (2 ^ (sector % 4))

/-- A line among `ls` with sectors added and marked dirty, in front of the others: it is the one most recently used (R114). -/
def putLine (line : Nat) (present dirty : BitVec 4) (way : Nat) (ls : List HeldLine) : List HeldLine :=
  match ls.find? fun h => decide (h.line = line) with
  | some h => { h with present := h.present ||| present, dirty := h.dirty ||| dirty } :: ls.filter fun h => h.line ≠ line
  | none => ⟨line, present, dirty, way⟩ :: ls

/-- Sectors of a line that a die cache now holds (R18). -/
def State.dieAdd (s : State) (die line : Nat) (present dirty : BitVec 4) : State :=
  { s with tier := { s.tier with dies := s.tier.dies.modify die (putLine line present dirty 0) } }

/-- A sector written in coherent memory is dirty where it is held: in the bonded tier, else in the die caches (R18). -/
def State.markDirty (s : State) (sector : Nat) : State :=
  let mark (h : HeldLine) : HeldLine :=
    if h.line = sector / 4 ∧ h.present.getLsbD (sector % 4) then { h with dirty := h.dirty ||| sectorBit sector } else h
  { s with tier :=
      if holds s.tier.lines sector then { s.tier with lines := s.tier.lines.map mark }
      else { s.tier with dies := s.tier.dies.map fun d => d.map mark } }

/-- Writes bytes over the pieces of an access to coherent memory; no piece crosses a sector. -/
def State.writePieces (s : State) : List (Nat × Nat) → List Byte → State
  | [], _ => s
  | (pa, n) :: ps, bs => State.writePieces ((s.poke pa (bs.take n)).markDirty (pa / 128)) ps (bs.drop n)

/-- The physical sectors that pieces touch. -/
def sectorsIn (ps : List (Nat × Nat)) : List Nat := (ps.map fun p => p.1 / 128).eraseDups

/-! ### Tether requests (R435) -/

/-- Queues a read of a line for an agent, unless one of its share and class waits already; `pref` is what a prefetch wants. -/
def State.askFor (s : State) (g : Agent) (line : Nat) (pref : List (Nat × Nat × Nat)) : State :=
  let same (r : TReq) : Bool := decide (r.kind = 1 ∧ r.line = line ∧ r.share = g.share ∧ r.cls = g.cls)
  if s.thx.reqs.any same then
    if pref.isEmpty then s
    else { s with thx := { s.thx with reqs := s.thx.reqs.map fun r => if same r then { r with pref := r.pref ++ pref } else r } }
  else { s with nextId := s.nextId + 1,
                thx := { s.thx with reqs := s.thx.reqs ++
                  [⟨s.nextId, pairOf line, g.share, g.cls, 1, line, line * 4, g.fn, s.thx.slotCtr, 4, none, none, g.owner, g.die, pref, none⟩] } }

def State.askLine (s : State) (g : Agent) (line : Nat) : State := s.askFor g line []

/-- Queues the write of a line to the Gondola, which takes a slot of the device's own share (R435, R436; assumption 7). -/
def State.sendLine (s : State) (line : Nat) : State :=
  { s with nextId := s.nextId + 1,
           thx := { s.thx with reqs := s.thx.reqs ++
             [⟨s.nextId, pairOf line, 0xFE, 0, 2, line, line * 4, 0, s.thx.slotCtr, 4, none, none, 0, 0, [], none⟩] } }

end Sys2Proof.Machine
end

