-- ==== Sys2Proof/Machine/Tier.lean ====
section
/-!
DEFINITION. The boundary to the Gondola (R410 to R416), the core caches, the die caches and the bonded tier (R18, R113, R114, R124 to R127).
-/
namespace Sys2Proof.Machine

/-- `len` bytes that the spec leaves open, for the n-th draw (assumption 15). -/
def freeData (n len : Nat) : List Byte := (Config.freeBytes n len ++ List.replicate len 0).take len

/-! ### Lines that cross the tethers -/

def linePlain (s : State) (line : Nat) : BitVec 4096 := BitVec.ofNat 4096 (s.peekN (line * 512) 512)

/-- The owner of a line's frame (R410): the tag of its sectors. -/
def State.lineOwner (s : State) (line : Nat) : Nat := tagOf s.tags (line * 4)
def State.lineAttr (s : State) (line : Nat) : Nat := s.fat (line / 128) % 4
/-- The 4 KiB group of a line, counted from the integrity window's start (R414). -/
def State.groupOf (s : State) (line : Nat) : Nat := line / 8 - s.sec.iwin * 2 ^ 24

/-- A group's counter entry; one never written is all 0 (R414). -/
def State.counter (s : State) (g : Nat) : Group :=
  (s.tier.groups.find? fun x => x.group = g).getD ⟨g, 0, List.replicate 8 0, List.replicate 8 false, false⟩

def State.setCounter (s : State) (x : Group) : State :=
  { s with tier := { s.tier with groups := x :: s.tier.groups.filter fun y => y.group ≠ x.group } }

/-- The XTS tweak of a line (R411). -/
def tweak (line major minor : Nat) : Nat := line + major % 2 ^ 64 * 2 ^ 40 + minor * 2 ^ 104

def State.epoch (s : State) (o : Nat) : Nat := ((s.sec.keys[o]?).map KeySlot.epoch).getD 0

/-- The secret of a key slot: what was loaded, or what the random generator drew (R417). -/
def KeySlot.bytes (k : KeySlot) : List Byte :=
  match k.drawn with
  | some n => freeData n 32
  | none => k.secret

/-- A key of `len` bytes that an owner's slot gives under a label, the owner and EPOCH (R417). -/
def State.ownerKey (s : State) (label : String) (o len : Nat) : List Byte :=
  Crypto.hkdf (freeData s.sec.salt 64) (((s.sec.keys[o]?).map KeySlot.bytes).getD [])
    (Crypto.text label ++ leBytes 1 o ++ leBytes 4 (s.epoch o)) len

/-- The encryption of lines under an owner's XTS key and a tweak (R410, R411). -/
def State.cipher (s : State) (o tweak : Nat) : Equiv.Perm (BitVec 4096) := Crypto.xts (s.ownerKey "TRV-MEM-XTS" o 64) tweak

/-- The MAC of a line's ciphertext under an owner's MAC key and counters (R411). -/
def State.lineMac (s : State) (o line major minor : Nat) (ct : BitVec 4096) : W64 :=
  BitVec.ofNat 64 (leNat ((Crypto.cmac (s.ownerKey "TRV-MEM-MAC" o 32)
    (leBytes 8 line ++ leBytes 8 major ++ leBytes 1 minor ++ List.replicate 7 0 ++ leBytes 512 ct.toNat)).take 8))

/-- A line as it is stored under an attribute and counters (R410, R411). -/
def State.sealLine (s : State) (line attr owner major minor : Nat) (plain : BitVec 4096) : OffLine :=
  if attr = 0 then ⟨line, 0, owner, plain, 0⟩
  else if attr = 1 then ⟨line, 1, owner, s.cipher owner (tweak line 0 0) plain, 0⟩
  else
    let ct := s.cipher owner (tweak line major minor) plain
    ⟨line, 2, owner, ct, s.lineMac owner line major minor ct⟩

/-- The plaintext of a stored line under counters. -/
def State.openLine (s : State) (l : OffLine) (major minor : Nat) : BitVec 4096 :=
  if l.attr = 0 then l.stored
  else if l.attr = 1 then (s.cipher l.owner (tweak l.line 0 0)).symm l.stored
  else (s.cipher l.owner (tweak l.line major minor)).symm l.stored

/-- Whether the MAC of a stored line of attribute 10 verifies under counters (R411, R416). -/
def State.macOk (s : State) (l : OffLine) (major minor : Nat) : Bool :=
  decide (l.mac = s.lineMac l.owner l.line major minor l.stored)

def State.addAway (s : State) (l : OffLine) : State :=
  { s with tier := { s.tier with offpkg := l :: s.tier.offpkg.filter fun x => x.line ≠ l.line } }

/-- Re-encryption of line `k` of a group whose minors overflowed (R415); the poison bit it leaves.  A line that stores zeros in
order still does. -/
def State.reencrypt (s : State) (old : Group) (base k newMajor : Nat) : State × Bool :=
  match s.away (base + k) with
  | none => (s, old.poison.getD k false)
  | some l =>
    let m := old.minors.getD k 0
    if s.macOk l old.major m ∧ !old.poison.getD k false then
      (s.addAway (s.sealLine l.line 2 l.owner newMajor 0 (s.openLine l old.major m)), false)
    else (s, true)

/-- Re-encryption of the lines other than `j`, from line `k` down; the POISON bits after it. -/
def State.reencryptAll (s : State) (old : Group) (base j newMajor : Nat) : Nat → State × List Bool
  | 0 => (s, [])
  | k + 1 =>
    let r := s.reencryptAll old base j newMajor k
    if k = j then (r.1, r.2 ++ [old.poison.getD j false])
    else
      let q := r.1.reencrypt old base k newMajor
      (q.1, r.2 ++ [q.2])

/-- Write of a whole line to the Gondola (R410, R415), where its sectors are clean afterwards. -/
def State.writeBack (s : State) (line : Nat) : State :=
  let plain := linePlain s line
  let owner := s.lineOwner line
  let attr := s.lineAttr line
  let clean (h : HeldLine) : HeldLine := if h.line = line then { h with dirty := 0 } else h
  let s : State := { s.sendLine line with
    tier := { s.tier with lines := s.tier.lines.map clean, dies := s.tier.dies.map fun d => d.map clean } }
  if attr ≠ 2 then s.addAway (s.sealLine line attr owner 0 0 plain)
  else
    let g := s.counter (s.groupOf line)
    let j := line % 8
    let m := g.minors.getD j 0
    if m < 127 then
      (s.setCounter { g with minors := g.minors.set j (m + 1) }).addAway
        (s.sealLine line 2 owner g.major (m + 1) plain)
    else
      let r := s.reencryptAll g (line - j) j (g.major + 1) 8
      (r.1.setCounter ⟨g.group, g.major + 1, List.replicate 8 0, r.2, g.bad⟩).addAway
        (s.sealLine line 2 owner (g.major + 1) 0 plain)

/-- What the Gondola gives for a line, decrypted and verified (R416): the cause of INTEGRITY, or its plaintext. -/
def State.readLine (s : State) (line : Nat) : Except Nat (BitVec 4096) :=
  let attr := ((s.away line).map OffLine.attr).getD (s.lineAttr line)
  let g := s.counter (s.groupOf line)
  let j := line % 8
  if attr = 2 ∧ g.poison.getD j false then .error 3
  else if attr = 2 ∧ g.bad then .error 2
  else match s.away line with
    | none => .ok 0
    | some l =>
      if attr ≠ 2 then .ok (s.openLine l 0 0)
      else if s.macOk l g.major (g.minors.getD j 0) then .ok (s.openLine l g.major (g.minors.getD j 0))
      else .error 1

/-- The sectors of a line that are on the package. -/
def State.presentIn (s : State) (line : Nat) : List Nat := (List.range 4).filter fun k => s.onPkg (4 * line + k)

/-- Memory with the sectors of a line that are not on the package as the Gondola gives them. -/
def State.fillIn (s : State) (line : Nat) : Except Nat State :=
  match s.readLine line with
  | .error c => .error c
  | .ok plain => .ok { s with mem := (List.range 4).foldl (fun m k =>
      if s.onPkg (4 * line + k) then m
      else Memory.writeN m ((4 * line + k) * 128) (leBytes 128 (plain.toNat / 2 ^ (1024 * k)))) s.mem }

/-- The bytes of sectors that have left the package are read no more: the Gondola alone has them. -/
def State.settle (s : State) (line : Nat) : State :=
  { s with mem := (List.range 4).foldl (fun m k =>
      if s.onPkg (4 * line + k) then m else Memory.clear m ((4 * line + k) * 128) 128) s.mem }

/-- Writes a line to the Gondola, its absent sectors filled first, with verification (R415). -/
def State.storeLine (s : State) (line : Nat) : Except Nat State :=
  if (s.presentIn line).length = 4 then .ok (s.writeBack line)
  else match s.fillIn line with
    | .error c => .error c
    | .ok t => .ok ((t.writeBack line).settle line)

/-! ### Core caches (R18) -/

def State.core (s : State) (c : Nat) : Core := s.cores.getD c Core.reset
def State.setCore (s : State) (c : Nat) (x : Core) : State := { s with cores := s.cores.set c x }
def State.modCore (s : State) (c : Nat) (f : Core → Core) : State := s.setCore c (f (s.core c))

/-- Byte `i` of a cached sector. -/
def CacheSector.byte (x : CacheSector) (i : Nat) : Byte := BitVec.ofNat 8 (x.data.toNat / 256 ^ i)

/-- Puts bytes into a cached sector from byte `i`, which makes it dirty. -/
def CacheSector.put (x : CacheSector) (i : Nat) (bs : List Byte) : CacheSector :=
  let n := bs.length
  let d := setBits x.data.toNat (8 * i) (8 * n) (leNat bs)
  { x with data := BitVec.ofNat 1024 d, dirty := true, wrote := x.wrote ||| BitVec.ofNat 128 ((2 ^ n - 1) * 2 ^ i) }

/-- The sector as coherent memory holds it. -/
def State.memSector (s : State) (sector : Nat) : CacheSector :=
  ⟨sector, BitVec.ofNat 1024 (s.peekN (sector * 128) 128), false, 0, tagOf s.tags sector⟩

/-- The bytes that a core wrote into a sector, merged over memory from byte `i` for `n` bytes. -/
def mergeBytes (x : CacheSector) : Nat → Nat → List Host.Cell → List Host.Cell
  | _, 0, m => m
  | i, n + 1, m =>
    mergeBytes x (i + 1) n (if x.wrote.getLsbD i then Memory.write m (x.sector * 128 + i) (x.byte i) else m)

/-- Ways of the bonded tier that an owner may fill (R114). -/
def State.quota (s : State) (o : Nat) : List Nat := (List.range 16).filter fun w => bits (s.oper.waym.getD o 0) w 1 = 1

/-- The bonded tier holds a sector of the line. -/
def State.inTier (s : State) (line : Nat) : Bool := s.tier.lines.any fun h => decide (h.line = line)

/-- A write by an owner with no way goes through to the Gondola (R114). -/
def State.through (s : State) (o line : Nat) : State :=
  if o = 15 ∨ !((s.quota o).isEmpty) ∨ s.inTier line ∨ Config.reserve ≤ line * 512 then s
  else match s.storeLine line with
    | .ok t => t
    | .error _ => s

/-- One dirty sector of a core's cache goes whole to the die cache (R18, R124). -/
def State.cleanSector (c : Nat) (s : State) (x : CacheSector) : State :=
  (({ s with mem := mergeBytes x 0 128 s.mem }).dieAdd (c / 24) (x.sector / 4) (sectorBit x.sector) (sectorBit x.sector)).through
    x.tag (x.sector / 4)

/-- Cleans the sectors of a core's cache that a test picks (R124, R127). -/
def State.cleanCache (s : State) (c : Nat) (p : CacheSector → Bool) : State :=
  (((s.core c).cache.filter fun x => p x && x.dirty).foldl (State.cleanSector c) s).modCore c fun y =>
    { y with cache := y.cache.map fun x => if p x then { x with dirty := false, wrote := 0 } else x }

/-- Discards the clean sectors of a core's cache that a test picks. -/
def State.dropClean (s : State) (c : Nat) (p : CacheSector → Bool) : State :=
  s.modCore c fun y => { y with cache := y.cache.filter fun x => !(p x && !x.dirty) }

/-- Sectors that a test picks leave a core's cache, cleaned first. -/
def State.evictCache (s : State) (c : Nat) (p : CacheSector → Bool) : State := (s.cleanCache c p).dropClean c p

/-- Sectors that a core cache holds: 256 KiB (R18). -/
def coreSectors : Nat := 2048
/-- Lines that a die cache holds: 64 MiB (R18). -/
def dieLines : Nat := 131072
/-- Sets of 16 ways of the bonded tier: 1,792 MiB (R18, R114). -/
def tierSets : Nat := 229376

/-- Fills a sector into a core's cache unless it is there; a full cache evicts the sector filled first (assumption 6). -/
def State.fillCache (s : State) (c sector : Nat) : State :=
  match (s.core c).hit sector with
  | some _ => s
  | none =>
    let s := if (s.core c).cache.length < coreSectors then s
      else match (s.core c).cache.getLast? with
        | some v => s.evictCache c fun x => decide (x.sector = v.sector)
        | none => s
    s.modCore c fun x => { x with cache := s.memSector sector :: x.cache }

/-- Reads one piece through a core's cache, which it fills. -/
def State.cacheRead (s : State) (c : Nat) (pa n : Nat) : State × List Byte :=
  let t := s.fillCache c (pa / 128)
  match (t.core c).hit (pa / 128) with
  | some x => (t, (List.range n).map fun i => x.byte (pa % 128 + i))
  | none => (t, t.peek pa n)

/-- Writes one piece into a core's cache. -/
def State.cacheWrite (s : State) (c : Nat) (pa : Nat) (bs : List Byte) : State :=
  (s.fillCache c (pa / 128)).modCore c fun x =>
    { x with cache := x.cache.map fun y => if y.sector = pa / 128 then y.put (pa % 128) bs else y }

/-- The cores of a flight. -/
def Flight.cores (f : Flight) : List Nat := if f.pair then [f.core, f.core + 1] else [f.core]

def State.modCores (s : State) (cs : List Nat) (f : State → Nat → State) : State := cs.foldl f s

/-- The cores whose caches hold a sector that a test picks. -/
def State.coresWith (s : State) (p : CacheSector → Bool) : List Nat :=
  (List.range 96).filter fun c => (s.core c).cache.any p

/-- The bytes of a cached sector that its core has not written, read again from coherent memory. -/
def CacheSector.refresh (x : CacheSector) (s : State) : CacheSector :=
  let y := s.memSector x.sector
  { x with data := BitVec.ofNat 1024 (leNat ((List.range 128).map fun i => if x.wrote.getLsbD i then x.byte i else y.byte i)) }

/-- The clean sectors that a test picks leave a core's cache, and of the dirty ones the bytes it has not written are read again, so
that R120 holds byte by byte (assumption 6). -/
def State.renew (s : State) (c : Nat) (p : CacheSector → Bool) : State :=
  s.modCore c fun y => { y with cache := (y.cache.filter fun x => x.dirty || !p x).map fun x => if p x then x.refresh s else x }

/-! ### Lines on the package (R18, R114) -/

/-- A sector leaves every core cache before it leaves the package, cleaned first (assumption 7). -/
def State.leaveCores (s : State) (p : CacheSector → Bool) : State := s.modCores (s.coresWith p) fun s c => s.evictCache c p

/-- Takes sectors of a line out of the bonded tier. -/
def dropSectors (line : Nat) (ks : BitVec 4) (ls : List HeldLine) : List HeldLine :=
  (ls.map fun h => if h.line = line then { h with present := h.present &&& ~~~ks, dirty := h.dirty &&& ~~~ks } else h).filter
    fun h => h.line ≠ line || h.present ≠ 0

/-- A line of the bonded tier leaves it, written to the Gondola when a sector is dirty (R18, R415); none where that fails. -/
def State.leaveTier (s : State) (line : Nat) : Option State :=
  let s := s.leaveCores fun x => decide (x.sector / 4 = line)
  let dirty := s.tier.lines.any fun h => decide (h.line = line) && h.dirty ≠ 0
  match (if dirty then s.storeLine line else .ok s) with
  | .error _ => none
  | .ok t => some (({ t with tier := { t.tier with lines := dropSectors line 15 t.tier.lines } }).settle line)

/-- A line of a die cache leaves it; what is dirty goes to the bonded tier where the line is held there, else to the
Gondola. -/
def State.leaveDie (s : State) (die line : Nat) : Option State :=
  let s := if s.inTier line then s else s.leaveCores fun x => decide (x.sector / 4 = line)
  match (s.tier.dies.getD die []).find? fun h => decide (h.line = line) with
  | none => some s
  | some h =>
    let gone (t : State) : State :=
      ({ t with tier := { t.tier with dies := t.tier.dies.modify die (dropSectors line 15) } }).settle line
    if h.dirty = 0 then some (gone s)
    else if s.inTier line then some (gone ({ s with tier := { s.tier with lines := putLine line h.present h.dirty 0 s.tier.lines } } : State))
    else match s.storeLine line with
      | .error _ => none
      | .ok t => some (gone t)

/-- The way that a fill for an owner takes in a line's set: one of the owner's ways that holds nothing, the lowest first, else
that of the line least recently used in the owner's ways, which leaves (R114; assumption 7). -/
def State.freeWay (s : State) (o line : Nat) : Option (Nat × State) :=
  let ways := s.quota o
  let inSet := s.tier.lines.filter fun h => decide (h.line % tierSets = line % tierSets)
  match ways.find? fun w => !(inSet.any fun h => decide (h.way = w)) with
  | some w => some (w, s)
  | none => match (inSet.filter fun h => ways.contains h.way).getLast? with
    | some h => (s.leaveTier h.line).map fun t => (h.way, t)
    | none => none

/-- Fills sectors of a line into the bonded tier for an owner; an owner with no way fills none (R114). -/
def State.fillTier (s : State) (o line : Nat) (present : BitVec 4) : State :=
  if s.inTier line then { s with tier := { s.tier with lines := putLine line present 0 0 s.tier.lines } }
  else match s.freeWay o line with
    | some (w, t) => { t with tier := { t.tier with lines := putLine line present 0 w t.tier.lines } }
    | none => s

/-- A die cache over its size gives up the line least recently used (assumption 7). -/
def State.trimDie (s : State) (die : Nat) : State :=
  let ls := s.tier.dies.getD die []
  if ls.length ≤ dieLines then s
  else match ls.getLast? with
    | some h => (s.leaveDie die h.line).getD s
    | none => s

/-- A line filled from the Gondola for an owner through a die (R114, R416): the cause of INTEGRITY, or the line on the package. -/
def State.pullLine (s : State) (o die line : Nat) : Except Nat State :=
  if (s.presentIn line).length = 4 then .ok s
  else match s.fillIn line with
    | .error c => .error c
    | .ok t => .ok (((t.dieAdd die line 15 0).fillTier o line 15).trimDie die)

/-- Brings every line of a list onto the package, stopping at the first that fails. -/
def State.pullLines (s : State) (o die : Nat) : List Nat → Except Nat State
  | [] => .ok s
  | l :: ls =>
    match s.pullLine o die l with
    | .error e => .error e
    | .ok t => t.pullLines o die ls

/-- Charges sectors to an owner's bandwidth account (R114, R223). -/
def State.chargeBand (s : State) (o n : Nat) : State :=
  if o = 0 then s else { s with tier := { s.tier with band := s.tier.band.modify o fun b => b + n } }

/-- A sector served below the core cache: from the die cache, or from the bonded tier, where the line becomes the one most recently
used and a hit in another owner's ways is charged (R114). -/
def State.touch (g : Agent) (s : State) (sector : Nat) : State :=
  let line := sector / 4
  if Config.reserve ≤ sector * 128 then s
  else if holds (s.tier.dies.getD g.die []) sector then s.dieAdd g.die line 0 0
  else match s.tier.lines.find? fun h => decide (h.line = line) && h.present.getLsbD (sector % 4) with
    | none => s.dieAdd g.die line (sectorBit sector) 0
    | some h =>
      let t : State := { s with tier := { s.tier with lines := putLine line 0 0 0 s.tier.lines } }
      let t := if (s.quota g.owner).contains h.way then t else t.chargeBand g.owner 1
      (t.dieAdd g.die line (sectorBit sector) 0).trimDie g.die

/-- The sectors of pieces that a core's cache, if one is named, does not hold are served below it. -/
def State.serve (s : State) (g : Agent) (core : Option Nat) (ps : List (Nat × Nat)) : State :=
  ((sectorsIn ps).filter fun k => match core with
    | some c => ((s.core c).hit k).isNone
    | none => true).foldl (State.touch g) s

/-- Writes bytes over pieces for an owner, through to the Gondola where it has no way (R114). -/
def State.writeFor (s : State) (o : Nat) (ps : List (Nat × Nat)) (bs : List Byte) : State :=
  ((sectorsIn ps).map fun k => k / 4).eraseDups.foldl (fun s l => s.through o l) (s.writePieces ps bs)

/-- Bytes that firmware puts in coherent memory: their sectors are on the package (assumption 7). -/
def State.land (s : State) (pa : Nat) (bs : List Byte) : State :=
  ((sectorsOf pa bs.length).map fun p => p.1 / 128).foldl (fun s k => s.dieAdd 0 (k / 4) (sectorBit k) (sectorBit k)) (s.poke pa bs)

/-- The lines that pieces touch. -/
def linesOf (ps : List (Nat × Nat)) : List Nat := (ps.map fun p => p.1 / 512).eraseDups

/-- The physical pieces of an access by the device itself that a page check alone decides, lines brought in first. -/
def State.devPieces (s : State) (g : Agent) (k : AccKind) (va len align : Nat) : Except Acc (State × List (Nat × Nat)) :=
  match s.checkPages g k (sectorsOf va len) with
  | .error e => .error e
  | .ok ps =>
    match s.pullLines g.owner g.die (linesOf (ps.map fun p => (p.2.1, p.2.2.1))) with
    | .error c => .error (.fault ⟨22, 0, c, decide (c = 2), va⟩)
    | .ok t =>
      match t.check g none k va len align with
      | .ok qs => .ok (t.serve g none qs, qs)
      | e => .error e

/-- A read by the queue engine, the management core or a record writer, acting for an agent. -/
def State.devRead (s : State) (g : Agent) (va len align : Nat) : Except Acc (State × List Byte) :=
  match s.devPieces g .load va len align with
  | .error e => .error e
  | .ok (t, ps) => .ok (t, t.readPieces ps)

/-- A write by the same agents, a release at system scope where its rule says so. -/
def State.devWrite (s : State) (g : Agent) (va align : Nat) (bs : List Byte) : Except Acc State :=
  match s.devPieces g .store va bs.length align with
  | .error e => .error e
  | .ok (t, ps) => .ok (t.writeFor g.owner ps bs)

/-! ### Releases, acquires and promotion (R124 to R126) -/

/-- Release of device or system scope: every dirty sector goes to the die cache and the release log empties (R124). -/
def State.releaseDevice (s : State) (c : Nat) : State :=
  (s.cleanCache c fun _ => true).modCore c fun y => { y with relLog := [] }

/-- Release of core scope: dirty sectors join the release log; an overflow makes it a device release (R124, R126). -/
def State.releaseCore (s : State) (c : Nat) : State :=
  let x := s.core c
  let log := (x.relLog ++ (x.cache.filter CacheSector.dirty).map CacheSector.sector).eraseDups
  if 256 < log.length then s.releaseDevice c else s.setCore c { x with relLog := log }

/-- An acquire that discards a core's clean copies (R124). -/
def State.acquireCore (s : State) (c : Nat) : State := s.renew c fun _ => true

/-- The remote promotion of a core (R125): the sectors of its release log are cleaned and the log emptied. -/
def State.promote (s : State) (c : Nat) : State :=
  (s.cleanCache c fun x => (s.core c).relLog.contains x.sector).modCore c fun y => { y with relLog := [] }

end Sys2Proof.Machine
end

