-- ==== Sys2Proof/Machine/Flags.lean ====
section
/-!
DEFINITION. Forms, item sets, the XFLAG bit, result forms, and how an entry's state divides and merges
(R12, R31 to R42, R49, R66, R70, R73).
-/
namespace Sys2Proof.Machine

/-! ### Values by form -/

/-- An operand value: one word, a 32-bit affine sequence, or one word for each offset of the entry's range (R31). -/
inductive OpVal where
  | uni (w : W64)
  | aff (base stride : W32)
  | den (vals : List W64)
deriving DecidableEq, Repr

/-- The value of the item at offset `i` of the entry's range. -/
def OpVal.at (v : OpVal) (i : Nat) : W64 :=
  match v with
  | .uni w => w
  | .aff b d => (b + d * BitVec.ofNat 32 i).setWidth 64
  | .den vs => vs.getD i 0

def OpVal.isUni : OpVal → Bool
  | .uni _ => true
  | _ => false

def OpVal.isDen : OpVal → Bool
  | .den _ => true
  | _ => false

/-- The value of a v register at an offset (R31). -/
def VReg.at (r : VReg) (i : Nat) : W32 :=
  match r with
  | .uni u => u
  | .aff b d => b + d * BitVec.ofNat 32 i
  | .den vs => vs.getD i 0

/-- FORMOF's code (R31). -/
def VReg.code : VReg → Nat
  | .uni _ => 0 | .aff _ _ => 1 | .den _ => 2

/-- The truth of a predicate at an offset, the entry's range starting at `start` (R31). -/
def PReg.at (r : PReg) (start i : Nat) : Bool :=
  match r with
  | .uni t => t
  | .aff c sense => if start + i < c then !sense else sense
  | .den vs => vs.getD i false

def PReg.code : PReg → Nat
  | .uni _ => 0 | .aff _ _ => 1 | .den _ => 2

def XReg.at (r : XReg) (i : Nat) : W32 :=
  match r with
  | .uni w => w
  | .den vs => vs.getD i 0

def XReg.code : XReg → Nat
  | .uni _ => 0 | .den _ => 2

def VReg.toVal : VReg → OpVal
  | .uni u => .uni (u.setWidth 64)
  | .aff b d => .aff b d
  | .den vs => .den (vs.map fun x => x.setWidth 64)

/-! ### Items of an entry -/

/-- Neither dead nor ended (R12). -/
def Entry.live (e : Entry) (i : Nat) : Bool := decide (i < e.len) && !e.dead.getD i false && !e.ended.getD i false

/-- Live and not masked off (R12, R50). -/
def Entry.active (e : Entry) (i : Nat) : Bool := e.live i && e.mask.getD i false

def Entry.liveList (e : Entry) : List Nat := (List.range e.len).filter e.live
def Entry.liveCount (e : Entry) : Nat := ((List.range e.len).filter e.live).length
def Entry.activeList (e : Entry) : List Nat := (List.range e.len).filter e.active

/-- Some live item is masked off: an instruction writes under an item mask (R35; assumption 13). -/
def Entry.masked (e : Entry) : Bool := (List.range e.len).any fun i => e.live i && !e.mask.getD i false

/-- The predicate register a number names: p7 is always true (R70). -/
def Entry.pred (e : Entry) (n : Nat) : PReg := if n = 7 then .uni true else e.preds.getD n (.uni false)

/-- The position of offset `i` within the whole strand (R48). -/
def Entry.posOf (e : Entry) (i : Nat) : Nat := e.start - e.wstart + i

/-- The truth of the guard for offset `i` (R153). -/
def Entry.guard (e : Entry) (pi : Nat) (pn : Bool) (i : Nat) : Bool := (e.pred pi).at e.start i != pn

/-- The guard is UNI true (R35). -/
def Entry.guardUni (e : Entry) (pi : Nat) (pn : Bool) : Bool :=
  match e.pred pi with
  | .uni t => t != pn
  | _ => false

/-- The offsets an instruction with this guard acts on, in increasing index (R12). -/
def Entry.acting (e : Entry) (pi : Nat) (pn : Bool) : List Nat := e.activeList.filter (e.guard pi pn)

/-! ### Normalisation (R34) -/

/-- The offset of the only live item, if there is exactly one. -/
def Entry.single (e : Entry) : Option Nat :=
  match (List.range e.len).filter e.live with
  | [i] => some i
  | _ => none

def VReg.norm (r : VReg) (single : Option Nat) : VReg :=
  match single with
  | some i => .uni (r.at i)
  | none =>
    match r with
    | .aff b d => if d = 0 then .uni b else .aff b d
    | r => r

def XReg.norm (r : XReg) (single : Option Nat) : XReg :=
  match single with
  | some i => .uni (r.at i)
  | none => r

def PReg.norm (r : PReg) (start len : Nat) (single : Option Nat) : PReg :=
  match single with
  | some i => .uni (r.at start i)
  | none =>
    match r with
    | .aff c sense => if c ≤ start then .uni sense else if start + len ≤ c then .uni (!sense) else .aff c sense
    | r => r

/-- Every form of an entry normalised (R34). -/
def Entry.normAll (e : Entry) : Entry :=
  { e with regs := e.regs.map fun r => r.norm e.single,
           xregs := e.xregs.map fun r => r.norm e.single,
           preds := e.preds.map fun r => r.norm e.start e.len e.single }

/-- Normalisation after a write: all forms when one live item is left, else those that were written (R34). -/
def Entry.normWritten (e : Entry) : Entry := if e.single.isSome then e.normAll else e

/-! ### Register writes (R35, R70) -/

/-- Writes v register `n`: the whole value when `items` is none, else the listed offsets, giving DEN. -/
def Entry.putV (e : Entry) (n : Nat) (r : VReg) (items : Option (List Nat)) : Entry :=
  let old := e.regs.getD n (.uni 0)
  let new := match items with
    | none => r
    | some is => .den ((List.range e.len).map fun i => if is.contains i then r.at i else old.at i)
  ({ e with regs := e.regs.set n (new.norm e.single) }).normWritten

def Entry.putX (e : Entry) (n : Nat) (r : XReg) (items : Option (List Nat)) : Entry :=
  let old := e.xregs.getD n (.uni 0)
  let new := match items with
    | none => r
    | some is => .den ((List.range e.len).map fun i => if is.contains i then r.at i else old.at i)
  ({ e with xregs := e.xregs.set n (new.norm e.single) }).normWritten

/-- Writes predicate `n`; a write to p7 is discarded (R70). -/
def Entry.putP (e : Entry) (n : Nat) (r : PReg) (items : Option (List Nat)) : Entry :=
  if n = 7 then e else
  let old := e.preds.getD n (.uni false)
  let new := match items with
    | none => r
    | some is => .den ((List.range e.len).map fun i => if is.contains i then r.at e.start i else old.at e.start i)
  ({ e with preds := e.preds.set n (new.norm e.start e.len e.single) }).normWritten

def Entry.putS (e : Entry) (n : Nat) (w : W64) : Entry := { e with scalars := e.scalars.set n w }

/-- Sets the sticky bit XFLAG (R49). -/
def Entry.setX (e : Entry) : Entry := { e with xflag := true }

/-! ### Division (R38, R44, R73) -/

/-- A register over the part of a range from offset `k` (R38). -/
def VReg.from (r : VReg) (k n : Nat) : VReg :=
  match r with
  | .uni u => .uni u
  | .aff b d => .aff (b + d * BitVec.ofNat 32 k) d
  | .den vs => .den ((vs.drop k).take n)

def XReg.from (r : XReg) (k n : Nat) : XReg :=
  match r with
  | .uni u => .uni u
  | .den vs => .den ((vs.drop k).take n)

def PReg.from (r : PReg) (k n : Nat) : PReg :=
  match r with
  | .den vs => .den ((vs.drop k).take n)
  | r => r

def Level.from (l : Level) (k n : Nat) : Level :=
  match l with
  | .cut i c => .cut i c
  | .mask sv t p c => .mask ((sv.drop k).take n) t ((p.drop k).take n) c

def Stream.from (q : Stream) (k n : Nat) : Stream :=
  { q with queued := q.queued.map fun row => (row.drop k).take n }

/-- The damaged words that a part of an entry holds: an item's own go with it, the others are copied (R38, R59). -/
def BadWord.from (b : BadWord) (k n : Nat) : Option BadWord :=
  match b.offset with
  | none => some b
  | some i => if k ≤ i ∧ i < k + n then some { b with offset := some (i - k) } else none

/-- The part of an entry at offsets [k, k + n), with its own range and normalised forms (R38, R73).  What only one part
keeps (operations, statuses, chain, window) is set by the caller. -/
def Entry.part (e : Entry) (k n : Nat) : Entry :=
  let x : Entry := { e with
    start := e.start + k, len := n,
    regs := e.regs.map fun r => r.from k n, xregs := e.xregs.map fun r => r.from k n,
    preds := e.preds.map fun r => r.from k n, levels := e.levels.map fun l => l.from k n,
    mask := (e.mask.drop k).take n, dead := (e.dead.drop k).take n, ended := (e.ended.drop k).take n,
    streams := e.streams.map fun q => q.map fun x => x.from k n,
    bad := e.bad.filterMap fun b => b.from k n }
  x.normAll

/-- The part that does not keep the entry's asynchronous operations (R73, R272): counters and chain empty; the statuses of operations retired stay. -/
def Entry.fresh (e : Entry) : Entry :=
  { e with counts := [0, 0, 0, 0], ops := [], stats := e.stats.filter (fun x => !(e.ops.any fun o => decide (o.id = x.id))),
           chain := {}, window := [], dsts := [], bad := e.bad.filter fun b => b.kind ≠ 6,
           streams := e.streams.map fun q => q.map fun x => { x with op := none } }

/-! ### Merging (R42) -/

/-- The values that pieces hold for their live items: (index, value), pieces in order of range start. -/
def liveVals {α : Type} (pieces : List Entry) (f : Entry → Nat → α) : List (Nat × α) :=
  pieces.flatMap fun p => ((List.range p.len).filter p.live).map fun i => (p.start + i, f p i)

/-- The inverse modulo 2^32 of an odd number, by Newton's iteration. -/
def oddInv (a : BitVec 32) : Nat → BitVec 32 → BitVec 32
  | 0, x => x
  | n + 1, x => oddInv a n (x * (2 - a * x))

/-- The least d in [0, 2^32) with k × d ≡ x (mod 2^32) for every pair (k, x): the solutions of the pairs read so far are
d0 + m × t (R42). -/
def strideSolve : List (Nat × Nat) → Nat → Nat → Option Nat
  | [], d0, _ => some d0
  | (k, x) :: rest, d0, m =>
    let r := (x + 2 ^ 32 - k * d0 % 2 ^ 32) % 2 ^ 32
    let km := k * m % 2 ^ 32
    let g := Nat.gcd km (2 ^ 32)
    if r % g ≠ 0 then none
    else
      let md := 2 ^ 32 / g
      let t := (r / g) * (oddInv (BitVec.ofNat 32 (km / g)) 6 1).toNat % md
      strideSolve rest (d0 + m * t) (m * md)

/-- What `f` gives at launch index `a + k` in the piece that holds it. -/
def pieceAt {α : Type} (pieces : List Entry) (f : Entry → Nat → α) (d : α) (idx : Nat) : α :=
  match pieces.find? fun p => decide (p.start ≤ idx) && decide (idx < p.start + p.len) with
  | some p => f p (idx - p.start)
  | none => d

/-- The bits that pieces hold over their union, in order. -/
def joinBools (pieces : List Entry) (f : Entry → List Bool) (d : Bool) : List Bool :=
  match pieces.head?, pieces.getLast? with
  | some p, some q => (List.range (q.start + q.len - p.start)).map fun k => pieceAt pieces (fun e i => (f e).getD i d) d (p.start + k)
  | _, _ => []

/-- The stride that v register `n` of the pieces must have, if one can be fixed (R42). -/
def strideOf (taken : List Entry) (n i0 : Nat) (v0 : W32) : Option W32 :=
  let stride (p : Entry) : Option W32 := match p.regs.getD n (.uni 0) with
    | .uni _ => some 0
    | .aff _ d => some d
    | .den _ => none
  match taken.filter fun p => decide (1 < p.liveCount) with
  | p :: ps => if ps.all fun q => decide (stride q = stride p) then stride p else none
  | [] =>
    (strideSolve ((liveVals taken fun p i => (p.regs.getD n (.uni 0)).at i).map
      fun q => (q.1 - i0, (q.2 - v0).toNat)) 0 1).map fun d => BitVec.ofNat 32 d

/-- The merged form of v register `n` (R42), before normalisation.  `pieces` are in order of range start. -/
def mergeV (pieces : List Entry) (n : Nat) : VReg :=
  let taken := pieces.filter fun p => decide (0 < p.liveCount)
  let vals := liveVals taken fun p i => (p.regs.getD n (.uni 0)).at i
  let a := (pieces.head?.map Entry.start).getD 0
  let len := (pieces.getLast?.map fun q => q.start + q.len - a).getD 0
  let dense := VReg.den ((List.range len).map fun k => pieceAt pieces (fun p i => (p.regs.getD n (.uni 0)).at i) 0 (a + k))
  match vals with
  | [] => .uni 0
  | (i0, v0) :: _ =>
    if taken.all fun p => decide (p.regs.getD n (.uni 0) = .uni v0) then .uni v0
    else if taken.all fun p => decide ((p.regs.getD n (.uni 0)).code ≠ 2) then
      match strideOf taken n i0 v0 with
      | some d =>
        if vals.all fun q => decide (q.2 = v0 + d * BitVec.ofNat 32 (q.1 - i0)) then
          .aff (v0 - d * BitVec.ofNat 32 (i0 - a)) d
        else dense
      | none => dense
    else dense

/-- The merged form of index register `n`: UNI when every piece holds one value, else DEN (R42, R66). -/
def mergeX (pieces : List Entry) (n : Nat) : XReg :=
  let taken := pieces.filter fun p => decide (0 < p.liveCount)
  let a := (pieces.head?.map Entry.start).getD 0
  let len := (pieces.getLast?.map fun q => q.start + q.len - a).getD 0
  match liveVals taken fun p i => (p.xregs.getD n (.uni 0)).at i with
  | [] => .uni 0
  | (_, v0) :: _ =>
    if taken.all fun p => decide (p.xregs.getD n (.uni 0) = .uni v0) then .uni v0
    else .den ((List.range len).map fun k => pieceAt pieces (fun p i => (p.xregs.getD n (.uni 0)).at i) 0 (a + k))

/-- The merged form of predicate `n` (R42). -/
def mergeP (pieces : List Entry) (n : Nat) : PReg :=
  let taken := pieces.filter fun p => decide (0 < p.liveCount)
  let at_ (p : Entry) (i : Nat) : Bool := (p.pred n).at p.start i
  let vals := liveVals taken at_
  let a := (pieces.head?.map Entry.start).getD 0
  let len := (pieces.getLast?.map fun q => q.start + q.len - a).getD 0
  let dense := PReg.den ((List.range len).map fun k => pieceAt pieces at_ false (a + k))
  match vals with
  | [] => .uni false
  | (_, t0) :: _ =>
    if taken.all fun p => decide ((p.pred n).code ≠ 2) then
      match vals.find? fun q => q.2 != t0 with
      | none => .uni t0
      | some (c, _) => if vals.all fun q => decide (q.2 = (if q.1 < c then t0 else !t0)) then .aff c (!t0) else dense
    else dense

/-- Adds counters class by class (R73). -/
def addCounts (a b : List Nat) : List Nat := (List.range 4).map fun k => a.getD k 0 + b.getD k 0

/-- Queue rows of merged pieces from a read position on: each row of the union takes each piece's own row, as far as every piece that
holds a live item has it; what one of them still lacks is fetched for the whole entry (R73). -/
def joinRows (pieces : List Entry) (q popped : Nat) : List (List W64) :=
  let row (p : Entry) (n : Nat) : Option (List W64) := (p.streams.getD q none).bind fun st =>
    if n < st.popped then none else st.queued[n - st.popped]?
  let live := pieces.filter fun p => decide (0 < p.liveCount)
  let depth := ((live.map fun p => ((List.range 17).find? fun k => (row p (popped + k)).isNone).getD 17).foldl min 17) % 17
  (List.range depth).map fun k => pieces.flatMap fun p => (List.range p.len).map fun i => ((row p (popped + k)).getD []).getD i 0

/-- The state that one party of a merge gives (R46, R73): the lowest piece that holds a live item, else the lowest. -/
def leader (pieces : List Entry) : Option Entry :=
  match pieces.find? fun p => decide (0 < p.liveCount) with
  | some p => some p
  | none => pieces.head?

/-- The operations of a party whose open chain a merge breaks (R73). -/
def Entry.brokenOps (e : Entry) : List AsyncOp :=
  e.ops.map fun o => match o.kind with
    | .copy c => if c.link.isSome ∧ e.chain.isOpen ∧ c.chain = e.chain.id then { o with kind := .copy { c with broken := true } } else o
    | _ => o

/-- Puts an operation in order of issue, after those issued in the same clock (R73). -/
def insertOp (o : AsyncOp) : List AsyncOp → List AsyncOp
  | [] => [o]
  | x :: xs => if o.issued < x.issued then o :: x :: xs else x :: insertOp o xs

/-- The operations of two parties by clock of issue, the first party's first within a clock (R73). -/
def joinOps (a b : List AsyncOp) : List AsyncOp := b.foldl (fun l o => insertOp o l) a

/-- Puts a status in order, newest first, keeping for each sequence number the one issued last (R272). -/
def insertStat (x : OpStat) : List OpStat → List OpStat
  | [] => [x]
  | y :: ys =>
    if y.seq = x.seq then (if y.issued < x.issued then insertStat x ys else y :: ys)
    else if y.issued < x.issued then x :: y :: ys.filter fun z => z.seq ≠ x.seq
    else y :: insertStat x ys

/-- The merged status store (R272). -/
def joinStats (a b : List OpStat) : List OpStat := (b.foldl (fun l x => insertStat x l) a).take 256

end Sys2Proof.Machine
end

