-- ==== Sys2Proof/Machine/Operands.lean ====
section
/-!
DEFINITION. Reading sources and writing destinations (R63 to R71, R74, R75, R233), and the faults operands raise.
-/
namespace Sys2Proof.Machine

/-- A fault of an instruction (R395, R396): `item` is the offset of the lowest item concerned. -/
structure FaultInfo where
  code : Nat
  cls : Nat
  cause : Nat := 0
  row : Nat := 0
  hwe : Bool := false
  addr : Nat := 0
  aux : Nat := 0
  item : Option Nat := none
deriving DecidableEq, Repr

/-- Why an instruction does not complete at this issue. -/
inductive Stop where
  | fault (f : FaultInfo)
  /-- It waits, neither issuing nor parked, and issues again from its first clock (R71, R72, R188). -/
  | hold (h : Hold)
deriving DecidableEq, Repr

/-- ILLEGAL, raised at fetch (R151): the record reports a hardware error, and the words fetched stand in ADDR (the first two) and AUX
(the third), the fields that hold what a fault concerns (assumption 46). -/
def illegal (ws : List Nat) : FaultInfo := ⟨1, 2, 0, 0, true, ws.getD 0 0 + ws.getD 1 0 * 2 ^ 32, ws.getD 2 0, none⟩
/-- REGBOUND: in admitted code only a hardware error raises it (R67). -/
def regbound (i : Nat) : FaultInfo := ⟨2, 2, 0, 0, true, 0, 0, some i⟩

/-- UNIFORM_BREACH, with the cause of the outermost masked level, or HWE 1 when no level was masked (R68, R396). -/
def breach (e : Entry) : FaultInfo :=
  match e.levels.reverse.findSome? fun l => match l with
    | .mask _ _ _ c => if c = 0 then none else some c
    | _ => none with
  | some c => ⟨3, 2, c, 0, false, 0, 0, none⟩
  | none => ⟨3, 2, 0, 0, true, 0, 0, none⟩

/-- A value for each offset of the range. -/
def OpVal.build (e : Entry) (f : Nat → W64) : OpVal := .den ((List.range e.len).map f)

def pairWord (lo hi : W32) : W64 := hi ++ lo

/-- A v register or pair as an operand (R31, R35, R65). -/
def Entry.readV (e : Entry) (n : Nat) (wide : Bool) : OpVal :=
  let r := e.regs.getD n (.uni 0)
  if wide then
    let h := e.regs.getD (n + 1) (.uni 0)
    match r, h with
    | .uni a, .uni b => .uni (pairWord a b)
    | _, _ => .build e fun i => pairWord (r.at i) (h.at i)
  else r.toVal

/-- The register that v[xk+o] reaches in the item at an offset, if it is in bounds (R67). -/
def Entry.target (e : Entry) (k o nregs : Nat) (wide : Bool) (i : Nat) : Option Nat :=
  let x := ((e.xregs.getD k (.uni 0)).at i).toNat
  let t := x % 256 + o
  if x / 256 % 256 ≤ t ∨ nregs ≤ t ∨ (wide ∧ t % 2 ≠ 0) then none else some t

/-- The lowest item acted on whose index register is out of bounds. -/
def Entry.outOfBounds (e : Entry) (k o nregs : Nat) (wide : Bool) (acting : List Nat) : Option Nat :=
  acting.find? fun i => (e.target k o nregs wide i).isNone

/-- Reads an operand reached through an index register (R67). -/
def Entry.readInd (e : Entry) (k o nregs : Nat) (wide : Bool) (acting : List Nat) : Except Stop OpVal :=
  match e.outOfBounds k o nregs wide acting with
  | some i => .error (.fault (regbound i))
  | none =>
    match e.xregs.getD k (.uni 0), acting with
    | _, [] => .ok (.uni 0)
    | .uni _, i :: _ => .ok (e.readV ((e.target k o nregs wide i).getD 0) wide)
    | .den _, _ => .ok (.build e fun i => match e.target k o nregs wide i with
        | some t => (e.readV t wide).at i
        | none => 0)

/-- A predicate read as a value (R70). -/
def Entry.readPred (e : Entry) (n : Nat) : OpVal :=
  match e.pred n with
  | .uni t => .uni (if t then 1 else 0)
  | r => .build e fun i => if r.at e.start i then 1 else 0

/-- Pops one row of a stream queue (R71): the value, or zeros with XFLAG once the stream has delivered all. -/
def Entry.popQueue (e : Entry) (q : Nat) : Except Stop (Entry × OpVal) :=
  match e.streams.getD q none with
  | none => .ok (e.setX, .build e fun _ => 0)
  | some st =>
    match st.queued with
    | row :: rest =>
      .ok ({ e with streams := e.streams.set q (some { st with queued := rest, popped := st.popped + 1 }) }, .den row)
    | [] =>
      if st.ended || decide (st.total ≤ st.fetched) then .ok (e.setX, .build e fun _ => 0)
      else .error (.hold (.queue q))

/-- Reads a source at 64 bits (`wide`) or at 32 (R63); the entry changes only by a pop. -/
def Entry.readSpec (e : Entry) (nregs : Nat) (acting : List Nat) (lit : W64) (wide : Bool) (sp : Spec) :
    Except Stop (Entry × OpVal) :=
  match sp with
  | .v n => .ok (e, e.readV n wide)
  | .s n => let w := e.scalars.getD n 0; .ok (e, .uni (if wide then w else (w.setWidth 32).setWidth 64))
  | .x n => .ok (e, match e.xregs.getD n (.uni 0) with
      | .uni w => .uni (w.setWidth 64)
      | .den vs => .den (vs.map fun x => x.setWidth 64))
  | .q n => e.popQueue n
  | .p n => .ok (e, e.readPred n)
  | .lit => .ok (e, .uni (if wide then lit else (lit.setWidth 32).setWidth 64))
  | .zero => .ok (e, .uni 0)
  | .ind k o => (e.readInd k o nregs wide acting).map fun v => (e, v)

/-! ### Permutation modifiers (R48, R49, R74, R75) -/

/-- The position that a modified read by position `p` reaches in a strand of width `w`, none when out of range. -/
def permSource (m : Perm) (w p : Nat) : Option Nat :=
  match m with
  | .none => some p
  | .bfly k => if 2 ^ k.val < w then some (p ^^^ 2 ^ k.val) else none
  | .rot8 k => some (p / 8 * 8 + (p + k.val) % 8)
  | .rev => some (w - 1 - p)
  | .bcast j => if j.val < w then some j.val else none

/-- The offset of a position if it holds a live item of the entry (R49). -/
def Entry.atPos (e : Entry) (p : Nat) : Option Nat :=
  if e.start ≤ e.wstart + p ∧ e.live (e.wstart + p - e.start) then some (e.wstart + p - e.start) else none

/-- What a reader at offset `i` reads from position `src` of a value, and whether XFLAG is set (R49). -/
def Entry.crossRead (e : Entry) (v : OpVal) (src : Option Nat) (i : Nat) : W64 × Bool :=
  match src with
  | none => (v.at i, true)
  | some p =>
    if e.width ≤ p then (v.at i, true)
    else match e.atPos p with
      | some j => (v.at j, false)
      | none => (0, true)

/-- A source A read through a modifier (R74, R75).  Where a UNI source is not 0 and every item acted on reads 0 from a dead or sibling
position, R75's row says UNI (every item reads the same value) and DEN (some item reads 0): the model takes UNI, which has the same
value in every item (DESIGN CHOICE, assumption 45). -/
def Entry.permute (e : Entry) (m : Perm) (acting : List Nat) (v : OpVal) : Entry × OpVal :=
  match m, acting with
  | .none, _ => (e, v)
  | _, [] => (e, v)
  | m, i0 :: _ =>
    let rd (i : Nat) : W64 × Bool := e.crossRead v (permSource m e.width (e.posOf i)) i
    let e' := if acting.any fun i => (rd i).2 then e.setX else e
    let one := acting.all fun i => decide ((rd i).1 = (rd i0).1)
    let inRange := match m with
      | .bcast j => decide (j.val < e.width)
      | _ => false
    if inRange || (v.isUni && one) then (e', .uni (rd i0).1)
    else (e', .build e fun i => (rd i).1)

/-! ### Destinations -/

/-- What a write covers: none for the whole register, else the offsets acted on (R35, R70). -/
def Entry.cover (e : Entry) (pi : Nat) (pn : Bool) (acting : List Nat) : Option (List Nat) :=
  if e.masked || !e.guardUni pi pn then some acting else none

/-- Writes a 32-bit value to v register `n`. -/
def Entry.putVal (e : Entry) (n : Nat) (v : OpVal) (items : Option (List Nat)) : Entry :=
  let r : VReg := match v with
    | .uni w => .uni (w.setWidth 32)
    | .aff b d => .aff b d
    | .den vs => .den (vs.map fun x => x.setWidth 32)
  e.putV n r items

/-- Writes a value to v register `n`, or a 64-bit value to the pair it starts (R65). -/
def Entry.putVW (e : Entry) (n : Nat) (wide : Bool) (v : OpVal) (items : Option (List Nat)) : Entry :=
  if wide then
    let hi : OpVal := match v with
      | .uni w => .uni (w >>> 32)
      | v => .build e fun i => v.at i >>> 32
    let lo : OpVal := match v with
      | .uni w => .uni w
      | v => .build e fun i => v.at i
    (e.putVal n lo items).putVal (n + 1) hi items
  else e.putVal n v items

/-- How a 32-bit result fills the scalar's high half (R68). -/
def widenScalar (wide sg : Bool) (w : W64) : W64 :=
  if wide then w else if sg then (w.setWidth 32).signExtend 64 else (w.setWidth 32).setWidth 64

/-- The value a write to a scalar stores, if it is UNI (R34, R68). -/
def Entry.uniOf (e : Entry) (v : OpVal) (items : Option (List Nat)) : Option W64 :=
  match items, v, e.single with
  | none, .uni w, _ => some w
  | none, v, some i => some (v.at i)
  | some _, v, some i => some (v.at i)
  | _, _, _ => none

/-- A value as a predicate: true where it is not zero (R70). -/
def OpVal.asPreg (e : Entry) : OpVal → PReg
  | .uni w => .uni (w != 0)
  | v => .den ((List.range e.len).map fun i => v.at i != 0)

/-- A value as an index register, UNI or DEN (R66). -/
def OpVal.asXreg (e : Entry) : OpVal → XReg
  | .uni w => .uni (w.setWidth 32)
  | v => .den ((List.range e.len).map fun i => (v.at i).setWidth 32)

/-- Writes a result to a destination (R63, R65 to R70).  `wide` is its width, `sg` its extension in a scalar, `items` what
the write covers. -/
def Entry.writeSpec (e : Entry) (nregs : Nat) (acting : List Nat) (wide sg : Bool) (items : Option (List Nat)) (sp : Spec)
    (v : OpVal) : Except Stop Entry :=
  match sp with
  | .v n => .ok (e.putVW n wide v items)
  | .s n =>
    match e.uniOf v items with
    | some w => .ok (e.putS n (widenScalar wide sg w))
    | none => .error (.fault (breach e))
  | .p n =>
    .ok (e.putP n (v.asPreg e) items)
  | .x n =>
    .ok (e.putX n (v.asXreg e) items)
  | .ind k o =>
    match e.outOfBounds k o nregs wide acting with
    | some i => .error (.fault (regbound i))
    | none =>
      match e.xregs.getD k (.uni 0), acting with
      | _, [] => .ok e
      | .uni _, i :: _ => .ok (e.putVW ((e.target k o nregs wide i).getD 0) wide v items)
      | .den _, _ =>
        .ok ((acting.filterMap (e.target k o nregs wide)).eraseDups.foldl (fun x t =>
          x.putVW t wide v (some (acting.filter fun i => decide (e.target k o nregs wide i = some t)))) e)
  | .q _ | .lit | .zero => .ok e

/-- One value written to every item of the entry (R172, R207, R233): the bounds of an index register are tested for the items
acted on alone, and each live item that a register is within reach of receives it (R67). -/
def Entry.writeEvery (e : Entry) (nregs : Nat) (acting : List Nat) (wide sg : Bool) (sp : Spec) (w : W64) : Except Stop Entry :=
  match sp with
  | .ind k o =>
    match e.outOfBounds k o nregs wide acting with
    | some i => .error (.fault (regbound i))
    | none => e.writeSpec nregs (e.liveList.filter fun i => (e.target k o nregs wide i).isSome) wide sg none sp (.uni w)
  | _ => e.writeSpec nregs acting wide sg none sp (.uni w)

/-- A status or a count, written UNI to every item of the entry (R233, R271). -/
def Entry.writeAll (e : Entry) (nregs : Nat) (wide : Bool) (sp : Spec) (w : W64) : Except Stop Entry :=
  e.writeEvery nregs e.activeList wide false sp w

/-- The v, x, s and p registers that a specifier reaches, as kind and number (R59, R61). -/
def Entry.reached (e : Entry) (nregs : Nat) (acting : List Nat) (wide : Bool) (sp : Spec) : List (Nat × Nat) :=
  let vs (n : Nat) : List (Nat × Nat) := if wide then [(0, n), (0, n + 1)] else [(0, n)]
  match sp with
  | .v n => vs n
  | .x n => [(1, n.val)]
  | .s n => [(2, n.val)]
  | .p n => [(3, n.val)]
  | .ind k o => (1, k.val) :: ((acting.filterMap (e.target k o nregs wide)).eraseDups.flatMap vs)
  | _ => []

end Sys2Proof.Machine
end

