-- ==== Sys2Proof/Machine/Ops.lean ====
section
/-!
DEFINITION. The operations the meanings share: finding and changing the parts of the state, ending items, barriers, taking a
fault and returning from one, completing a wait, and the passing of time (R29, R30, R41, R52, R236 to R240, R288, R291,
R394 to R396, R400).
-/
namespace Sys2Proof.Machine

/-! ### Parts of the state -/

def State.slot (s : State) (core num : Nat) : Option Slot :=
  s.slots.find? fun x => decide (x.core = core) && decide (x.num = num)
def Slot.entry (x : Slot) (pos : Nat) : Option Entry := x.entries.find? fun e => decide (e.pos = pos)
def State.entry (s : State) (r : EntryRef) : Option Entry := (s.slot r.core r.slot).bind fun x => x.entry r.pos

def Slot.modEntry (x : Slot) (pos : Nat) (f : Entry → Entry) : Slot :=
  { x with entries := x.entries.map fun e => if e.pos = pos then f e else e }
def State.modSlot (s : State) (core num : Nat) (f : Slot → Slot) : State :=
  { s with slots := s.slots.map fun x => if x.core = core ∧ x.num = num then f x else x }
def State.modEntry (s : State) (r : EntryRef) (f : Entry → Entry) : State :=
  s.modSlot r.core r.slot fun x => x.modEntry r.pos f
/-- Puts an entry in the place of the one of its position. -/
def State.setEntry (s : State) (r : EntryRef) (e : Entry) : State := s.modEntry r fun _ => e

/-- Every resident entry. -/
def State.entryRefs (s : State) : List EntryRef := s.slots.flatMap fun x => x.entries.map fun e => ⟨x.core, x.num, e.pos⟩

/-- Changes every resident entry. -/
def State.mapEntries (s : State) (f : Slot → Entry → Entry) : State :=
  { s with slots := s.slots.map fun x => { x with entries := x.entries.map (f x) } }

def State.flightOf (s : State) (id : Nat) : Option Flight := s.flights.find? fun f => decide (f.id = id)
def State.modFlight (s : State) (id : Nat) (f : Flight → Flight) : State :=
  { s with flights := s.flights.map fun x => if x.id = id then f x else x }
def State.launchOf (s : State) (tag : Nat) : Option Launch := s.launches.find? fun l => decide (l.tag = tag)
def State.modLaunch (s : State) (tag : Nat) (f : Launch → Launch) : State :=
  { s with launches := s.launches.map fun x => if x.tag = tag then f x else x }
def State.kernelOf (s : State) (fn : Nat) (kid : W64) : Option Kernel :=
  s.kernels.find? fun k => decide (k.fn = fn) && decide (k.kid = kid)

def State.fnBlock (s : State) (f : Nat) : FnBlock := s.queue.fns.getD f {}
def State.modFn (s : State) (f : Nat) (g : FnBlock → FnBlock) : State :=
  { s with queue := { s.queue with fns := s.queue.fns.set f (g (s.fnBlock f)) } }
def State.part (s : State) (p : Nat) : Partition := s.oper.parts.getD p {}
def State.modPart (s : State) (p : Nat) (g : Partition → Partition) : State :=
  { s with oper := { s.oper with parts := s.oper.parts.set p (g (s.part p)) } }

/-- The entry an instruction acts for, with what it belongs to. -/
structure Ctx where
  s : State
  ref : EntryRef
  slot : Slot
  e : Entry
  fl : Flight
  la : Launch
  ke : Kernel

/-- An entry with its slot, flight, launch and kernel. -/
def State.ctxAt (s : State) (r : EntryRef) : Option Ctx := do
  let x ← s.slot r.core r.slot
  let e ← x.entry r.pos
  let fl ← s.flightOf x.flight
  let la ← s.launchOf fl.tag
  let ke ← s.kernelOf la.fn la.kid
  pure ⟨s, r, x, e, fl, la, ke⟩

/-- A parked access belongs to an entry of its flight (R130). -/
def Replay.mine (r : Replay) (flight : Nat) (e : Entry) : Bool :=
  decide (r.kind ≤ 2 ∧ r.flight = flight ∧ e.start ≤ r.item ∧ r.item < e.start + e.len)

/-- The accesses of an entry that have not been performed: parked, or on their way to a line in the Gondola (R124, R130). -/
def State.unsettled (s : State) (x : Slot) (e : Entry) : List Replay :=
  ((s.core x.core).replay ++ (s.core x.core).flying).filter fun r => r.mine x.flight e

/-- An access of the entry has not completed (R344): it is parked, or it is a load or an atomic on its way.  A store on its way has
been accepted (R349). -/
def State.outstanding (s : State) (x : Slot) (e : Entry) : Bool :=
  ((s.core x.core).replay.any fun r => r.mine x.flight e) || (s.core x.core).flying.any fun r => decide (r.kind ≠ 1) && r.mine x.flight e

/-- An entry waits behind an access that has not completed (R344): a parked one, or a load or an atomic on its way, once as many
instructions as its independence count have issued after it.  A store on its way has been accepted (R349). -/
def State.gated (s : State) (x : Slot) (e : Entry) : Bool :=
  ((s.core x.core).replay.any fun r => decide (r.left = 0) && r.mine x.flight e) ||
  (s.core x.core).flying.any fun r => decide (r.left = 0 ∧ r.kind ≠ 1) && r.mine x.flight e

/-- Registers that the kernel of an entry allocates (R65). -/
def State.regsOf (s : State) (r : EntryRef) : Nat := ((s.ctxAt r).map fun c => c.ke.regs).getD 128

/-- The entry that issues: `cur`, when it is ready (R30). -/
def State.here (s : State) : Option Ctx :=
  match s.ctxAt s.cur with
  | some c => if c.e.status = .ready then some c else none
  | none => none

/-- An instruction's meaning over the entry that issues it; none can issue without one. -/
def State.issue (s : State) (f : Ctx → State) : Host.Outcome State Fault Refusal :=
  match s.here with
  | some c => .next (f c)
  | none => .fault .noEntry

/-- Owner, function, tether share and class of an entry's requests (R111, R435). -/
def Ctx.agent (c : Ctx) : Agent :=
  ⟨c.la.owner, c.la.fn, if c.la.owner = 0 then 0xFE else (c.s.part c.fl.part).cur.tshare, c.la.cls, c.ref.core / 24⟩

/-- The column of a slot: both slots of a column are used before the next (R29).  The spec gives the trap handler's own slot no
column; the model gives it column 0 (DESIGN CHOICE, assumption 10). -/
def columnOf (slot : Nat) : Nat := slot / 2 % 64

/-- Where the lower core's half of a flight's scratchpad ends (R81). -/
def Flight.half (f : Flight) : Nat := ceilDiv (ceilDiv f.spadSize 2) 128 * 128

/-- The core whose engine writes a tile (R77). -/
def Flight.tileCore (f : Flight) (n : Nat) : Nat := if f.pair then f.core + n % 2 else f.core

/-- The banks that a piece of the pool touches (R78). -/
def Core.banksOf (c : Core) (a : Alloc) : List Nat :=
  let base := if a.part = 0 then 0 else if a.part = 1 then c.rfg else c.rfg + c.acg
  if a.len = 0 then [] else
  (List.range ((a.start + a.len - 1) / 65536 - a.start / 65536 + 1)).map fun k => base + a.start / 65536 + k

/-- Every bank that pieces of the pool touch is live (R85). -/
def State.banksLive (s : State) (as : List Alloc) : Bool :=
  as.all fun a => ((s.core a.core).banksOf a).all fun b => decide ((s.core a.core).banks.getD b .live = .live)

/-! ### Retiring (R30) -/

/-- The entry after an instruction of `words` words that does not transfer control. -/
def Entry.advance (e : Entry) (words : Nat) : Entry := { e with pc := e.pc + 4 * words, retired := e.retired + 1 }
/-- The entry after an instruction that transfers control to an address. -/
def Entry.jump (e : Entry) (pc : Nat) : Entry := { e with pc := pc % 2 ^ 64, retired := e.retired + 1 }
def Ctx.put (c : Ctx) (e : Entry) : State := c.s.setEntry c.ref e

/-! ### Barriers (R236 to R240) -/

def Flight.word (fl : Flight) (off : Nat) : Nat := leNat (Memory.readN fl.spad off 8)
def Flight.setWord (fl : Flight) (off w : Nat) : Flight := { fl with spad := Memory.writeN fl.spad off (leBytes 8 w) }

/-- A barrier word from its fields (R236). -/
def barWord (expect arrived phase : Nat) : Nat :=
  expect % 2 ^ 24 + arrived % 2 ^ 24 * 2 ^ 24 + phase % 2 ^ 15 * 2 ^ 48 + 2 ^ 63

/-- The loop of R238 from given fields, with `due` decrements of EXPECT after the first completion (R240):
EXPECT, ARRIVED, PHASE and the decrements still due. -/
def barLoop (expect arrived phase due : Nat) : Nat × Nat × Nat × Nat :=
  if expect = 0 then (0, arrived, (phase + 1) % 2 ^ 15, 0)
  else if arrived < expect then (expect, arrived, phase, due)
  else
    let a := arrived - expect
    let x := expect - due
    if x = 0 then (0, a, (phase + 2) % 2 ^ 15, 0)
    else (x, a % x, (phase + 1 + a / x) % 2 ^ 15, 0)

/-- `k` arrivals at a barrier of the flight (R238). -/
def Flight.arrive (fl : Flight) (b : Barrier) (k : Nat) : Flight :=
  let w := fl.word b.off
  let (x, a, p, d) := barLoop (bits w 0 24) (bits w 24 24 + k) (bits w 48 15) b.due
  { fl.setWord b.off (barWord x a p) with
    bars := fl.bars.map fun y => if y.off = b.off then { y with due := d } else y }

/-- One item of the flight has died or ended: the adjustment of one `.items` barrier (R240). -/
def Flight.loseItem (fl : Flight) (idx off : Nat) : Flight :=
  match fl.bars.find? fun b => decide (b.off = off) && b.items with
  | none => fl
  | some b =>
    let w := fl.word off
    let expect := bits w 0 24
    if expect = 0 then fl
    else if b.arrived.contains (idx, bits w 48 15) then
      { fl with bars := fl.bars.map fun y => if y.off = off then { y with due := y.due + 1 } else y }
    else
      let fl := fl.setWord off (barWord (expect - 1) (bits w 24 24) (bits w 48 15))
      if bits w 24 24 < expect - 1 then fl else fl.arrive b 0

/-- Items of the flight have died or ended (R240). -/
def Flight.loseItems (fl : Flight) (idxs : List Nat) : Flight :=
  idxs.foldl (fun fl i => fl.bars.foldl (fun g b => g.loseItem i b.off) fl) fl

/-! ### Waits that complete (R53, R54, R232, R233) -/

/-- A parked entry completes its wait with a status, and is ready at the next instruction.  A status that cannot be
written leaves it ready at the wait, which issues again. -/
def Entry.completeWait (e : Entry) (nregs words : Nat) (d : Spec) (wide : Bool) (w : W64) : Entry :=
  match e.writeAll nregs wide d w with
  | .ok x => { x.advance words with status := .ready }
  | .error _ => { e with status := .ready }

/-- Words of a form (R138). -/
def longWords (o : Long) : Nat :=
  match o.form with
  | .len01 | .len10 => 3
  | .len11 => 5

/-- The BARW of an entry is satisfied by the flight's barrier words (R239). -/
def barDone (fl : Flight) (off phase : Nat) : Bool := decide (bits (fl.word off) 48 15 ≠ phase % 2 ^ 15)

/-- The acquire of flight scope: in a pair flight the clean copies of both cores go, so that R118 holds between them (R124,
assumption 6). -/
def State.acquireFlight (s : State) (fl : Flight) : State :=
  if fl.pair then (s.acquireCore fl.core).acquireCore (fl.core + 1) else s

/-- A BARW of the flight whose phase has completed (R239). -/
def barwMet (fl : Flight) (e : Entry) : Bool :=
  match e.status with
  | .parked (.barw _ off phase) _ => barDone fl off phase
  | _ => false

/-- The BARW of an entry completes. -/
def Entry.endBarw (e : Entry) (nregs : Nat) : Entry :=
  match e.status with
  | .parked (.barw o _ _) _ => e.completeWait nregs (longWords o) o.d false 0
  | _ => e

/-- Entries of the flight that wait at BARW for a phase that has completed become ready (R239). -/
def State.wakeBars (s : State) (fid : Nat) : State :=
  match s.flightOf fid with
  | none => s
  | some fl =>
    let s := if s.slots.any fun x => decide (x.flight = fid) && x.entries.any (barwMet fl) then s.acquireFlight fl else s
    { s with slots := s.slots.map fun x =>
        if x.flight ≠ fid then x else
        { x with entries := x.entries.map fun e => if barwMet fl e then e.endBarw (s.regsOf ⟨x.core, x.num, e.pos⟩) else e } }

/-- A phase of one of the flight's barriers has completed between two states of the flight. -/
def phaseEnded (fl g : Flight) : Bool := fl.bars.any fun b => decide (bits (fl.word b.off) 48 15 ≠ bits (g.word b.off) 48 15)

/-- Changes the barrier words of a flight; a completed phase restarts the retired counts of its entries (R30) and wakes the
entries that wait for it (R239). -/
def State.modBars (s : State) (fid : Nat) (f : Flight → Flight) : State :=
  match s.flightOf fid with
  | none => s
  | some fl =>
    let t := s.modFlight fid fun _ => f fl
    let t := if phaseEnded fl (f fl) then t.mapEntries fun x e => if x.flight = fid then { e with retired := 0 } else e else t
    t.wakeBars fid

/-! ### Ending (R41, R59, R394) -/

/-- Levels of an ended piece: its cut is the most recent left (R41). -/
def dropMasks : List Level → List Level
  | .mask _ _ _ _ :: ls => dropMasks ls
  | ls => ls

/-- An entry none of whose items is left counts as arrived at its cut's JOIN, or has ended (R41). -/
def Entry.close (e : Entry) : Entry :=
  if e.liveCount = 0 then { e with status := .done, levels := dropMasks e.levels } else e

/-- An entry is over: none of its items is left, and it has no operation and no access outstanding (R41, R349). -/
def State.spent (s : State) (x : Slot) (e : Entry) : Bool :=
  decide (e.status = .done) && e.ops.isEmpty && (s.unsettled x e).isEmpty

/-- The parts of a slot that are over and hold nothing are dropped (R41). -/
def State.reapSlot (s : State) (x : Slot) : Slot :=
  { x with entries := if x.entries.all (s.spent x) then [] else x.entries.filter fun e => !(s.spent x e && e.levels.isEmpty) }

/-- Frees slots that hold nothing, and flights that hold no slot (R28, R41). -/
def State.reap (s : State) : State :=
  let slots := (s.slots.map s.reapSlot).filter fun x => !x.entries.isEmpty
  let stays (f : Flight) : Bool := decide (f.state = .saved) || slots.any fun x => decide (x.flight = f.id)
  { s with slots := slots,
           flights := s.flights.filter stays,
           remains := s.remains ++ s.flights.filter fun f => !stays f && !(f.tiles.isEmpty && f.spad.isEmpty) }

/-- Ends (or kills, when `die`) the items at some offsets of an entry (R41, R59). -/
def State.endItems (s : State) (r : EntryRef) (offs : List Nat) (die : Bool) : State :=
  match s.slot r.core r.slot, s.entry r with
  | some x, some e =>
    let hit (l : List Bool) : List Bool := (List.range e.len).map fun i => l.getD i false || offs.contains i
    let e' := if die then { e with dead := hit e.dead } else { e with ended := hit e.ended }
    ((s.setEntry r e'.close).modBars x.flight fun f => f.loseItems (offs.map fun i => e.start + i)).reap
  | _, _ => s

/-- The launch indices of the live items of a slot. -/
def Slot.liveItems (x : Slot) : List Nat := x.entries.flatMap fun e => ((List.range e.len).filter e.live).map fun i => e.start + i

/-- An entry whose items have all ended by a strand kill. -/
def Entry.endAll (e : Entry) : Entry :=
  { e with ended := (List.range e.len).map fun i => e.ended.getD i false || e.live i, status := .done, levels := [] }

/-- Strand kill: every entry of the slot ends (R394, class 2). -/
def State.killSlot (s : State) (core num : Nat) : State :=
  match s.slot core num with
  | none => s
  | some x => ((s.modSlot core num fun x => { x with entries := x.entries.map Entry.endAll }).modBars x.flight fun f =>
      f.loseItems x.liveItems).reap

/-- An entry holds a launch index. -/
def Entry.holdsItem (e : Entry) (item : Nat) : Bool := decide (e.start ≤ item) && decide (item < e.start + e.len)

/-- Strand kill of the strand of a flight that holds an item, resident or saved (R385, R394, class 2); a saved flight with no strand
left is over. -/
def State.killStrand (s : State) (flight item : Nat) : State :=
  let has (x : Slot) : Bool := x.entries.any fun e => e.holdsItem item
  match s.slots.find? fun x => decide (x.flight = flight) && has x with
  | some x => s.killSlot x.core x.num
  | none => match s.flightOf flight with
    | none => s
    | some fl => match fl.saved.find? has with
      | none => s
      | some x =>
        let rest := fl.saved.filter fun y => !has y
        if rest.isEmpty then { s with flights := s.flights.filter fun f => f.id ≠ flight }
        else s.modBars flight fun f => ({ f with saved := rest } : Flight).loseItems x.liveItems

/-- The flights of a launch. -/
def State.flightsOf (s : State) (tag : Nat) : List Nat := (s.flights.filter fun f => decide (f.tag = tag)).map Flight.id

/-! ### Operations of a killed context (R132, R280, R297) -/

/-- The resident entry that holds an operation (R272). -/
def State.opAt (s : State) (id : Nat) : Option (EntryRef × AsyncOp) :=
  s.slots.findSome? fun x => x.entries.findSome? fun e =>
    (e.ops.find? fun o => decide (o.id = id)).map fun o => (⟨x.core, x.num, e.pos⟩, o)

/-- The entry of a saved flight that holds an operation (R282): flight and operation. -/
def State.savedOp (s : State) (id : Nat) : Option (Nat × AsyncOp) :=
  s.flights.findSome? fun f => f.saved.findSome? fun x => x.entries.findSome? fun e =>
    (e.ops.find? fun o => decide (o.id = id)).map fun o => (f.id, o)

/-- The agent of a flight's requests (R111, R435). -/
def State.agentOf (s : State) (f : Flight) : Agent :=
  match s.launchOf f.tag with
  | some la => ⟨la.owner, la.fn, if la.owner = 0 then 0xFE else (s.part f.part).cur.tshare, la.cls, f.core / 24⟩
  | none => ⟨0, 0, 0xFE, 0, 0⟩

/-- Where a use's result goes: address and bytes (R279). -/
def CollOp.result (c : CollOp) : Nat × Nat :=
  let n := c.count * c.ty.bytes
  match c.kind with
  | 0 | 1 => (c.buf, n)
  | 2 => (c.buf, c.parts * n)
  | _ => (c.buf + c.rank * n, n)

/-- The flight that holds an operation, resident or saved. -/
def State.flightWith (s : State) (id : Nat) : Option Flight :=
  let has (x : Slot) : Bool := x.entries.any fun e => e.ops.any fun o => decide (o.id = id)
  match s.slots.find? has with
  | some x => s.flightOf x.flight
  | none => s.flights.find? fun f => f.saved.any has

/-- The partial results of a use that is abandoned are undefined in value (R280). -/
def State.garble (s : State) (id : Nat) : State :=
  match s.flightWith id, (s.opAt id).map (fun x => x.2) <|> (s.savedOp id).map fun x => x.2 with
  | some f, some o => match o.kind with
    | .coll c =>
      (match s.check (s.agentOf f) none .store c.result.1 c.result.2 1 with
      | .ok ps => let t := s.writePieces ps (freeData s.draws c.result.2); { t with draws := t.draws + 1 }
      | _ => s)
    | _ => s
  | _, _ => s

/-- What a killed context leaves of its collectives: each is aborted, cause CONTEXT_KILLED, and its buffer holds any values (R280,
R297). -/
def State.garbleFlights (s : State) (gone : Nat → Bool) : State :=
  let ids (xs : List Slot) : List Nat := xs.flatMap fun x => x.entries.flatMap fun e => (e.ops.filter fun o => match o.kind with
    | .coll _ => !o.done
    | _ => false).map AsyncOp.id
  (ids (s.slots.filter fun x => gone x.flight) ++ s.flights.flatMap fun f => if gone f.id then ids f.saved else []).foldl State.garble s

/-- The operations of a flight, resident or saved. -/
def State.opIds (s : State) (gone : Nat → Bool) : List Nat :=
  let of (xs : List Slot) : List Nat := xs.flatMap fun x => x.entries.flatMap fun e => e.ops.map AsyncOp.id
  of (s.slots.filter fun x => gone x.flight) ++ s.flights.flatMap fun f => if gone f.id then of f.saved else []

/-- Context kill: every flight of the launch stops, saved records are discarded, and the launch gives up its tag (R394, class
3; R132, R297, R380).  It is kept under a number above every tag until its completion record has been written. -/
def State.killLaunch (s : State) (tag : Nat) : State :=
  let ids := s.flightsOf tag
  let gone (id : Nat) : Bool := ids.contains id
  let key := 65536 + s.nextId
  let lost := s.opIds gone
  let s := s.garbleFlights gone
  { s with
    nextId := s.nextId + 1
    slots := s.slots.filter fun x => !gone x.flight
    flights := s.flights.filter fun f => decide (f.tag ≠ tag)
    cores := s.cores.map fun c => { c with
      queue := c.queue.filter fun q => !gone q.flight, drains := c.drains.filter fun q => !gone q.flight,
      flying := c.flying.filter fun r => !gone r.flight }
    launches := s.launches.map fun l =>
      if l.tag = tag then { l with tag := key, killed := true, next := l.n, relaunch := [], recs := [] } else l
    thx := { s.thx with reqs := s.thx.reqs.filter fun r => match r.chunk with
      | some (op, _) => !lost.contains op
      | none => true }
    queue := { s.queue with
      started := s.queue.started.map fun p => if p.tag = some tag then { p with tag := some key } else p
      faults := s.queue.faults.map fun f => if f.launch ∧ f.tag = tag then { f with tag := key } else f } }

/-! ### Fault records (R395) -/

/-- A write by firmware into a function's own ring or record; the physical function's lie in HOSTV frames (R422). -/
def State.fnWrite (s : State) (fn va align : Nat) (bs : List Byte) : Option State :=
  match s.devPieces ⟨fn, fn, 0xFE, 0, 0⟩ .store va bs.length align with
  | .error _ => none
  | .ok (t, ps) =>
    if fn = 0 ∧ !(ps.all fun p => decide (t.fat (p.1 / 65536) / 8 % 2 = 1)) then none else some (t.writeFor fn ps bs)

/-- WHERE of a slot (R286). -/
def whereOf (core slot : Nat) : Nat := core + columnOf slot * 256 + slot % 2 * 65536

/-- Use of a unit of the patrol by an owner (R456). -/
def State.useUnit (s : State) (u owner : Nat) : State :=
  { s with fleet := { s.fleet with patUnits := s.fleet.patUnits.modify u fun x => { x with owners := x.owners ||| 2 ^ owner } } }

/-- The 64 bytes of a fault record (R395). -/
def recordBytes (recno code cls : Nat) (res hwe : Bool) (row cause owner : Nat) (kid : W64) (lseq flight item pc addr aux
    wh time : Nat) : List Byte :=
  leBytes 4 recno ++ leBytes 1 code ++ leBytes 1 (cls % 8 + (if res then 8 else 0) + (if hwe then 16 else 0)) ++
  leBytes 1 (row % 16 + cause % 16 * 16) ++ leBytes 1 (owner % 16) ++ leBytes 8 kid.toNat ++ leBytes 4 lseq ++
  leBytes 4 flight ++ leBytes 4 item ++ leBytes 4 pc ++ leBytes 8 addr ++ leBytes 4 aux ++ leBytes 4 wh ++
  leBytes 8 time ++ leBytes 8 0

/-- Writes a record into the ring of a function and counts it (R395).  FLTBASE 0 keeps it in the device. -/
def State.writeRecord (s : State) (fn : Nat) (bs : List Byte) : State :=
  let b := s.fnBlock fn
  let s := s.modFn fn fun b => { b with recno := (b.recno + 1) % 2 ^ 32 }
  if b.fltbase = 0 then s
  else match s.fnWrite fn (b.fltbase.toNat + 64 * (b.recno % 1024)) 1 bs with
    | some t => t.modFn fn fun b => { b with fltcnt := (b.fltcnt + 1) % 2 ^ 16 }
    | none => s

/-- Faults that may resume: WATCHDOG, USER_TRAP, HAZARD and TETHER_STALL (R52, R163, R352, R396; assumption 9). -/
def resumable (code : Nat) : Bool := code = 4 || code = 5 || code = 18 || code = 19

/-- Word 0 of an activation (R288). -/
def activation (kind code slot entry recno : Nat) (pair : Bool) : W64 :=
  BitVec.ofNat 64 (kind + code * 2 ^ 4 + slot % 128 * 2 ^ 12 + entry * 2 ^ 19 + (if pair then 2 ^ 22 else 0) + recno * 2 ^ 32)

/-- An activation joins the core's queue; a handler entry held on TRAPQ proceeds (R288). -/
def State.activate (s : State) (core : Nat) (w0 w1 : W64) : State :=
  let s := s.modCore core fun c => { c with trapq := c.trapq ++ [(w0, w1)] }
  { s with slots := s.slots.map fun x =>
      if x.core ≠ core then x else
      { x with entries := x.entries.map fun e => if e.status = .held .trapq then { e with status := .ready } else e } }

/-- Writes the record of a fault of an entry, keeps it when it stays open, and tells the handler (R288, R395). -/
def Ctx.record (c : Ctx) (f : FaultInfo) : State :=
  let s := c.s
  let recno := (s.fnBlock c.la.fn).recno
  let item := c.e.start + f.item.getD (c.e.activeList.headD 0)
  let s := s.writeRecord c.la.fn (recordBytes recno f.code f.cls (resumable f.code) f.hwe f.row f.cause c.la.owner c.la.kid
    c.la.seqNo c.fl.num item ((c.e.pc - c.ke.code) / 4) f.addr f.aux (whereOf c.ref.core c.ref.slot) s.clock)
  let kept : List FaultRec := if 3 ≤ f.cls ∨ resumable f.code then
    [⟨c.la.fn, recno, f.code, f.cls, resumable f.code, true, c.fl.tag, c.fl.id, item, true⟩] else []
  let s := { s with
    queue := { s.queue with faults := s.queue.faults ++ kept }
    sec := if f.code = 22 then { s.sec with integ := min (s.sec.integ + 1) (2 ^ 32 - 1) } else s.sec }
  s.activate c.ref.core (activation 1 f.code c.ref.slot c.ref.pos recno false) 0

/-- What a fault of a class does to the entry that met it (R394). -/
def State.strike (s : State) (r : EntryRef) (tag cls : Nat) (item : Option Nat) : State :=
  if cls = 1 then s.endItems r item.toList true
  else if cls = 2 then s.killSlot r.core r.slot
  else s.killLaunch tag

/-- TAKING A FAULT (R288, R394 to R396): the record is written, the handler is told, and the entry waits on it when the fault
may resume; any other fault takes effect at its class at once (assumption 9).  `words` is the length that TRET `.next`
steps over.  A fault met in the window of an access is raised once the accesses of the entry have completed (R348). -/
def Ctx.raise (c : Ctx) (words : Nat) (f : FaultInfo) : State :=
  let s := c.record f
  if c.s.outstanding c.slot c.e then c.s.modEntry c.ref fun e => { e with status := .held .acks }
  else if resumable f.code then
    s.modEntry c.ref fun e => { e with status := .onHandler f.code c.la.fn (c.s.fnBlock c.la.fn).recno words }
  else s.strike c.ref c.fl.tag f.cls f.item

/-- A fault met by an engine acting for an entry, or by an entry that does not issue: as `raise`, without a wait. -/
def State.raiseAt (s : State) (r : EntryRef) (f : FaultInfo) : State :=
  match s.ctxAt r with
  | some c => (c.record f).strike r c.fl.tag f.cls f.item
  | none => s

/-- Every entry of a strand that WATCHDOG stopped goes on at the PC where it stopped (R52, R291). -/
def Slot.goOn (fn recno : Nat) (x : Slot) : Slot :=
  { x with entries := x.entries.map fun e => match e.status with
      | .onHandler 4 f n _ => if f = fn ∧ n = recno then { e with status := .ready } else e
      | _ => e }

/-- RETURN FROM A FAULT (R291): mode 0 again, 1 next, 2 kill. -/
def State.resume (s : State) (r : EntryRef) (mode : Nat) : State :=
  match s.ctxAt r with
  | none => s
  | some c =>
    match c.e.status with
    | .onHandler code fn recno words =>
      if code = 4 ∧ mode < 2 then s.modSlot r.core r.slot (Slot.goOn fn recno)
      else if mode = 0 then s.setEntry r { c.e with status := .ready }
      else if mode = 1 then s.setEntry r { c.e with status := .ready, pc := c.e.pc + 4 * words, retired := c.e.retired + 1 }
      else
        let cls := ((s.queue.faults.find? fun f => decide (f.fn = fn) && decide (f.recno = recno)).map FaultRec.cls).getD 2
        (s.setEntry r { c.e with status := .ready }).strike r c.fl.tag cls none
    | _ => s

/-- Ends an issue: the entry as it is left, or the stop it met, with nothing else changed (R13, R188). -/
def Ctx.close (c : Ctx) (words : Nat) (r : Except Stop Entry) : State :=
  match r with
  | .ok e => c.put e
  | .error (.fault f) => c.raise words f
  | .error (.hold h) => c.put { c.e with status := .held h }

/-! ### Access faults -/

/-- The fault record of an access that failed (R111, R396): every one kills the context. -/
def AccFault.info (f : AccFault) (item : Option Nat) : FaultInfo :=
  ⟨f.code, 3, f.cause, f.row, f.hwe, f.addr, 0, item⟩

/-- HW_ERROR of class 3 at an address (R437). -/
def hwError (addr : Nat) : FaultInfo := ⟨21, 3, 0, 0, true, addr, 0, none⟩

/-! ### Time -/

/-- Cores of the pairs of a partition that hold one of its resident flights (R400). -/
def State.busyCores (s : State) (p : Nat) : Nat :=
  (((s.flights.filter fun f => decide (f.part = p ∧ f.state ≠ .saved)).flatMap Flight.cores).filter fun c =>
    decide (bits (s.part p).cur.pairs (c / 2) 1 = 1)).eraseDups.length

/-- The column group of a slot is under the patrol's test, or has failed it (R453, R456). -/
def State.drained (s : State) (core slot : Nat) : Bool :=
  let on (u : Nat) : Bool := decide (u = 96 + 8 * core + columnOf slot / 8) && decide (slot < 128)
  (match s.fleet.patTest with
    | some (u, _) => on u
    | none => false) ||
  match s.fleet.patSwap with
  | some (u, _) => on u
  | none => false

/-- The core of a matrix engine or a column group, as the patrol numbers units (R452). -/
def unitCore (u : Nat) : Nat := if u < 96 then u else (u - 96) / 8

/-- A spare core is to take the core's number, once its flights are saved (R456). -/
def State.swapping (s : State) (core : Nat) : Bool :=
  match s.fleet.patSwap with
  | some (u, _) => decide (unitCore u = core)
  | none => false

/-- Whether every entry of a flight that has not ended is parked (R55). -/
def State.flightParked (s : State) (id : Nat) : Bool :=
  s.slots.all fun x => decide (x.flight ≠ id) || x.entries.all fun e =>
    match e.status with
    | .parked _ _ | .done => true
    | _ => false

/-- The watchdog of a slot after `n` clocks (R52). -/
def State.watch (s : State) (n : Nat) (x : Slot) : Slot :=
  if (x.entries.any fun e => decide (e.status = .ready) && !s.gated x e) && !s.drained x.core x.num then { x with watchdog := x.watchdog + n } else x

/-- A flight after `n` clocks: since when it has been parked (R55). -/
def State.parkedFor (s : State) (n : Nat) (f : Flight) : Flight :=
  { f with parkedSince := if s.flightParked f.id then f.parkedSince <|> some (s.clock + n) else none }

/-- `n` clocks pass: TIME, the slot counter, the watchdogs of slots with an entry ready to issue, the time flights have been
parked, and budgets (R52, R55, R287, R400, R432). -/
def State.tick (s : State) (n : Nat) : State :=
  { s with
    clock := s.clock + n
    thx := { s.thx with slotCtr := s.thx.slotCtr + ((s.clock + n) / 2 - s.clock / 2) }
    slots := s.slots.map (s.watch n)
    flights := s.flights.map (s.parkedFor n)
    oper := { s.oper with parts := s.oper.parts.mapIdx fun p x =>
      if x.cur.period = 0 then x else { x with bal := x.bal - n * s.busyCores p } } }

/-- The independence count of an instruction (R145). -/
def lookCount (o : Long) : Nat := if o.ver1 then o.look.val % 4 else o.look.val

/-- A yield resets the slot's watchdog (R51, R52). -/
def State.yielded (s : State) (r : EntryRef) : State := s.modSlot r.core r.slot fun x => { x with watchdog := 0 }

/-- A draw of a free value (assumption 15). -/
def State.draw (s : State) : W64 × State := (Config.freeWord s.draws, { s with draws := s.draws + 1 })

end Sys2Proof.Machine
end

