-- ==== Sys2Proof/Machine/Async.lean ====
section
/-!
DEFINITION. Asynchronous operations of entries: issue, retirement in issue order, statuses, chains, replay entries and the
entries that wait for them (R72, R129, R130, R235, R272, R273, R278, R280, R391, R392).
-/
namespace Sys2Proof.Machine

/-! ### Issue (R72, R272) -/

/-- The ticket of the operation that the entry issues next in a class (R272). -/
def ticketOf (seq cls : Nat) : Nat := seq % 65536 + cls * 65536

/-- An operation refused or done at issue: it takes a sequence number and a status, and counts nothing (R272, R274). -/
def Entry.refuseOp (e : Entry) (id cls code : Nat) (clock : Nat) : Entry :=
  { e with seq := (e.seq + 1) % 65536, stats := (⟨id, e.seq, cls, code, 0, 0, 0, clock⟩ :: e.stats.filter fun x => x.seq ≠ e.seq).take 256 }

/-- An operation issued: the counter rises and its status reads ASY_PENDING (R72, R273). -/
def Entry.issueOp (e : Entry) (id cls : Nat) (clock : Nat) (k : AsyncKind) : Entry :=
  { e with seq := (e.seq + 1) % 65536,
           counts := e.counts.set cls (e.counts.getD cls 0 + 1),
           stats := (⟨id, e.seq, cls, 1, 0, 0, 0, clock⟩ :: e.stats.filter fun x => x.seq ≠ e.seq).take 256,
           ops := e.ops ++ [⟨id, cls, e.seq, clock, false, 0, 0, k⟩] }

/-! ### Retirement (R129, R273, R278) -/

/-- The outcome of a copy by itself: refused by its peer, cancelled, or done (R273). -/
def CopyOp.own (c : CopyOp) : Nat := if c.denied then 8 else if c.cancelled then 4 else 0

/-- The sum of a chain once a command of it has retired (R278). -/
def CopyOp.total (c : CopyOp) : W32 := c.prior + c.sum

/-- A chain is broken once a command of it has retired (R278). -/
def CopyOp.breaks (c : CopyOp) : Bool := c.broken || c.denied || c.cancelled

/-- The status of a copy that retires: code and checksum (R273, R278). -/
def CopyOp.retire (c : CopyOp) : Nat × W32 :=
  match c.link with
  | none | some .first | some .mid => (c.own, 0)
  | some .last | some .only => (if c.own ≠ 0 then c.own else if c.broken then 3 else if c.total = c.expect then 0 else 2, c.total)

/-- What a retired command leaves to the later commands of its chain, and to the chain while the entry holds it (R278). -/
def Entry.linkOn (e : Entry) (c : CopyOp) : Entry :=
  let next (o : AsyncOp) : AsyncOp := match o.kind with
    | .copy x => if x.link.isSome ∧ x.chain = c.chain then
        { o with kind := .copy { x with prior := c.total, broken := x.broken || c.breaks } } else o
    | _ => o
  { e with ops := e.ops.map next,
           chain := if e.chain.id = c.chain then { e.chain with acc := c.total, broken := e.chain.broken || c.breaks } else e.chain }

/-- Retires one operation that has been performed. -/
def Entry.retireOp (e : Entry) (o : AsyncOp) : Entry :=
  let (code, sum, n, wrote) : Nat × W32 × Nat × List (Nat × Nat) := match o.kind with
    | .copy c => (c.retire.1, c.retire.2, min c.performed 0xFFFF, c.wrote)
    | .coll c => (o.code, 0, 0, c.wrote)
    | _ => (o.code, 0, 0, [])
  let x : Entry := { e with
    ops := e.ops.filter fun x => x.id ≠ o.id,
    counts := e.counts.set o.cls (e.counts.getD o.cls 0 - 1),
    dsts := e.dsts ++ wrote,
    stats := e.stats.map fun x => if x.id = o.id then { x with code := code, cause := o.cause, chunks := n, sum := sum } else x }
  match o.kind with
  | .copy c => if c.link.isSome then x.linkOn c else x
  | _ => x

/-- The first operation of a class, if it has been performed (R129). -/
def Entry.headDone (e : Entry) (cls : Nat) : Option AsyncOp :=
  match e.ops.filter fun o => decide (o.cls = cls) with
  | o :: _ => if o.done then some o else none
  | [] => none

/-- Retires what may retire, class by class in issue order (R129). -/
def Entry.retireAll (e : Entry) : Nat → Entry
  | 0 => e
  | k + 1 =>
    match (e.headDone 0).orElse fun _ => (e.headDone 1).orElse fun _ => (e.headDone 2).orElse fun _ => e.headDone 3 with
    | some o => (e.retireOp o).retireAll k
    | none => e

/-- The count that a WAITC waits for is reached (R235). -/
def waitcMet (e : Entry) (o : Long) : Bool := decide (e.counts.getD (o.imm.val % 4) 0 ≤ o.imm.val / 4 % 64)

/-- The clean sectors of retired destinations leave the core cache, and of a dirty one the bytes its core has not written are read
again, so that a later load reads the new data (R129; assumption 6). -/
def State.dropDsts (s : State) (core : Nat) (ds : List (Nat × Nat)) : State :=
  s.renew core fun x => ds.any fun d => decide (d.1 / 128 ≤ x.sector) && decide (x.sector ≤ (d.1 + d.2 - 1) / 128)

/-- A WAITC completes: WAIT_OK, and the ordering of R129. -/
def State.finishWaitc (s : State) (r : EntryRef) (e : Entry) (o : Long) (nregs : Nat) : State :=
  (s.dropDsts r.core e.dsts).setEntry r (({ e with dsts := [] } : Entry).completeWait nregs (longWords o) o.d false 0)

/-- A copy or a collective that writes to a peer (R124). -/
def AsyncOp.toPeer (o : AsyncOp) : Bool :=
  match o.kind with
  | .copy c => c.dsp = .peer
  | .coll c => decide (1 < c.parts) && !o.done
  | _ => false

/-- A release, a wait or the end of an entry waits for its accesses, and for its writes to a peer at system scope (R124, R244). -/
def State.unacked (s : State) (x : Slot) (e : Entry) : Bool := !(s.unsettled x e).isEmpty || e.ops.any AsyncOp.toPeer

/-- An instruction that is not performed before the entry's earlier accesses are (R124, R244). -/
def Ctx.settled (c : Ctx) (k : State) : State :=
  if (c.s.unsettled c.slot c.e).isEmpty then k else c.put { c.e with status := .held .acks }

/-- Retires what may retire at an entry, and lets it go on where it waited for that (R41, R72, R129, R235). -/
def State.retireAt (s : State) (r : EntryRef) : State :=
  match s.slot r.core r.slot, s.entry r with
  | some x, some e =>
    let e := e.retireAll 256
    match e.status with
    | .parked (.waitc o) _ =>
      if waitcMet e o then s.finishWaitc r e o (s.regsOf r) else s.setEntry r e
    | .held .acks => s.setEntry r (if s.unacked x e then e else { e with status := .ready })
    | .held (.counter cls) => s.setEntry r (if e.counts.getD cls 0 < 63 then { e with status := .ready } else e)
    | .done => (s.setEntry r e).reap
    | _ => s.setEntry r e
  | _, _ => s

/-! ### Finding operations -/

/-- Changes the operation with an identity, wherever its entry is. -/
def Entry.modOp (e : Entry) (id : Nat) (f : AsyncOp → AsyncOp) : Entry :=
  { e with ops := e.ops.map fun o => if o.id = id then f o else o }

/-- Changes the saved entry that holds an operation (R282). -/
def State.mapSaved (s : State) (id : Nat) (f : Entry → Entry) : State :=
  match s.savedOp id with
  | some (fid, _) => s.modFlight fid fun fl => { fl with saved := fl.saved.map fun x =>
      { x with entries := x.entries.map fun e => if e.ops.any fun o => decide (o.id = id) then f e else e } }
  | none => s

/-- Changes an operation and retires what then may retire; in a saved flight it retires into the saved store (R282). -/
def State.modOp (s : State) (id : Nat) (f : AsyncOp → AsyncOp) : State :=
  match s.opAt id with
  | some (r, _) => (s.modEntry r fun e => e.modOp id f).retireAt r
  | none =>
    match s.savedOp id with
    | some _ => s.mapSaved id fun e => (e.modOp id f).retireAll 256
    | none => s

/-! ### Replay entries (R130, R391, R392) -/

/-- The lowest index that no entry of a queue holds, below 512 (R391). -/
def freeIndex (q : List Replay) : Nat → Nat → Option Nat
  | 0, _ => none
  | k + 1, i => if q.any fun r => decide (r.index = i) then freeIndex q k (i + 1) else some i

/-- The 32 bytes of a replay entry (R391). -/
def Replay.word (r : Replay) : Nat :=
  1 + r.cause % 16 * 2 + r.kind % 8 * 2 ^ 5 + r.owner % 16 * 2 ^ 8 + r.slot % 128 * 2 ^ 12 + r.entry % 8 * 2 ^ 19 +
  r.pos % 64 * 2 ^ 22 + r.addr % 2 ^ 52 * 2 ^ 32 + r.len % 2 ^ 32 * 2 ^ 96 + r.order % 2 ^ 16 * 2 ^ 128 +
  r.aux % 2 ^ 16 * 2 ^ 144 + r.src % 2 ^ 64 * 2 ^ 160 + r.ptime % 2 ^ 32 * 2 ^ 224

/-- What the 128-byte data slot of an entry of kind 1 or 2 holds: the bytes of a store, or an atomic's operands (R391). -/
def Replay.data (r : Replay) : List Byte :=
  let bs : List Byte := match r.work with
    | .store _ bs => bs
    | .atomic _ _ b c => leBytes 8 b.toNat ++ leBytes 8 c.toNat
    | _ => []
  (bs ++ List.replicate 128 0).take 128

/-- Where an entry of a core's queue stands in memory (R293, R361). -/
def replayAt (core index : Nat) : Nat := Config.rplBase + 81920 * core + 32 * index

/-- Puts an entry into a core's queue, and into memory where firmware reads it; the data slots begin after 512 entries (R391). -/
def State.addReplay (s : State) (core : Nat) (r : Replay) : State :=
  let t := (s.modCore core fun c => { c with replay := c.replay ++ [r] }).pokeN (replayAt core r.index) 32 r.word
  if r.kind = 1 ∨ r.kind = 2 then t.poke (replayAt core 512 + 128 * r.index) r.data else t

/-- Takes the entries that a test picks out of a core's queue. -/
def State.dropReplay (s : State) (core : Nat) (p : Replay → Bool) : State :=
  let hit := (s.core core).replay.filter p
  hit.foldl (fun s r => s.pokeN (replayAt core r.index) 32 0) (s.modCore core fun c => { c with replay := c.replay.filter fun r => !p r })

/-- Parks an access in the core's queue; a full queue leaves it to be made again (R392). -/
def State.park (s : State) (core : Nat) (r : Replay) : State :=
  match freeIndex (s.core core).replay 512 0 with
  | some i =>
    let src := if r.kind = 1 ∨ r.kind = 2 then i else r.src
    s.addReplay core { r with index := i, src := src, ptime := s.clock % 2 ^ 32 }
  | none => s

/-- The entry a replay entry belongs to still exists. -/
def Replay.ref (r : Replay) : EntryRef := ⟨r.core, r.slot, r.entry⟩

/-- Entries that a full queue holds, or an access of the same item to the same sector, try again (R130, R392). -/
def State.wakeReplay (s : State) (core : Nat) : State :=
  { s with slots := s.slots.map fun x =>
      if x.core ≠ core then x else
      { x with entries := x.entries.map fun e => if e.status = .held .replay then { e with status := .ready } else e } }

/-- A chunk of a copy goes back to its engine (R391, R440). -/
def CopyOp.unpark (c : CopyOp) : CopyOp := { c with chunks := c.chunks.map fun k => { k with parked := false } }

/-- The line that an entry waits for (R416). -/
def Entry.fillOf (e : Entry) : Option Nat :=
  match e.status with
  | .held (.fill l) => some l
  | _ => none

/-- The owner of a flight's launch. -/
def State.ownerOf (s : State) (fid : Nat) : Nat :=
  (((s.flightOf fid).bind fun f => s.launchOf f.tag).map Launch.owner).getD 0

/-- The context of an entry of a saved flight that a test picks: it is on no core, and its core is the one that held it. -/
def State.savedCtx (s : State) (fid : Nat) (p : Entry → Bool) : Option Ctx := do
  let fl ← s.flightOf fid
  let x ← fl.saved.find? fun x => x.entries.any p
  let e ← x.entries.find? p
  let la ← s.launchOf fl.tag
  let ke ← s.kernelOf la.fn la.kid
  pure ⟨s, ⟨x.core, x.num, e.pos⟩, x, e, fl, la, ke⟩

/-- A context kill raised for an entry of a flight that a test picks, resident or saved. -/
def State.raiseFor (s : State) (fid : Nat) (p : Entry → Bool) (f : FaultInfo) : State :=
  let kill (c : Ctx) : State := (c.record f).killLaunch c.fl.tag
  match (s.slots.findSome? fun x => if x.flight ≠ fid then none else (x.entries.find? p).bind fun e =>
      s.ctxAt ⟨x.core, x.num, e.pos⟩) with
  | some c => kill c
  | none => match s.savedCtx fid p with
    | some c => kill c
    | none => match s.flightOf fid with
      | some fl => s.killLaunch fl.tag
      | none => s

/-! ### Ends of copies and collectives -/

/-- A copy with nothing left to perform has been performed (R274). -/
def AsyncOp.settle (o : AsyncOp) : AsyncOp :=
  match o.kind with
  | .copy c => if c.chunks.isEmpty then { o with done := true } else o
  | _ => o

/-- A refusal by the peer: the chunks that remain are not performed (R273). -/
def AsyncOp.deny (o : AsyncOp) : AsyncOp :=
  match o.kind with
  | .copy c => { o with kind := .copy { c with denied := true, chunks := [] }, done := true }
  | _ => o

/-- A collective use abandoned with a cause (R280). -/
def AsyncOp.abort (o : AsyncOp) (cause : Nat) : AsyncOp :=
  match o.kind with
  | .coll _ => { o with done := true, code := 5, cause := cause }
  | _ => o

/-- Every operation identity of resident and saved entries that a test picks. -/
def State.opsWhere (s : State) (p : Nat → AsyncOp → Bool) : List Nat :=
  let of (xs : List Slot) : List Nat := xs.flatMap fun x => x.entries.flatMap fun e => (e.ops.filter (p x.flight)).map AsyncOp.id
  of s.slots ++ s.flights.flatMap fun f => of f.saved

def State.modOps (s : State) (ids : List Nat) (f : AsyncOp → AsyncOp) : State := ids.foldl (fun s i => s.modOp i f) s

/-- The function of the launch that a flight belongs to. -/
def State.fnOf (s : State) (fid : Nat) : Option Nat := ((s.flightOf fid).bind fun f => s.launchOf f.tag).map Launch.fn

/-- Aborts the collective uses of a function that a test picks (R280, R406, R448). -/
def State.abortColls (s : State) (fn cause : Nat) (p : CollOp → Bool) : State :=
  let ids := s.opsWhere fun fid o => match o.kind with
    | .coll c => decide (s.fnOf fid = some fn) && p c
    | _ => false
  (ids.foldl State.garble s).modOps ids fun o => o.abort cause

end Sys2Proof.Machine
end

