-- ==== Sys2Proof/Machine/Fetch.lean ====
section
/-!
DEFINITION. Choosing the entry that issues, fetching its instruction, the errors it consumes as it reads, and the clocks it
takes (R17, R30, R59 to R61, R83, R111, R151, R190).
-/
namespace Sys2Proof.Machine

/-! ### Which entry issues (R30) -/

/-- Another entry of the column is held at a FUSE with this one as its partner, which never issues its own (R46, R47). -/
def State.awaited (s : State) (x : Slot) (e : Entry) : Bool :=
  s.slots.any fun y => decide (y.flight = x.flight ∧ y.core = x.core) && decide (columnOf y.num = columnOf x.num) &&
    y.entries.any fun f => match f.status with
      | .held (.fuse o) => decide (f.pc = e.pc) &&
          (if o.mod.val = 1 then decide (e.start + e.len = f.start) else decide (e.start = f.start + f.len))
      | _ => false

/-- An entry may issue: it is ready and not behind an access that has not completed (R344), its flight is on the core and not being
saved, no bank its flight holds is in retention, its column is not under test, and no FUSE is held for it (R46, R85, R385, R453). -/
def State.mayIssue (s : State) (x : Slot) (e : Entry) : Bool :=
  decide (e.status = .ready) && !s.gated x e && !s.drained x.core x.num && !s.awaited x e &&
  match s.flightOf x.flight with
  | some f => decide (f.state = .resident ∨ f.state = .asked) && s.banksLive f.alloc
  | none => false

/-- Whether the first entry goes before the second on one column: class 0 first, then fewer instructions retired, then the
order of R27 (R30). -/
def State.before (s : State) (x : Slot) (e : Entry) (y : Slot) (f : Entry) : Bool :=
  let cls (z : Slot) : Nat := match (s.flightOf z.flight).bind fun f => s.launchOf f.tag with
    | some l => if l.cls = 0 then 0 else 1
    | none => 1
  if cls x ≠ cls y then decide (cls x < cls y)
  else if e.retired ≠ f.retired then decide (e.retired < f.retired)
  else if e.snum ≠ f.snum then decide (e.snum < f.snum)
  else decide (e.start < f.start)

/-- The entries of a column that may issue. -/
def State.candidates (s : State) (core column : Nat) : List (Slot × Entry) :=
  (s.slots.filter fun x => decide (x.core = core) && decide (columnOf x.num = column)).flatMap fun x =>
    (x.entries.filter (s.mayIssue x)).map fun e => (x, e)

/-- The entry that issues on a column (R30). -/
def State.choose (s : State) (core column : Nat) : Option EntryRef :=
  match s.candidates core column with
  | [] => none
  | c :: cs =>
    let b := cs.foldl (fun b d => if s.before d.1 d.2 b.1 b.2 then d else b) c
    some ⟨b.1.core, b.1.num, b.2.pos⟩

/-- The core and column of a slot as one number. -/
def Slot.place (x : Slot) : Nat := 64 * x.core + columnOf x.num

/-- The column that issues next: of those with an entry that may issue, the first after the column that issued last, in
the order of core and column and round again (assumption 3). -/
def State.nextColumn (s : State) : Option (Nat × Nat) :=
  let last := 64 * s.cur.core + columnOf s.cur.slot
  let key (x : Slot) : Nat := if last < x.place then x.place - last else x.place + 8192 - last
  ((s.slots.filter fun x => x.entries.any (s.mayIssue x)).foldl (fun b x =>
    match b with
    | none => some x
    | some y => if key x < key y then some x else b) none).map fun x => (x.core, columnOf x.num)

/-! ### Fetch (R111, R137, R151) -/

/-- The bytes at an address as a fetch reads them; the trap handler's are those of its sealed image (R288). -/
def State.fetchBytes (s : State) (g : Agent) (pc n : Nat) : Except Acc (List Byte) :=
  if g.owner = 0 ∧ Config.firmware ≤ pc ∧ pc + n ≤ Config.firmware + 65536 then
    .ok ((List.range n).map fun i => Config.firmwareByte (pc - Config.firmware + i))
  else match s.check g none .fetch pc n 1 with
  | .ok ps => .ok (s.readPieces ps)
  | e => .error e

/-- Fetches an instruction from code that ends at an address: its first word, then the rest that its form has, none where they would
run past the end (R137, R138, R151 kind 4). -/
def State.fetchWords (s : State) (g : Agent) (pc stop : Nat) : Except Acc (List Nat) :=
  if stop < pc + 4 then .ok []
  else match s.fetchBytes g pc 4 with
  | .error e => .error e
  | .ok b0 =>
    let w0 := leNat b0
    if stop < pc + 4 * lenWords (w0 % 4) then .ok [w0]
    else match s.fetchBytes g (pc + 4) (4 * (lenWords (w0 % 4) - 1)) with
    | .error e => .error e
    | .ok rest => .ok (w0 :: wordsOfBytes rest)

/-- The fields of an instruction in the long form. -/
def Raw.full : Raw → Op × Long
  | .short op o => (op, o.toLong op)
  | .long op o => (op, o)

def fieldWide : Field → Bool
  | .uses _ w _ => w
  | .unused => false

/-- One past the highest v register that a field names directly. -/
def topV (wide : Bool) (extra : Nat) : Spec → Nat
  | .v n => n.val + 1 + (if wide then 1 else 0) + extra
  | _ => 0

/-- The registers beyond the one named that a run of `want` takes when the instruction is that one (R173, R221). -/
def Op.run (op : Op) (m : Nat) (want : Op) : Nat :=
  if op ≠ want then 0
  else match op with
    | .ldp | .stp => ldpCount m - 1
    | .reord => 7
    | _ => 0

/-- The first field, 0 to 3 for D, A, B and C, that names a v register at or above `.regs` (R65), the runs of LDP, STP and REORD
included (R173, R221). -/
def Raw.regsBad (r : Raw) (nregs : Nat) : Option Nat :=
  let (op, o) := Raw.full r
  let fs := op.fields o.ty o.mod.val o.imm.val
  if nregs < topV (fieldWide fs.d) (Op.run op o.mod.val .ldp) o.d then some 0
  else if nregs < topV (fieldWide fs.a) 0 o.a then some 1
  else if nregs < topV (fieldWide fs.b) (Op.run op o.mod.val .stp + Op.run op o.mod.val .reord) o.b then some 2
  else if nregs < topV (fieldWide fs.c) 0 o.c then some 3
  else none

/-- Every v register named lies below `.regs` (R65). -/
def Raw.regsOk (r : Raw) (nregs : Nat) : Bool := (Raw.regsBad r nregs).isNone

/-- Where the code of a kernel ends. -/
def Kernel.codeEnd (k : Kernel) : Nat := k.code + 4 * k.words

/-- The words at the PC of an entry. -/
def Ctx.words (c : Ctx) : Except Acc (List Nat) := c.s.fetchWords c.agent c.e.pc c.ke.codeEnd

/-- Decodes at the PC of an entry: an instruction, or the words that are none. -/
def Ctx.fetch (c : Ctx) : Except Acc (Except (List Nat) Instr) :=
  match c.words with
  | .error a => .error a
  | .ok ws =>
    match decodeWords ws with
    | .error _ => .ok (.error ws)
    | .ok i => match i.toRaw with
      | some r => .ok (if Raw.regsOk r c.ke.regs then .ok i else .error ws)
      | none => .ok (.error ws)

/-! ### Errors consumed (R59, R61, R83) -/

/-- The specifiers an instruction reads, with their widths. -/
def Raw.sources (r : Raw) : List (Spec × Bool) :=
  let (op, o) := Raw.full r
  let fs := op.fields o.ty o.mod.val o.imm.val
  [(o.a, fs.a), (o.b, fs.b), (o.c, fs.c)].filterMap fun p => match p.2 with
    | .uses _ w _ => some (p.1, w)
    | .unused => none

/-- The registers after the one that a v specifier names, in a run. -/
def runAfter (n : Nat) : Spec → List (Nat × Nat)
  | .v k => (List.range n).map fun j => (0, k.val + 1 + j)
  | _ => []

/-- The offset that a reader reads a source at, through a modifier: its own where the position lies outside the strand, none where it
reads 0 (R49, R74). -/
def Entry.readAt (e : Entry) (m : Perm) (i : Nat) : Option Nat :=
  match permSource m e.width (e.posOf i) with
  | some p => if e.width ≤ p then some i else e.atPos p
  | none => some i

/-- Entries of a stack of an entry: cut (4) or mask (5), as the damage of a stored word names them (R61). -/
def Entry.depthOf (e : Entry) (kind : Nat) : Nat :=
  (e.levels.filter fun l => match l with
    | .cut _ _ => decide (kind = 4)
    | .mask _ _ _ _ => decide (kind = 5)).length

/-- The words of the stacks and of the piece table that an instruction reads: JOIN the entry that it pops, and BRC, JOIN, SPLIT and FUSE
the piece table (assumption 44). -/
def Entry.structures (e : Entry) (op : Op) : List (Nat × Nat) :=
  let top : List (Nat × Nat) := match op, e.levels with
    | .join, .cut _ _ :: _ => [(4, e.depthOf 4 - 1)]
    | .join, .mask _ _ _ _ :: _ => [(5, e.depthOf 5 - 1)]
    | _, _ => []
  if op = .brc ∨ op = .join ∨ op = .split ∨ op = .fuse then (6, e.pos) :: top else top

/-- The words that an instruction reads, as kind and number, with the offsets that it reads them at: its sources, A through its
modifier, its guard and the run of STP or REORD; PERM reads its source for every live item (R74, R206). -/
def Ctx.wordsRead (c : Ctx) (r : Raw) : List ((Nat × Nat) × List Nat) :=
  let (op, o) := Raw.full r
  let fs := op.fields o.ty o.mod.val o.imm.val
  let acting := c.e.acting o.pi o.pn
  let readers := if op = .perm then (List.range c.e.len).filter c.e.live else acting
  let of (f : Field) (sp : Spec) (is : List Nat) : List ((Nat × Nat) × List Nat) := match f with
    | .uses _ w _ => (c.e.reached c.ke.regs acting w sp).map fun k => (k, is)
    | .unused => []
  let own := ((3, o.pi.val) :: runAfter (Op.run op o.mod.val .stp + Op.run op o.mod.val .reord) o.b).map fun k => (k, acting)
  own ++ of fs.a o.a (if o.perm = .none then readers else acting.filterMap (c.e.readAt o.perm)) ++ of fs.b o.b readers ++
    of fs.c o.c readers

/-- The damaged words that an instruction reads. -/
def Ctx.damage (c : Ctx) (r : Raw) : List BadWord :=
  let rs := c.wordsRead r
  let held := c.e.structures (Raw.full r).1
  c.e.bad.filter fun b => held.contains (b.kind, b.num) ||
    rs.any fun x => decide (x.1 = (b.kind, b.num)) && (b.offset.isNone || x.2.any fun i => decide (b.offset = some i))

/-- Repairs a damaged word from the mirror (R83), or kills the item or the strand that owns it (R59, R61). -/
def Ctx.consume (c : Ctx) (b : BadWord) : State :=
  let fixed := c.s.modEntry c.ref fun e => { e with bad := e.bad.filter fun x => x ≠ b }
  if c.fl.mirrored ∧ !b.both then
    fixed.modCore c.ref.core fun k => { k with rep := min (k.rep + 1) 0xFFFF }
  else match b.offset with
    | some i => fixed.raiseAt c.ref ⟨20, 1, 0, 0, true, b.num, 0, some i⟩
    | none => fixed.raiseAt c.ref ⟨21, 2, 0, 0, true, b.num, 0, none⟩

def State.consumeAll (s : State) (r : EntryRef) : List BadWord → State
  | [] => s
  | b :: bs => match s.ctxAt r with
    | some c => (c.consume b).consumeAll r bs
    | none => s

/-- A destination overwritten before it is read takes its damage with it (R59). -/
def State.mend (s : State) (r : EntryRef) (raw : Raw) (before : Entry) (nregs : Nat) : State :=
  let (op, o) := Raw.full raw
  let fs := op.fields o.ty o.mod.val o.imm.val
  let acting := before.acting o.pi o.pn
  let cover := before.cover o.pi o.pn acting
  let regs := before.reached nregs acting (fieldWide fs.d) o.d ++ runAfter (Op.run op o.mod.val .ldp) o.d
  let pushed := if op = .brc then [(4, before.depthOf 4), (5, before.depthOf 5)] else []
  s.modEntry r fun e => { e with bad := e.bad.filter fun b =>
    !(pushed.contains (b.kind, b.num)) && !(regs.contains (b.kind, b.num) && match cover, b.offset with
      | none, _ => true
      | some is, some i => is.contains i
      | some _, none => false) }

/-! ### Occupancy (R17, R154, R190) -/

/-- A source counts as DEN (R17).  An AFF predicate that an instruction reads as a predicate is an AFF source; read as a value it is
DEN (R70). -/
def Entry.denSource (e : Entry) (nregs : Nat) (acting : List Nat) (steps wide : Bool) (sp : Spec) : Bool :=
  match sp with
  | .v n => !(e.readV n wide).isUni && (wide || decide ((e.regs.getD n (.uni 0)).code = 2))
  | .x n => decide ((e.xregs.getD n (.uni 0)).code = 2)
  | .p n => decide ((e.pred n).code = 2) || (!steps && decide ((e.pred n).code = 1))
  | .q _ => true
  | .ind k o => match e.readInd k o nregs wide acting with
    | .ok v => v.isDen || decide ((e.xregs.getD k (.uni 0)).code = 2)
    | .error _ => false
  | _ => false

/-- Source A counts as DEN: through a modifier it has the form of R75. -/
def Entry.denA (e : Entry) (nregs : Nat) (acting : List Nat) (steps wide : Bool) (o : Long) : Bool :=
  if o.perm = .none then e.denSource nregs acting steps wide o.a
  else match o.a with
    | .v n => (e.permute o.perm acting (e.readV n wide)).2.isDen
    | _ => false

/-- A destination reached through a DEN index register counts as a DEN source (R67). -/
def Entry.denDest (e : Entry) : Spec → Bool
  | .ind k _ => decide ((e.xregs.getD k (.uni 0)).code = 2)
  | _ => false

/-- The factor of R190. -/
def opFactor (op : Op) (t : Ty) : Nat :=
  match op with
  | .frcp | .frsq | .fexp2 | .flog2 | .ftanh => if t = .f64 then 4 else 2
  | .fsqrt | .fdiv => if t = .f64 then 8 else 4
  | .ztwid => 16
  | _ => 1

/-- An instruction that accesses the core's ports for its items. -/
def Op.accesses : Op → Bool
  | .ld | .ldp | .st | .stp | .lds | .sts | .atom | .atoms | .cas | .pref => true
  | _ => false

/-- Clocks that the hazard detector adds to an instruction: 2 for a memory instruction in a window (R352). -/
def Ctx.hazardClocks (c : Ctx) (op : Op) : Nat :=
  if (c.s.core c.ref.core).hzdEn ∧ Op.accesses op ∧ !c.e.window.isEmpty then 2 else 0

/-- While the detector is on, a long-latency instruction with a count opens a window, whether or not it accesses memory; its own ranges
are recorded as it accesses (R138, R352). -/
def State.noteWindow (s : State) (r : EntryRef) (raw : Raw) : State :=
  let (op, o) := Raw.full raw
  if (s.core r.core).hzdEn ∧ 0 < lookCount o ∧ !(op.lens.contains 0) then
    s.modEntry r fun e => { e with window := e.window ++ [⟨lookCount o + 1, 2, false, 0, 0, 0, e.pc⟩] }
  else s

/-- Clocks that an instruction holds its column (R17, R154, R190, R352; assumption 4). -/
def Ctx.clocks (c : Ctx) (r : Raw) : Nat :=
  let (op, o) := Raw.full r
  let fs := op.fields o.ty o.mod.val o.imm.val
  let acting := c.e.acting o.pi o.pn
  let n := acting.length
  let steps := decide (op = .plog ∨ op = .sel ∨ op = .vote ∨ op = .brc ∨ op = .bru)
  let wide := [fs.d, fs.a, fs.b, fs.c].any fieldWide
  let run := runAfter (Op.run op o.mod.val .stp + Op.run op o.mod.val .reord) o.b
  let source (f : Field) (g : Bool → Bool) : Bool := match f with
    | .uses _ w _ => g w
    | .unused => false
  let den := source fs.a (fun w => c.e.denA c.ke.regs acting steps w o) ||
    source fs.b (fun w => c.e.denSource c.ke.regs acting steps w o.b) ||
    source fs.c (fun w => c.e.denSource c.ke.regs acting steps w o.c) || source fs.d (fun _ => c.e.denDest o.d) ||
    run.any fun k => decide ((c.e.regs.getD k.2 (.uni 0)).code = 2)
  c.hazardClocks op +
  if n = 0 then 1
  else if (op.maj < 8 ∧ op ≠ .vote ∧ op ≠ .reord) ∨ 0x30 ≤ op.maj then 1
  else (if !den then 1 else if wide then n else ceilDiv n 2) * opFactor op o.ty

/-! ### One issue -/

/-- What a step that issues finds. -/
inductive Plan where
  /-- An instruction to execute for `cur`, the clocks it takes, its fields and the entry before it. -/
  | run (i : Instr) (s : State) (clocks : Nat) (r : Raw) (e : Entry) (nregs : Nat)
  /-- A step of the device. -/
  | event (i : Instr) (s : State)
  /-- Something else came about. -/
  | other (s : State)
  /-- Nothing is left on the agenda and nothing can issue. -/
  | idle (s : State)

/-- A fetch that parks becomes a replay entry, and is made again when that is released (R111, R130). -/
def Ctx.parkFetch (c : Ctx) (cause va : Nat) (pair : Option Nat) : State :=
  let i := (c.e.liveList).headD 0
  if 512 ≤ (c.s.core c.ref.core).replay.length then c.put { c.e with status := .held .replay }
  else c.s.park c.ref.core
    { index := 0, cause := cause, kind := 0, owner := c.la.owner, slot := c.ref.slot, entry := c.ref.pos, pos := c.e.posOf i,
      addr := va, len := 4, order := c.e.order, aux := 0, src := 0, ptime := 0, pair := pair, core := c.ref.core, op := 0,
      flight := c.fl.id, item := c.e.start + i, pc := c.e.pc, left := 0, work := .again }

/-- A fetch that failed: a fault, a parked fetch waits and is made again, a line in the Gondola is asked for. -/
def Ctx.badFetch (c : Ctx) : Acc → State
  | .fault f => (c.raise 0 (f.info none)).tick 1
  | .poisoned a => (c.raise 0 (hwError a)).tick 1
  | .wait l => ((c.put { c.e with status := .held (.fill l) }).askLine c.agent l).tick 1
  | .park cause va pair => (c.parkFetch cause va pair).tick 1
  | .ok _ => c.s

/-- One more instruction of an entry issues beyond its accesses that have not completed (R344). -/
def State.countDown (s : State) (core flight : Nat) (e : Entry) : State :=
  let step (r : Replay) : Replay := if r.mine flight e then { r with left := r.left - 1 } else r
  if (s.core core).replay.isEmpty ∧ (s.core core).flying.isEmpty then s
  else s.modCore core fun c => { c with replay := c.replay.map step, flying := c.flying.map step }

/-- Issues for one entry: fetch, decode, consume errors, count the windows (R344). -/
def State.issueFor (s : State) (r : EntryRef) : Plan :=
  let s := { s with cur := r }
  match s.ctxAt r with
  | none => .other s
  | some c =>
    match c.fetch with
    | .error a => .other (c.badFetch a)
    | .ok (.error ws) => .other ((c.raise 0 (illegal ws)).tick 1)
    | .ok (.ok i) =>
      match i.toRaw with
      | none => .other s
      | some raw =>
        let s := if c.e.bad.isEmpty then s else s.consumeAll r (c.damage raw)
        let s := if c.e.window.isEmpty then s else s.modEntry r fun e =>
          { e with window := (e.window.map fun w => { w with left := w.left - 1 }).filter fun w => decide (0 < w.left) }
        let s := s.countDown c.ref.core c.fl.id c.e
        let s := if c.fl.parkedSince.isNone then s else s.modFlight c.fl.id fun f => { f with parkedSince := none }
        let s := s.useUnit (96 + 8 * r.core + columnOf r.slot / 8) c.la.owner
        match s.here with
        | some c => .run i (s.noteWindow r raw) (c.clocks raw) raw c.e c.ke.regs
        | none => .other s

/-- After the instruction: damage overwritten is gone and its clocks have passed. -/
def State.afterIssue (s : State) (r : EntryRef) (raw : Raw) (before : Entry) (nregs clocks : Nat) : State :=
  (if before.bad.isEmpty then s else s.mend r raw before nregs).tick clocks

end Sys2Proof.Machine
end

