-- ==== Sys2Proof/Machine/Lanes.lean ====
section
/-!
DEFINITION. One instruction over the items of an entry: its sources read in order, the form of its result, and the write
(R12, R17, R35, R63, R64, R74, R75, R88, R174).
-/
namespace Sys2Proof.Machine

/-- An instruction at its issue: the entry after its sources were read, the offsets it acts on, what its write covers (none
for the whole register), and its sources. -/
structure Lane where
  e : Entry
  acting : List Nat
  items : Option (List Nat)
  a : OpVal
  b : OpVal
  c : OpVal

/-- An AFF value of stride 0 is UNI (R34). -/
def OpVal.norm : OpVal → OpVal
  | .aff b d => if d = 0 then .uni (b.setWidth 64) else .aff b d
  | v => v

/-- The sources of an instruction, read in the order A, B, C (R64), A through its modifier (R74). -/
def Ctx.lanes (c : Ctx) (op : Op) (o : Long) (acting : List Nat) : Except Stop Lane := do
  let fs := op.fields o.ty o.mod.val o.imm.val
  let n := c.ke.regs
  let (e, a) ← c.e.readSpec n acting o.lit (fieldWide fs.a) o.a
  let (e, a) := e.permute o.perm acting a
  let (e, b) ← e.readSpec n acting o.lit (fieldWide fs.b) o.b
  let (e, x) ← e.readSpec n acting o.lit (fieldWide fs.c) o.c
  pure ⟨e, acting, c.e.cover o.pi o.pn acting, a.norm, b.norm, x.norm⟩

/-- Runs an instruction over its items; with none to act on it pops its queues and retires (R17, R71). -/
def Ctx.lane (c : Ctx) (words : Nat) (op : Op) (o : Long) (k : Lane → Except Stop Entry) : State :=
  let acting := c.e.acting o.pi o.pn
  c.close words do
    let l ← c.lanes op o acting
    let e ← if acting.isEmpty then .ok l.e else k l
    pure (e.advance words)

/-- Every source is UNI and the write covers the whole register, so the result is UNI (R35). -/
def Lane.uniAll (l : Lane) : Bool := l.items.isNone && l.a.isUni && l.b.isUni && l.c.isUni

/-- A result computed item by item: UNI or DEN (R35). -/
def Lane.each (l : Lane) (f : W64 → W64 → W64 → W64) : OpVal :=
  if l.uniAll then .uni (f (l.a.at 0) (l.b.at 0) (l.c.at 0)) else .build l.e fun i => f (l.a.at i) (l.b.at i) (l.c.at i)

/-- The affine parameters of a value that is UNI or AFF (R35). -/
def OpVal.affine : OpVal → Option (W32 × W32)
  | .uni w => some (w.setWidth 32, 0)
  | .aff b d => some (b, d)
  | .den _ => none

/-- A result that is affine where the rule allows it (R35): `g` combines the parameters of A and B. -/
def Lane.affineOr (l : Lane) (ok : Bool) (g : W32 × W32 → W32 × W32 → Option (W32 × W32)) (dense : OpVal) : OpVal :=
  if l.items.isSome || !ok || l.uniAll then dense
  else match l.a.affine, l.b.affine with
    | some p, some q => (match g p q with
      | some r => (OpVal.aff r.1 r.2).norm
      | none => dense)
    | _, _ => dense

/-- Writes a result to D (R63). -/
def Lane.write (l : Lane) (nregs : Nat) (wide sg : Bool) (d : Spec) (v : OpVal) : Except Stop Entry :=
  l.e.writeSpec nregs l.acting wide sg l.items d v

/-- An instruction whose result is computed item by item, written at a width. -/
def Ctx.laneEach (c : Ctx) (words : Nat) (op : Op) (o : Long) (wide sg : Bool) (f : W64 → W64 → W64 → W64) : State :=
  c.lane words op o fun l => l.write c.ke.regs wide sg o.d (l.each f)

/-! ### Values of a type -/

/-- The low bits of a source at a type's width; a predicate type reads the truth (R63, R88, R89). -/
def patOf (t : Ty) (w : W64) : Nat := if t = .pred then (if w = 0 then 0 else 1) else w.toNat % 2 ^ t.width

/-- The integer that a source holds as a type (R87). -/
def intOf (t : Ty) (w : W64) : Int := if t.signedInt then signed t.width w.toNat else (w.toNat % 2 ^ t.width : Nat)

/-- A pattern of the type's width as a result: i8 and i16 are sign-extended to 32 bits (R88). -/
def storePat (t : Ty) (n : Nat) : W64 :=
  let m := n % 2 ^ t.width
  BitVec.ofNat 64 (if t.width < 32 ∧ t.signedInt then wrapZ 32 (signed t.width m) else m)

/-- An exact integer as a result: `Wrap`, or `Sat` under `.sat` (R87, R174). -/
def storeInt (t : Ty) (sat : Bool) (z : Int) : W64 :=
  storePat t (wrapZ t.width (if sat then satZ t.signedInt t.width z else z))

/-- A truth as a value. -/
def truth (b : Bool) : W64 := if b then 1 else 0

end Sys2Proof.Machine
end

