-- ==== Sys2Proof/Machine/Integer.lean ====
section
/-!
DEFINITION. The integer instructions (R174 to R186).
-/
namespace Sys2Proof.Machine

/-- `.sat` is MOD[0] (R175). -/
def satOf (o : Long) : Bool := o.mod.val % 2 = 1

/-- An integer instruction whose result has the instruction's type (R174). -/
def Ctx.int (c : Ctx) (words : Nat) (op : Op) (o : Long) (f : W64 → W64 → W64 → W64) : State :=
  c.laneEach words op o o.ty.wide o.ty.signedInt f

/-- A 32-bit integer type, whose sums may be affine (R35). -/
def affTy (t : Ty) : Bool := t = .i32 || t = .n32

/-! ### MOV, MOVI, SEL (R176) -/

/-- MOV of an AFF register keeps the form (R35, R176): its parameters at a 32-bit type; at a narrower one those of the extended
values, where they are an affine sequence still (R31). -/
def affineMov (t : Ty) (b d : W32) (n : Nat) : Option OpVal :=
  let f (i : Nat) : W32 := (storePat t (b + BitVec.ofNat 32 i * d).toNat).setWidth 32
  if t.width = 32 then some (.aff b d)
  else if t.width < 32 ∧ t ≠ .pred ∧ ((List.range n).all fun i => decide (f i = f 0 + BitVec.ofNat 32 i * (f 1 - f 0))) then
    some (OpVal.aff (f 0) (f 1 - f 0)).norm
  else none

/-- MOV of a predicate keeps its form; MOV of a 32-bit value keeps UNI, AFF or DEN; the rest is UNI or DEN (R176). -/
def Ctx.runMov (c : Ctx) (words : Nat) (o : Long) : State :=
  c.lane words .mov o fun l =>
    match o.ty, o.d, o.a with
    | .pred, .p d, .p a => .ok (l.e.putP d (l.e.pred a) l.items)
    | t, _, _ =>
      let dense := l.each fun a _ _ => storePat t (patOf t a)
      l.write c.ke.regs t.wide t.signedInt o.d
        (match l.a, l.items with
          | .aff b d, none => (affineMov t b d l.e.len).getD dense
          | _, _ => dense)

def execMov (o : Short) (s : State) : Host.Outcome State Fault Refusal := s.issue fun c => c.runMov 1 (o.toLong .mov)
def execMovLong (o : Long) (s : State) : Host.Outcome State Fault Refusal := s.issue fun c => c.runMov (longWords o) o

/-- MOVI: the immediate extended by the type's signedness (R176). -/
def Ctx.runMovi (c : Ctx) (words : Nat) (o : Long) : State :=
  c.int words .movi o fun _ _ _ => storeInt o.ty false (if o.ty.signedInt then signed 16 o.imm.val else o.imm.val)

def execMovi (o : Short) (s : State) : Host.Outcome State Fault Refusal := s.issue fun c => c.runMovi 1 (o.toLong .movi)
def execMoviLong (o : Long) (s : State) : Host.Outcome State Fault Refusal := s.issue fun c => c.runMovi (longWords o) o

/-- SEL: A where C is true or not zero, else B (R176). -/
def Ctx.runSel (c : Ctx) (words : Nat) (o : Long) : State :=
  c.int words .sel o fun a b x => storePat o.ty (patOf o.ty (if patOf o.ty x = 0 then b else a))

def execSel (o : Short) (s : State) : Host.Outcome State Fault Refusal := s.issue fun c => c.runSel 1 (o.toLong .sel)
def execSelLong (o : Long) (s : State) : Host.Outcome State Fault Refusal := s.issue fun c => c.runSel (longWords o) o

/-! ### The add family (R177) -/

/-- A sum or difference, affine on UNI and AFF sources of a 32-bit type without `.sat` (R35, R177). -/
def Ctx.runSum (c : Ctx) (words : Nat) (op : Op) (o : Long) (f : Int → Int → Int) (g : W32 → W32 → W32) : State :=
  c.lane words op o fun l =>
    let dense := l.each fun a b _ => storeInt o.ty (satOf o) (f (intOf o.ty a) (intOf o.ty b))
    l.write c.ke.regs o.ty.wide o.ty.signedInt o.d
      (l.affineOr (affTy o.ty && !satOf o) (fun p q => some (g p.1 q.1, g p.2 q.2)) dense)

def execIadd (o : Short) (s : State) : Host.Outcome State Fault Refusal :=
  s.issue fun c => c.runSum 1 .iadd (o.toLong .iadd) (· + ·) (· + ·)
def execIaddLong (o : Long) (s : State) : Host.Outcome State Fault Refusal :=
  s.issue fun c => c.runSum (longWords o) .iadd o (· + ·) (· + ·)
def execIsub (o : Short) (s : State) : Host.Outcome State Fault Refusal :=
  s.issue fun c => c.runSum 1 .isub (o.toLong .isub) (· - ·) (· - ·)
def execIsubLong (o : Long) (s : State) : Host.Outcome State Fault Refusal :=
  s.issue fun c => c.runSum (longWords o) .isub o (· - ·) (· - ·)

/-- An instruction whose exact result is an integer of A, B and C (R174). -/
def Ctx.exact (c : Ctx) (words : Nat) (op : Op) (o : Long) (sat : Bool) (f : Int → Int → Int → Int) : State :=
  c.int words op o fun a b x => storeInt o.ty sat (f (intOf o.ty a) (intOf o.ty b) (intOf o.ty x))

def Ctx.runIneg (c : Ctx) (words : Nat) (o : Long) : State := c.exact words .ineg o (satOf o) fun a _ _ => -a
def Ctx.runIabs (c : Ctx) (words : Nat) (o : Long) : State := c.exact words .iabs o (satOf o) fun a _ _ => (a.natAbs : Int)
def Ctx.runImin (c : Ctx) (words : Nat) (o : Long) : State := c.exact words .imin o false fun a b _ => min a b
def Ctx.runImax (c : Ctx) (words : Nat) (o : Long) : State := c.exact words .imax o false fun a b _ => max a b

def execIneg (o : Short) (s : State) : Host.Outcome State Fault Refusal := s.issue fun c => c.runIneg 1 (o.toLong .ineg)
def execInegLong (o : Long) (s : State) : Host.Outcome State Fault Refusal := s.issue fun c => c.runIneg (longWords o) o
def execIabs (o : Short) (s : State) : Host.Outcome State Fault Refusal := s.issue fun c => c.runIabs 1 (o.toLong .iabs)
def execIabsLong (o : Long) (s : State) : Host.Outcome State Fault Refusal := s.issue fun c => c.runIabs (longWords o) o
def execImin (o : Short) (s : State) : Host.Outcome State Fault Refusal := s.issue fun c => c.runImin 1 (o.toLong .imin)
def execIminLong (o : Long) (s : State) : Host.Outcome State Fault Refusal := s.issue fun c => c.runImin (longWords o) o
def execImax (o : Short) (s : State) : Host.Outcome State Fault Refusal := s.issue fun c => c.runImax 1 (o.toLong .imax)
def execImaxLong (o : Long) (s : State) : Host.Outcome State Fault Refusal := s.issue fun c => c.runImax (longWords o) o

/-! ### Products (R178) -/

/-- IMUL: affine when one source is AFF and the other UNI (R35, R178). -/
def Ctx.runImul (c : Ctx) (words : Nat) (o : Long) : State :=
  c.lane words .imul o fun l =>
    let dense := l.each fun a b _ => storeInt o.ty (satOf o) (intOf o.ty a * intOf o.ty b)
    l.write c.ke.regs o.ty.wide o.ty.signedInt o.d
      (l.affineOr (affTy o.ty && !satOf o) (fun p q =>
        if q.2 = 0 then some (p.1 * q.1, p.2 * q.1) else if p.2 = 0 then some (p.1 * q.1, p.1 * q.2) else none) dense)

/-- IMULH: the upper half of the exact product (R178). -/
def Ctx.runImulh (c : Ctx) (words : Nat) (o : Long) : State :=
  c.exact words .imulh o false fun a b _ => a * b / (2 ^ o.ty.width : Nat)

/-- IMAD: product and sum formed exactly, then stored once (R178). -/
def Ctx.runImad (c : Ctx) (words : Nat) (o : Long) : State := c.exact words .imad o (satOf o) fun a b x => a * b + x

def execImul (o : Short) (s : State) : Host.Outcome State Fault Refusal := s.issue fun c => c.runImul 1 (o.toLong .imul)
def execImulLong (o : Long) (s : State) : Host.Outcome State Fault Refusal := s.issue fun c => c.runImul (longWords o) o
def execImulh (o : Short) (s : State) : Host.Outcome State Fault Refusal := s.issue fun c => c.runImulh 1 (o.toLong .imulh)
def execImulhLong (o : Long) (s : State) : Host.Outcome State Fault Refusal := s.issue fun c => c.runImulh (longWords o) o
def execImad (o : Short) (s : State) : Host.Outcome State Fault Refusal := s.issue fun c => c.runImad 1 (o.toLong .imad)
def execImadLong (o : Long) (s : State) : Host.Outcome State Fault Refusal := s.issue fun c => c.runImad (longWords o) o

/-! ### Shifts (R179) -/

/-- The count of a shift: B mod w, B unsigned at the type's width (R179). -/
def shiftCount (t : Ty) (b : W64) : Nat := patOf t b % t.width

/-- SHL: affine when A is AFF and the count UNI (R35, R179). -/
def Ctx.runShl (c : Ctx) (words : Nat) (o : Long) : State :=
  c.lane words .shl o fun l =>
    let dense := l.each fun a b _ => storeInt o.ty (satOf o) (intOf o.ty a * (2 ^ shiftCount o.ty b : Nat))
    l.write c.ke.regs o.ty.wide o.ty.signedInt o.d
      (l.affineOr (affTy o.ty && !satOf o) (fun p q =>
        if q.2 = 0 then some (p.1 <<< (q.1.toNat % 32), p.2 <<< (q.1.toNat % 32)) else none) dense)

/-- A result on the bit patterns of the sources (R179, R180). -/
def Ctx.pat (c : Ctx) (words : Nat) (op : Op) (o : Long) (f : Nat → Nat → Nat → Nat) : State :=
  c.int words op o fun a b x => storePat o.ty (f (patOf o.ty a) (patOf o.ty b) (patOf o.ty x))

def shrPat (_ : Nat) (a k : Nat) : Nat := a / 2 ^ k
/-- Copies of bit w − 1 enter (R179). -/
def sarPat (w a k : Nat) : Nat := wrapZ w (signed w a / (2 ^ k : Nat))
def rolPat (w a k : Nat) : Nat := a * 2 ^ k % 2 ^ w + a / 2 ^ (w - k)

def Ctx.runShift (c : Ctx) (words : Nat) (op : Op) (o : Long) (f : Nat → Nat → Nat → Nat) : State :=
  c.pat words op o fun a b _ => f o.ty.width a (b % o.ty.width)

def execShl (o : Short) (s : State) : Host.Outcome State Fault Refusal := s.issue fun c => c.runShl 1 (o.toLong .shl)
def execShlLong (o : Long) (s : State) : Host.Outcome State Fault Refusal := s.issue fun c => c.runShl (longWords o) o
def execShr (o : Short) (s : State) : Host.Outcome State Fault Refusal :=
  s.issue fun c => c.runShift 1 .shr (o.toLong .shr) shrPat
def execShrLong (o : Long) (s : State) : Host.Outcome State Fault Refusal :=
  s.issue fun c => c.runShift (longWords o) .shr o shrPat
def execSar (o : Short) (s : State) : Host.Outcome State Fault Refusal :=
  s.issue fun c => c.runShift 1 .sar (o.toLong .sar) sarPat
def execSarLong (o : Long) (s : State) : Host.Outcome State Fault Refusal :=
  s.issue fun c => c.runShift (longWords o) .sar o sarPat
def execRol (o : Short) (s : State) : Host.Outcome State Fault Refusal :=
  s.issue fun c => c.runShift 1 .rol (o.toLong .rol) rolPat
def execRolLong (o : Long) (s : State) : Host.Outcome State Fault Refusal :=
  s.issue fun c => c.runShift (longWords o) .rol o rolPat

/-! ### Bit patterns (R180) -/

def execAnd (o : Short) (s : State) : Host.Outcome State Fault Refusal :=
  s.issue fun c => c.pat 1 .and (o.toLong .and) fun a b _ => a &&& b
def execAndLong (o : Long) (s : State) : Host.Outcome State Fault Refusal :=
  s.issue fun c => c.pat (longWords o) .and o fun a b _ => a &&& b
def execOr (o : Short) (s : State) : Host.Outcome State Fault Refusal :=
  s.issue fun c => c.pat 1 .or (o.toLong .or) fun a b _ => a ||| b
def execOrLong (o : Long) (s : State) : Host.Outcome State Fault Refusal :=
  s.issue fun c => c.pat (longWords o) .or o fun a b _ => a ||| b
def execXor (o : Short) (s : State) : Host.Outcome State Fault Refusal :=
  s.issue fun c => c.pat 1 .xor (o.toLong .xor) fun a b _ => a ^^^ b
def execXorLong (o : Long) (s : State) : Host.Outcome State Fault Refusal :=
  s.issue fun c => c.pat (longWords o) .xor o fun a b _ => a ^^^ b

/-- The complement of a pattern of width `w`. -/
def notPat (w a : Nat) : Nat := 2 ^ w - 1 - a % 2 ^ w

def execAndn (o : Short) (s : State) : Host.Outcome State Fault Refusal :=
  s.issue fun c => c.pat 1 .andn (o.toLong .andn) fun a b _ => a &&& notPat (o.toLong .andn).ty.width b
def execAndnLong (o : Long) (s : State) : Host.Outcome State Fault Refusal :=
  s.issue fun c => c.pat (longWords o) .andn o fun a b _ => a &&& notPat o.ty.width b
def execNot (o : Short) (s : State) : Host.Outcome State Fault Refusal :=
  s.issue fun c => c.pat 1 .not (o.toLong .not) fun a _ _ => notPat (o.toLong .not).ty.width a
def execNotLong (o : Long) (s : State) : Host.Outcome State Fault Refusal :=
  s.issue fun c => c.pat (longWords o) .not o fun a _ _ => notPat o.ty.width a

/-- The number of 1 bits in the low `w` bits. -/
def popcPat (w a : Nat) : Nat := ((List.range w).filter fun k => a.testBit k).length
/-- Zeros above the highest 1 bit of `w` bits. -/
def clzPat (w a : Nat) : Nat := if a % 2 ^ w = 0 then w else w - 1 - Nat.log2 (a % 2 ^ w)
/-- Zeros below the lowest 1 bit of `w` bits. -/
def ctzPat (w a : Nat) : Nat := ((List.range w).find? fun k => a.testBit k).getD w
/-- The `w` bits reversed. -/
def brevPat : Nat → Nat → Nat
  | 0, _ => 0
  | w + 1, a => a % 2 * 2 ^ w + brevPat w (a / 2)

def Ctx.runBits (c : Ctx) (words : Nat) (op : Op) (o : Long) (f : Nat → Nat → Nat) : State :=
  c.pat words op o fun a _ _ => f o.ty.width a

def execPopc (o : Short) (s : State) : Host.Outcome State Fault Refusal :=
  s.issue fun c => c.runBits 1 .popc (o.toLong .popc) popcPat
def execPopcLong (o : Long) (s : State) : Host.Outcome State Fault Refusal :=
  s.issue fun c => c.runBits (longWords o) .popc o popcPat
def execClz (o : Short) (s : State) : Host.Outcome State Fault Refusal :=
  s.issue fun c => c.runBits 1 .clz (o.toLong .clz) clzPat
def execClzLong (o : Long) (s : State) : Host.Outcome State Fault Refusal :=
  s.issue fun c => c.runBits (longWords o) .clz o clzPat
def execCtz (o : Short) (s : State) : Host.Outcome State Fault Refusal :=
  s.issue fun c => c.runBits 1 .ctz (o.toLong .ctz) ctzPat
def execCtzLong (o : Long) (s : State) : Host.Outcome State Fault Refusal :=
  s.issue fun c => c.runBits (longWords o) .ctz o ctzPat
def execBrev (o : Short) (s : State) : Host.Outcome State Fault Refusal :=
  s.issue fun c => c.runBits 1 .brev (o.toLong .brev) brevPat
def execBrevLong (o : Long) (s : State) : Host.Outcome State Fault Refusal :=
  s.issue fun c => c.runBits (longWords o) .brev o brevPat

/-! ### Bit fields (R181) -/

/-- Position and clamped length of the control word, or none where the field is empty (R181). -/
def fieldOf (w : Nat) (b : W64) : Option (Nat × Nat) :=
  let pos := b.toNat % 256
  let len := b.toNat / 256 % 256
  if len = 0 ∨ w ≤ pos then none else some (pos, min len (w - pos))

def bfx (t : Ty) (a b : W64) : W64 :=
  match fieldOf t.width b with
  | none => 0
  | some (pos, len) =>
    let f := patOf t a / 2 ^ pos % 2 ^ len
    storePat t (if t.signedInt then wrapZ t.width (signed len f) else f)

def bfi (t : Ty) (a b c : W64) : W64 :=
  match fieldOf t.width b with
  | none => storePat t (patOf t c)
  | some (pos, len) => storePat t (setBits (patOf t c) pos len (patOf t a))

def execBfx (o : Short) (s : State) : Host.Outcome State Fault Refusal :=
  s.issue fun c => c.int 1 .bfx (o.toLong .bfx) fun a b _ => bfx (o.toLong .bfx).ty a b
def execBfxLong (o : Long) (s : State) : Host.Outcome State Fault Refusal :=
  s.issue fun c => c.int (longWords o) .bfx o fun a b _ => bfx o.ty a b
def execBfi (o : Short) (s : State) : Host.Outcome State Fault Refusal :=
  s.issue fun c => c.int 1 .bfi (o.toLong .bfi) fun a b x => bfi (o.toLong .bfi).ty a b x
def execBfiLong (o : Long) (s : State) : Host.Outcome State Fault Refusal :=
  s.issue fun c => c.int (longWords o) .bfi o fun a b x => bfi o.ty a b x

/-! ### ICMP (R182, R183) -/

/-- A condition of R182 between two integers. -/
def condOf (cc : Nat) (x y : Int) : Bool :=
  match cc with
  | 0 => x = y
  | 1 => x ≠ y
  | 2 => x < y
  | 3 => x ≤ y
  | 4 => y < x
  | _ => y ≤ x

/-- The mirror of a condition. -/
def mirror : Nat → Nat
  | 2 => 4
  | 3 => 5
  | 4 => 2
  | 5 => 3
  | cc => cc

/-- The step of R183: an AFF source (b, d) against a UNI value over the range [start, start + n). -/
def stepPred (t : Ty) (cc start n : Nat) (b d u : W32) : Option PReg :=
  let val (i : Nat) : Int := intOf t (b.setWidth 64) + d.toInt * i
  let last := val (n - 1)
  let lo : Int := if t.signedInt then -(2 ^ 31 : Nat) else 0
  let hi : Int := if t.signedInt then (2 ^ 31 : Nat) - 1 else (2 ^ 32 : Nat) - 1
  if last < lo ∨ hi < last then none
  else
    let T := (List.range n).filter fun i => condOf cc (val i) (intOf t (u.setWidth 64))
    some (if T.isEmpty then .uni false else if T.length = n then .uni true
      else if T.contains 0 then .aff (start + T.length) false else .aff (start + n - T.length) true)

/-- The AFF predicate of an ICMP, where R35 gives one. -/
def Lane.step (l : Lane) (t : Ty) (cc : Nat) : Option PReg :=
  if l.items.isSome ∨ !affTy t ∨ cc < 2 then none
  else match l.a, l.b with
    | .aff b d, .uni u => stepPred t cc l.e.start l.e.len b d (u.setWidth 32)
    | .uni u, .aff b d => stepPred t (mirror cc) l.e.start l.e.len b d (u.setWidth 32)
    | _, _ => none

def Ctx.runIcmp (c : Ctx) (words : Nat) (o : Long) : State :=
  c.lane words .icmp o fun l =>
    let cc := o.mod.val % 8
    let dense := l.each fun a b _ => truth (condOf cc (intOf o.ty a) (intOf o.ty b))
    match o.d, l.step o.ty cc with
    | .p d, some r => .ok (l.e.putP d r none)
    | _, _ => l.write c.ke.regs o.ty.wide false o.d dense

def execIcmp (o : Short) (s : State) : Host.Outcome State Fault Refusal := s.issue fun c => c.runIcmp 1 (o.toLong .icmp)
def execIcmpLong (o : Long) (s : State) : Host.Outcome State Fault Refusal := s.issue fun c => c.runIcmp (longWords o) o

/-! ### PLOG, LEA, ICVT (R184 to R186) -/

/-- The bit of the table that the truths of A, B and C pick (R184). -/
def plogBit (lut : Nat) (a b c : W64) : W64 :=
  truth (lut.testBit ((if a = 0 then 0 else 4) + (if b = 0 then 0 else 2) + (if c = 0 then 0 else 1)))

def Ctx.runPlog (c : Ctx) (words : Nat) (o : Long) : State :=
  c.lane words .plog o fun l =>
    let dense := l.each fun a b x => plogBit (o.imm.val % 256) a b x
    match o.d, o.a with
    | .p d, .p a =>
      (match l.e.pred a with
      | .aff t sense =>
        if l.items.isNone ∧ o.imm.val = 0x0F ∧ o.b = .zero ∧ o.c = .zero then .ok (l.e.putP d (.aff t (!sense)) none)
        else l.write c.ke.regs false false o.d dense
      | _ => l.write c.ke.regs false false o.d dense)
    | _, _ => l.write c.ke.regs false false o.d dense

def execPlog (o : Short) (s : State) : Host.Outcome State Fault Refusal := s.issue fun c => c.runPlog 1 (o.toLong .plog)
def execPlogLong (o : Long) (s : State) : Host.Outcome State Fault Refusal := s.issue fun c => c.runPlog (longWords o) o

/-- LEA: A + B × 2^k (R185). -/
def Ctx.runLea (c : Ctx) (words : Nat) (o : Long) : State :=
  c.laneEach words .lea o true false fun a b _ =>
    BitVec.ofNat 64 (wrapZ 64 ((a.toNat : Int) + intOf o.ty b * (2 ^ (o.mod.val % 8) : Nat)))

def execLea (o : Short) (s : State) : Host.Outcome State Fault Refusal := s.issue fun c => c.runLea 1 (o.toLong .lea)
def execLeaLong (o : Long) (s : State) : Host.Outcome State Fault Refusal := s.issue fun c => c.runLea (longWords o) o

/-- ICVT: A as its type, stored as the target type (R186). -/
def Ctx.runIcvt (c : Ctx) (words : Nat) (o : Long) : State :=
  let u := (iTarget (o.mod.val % 16)).getD .i32
  c.laneEach words .icvt o u.wide u.signedInt fun a _ _ => storeInt u (decide (o.mod.val / 16 % 2 = 1)) (intOf o.ty a)

def execIcvt (o : Short) (s : State) : Host.Outcome State Fault Refusal := s.issue fun c => c.runIcvt 1 (o.toLong .icvt)
def execIcvtLong (o : Long) (s : State) : Host.Outcome State Fault Refusal := s.issue fun c => c.runIcvt (longWords o) o

end Sys2Proof.Machine
end

