-- ==== Sys2Proof/Machine/Float.lean ====
section
/-!
DEFINITION. The IEEE formats and the binary8 family with exact arithmetic (spec/04, R89 to R101; spec/08, R193 to R203).

A finite value is an exact dyadic `(-1)^neg * m * 2^e`.  Every operation computes exactly and rounds once.
-/
namespace Sys2Proof.Float

/-- An IEEE binary format of R89: exponent bits and fraction bits. -/
structure Fmt where
  eb : Nat
  fb : Nat
deriving DecidableEq, Repr

/-- The four IEEE formats of R89. -/
def f64 : Fmt := ⟨11, 52⟩
def f32 : Fmt := ⟨8, 23⟩
def f16 : Fmt := ⟨5, 10⟩
def bf16 : Fmt := ⟨8, 7⟩

def Fmt.width (f : Fmt) : Nat := 1 + f.eb + f.fb
def Fmt.bias (f : Fmt) : Nat := 2 ^ (f.eb - 1) - 1
/-- The exponent of the last place of subnormals. -/
def Fmt.qmin (f : Fmt) : Int := 1 - (f.bias : Int) - f.fb
/-- Magnitude code of infinity. -/
def Fmt.infCode (f : Fmt) : Nat := (2 ^ f.eb - 1) * 2 ^ f.fb
/-- Canonical NaN of the format (R89, R90). -/
def Fmt.nan (f : Fmt) : Nat := f.infCode + 2 ^ (f.fb - 1)
def Fmt.signBit (f : Fmt) : Nat := 2 ^ (f.eb + f.fb)

/-- Rounding modes of R91. -/
inductive Mode where
  | rne | rtz | rdn | rup
deriving DecidableEq, Repr

def Mode.ofCode : Nat → Mode
  | 1 => .rtz
  | 2 => .rdn
  | 3 => .rup
  | _ => .rne

/-- A decoded value. -/
inductive Val where
  | nan
  | inf (neg : Bool)
  | fin (neg : Bool) (m : Nat) (e : Int)
deriving DecidableEq, Repr

/-- Reads the bits of a value (R89). -/
def decode (f : Fmt) (bits : Nat) : Val :=
  let neg := bits / f.signBit % 2 = 1
  let ex := bits / 2 ^ f.fb % 2 ^ f.eb
  let fr := bits % 2 ^ f.fb
  if ex = 2 ^ f.eb - 1 then (if fr = 0 then .inf neg else .nan)
  else if ex = 0 then .fin neg fr f.qmin
  else .fin neg (fr + 2 ^ f.fb) (f.qmin + (ex - 1 : Nat))

def withSign (f : Fmt) (neg : Bool) (mag : Nat) : Nat := if neg then f.signBit + mag else mag

/-- The integer nearest `m * 2^-s` in the mode, for a value of sign `neg`; ties to even under RNE. -/
def roundShift (md : Mode) (neg : Bool) (m s : Nat) : Nat :=
  let q := m / 2 ^ s
  let r := m % 2 ^ s
  let up : Bool :=
    if r = 0 then false
    else match md with
      | .rne => if 2 * r = 2 ^ s then q % 2 = 1 else 2 ^ s < 2 * r
      | .rtz => false
      | .rdn => neg
      | .rup => !neg
  if up then q + 1 else q

/-- Multiply by a power of two (exactly) or round down to an integer multiple, as the exponent says. -/
def scaleRound (md : Mode) (neg : Bool) (m : Nat) (e q : Int) : Nat :=
  if q ≤ e then m * 2 ^ (e - q).toNat else roundShift md neg m (q - e).toNat

/-- What a magnitude beyond the largest finite becomes (R91). -/
def overflow (f : Fmt) (md : Mode) (neg : Bool) : Nat :=
  let toInf : Bool := match md with
    | .rne => true
    | .rtz => false
    | .rdn => neg
    | .rup => !neg
  withSign f neg (if toInf then f.infCode else f.infCode - 1)

/-- `Round` of R91 on an exact dyadic; a zero keeps the sign it is given. -/
def round (f : Fmt) (md : Mode) (neg : Bool) (m : Nat) (e : Int) : Nat :=
  if m = 0 then withSign f neg 0
  else
    let top : Int := Nat.log2 m + e
    let q := max (top - f.fb) f.qmin
    let n := scaleRound md neg m e q
    let code := n + (q - f.qmin).toNat * 2 ^ f.fb
    if f.infCode ≤ code then overflow f md neg else withSign f neg code

/-- Writes a decoded value in a format under a mode (R90 to R92). -/
def encode (f : Fmt) (md : Mode) : Val → Nat
  | .nan => f.nan
  | .inf neg => withSign f neg f.infCode
  | .fin neg m e => round f md neg m e

/-- The exact sum as a signed integer over a common exponent. -/
def sumAt (n1 : Bool) (m1 : Nat) (e1 : Int) (n2 : Bool) (m2 : Nat) (e2 : Int) : Int × Int :=
  let e := min e1 e2
  let a : Int := m1 * 2 ^ (e1 - e).toNat
  let b : Int := m2 * 2 ^ (e2 - e).toNat
  ((if n1 then -a else a) + (if n2 then -b else b), e)

/-- IEEE addition on exact values; an exact zero sum of opposite signs is +0, or -0 under RDN (R91). -/
def addV (md : Mode) : Val → Val → Val
  | .nan, _ => .nan
  | _, .nan => .nan
  | .inf a, .inf b => if a = b then .inf a else .nan
  | .inf a, .fin _ _ _ => .inf a
  | .fin _ _ _, .inf b => .inf b
  | .fin n1 m1 e1, .fin n2 m2 e2 =>
    let (s, e) := sumAt n1 m1 e1 n2 m2 e2
    if s = 0 then
      (if m1 = 0 ∧ m2 = 0 ∧ n1 = n2 then .fin n1 0 0 else .fin (md = .rdn) 0 0)
    else .fin (s < 0) s.natAbs e

/-- IEEE multiplication on exact values. -/
def mulV : Val → Val → Val
  | .nan, _ => .nan
  | _, .nan => .nan
  | .inf a, .inf b => .inf (a != b)
  | .inf a, .fin b m _ => if m = 0 then .nan else .inf (a != b)
  | .fin a m _, .inf b => if m = 0 then .nan else .inf (a != b)
  | .fin a m1 e1, .fin b m2 e2 => .fin (a != b) (m1 * m2) (e1 + e2)

def negV : Val → Val
  | .nan => .nan
  | .inf a => .inf (!a)
  | .fin a m e => .fin (!a) m e

/-- The quotient with at least `prec` bits and a sticky last bit, so that one later rounding is exact. -/
def divV (prec : Nat) : Val → Val → Val
  | .nan, _ => .nan
  | _, .nan => .nan
  | .inf _, .inf _ => .nan
  | .inf a, .fin b _ _ => .inf (a != b)
  | .fin a _ _, .inf b => .fin (a != b) 0 0
  | .fin a m1 e1, .fin b m2 e2 =>
    if m2 = 0 then (if m1 = 0 then .nan else .inf (a != b))
    else if m1 = 0 then .fin (a != b) 0 0
    else
      let k := prec + Nat.log2 m2 + 2
      let q := m1 * 2 ^ k / m2
      let r := m1 * 2 ^ k % m2
      .fin (a != b) (2 * q + (if r = 0 then 0 else 1)) (e1 - e2 - k - 1)

/-- Square root of a natural number by Newton's iteration from above, on a fuel. -/
def isqrtLoop : Nat → Nat → Nat → Nat
  | 0, _, x => x
  | fuel + 1, n, x =>
    let y := (x + n / x) / 2
    if y < x then isqrtLoop fuel n y else x

/-- The floor of the square root. -/
def isqrt (n : Nat) : Nat :=
  if n = 0 then 0 else isqrtLoop (Nat.log2 n + 8) n (2 ^ (Nat.log2 n / 2 + 1))

/-- The square root with at least `prec` bits and a sticky bit. -/
def sqrtV (prec : Nat) : Val → Val
  | .nan => .nan
  | .inf true => .nan
  | .inf false => .inf false
  | .fin neg m e =>
    if m = 0 then .fin neg 0 0
    else if neg then .nan
    else
      let k0 := 2 * prec + 4
      let k := if (e - k0) % 2 = 0 then k0 else k0 + 1
      let n := m * 2 ^ k
      let r := isqrt n
      .fin false (2 * r + (if r * r = n then 0 else 1)) ((e - k) / 2 - 1)

/-- `1 / sqrt` with a sticky bit (R194): the exact cases `A = 4^k` come out exact. -/
def rsqrtV (prec : Nat) : Val → Val
  | .nan => .nan
  | .inf true => .nan
  | .inf false => .fin false 0 0
  | .fin neg m e =>
    if m = 0 then .inf neg
    else if neg then .nan
    else
      -- 1/sqrt(m 2^e) = sqrt(2^t / m) * 2^(-(t+e)/2) with t + e even; floor of sqrt of the floor is the floor
      let t0 := 2 * prec + 2 * Nat.log2 m + 8
      let t := if (t0 + e) % 2 = 0 then t0 else t0 + 1
      let n := 2 ^ t / m
      let r := isqrt n
      let exact : Bool := r * r * m = 2 ^ t
      .fin false (2 * r + (if exact then 0 else 1)) (-((t + e) / 2) - 1)

/-- Compares two finite exact values: negative, zero or positive. -/
def cmpFin (n1 : Bool) (m1 : Nat) (e1 : Int) (n2 : Bool) (m2 : Nat) (e2 : Int) : Int :=
  (sumAt n1 m1 e1 (!n2) m2 e2).1

/-- Numeric order of two values that are not NaN; the result's sign is that of `a - b` (R198). -/
def cmpV : Val → Val → Int
  | .inf a, .inf b => if a = b then 0 else if a then -1 else 1
  | .inf a, _ => if a then -1 else 1
  | _, .inf b => if b then 1 else -1
  | .fin n1 m1 e1, .fin n2 m2 e2 => cmpFin n1 m1 e1 n2 m2 e2
  | _, _ => 0

def Val.isNan : Val → Bool
  | .nan => true
  | _ => false

def Val.isNegV : Val → Bool
  | .nan => false
  | .inf n => n
  | .fin n _ _ => n

/-! ### The instructions' functions on bit patterns -/

/-- FADD (R193). -/
def fadd (f : Fmt) (md : Mode) (a b : Nat) : Nat := encode f md (addV md (decode f a) (decode f b))
/-- FSUB (R193). -/
def fsub (f : Fmt) (md : Mode) (a b : Nat) : Nat := encode f md (addV md (decode f a) (negV (decode f b)))
/-- FMUL (R193). -/
def fmul (f : Fmt) (md : Mode) (a b : Nat) : Nat := encode f md (mulV (decode f a) (decode f b))
/-- FFMA: one rounding of the exact `A * B + C` (R193). -/
def ffma (f : Fmt) (md : Mode) (a b c : Nat) : Nat :=
  encode f md (addV md (mulV (decode f a) (decode f b)) (decode f c))
/-- FDIV (R193). -/
def fdiv (f : Fmt) (md : Mode) (a b : Nat) : Nat := encode f md (divV (f.fb + 4) (decode f a) (decode f b))
/-- FRCP: `1 / A` (R193). -/
def frcp (f : Fmt) (md : Mode) (a : Nat) : Nat := encode f md (divV (f.fb + 4) (.fin false 1 0) (decode f a))
/-- FSQRT (R193). -/
def fsqrt (f : Fmt) (md : Mode) (a : Nat) : Nat := encode f md (sqrtV (f.fb + 4) (decode f a))
/-- FRSQ (R194), rounded under RNE. -/
def frsq (f : Fmt) (a : Nat) : Nat := encode f .rne (rsqrtV (f.fb + 4) (decode f a))

/-- Whether `a` comes before `b` when -0 is ordered below +0 (R195); neither is NaN. -/
def lessV (a b : Val) : Bool :=
  let c := cmpV a b
  if c < 0 then true else if 0 < c then false else (a.isNegV && !b.isNegV)

/-- FMIN and FMAX with and without `.num` (R195). -/
def fminmax (f : Fmt) (isMax num : Bool) (a b : Nat) : Nat :=
  let x := decode f a
  let y := decode f b
  match x.isNan, y.isNan with
  | true, true => f.nan
  | true, false => if num then wrapN f.width b else f.nan
  | false, true => if num then wrapN f.width a else f.nan
  | false, false =>
    let aFirst := lessV x y
    if isMax then (if aFirst then wrapN f.width b else wrapN f.width a)
    else (if lessV y x then wrapN f.width b else wrapN f.width a)

/-- FABS and FNEG (R196). -/
def fabs (f : Fmt) (a : Nat) : Nat := a % f.signBit
def fneg (f : Fmt) (a : Nat) : Nat :=
  let b := a % 2 ^ f.width
  if b < f.signBit then b + f.signBit else b - f.signBit

/-- The one-hot class word of FCLASS (R197). -/
def fclass (f : Fmt) (a : Nat) : Nat :=
  let neg := a / f.signBit % 2 = 1
  let ex := a / 2 ^ f.fb % 2 ^ f.eb
  let fr := a % 2 ^ f.fb
  if ex = 2 ^ f.eb - 1 then
    if fr = 0 then (if neg then 4 else 512)
    else if fr / 2 ^ (f.fb - 1) % 2 = 1 then 2 else 1
  else if ex = 0 then
    if fr = 0 then (if neg then 32 else 64) else (if neg then 16 else 128)
  else (if neg then 8 else 256)

/-- FCMP (R198): the truth of `a cc b`. -/
def fcmp (f : Fmt) (cc : Nat) (a b : Nat) : Bool :=
  let x := decode f a
  let y := decode f b
  let un := x.isNan || y.isNan
  let c := cmpV x y
  match cc with
  | 0 => !un && c = 0
  | 1 => un || c ≠ 0
  | 2 => !un && c < 0
  | 3 => !un && c ≤ 0
  | 4 => !un && 0 < c
  | 5 => !un && 0 ≤ c
  | 6 => un
  | _ => !un

/-- FCVT between IEEE formats (R92, R200). -/
def fcvt (src dst : Fmt) (md : Mode) (a : Nat) : Nat := encode dst md (decode src a)

/-- FITOF (R200). -/
def ofInt (dst : Fmt) (md : Mode) (z : Int) : Nat := round dst md (z < 0) z.natAbs 0

/-- `RoundInt` of R201 on a finite value. -/
def roundInt (md : Mode) (neg : Bool) (m : Nat) (e : Int) : Int :=
  let n : Int := scaleRound md neg m e 0
  if neg then -n else n

/-- FFTOI (R201): the saturated integer. -/
def toInt (src : Fmt) (md : Mode) (sg : Bool) (w : Nat) (a : Nat) : Int :=
  match decode src a with
  | .nan => 0
  | .inf neg => satZ sg w (if neg then -(2 ^ 80 : Nat) else (2 ^ 80 : Nat))
  | .fin neg m e => satZ sg w (roundInt md neg m e)

/-! ### The binary8 family (R93 to R100) -/

/-- A binary8 format code of R93. -/
structure B8 where
  p : Nat
  sg : Bool
  inf : Bool
deriving DecidableEq, Repr

def B8.ofCode (c : Nat) : B8 := ⟨c % 8, c / 8 % 2 = 1, c / 16 % 2 = 1⟩
def B8.frac (b : B8) : Nat := b.p - 1
def B8.bias (b : B8) : Nat := if b.sg then 2 ^ (7 - b.p) else 2 ^ (8 - b.p)
def B8.nanCode (b : B8) : Nat := if b.sg then 0x80 else 0xFF
/-- The magnitude code of the largest finite value (R95, R96). -/
def B8.maxCode (b : B8) : Nat :=
  match b.sg, b.inf with
  | true, false => 0x7F
  | true, true => 0x7E
  | false, false => 0xFE
  | false, true => 0xFD
/-- The exponent of the last place of subnormals. -/
def B8.qmin (b : B8) : Int := 1 - (b.bias : Int) - b.frac

/-- The exact value of a magnitude code. -/
def B8.mag (b : B8) (m : Nat) : Nat × Int :=
  let e := m / 2 ^ b.frac
  let t := m % 2 ^ b.frac
  if e = 0 ∧ 1 < b.p then (t, b.qmin)
  else if e = 0 then (if m = 0 then (0, 0) else (1, b.qmin))
  else (t + 2 ^ b.frac, b.qmin + ((e : Int) - 1))

/-- The value of a code (R94). -/
def B8.decode (b : B8) (c : Nat) : Val :=
  let c := c % 256
  if c = b.nanCode then .nan
  else
    let neg := b.sg && c / 128 = 1
    let m := if b.sg then c % 128 else c
    if b.inf && m = b.maxCode + 1 then .inf neg
    else .fin neg (b.mag m).1 (b.mag m).2

/-- The infinity's code of an `i` format. -/
def B8.infCode (b : B8) (neg : Bool) : Nat :=
  if b.sg then (if neg then 0xFF else 0x7F) else 0xFE

def B8.signed (b : B8) (neg : Bool) (mag : Nat) : Nat :=
  if mag = 0 then 0 else if neg && b.sg then 128 + mag else mag

/-- The magnitude code that a magnitude rounds to with the exponent range continued upward (R97). -/
def B8.roundCode (b : B8) (m : Nat) (e : Int) : Nat :=
  if m = 0 then 0
  else if b.p = 1 then
    -- one significand bit: codes are powers of two, code c standing for 2^(c - bias); a tie goes to the even code
    let k : Int := Nat.log2 m + e + b.bias
    if k < 0 then
      -- below 2^-bias = value of... code 0 is the only zero; halfway to code 1 rounds to the even code 0
      0
    else
      let lo := k.toNat
      let loM : Nat := if lo = 0 then 0 else 2 ^ Nat.log2 m
      let hiM : Nat := 2 ^ (Nat.log2 m + 1)
      let d := 2 * m
      if d < loM + hiM then lo else if loM + hiM < d then lo + 1 else if lo % 2 = 0 then lo else lo + 1
  else
    let top : Int := Nat.log2 m + e
    let q := max (top - b.frac) b.qmin
    let n := scaleRound .rne false m e q
    n + (q - b.qmin).toNat * 2 ^ b.frac

/-- QCVT under RNE (`sat = false`) and SAT (R97). -/
def B8.convert (b : B8) (sat : Bool) : Val → Nat
  | .nan => b.nanCode
  | .inf neg =>
    if b.sg || !neg then
      (if sat then b.signed neg b.maxCode else if b.inf then b.infCode neg else b.nanCode)
    else (if sat then 0 else b.nanCode)
  | .fin neg m e =>
    let code := b.roundCode m e
    if !b.sg && neg && code ≠ 0 then (if sat then 0 else b.nanCode)
    else if b.maxCode < code then
      (if sat then b.signed neg b.maxCode else if b.inf then b.infCode neg else b.nanCode)
    else b.signed neg code

/-- The largest magnitude code whose value is at most `m * 2^e`, at most the largest finite. -/
def B8.floorCode (b : B8) (m : Nat) (e : Int) : Nat → Nat
  | 0 => 0
  | k + 1 =>
    let v := b.mag (k + 1)
    if 0 ≤ cmpFin false m e false v.1 v.2 then k + 1 else b.floorCode m e k

/-- QCVT under SR with the draw `r` (R99). -/
def B8.convertSR (b : B8) (r : Nat) : Val → Nat
  | .nan => b.nanCode
  | .inf neg => if b.sg || !neg then b.signed neg b.maxCode else 0
  | .fin neg m e =>
    let lo := b.floorCode m e b.maxCode
    let vlo := b.mag lo
    if !b.sg && neg && b.roundCode m e ≠ 0 then 0
    else if lo = b.maxCode then b.signed neg lo
    else
      let vhi := b.mag (lo + 1)
      -- on the number line: for a negative x the upper neighbour is the one of smaller magnitude
      let num := sumAt false m e true vlo.1 vlo.2
      let den := sumAt false vhi.1 vhi.2 true vlo.1 vlo.2
      let c := min num.2 den.2
      let nI : Nat := num.1.natAbs * 2 ^ (num.2 - c).toNat
      let dI : Nat := den.1.natAbs * 2 ^ (den.2 - c).toNat
      if nI = 0 then b.signed neg lo
      else if neg && b.sg then
        -- lo(number) = -(vhi), hi(number) = -(vlo); (x - lo)/(hi - lo) = (dI - nI)/dI
        if r < 2 ^ 32 * (dI - nI) / dI then b.signed neg lo else b.signed neg (lo + 1)
      else if neg then 0
      else if r < 2 ^ 32 * nI / dI then b.signed neg (lo + 1) else b.signed neg lo

/-- The least integer `x` with `m * 2^(e - x) ≤ F`, for a non-zero magnitude (R203). -/
def B8.fitExp (b : B8) (m : Nat) (e : Int) : Int :=
  let f := b.mag b.maxCode
  -- compare m * 2^(e-x) with F = f.1 * 2^f.2; start from the difference of the leading exponents
  let d : Int := (Nat.log2 m + e) - (Nat.log2 f.1 + f.2)
  let fits (x : Int) : Bool := cmpFin false m (e - x) false f.1 f.2 ≤ 0
  if fits d then d else d + 1

/-- QSCALE `.fit` (R203). -/
def B8.fit (b : B8) : Val → Nat
  | .nan => 0xFF
  | .inf _ => 0xFF
  | .fin _ m e => if m = 0 then 127 else (min (max (b.fitExp m e + 127) 0) 254).toNat

/-- QSCALE `.apply` (R203). -/
def applyScale (f : Fmt) (a sc : Nat) : Nat :=
  if sc % 256 = 255 then f.nan
  else match decode f a with
    | .fin neg m e => round f .rne neg m (e + 127 - (sc % 256 : Nat))
    | v => encode f .rne v

/-! ### The rounding generator (R98) -/

/-- The xorshift step `xs` of R98. -/
def xs (y0 : W32) : W32 :=
  let y1 := y0 ^^^ (y0 <<< 13)
  let y2 := y1 ^^^ (y1 >>> 17)
  y2 ^^^ (y2 <<< 5)

/-- `rand(G, i)` of R98. -/
def rand (g : W32) (i : Nat) : W32 := xs (g + BitVec.ofNat 32 i * 0x9E3779B9#32)

end Sys2Proof.Float
end

