-- ==== Sys2Proof/Machine/Transc.lean ====
section
/-!
DEFINITION. FEXP2, FLOG2 and FTANH: the exact function value rounded under RNE (R194).

A value is enclosed between two dyadics of `P` fractional bits, each bound computed on integers with its error counted.  Where
both bounds round to one code, that code is the correctly rounded value; otherwise more bits are taken (assumption 12).
-/
namespace Sys2Proof.Float

/-- Floor and ceiling of `m * 2^(e + P)`. -/
def fixOf (P m : Nat) (e : Int) : Nat × Nat :=
  let x := e + P
  if 0 ≤ x then (m * 2 ^ x.toNat, m * 2 ^ x.toNat)
  else (m / 2 ^ (-x).toNat, m / 2 ^ (-x).toNat + (if m % 2 ^ (-x).toNat = 0 then 0 else 1))

/-- `acc + t + t*y/1 + ...`: the terms of the exponential series from term `k` on, each rounded down. -/
def expTerms (P y : Nat) : Nat → Nat → Nat → Nat → Nat
  | 0, _, _, acc => acc
  | n + 1, k, t, acc => expTerms P y n (k + 1) (t * y / 2 ^ P / (k + 1)) (acc + t)

/-- Bounds of `e^y` for `y` between two values below 1: the terms lose less than 4 units each (R194). -/
def expBounds (P ylo yhi : Nat) : Nat × Nat :=
  let n := P / 3 + 16
  (expTerms P ylo n 0 (2 ^ P) 0, expTerms P yhi n 0 (2 ^ P) 0 + 4 * n + 8)

/-- The terms `p/(2k+1)` of the series of the inverse hyperbolic tangent, each rounded down; `p` runs over the odd powers. -/
def atanhTerms (P z2 : Nat) : Nat → Nat → Nat → Nat → Nat
  | 0, _, _, acc => acc
  | n + 1, k, p, acc => atanhTerms P z2 n (k + 1) (p * z2 / 2 ^ P) (acc + p / (2 * k + 1))

/-- Bounds of `atanh z` for `z` between two values not above 1/3 and a unit. -/
def atanhBounds (P zlo zhi : Nat) : Nat × Nat :=
  let n := P / 3 + 8
  (atanhTerms P (zlo * zlo / 2 ^ P) n 0 zlo 0, atanhTerms P (zhi * zhi / 2 ^ P) n 0 zhi 0 + 8 * n + 8)

/-- Bounds of `ln 2 = 2 atanh (1/3)`. -/
def ln2Bounds (P : Nat) : Nat × Nat :=
  let b := atanhBounds P (2 ^ P / 3) (2 ^ P / 3 + 1)
  (2 * b.1, 2 * b.2)

/-- A value enclosed between two dyadics of one sign. -/
structure Enclosure where
  neg : Bool
  lo : Nat
  hi : Nat
  e : Int

/-- The code that the lower bound rounds to, and whether the upper bound rounds to it too. -/
def Enclosure.settle (f : Fmt) (x : Enclosure) : Nat × Bool :=
  let a := round f .rne x.neg x.lo x.e
  (a, decide (a = round f .rne x.neg x.hi x.e))

/-- 2^x for a finite x that is no integer, of magnitude below 2^15. -/
def exp2At (neg : Bool) (m : Nat) (e : Int) (P : Nat) : Enclosure :=
  let x := fixOf P m e
  -- the bounds of x as integers at scale 2^P
  let lo : Int := if neg then -(x.2 : Int) else x.1
  let hi : Int := if neg then -(x.1 : Int) else x.2
  let n : Int := lo / (2 ^ P : Nat)
  let flo := (lo - n * (2 ^ P : Nat)).toNat
  let fhi := (hi - n * (2 ^ P : Nat)).toNat
  let l := ln2Bounds P
  let b := expBounds P (flo * l.1 / 2 ^ P) (fhi * l.2 / 2 ^ P + 1)
  ⟨false, b.1, b.2, n - P⟩

/-- log2 x for a positive x = m * 2^e that is no power of two. -/
def log2At (m : Nat) (e : Int) (P : Nat) : Enclosure :=
  let k := Nat.log2 m
  let num := 2 ^ P * (m - 2 ^ k)
  let z := num / (m + 2 ^ k)
  let b := atanhBounds P z (z + 1)
  let l := ln2Bounds P
  let vlo : Int := ((k : Int) + e) * (2 ^ P : Nat) + (2 * b.1 * 2 ^ P / l.2 : Nat)
  let vhi : Int := ((k : Int) + e) * (2 ^ P : Nat) + (2 * b.2 * 2 ^ P / l.1 + 1 : Nat)
  if vhi < 0 then ⟨true, (-vhi).toNat, (-vlo).toNat, -(P : Int)⟩ else ⟨false, vlo.toNat, vhi.toNat, -(P : Int)⟩

/-- tanh of a magnitude m * 2^e between 2^-37 and 2^7, with its sign. -/
def tanhAt (neg : Bool) (m : Nat) (e : Int) (P : Nat) : Enclosure :=
  let y := fixOf P m (e + 1)
  let l := ln2Bounds P
  let n := y.1 / l.2
  let b := expBounds P (y.1 - n * l.2) (y.2 - n * l.1)
  let one := 2 ^ P
  let elo := b.1 * 2 ^ n
  let ehi := b.2 * 2 ^ n
  ⟨neg, (elo - one) * one / (elo + one), (ehi - one) * one / (ehi + one) + 1, -(P : Int)⟩

/-- The value at the first precision whose bounds round alike; bounds of 1,280 bits settle every value (assumption 12). -/
def trying (f : Fmt) (g : Nat → Enclosure) : Nat :=
  let a := (g 320).settle f
  if a.2 then a.1
  else
    let b := (g 640).settle f
    if b.2 then b.1 else ((g 1280).settle f).1

/-- The integer that m * 2^e is, if it is one and its magnitude is below 2^15. -/
def smallInt (neg : Bool) (m : Nat) (e : Int) : Option Int :=
  let k := (-e).toNat
  if m % 2 ^ k = 0 then
    let v : Int := (m / 2 ^ k * 2 ^ e.toNat : Nat)
    some (if neg then -v else v)
  else none

/-- FEXP2 (R194). -/
def fexp2 (f : Fmt) (a : Nat) : Nat :=
  match decode f a with
  | .nan => f.nan
  | .inf neg => if neg then 0 else f.infCode
  | .fin neg m e =>
    if m = 0 then round f .rne false 1 0
    else if 15 ≤ (Nat.log2 m : Int) + e then (if neg then 0 else f.infCode)
    else match smallInt neg m e with
      | some n => round f .rne false 1 n
      | none => trying f (exp2At neg m e)

/-- FLOG2 (R194). -/
def flog2 (f : Fmt) (a : Nat) : Nat :=
  match decode f a with
  | .nan => f.nan
  | .inf neg => if neg then f.nan else f.infCode
  | .fin neg m e =>
    if m = 0 then withSign f true f.infCode
    else if neg then f.nan
    else if m = 2 ^ Nat.log2 m then ofInt f .rne ((Nat.log2 m : Int) + e)
    else trying f (log2At m e)

/-- FTANH (R194): below 2^-36 the value lies just under x, from 2^7 on just under 1. -/
def ftanh (f : Fmt) (a : Nat) : Nat :=
  match decode f a with
  | .nan => f.nan
  | .inf neg => round f .rne neg 1 0
  | .fin neg m e =>
    if m = 0 then withSign f neg 0
    else
      let top : Int := Nat.log2 m + e
      if top < -36 then ((⟨neg, m * 2 ^ 70 - m, m * 2 ^ 70, e - 70⟩ : Enclosure).settle f).1
      else if 7 ≤ top then ((⟨neg, 2 ^ 150 - 1, 2 ^ 150, -150⟩ : Enclosure).settle f).1
      else trying f (tanhAt neg m e)

end Sys2Proof.Float
end

