-- ==== Sys2Proof/Machine/Floating.lean ====
section
/-!
DEFINITION. The floating-point instructions and the conversions (R189 to R203).
-/
namespace Sys2Proof.Machine
open Sys2Proof.Float (Fmt Mode B8)

/-- The format of a floating-point type (R89). -/
def fmtOf : Ty → Fmt
  | .f64 => Float.f64
  | .f16 => Float.f16
  | .bf16 => Float.bf16
  | _ => Float.f32

/-- The rounding mode in MOD[1:0] (R192). -/
def rmOf (o : Long) : Mode := Mode.ofCode (o.mod.val % 4)

/-- An instruction whose result, of a width, is a function of the patterns of its sources (R189, R191). -/
def Ctx.flt (c : Ctx) (words : Nat) (op : Op) (o : Long) (wide : Bool) (f : Nat → Nat → Nat → Nat) : State :=
  c.laneEach words op o wide false fun a b x => BitVec.ofNat 64 (f (patOf o.ty a) (patOf o.ty b) (patOf o.ty x))

/-- The same with a result of the instruction's own type. -/
def Ctx.fltT (c : Ctx) (words : Nat) (op : Op) (o : Long) (f : Fmt → Nat → Nat → Nat → Nat) : State :=
  c.flt words op o o.ty.wide (f (fmtOf o.ty))

/-! ### Arithmetic (R193 to R196) -/

def execFadd (o : Short) (s : State) : Host.Outcome State Fault Refusal :=
  s.issue fun c => c.fltT 1 .fadd (o.toLong .fadd) fun f a b _ => Float.fadd f .rne a b
def execFaddLong (o : Long) (s : State) : Host.Outcome State Fault Refusal :=
  s.issue fun c => c.fltT (longWords o) .fadd o fun f a b _ => Float.fadd f (rmOf o) a b
def execFsub (o : Short) (s : State) : Host.Outcome State Fault Refusal :=
  s.issue fun c => c.fltT 1 .fsub (o.toLong .fsub) fun f a b _ => Float.fsub f .rne a b
def execFsubLong (o : Long) (s : State) : Host.Outcome State Fault Refusal :=
  s.issue fun c => c.fltT (longWords o) .fsub o fun f a b _ => Float.fsub f (rmOf o) a b
def execFmul (o : Short) (s : State) : Host.Outcome State Fault Refusal :=
  s.issue fun c => c.fltT 1 .fmul (o.toLong .fmul) fun f a b _ => Float.fmul f .rne a b
def execFmulLong (o : Long) (s : State) : Host.Outcome State Fault Refusal :=
  s.issue fun c => c.fltT (longWords o) .fmul o fun f a b _ => Float.fmul f (rmOf o) a b
def execFfma (o : Short) (s : State) : Host.Outcome State Fault Refusal :=
  s.issue fun c => c.fltT 1 .ffma (o.toLong .ffma) fun f a b x => Float.ffma f .rne a b x
def execFfmaLong (o : Long) (s : State) : Host.Outcome State Fault Refusal :=
  s.issue fun c => c.fltT (longWords o) .ffma o fun f a b x => Float.ffma f (rmOf o) a b x

/-- FMIN and FMAX; `.num` is MOD[2] (R192, R195). -/
def Ctx.runFminmax (c : Ctx) (words : Nat) (op : Op) (o : Long) (isMax : Bool) : State :=
  c.fltT words op o fun f a b _ => Float.fminmax f isMax (decide (o.mod.val / 4 % 2 = 1)) a b

def execFmin (o : Short) (s : State) : Host.Outcome State Fault Refusal :=
  s.issue fun c => c.runFminmax 1 .fmin (o.toLong .fmin) false
def execFminLong (o : Long) (s : State) : Host.Outcome State Fault Refusal :=
  s.issue fun c => c.runFminmax (longWords o) .fmin o false
def execFmax (o : Short) (s : State) : Host.Outcome State Fault Refusal :=
  s.issue fun c => c.runFminmax 1 .fmax (o.toLong .fmax) true
def execFmaxLong (o : Long) (s : State) : Host.Outcome State Fault Refusal :=
  s.issue fun c => c.runFminmax (longWords o) .fmax o true

def execFabs (o : Short) (s : State) : Host.Outcome State Fault Refusal :=
  s.issue fun c => c.fltT 1 .fabs (o.toLong .fabs) fun f a _ _ => Float.fabs f a
def execFabsLong (o : Long) (s : State) : Host.Outcome State Fault Refusal :=
  s.issue fun c => c.fltT (longWords o) .fabs o fun f a _ _ => Float.fabs f a
def execFneg (o : Short) (s : State) : Host.Outcome State Fault Refusal :=
  s.issue fun c => c.fltT 1 .fneg (o.toLong .fneg) fun f a _ _ => Float.fneg f a
def execFnegLong (o : Long) (s : State) : Host.Outcome State Fault Refusal :=
  s.issue fun c => c.fltT (longWords o) .fneg o fun f a _ _ => Float.fneg f a

def execFrcp (o : Long) (s : State) : Host.Outcome State Fault Refusal :=
  s.issue fun c => c.fltT (longWords o) .frcp o fun f a _ _ => Float.frcp f (rmOf o) a
def execFrsq (o : Long) (s : State) : Host.Outcome State Fault Refusal :=
  s.issue fun c => c.fltT (longWords o) .frsq o fun f a _ _ => Float.frsq f a
def execFsqrt (o : Long) (s : State) : Host.Outcome State Fault Refusal :=
  s.issue fun c => c.fltT (longWords o) .fsqrt o fun f a _ _ => Float.fsqrt f (rmOf o) a
def execFdiv (o : Long) (s : State) : Host.Outcome State Fault Refusal :=
  s.issue fun c => c.fltT (longWords o) .fdiv o fun f a b _ => Float.fdiv f (rmOf o) a b
def execFexp2 (o : Long) (s : State) : Host.Outcome State Fault Refusal :=
  s.issue fun c => c.fltT (longWords o) .fexp2 o fun f a _ _ => Float.fexp2 f a
def execFlog2 (o : Long) (s : State) : Host.Outcome State Fault Refusal :=
  s.issue fun c => c.fltT (longWords o) .flog2 o fun f a _ _ => Float.flog2 f a
def execFtanh (o : Long) (s : State) : Host.Outcome State Fault Refusal :=
  s.issue fun c => c.fltT (longWords o) .ftanh o fun f a _ _ => Float.ftanh f a

/-! ### Classes and comparisons (R197, R198) -/

/-- FCLASS: the one-hot word under the mask in IMM, where 0 stands for 0x3FF (R197). -/
def Ctx.runFclass (c : Ctx) (words : Nat) (o : Long) : State :=
  let mask := if o.imm.val % 1024 = 0 then 0x3FF else o.imm.val % 1024
  c.flt words .fclass o false fun a _ _ => Float.fclass (fmtOf o.ty) a &&& mask

def execFclass (o : Short) (s : State) : Host.Outcome State Fault Refusal := s.issue fun c => c.runFclass 1 (o.toLong .fclass)
def execFclassLong (o : Long) (s : State) : Host.Outcome State Fault Refusal :=
  s.issue fun c => c.runFclass (longWords o) o

def Ctx.runFcmp (c : Ctx) (words : Nat) (o : Long) : State :=
  c.flt words .fcmp o false fun a b _ => if Float.fcmp (fmtOf o.ty) (o.mod.val % 8) a b then 1 else 0

def execFcmp (o : Short) (s : State) : Host.Outcome State Fault Refusal := s.issue fun c => c.runFcmp 1 (o.toLong .fcmp)
def execFcmpLong (o : Long) (s : State) : Host.Outcome State Fault Refusal := s.issue fun c => c.runFcmp (longWords o) o

/-! ### Conversions (R199 to R203) -/

/-- FCVT between IEEE formats: mode in MOD[1:0], target in MOD[3:2] (R199, R200). -/
def Ctx.runFcvt (c : Ctx) (words : Nat) (o : Long) : State :=
  let u := fTarget (o.mod.val / 4 % 4)
  c.flt words .fcvt o u.wide fun a _ _ => Float.fcvt (fmtOf o.ty) (fmtOf u) (rmOf o) a

def execFcvt (o : Short) (s : State) : Host.Outcome State Fault Refusal := s.issue fun c => c.runFcvt 1 (o.toLong .fcvt)
def execFcvtLong (o : Long) (s : State) : Host.Outcome State Fault Refusal := s.issue fun c => c.runFcvt (longWords o) o

/-- FCVT of a binary8 code: format in MOD[4:0], target in MOD[6:5], mode in IMM[1:0] (R199, R200). -/
def execFcvtB8 (o : Long) (s : State) : Host.Outcome State Fault Refusal :=
  s.issue fun c =>
    let u := fTarget (o.mod.val / 32)
    c.flt (longWords o) .fcvt o u.wide fun a _ _ =>
      Float.encode (fmtOf u) (Mode.ofCode (o.imm.val % 4)) ((B8.ofCode (o.mod.val % 32)).decode a)

/-- FITOF (R200). -/
def execFitof (o : Long) (s : State) : Host.Outcome State Fault Refusal :=
  s.issue fun c =>
    let u := fTarget (o.mod.val / 4 % 4)
    c.laneEach (longWords o) .fitof o u.wide false fun a _ _ =>
      BitVec.ofNat 64 (Float.ofInt (fmtOf u) (rmOf o) (intOf o.ty a))

/-- FFTOI: target in MOD[3:0], mode in MOD[5:4]; it saturates (R201). -/
def Ctx.runFftoi (c : Ctx) (words : Nat) (o : Long) : State :=
  let u := (iTarget (o.mod.val % 16)).getD .i32
  c.laneEach words .fftoi o u.wide u.signedInt fun a _ _ =>
    storeInt u false (Float.toInt (fmtOf o.ty) (Mode.ofCode (o.mod.val / 16 % 4)) u.signedInt u.width (patOf o.ty a))

def execFftoi (o : Short) (s : State) : Host.Outcome State Fault Refusal := s.issue fun c => c.runFftoi 1 (o.toLong .fftoi)
def execFftoiLong (o : Long) (s : State) : Host.Outcome State Fault Refusal := s.issue fun c => c.runFftoi (longWords o) o

/-- The generator after an SR conversion: it advances when the entry has a live item (R98). -/
def Entry.advanceGen (e : Entry) : Entry := if e.liveCount = 0 then e else { e with gen := Float.xs e.gen }

/-- QCVT under SR: a draw for each item, and the generator advances at retirement (R98, R99, R202). -/
def Ctx.runQcvtSr (c : Ctx) (words : Nat) (o : Long) : State :=
  let b := B8.ofCode (o.mod.val % 32)
  let acting := c.e.acting o.pi o.pn
  c.close words do
    let l ← c.lanes .qcvt o acting
    let code (i : Nat) : W64 := BitVec.ofNat 64
      (b.convertSR (Float.rand l.e.gen (l.e.start + i)).toNat (Float.decode (fmtOf o.ty) (patOf o.ty (l.a.at i))))
    let e ← if acting.isEmpty then .ok l.e else l.write c.ke.regs false false o.d (.build l.e code)
    pure (e.advanceGen.advance words)

/-- QCVT: format in MOD[4:0], mode in MOD[6:5] (R199, R202). -/
def execQcvt (o : Long) (s : State) : Host.Outcome State Fault Refusal :=
  s.issue fun c =>
    if o.mod.val / 32 = 2 then c.runQcvtSr (longWords o) o
    else c.flt (longWords o) .qcvt o false fun a _ _ =>
      (B8.ofCode (o.mod.val % 32)).convert (decide (o.mod.val / 32 = 1)) (Float.decode (fmtOf o.ty) a)

/-- QSCALE `.fit` (R203). -/
def execQscaleFit (o : Long) (s : State) : Host.Outcome State Fault Refusal :=
  s.issue fun c => c.flt (longWords o) .qscale o false fun a _ _ =>
    (B8.ofCode (o.mod.val % 32)).fit (Float.decode (fmtOf o.ty) a)

/-- QSCALE `.apply`: the scale is B[7:0] (R203). -/
def execQscaleApply (o : Long) (s : State) : Host.Outcome State Fault Refusal :=
  s.issue fun c => c.laneEach (longWords o) .qscale o o.ty.wide false fun a b _ =>
    BitVec.ofNat 64 (Float.applyScale (fmtOf o.ty) (patOf o.ty a) (b.toNat % 256))

end Sys2Proof.Machine
end

