-- ==== Sys2Proof/Machine/Access.lean ====
section
/-!
DEFINITION. The accesses of an entry's items to device memory and scratchpad: the checks, what stops an access, the hazard
detector, and what releases and acquires do (R111, R113, R115 to R126, R130, R222, R347, R352).
-/
namespace Sys2Proof.Machine

/-- One access: the item's offset, the address and its bytes. -/
structure ItemAcc where
  item : Nat
  addr : Nat
  len : Nat
deriving DecidableEq, Repr

/-! ### The hazard detector (R344, R347, R352) -/

/-- The first access that overlaps an outstanding one of the same item, one of the two writing. -/
def Ctx.overlap (c : Ctx) (space : Nat) (writes : Bool) (accs : List ItemAcc) : Option (ItemAcc × WinRec) :=
  if !(c.s.core c.ref.core).hzdEn then none else
  accs.findSome? fun a => (c.e.window.find? fun w => decide (w.space = space ∧ w.item = c.e.start + a.item ∧
    w.addr < a.addr + a.len ∧ a.addr < w.addr + w.len) && (w.wrote || writes)).map fun w => (a, w)

/-- HAZARD at the later instruction: the earlier ones complete, the detector counts, the fault may resume (R348, R352). -/
def Ctx.raiseHazard (c : Ctx) (words : Nat) (a : ItemAcc) (w : WinRec) : State :=
  let at_ (pc : Nat) : Nat := (pc - c.ke.code) / 4
  if c.s.outstanding c.slot c.e then c.put { c.e with status := .held .acks }
  else
  let s := (c.s.modEntry c.ref fun e => { e with window := [] }).modCore c.ref.core fun k =>
    { k with hzdHits := min (k.hzdHits + 1) 0xFFFF, hzdLastPc := at_ c.e.pc }
  match s.ctxAt c.ref with
  | some d => d.raise words ⟨18, 2, 0, 0, false, a.addr, at_ w.pc, some a.item⟩
  | none => s

/-- The ranges that an instruction opens, for the instructions its count lets go ahead (R352). -/
def Ctx.opened (c : Ctx) (o : Long) (space : Nat) (wrote : Bool) (accs : List ItemAcc) : List WinRec :=
  if (c.s.core c.ref.core).hzdEn ∧ 0 < lookCount o then
    accs.map fun a => ⟨lookCount o + 1, space, wrote, c.e.start + a.item, a.addr, a.len, c.e.pc⟩
  else []

/-- Ends a memory instruction: the entry as it is left, counted in program order (R391). -/
def Ctx.finish (c : Ctx) (s : State) (words : Nat) (o : Long) (space : Nat) (wrote : Bool) (accs : List ItemAcc) (e : Entry) :
    State :=
  s.setEntry c.ref { e.advance words with order := (e.order + 1) % 65536, window := e.window ++ c.opened o space wrote accs }

/-! ### Checks of the accesses of one instruction -/

/-- The checks of R111 on each access, one address checked once. -/
def checkEach (f : Nat → Nat → Acc) : List ItemAcc → Option (Nat × Nat × Acc) → List (ItemAcc × Acc)
  | [], _ => []
  | a :: rest, memo =>
    let r := match memo with
      | some (ad, n, r) => if ad = a.addr ∧ n = a.len then r else f a.addr a.len
      | none => f a.addr a.len
    (a, r) :: checkEach f rest (some (a.addr, a.len, r))

def Acc.isFault : Acc → Option AccFault
  | .fault f => some f
  | _ => none
def Acc.isPark : Acc → Option (Nat × Option Nat)
  | .park cause _ pair => some (cause, pair)
  | _ => none
def Acc.isWait : Acc → Option Nat
  | .wait l => some l
  | _ => none
def Acc.isPoisoned : Acc → Bool
  | .poisoned _ => true
  | _ => false
def Acc.pieces : Acc → List (Nat × Nat)
  | .ok ps => ps
  | _ => []

/-- The kind code of R391 of an access. -/
def AccKind.code : AccKind → Nat
  | .load | .fetch => 0
  | .store => 1
  | .atomic => 2
  | .drain => 4
  | .pool w => if w then 1 else 0

/-- A replay entry for an access of an item (R391). -/
def Ctx.replayOf (c : Ctx) (kind aux : Nat) (a : ItemAcc) (cause : Nat) (pair : Option Nat) (left : Nat) (work : Work) : Replay :=
  { index := 0, cause := cause, kind := kind, owner := c.la.owner, slot := c.ref.slot, entry := c.ref.pos,
    pos := c.e.posOf a.item, addr := a.addr, len := a.len, order := c.e.order, aux := aux, src := 0, ptime := 0,
    pair := pair, core := c.ref.core, op := 0, flight := c.fl.id, item := c.e.start + a.item, pc := c.e.pc, left := left,
    work := work }

/-- The core's queue has room for as many more entries; else the access waits in the access path (R392). -/
def State.roomFor (s : State) (core n : Nat) : Bool := decide ((s.core core).replay.length + n ≤ 512)

/-- Parks those of a list of accesses that the checks park (R111, R130, R392). -/
def Ctx.parkEach (c : Ctx) (kind aux left : Nat) (work : ItemAcc → Work) (rs : List (ItemAcc × Acc)) : State :=
  rs.foldl (fun s r => match r.2.isPark with
    | some (cause, pair) => s.park c.ref.core (c.replayOf kind aux r.1 cause pair left (work r.1))
    | none => s) c.s

/-- What of the checks stops an instruction as a whole: a fault of the lowest item, or the death of an item that reads a poisoned
sector (R437). -/
def Ctx.faulted (c : Ctx) (words kind : Nat) (rs : List (ItemAcc × Acc)) : Option State :=
  match rs.findSome? fun r => r.2.isFault.map fun f => (r.1, f) with
  | some (a, f) => some (c.raise words (f.info (some a.item)))
  | none => (rs.find? fun r => r.2.isPoisoned).map fun r =>
      c.raise words (if kind = 1 then { hwError r.1.addr with item := some r.1.item }
        else ⟨20, 1, 0, 0, true, r.1.addr, 0, some r.1.item⟩)

/-- The lines that accesses wait for. -/
def waitLines (rs : List (ItemAcc × Acc)) : List Nat := (rs.filterMap fun r => r.2.isWait).eraseDups

/-- The entry waits for lines from the Gondola, which are asked for, and issues its instruction again (R416). -/
def Ctx.awaitLines (c : Ctx) (ls : List Nat) : State :=
  ls.foldl (fun s l => s.askLine c.agent l) (c.put { c.e with status := .held (.fill (ls.headD 0)) })

/-- What an instruction does that acts as a whole and that one of its accesses stops; none when every access is served.  Parked
accesses become replay entries and the instruction issues again when they have been released (R130, R392). -/
def Ctx.stopped (c : Ctx) (words kind aux : Nat) (rs : List (ItemAcc × Acc)) : Option State :=
  match c.faulted words kind rs with
  | some t => some t
  | none =>
    if !(waitLines rs).isEmpty then some (c.awaitLines (waitLines rs))
    else
      let n := (rs.filter fun r => r.2.isPark.isSome).length
      if n = 0 then none
      else if c.s.roomFor c.ref.core n then some (c.parkEach kind aux 0 (fun _ => .again) rs)
      else some (c.put { c.e with status := .held .replay })

/-- An access of the same item to a sector that the access touches (R130). -/
def Replay.meets (r : Replay) (e : Entry) (a : ItemAcc) : Bool :=
  decide (r.item = e.start + a.item ∧ r.addr / 128 ≤ (a.addr + a.len - 1) / 128 ∧ a.addr / 128 ≤ (r.addr + r.len - 1) / 128)

/-- An access of an item stands behind one of the same item to the same sector: a parked one (R130), or one that a line from the
Gondola will let through while this one needs no line. -/
def Ctx.behind (c : Ctx) (accs : List ItemAcc) (rs : List (ItemAcc × Acc)) : Bool :=
  let k := c.s.core c.ref.core
  let held (on : List Replay) (a : ItemAcc) : Bool := on.any fun r => r.mine c.slot.flight c.e && r.meets c.e a
  accs.any (held k.replay) || rs.any fun r => r.2.isWait.isNone && held k.flying r.1

/-- The accesses served, in order, with their pieces. -/
def servedOf (rs : List (ItemAcc × Acc)) : List (ItemAcc × List (Nat × Nat)) := rs.filterMap fun r => match r.2 with
  | .ok ps => some (r.1, ps)
  | _ => none

/-- The state once the sectors of the accesses served have come from where they are held (R18, R114). -/
def Ctx.fetched (c : Ctx) (rs : List (ItemAcc × List (Nat × Nat))) : Ctx :=
  { c with s := c.s.serve c.agent (some c.ref.core) (rs.flatMap Prod.snd) }

/-- The checks on an instruction's accesses to device memory, the hazard detector's first. -/
def Ctx.checked (c : Ctx) (words : Nat) (kind : AccKind) (align : Nat) (accs sel : List ItemAcc)
    (k : List (ItemAcc × Acc) → State) : State :=
  match c.overlap 0 kind.writes accs with
  | some (a, w) => c.raiseHazard words a w
  | none =>
    let rs := checkEach (fun va n => c.s.check c.agent (some c.ref.core) kind va n align) sel none
    if c.behind accs rs then c.put { c.e with status := .held .replay } else k rs

/-- The accesses to device memory of an instruction that acts as a whole: stopped, or served, `k` going on from each access's
pieces. -/
def Ctx.access (c : Ctx) (words : Nat) (kind : AccKind) (align aux : Nat) (accs : List ItemAcc)
    (k : Ctx → List (ItemAcc × List (Nat × Nat)) → State) : State :=
  c.checked words kind align accs accs fun rs =>
    match c.stopped words kind.code aux rs with
    | some t => t
    | none => k (c.fetched (servedOf rs)) (servedOf rs)

/-- Stores accepted whose lines are on their way (R349). -/
def Ctx.acceptStores (c : Ctx) (work : ItemAcc → Work) (rs : List (ItemAcc × Acc)) : State :=
  rs.foldl (fun s r => match r.2.isWait with
    | some l => (s.modCore c.ref.core fun k =>
        { k with flying := k.flying ++ [c.replayOf 1 0 r.1 0 none 0 (work r.1)] }).askLine c.agent l
    | none => s) c.s

/-- How many instructions may issue before an instruction that parks completes: its independence count, and none where it orders
other accesses (R124, R344). -/
def leftOf (o : Long) : Nat := if o.mod.val % 4 = 0 then lookCount o else 0

/-- The accesses to device memory of an instruction whose items each act alone (R130, R245): those of `sel` that park are recorded
with what they have left to do, a store whose line is in the Gondola is accepted, and `k` goes on with those served.  A load or an
atomic whose line is in the Gondola waits for it. -/
def Ctx.accessEach (c : Ctx) (words : Nat) (kind : AccKind) (align aux : Nat) (o : Long) (accs sel : List ItemAcc)
    (work : ItemAcc → Work) (k : Ctx → List (ItemAcc × List (Nat × Nat)) → State) : State :=
  c.checked words kind align accs sel fun rs =>
    match c.faulted words kind.code rs with
    | some t => t
    | none =>
      let n := (rs.filter fun r => r.2.isPark.isSome).length
      if kind ≠ .store ∧ !((waitLines rs).isEmpty) then c.awaitLines (waitLines rs)
      else if !(c.s.roomFor c.ref.core n) then c.put { c.e with status := .held .replay }
      else
        let c1 : Ctx := { c with s := c.parkEach kind.code aux (leftOf o) work rs }
        let c2 : Ctx := { c1 with s := c1.acceptStores work rs }
        k (c2.fetched (servedOf rs)) (servedOf rs)

/-- SPAD_FAULT: only a hardware error meets it in admitted code (R222). -/
def spadFault (off : Nat) (item : Option Nat) : FaultInfo := ⟨14, 2, 0, 0, true, off, 0, item⟩

/-- A damaged word of the flight's scratchpad lies in a range (R59). -/
def Flight.damagedIn (f : Flight) (off len : Nat) : Bool :=
  f.spoiled.any fun x => decide (x.1 = 0 ∧ off < 8 * x.2 + 8 ∧ 8 * x.2 < off + len)

/-- The accesses of one instruction to the flight's scratchpad (R222): bounds, alignment, and damaged words that a read
consumes (R59). -/
def Ctx.accessSpad (c : Ctx) (words : Nat) (writes reads : Bool) (accs : List ItemAcc) (k : State) : State :=
  match c.overlap 1 writes accs with
  | some (a, w) => c.raiseHazard words a w
  | none =>
    match accs.find? fun a => decide (a.addr % a.len ≠ 0 ∨ c.fl.spadSize < a.addr + a.len) with
    | some a => c.raise words (spadFault a.addr (some a.item))
    | none =>
      match accs.find? fun a => reads && c.fl.damagedIn a.addr a.len with
      | some a => c.raise words ⟨20, 1, 0, 0, true, a.addr, 0, some a.item⟩
      | none => k

/-! ### Reading and writing through the core cache (R18, R220) -/

/-- Reads pieces through the core cache; under `.na` a miss fills nothing (R220). -/
def State.loadPieces (s : State) (core : Nat) (na : Bool) : List (Nat × Nat) → State × List Byte
  | [] => (s, [])
  | (pa, n) :: rest =>
    let r := if na && ((s.core core).hit (pa / 128)).isNone then (s, s.peek pa n) else s.cacheRead core pa n
    let q := r.1.loadPieces core na rest
    (q.1, r.2 ++ q.2)

/-- Writes pieces into the core cache. -/
def State.storePieces (s : State) (core : Nat) : List (Nat × Nat) → List Byte → State
  | [], _ => s
  | (pa, n) :: rest, bs => (s.cacheWrite core pa (bs.take n)).storePieces core rest (bs.drop n)

/-- The sectors of pieces leave a core's cache, cleaned first. -/
def State.flushPieces (s : State) (core : Nat) (ps : List (Nat × Nat)) : State :=
  s.evictCache core fun x => ps.any fun p => decide (p.1 / 128 = x.sector)

/-- Writes pieces where every core sees them, for an owner. -/
def State.storeThrough (s : State) (core owner : Nat) (ps : List (Nat × Nat)) (bs : List Byte) : State :=
  (s.flushPieces core ps).writeFor owner ps bs

/-! ### Releases and acquires (R115, R116, R124, R125) -/

/-- An operation at this scope is made where the die sees it: device and system scope, and flight or core scope of a pair
flight (R115, R124). -/
def Ctx.coherent (c : Ctx) (scope : Nat) : Bool := decide (3 ≤ scope) || (c.fl.pair && decide (1 ≤ scope))

/-- The release actions of a scope (R124). -/
def Ctx.release (c : Ctx) (s : State) (scope : Nat) : State :=
  if 3 ≤ scope then s.releaseDevice c.ref.core
  else if c.coherent scope then s.cleanCache c.ref.core fun _ => true
  else if scope = 2 then s.releaseCore c.ref.core
  else s

/-- The cores that a promotion request reaches: those that hold a resident flight of an owner (R125), and those whose release log still
holds a dirty sector of the owner from a flight that has ended, whose release R302 requires to be promoted too (assumption 6). -/
def State.coresOf (s : State) (owner : Nat) : List Nat :=
  let resident := (s.slots.filter fun x => match (s.flightOf x.flight).bind fun f => s.launchOf f.tag with
    | some l => decide (l.owner = owner)
    | none => false).map Slot.core
  let left := (List.range 96).filter fun c => (s.core c).cache.any fun x =>
    x.dirty && decide (x.tag = owner) && (s.core c).relLog.contains x.sector
  (resident ++ left).eraseDups

/-- The acquire actions of a scope, the promotion first under `.rmt` (R124, R125). -/
def Ctx.acquire (c : Ctx) (s : State) (scope : Nat) (rmt : Bool) : State :=
  if c.coherent scope then
    (if rmt then s.modCores (s.coresOf c.la.owner) State.promote else s).acquireCore c.ref.core
  else s

/-- An operation that orders others waits for the entry's earlier accesses, and a release of system scope for its writes to a peer
(R124, R130). -/
def Ctx.mustWait (c : Ctx) (ord scope : Nat) : Bool :=
  (decide (ord ≠ 0) && !((c.s.unsettled c.slot c.e).isEmpty)) ||
  (decide (ord / 2 % 2 = 1) && decide (scope = 4) && c.e.ops.any AsyncOp.toPeer)

/-- ORD, SCOPE, RMT and bit 6 of the memory modifier (R218). -/
def ordOf (o : Long) : Nat := o.mod.val % 4
def scopeOf (o : Long) : Nat := o.mod.val / 4 % 8
def rmtOf (o : Long) : Bool := o.mod.val / 32 % 2 = 1
def bit6 (o : Long) : Bool := o.mod.val / 64 = 1

/-- The signed IMM (R217). -/
def offOf (o : Long) : Int := signed 16 o.imm.val

/-- `Wrap(A + sext16(IMM), n64)` (R219). -/
def memAddr (o : Long) (a : W64) : Nat := wrapZ 64 ((a.toNat : Int) + offOf o)
/-- `Wrap(A + sext16(IMM), n32)` (R222). -/
def spadAddr (o : Long) (a : W64) : Nat := wrapZ 32 ((a.toNat : Int) + offOf o)

/-- Runs a memory instruction over its items: its sources are read, and with none to act on it only retires (R17). -/
def Ctx.memLane (c : Ctx) (words : Nat) (op : Op) (o : Long) (k : Lane → State) : State :=
  match c.lanes op o (c.e.acting o.pi o.pn) with
  | .error (.fault f) => c.raise words f
  | .error (.hold h) => c.put { c.e with status := .held h }
  | .ok l => if l.acting.isEmpty then c.put (l.e.advance words) else k l

/-- An instruction that acts once for its entry and needs UNI sources (R217, R229, R236). -/
def Lane.uniA (l : Lane) : Option W64 :=
  match l.a with
  | .uni w => some w
  | _ => none
def Lane.uniB (l : Lane) : Option W64 :=
  match l.b with
  | .uni w => some w
  | _ => none

end Sys2Proof.Machine
end

