-- ==== Sys2Proof/Machine/Control.lean ====
section
/-!
DEFINITION. The control instructions that act within one entry (R156 to R168, R172) and the wake of YIELDC.
-/
namespace Sys2Proof.Machine

/-! ### NOP, EXIT, JOIN, YIELD (R157 to R160) -/

def execNop (_ : Short) (s : State) : Host.Outcome State Fault Refusal := s.issue fun c => c.put (c.e.advance 1)
def execNopLong (o : Long) (s : State) : Host.Outcome State Fault Refusal := s.issue fun c => c.put (c.e.advance (longWords o))

/-- EXIT: the items acted on end; the entry goes on with the others (R41, R158).  What remains of its accesses is performed after
(assumption 39). -/
def Ctx.runExit (c : Ctx) (words : Nat) (o : Long) : State :=
  let acting := c.e.acting o.pi o.pn
  let s := c.put (c.e.advance words)
  if acting.isEmpty then s else s.endItems c.ref acting false

def execExit (o : Short) (s : State) : Host.Outcome State Fault Refusal := s.issue fun c => c.runExit 1 (o.toLong .exit)
def execExitLong (o : Long) (s : State) : Host.Outcome State Fault Refusal := s.issue fun c => c.runExit (longWords o) o

/-- JOIN: runs the set not yet run, restores a mask, or waits for the other pieces of a cut (R39, R40, R159). -/
def Ctx.runJoin (c : Ctx) (words : Nat) : State :=
  let e := c.e
  c.put (match e.levels with
    | [] => e.advance words
    | .cut _ _ :: _ => { e.advance words with status := .atJoin }
    | .mask saved target pending cause :: ls =>
      if pending.any id then
        { e.jump target with mask := pending, levels := .mask saved target (pending.map fun _ => false) cause :: ls }
      else { e.advance words with mask := saved, levels := ls })

def execJoin (_ : Short) (s : State) : Host.Outcome State Fault Refusal := s.issue fun c => c.runJoin 1
def execJoinLong (o : Long) (s : State) : Host.Outcome State Fault Refusal := s.issue fun c => c.runJoin (longWords o)

/-- The retired counts of the other ready entries of the entry's flight. -/
def Ctx.peerCounts (c : Ctx) : List Nat :=
  (c.s.slots.filter fun x => decide (x.flight = c.fl.id)).flatMap fun x =>
    (x.entries.filter fun e => decide (e.status = .ready ∧ ((x.core, x.num, e.pos) : Nat × Nat × Nat) ≠ (c.ref.core, c.ref.slot, c.ref.pos))).map
      Entry.retired

/-- YIELD: the entry gives way to the other ready entries of its flight, which are all of its class (R53, R160). -/
def Ctx.runYield (c : Ctx) (words : Nat) : State :=
  let peers := c.peerCounts
  let top := peers.foldl max 0
  let count := if peers.isEmpty ∨ top < c.e.retired then c.e.retired else top + 1
  (c.put { c.e with pc := c.e.pc + 4 * words, retired := count }).yielded c.ref

def execYield (_ : Short) (s : State) : Host.Outcome State Fault Refusal := s.issue fun c => c.runYield 1
def execYieldLong (o : Long) (s : State) : Host.Outcome State Fault Refusal := s.issue fun c => c.runYield (longWords o)

/-! ### Transfers (R161, R166) -/

/-- PC + 4 × IMM, with IMM signed (R147). -/
def branchTarget (pc : Nat) (o : Long) : Nat := wrapZ 64 ((pc : Int) + 4 * signed 16 o.imm.val)

def execBra (o : Long) (s : State) : Host.Outcome State Fault Refusal :=
  s.issue fun c => c.put (c.e.jump (branchTarget c.e.pc o))

/-- CALL: the address of the next instruction, then the transfer (R161). -/
def execCall (o : Long) (s : State) : Host.Outcome State Fault Refusal :=
  s.issue fun c => c.close (longWords o) do
    let e ← c.e.writeAll c.ke.regs true o.d (BitVec.ofNat 64 (c.e.pc + 12))
    pure (e.jump (branchTarget c.e.pc o))

def Ctx.runRet (c : Ctx) (words : Nat) (o : Long) : State :=
  c.close words do
    let (e, a) ← c.e.readSpec c.ke.regs c.e.activeList o.lit true o.a
    pure (e.jump (a.at 0).toNat)

def execRet (o : Short) (s : State) : Host.Outcome State Fault Refusal := s.issue fun c => c.runRet 1 (o.toLong .ret)
def execRetLong (o : Long) (s : State) : Host.Outcome State Fault Refusal := s.issue fun c => c.runRet (longWords o) o

/-- The truth of BRU's condition before MOD[0], or the fault of a predicate that is not UNI (R43, R166). -/
def Ctx.bruCondition (c : Ctx) (o : Long) : Except Stop Bool :=
  match o.a with
  | .p n => (match c.e.pred n with
    | .uni t => .ok t
    | _ => .error (.fault (breach c.e)))
  | sp => (c.e.readSpec c.ke.regs c.e.activeList o.lit true sp).map fun r => r.2.at 0 != 0

def execBru (o : Long) (s : State) : Host.Outcome State Fault Refusal :=
  s.issue fun c => c.close (longWords o) do
    let t ← c.bruCondition o
    pure (if t != decide (o.mod.val % 2 = 1) then c.e.jump (branchTarget c.e.pc o) else c.e.advance (longWords o))

/-! ### ELECT, TRAP, IDX, FORMOF, VOTE (R162 to R165, R172) -/

/-- ELECT: true in the lowest item acted on, false in every other (R162). -/
def Ctx.runElect (c : Ctx) (words : Nat) (o : Long) : State :=
  match c.e.activeList with
  | [] => c.put (c.e.advance words)
  | i :: _ => c.close words do
    let e ← c.e.writeSpec c.ke.regs [i] false false none o.d (.build c.e fun j => truth (decide (j = i)))
    pure (e.advance words)

def execElect (o : Short) (s : State) : Host.Outcome State Fault Refusal := s.issue fun c => c.runElect 1 (o.toLong .elect)
def execElectLong (o : Long) (s : State) : Host.Outcome State Fault Refusal := s.issue fun c => c.runElect (longWords o) o

/-- TRAP: USER_TRAP with IMM as the trap code, before any other effect (R163). -/
def Ctx.runTrap (c : Ctx) (words : Nat) (o : Long) : State := c.raise words ⟨5, 2, 0, 0, false, 0, o.imm.val, none⟩

def execTrap (o : Short) (s : State) : Host.Outcome State Fault Refusal := s.issue fun c => c.runTrap 1 (o.toLong .trap)
def execTrapLong (o : Long) (s : State) : Host.Outcome State Fault Refusal := s.issue fun c => c.runTrap (longWords o) o

/-- IDX: launch indices, or positions under `.pos` (R33, R164). -/
def Ctx.runIdx (c : Ctx) (words : Nat) (o : Long) : State :=
  c.lane words .idx o fun l =>
    l.write c.ke.regs false false o.d
      (.aff (BitVec.ofNat 32 (if o.mod.val % 2 = 1 then c.e.start - c.e.wstart else c.e.start)) 1)

def execIdx (o : Short) (s : State) : Host.Outcome State Fault Refusal := s.issue fun c => c.runIdx 1 (o.toLong .idx)
def execIdxLong (o : Long) (s : State) : Host.Outcome State Fault Refusal := s.issue fun c => c.runIdx (longWords o) o

/-- The form code that FORMOF writes (R165).  Of v[xk+o] with xk UNI and no item to act on, the rule does not say which register's form
it is: the model gives 0 (DESIGN CHOICE, assumption 51). -/
def Ctx.formCode (c : Ctx) (o : Long) : Except Stop Nat :=
  let reg (n : Nat) : Nat := (c.e.regs.getD n (.uni 0)).code
  match o.a with
  | .v n => .ok (if o.mod.val % 2 = 1 then (if reg n = 0 ∧ reg (n + 1) = 0 then 0 else 2) else reg n)
  | .ind k b =>
    (match c.e.outOfBounds k b c.ke.regs false c.e.activeList with
    | some i => .error (.fault (regbound i))
    | none => .ok (match c.e.xregs.getD k (.uni 0), c.e.activeList with
      | .uni _, i :: _ => reg ((c.e.target k b c.ke.regs false i).getD 0)
      | .uni _, [] => 0
      | .den _, _ => 2))
  | .x n => .ok ((c.e.xregs.getD n (.uni 0)).code)
  | .p n => .ok ((c.e.pred n).code)
  | _ => .ok 0

def Ctx.runFormof (c : Ctx) (words : Nat) (o : Long) : State :=
  c.close words do
    let n ← c.formCode o
    let e ← c.e.writeAll c.ke.regs false o.d (BitVec.ofNat 64 n)
    pure (e.advance words)

def execFormof (o : Short) (s : State) : Host.Outcome State Fault Refusal := s.issue fun c => c.runFormof 1 (o.toLong .formof)
def execFormofLong (o : Long) (s : State) : Host.Outcome State Fault Refusal := s.issue fun c => c.runFormof (longWords o) o

/-- The word that VOTE writes to every item (R172). -/
def Lane.vote (l : Lane) (op : Nat) : Nat :=
  let yes := l.acting.filter fun i => l.a.at i != 0
  match op with
  | 0 => if yes.isEmpty then 0 else 1
  | 1 => if yes.length = l.acting.length then 1 else 0
  | 2 => yes.foldl (fun w i => w ||| 2 ^ l.e.posOf i) 0
  | _ => yes.length

/-- VOTE.  It takes no type: an s source is read at 32 bits, as a TY of 0x00 reads it (R68; DESIGN CHOICE, assumption 52). -/
def Ctx.runVote (c : Ctx) (words : Nat) (o : Long) : State :=
  c.close words do
    let l ← c.lanes .vote o c.e.activeList
    let op := o.mod.val % 4
    let e ← l.e.writeAll c.ke.regs (decide (op = 2)) o.d (BitVec.ofNat 64 (l.vote op))
    pure (e.advance words)

def execVote (o : Short) (s : State) : Host.Outcome State Fault Refusal := s.issue fun c => c.runVote 1 (o.toLong .vote)
def execVoteLong (o : Long) (s : State) : Host.Outcome State Fault Refusal := s.issue fun c => c.runVote (longWords o) o

/-! ### YIELDC (R53, R168) -/

/-- The ordering of a WAITC: clean sectors of retired destinations leave the core cache (R129). -/
def State.waitOrder (s : State) (r : EntryRef) (e : Entry) : State := (s.dropDsts r.core e.dsts).setEntry r { e with dsts := [] }

def execYieldc (o : Long) (s : State) : Host.Outcome State Fault Refusal :=
  s.issue fun c =>
    let cls := o.mod.val % 4
    let t := o.mod.val / 4
    let target := branchTarget c.e.pc o
    (if c.e.counts.getD cls 0 ≤ t then c.s.waitOrder c.ref (c.e.jump target)
     else c.put { c.e with status := .parked (.yieldc cls t target) none }).yielded c.ref

/-- A parked YIELDC whose counter has fallen to its threshold goes on (R53). -/
def State.wakeYieldc (s : State) (r : EntryRef) : State :=
  match s.entry r with
  | none => s
  | some e =>
    match e.status with
    | .parked (.yieldc cls t target) _ =>
      if e.counts.getD cls 0 ≤ t then s.waitOrder r { e.jump target with status := .ready } else s
    | _ => s

def execYieldcWake (r : EntryRef) (s : State) : Host.Outcome State Fault Refusal := .next (s.wakeYieldc r)

end Sys2Proof.Machine
end

