-- ==== Sys2Proof/Machine/Memory.lean ====
section
/-!
DEFINITION. Loads, stores, prefetch, checks, index windows, fences, range maintenance and REORD (R56, R173, R219 to R225,
R241, R242).
-/
namespace Sys2Proof.Machine

/-! ### Loads (R219 to R222) -/

/-- A loaded value as the type's register value (R88, R89, R219). -/
def loadVal (t : Ty) (bs : List Byte) : W64 := storePat t (leNat bs)

/-- A result given item by item from the accesses: UNI from a UNI address, else DEN (R35, R219). -/
def Lane.fromAccs (l : Lane) (vals : List (Nat × W64)) : OpVal :=
  if l.uniAll then .uni ((vals.head?.map Prod.snd).getD 0)
  else .build l.e fun i => ((vals.find? fun p => decide (p.1 = i)).map Prod.snd).getD 0

/-- The items' loads in order, through the core cache. -/
def State.loadEach (s : State) (core : Nat) (na : Bool) : List (ItemAcc × List (Nat × Nat)) → State × List (Nat × List Byte)
  | [] => (s, [])
  | (a, ps) :: rest =>
    let r := s.loadPieces core na ps
    let q := r.1.loadEach core na rest
    (q.1, (a.item, r.2) :: q.2)

/-- The accesses of a lane at addresses that `f` gives. -/
def Lane.accs (l : Lane) (len : Nat) (f : W64 → Nat) : List ItemAcc := l.acting.map fun i => ⟨i, f (l.a.at i), len⟩

/-- The write of D, or the fault it raises; nothing else of the instruction happens under a fault. -/
def Ctx.andThen (c : Ctx) (words : Nat) (r : Except Stop Entry) (k : Entry → State) : State :=
  match r with
  | .ok e => k e
  | .error (.fault f) => c.raise words f
  | .error (.hold h) => c.put { c.e with status := .held h }

/-- The items of accesses. -/
def itemsOf (rs : List (ItemAcc × List (Nat × Nat))) : List Nat := (rs.map fun r => r.1.item).eraseDups

/-- The write of D by those of a lane's items whose accesses were served: by all of them as the instruction's write, else item by
item (R130). -/
def Lane.writeServed (l : Lane) (nregs : Nat) (wide sg : Bool) (d : Spec) (served : List Nat) (v : OpVal) : Except Stop Entry :=
  if l.acting.all served.contains ∨ (l.uniAll ∧ !served.isEmpty) then l.write nregs wide sg d v
  else if served.isEmpty then .ok l.e
  else ({ l with acting := served, items := some served } : Lane).write nregs wide sg d v

/-- An address that is UNI is accessed once, for the lowest item (R17, R35). -/
def Lane.once (l : Lane) (accs : List ItemAcc) : List ItemAcc :=
  if l.uniAll then accs.filter fun a => decide (some a.item = l.acting.head?) else accs

/-- LD (R219, R220): the acquire's actions come first. -/
def execLd (o : Long) (s : State) : Host.Outcome State Fault Refusal :=
  s.issue fun c => c.memLane (longWords o) .ld o fun l =>
    if c.mustWait (ordOf o) (scopeOf o) then c.put { c.e with status := .held .acks }
    else
      let accs := l.accs o.ty.bytes (memAddr o)
      c.andThen (longWords o) (l.write c.ke.regs o.ty.wide o.ty.signedInt o.d (l.fromAccs [])) fun _ =>
      c.accessEach (longWords o) .load o.ty.bytes o.d.code o accs (l.once accs) (fun _ => .load o o.d o.ty l.uniAll) fun c rs =>
        let t := if ordOf o = 1 ∧ !rs.isEmpty then c.acquire c.s (scopeOf o) (rmtOf o) else c.s
        let (t, got) := t.loadEach c.ref.core (bit6 o) rs
        let v := l.fromAccs (got.map fun p => (p.1, loadVal o.ty p.2))
        c.andThen (longWords o) (l.writeServed c.ke.regs o.ty.wide o.ty.signedInt o.d (itemsOf rs) v) fun e =>
          c.finish t (longWords o) o 0 false accs e

/-- The register number that LDP and STP name. -/
def vNumOf : Spec → Nat
  | .v n => n.val
  | _ => 0

/-- The word of a run that an access reads or writes. -/
def wordOf (o : Long) (l : Lane) (a : ItemAcc) : Nat := (a.addr + 2 ^ 64 - memAddr o (l.a.at a.item)) % 2 ^ 64 / 4

/-- The accesses of a run of registers, word by word (R221). -/
def Lane.runAccs (l : Lane) (o : Long) : List ItemAcc :=
  l.acting.flatMap fun i => (List.range (ldpCount o.mod.val)).map fun j => ⟨i, (memAddr o (l.a.at i) + 4 * j) % 2 ^ 64, 4⟩

/-- Register `n` as a destination. -/
def vSpec (n : Nat) : Spec := .v ⟨n % 128, Nat.mod_lt _ (by decide)⟩

/-- LDP: word j of each item into register vD + j, each word checked as a 4-byte access (R221). -/
def execLdp (o : Long) (s : State) : Host.Outcome State Fault Refusal :=
  s.issue fun c => c.memLane (longWords o) .ldp o fun l =>
    let accs := l.runAccs o
    let reg (a : ItemAcc) : Spec := vSpec (vNumOf o.d + wordOf o l a)
    c.accessEach (longWords o) .load 4 o.d.code o accs (l.once accs) (fun a => .load o (reg a) .n32 l.uniAll) fun c rs =>
      let (t, got) := c.s.loadEach c.ref.core false rs
      let put (e : Entry) (j : Nat) : Except Stop Entry :=
        let mine := (rs.zip got).filter fun p => decide (wordOf o l p.1.1 = j)
        ({ l with e := e } : Lane).writeServed c.ke.regs false false (vSpec (vNumOf o.d + j)) (itemsOf (mine.map Prod.fst))
          (l.fromAccs (mine.map fun p => (p.2.1, loadVal .n32 p.2.2)))
      c.andThen (longWords o) ((List.range (ldpCount o.mod.val)).foldlM put l.e) fun e =>
        c.finish t (longWords o) o 0 false accs e

/-- LDS (R222); an acquire or a release acts at its scope (R116, R124). -/
def execLds (o : Long) (s : State) : Host.Outcome State Fault Refusal :=
  s.issue fun c => c.memLane (longWords o) .lds o fun l =>
    if c.mustWait (ordOf o) (scopeOf o) then c.put { c.e with status := .held .acks }
    else
      let accs := l.accs o.ty.bytes (spadAddr o)
      let v := l.fromAccs (accs.map fun a => (a.item, loadVal o.ty (Memory.readN c.fl.spad a.addr a.len)))
      c.accessSpad (longWords o) false true accs
        (c.andThen (longWords o) (l.write c.ke.regs o.ty.wide o.ty.signedInt o.d v) fun e =>
          c.finish (if ordOf o = 1 then c.acquire c.s (scopeOf o) (rmtOf o) else c.s) (longWords o) o 1 false accs e)

/-- A sector on the package comes to a level for a prefetch (R223): 0 the core cache, 1 the die cache, 2 the bonded tier. -/
def State.prefetchTo (s : State) (g : Agent) (level core sector : Nat) : State :=
  if level = 2 then s.fillTier g.owner (sector / 4) (sectorBit sector)
  else
    let s := s.touch g sector
    if level = 0 then s.fillCache core sector else s

/-- PREF of one item: a sector to its level, charged to the requester, or a line asked from the Gondola; one that would fault or
park is discarded (R223). -/
def Ctx.prefetch (c : Ctx) (s : State) (level va : Nat) : State :=
  let core := c.ref.core
  match s.check c.agent (some core) .load va 1 1 with
  | .ok ps => (sectorsIn ps).foldl (fun s k =>
      if level = 0 ∧ ((s.core core).hit k).isSome then s
      else (s.prefetchTo c.agent level core k).chargeBand c.agent.owner 1) s
  | .wait l => match s.checkPage c.agent .load va with
    | .ok (_, pa) => (s.askFor c.agent l [(level, core, pa / 128)]).chargeBand c.agent.owner 1
    | .error _ => s
  | _ => s

def execPref (o : Long) (s : State) : Host.Outcome State Fault Refusal :=
  s.issue fun c => c.memLane (longWords o) .pref o fun l =>
    let t := l.acting.foldl (fun s i => c.prefetch s (o.mod.val % 4) (memAddr o (l.a.at i))) c.s
    c.finish t (longWords o) o 0 false [] l.e

/-! ### Stores (R117, R219 to R222) -/

/-- One store of pieces: into the core cache, or through to the die under `.na` (R220). -/
def State.storeOne (s : State) (core owner : Nat) (na : Bool) (ps : List (Nat × Nat)) (bs : List Byte) : State :=
  if na then s.storeThrough core owner ps bs else s.storePieces core ps bs

/-- ST: items in increasing index, so the highest supplies a shared byte (R117).  A release's actions come before, so that earlier
writes are visible no later than the store, and after, when they carry the store itself (R124). -/
def execSt (o : Long) (s : State) : Host.Outcome State Fault Refusal :=
  s.issue fun c => c.memLane (longWords o) .st o fun l =>
    if c.mustWait (ordOf o) (scopeOf o) then c.put { c.e with status := .held .acks }
    else
      let accs := l.accs o.ty.bytes (memAddr o)
      let bytes (a : ItemAcc) : List Byte := leBytes a.len (l.b.at a.item).toNat
      c.accessEach (longWords o) .store o.ty.bytes 0 o accs accs (fun a => .store o (bytes a)) fun c rs =>
        let t := if ordOf o = 2 then c.release c.s (scopeOf o) else c.s
        let t := rs.foldl (fun s r => s.storeOne c.ref.core c.la.owner (bit6 o) r.2 (bytes r.1)) t
        let t := if ordOf o = 2 then c.release t (scopeOf o) else t
        c.finish t (longWords o) o 0 true accs l.e

/-- STP: the words of an item are one store (R221). -/
def execStp (o : Long) (s : State) : Host.Outcome State Fault Refusal :=
  s.issue fun c => c.memLane (longWords o) .stp o fun l =>
    let accs := l.runAccs o
    let bytes (a : ItemAcc) : List Byte :=
      leBytes 4 ((c.e.regs.getD (vNumOf o.b + wordOf o l a) (.uni 0)).at a.item).toNat
    c.accessEach (longWords o) .store 4 0 o accs accs (fun a => .store o (bytes a)) fun c rs =>
      let t := rs.foldl (fun s r => s.storePieces c.ref.core r.2 (bytes r.1)) c.s
      c.finish t (longWords o) o 0 true accs l.e

/-- Writes bytes into a flight's scratchpad; a word overwritten whole is no longer damaged (R59). -/
def Flight.putSpad (f : Flight) (off : Nat) (bs : List Byte) : Flight :=
  { f with
    spad := Memory.writeN f.spad off bs
    spoiled := f.spoiled.filter fun x => !decide (x.1 = 0 ∧ off ≤ 8 * x.2 ∧ 8 * x.2 + 8 ≤ off + bs.length) }

/-- STS (R222); an acquire or a release acts at its scope (R116, R124). -/
def execSts (o : Long) (s : State) : Host.Outcome State Fault Refusal :=
  s.issue fun c => c.memLane (longWords o) .sts o fun l =>
    if c.mustWait (ordOf o) (scopeOf o) then c.put { c.e with status := .held .acks }
    else
      let accs := l.accs o.ty.bytes (spadAddr o)
      c.accessSpad (longWords o) true false accs
        (c.finish ((if ordOf o = 2 then c.release c.s (scopeOf o) else c.s).modFlight c.fl.id fun f =>
            accs.foldl (fun f a => f.putSpad a.addr (leBytes a.len (l.b.at a.item).toNat)) f)
          (longWords o) o 1 true accs l.e)

/-! ### Checks and index windows (R224, R225) -/

/-- CHECK_FAIL, with the failing item's first operand value (R224). -/
def checkFail (i : Nat) (w : W64) : FaultInfo := ⟨13, 3, 0, 0, false, w.toNat, 0, some i⟩

def execChkb (o : Long) (s : State) : Host.Outcome State Fault Refusal :=
  s.issue fun c => c.memLane (longWords o) .chkb o fun l =>
    let v (w : W64) : Int := intOf o.ty w
    let ok (i : Nat) : Bool := decide (v (l.b.at i) ≤ v (l.a.at i)) && decide (v (l.a.at i) + (o.imm.val : Int) ≤ v (l.c.at i))
    match l.acting.find? fun i => !ok i with
    | some i => c.raise (longWords o) (checkFail i (l.a.at i))
    | none => c.put (l.e.advance (longWords o))

def execChkx (o : Long) (s : State) : Host.Outcome State Fault Refusal :=
  s.issue fun c => c.memLane (longWords o) .chkx o fun l =>
    let base (i : Nat) : Nat := (l.a.at i).toNat % 256
    let limit (i : Nat) : Nat := (l.a.at i).toNat / 256 % 256
    match l.acting.find? fun i => decide (limit i < base i + o.imm.val ∨ c.ke.regs < limit i) with
    | some i => c.raise (longWords o) (checkFail i (l.a.at i))
    | none => c.put (l.e.advance (longWords o))

/-- XSET: a window, or the empty one with XFLAG (R225). -/
def execXset (o : Long) (s : State) : Host.Outcome State Fault Refusal :=
  s.issue fun c => c.lane (longWords o) .xset o fun l =>
    let ok (a b : W64) : Bool := decide (a.toNat ≤ 127 ∧ b.toNat ≤ 128 ∧ a.toNat ≤ b.toNat)
    let v := l.each fun a b _ => if ok a b then BitVec.ofNat 64 (a.toNat + 256 * b.toNat) else 0
    let e := if l.acting.all fun i => ok (l.a.at i) (l.b.at i) then l.e else l.e.setX
    ({ l with e := e } : Lane).write c.ke.regs false false o.d v

/-! ### FENCE and CMAINT (R127, R241, R242) -/

/-- FENCE: the release actions, then the acquire actions, of its scope, once the entry's earlier accesses have been performed
(R124, R241). -/
def execFence (o : Long) (s : State) : Host.Outcome State Fault Refusal :=
  s.issue fun c =>
    if (c.e.acting o.pi o.pn).isEmpty then c.put (c.e.advance (longWords o))
    else if c.mustWait (ordOf o) (scopeOf o) then c.put { c.e with status := .held .acks }
    else
      let t := if ordOf o / 2 = 1 then c.release c.s (scopeOf o) else c.s
      let t := if ordOf o % 2 = 1 then c.acquire t (scopeOf o) (rmtOf o) else t
      c.finish t (longWords o) o 0 false [] c.e

/-- CMAINT at the issuing core's cache (R127): under `.inval` of level core the requester's own dirty copies are discarded; else a
dirty copy is cleaned, and an invalidation discards what is then clean. -/
def State.maintainCore (s : State) (core owner op level : Nat) (here : CacheSector → Bool) : State :=
  let s := if op = 1 ∧ level = 0 then
      s.modCore core fun y => { y with cache := y.cache.filter fun x => !(here x && x.dirty && decide (x.tag = owner)) }
    else s
  let s := s.cleanCache core here
  if op = 0 then s else s.dropClean core here

/-- CMAINT at every die cache (R127): dirty copies of a sector go to the bonded tier, or to the Gondola where the line has no way
there; an invalidation discards the copies. -/
def State.maintainDies (s : State) (owner op sector : Nat) : State :=
  let line := sector / 4
  let b := sectorBit sector
  let dirty := s.tier.dies.any fun d => d.any fun h => decide (h.line = line) && h.dirty.getLsbD (sector % 4)
  let s := if !dirty then s
    else
      let t := s.fillTier owner line b
      if t.inTier line then
        let clean (h : HeldLine) : HeldLine := if h.line = line then { h with dirty := h.dirty &&& ~~~b } else h
        { t with tier := { t.tier with lines := putLine line b b 0 t.tier.lines, dies := t.tier.dies.map fun d => d.map clean } }
      else match t.storeLine line with
        | .ok u => u
        | .error _ => t
  if op = 0 then s
  else
    let s := if holds s.tier.lines sector then s else s.leaveCores fun x => decide (x.sector = sector)
    ({ s with tier := { s.tier with dies := s.tier.dies.map (dropSectors line b) } }).settle line

/-- CMAINT at the bonded tier (R127): a dirty line is written to the Gondola, and at level Gondola a clean one too; an
invalidation discards the sector. -/
def State.maintainTier (s : State) (op level sector : Nat) : State :=
  let line := sector / 4
  let dirty := s.tier.lines.any fun h => decide (h.line = line) && h.dirty.getLsbD (sector % 4)
  let s := if dirty ∨ (level = 3 ∧ s.onPkg sector ∧ sector * 128 < Config.reserve) then
      (match s.storeLine line with
      | .ok t => t
      | .error _ => s)
    else s
  if op = 0 then s
  else
    let s := if s.tier.dies.any fun d => holds d sector then s else s.leaveCores fun x => decide (x.sector = sector)
    ({ s with tier := { s.tier with lines := dropSectors line (sectorBit sector) s.tier.lines } }).settle line

/-- CMAINT on one sector, level after level (R127). -/
def State.maintain (s : State) (core owner op level sector : Nat) : State :=
  let s := s.maintainCore core owner op level fun x => decide (x.sector = sector)
  let s := if level = 0 then s else s.maintainDies owner op sector
  if level ≤ 1 then s else s.maintainTier op level sector

/-- The sectors that a range reaches, lines that are in the Gondola alone included. -/
def Ctx.rangeSectors (c : Ctx) (s : State) (va len : Nat) : List Nat :=
  match s.checkPages c.agent .load (sectorsOf va len) with
  | .ok ps => (ps.map fun p => p.2.1 / 128).eraseDups
  | .error _ => []

/-- Row 8 of R111 for every sector of a range, wherever it is held: the maintenance waits for no line. -/
def Ctx.rangeTag (c : Ctx) (va len : Nat) : Option Acc :=
  match c.s.checkPages c.agent .load (sectorsOf va len) with
  | .error e => some e
  | .ok ps => ps.findSome? fun p => match c.s.checkTags c.agent (some c.ref.core) [p] with
      | some (.fault f) => some (.fault f)
      | _ => none

/-- CMAINT: each item's range, once the entry's earlier accesses have been performed (R127, R242). -/
def execCmaint (o : Long) (s : State) : Host.Outcome State Fault Refusal :=
  s.issue fun c => c.memLane (longWords o) .cmaint o fun l => c.settled (
    let accs := l.acting.map fun i => (⟨i, (l.a.at i).toNat, (l.b.at i).toNat % 2 ^ 32⟩ : ItemAcc)
    let rs := accs.filterMap fun a => (c.rangeTag a.addr a.len).map fun r => (a, r)
    match c.stopped (longWords o) 0 0 rs with
    | some t => t
    | none =>
      let t := accs.foldl (fun s a => (c.rangeSectors s a.addr a.len).foldl (fun s k =>
        s.maintain c.ref.core c.la.owner (o.mod.val % 4) (o.mod.val / 4 % 4) k) s) c.s
      c.finish t (longWords o) o 0 false [] l.e)

/-! ### REORD (R56, R173) -/

/-- The 64 bytes of a deposited record (R56). -/
def recordOf (r : RRec) : List Byte :=
  leBytes 2 r.key ++ leBytes 4 r.index ++ leBytes 4 r.cont ++ List.replicate 22 0 ++ r.payload.flatMap fun w => leBytes 4 w.toNat

/-- REORD: a record of each item acted on, written whole at device scope; then the items end.  Items whose record parks deposit it
after the release (R188). -/
def execReord (o : Long) (s : State) : Host.Outcome State Fault Refusal :=
  s.issue fun c => c.memLane (longWords o) .reord o fun l =>
    let words := longWords o
    let rec_ (i : Nat) : RRec :=
      { die := c.ref.core / 24, key := (l.a.at i).toNat % 65536, index := c.e.start + i,
        cont := (branchTarget c.e.pc o + 2 ^ 64 - c.ke.code) % 2 ^ 64,
        payload := (List.range 8).map fun j => (c.e.regs.getD (vNumOf o.b + j) (.uni 0)).at i }
    let base := (c.la.deposit.map LRegion.base).getD 0
    let accs := l.acting.map fun i => (⟨i, base + 64 * (c.e.start + i), 64⟩ : ItemAcc)
    let put (t : State) (rs : List (ItemAcc × List (Nat × Nat))) : State :=
      let items := rs.map fun r => r.1.item
      let t := rs.foldl (fun s r => s.storeThrough c.ref.core c.la.owner r.2 (recordOf (rec_ r.1.item))) t
      let t := t.modLaunch c.la.tag fun la => { la with recs := la.recs ++ items.map rec_ }
      let e := if items.length = l.acting.length then { l.e.advance words with order := (l.e.order + 1) % 65536 } else l.e
      (t.setEntry c.ref e).endItems c.ref items false
    c.settled (c.checked words .store 1 accs accs fun rs =>
      match c.faulted words 1 rs with
      | some t => t
      | none =>
        if !((waitLines rs).isEmpty) then c.awaitLines (waitLines rs)
        else if !(c.s.roomFor c.ref.core (rs.filter fun r => r.2.isPark.isSome).length) then c.put { c.e with status := .held .replay }
        else
          let c1 : Ctx := { c with s := c.parkEach 1 0 0 (fun _ => .again) rs }
          put (c1.fetched (servedOf rs)).s (servedOf rs))

end Sys2Proof.Machine
end

