-- ==== Sys2Proof/Machine/Modular.lean ====
section
/-!
DEFINITION. The modular instructions (R106 to R108, R210 to R214).
-/
namespace Sys2Proof.Machine

/-- q' = −q^−1 mod 2^64 for an odd q, by Newton's iteration (R106). -/
def negInv (q : W64) : Nat → W64 → W64
  | 0, x => 0 - x
  | n + 1, x => negInv q n (x * (2 - q * x))

/-- The primitives of R107 on reduced operands. -/
def zAdd (q a b : Nat) : Nat := (a + b) % q
def zSub (q a b : Nat) : Nat := (a + q - b) % q
def mont (q qn a b : Nat) : Nat :=
  let t := a * b
  let m := t % 2 ^ 64 * qn % 2 ^ 64
  let u := (t + m * q) / 2 ^ 64
  if q ≤ u then u - q else u
def toMont (q a : Nat) : Nat := a * 2 ^ 64 % q
def shoup (q a w w' : Nat) : Nat :=
  ((a * w : Nat) - (a * w' / 2 ^ 64 * q : Nat) : Int).emod (2 ^ 64 : Nat) |>.toNat |> (· % q)

/-- NO_MODULUS (R211). -/
def noModulus : FaultInfo := ⟨6, 2, 0, 0, false, 0, 0, none⟩

/-- A modular instruction in the entry's context: every operand is reduced first (R106, R212). -/
def Ctx.zlane (c : Ctx) (words : Nat) (op : Op) (o : Long) (k : Nat → Nat → Lane → Except Stop Entry) : State :=
  match c.e.modctx with
  | none => c.raise words noModulus
  | some (q, qn) => c.lane words op o (k q.toNat qn.toNat)

/-- A modular instruction whose result is computed item by item; C is passed as it is (R212). -/
def Ctx.zeach (c : Ctx) (words : Nat) (op : Op) (o : Long) (f : Nat → Nat → Nat → Nat → Nat → Nat) : State :=
  c.zlane words op o fun q qn l =>
    l.write c.ke.regs true false o.d (l.each fun a b x => BitVec.ofNat 64 (f q qn (a.toNat % q) (b.toNat % q) x.toNat))

/-- ZMOD: a context for an odd q from 3 to 2^62, or ZMOD_BAD (R211). -/
def execZmod (o : Long) (s : State) : Host.Outcome State Fault Refusal :=
  s.issue fun c => c.lane (longWords o) .zmod o fun l =>
    match l.a with
    | .uni q =>
      let ok := decide (q.toNat % 2 = 1 ∧ 3 ≤ q.toNat ∧ q.toNat < 2 ^ 62)
      (l.write c.ke.regs false false o.d (.uni (if ok then 0 else 1))).map fun e =>
        if ok then { e with modctx := some (q, negInv q 6 1) } else e
    | _ => .error (.fault (breach c.e))

def execZadd (o : Long) (s : State) : Host.Outcome State Fault Refusal :=
  s.issue fun c => c.zeach (longWords o) .zadd o fun q _ a b _ => zAdd q a b
def execZsub (o : Long) (s : State) : Host.Outcome State Fault Refusal :=
  s.issue fun c => c.zeach (longWords o) .zsub o fun q _ a b _ => zSub q a b
def execZmul (o : Long) (s : State) : Host.Outcome State Fault Refusal :=
  s.issue fun c => c.zeach (longWords o) .zmul o fun q qn a b _ => mont q qn a b
def execZmulc (o : Long) (s : State) : Host.Outcome State Fault Refusal :=
  s.issue fun c => c.zeach (longWords o) .zmulc o fun q _ a b x => shoup q a b x
def execZred (o : Long) (s : State) : Host.Outcome State Fault Refusal :=
  s.issue fun c => c.zeach (longWords o) .zred o fun _ _ a _ _ => a
def execZtom (o : Long) (s : State) : Host.Outcome State Fault Refusal :=
  s.issue fun c => c.zeach (longWords o) .ztom o fun q _ a _ _ => toMont q a
def execZfromm (o : Long) (s : State) : Host.Outcome State Fault Refusal :=
  s.issue fun c => c.zeach (longWords o) .zfromm o fun q qn a _ _ => mont q qn a 1

/-- A butterfly over the item's own value, its partner's and the twiddle; the result is DEN (R213). -/
def Ctx.butterfly (c : Ctx) (words : Nat) (op : Op) (o : Long) (f : Nat → Nat → Bool → Nat → Nat → Nat → Nat) : State :=
  c.zlane words op o fun q qn l =>
    let k := match o.perm with
      | .bfly k => k.val
      | _ => 0
    let own := match o.a with
      | .v n => c.e.readV n true
      | _ => .uni 0
    l.write c.ke.regs true false o.d (.build l.e fun i =>
      BitVec.ofNat 64 (f q qn (decide (l.e.posOf i / 2 ^ k % 2 = 0)) ((own.at i).toNat % q) ((l.a.at i).toNat % q)
        ((l.b.at i).toNat % q)))

def execZntt (o : Long) (s : State) : Host.Outcome State Fault Refusal :=
  s.issue fun c => c.butterfly (longWords o) .zntt o fun q qn lower x y w =>
    if lower then zAdd q x (mont q qn w y) else zSub q y (mont q qn w x)
def execZintt (o : Long) (s : State) : Host.Outcome State Fault Refusal :=
  s.issue fun c => c.butterfly (longWords o) .zintt o fun q qn lower x y w =>
    if lower then zAdd q x y else mont q qn (zSub q y x) w

/-- Square-and-multiply over the bits of an exponent, highest of `n` bits first (R214). -/
def montPow (q qn w e : Nat) : Nat → Nat → Nat
  | 0, r => r
  | n + 1, r =>
    let r2 := mont q qn r r
    montPow q qn w e n (if e.testBit n then mont q qn r2 w else r2)

def execZtwid (o : Long) (s : State) : Host.Outcome State Fault Refusal :=
  s.issue fun c => c.zlane (longWords o) .ztwid o fun q qn l =>
    l.write c.ke.regs true false o.d (l.each fun a b _ =>
      BitVec.ofNat 64 (montPow q qn (a.toNat % q) (b.toNat % 2 ^ 32) 32 (toMont q 1)))

end Sys2Proof.Machine
end

