-- ==== Sys2Proof/Machine/Room.lean ====
section
/-!
DEFINITION. Room on a core: what a flight takes, where its bytes of the pool go, which cores may take it, and the save pool
(R28, R29, R65, R76 to R82, R85, R386, R407).
-/
namespace Sys2Proof.Machine

/-! ### What a flight takes -/

/-- Footprint of a tile of each class (R76). -/
def tileBytes : Nat → Nat
  | 0 => 98304
  | 1 => 24576
  | 2 => 8192
  | 3 => 8192
  | _ => 4096

/-- What a flight asks of one core. -/
structure Need where
  slots : Nat
  rf : Nat
  acc : Nat
  spad : Nat
deriving DecidableEq, Repr

/-- Register file of one strand (R65). -/
def Kernel.strandBytes (k : Kernel) : Nat := k.width * k.regs * 4

/-- Bytes of the scratchpad that lie on the lower core of a pair (R81). -/
def Kernel.spadHalf (k : Kernel) : Nat := ceilDiv (ceilDiv k.spad 2) 128 * 128

/-- What a flight of a kernel asks of its only core, or of the lower and the upper core of a pair (R29, R77, R81). -/
def Kernel.needs (k : Kernel) : List Need :=
  if k.pair then
    let lo := ceilDiv k.strands 2
    let hi := k.strands / 2
    [⟨lo, lo * k.strandBytes, ceilDiv k.tiles 2 * tileBytes k.acls, k.spadHalf⟩,
     ⟨hi, hi * k.strandBytes, k.tiles / 2 * tileBytes k.acls, k.spadHalf⟩]
  else [⟨k.strands, k.strands * k.strandBytes, k.tiles * tileBytes k.acls, k.spad⟩]

/-- Bytes of a part of a core's pool: 0 register file, 1 accumulator store, 2 scratchpad (R78). -/
def Core.partBytes (c : Core) (part : Nat) : Nat :=
  65536 * (if part = 0 then c.rfg else if part = 1 then c.acg else 48 - c.rfg - c.acg)

/-- How many flights of a need a size holds; none when it is not asked of. -/
def atMost (size need : Nat) : Option Nat := if need = 0 then none else some (size / need)

/-- K of R82: the flights that a core could hold with register file unlimited. -/
def Core.flightsFor (c : Core) (n : Need) : Nat :=
  ([atMost 128 n.slots, atMost (c.partBytes 1) n.acc, atMost (c.partBytes 2) n.spad].filterMap id).foldl min 128

/-- A flight of the kernel is mirrored on its cores (R82). -/
def State.mirrors (s : State) (k : Kernel) (core : Nat) : Bool :=
  k.mirror && decide (bits s.fleet.features 1 1 = 1) &&
    k.needs.zipIdx.all fun (n, i) => decide ((s.core (core + i)).flightsFor n * n.rf ≤ (s.core (core + i)).partBytes 0 / 2)

/-! ### Where it goes -/

/-- The least start at which `len` bytes fit beside the pieces in use, starts being multiples of `al` (assumption 22). -/
def firstFit (used : List (Nat × Nat)) (size len al : Nat) : Option Nat :=
  let free (a : Nat) : Bool := decide (a + len ≤ size) && used.all fun u => decide (a + len ≤ u.1) || decide (u.1 + u.2 ≤ a)
  (((0 :: used.map fun u => ceilDiv (u.1 + u.2) al * al).filter free).foldl (fun b a => match b with
    | none => some a
    | some x => some (min x a)) none)

/-- Pieces of a part of a core's pool in use, or kept for a saved flight that a handler has been asked to restore (R28, R390). -/
def State.usedOf (s : State) (core part : Nat) : List (Nat × Nat) :=
  s.flights.flatMap fun f => if f.state = .saved ∧ f.placing.isNone then [] else
    (f.alloc.filter fun a => decide (a.core = core) && decide (a.part = part)).map fun a => (a.start, a.len)

/-- Slots of a core that no flight holds (the handler's own aside). -/
def State.freeSlots (s : State) (core : Nat) : List Nat :=
  (List.range 128).filter fun n => !(s.slots.any fun x => decide (x.core = core) && decide (x.num = n))

/-- Slots of a core that a flight may still take: those kept for a flight about to be restored do not count (R28, R390). -/
def State.openSlots (s : State) (core : Nat) : Nat :=
  let kept (f : Flight) : Nat := match f.placing with
    | some c => if f.state ≠ .saved then 0
      else (f.saved.filter fun x => decide (c + (x.core - f.core) = core)).length
    | none => 0
  (s.freeSlots core).length - (s.flights.map kept).sum

/-- A piece of one part for a need. -/
def State.fitPart (s : State) (core part len : Nat) : Option (List Alloc) :=
  if len = 0 then some []
  else (firstFit (s.usedOf core part) ((s.core core).partBytes part) len 128).map fun a => [⟨core, part, a, len⟩]

/-- The pieces of a core's pool for a need, if slots and pool have room. -/
def State.fitCore (s : State) (core : Nat) (n : Need) (copies : Nat) : Option (List Alloc) :=
  if s.openSlots core < n.slots then none
  else do
    let a ← s.fitPart core 0 (copies * n.rf)
    let b ← s.fitPart core 1 n.acc
    let c ← s.fitPart core 2 n.spad
    pure (a ++ b ++ c)

/-- The pieces that a flight of the kernel would take on a core or pair. -/
def State.fitFlight (s : State) (k : Kernel) (core : Nat) : Option (List Alloc) :=
  let copies := if s.mirrors k core then 2 else 1
  match k.needs with
  | [n] => s.fitCore core n copies
  | [n, m] => do
    let a ← s.fitCore core n copies
    let b ← s.fitCore (core + 1) m copies
    pure (a ++ b)
  | _ => none

/-! ### Which cores may take a flight -/

/-- A function's owner is protected (R397, R409). -/
def State.protectedOwner (s : State) (o : Nat) : Bool := bits s.oper.prot o 1 = 1

/-- A core holds a resident flight: the whole flight counts on each core that it was placed on, whichever of its strands are left
(R28, R79). -/
def State.coreEmpty (s : State) (core : Nat) : Bool :=
  !(s.flights.any fun f => decide (f.state ≠ .saved ∧ f.tag < handlerTags) && f.cores.contains core)

/-- The pair holds no flight. -/
def State.pairEmpty (s : State) (pair : Nat) : Bool := s.coreEmpty (2 * pair) && s.coreEmpty (2 * pair + 1)

/-- A clear must run on the pair before a flight of an owner is placed there (R407). -/
def State.needsClear (s : State) (pair owner : Nat) : Bool :=
  match (s.core (2 * pair)).lastOwner with
  | some o => decide (o ≠ owner) && (s.protectedOwner o || s.protectedOwner owner)
  | none => false

/-- A core takes flights: in service, no partition word pending, no zeroing, no clear under way, its pair not leaving its
partition, no spare about to take its number (R79, R405, R456, R468). -/
def State.coreOpen (s : State) (p core : Nat) : Bool :=
  let c := s.core core
  let x := s.part p
  decide (bits x.cur.pairs (core / 2) 1 = 1) &&
  !(s.oper.parts.any fun y => y.busy && decide (bits y.leaving (core / 2) 1 = 1)) &&
  !c.out && !(s.core (2 * (core / 2))).out && !(s.core (2 * (core / 2) + 1)).out &&
  c.pend.isNone && c.zeroing.isNone && c.clearing.isNone && !s.swapping core

/-- The core, or the lower core of a pair, is open for the kernel. -/
def State.siteOpen (s : State) (p : Nat) (k : Kernel) (core : Nat) : Bool :=
  s.coreOpen p core && (!k.pair || (decide (core % 2 = 0) && s.coreOpen p (core + 1)))

/-- Free slots that a site offers, the measure of R28. -/
def State.siteSlots (s : State) (k : Kernel) (core : Nat) : Nat :=
  s.openSlots core + (if k.pair then s.openSlots (core + 1) else 0)

/-- The cores of a partition that have room for a flight of the kernel, with the pieces it would take. -/
def State.sites (s : State) (p : Nat) (k : Kernel) : List (Nat × List Alloc) :=
  (List.range 96).filterMap fun c =>
    if s.siteOpen p k c ∧ !s.needsClear (c / 2) k.owner then (s.fitFlight k c).map fun a => (c, a) else none

/-- The site with the most free slots, the lower number on a tie (R28). -/
def State.bestSite (s : State) (k : Kernel) (cs : List (Nat × List Alloc)) : Option (Nat × List Alloc) :=
  cs.foldl (fun b c => match b with
    | none => some c
    | some x => if s.siteSlots k x.1 < s.siteSlots k c.1 ∨ (s.siteSlots k x.1 = s.siteSlots k c.1 ∧ c.1 < x.1) then some c else b) none

/-- Two pieces of the pool share bytes. -/
def Alloc.meets (a b : Alloc) : Bool :=
  decide (a.core = b.core ∧ a.part = b.part ∧ a.start < b.start + b.len ∧ b.start < a.start + a.len)

/-- What flights that are over left in pieces of the pool goes: dispatch zeroes them, or a save record's contents take their place
(R77, R81). -/
def State.takePieces (s : State) (as : List Alloc) : State :=
  { s with remains := s.remains.filter fun f => !(f.alloc.any fun a => as.any a.meets) }

/-- What flights that are over left on a core goes. -/
def State.clearRemains (s : State) (core : Nat) : State :=
  { s with remains := s.remains.filter fun f => !(f.alloc.any fun a => decide (a.core = core)) }

/-! ### The save pool (R386) -/

/-- LMAX of a kernel's flight (R386). -/
def Kernel.lmax (k : Kernel) : Nat :=
  102400 + k.strands * k.strandBytes + k.spad + k.tiles * tileBytes k.acls + k.strands * (26624 + 544 * k.width)

/-- Reservations in a partition's save pool, from its base. -/
def State.poolUsed (s : State) (p : Nat) : List (Nat × Nat) :=
  (s.flights.filter fun f => decide (f.part = p)).map fun f => (f.saveArea - (s.part p).cur.saveb, f.lmax)

/-- The save area that a flight would be given in a partition. -/
def State.reservePool (s : State) (p : Nat) (k : Kernel) : Option Nat :=
  (firstFit (s.poolUsed p) (s.part p).cur.savesz k.lmax 4096).map fun a => (s.part p).cur.saveb + a

end Sys2Proof.Machine
end

