-- ==== Sys2Proof/Machine/Tiles.lean ====
section
/-!
DEFINITION. Tiles, operand maps and format blocks, and the arithmetic of the matrix engine (R76, R101 to R106, R248, R253 to
R257, R260, R262, R264, R266).
-/
namespace Sys2Proof.Machine

/-! ### Tiles (R76) -/

/-- M and N of the tiles of a class (R76). -/
def tileDims : Nat → Nat × Nat
  | 0 => (128, 192)
  | 1 => (64, 96)
  | 2 => (32, 64)
  | 3 => (32, 32)
  | _ => (16, 32)

/-- The elements of a tile from index `i`, `n` of them. -/
def denseTile : List (Nat × W64) → Nat → Nat → List W64
  | _, _, 0 => []
  | [], i, n + 1 => 0 :: denseTile [] (i + 1) n
  | (j, v) :: t, i, n + 1 => if j = i then v :: denseTile t (i + 1) n else 0 :: denseTile ((j, v) :: t) (i + 1) n

/-- A tile as it is kept: the elements that are not zero. -/
def sparseTile (i : Nat) : List W64 → List (Nat × W64)
  | [] => []
  | v :: vs => if v = 0 then sparseTile (i + 1) vs else (i, v) :: sparseTile (i + 1) vs

def Flight.tile (fl : Flight) (n : Nat) : List (Nat × W64) := fl.tiles.getD n []

/-- Writes a whole tile, which covers any damage to it (R59). -/
def Flight.setTile (fl : Flight) (n : Nat) (t : List (Nat × W64)) : Flight :=
  { fl with tiles := fl.tiles.set n t, spoiled := fl.spoiled.filter fun x => x ≠ (1, n) }

/-! ### Operand maps (R255 to R257) -/

/-- A map register's fields. -/
structure OpMap where
  base : Nat
  pitch : Nat
  rows : Nat
  cols : Nat
  swz : Nat
  esz : Nat

def opMap (w : BitVec 128) : OpMap :=
  let n := w.toNat
  ⟨bits n 0 32, bits n 32 16, bits n 48 16, bits n 64 16, bits n 80 2, bits n 82 2⟩

def OpMap.empty (m : OpMap) : Bool := decide (m.rows = 0 ∨ m.cols = 0)
/-- Bytes of a row (R255). -/
def OpMap.span (m : OpMap) : Nat := if m.swz = 1 then ceilDiv (m.cols * 2 ^ m.esz) 128 * 128 else m.cols * 2 ^ m.esz

/-- A map record is valid in a flight's allocation (R255). -/
def mapValid (w : BitVec 128) (alloc : Nat) : Bool :=
  let m := opMap w
  let al := if m.swz = 1 then 128 else 16
  decide (bits w.toNat 84 44 = 0) && decide (m.swz ≤ 1) && decide (m.base % al = 0) && decide (m.pitch % al = 0) &&
  (m.empty || ((decide (m.rows = 1) || decide (m.span ≤ m.pitch)) && decide (m.base + (m.rows - 1) * m.pitch + m.span ≤ alloc)))

/-- The scratchpad offset of an element (R256). -/
def OpMap.addr (m : OpMap) (r c : Nat) : Nat :=
  let b := c * 2 ^ m.esz
  let chunk := b / 16
  let chunk := if m.swz = 1 then chunk / 8 * 8 + (chunk % 8 ^^^ r % 8) else chunk
  m.base + r * m.pitch + 16 * chunk + b % 16

/-- The offset of an element, none outside the valid extent (R257). -/
def OpMap.at (m : OpMap) (r c : Nat) : Option Nat := if r < m.rows ∧ c < m.cols then some (m.addr r c) else none

/-- Row and column of an origin operand (R257). -/
def originRow (w : W64) : Nat := bits w.toNat 0 32
def originCol (w : W64) : Nat := bits w.toNat 32 32

/-- The addresses that a tile of R by C elements reaches through a map. -/
def OpMap.reach (m : OpMap) (org : W64) (nr nc : Nat) : List Nat :=
  (List.range nr).flatMap fun i => (List.range nc).filterMap fun j => m.at (originRow org + i) (originCol org + j)

/-- Which bytes an engine reads: those that stand now, or those that stood when it entered the queue, element by element
(R268). -/
structure Sight where
  now : List Host.Cell
  past : List Host.Cell
  old : Nat → Bool
  alloc : Nat

/-- The number in an element's bytes. -/
def Sight.get (v : Sight) (a n : Nat) : Nat := leNat (Memory.readN (if v.old a then v.past else v.now) a n)

/-- An element through a map; none outside the extent. -/
def Sight.elem (v : Sight) (m : OpMap) (r c : Nat) : Option Nat := (m.at r c).map fun a => v.get a (2 ^ m.esz)

/-! ### The format block (R253, R254) -/

structure FmtBlock where
  a : Float.B8
  b : Float.B8
  asce : Bool
  bsce : Bool
  len : Nat
  asb : Nat
  asp : Nat
  bsp : Nat
  bsb : Nat

def fmtBlock (w : BitVec 512) : FmtBlock :=
  let n := w.toNat
  ⟨Float.B8.ofCode (bits n 0 5), Float.B8.ofCode (bits n 8 5), decide (bits n 16 1 = 1), decide (bits n 17 1 = 1),
   if bits n 18 1 = 1 then 32 else 16, bits n 32 32, bits n 64 16, bits n 80 16, bits n 96 32⟩

/-- A block meets every Meaning of R253. -/
def fmtValid (w : BitVec 512) : Bool :=
  let n := w.toNat
  decide (bits n 0 3 ≠ 0) && decide (bits n 8 3 ≠ 0) && decide (bits n 5 3 = 0) && decide (bits n 13 3 = 0) &&
  decide (bits n 19 13 = 0) && decide (bits n 128 384 = 0)

/-- A scale byte at an offset as it stood when the instruction entered the queue, the scale NaN beyond the allocation (R254, R268). -/
def Sight.scale (v : Sight) (a : Nat) : Nat := if v.alloc ≤ a then 255 else leNat (Memory.readN v.past a 1)

/-- A binary8 element under its scale (R101, R102). -/
def scaled (x : Float.Val) (sc : Nat) : Float.Val :=
  if sc = 255 then .nan
  else match x with
    | .fin neg m e => .fin neg m (e + ((sc : Int) - 127))
    | v => v

/-! ### Products and sums (R102 to R105) -/

/-- The exact sum of finite values as an integer over an exponent. -/
def exactSum : List Float.Val → Int × Int
  | [] => (0, 0)
  | .fin neg m e :: vs =>
    let (s, x) := exactSum vs
    if m = 0 then (s, x)
    else if s = 0 then (if neg then -(m : Int) else m, e)
    else
      let lo := min e x
      let a : Int := m * 2 ^ (e - lo).toNat
      ((if neg then -a else a) + s * 2 ^ (x - lo).toNat, lo)
  | _ :: vs => exactSum vs

/-- A group's sum rounded once; an exact zero is +0 (R103). -/
def groupSum (f : Float.Fmt) (vs : List Float.Val) : Float.Val :=
  let (s, e) := exactSum vs
  Float.decode f (Float.round f .rne (decide (s < 0)) s.natAbs e)

def isFin : Float.Val → Bool
  | .fin _ _ _ => true
  | _ => false
def isInf (neg : Bool) : Float.Val → Bool
  | .inf n => n = neg
  | _ => false

/-- An element of a floating-point multiply: its products by dense index (R103), or the IEEE result when a special operand is
involved (R105). -/
def mmaFloat (f : Float.Fmt) (groups : Nat) (c : Nat) (ps : List (Nat × Float.Val)) : Nat :=
  let prior := Float.decode f c
  if ps.all fun p => isFin p.2 then
    (List.range groups).foldl (fun c g =>
      Float.encode f .rne (Float.addV .rne (Float.decode f c) (groupSum f ((ps.filter fun p => decide (p.1 / 32 = g)).map Prod.snd)))) c
  else
    let terms := prior :: ps.map Prod.snd
    if terms.any Float.Val.isNan || (terms.any (isInf true) && terms.any (isInf false)) then f.nan
    else Float.withSign f (terms.any (isInf true)) f.infCode

/-- An operand of a multiply: a value, an integer or a residue, none outside the extent. -/
structure Operand where
  k : Nat
  v : Float.Val
  z : Int

/-- What a type's element bytes stand for; `sc` is a binary8 element's scale. -/
def operandOf (t : Ty) (b8 : Float.B8) (k w sc : Nat) : Operand :=
  match t with
  | .b8 => ⟨k, scaled (b8.decode w) sc, 0⟩
  | .i8 => ⟨k, .nan, signed 8 w⟩
  | .n8 | .z64 => ⟨k, .nan, w⟩
  | .f16 => ⟨k, Float.decode Float.f16 w, 0⟩
  | .bf16 => ⟨k, Float.decode Float.bf16 w, 0⟩
  | .f64 => ⟨k, Float.decode Float.f64 w, 0⟩
  | _ => ⟨k, Float.decode Float.f32 w, 0⟩

/-- Pairs of operands that share a dense index, A's in order. -/
def pairUp (as : List Operand) (bs : List (Option Operand)) : List (Operand × Operand) :=
  as.filterMap fun a => (bs.getD a.k none).map fun b => (a, b)

/-- One element of a multiply (R260): `kd` is the dense K. -/
def mmaCell (t : Ty) (q : Nat × Nat) (kd : Nat) (ps : List (Operand × Operand)) (c : W64) : W64 :=
  match t with
  | .i8 | .n8 => storeInt .i32 false (intOf .i32 c + (ps.map fun p => p.1.z * p.2.z).sum)
  | .z64 =>
    BitVec.ofNat 64 ((c.toNat % q.1 + (ps.map fun p => mont q.1 q.2 (p.1.z.toNat % q.1) (p.2.z.toNat % q.1)).sum) % q.1)
  | _ =>
    let f := if t = .f64 then Float.f64 else Float.f32
    BitVec.ofNat 64 (mmaFloat f (kd / 32) (c.toNat % 2 ^ f.width) (ps.map fun p => (p.1.k, Float.mulV p.1.v p.2.v)))

/-- M, N and the dense K of a type's multiply (R259); K is twice as large under MMAS. -/
def mmaDims (t : Ty) (sparse : Bool) : Nat × Nat × Nat :=
  match t with
  | .b8 | .i8 | .n8 => (128, 192, if sparse then 128 else 64)
  | .f16 | .bf16 => (64, 96, 64)
  | .f32 => (32, 64, 32)
  | .f64 => (32, 32, 32)
  | _ => (16, 32, 32)

/-! ### One multiply (R260) -/

/-- Elements kept of each group, and the positions of a group: `.s24` and `.s48`. -/
def sparseKept (o : Long) : Nat := if o.mod.val / 8 % 2 = 1 then 4 else 2
def sparseGrp (o : Long) : Nat := if o.mod.val / 8 % 2 = 1 then 8 else 4

/-- Dense index of a stored element of a row under MMAS: its group and the index in the metadata (R260). -/
def sparseIndex (v : Sight) (o : Long) (mm : OpMap) (row col s : Nat) : Nat :=
  let kept := sparseKept o
  let meta_ := (v.elem mm row (col / kept + s / kept)).getD 0
  let w := if kept = 4 then 3 else 2
  sparseGrp o * (s / kept) + bits meta_ (w * (s % kept)) w

/-- Stored element `s` of row `r` of A: its dense index, and the offset of its scale (R254, R260). -/
def placeA (v : Sight) (op : Op) (o : Long) (fb : FmtBlock) (mm : OpMap) (r c0 s : Nat) : Nat × Nat :=
  let k := if op = .mmas then sparseIndex v o mm r c0 s else s
  let d := if op = .mmas then sparseGrp o * (c0 / sparseKept o) + k else c0 + s
  (k, fb.asb + r * fb.asp + d / fb.len)

/-- Row `i` of A: the elements inside the extent, by dense index, under their scales (R254, R257). -/
def rowA (v : Sight) (op : Op) (o : Long) (fb : FmtBlock) (ma mm : OpMap) (org : W64) (i : Nat) : List Operand :=
  let r := originRow org + i
  let c0 := originCol org
  let stored := (mmaDims o.ty false).2.2
  (List.range stored).filterMap fun s => (v.elem ma r (c0 + s)).map fun w =>
    let (k, at_) := placeA v op o fb mm r c0 s
    operandOf o.ty fb.a k w (if fb.asce then v.scale at_ else 127)

/-- The offsets of the scales that a binary8 multiply reads, A's first (R254, R260). -/
def scalesOf (v : Sight) (op : Op) (o : Long) (fb : FmtBlock) (ma mb mm : OpMap) (orgA orgB : W64) : List Nat × List Nat :=
  let (nm, nn, kd) := mmaDims o.ty (decide (op = .mmas))
  let stored := (mmaDims o.ty false).2.2
  let inside (xs : List Nat) : List Nat := xs.filter fun a => decide (a < v.alloc)
  if o.ty ≠ .b8 then ([], [])
  else
    (if fb.asce then inside ((List.range nm).flatMap fun i => (List.range stored).filterMap fun s =>
        (ma.at (originRow orgA + i) (originCol orgA + s)).map fun _ => (placeA v op o fb mm (originRow orgA + i) (originCol orgA) s).2) else [],
     if fb.bsce then inside ((List.range nn).flatMap fun n => (List.range kd).filterMap fun k =>
        (mb.at (originRow orgB + k) (originCol orgB + n)).map fun _ =>
          fb.bsb + (originCol orgB + n) * fb.bsp + (originRow orgB + k) / fb.len) else [])

/-- Column `n` of B: its elements by dense index (R254, R257). -/
def colB (v : Sight) (op : Op) (o : Long) (fb : FmtBlock) (mb : OpMap) (org : W64) (n : Nat) : List (Option Operand) :=
  let c := originCol org + n
  (List.range (mmaDims o.ty (decide (op = .mmas))).2.2).map fun k =>
    let r := originRow org + k
    (v.elem mb r c).map fun w =>
      operandOf o.ty fb.b k w (if fb.bsce then v.scale (fb.bsb + c * fb.bsp + r / fb.len) else 127)

/-- The tile after a multiply (R260). -/
def mmaTile (v : Sight) (op : Op) (o : Long) (fb : FmtBlock) (q : Nat × Nat) (ma mb mm : OpMap) (orgA orgB : W64)
    (t : List (Nat × W64)) : List (Nat × W64) :=
  let (nm, nn, kd) := mmaDims o.ty (decide (op = .mmas))
  let prior := if o.mod.val % 2 = 1 then List.replicate (nm * nn) 0 else denseTile t 0 (nm * nn)
  let rows := (List.range nm).map (rowA v op o fb ma mm orgA)
  let cols := (List.range nn).map (colB v op o fb mb orgB)
  sparseTile 0 ((prior.zip (rows.flatMap fun r => cols.map fun c => pairUp r c)).map fun p => mmaCell o.ty q kd p.2 p.1)

/-! ### CMPR (R262) -/

/-- A magnitude rank: larger is kept first. -/
def magRank (t : Ty) (b8 : Float.B8) (w : Nat) : Nat :=
  match t with
  | .b8 =>
    if w = b8.nanCode then 1024
    else match b8.decode w with
      | .inf _ => 512
      | _ => if b8.sg then w % 128 else w
  | .i8 => (signed 8 w).natAbs
  | _ => w

/-- How many elements of a group come before element `j` in the order of R262. -/
def earlier (ranks : List Nat) (j : Nat) : Nat :=
  let x := ranks.getD j 0
  ((ranks.zipIdx).filter fun p => decide (x < p.1) || (decide (p.1 = x) && decide (p.2 < j))).length

/-- The indices kept of a group, in increasing order (R262). -/
def keptOf (ranks : List Nat) (kept : Nat) : List Nat := (List.range ranks.length).filter fun j => decide (earlier ranks j < kept)

/-- The metadata of a group (R260). -/
def metaWord (w : Nat) : List Nat → Nat
  | [] => 0
  | j :: js => j + 2 ^ w * metaWord w js

/-- Writes an element through a map, inside its extent only. -/
def Flight.putElem (fl : Flight) (m : OpMap) (r c v : Nat) : Flight :=
  match m.at r c with
  | some a => fl.putSpad a (leBytes (2 ^ m.esz) v)
  | none => fl

/-- CMPR over the scratchpad (R262). -/
def Flight.compress (fl : Flight) (o : Long) (ms mv mm : OpMap) (orgS orgV : W64) : Flight :=
  let kept := if o.mod.val / 32 % 2 = 1 then 4 else 2
  let grp := 2 * kept
  let b8 := Float.B8.ofCode (o.mod.val % 32)
  let src (r c : Nat) : Nat := match ms.at r c with
    | some a => leNat (Memory.readN fl.spad a 1)
    | none => 0
  let groups := (List.range 128).flatMap fun i => (List.range (128 / grp)).map fun g =>
    (i, g, (List.range grp).map fun j => src (originRow orgS + i) (originCol orgS + grp * g + j))
  groups.foldl (fun f (i, g, ws) =>
    let js := keptOf (ws.map (magRank o.ty b8)) kept
    let f := js.zipIdx.foldl (fun f (j, s) => f.putElem mv (originRow orgV + i) (originCol orgV + kept * g + s) (ws.getD j 0)) f
    f.putElem mm (originRow orgV + i) (originCol orgV / kept + g) (metaWord (if kept = 4 then 3 else 2) js)) fl

/-! ### Accumulator instructions and drains (R264, R266, R267) -/

/-- The elements of a map that a tile takes, 0 outside the extent (ALD). -/
def Flight.tileFrom (fl : Flight) (m : OpMap) (org : W64) (nm nn : Nat) : List (Nat × W64) :=
  sparseTile 0 ((List.range nm).flatMap fun i => (List.range nn).map fun j => match m.at (originRow org + i) (originCol org + j) with
    | some a => BitVec.ofNat 64 (leNat (Memory.readN fl.spad a (2 ^ m.esz)))
    | none => 0)

/-- A tile's element scaled (ASCL). -/
def scaleElem (t : Ty) (sat : Bool) (q : Nat × Nat) (s x : W64) : W64 :=
  match t with
  | .f32 | .f64 => BitVec.ofNat 64 (Float.fmul (fmtOf t) .rne (patOf t x) (patOf t s))
  | .z64 => BitVec.ofNat 64 (mont q.1 q.2 (x.toNat % q.1) (s.toNat % q.1))
  | _ => storeInt t sat (intOf t x * intOf t s)

/-- A destination element after a drain (R266). -/
def drainElem (t : Ty) (set : Bool) (q : Nat × Nat) (dest x : W64) : W64 :=
  match t with
  | .z64 => BitVec.ofNat 64 (if set then x.toNat % q.1 else (dest.toNat % q.1 + x.toNat % q.1) % q.1)
  | .f32 | .f64 => if set then x else BitVec.ofNat 64 (Float.fadd (fmtOf t) .rne (patOf t dest) (patOf t x))
  | _ => if set then x else storeInt t false (intOf t dest + intOf t x)

/-- Row and column of each element of a tile with its value. -/
def cellsOf (nn : Nat) (vs : List W64) : List (Nat × Nat × W64) := vs.zipIdx.map fun (v, k) => (k / nn, k % nn, v)

/-- A drain to scratchpad (R267). -/
def Flight.drainTo (fl : Flight) (t : Ty) (set : Bool) (q : Nat × Nat) (m : OpMap) (org : W64) (nn : Nat) (vs : List W64) : Flight :=
  (cellsOf nn vs).foldl (fun f (i, j, x) => match m.at (originRow org + i) (originCol org + j) with
    | some a => f.putSpad a (leBytes (2 ^ m.esz) (drainElem t set q (BitVec.ofNat 64 (leNat (Memory.readN f.spad a (2 ^ m.esz)))) x).toNat)
    | none => f) fl

/-- AST: the elements inside the extent (R264). -/
def Flight.storeTile (fl : Flight) (m : OpMap) (org : W64) (nn : Nat) (vs : List W64) : Flight :=
  (cellsOf nn vs).foldl (fun f (i, j, x) => f.putElem m (originRow org + i) (originCol org + j) x.toNat) fl

end Sys2Proof.Machine
end

