-- ==== Sys2Proof/Machine/Distributor.lean ====
section
/-!
DEFINITION. The distributor: placing flights, the stall sweep, reorder phases, the end of launches, budgets, and what the cores
do between flights (R25 to R29, R52, R55 to R58, R69, R79, R85, R379, R384, R386, R390, R400, R401, R407, R459).
-/
namespace Sys2Proof.Machine

/-! ### New strands (R33, R58, R66, R69, R98) -/

/-- A seed as it is stored: 0 is stored as 1 (R98). -/
def storedSeed (w : W32) : W32 := if w = 0 then 1 else w

/-- The rounding generator at dispatch of a phase (R98). -/
def phaseSeed (seed : W32) (phase : Nat) : W32 :=
  storedSeed (seed + BitVec.ofNat 32 (phase * 0x6A09E667))

/-- A strand as dispatch leaves it. -/
def strandEntry (width start len snum pc : Nat) (g : W32) (scalars : List W64) : Entry :=
  { Entry.blank len pc with
    start := start, wstart := start, width := width, snum := snum, gen := g,
    scalars := scalars ++ List.replicate (64 - scalars.length) 0 }

/-- s0 to s6 of a strand (R69). -/
def startScalars (la : Launch) (k : Kernel) (items f first snum : Nat) : List W64 :=
  [BitVec.ofNat 64 la.paramVa, BitVec.ofNat 64 items, BitVec.ofNat 64 f, BitVec.ofNat 64 first, BitVec.ofNat 64 snum,
   BitVec.ofNat 64 k.width, BitVec.ofNat 64 (la.qslot % 64 + la.tag % 65536 * 2 ^ 16 + la.seqNo % 2 ^ 32 * 2 ^ 32)]

/-- The strands of flight `f` of an ordinary launch (R26, R27). -/
def plainStrands (la : Launch) (k : Kernel) (f : Nat) : List Entry :=
  let l := k.strands * k.width
  (List.range k.strands).filterMap fun j =>
    let a := f * l + j * k.width
    if la.n ≤ a then none
    else
      let snum := j * k.width / 16
      some (strandEntry k.width a (min (a + k.width) la.n - a) snum k.code (phaseSeed la.seed 0)
        (startScalars la k la.n f (f * l) snum))

/-- A strand of a relaunched flight (R27, R58). -/
def relaunchStrand (la : Launch) (k : Kernel) (f : RFlight) (first j : Nat) (x : RStrand) : Entry :=
  let snum := j * (k.width / 16)
  let r0 := x.recs.headD ⟨0, 0, 0, 0, []⟩
  let e := strandEntry k.width x.start x.recs.length snum (k.code + r0.cont) (phaseSeed la.seed la.phase)
    (startScalars la k la.items f.num first snum)
  let pay (i : Nat) : VReg := .den (x.recs.map fun r => r.payload.getD i 0)
  let regs := ([0, 1, 2, 3, 4, 5, 6, 7].foldl (fun l i => l.set (i + 1) (pay i)) e.regs).set 9 (.uni (BitVec.ofNat 32 r0.key))
  ({ e with regs := regs.set 10 (.den (x.recs.map fun (r : RRec) => BitVec.ofNat 32 r.index)) }).normAll

def relaunchStrands (la : Launch) (k : Kernel) (f : RFlight) : List Entry :=
  let first := (f.strands.head?.map RStrand.start).getD 0
  f.strands.zipIdx.map fun (x, j) => relaunchStrand la k f first j x

/-! ### Placing (R28, R29) -/

/-- A flight with no state of its own yet. -/
def freshFlight (id tag num phase core part lmax area : Nat) (k : Kernel) (es : List Entry) (alloc : List Alloc) (mirrored : Bool) :
    Flight :=
  { Flight.blank id tag core with
    num := num, phase := phase, first := (es.head?.map Entry.start).getD 0,
    last := (es.getLast?.map fun e => e.start + e.len - 1).getD 0, pair := k.pair, saveArea := area, part := part, lmax := lmax,
    alloc := alloc, mirrored := mirrored, spadSize := k.spad, tiles := List.replicate k.tiles [] }

/-- Strands take the lowest free slots in order, on a pair the first half of S on the lower core (R29). -/
def State.seatStrands (s : State) (k : Kernel) (core fid : Nat) (es : List Entry) : List Slot :=
  let lo := s.freeSlots core
  let hi := s.freeSlots (core + 1)
  let h := if k.pair then ceilDiv k.strands 2 else k.strands
  es.zipIdx.map fun (e, j) =>
    if j < h then ⟨core, lo.getD j 0, fid, 0, [e]⟩ else ⟨core + 1, hi.getD (j - h) 0, fid, 0, [e]⟩

/-- Places a flight at a site of a partition, with a reservation in its save pool.  Its accesses come after the start of its
LAUNCH (R369): the caches of its cores keep no copy older than that (assumption 6). -/
def State.seat (s : State) (la : Launch) (k : Kernel) (p area num : Nat) (site : Nat × List Alloc) (es : List Entry) : State :=
  let f := freshFlight s.nextId la.tag num la.phase site.1 p k.lmax area k es site.2 (s.mirrors k site.1)
  let slots := s.seatStrands k site.1 s.nextId es
  (({ s.takePieces site.2 with nextId := s.nextId + 1, flights := s.flights ++ [f], slots := s.slots ++ slots }).modCores f.cores
    State.acquireCore).modCore (2 * (site.1 / 2)) fun c => { c with lastOwner := some la.owner }

/-- The budget of a partition lets it take flights (R401). -/
def State.budgetOpen (s : State) (p : Nat) : Bool := decide ((s.part p).cur.period = 0) || decide (0 < (s.part p).bal)

/-- A bank begins to leave retention (R85). -/
def Bank.wake (b : Bank) (now : Nat) : Bank :=
  match b with
  | .live => .live
  | .entering p t _ => .entering p t true
  | .retained p => .leaving p now
  | .leaving p t => .leaving p t

/-- Wakes the banks that pieces of the pool touch (R85). -/
def State.wakeBanks (s : State) (as : List Alloc) : State :=
  as.foldl (fun s a => s.modCore a.core fun c =>
    { c with
      banks := (c.banksOf a).foldl (fun bs b => bs.set b ((bs.getD b .live).wake s.clock)) c.banks
      woken := c.woken ++ (c.banksOf a).filter fun b => !c.woken.contains b }) s

/-- The clear that a placement would need first, on a pair that holds no flight (R407). -/
def State.askClear (s : State) (p : Nat) (k : Kernel) (okCore : Nat → Bool) : Option State :=
  ((List.range 48).find? fun m =>
      okCore (2 * m) && s.siteOpen p k (2 * m) && s.needsClear m k.owner && s.pairEmpty m && !(s.core (2 * m)).clearAsked &&
      (s.fitFlight k (2 * m)).isSome).map fun m =>
    (s.modCore (2 * m) fun c => { c with clearAsked := true }).activate (2 * m) (activation 4 0 0 0 0 true) 0

/-- The partition and the site that the next flight of a kernel takes (R28, R386, R401, R407). -/
def State.siteFor (s : State) (k : Kernel) (ps : List Nat) (okCore : Nat → Bool) : Option (Nat × Nat × List Alloc) :=
  let open_ := ps.filter fun p => s.budgetOpen p && (s.reservePool p k).isSome
  let sites := open_.flatMap fun p => (s.sites p k).filterMap fun c => if okCore c.1 then some (p, c) else none
  (s.bestSite k (sites.map Prod.snd)).bind fun site => sites.find? fun x => decide (x.2.1 = site.1)

/-- Seats the next flight of a launch where it goes. -/
def State.seatAt (s : State) (la : Launch) (k : Kernel) (num : Nat) (es : List Entry) (x : Nat × Nat × List Alloc) : Option State :=
  (s.reservePool x.1 k).map fun area => s.seat la k x.1 area num x.2 es

/-- Places the next flight of a launch on one of some partitions, on the cores a test allows, once the banks it takes are live; where
no core has room, a pair that needs a clear first is cleared (R28, R85, R407). -/
def State.placeFresh (s : State) (la : Launch) (k : Kernel) (ps : List Nat) (okCore : Nat → Bool) (num : Nat)
    (es : List Entry) : Option State :=
  match s.siteFor k ps okCore with
  | some x =>
    if s.banksLive x.2.2 then s.seatAt la k num es x
    else
      let t := s.wakeBanks x.2.2
      if t = s then none else some t
  | none => (ps.filter fun p => s.budgetOpen p && (s.reservePool p k).isSome).findSome? fun p => s.askClear p k okCore

/-- Asks the handler of a core to restore a saved flight there; slots and pieces of the pool are kept for it until then (R28, R390). -/
def State.askHandler (s : State) (f : Flight) (core : Nat) (as : List Alloc) : State :=
  (s.modFlight f.id fun f => { f with placing := some core, alloc := as }).activate core (activation 3 0 0 0 0 false)
    (BitVec.ofNat 64 f.saveArea)

/-- Asks a handler to restore a saved flight, once the banks it will take are live (R85, R390). -/
def State.askRestore (s : State) (f : Flight) (k : Kernel) : Option State :=
  if f.placing.isSome ∨ !s.budgetOpen f.part then none
  else match s.bestSite k (s.sites f.part k) with
    | some site =>
      if s.banksLive site.2 then some (s.askHandler f site.1 site.2)
      else
        let t := s.wakeBanks site.2
        if t = s then none else some t
    | none => s.askClear f.part k fun _ => true

/-- What a launch would have placed next (R28, R55, R57). -/
def State.placeOf (s : State) (la : Launch) : Option State :=
  match s.kernelOf la.fn la.kid with
  | none => none
  | some k =>
    let saved := (s.flights.filter fun f => decide (f.tag = la.tag) && decide (f.state = .saved))
    let again : Option State := if la.swept then none else
      (List.range (saved.foldl (fun m f => max m (f.num + 1)) 0)).findSome? fun n =>
        (saved.find? fun f => decide (f.num = n)).bind fun f => s.askRestore f k
    let next : Option State :=
      if la.killed then none
      else match la.relaunch with
        | f :: rest =>
          (s.placeFresh la k la.parts (fun c => decide (c / 24 = f.die)) f.num (relaunchStrands la k f)).map fun t =>
            if t.nextId = s.nextId then t else t.modLaunch la.tag fun l => { l with relaunch := rest, swept := false }
        | [] =>
          if la.n ≤ la.next ∨ la.phase ≠ 0 then none
          else (s.placeFresh la k la.parts (fun _ => true) la.nextFlight (plainStrands la k la.nextFlight)).map fun t =>
            if t.nextId = s.nextId then t else t.modLaunch la.tag fun l =>
              { l with next := min la.n (la.next + k.strands * k.width), nextFlight := la.nextFlight + 1, swept := false }
    again <|> next

/-- Puts a launch in the order in which flights are placed: class, then commit (R28). -/
def insertLaunch (x : Launch) : List Launch → List Launch
  | [] => [x]
  | y :: ys => if x.cls < y.cls ∨ (x.cls = y.cls ∧ x.order < y.order) then x :: y :: ys else y :: insertLaunch x ys

/-- FLIGHT_DISPATCH (R28): the first flight in R28's order for which there is room. -/
def execFlightDispatch (s : State) : Host.Outcome State Fault Refusal :=
  .next (((s.launches.foldl (fun l x => insertLaunch x l) []).findSome? s.placeOf).getD s)

/-! ### Saving (R55, R384, R401) -/

/-- The flight handle of a flight (R288). -/
def State.handleOf (s : State) (f : Flight) : Nat :=
  ((s.slots.filter fun x => decide (x.flight = f.id) && decide (x.core = f.core)).map Slot.num).foldl min 127

/-- Asks the handler of a flight's core for a save (R384). -/
def State.askSave (s : State) (id : Nat) : State :=
  match s.flightOf id with
  | some f =>
    if f.state = .resident ∧ f.lmax ≠ 0 then
      (s.modFlight id fun f => { f with state := .asked }).activate f.core (activation 2 0 (s.handleOf f) 0 0 false)
        (BitVec.ofNat 64 f.saveArea)
    else s
  | none => s

def State.askSaves (s : State) (ids : List Nat) : State := ids.foldl State.askSave s

/-- 64 µs (R55, R85). -/
def sweepClocks : Nat := 64 * Config.clocksPerUs

/-- STALL_SWEEP (R55). -/
def State.sweep (s : State) (tag : Nat) : State :=
  match s.launchOf tag with
  | none => s
  | some la =>
    let fs := s.flights.filter fun f => decide (f.tag = tag) && decide (f.state ≠ .saved)
    let stalled := fs.all fun f => match f.parkedSince with
      | some t => decide (max t la.lastSweep + sweepClocks ≤ s.clock)
      | none => false
    match fs with
    | [] => s
    | f0 :: _ =>
      if stalled ∧ (la.next < la.n ∨ !la.relaunch.isEmpty) ∧ !la.swept then
        let top := fs.foldl (fun b f => if b.num < f.num then f else b) f0
        (s.modLaunch tag fun l => { l with lastSweep := s.clock, swept := true }).askSave top.id
      else s

def execStallSweep (tag : Nat) (s : State) : Host.Outcome State Fault Refusal := .next (s.sweep tag)

/-! ### Budgets (R400, R401) -/

/-- Charges engine work to a partition (R400). -/
def State.charge (s : State) (p bytes : Nat) : State :=
  s.modPart p fun x => if x.cur.period = 0 then x else { x with bal := x.bal - ceilDiv bytes 256 }

/-- BUDGET_REFILL (R400): one period's refill. -/
def execBudgetRefill (p : Nat) (s : State) : Host.Outcome State Fault Refusal :=
  let x := s.part p
  .next (if p < 16 ∧ x.cur.period ≠ 0 ∧ (x.charged + 1) * (x.cur.period * Config.clocksPerUs) ≤ s.clock then
    s.modPart p fun x => { x with bal := min (x.bal + x.cur.refill) x.cur.cap, charged := x.charged + 1 }
  else s)

/-- BUDGET_EXHAUSTED (R401): every resident flight of the partition is saved. -/
def execBudgetExhausted (p : Nat) (s : State) : Host.Outcome State Fault Refusal :=
  .next (if s.budgetOpen p then s
    else s.askSaves ((s.flights.filter fun f => decide (f.part = p) && decide (f.state = .resident)).map Flight.id))

/-! ### Reorder phases (R56 to R58) -/

/-- The order of R57: continuation, key, launch index. -/
def RRec.before (a b : RRec) : Bool :=
  if a.cont ≠ b.cont then decide (a.cont < b.cont)
  else if a.key ≠ b.key then decide (a.key < b.key)
  else decide (a.index < b.index)

def insertRec (x : RRec) : List RRec → List RRec
  | [] => [x]
  | y :: ys => if x.before y then x :: y :: ys else y :: insertRec x ys

/-- Strands of sorted records, from a first index: a new one at each change of key or continuation and after `w` items. -/
def cutStrands (w : Nat) : List RRec → Nat → List RStrand → List RStrand
  | [], _, acc => acc.reverse
  | r :: rs, i, acc =>
    match acc with
    | s :: ss =>
      let last := s.recs.getLastD r
      if last.key = r.key ∧ last.cont = r.cont ∧ s.recs.length < w then
        cutStrands w rs (i + 1) ({ s with recs := s.recs ++ [r] } :: ss)
      else cutStrands w rs (i + 1) (⟨i, [r]⟩ :: acc)
    | [] => cutStrands w rs (i + 1) [⟨i, [r]⟩]

/-- Flights of up to `n` strands (R57). -/
def cutFlights (die n : Nat) (xs : List RStrand) : List RFlight :=
  (List.range (ceilDiv xs.length (max n 1))).map fun k => ⟨die, 0, (xs.drop (k * n)).take n⟩

/-- The relaunched flights of a phase: dies in order take consecutive indices and flight numbers (R57). -/
def relaunchOf (recs : List RRec) (w n : Nat) : List RFlight :=
  let step (acc : List RFlight × Nat) (die : Nat) : List RFlight × Nat :=
    let mine := (recs.filter fun r => decide (r.die = die)).foldl (fun l r => insertRec r l) []
    (acc.1 ++ cutFlights die n (cutStrands w mine acc.2 []), acc.2 + mine.length)
  (((List.range 4).foldl step ([], 0)).1).zipIdx.map fun (f, i) => { f with num := i }

/-- REORDER_PHASE_CLOSE (R57): every item of the phase has ended and records wait. -/
def State.closePhase (s : State) (tag : Nat) : State :=
  match s.launchOf tag with
  | none => s
  | some la =>
    match s.kernelOf la.fn la.kid with
    | none => s
    | some k =>
      if la.killed ∨ la.next < la.n ∨ !la.relaunch.isEmpty ∨ la.recs.isEmpty ∨ s.flights.any (fun f => decide (f.tag = tag)) then s
      else s.modLaunch tag fun l => { l with phase := l.phase + 1, items := l.recs.length, recs := [],
                                             relaunch := relaunchOf l.recs k.width k.strands }

def execReorderPhaseClose (tag : Nat) (s : State) : Host.Outcome State Fault Refusal := .next (s.closePhase tag)

/-! ### Completion (R28, R368, R369, R380, R395) -/

/-- Writes a completion record (R368). -/
def State.writeCompletion (s : State) (fn caddr : Nat) (cval : W64) (status : Nat) : State :=
  if caddr = 0 then s
  else (s.fnWrite fn caddr 16 (leBytes 8 cval.toNat ++ leBytes 4 status ++ leBytes 4 0)).getD s

/-- A started packet completes: its record is written and its queue counts one less (R368, R373). -/
def State.completePacket (s : State) (p : Started) (status : Nat) : State :=
  let s := s.writeCompletion p.fn (leNat ((p.packet.drop 8).take 8)) (BitVec.ofNat 64 (leNat ((p.packet.drop 16).take 8))) status
  { s with queue := { s.queue with
      started := s.queue.started.filter fun x => x.id ≠ p.id
      qcbs := s.queue.qcbs.map fun q => if q.fn = p.fn ∧ q.qid = p.qid then { q with infl := q.infl - 1 } else q } }

/-- A launch still has an open record (R395). -/
def State.openRecord (s : State) (tag : Nat) : Bool := s.queue.faults.any fun f => f.isOpen && f.launch && decide (f.tag = tag)

/-- Every dirty sector of a core cache goes to the coherent tiers: every access is performed at system scope (R369). -/
def State.cleanAll (s : State) : State :=
  (List.range 96).foldl (fun s c => if (s.core c).cache.isEmpty then s else s.releaseDevice c) s

/-- LAUNCH_COMPLETE (R28, R369): no flight is left and no phase is open, or the launch was killed and its records are
closed. -/
def State.completeLaunch (s : State) (tag : Nat) : State :=
  match s.launchOf tag with
  | none => s
  | some la =>
    let over_ := decide (la.n ≤ la.next) && la.relaunch.isEmpty && la.recs.isEmpty && !(s.flights.any fun f => decide (f.tag = tag))
    if !over_ ∨ (la.killed ∧ s.openRecord tag) then s
    else
      let s := s.cleanAll
      let t := { s with launches := s.launches.filter fun l => l.tag ≠ tag }
      match s.queue.started.find? fun p => decide (p.tag = some tag) with
      | some p => t.completePacket p (if la.killed then 7 else 0)
      | none => t

def execLaunchComplete (tag : Nat) (s : State) : Host.Outcome State Fault Refusal := .next (s.completeLaunch tag)

/-! ### Cores between flights (R79, R85, R459) -/

/-- A spare row replaces each row of a bank with four or more corrected errors in the rotation (R459). -/
def State.spareRows (s : State) (core bank : Nat) : State :=
  let rows := (s.core core).rowErrs.filter fun r => decide (r.1 = bank ∧ 4 ≤ r.2.2)
  let n := min rows.length s.fleet.spares.rowf
  if n = 0 then s
  else
    let used := rows.take n
    let s := s.modCore core fun c => { c with rowErrs := c.rowErrs.filter fun r => !used.contains r }
    { s with fleet := { s.fleet with
        spares := { s.fleet.spares with rows := s.fleet.spares.rows + n, rowf := s.fleet.spares.rowf - n }
        spcore := s.fleet.spcore.modify core fun x => { x with prows := x.prows + n } } }

/-- PARTITION_WORD_TAKE_EFFECT (R79): an empty core takes its pending value and starts to zero every bank. -/
def execPartitionWordTakeEffect (core : Nat) (s : State) : Host.Outcome State Fault Refusal :=
  .next (match (s.core core).pend with
    | some (r, a) =>
      if s.coreEmpty core ∧ (s.core core).zeroing.isNone then
        (List.range 48).foldl (fun s b => s.spareRows core b)
          ((s.modCore core fun c => { c with rfg := r, acg := a, pend := none, zeroing := some (s.clock + 512) }).clearRemains core)
      else s
    | none => s)

/-- POOL_ZEROING_DONE (R79): flights are accepted again, unless a value written meanwhile is pending. -/
def execPoolZeroingDone (core : Nat) (s : State) : Host.Outcome State Fault Refusal :=
  .next (match (s.core core).zeroing with
    | some t => if t ≤ s.clock then s.modCore core fun c => { c with zeroing := none } else s
    | none => s)

/-- The flights that hold bytes of a bank. -/
def State.holders (s : State) (core bank : Nat) : List Flight :=
  s.flights.filter fun f => decide (f.state ≠ .saved) && f.alloc.any fun a => decide (a.core = core) && ((s.core core).banksOf a).contains bank

/-- Something waits to be placed: a flight of a launch, a saved flight, or the packet of a queue in service. -/
def State.placementWaits (s : State) : Bool :=
  (s.launches.any fun l => !l.killed && (decide (l.next < l.n) || !l.relaunch.isEmpty)) ||
  (s.flights.any fun f => decide (f.state = .saved)) || s.queue.qcbs.any fun q => q.slot.isSome

/-- A bank may enter retention, and whether its contents are kept (R85).  One that a placement has woken stays live until it is taken
or no placement waits (assumption 3). -/
def State.mayRetain (s : State) (core bank : Nat) : Option Bool :=
  let hs := s.holders core bank
  if hs.isEmpty then if (s.core core).woken.contains bank && s.placementWaits then none else some false
  else if (s.core core).prken && hs.all fun f =>
      (match f.parkedSince with
        | some t => decide (t + sweepClocks ≤ s.clock)
        | none => false) &&
      (match s.launchOf f.tag with
        | some l => decide (l.cls ≠ 0)
        | none => false) then some true
  else none

def State.setBank (s : State) (core bank : Nat) (b : Bank) : State :=
  s.modCore core fun c => { c with banks := c.banks.set bank b }

/-- What flights that are over left in a bank is discarded (R85). -/
def State.dropBank (s : State) (core bank : Nat) : State :=
  { s with remains := s.remains.filter fun f => !(f.alloc.any fun a => decide (a.core = core) && ((s.core core).banksOf a).contains bank) }

/-- RETENTION_ENTRY (R85); a bank without allocation may take spare rows (R459). -/
def execRetentionEntry (core bank : Nat) (s : State) : Host.Outcome State Fault Refusal :=
  .next (if (s.core core).banks[bank]? = some .live then
    match s.mayRetain core bank with
    | some kept => ((if kept then s else (s.spareRows core bank).dropBank core bank).modCore core fun c =>
        { c with woken := c.woken.filter fun b => b ≠ bank }).setBank core bank (.entering kept s.clock false)
    | none => s
  else s)

/-- Banks of parked flights one of whose entries is ready, or that PRKEN 0 releases, start to leave (R85, R86). -/
def State.bankWanted (s : State) (core bank : Nat) : Bool :=
  !(s.core core).prken || (s.holders core bank).any fun f => !s.flightParked f.id

/-- RETENTION_ENTRY_DONE: 2 µs after the entry began; an exit asked meanwhile starts now (R85). -/
def execRetentionEntryDone (core bank : Nat) (s : State) : Host.Outcome State Fault Refusal :=
  .next (match (s.core core).banks[bank]? with
    | some (.entering kept t ask) =>
      if t + 2 * Config.clocksPerUs ≤ s.clock then
        s.setBank core bank (if ask || (kept && s.bankWanted core bank) then .leaving kept s.clock else .retained kept)
      else s
    | _ => s)

/-- A REST that waits for the banks of a core is made again once one of them is live. -/
def State.wakeRests (s : State) (core : Nat) : State :=
  s.mapEntries fun _ e => match e.status with
    | .held (.banks c) => if c = core then { e with status := .ready } else e
    | _ => e

/-- RETENTION_EXIT_DONE: 3 µs after the exit began; a bank whose flight is ready begins to leave (R85). -/
def execRetentionExitDone (core bank : Nat) (s : State) : Host.Outcome State Fault Refusal :=
  .next (match (s.core core).banks[bank]? with
    | some (.leaving _ t) => if t + 3 * Config.clocksPerUs ≤ s.clock then (s.setBank core bank .live).wakeRests core else s
    | some (.retained true) => if s.bankWanted core bank then s.setBank core bank (.leaving true s.clock) else s
    | _ => s)

/-! ### The watchdog (R52) -/

/-- WATCHDOG (R52): the slot's counter has reached 2^20 clocks; every entry of the strand that is ready waits on the
handler under one record. -/
def execWatchdog (core slot : Nat) (s : State) : Host.Outcome State Fault Refusal :=
  .next (match s.slot core slot with
    | some x =>
      if x.watchdog < 2 ^ 20 then s
      else match (x.entries.find? fun e => decide (e.status = .ready)).bind fun e => s.ctxAt ⟨core, slot, e.pos⟩ with
        | some c =>
          let wait := Status.onHandler 4 c.la.fn (s.fnBlock c.la.fn).recno 0
          (c.record ⟨4, 2, 0, 0, false, 0, 0, none⟩).modSlot core slot fun x => { x with
            watchdog := 0
            entries := x.entries.map fun e => if e.status = .ready then { e with status := wait } else e }
        | none => s
    | none => s)

end Sys2Proof.Machine
end

