-- ==== Sys2Proof/Machine/Qcbs.lean ====
section
/-!
DEFINITION. Queue control blocks: what a queue's record holds, where its 256 bytes lie in the device reserve, and the copies that map
and unmap a queue (R358, R361, R373, R374; assumption 14).
-/
namespace Sys2Proof.Machine

def State.qcb (s : State) (fn qid : Nat) : Option Qcb := s.queue.qcbs.find? fun q => decide (q.fn = fn) && decide (q.qid = qid)
def State.modQcb (s : State) (fn qid : Nat) (f : Qcb → Qcb) : State :=
  let g (q : Qcb) : Qcb := if q.fn = fn ∧ q.qid = qid then f q else q
  { s with queue := { s.queue with qcbs := s.queue.qcbs.map g } }

/-! ### Where they lie (R361) -/

/-- A function's kick area, and the shadow word of one of its queues (R358). -/
def kickArea (fn : Nat) : Nat := Config.kickBase + 131072 * fn
def shadowOf (fn qid : Nat) : Nat := kickArea fn + 1024 + 8 * qid

/-- The backing store of a queue's QCB, and the entry of a hardware slot in the slot QCB array. -/
def qcbStore (fn qid : Nat) : Nat := Config.qcbBase + 2097152 * fn + 256 * qid
def slotStore (k : Nat) : Nat := Config.slotBase + 256 * k

/-- The write index last kicked (R358). -/
def State.kicked (s : State) (fn qid : Nat) : Nat := s.peekN (shadowOf fn qid) 4

/-! ### What they hold (R373) -/

/-- HMAP: bit d stands for number SEQ + 1 + d. -/
def Qcb.hmap (q : Qcb) : Nat := (q.held.map fun h => 2 ^ (h.1 - q.seq - 1)).sum

/-- A queue control block up to INFL, its last field. -/
def Qcb.bytes (q : Qcb) : List Byte :=
  leBytes 8 q.rbase ++ leBytes 4 q.size ++ leBytes 4 q.ridx ++ leBytes 4 q.widx ++
  leBytes 4 (q.qid + q.fn * 2 ^ 16 + q.cls * 2 ^ 20 + (if q.auth then 2 ^ 22 else 0) + q.state * 2 ^ 24) ++
  leBytes 4 q.bpri ++ leBytes 4 q.epri ++ leBytes 4 q.ceil ++ leBytes 4 q.seq ++ leBytes 8 q.kgen ++ leBytes 8 q.wina ++
  leBytes 8 q.hmap ++ leBytes 8 q.gapt ++ leBytes 4 q.infl

/-- The address of a queue's QCB: its slot's entry while it is mapped, else its backing store. -/
def Qcb.store (q : Qcb) : Nat := match q.slot with
  | some k => slotStore k
  | none => qcbStore q.fn q.qid

/-- Writes a queue's QCB where it lies. -/
def State.storeQcb (s : State) (fn qid : Nat) : State :=
  match s.qcb fn qid with
  | some q => s.poke q.store q.bytes
  | none => s

/-- The word of a QCB that holds QID, FN and STATE. -/
def State.qcbWord (s : State) (a : Nat) : Nat := s.peekN (a + 20) 4

/-- The kick logic's test that a QID is registered: STATE in its backing store is not 0 (R358). -/
def State.registered (s : State) (fn qid : Nat) : Bool := decide (bits (s.qcbWord (qcbStore fn qid)) 24 3 ≠ 0)

/-- An entry of the slot array holds a queue: its QID, its FN and a STATE of 1 to 3 (R358). -/
def State.slotHolds (s : State) (fn qid k : Nat) : Bool :=
  let w := s.qcbWord (slotStore k)
  decide (bits w 0 13 = qid ∧ bits w 16 4 = fn ∧ 1 ≤ bits w 24 3 ∧ bits w 24 3 ≤ 3)

/-- The slot that a kick of a queue reaches: the lowest one whose entry holds it (R358). -/
def State.kickSlot (s : State) (fn qid : Nat) : Option Nat := (List.range 64).find? fun k => s.slotHolds fn qid k

/-! ### Slots (R374, R375) -/

/-- The lowest-numbered partition that names a function (R375). -/
def State.servingPart (s : State) (fn : Nat) : Option Nat :=
  (List.range 16).find? fun p => bits (s.part p).cur.fns fn 1 = 1

/-- A queue holds a slot reserved for class 0. -/
def State.holdsReserved (s : State) (q : Qcb) : Bool :=
  match q.slot, s.servingPart q.fn with
  | some k, some p => decide (bits (s.part p).cur.c0slots k 1 = 1)
  | _, _ => false

/-- Maps a queue: its QCB is copied from the backing store into the slot's entry. -/
def State.mapQcb (s : State) (fn qid k : Nat) : State := (s.modQcb fn qid fun q => { q with slot := some k }).storeQcb fn qid

/-- Unmaps a queue: its QCB is copied back. -/
def State.unmapQcb (s : State) (fn qid : Nat) : State := (s.modQcb fn qid fun q => { q with slot := none }).storeQcb fn qid

/-- A queue leaves READY: it leaves its slot, unless that is one reserved for class 0, which it keeps until UNREGQ (R362, R374). -/
def State.stopQcb (s : State) (q : Qcb) (f : Qcb → Qcb) : State :=
  let slot : Option Nat := if s.holdsReserved q then q.slot else none
  (s.modQcb q.fn q.qid fun y => { f y with slot := slot }).storeQcb q.fn q.qid

/-- A queue as a fault leaves it: FAULTED, with the packets that it held and those not yet started discarded (R362, R371). -/
def Qcb.faulted (q : Qcb) : Qcb := { q with state := 3, held := [], parsed := [], gapt := 0, waiting := none, tried := false }

/-- Unregisters a queue: STATE of its backing store is 0 (R358, R362). -/
def State.dropQcb (s : State) (fn qid : Nat) : State :=
  ({ s with queue := { s.queue with qcbs := s.queue.qcbs.filter fun x => !decide (x.fn = fn ∧ x.qid = qid) } } : State).pokeN
    (qcbStore fn qid + 23) 1 0

/-- Registers a queue, in place of an earlier registration: its QCB stands in its backing store, and in its slot's entry where it takes
a reserved slot; its shadow word is 0 (R358, R363, R374). -/
def State.enterQcb (s : State) (q : Qcb) : State :=
  let t := (s.dropQcb q.fn q.qid).poke (qcbStore q.fn q.qid) q.bytes
  (({ t with queue := { t.queue with qcbs := t.queue.qcbs ++ [q] } } : State).storeQcb q.fn q.qid).pokeN (shadowOf q.fn q.qid) 8 0

end Sys2Proof.Machine
end

