-- ==== Sys2Proof/Machine/Sync.lean ====
section
/-!
DEFINITION. Atomics, locks, waits and barriers (R226 to R240, R244).
-/
namespace Sys2Proof.Machine

/-! ### Atomics (R226 to R228) -/

/-- The value that an atomic writes over `old` (R226). -/
def atomVal (t : Ty) (op : Nat) (old b : W64) : W64 :=
  match op with
  | 0 => if t.isFloat then BitVec.ofNat 64 (Float.fadd (fmtOf t) .rne (patOf t old) (patOf t b))
    else storeInt t false (intOf t old + intOf t b)
  | 1 => storeInt t false (min (intOf t old) (intOf t b))
  | 2 => storeInt t false (max (intOf t old) (intOf t b))
  | 3 => storePat t (patOf t old &&& patOf t b)
  | 4 => storePat t (patOf t old ||| patOf t b)
  | 5 => storePat t (patOf t old ^^^ patOf t b)
  | _ => storePat t (patOf t b)

/-- One indivisible read and write of pieces: where the die sees it, or in the core cache (R121, R228).  Where `f` gives none
nothing is written (R227). -/
def State.atomicOne (s : State) (core owner : Nat) (coherent : Bool) (ps : List (Nat × Nat)) (f : W64 → Option W64) (t : Ty) :
    State × W64 :=
  if coherent then
    let s := s.flushPieces core ps
    let old := loadVal t (s.readPieces ps)
    (match f old with
      | some w => s.writeFor owner ps (leBytes t.bytes w.toNat)
      | none => s, old)
  else
    let r := s.loadPieces core false ps
    let old := loadVal t r.2
    (match f old with
      | some w => r.1.storePieces core ps (leBytes t.bytes w.toNat)
      | none => r.1, old)

/-- The items' atomics in increasing index; each item's value read (R117, R228). -/
def State.atomicEach (s : State) (core owner : Nat) (coherent : Bool) (t : Ty) (f : Nat → W64 → Option W64) :
    List (ItemAcc × List (Nat × Nat)) → State × List (Nat × W64)
  | [] => (s, [])
  | (a, ps) :: rest =>
    let r := s.atomicOne core owner coherent ps (f a.item) t
    let q := r.1.atomicEach core owner coherent t f rest
    (q.1, (a.item, r.2) :: q.2)

/-- The result of an atomic: DEN (R228). -/
def Lane.olds (l : Lane) (vals : List (Nat × W64)) : OpVal :=
  .build l.e fun i => ((vals.find? fun p => decide (p.1 = i)).map Prod.snd).getD 0

/-- What an atomic writes over `old` with its operands B and C: ATOM and ATOMS always write; CAS writes C when the value read equals
B, and else nothing (R226, R227). -/
def atomWrite (op : Op) (o : Long) (b x old : W64) : Option W64 :=
  if op = .cas then (if patOf o.ty old = patOf o.ty b then some x else none)
  else some (atomVal o.ty (o.imm.val % 8) old b)

/-- An atomic on device memory: acquire actions, the items' updates, release actions (R116, R124, R228). -/
def Ctx.runAtomic (c : Ctx) (op : Op) (o : Long) : State :=
  c.memLane (longWords o) op o fun l =>
    if c.mustWait (ordOf o) (scopeOf o) then c.put { c.e with status := .held .acks }
    else
      let accs := l.accs o.ty.bytes fun a => a.toNat
      c.andThen (longWords o) (l.write c.ke.regs o.ty.wide o.ty.signedInt o.d (l.olds [])) fun _ =>
      c.accessEach (longWords o) .atomic o.ty.bytes 0 o accs accs
          (fun a => .atomic op o (l.b.at a.item) (l.c.at a.item)) fun c rs =>
        let t := if ordOf o % 2 = 1 ∧ !rs.isEmpty then c.acquire c.s (scopeOf o) (rmtOf o) else c.s
        let t := if ordOf o / 2 = 1 then c.release t (scopeOf o) else t
        let (t, olds) := t.atomicEach c.ref.core c.la.owner (c.coherent (scopeOf o)) o.ty
          (fun i => atomWrite op o (l.b.at i) (l.c.at i)) rs
        let t := if ordOf o / 2 = 1 then c.release t (scopeOf o) else t
        c.andThen (longWords o) (l.writeServed c.ke.regs o.ty.wide o.ty.signedInt o.d (itemsOf rs) (l.olds olds)) fun e =>
          c.finish t (longWords o) o 0 true accs e

/-- The items' atomics on scratchpad in increasing index. -/
def Flight.atomicSpad (fl : Flight) (t : Ty) (f : Nat → W64 → Option W64) : List ItemAcc → Flight × List (Nat × W64)
  | [] => (fl, [])
  | a :: rest =>
    let old := loadVal t (Memory.readN fl.spad a.addr a.len)
    let q := (match f a.item old with
      | some w => fl.putSpad a.addr (leBytes a.len w.toNat)
      | none => fl).atomicSpad t f rest
    (q.1, (a.item, old) :: q.2)

/-- An atomic on scratchpad (R226, R227). -/
def Ctx.runAtomicSpad (c : Ctx) (op : Op) (o : Long) : State :=
  c.memLane (longWords o) op o fun l =>
    if c.mustWait (ordOf o) (scopeOf o) then c.put { c.e with status := .held .acks }
    else
      let accs := l.accs o.ty.bytes fun a => a.toNat % 2 ^ 32
      c.accessSpad (longWords o) true true accs
        (let (fl, olds) := c.fl.atomicSpad o.ty (fun i => atomWrite op o (l.b.at i) (l.c.at i)) accs
         let t := c.s.modFlight c.fl.id fun _ => fl
         let t := if ordOf o % 2 = 1 then c.acquire t (scopeOf o) false else t
         let t := if ordOf o / 2 = 1 then c.release t (scopeOf o) else t
         c.andThen (longWords o) (l.write c.ke.regs o.ty.wide o.ty.signedInt o.d (l.olds olds)) fun e =>
           c.finish t (longWords o) o 1 true accs e)

def execAtom (o : Long) (s : State) : Host.Outcome State Fault Refusal := s.issue fun c => c.runAtomic .atom o
def execAtoms (o : Long) (s : State) : Host.Outcome State Fault Refusal := s.issue fun c => c.runAtomicSpad .atoms o

/-- CAS; `.spad` is MOD[6] (R217, R227). -/
def execCas (o : Long) (s : State) : Host.Outcome State Fault Refusal :=
  s.issue fun c => if bit6 o then c.runAtomicSpad .cas o else c.runAtomic .cas o

/-! ### Instructions that act once for an entry (R217, R233) -/

/-- An instruction that acts once when some item is acted on, over its sources; D receives the status `k` gives. -/
def Ctx.once (c : Ctx) (op : Op) (o : Long) (k : Lane → State) : State := c.memLane (longWords o) op o k

/-- Writes a status to D and retires, over the state `t` (R233). -/
def Ctx.status (c : Ctx) (t : State) (o : Long) (e : Entry) (w : Nat) : State :=
  c.andThen (longWords o) (e.writeAll c.ke.regs false o.d (BitVec.ofNat 64 w)) fun e => c.finish t (longWords o) o 0 false [] e

/-- The clock at which a wait with exponent E expires; 31 never does (R232). -/
def deadlineOf (now e : Nat) : Option Nat := if e = 31 then none else some (now + 64 * 2 ^ e)

/-- The entry parks: a yield (R51, R244).  D must be within bounds as the wait issues, so that its status can be written whenever
the wait ends (R67). -/
def Ctx.parkWait (c : Ctx) (t : State) (o : Long) (e : Entry) (w : Wait) (exp : Nat) : State :=
  c.andThen (longWords o) (e.writeAll c.ke.regs false o.d 0) fun _ =>
    (t.setEntry c.ref { e with status := .parked w (deadlineOf c.s.clock exp) }).yielded c.ref

/-! ### Locks (R229 to R231) -/

/-- The identity word of an entry (R229). -/
def Ctx.identity (c : Ctx) : W64 :=
  BitVec.ofNat 64 (2 ^ 63 + c.la.owner % 16 * 2 ^ 48 + c.la.tag % 65536 * 2 ^ 32 + c.e.wstart % 2 ^ 32)

/-- The scope code that a lock scope stands for. -/
def lockScope (o : Long) : Nat := o.mod.val / 32 + 2

/-- The exchange of LOCK on pieces: taken when the word reads 0, with the acquire (R230). -/
def Ctx.tryLock (c : Ctx) (o : Long) (ps : List (Nat × Nat)) : Option State :=
  let (t, old) := c.s.atomicOne c.ref.core c.la.owner (c.coherent (lockScope o)) ps
    (fun w => if w = 0 then some c.identity else none) .n64
  if old = 0 then some (c.acquire t (lockScope o) false) else none

/-- The address that LOCK or UNLOCK names, from its UNI source, once the entry's earlier accesses have been performed (R244). -/
def Ctx.lockAt (c : Ctx) (op : Op) (o : Long) (k : Ctx → Lane → List (Nat × Nat) → State) : State :=
  c.once op o fun l => match l.uniA with
    | none => c.raise (longWords o) (breach c.e)
    | some a => c.settled (c.access (longWords o) .atomic 8 0 [⟨l.acting.headD 0, memAddr o a, 8⟩] fun c rs =>
        k c l (rs.flatMap Prod.snd))

def execLock (o : Long) (s : State) : Host.Outcome State Fault Refusal :=
  s.issue fun c => c.lockAt .lock o fun c l ps => match c.tryLock o ps with
    | some t => c.status t o l.e 0
    | none => c.parkWait { c.s with nextId := c.s.nextId + 1 } o l.e (.lock o c.s.nextId (memAddr o ((l.uniA).getD 0))) (o.mod.val % 32)

/-- UNLOCK: 0 as a release when the word holds the entry's identity, else LOCK_NOTHELD (R231). -/
def execUnlock (o : Long) (s : State) : Host.Outcome State Fault Refusal :=
  s.issue fun c => c.lockAt .unlock o fun c l ps =>
    let co := c.coherent (lockScope o)
    let (t, old) := c.s.atomicOne c.ref.core c.la.owner co ps (fun _ => none) .n64
    if old ≠ c.identity then c.status t o l.e 2
    else if c.mustWait 2 (lockScope o) then c.put { c.e with status := .held .acks }
    else
      -- earlier writes become visible no later than the word
      let t := if co then c.release t (lockScope o) else t
      let (t, _) := t.atomicOne c.ref.core c.la.owner co ps (fun _ => some 0) .n64
      c.status (if co then t else c.release t (lockScope o)) o l.e 0

/-- A parked LOCK: its instruction, its place, and the address it names. -/
def Ctx.parkedLock (c : Ctx) : Option (Long × Nat × Nat) :=
  match c.e.status with
  | .parked (.lock o place va) _ => some (o, place, va)
  | _ => none

/-- An entry that parked earlier on the same address (R230). -/
def State.lockBefore (s : State) (place va : Nat) : Bool :=
  s.entryRefs.any fun r => match (s.ctxAt r).bind Ctx.parkedLock with
    | some (_, p, a) => decide (p < place ∧ a = va)
    | none => false

/-- A retry of a parked LOCK: it wins a word that reads 0 when no entry parked on it earlier (R230). -/
def State.retryLock (s : State) (r : EntryRef) : State :=
  match s.ctxAt r with
  | none => s
  | some c => match c.parkedLock with
    | none => s
    | some (o, place, va) =>
      if s.lockBefore place va ∨ !((s.unsettled c.slot c.e).isEmpty) then s
      else match s.check c.agent (some r.core) .atomic va 8 8 with
      | .ok ps => (match ({ c with s := s.serve c.agent (some r.core) ps } : Ctx).tryLock o ps with
          | some t => t.setEntry r (c.e.completeWait c.ke.regs (longWords o) o.d false 0)
          | none => s)
      | .fault f => s.raiseAt r (f.info none)
      | .wait l => s.askLine c.agent l
      | .poisoned a => s.raiseAt r (hwError a)
      | .park cause _ pair =>
        s.park r.core (c.replayOf 2 0 ⟨c.e.activeList.headD 0, va, 8⟩ cause pair 0 .again)

def execLockRetry (r : EntryRef) (s : State) : Host.Outcome State Fault Refusal := .next (s.retryLock r)

/-! ### WAITV, WAITC (R234, R235) -/

/-- SCOPE and RMT of a WAITV (R217). -/
def waitScope (o : Long) : Nat := o.imm.val / 8 % 8
def waitRmt (o : Long) : Bool := o.imm.val / 64 = 1

/-- The accesses that a WAITV watches. -/
def waitAccs (o : Long) (l : Lane) : List ItemAcc := l.acting.map fun i => ⟨i, (l.a.at i).toNat, o.ty.bytes⟩

/-- One evaluation: acquire loads of every item; the state after them when the relation holds in every item (R234). -/
def Ctx.evalWait (c : Ctx) (o : Long) (l : Lane) (rs : List (ItemAcc × List (Nat × Nat))) : Option State :=
  let (t, got) := (c.acquire c.s (waitScope o) (waitRmt o)).loadEach c.ref.core false rs
  if got.all fun p => condOf (o.imm.val % 8) (intOf o.ty (loadVal o.ty p.2)) (intOf o.ty (l.b.at p.1)) then some t else none

def execWaitv (o : Long) (s : State) : Host.Outcome State Fault Refusal :=
  s.issue fun c => c.once .waitv o fun l => c.settled (
    c.access (longWords o) .load o.ty.bytes 0 (waitAccs o l) fun c rs => match c.evalWait o l rs with
      | some t => c.status t o l.e 0
      | none => c.parkWait c.s o l.e (.waitv o) (o.mod.val % 32))

/-- A parked WAITV evaluated again (R234). -/
def State.reevaluate (s : State) (r : EntryRef) : State :=
  match s.ctxAt r with
  | none => s
  | some c => match c.e.status with
    | .parked (.waitv o) _ =>
      if !((s.unsettled c.slot c.e).isEmpty) then s
      else match c.lanes .waitv o (c.e.acting o.pi o.pn) with
      | .error _ => s
      | .ok l =>
        let rs := checkEach (fun va n => s.check c.agent (some r.core) .load va n o.ty.bytes) (waitAccs o l) none
        match c.faulted (longWords o) 0 rs with
        | some t => t
        | none =>
          if !((waitLines rs).isEmpty) then (waitLines rs).foldl (fun s l => s.askLine c.agent l) s
          else if rs.any fun q => q.2.isPark.isSome then c.parkEach 0 0 0 (fun _ => .again) rs
          else match (c.fetched (servedOf rs)).evalWait o l (servedOf rs) with
            | some t => t.setEntry r (c.e.completeWait c.ke.regs (longWords o) o.d false 0)
            | none => s
    | _ => s

def execWaitvReevaluate (r : EntryRef) (s : State) : Host.Outcome State Fault Refusal := .next (s.reevaluate r)

/-- WAITC: the ordering of R129 and WAIT_OK once the counter is at or below n (R235). -/
def execWaitc (o : Long) (s : State) : Host.Outcome State Fault Refusal :=
  s.issue fun c => c.once .waitc o fun l => c.settled (
    if waitcMet l.e o then c.status (c.s.dropDsts c.ref.core l.e.dsts) o { l.e with dsts := [] } 0
    else c.parkWait c.s o l.e (.waitc o) (o.mod.val % 32))

/-! ### Barriers (R236 to R239) -/

/-- The barrier word that an instruction names: UNI, a multiple of 8 and within the allocation (R222, R236). -/
def Ctx.barrierAt (c : Ctx) (op : Op) (o : Long) (k : Lane → Nat → State) : State :=
  c.once op o fun l => match l.uniA with
    | none => c.raise (longWords o) (breach c.e)
    | some a =>
      let off := a.toNat % 2 ^ 32
      if off % 8 ≠ 0 ∨ c.fl.spadSize < off + 8 then c.raise (longWords o) (spadFault off none) else k l off

/-- The same on a registered word; BAR_UNINIT on another (R236). -/
def Ctx.barrierSet (c : Ctx) (op : Op) (o : Long) (k : Lane → Barrier → State) : State :=
  c.barrierAt op o fun l off =>
    match c.fl.bars.find? fun b => decide (b.off = off) with
    | some b => if bits (c.fl.word off) 63 1 = 1 then k l b else c.raise (longWords o) ⟨15, 2, 0, 0, false, off, 0, none⟩
    | none => c.raise (longWords o) ⟨15, 2, 0, 0, false, off, 0, none⟩

/-- BARI: the status and the flight after it, by the first row of R237 that applies. -/
def Flight.register (fl : Flight) (off expect : Nat) (items : Bool) : Nat × Flight :=
  let w := fl.word off
  if expect = 0 ∨ 2 ^ 24 ≤ expect then (3, fl)
  else if bits w 63 1 = 1 then
    if 0 < bits w 24 24 then (3, fl)
    else (0, { fl.setWord off (barWord expect 0 (bits w 48 15)) with
      bars := fl.bars.map fun b => if b.off = off then { b with items := items, due := 0 } else b })
  else if 16 ≤ fl.bars.length then (4, fl)
  else (0, { fl.setWord off (barWord expect 0 0) with bars := fl.bars ++ [⟨off, items, [], 0⟩] })

def execBari (o : Long) (s : State) : Host.Outcome State Fault Refusal :=
  s.issue fun c => c.barrierAt .bari o fun l off => match l.uniB with
    | none => c.raise (longWords o) (breach c.e)
    | some b =>
      let r := c.fl.register off (b.toNat % 2 ^ 32) (decide (o.mod.val = 1))
      c.status (c.s.modFlight c.fl.id fun _ => r.2) o l.e r.1

/-- The PHASE of a barrier. -/
def Flight.phaseOf (fl : Flight) (off : Nat) : Nat := bits (fl.word off) 48 15

/-- Items that arrived carry the barrier's new phase value (R238). -/
def Flight.markArrived (fl : Flight) (off : Nat) (idxs : List Nat) : Flight :=
  { fl with bars := fl.bars.map fun x =>
      if x.off = off ∧ !idxs.isEmpty then
        { x with arrived := x.arrived.filter (fun p => !idxs.contains p.1) ++ idxs.map fun i => (i, fl.phaseOf off) }
      else x }

/-- Arrivals of an instruction: a release at flight scope once the entry's earlier accesses have been performed, the PHASE found to
D, then the loop of R238. -/
def Ctx.arrive (c : Ctx) (o : Long) (e : Entry) (b : Barrier) (k : Nat) (idxs : List Nat) : State :=
  c.settled ((c.status (c.release c.s 1) o e (c.fl.phaseOf b.off)).modBars c.fl.id fun fl => (fl.arrive b k).markArrived b.off idxs)

/-- BARV: one arrival for each item acted on, with its arrival bit (R238). -/
def execBarv (o : Long) (s : State) : Host.Outcome State Fault Refusal :=
  s.issue fun c => c.barrierSet .barv o fun l b =>
    c.arrive o l.e b l.acting.length (l.acting.map fun i => c.e.start + i)

/-- BARN: B arrivals for the entry as a whole; a B out of range only reports the PHASE and sets XFLAG (R238). -/
def execBarn (o : Long) (s : State) : Host.Outcome State Fault Refusal :=
  s.issue fun c => c.barrierSet .barn o fun l b => match l.uniB with
    | none => c.raise (longWords o) (breach c.e)
    | some k =>
      if 2 ^ 24 ≤ k.toNat then c.status c.s o l.e.setX (c.fl.phaseOf b.off)
      else c.arrive o l.e b k.toNat []

/-- BARW: at once when the phase differs, else the entry parks (R239). -/
def execBarw (o : Long) (s : State) : Host.Outcome State Fault Refusal :=
  s.issue fun c => c.barrierSet .barw o fun l b => match l.uniB with
    | none => c.raise (longWords o) (breach c.e)
    | some p =>
      c.settled (
        if barDone c.fl b.off (p.toNat % 2 ^ 32) then c.status (c.s.acquireFlight c.fl) o l.e 0
        else c.parkWait c.s o l.e (.barw o b.off (p.toNat % 2 ^ 15)) (o.mod.val % 32))

end Sys2Proof.Machine
end

