-- ==== Sys2Proof/Machine/Replays.lean ====
section
/-!
DEFINITION. The release of replay entries: each access is checked again and performed at its place in program order; and the
accesses that wait for a line from the Gondola (R130, R245, R294, R392, R440).
-/
namespace Sys2Proof.Machine

/-- The resident entry of a flight that holds an item. -/
def State.entryWith (s : State) (flight item : Nat) : Option EntryRef :=
  s.slots.findSome? fun x => if x.flight ≠ flight then none else
    (x.entries.find? fun e => decide (e.start ≤ item) && decide (item < e.start + e.len)).map fun e => ⟨x.core, x.num, e.pos⟩

/-- The item's offset in an entry. -/
def Replay.offset (r : Replay) (e : Entry) : Nat := r.item - e.start

/-- The kind of access that a replay entry is (R111, R391). -/
def Replay.access (r : Replay) : AccKind := if r.kind = 0 then .load else if r.kind = 1 then .store else .atomic

/-- The alignment that row 7 of R111 asks of it. -/
def Replay.align (r : Replay) : Nat := r.len

/-- An access made, over the pieces it was granted: the value of a load or an atomic goes to its item alone, or to the whole
register where the address was UNI (R130). -/
def Ctx.finishWork (c : Ctx) (r : Replay) (ps : List (Nat × Nat)) : State :=
  let core := c.ref.core
  let i := r.offset c.e
  let done (t : State) (o : Long) (d : Spec) (ty : Ty) (whole : Bool) (v : W64) : State :=
    let items := if whole then c.e.cover o.pi o.pn (c.e.acting o.pi o.pn) else some [i]
    let acting := if whole then c.e.acting o.pi o.pn else [i]
    match c.e.writeSpec c.ke.regs acting ty.wide ty.signedInt items d (if whole then .uni v else .build c.e fun _ => v) with
    | .ok e => if c.e.live i then t.setEntry c.ref e else t
    | .error _ => t
  let order (t : State) (o : Long) (on : Bool) (f : State → State) : State := if on ∧ o.mod.val % 4 ≠ 0 then f t else t
  match r.work with
  | .again => c.s
  | .load o d ty whole =>
    let t := order c.s o (decide (ordOf o = 1)) fun t => c.acquire t (scopeOf o) (rmtOf o)
    let (t, bs) := t.loadPieces core (bit6 o) ps
    done t o d ty whole (loadVal ty bs)
  | .store o bs =>
    let t := order c.s o (decide (ordOf o = 2)) fun t => c.release t (scopeOf o)
    let t := t.storeOne core c.la.owner (bit6 o) ps bs
    order t o (decide (ordOf o = 2)) fun t => c.release t (scopeOf o)
  | .atomic op o b x =>
    let t := order c.s o (decide (ordOf o % 2 = 1)) fun t => c.acquire t (scopeOf o) (rmtOf o)
    let t := order t o (decide (ordOf o / 2 = 1)) fun t => c.release t (scopeOf o)
    let (t, old) := t.atomicOne core c.la.owner (c.coherent (scopeOf o)) ps (atomWrite op o b x) o.ty
    let t := order t o (decide (ordOf o / 2 = 1)) fun t => c.release t (scopeOf o)
    done t o o.d o.ty false old

/-- A fault of an access that its instruction left behind: its record names that instruction (R111, R348). -/
def Ctx.raiseParked (c : Ctx) (r : Replay) (f : FaultInfo) : State :=
  let t := ({ c with e := { c.e with pc := r.pc } } : Ctx).record f
  t.strike c.ref c.fl.tag f.cls f.item

/-- A released access re-enters the access path: it is checked again under R111 and performed, parks again, or waits for its line
(R130, R294).  One whose flight is gone is never performed (R132). -/
def State.perform (s : State) (r : Replay) : State :=
  if r.work = .again then s
  else match (s.entryWith r.flight r.item).bind s.ctxAt with
    | none => s
    | some c =>
      match s.check c.agent (some c.ref.core) r.access r.addr r.len r.align with
      | .ok ps => (({ c with s := s.serve c.agent (some c.ref.core) ps } : Ctx).finishWork r ps).retireAt c.ref
      | .fault f => c.raiseParked r (f.info (some (r.offset c.e)))
      | .poisoned a => c.raiseParked r ⟨20, 1, 0, 0, true, a, 0, some (r.offset c.e)⟩
      | .wait l => (s.modCore c.ref.core fun k => { k with flying := k.flying ++ [{ r with cause := 0, pair := none }] }).askLine c.agent l
      | .park cause _ pair => s.park c.ref.core { r with cause := cause, pair := pair }

/-- Puts a replay entry in program order among others of a list: by its entry's count, and among one instruction's as recorded. -/
def insertReplay (r : Replay) : List Replay → List Replay
  | [] => [r]
  | x :: xs => if r.order < x.order ∧ r.flight = x.flight ∧ r.slot = x.slot then r :: x :: xs else x :: insertReplay r xs

/-- Replay entries in the order in which they are performed: entries of one strand slot in their program order (R130, R391). -/
def inOrder (rs : List Replay) : List Replay := rs.foldl (fun l r => insertReplay r l) []

/-- Releases the entries of a core that a test picks: accesses are made again, copy remainders and drains run again (R130, R294). -/
def State.release (s : State) (core : Nat) (p : Replay → Bool) : State :=
  let hit := (s.core core).replay.filter p
  let free (d : EngInstr) : EngInstr := if hit.any fun r => decide (r.kind = 4 ∧ r.op = d.id) then { d with parked := false } else d
  let s := (s.dropReplay core fun r => p r && decide (2 < r.kind)).modCore core fun c => { c with drains := c.drains.map free }
  let s := hit.foldl (fun s r => if r.kind = 3 then s.modOp r.op fun o => match o.kind with
    | .copy c => { o with kind := .copy c.unpark }
    | _ => o else s) s
  ((inOrder (hit.filter fun r => decide (r.kind ≤ 2))).foldl
    (fun s r => (s.dropReplay core fun x => decide (x.index = r.index)).perform r) s).wakeReplay core

/-- The accesses of every core that wait for a line, now that it has arrived, in order (R416). -/
def State.performLine (s : State) (line : Nat) : State :=
  let on (r : Replay) : Bool := match s.entryWith r.flight r.item with
    | some e => (match (s.ctxAt e).map fun c => s.checkPage c.agent r.access r.addr with
      | some (.ok (_, pa)) => decide (pa / 512 = line)
      | _ => true)
    | none => true
  (List.range 96).foldl (fun s core =>
    if (s.core core).flying.isEmpty then s
    else
      let hit := (s.core core).flying.filter on
      ((inOrder hit).foldl (fun s r => (s.modCore core fun c => { c with flying := c.flying.erase r }).perform r) s).wakeReplay core) s

/-- The entries whose accesses wait for a line. -/
def State.flyingOn (s : State) (line : Nat) : List EntryRef :=
  ((List.range 96).flatMap fun core => (s.core core).flying.filterMap fun r =>
    (s.entryWith r.flight r.item).bind fun e => (s.ctxAt e).bind fun c => match s.checkPage c.agent r.access r.addr with
      | .ok (_, pa) => if pa / 512 = line then some e else none
      | .error _ => none).eraseDups

end Sys2Proof.Machine
end

