-- ==== Sys2Proof/Machine/Tethers.lean ====
section
/-!
DEFINITION. Tethers, the Gondola, peer ports and collectives between modules (spec/19; R410 to R416, R279, R280).
-/
namespace Sys2Proof.Machine

def State.link (s : State) (p : Nat) : Link_ := s.thx.links.getD p {}
def State.modLink (s : State) (p : Nat) (f : Link_ → Link_) : State :=
  { s with thx := { s.thx with links := s.thx.links.set p (f (s.link p)) } }

/-! ### Slot tables (R432 to R435) -/

/-- A write of THX_TAPPLY with APPLY (R434): the shadow tables selected take effect at the first frame boundary at least two
frames later, unless the memory table would hold fewer than 4 entries of SHARE 0xFE. -/
def State.applyTables (s : State) (sel : Nat) : State :=
  if s.thx.tapBusy then s
  else if sel % 2 = 1 ∧ (s.thx.mstShadow.filter fun e => decide (e.share = 0xFE)).length < 4 then
    { s with thx := { s.thx with tapStat := 1 } }
  else { s with thx := { s.thx with tapBusy := true, tapSel := sel % 32, tapStat := 0,
                                    tapDue := ceilDiv (s.thx.slotCtr + 512) 256 } }

def execTableApply (sel : Nat) (s : State) : Host.Outcome State Fault Refusal := .next (s.applyTables sel)

/-- The share of the requests of the entry that a replay entry belongs to (R435). -/
def State.replayShare (s : State) (r : Replay) : Nat :=
  match s.ctxAt r.ref with
  | some c => c.agent.share
  | none => 0xFE

def State.overCores (s : State) (f : State → Nat → State) : State := (List.range 96).foldl f s

/-- The selected tables take effect, and entries parked with NOSLOT whose share now has a position are released (R392,
R434). -/
def State.tablesInForce (s : State) : State :=
  let x := s.thx
  let pick (k : Nat) : Bool := decide (bits x.tapSel k 1 = 1)
  let s := { s with thx := { x with
    mst := if pick 0 then x.mstShadow else x.mst
    pst := (List.range 4).map fun p => if pick (p + 1) then x.pstShadow.getD p [] else x.pst.getD p []
    tapBusy := false, tapFrame := x.tapDue % 2 ^ 32 } }
  s.overCores fun t c => if (t.core c).replay.isEmpty then t else
    t.release c fun r => decide (r.cause = 4) && t.hasSlot (t.replayShare r)

def execTableTakeEffect (s : State) : Host.Outcome State Fault Refusal :=
  .next (if s.thx.tapBusy ∧ 256 * s.thx.tapDue ≤ s.thx.slotCtr then s.tablesInForce else s)

/-- The request a slot carries: the oldest of the share in the slot's class, else in the next class that has one (R435). -/
def pickRequest (rs : List TReq) (share : Nat) : List Nat → Option TReq
  | [] => none
  | c :: cs =>
    match rs.find? fun r => decide (r.share = share ∧ r.cls = c) with
    | some r => some r
    | none => pickRequest rs share cs

/-- The table in force on a pair: the memory table, or that of the peer port it belongs to (R433). -/
def State.tableOn (s : State) (pair : Nat) : List SlotEnt := if pair < 64 then s.thx.mst else s.thx.pst.getD ((pair - 64) / 4) []

/-- Slot `t` of a pair carries a flit of the request that R435 picks among those that joined their queues before it. -/
def State.sendIn (pair : Nat) (s : State) (t : Nat) : State :=
  let e := (s.tableOn pair).getD (t % 256) ⟨0xFF, 0⟩
  let waiting := s.thx.reqs.filter fun r => decide (r.pair = pair ∧ r.asked ≤ t) && r.sentSlot.isNone
  match pickRequest waiting e.share ((List.range 4).filter fun c => decide (e.cls ≤ c)) with
  | none => s
  | some q =>
    let go (r : TReq) : TReq := if r.left ≤ 1 then { r with left := 0, sentSlot := some t } else { r with left := r.left - 1 }
    { s with thx := { s.thx with reqs := s.thx.reqs.map fun r => if r.id = q.id then go r else r } }

/-- The slots of a pair that have gone by are taken in order, none left out (R20, R432, R435). -/
def State.sendSlot (s : State) (pair : Nat) : State :=
  let now := s.thx.slotCtr
  let waits := s.thx.reqs.filter fun r => decide (r.pair = pair) && r.sentSlot.isNone
  if 80 ≤ pair ∨ (s.link pair).state ≠ 0 ∨ waits.isEmpty ∨ now < (s.link pair).sent then s
  else
    let first := max (s.link pair).sent ((waits.map TReq.asked).foldl min now)
    ((List.range (now + 1 - first)).foldl (fun s k => s.sendIn pair (first + k)) s).modLink pair fun l => { l with sent := now + 1 }

def execSlotSend (pair : Nat) (s : State) : Host.Outcome State Fault Refusal := .next (s.sendSlot pair)

/-- Entries that wait for a line issue again (R416, R437). -/
def State.wakeFill (s : State) (line : Nat) : State :=
  s.mapEntries fun _ e => if e.fillOf = some line then { e with status := .ready } else e

def State.dropReq (s : State) (id : Nat) : State :=
  { s with thx := { s.thx with reqs := s.thx.reqs.filter fun r => r.id ≠ id } }

/-- The answer in slot t + 448 to a request sent in slot t (R20, R436): read data awaits its fill, poisoned data marks the sector
(R437), a write is acknowledged.  The oldest answer due is taken first, as of its own slot. -/
def State.answer (s : State) (pair : Nat) (poisoned : Bool) : State :=
  let due := s.thx.reqs.filter fun r => decide (r.pair = pair) && r.answered.isNone &&
    (match r.sentSlot with
      | some t => decide (t + 448 ≤ s.thx.slotCtr)
      | none => false)
  let slot (r : TReq) : Nat := r.sentSlot.getD 0
  match due.foldl (fun b r => match b with
    | none => some r
    | some x => if slot r < slot x then some r else b) none with
  | none => s
  | some q =>
    if q.kind ≠ 1 then s.dropReq q.id
    else if poisoned then
      ((({ s with tier := { s.tier with poisoned := q.sector :: s.tier.poisoned.filter fun x => x ≠ q.sector } }).dropReq
        q.id).performLine q.line).wakeFill q.line
    else { s with thx := { s.thx with reqs := s.thx.reqs.map fun r =>
      if r.id = q.id then { r with answered := some (slot q + 448) } else r } }

def execGondolaResponse (pair : Nat) (poisoned : Bool) (s : State) : Host.Outcome State Fault Refusal :=
  .next (if pair < 64 ∧ (s.link pair).state = 0 then s.answer pair poisoned else s)

/-! ### Fills and write-backs (R415, R416) -/

/-- A record of class 3 with KID 0 in the ring of a line's owner, for a fill that a device agent asked for (R416). -/
def State.integrityNotice (s : State) (line cause : Nat) : State :=
  let o := s.lineOwner line
  let fn := if o = 15 then 0 else o
  let b := s.fnBlock fn
  let t := s.writeRecord fn (recordBytes b.recno 22 3 false (decide (cause = 2)) 0 cause o 0 0 0 0 0 (line * 512) 0 0 s.clock)
  { t with queue := { t.queue with faults := t.queue.faults ++ [(⟨fn, b.recno, 22, 3, false, true, 0, 0, 0, false⟩ : FaultRec)] },
           sec := { t.sec with integ := min (t.sec.integ + 1) (2 ^ 32 - 1) } }

/-- The entries that wait for a line. -/
def State.fillWaiters (s : State) (line : Nat) : List EntryRef :=
  s.slots.flatMap fun x => (x.entries.filter fun e => decide (e.fillOf = some line)).map fun e => ⟨x.core, x.num, e.pos⟩

/-- What prefetches of a line bring where they asked for it (R223). -/
def State.finishPrefs (s : State) (q : TReq) : State :=
  q.pref.foldl (fun s p => s.prefetchTo ⟨q.owner, q.fn, q.share, q.cls, q.die⟩ p.1 p.2.1 p.2.2) s

/-- A line whose data has arrived is decrypted, verified and filled; a failure raises INTEGRITY for every launch that waits
for it (R416). -/
def State.fillLine (s : State) (line : Nat) : State :=
  match s.thx.reqs.find? fun r => decide (r.line = line ∧ r.kind = 1) && r.answered.isSome with
  | none => s
  | some q =>
    match s.pullLine q.owner q.die line with
    | .ok t => (((t.dropReq q.id).finishPrefs q).performLine line).wakeFill line
    | .error cause =>
      let ws := (s.fillWaiters line ++ s.flyingOn line).eraseDups
      let t := s.dropReq q.id
      if ws.isEmpty then t.integrityNotice line cause
      else ws.foldl (fun t r => t.raiseAt r ⟨22, 3, cause, 0, decide (cause = 2), line * 512, 0, none⟩) t

def execLineFill (line : Nat) (s : State) : Host.Outcome State Fault Refusal := .next (s.fillLine line)

/-- Write-back of a line: the bonded tier gives it up, or, where only die caches hold it, they do (R18, R410, R415; assumption 7). -/
def State.writeOut (s : State) (line : Nat) : State :=
  if Config.reserve ≤ line * 512 then s
  else
    let s := (List.range 4).foldl (fun s d => (s.leaveDie d line).getD s) (s.leaveCores fun x => decide (x.sector / 4 = line))
    if s.inTier line then (s.leaveTier line).getD s else s

def execLineWriteback (line : Nat) (s : State) : Host.Outcome State Fault Refusal := .next (s.writeOut line)

/-! ### Retraining (R439 to R441) -/

/-- An access that waits for a line on the retraining pair is parked with RETRAIN, its instruction to be made again (R439). -/
def State.parkFill (s : State) (pair : Nat) (r : EntryRef) (line : Nat) : State :=
  match s.ctxAt r with
  | none => s
  | some c =>
    let i := c.e.activeList.headD 0
    (s.park r.core
      { index := 0, cause := 1, kind := 0, owner := c.la.owner, slot := r.slot, entry := r.pos, pos := c.e.posOf i,
        addr := line * 512, len := 0, order := c.e.order, aux := 0, src := 0, ptime := 0, pair := some pair, core := r.core, op := 0,
        flight := c.fl.id, item := c.e.start + i, pc := c.e.pc, left := 0, work := .again }).setEntry r { c.e with status := .ready }

/-- Accesses on their way to a line of the pair are parked with RETRAIN (R439). -/
def State.parkFlying (pair : Nat) (s : State) (core : Nat) : State :=
  let on (r : Replay) : Bool := match (s.entryWith r.flight r.item).bind s.ctxAt with
    | some c => (match s.checkPage c.agent r.access r.addr with
      | .ok (_, pa) => decide (pairOf (pa / 512) = pair)
      | .error _ => false)
    | none => false
  let hit := (s.core core).flying.filter on
  if hit.isEmpty then s
  else hit.foldl (fun s r => s.park core { r with cause := 1, pair := some pair })
    (s.modCore core fun c => { c with flying := c.flying.filter fun r => !on r })

/-- The lines that entries wait for on a pair. -/
def State.waitingOn (s : State) (pair : Nat) : List (EntryRef × Nat) :=
  s.slots.flatMap fun x => x.entries.filterMap fun e => match e.status with
    | .held (.fill l) => if pairOf l = pair then some (⟨x.core, x.num, e.pos⟩, l) else none
    | _ => none

/-- Copy chunks in flight on a pair of a peer port: operation and its core (R439, R444). -/
def State.peerChunksOn (s : State) (pair : Nat) : List (EntryRef × AsyncOp × CopyOp) :=
  s.slots.flatMap fun x => x.entries.flatMap fun e => e.ops.filterMap fun o => match o.kind with
    | .copy c =>
      if (c.dsp = .peer ∨ c.ssp = .peer) ∧ pair = 64 + 4 * c.port + (pair - 64) % 4 ∧
          (c.chunks.any fun k => k.started && decide (k.dst / 4096 % 4 = (pair - 64) % 4)) then
        some (⟨x.core, x.num, e.pos⟩, o, c) else none
    | _ => none

/-- The replay entry of a copy's chunks that have not started (R391). -/
def remainder (x : Ctx) (o : AsyncOp) (c : CopyOp) (cause : Nat) (pair : Option Nat) : Replay :=
  let k := c.chunks.headD ⟨0, 0, 0, 0, false, false⟩
  { index := 0, cause := cause, kind := 3, owner := x.la.owner, slot := x.ref.slot, entry := x.ref.pos, pos := 0, addr := k.dst,
    len := (c.chunks.map Chunk.len).sum, order := x.e.order, aux := o.seq, src := k.src, ptime := 0, pair := pair, core := x.ref.core,
    op := o.id, flight := x.fl.id, item := x.e.start, pc := x.e.pc, left := 0, work := .again }

/-- Retraining starts: unanswered and waiting requests of the pair become replay entries of cause RETRAIN (R439). -/
def State.startRetrain (s : State) (pair : Nat) : State :=
  let s := s.modLink pair fun l => { l with state := 1, rtcnt := min (l.rtcnt + 1) 0xFFFF, since := some s.clock, stalled := false }
  if pair < 64 then
    let ws := s.waitingOn pair
    let keep (r : TReq) : Bool := decide (r.pair ≠ pair) || decide (r.kind ≠ 1) || r.answered.isSome
    let again (r : TReq) : TReq := if r.pair = pair ∧ r.kind ≠ 1 then { r with left := 4, sentSlot := none } else r
    let s := { s with thx := { s.thx with reqs := (s.thx.reqs.filter keep).map again } }
    let s := s.overCores (State.parkFlying pair)
    ws.foldl (fun s w => s.parkFill pair w.1 w.2) s
  else
    let s := { s with thx := { s.thx with reqs := s.thx.reqs.filter fun r => r.pair ≠ pair } }
    (s.peerChunksOn pair).foldl (fun s w =>
      let c := w.2.2
      let caught := c.chunks.map fun k => if k.started ∧ k.dst / 4096 % 4 = (pair - 64) % 4 then { k with started := false, parked := true } else k
      let s := s.modEntry w.1 fun e => e.modOp w.2.1.id fun o => { o with kind := .copy { c with chunks := caught } }
      match s.ctxAt w.1 with
      | none => s
      | some x => s.park w.1.core (remainder x w.2.1 c 1 (some pair))) s

/-- A received flit (R431): one that fails its CRC or GTAG is discarded, counted, and starts a retraining. -/
def execFlitReceive (pair : Nat) (ok : Bool) (s : State) : Host.Outcome State Fault Refusal :=
  .next (if ok ∨ (s.link pair).state = 2 then s
    else
      let s := s.modLink pair fun l => { l with fltf := min (l.fltf + 1) 0xFFFF }
      if (s.link pair).state = 0 then s.startRetrain pair else s)

/-- The receiver loses lock: a retraining starts (R439, R441). -/
def execLossOfLock (pair : Nat) (s : State) : Host.Outcome State Fault Refusal :=
  .next (if (s.link pair).state = 0 then s.startRetrain pair else s)

/-- Takes `n` free spares of `w`, the lowest first, from a map of those in service. -/
def takeSpares (m w : Nat) : Nat → Nat
  | 0 => m
  | n + 1 => match (List.range w).find? fun k => decide (bits m k 1 = 0) with
    | some k => takeSpares (m + 2 ^ k) w n
    | none => m

/-- A pair of fibres carries two spare wavelengths on each (R430).  Of the spares that a retraining puts in use on a pair, the first
four are those wavelengths and the others are spare fibres (DESIGN CHOICE, assumption 43: THX_LINK gives one count for both). -/
def ownSpares : Nat := 4

/-- The spare map after a retraining of a pair that had `old` spares in use and has `new` (R16, R459, R460). -/
def Spares.inUse (m : Spares) (pair old new : Nat) : Spares :=
  let fibres := (new - ownSpares) - (old - ownSpares)
  let m := { m with wave := (m.wave + (min new ownSpares - min old ownSpares)) % 65536 }
  if pair < 64 then { m with mfib := takeSpares m.mfib 8 fibres } else { m with pfib := takeSpares m.pfib 2 fibres }

/-- Retraining ends: the pair reads UP, its duration and its spares are recorded, and its entries are released in their order
(R440, R441, R459, R466). -/
def State.endRetrain (s : State) (pair spares : Nat) : State :=
  match (s.link pair).state, (s.link pair).since with
  | 1, some t0 =>
    let us := min ((s.clock - t0) / Config.clocksPerUs) 0xFFFF
    let map := s.fleet.spares.inUse pair (s.link pair).spare (spares % 256)
    let s := s.modLink pair fun l => { l with state := 0, spare := spares % 256, last := us, since := none, stalled := false }
    let s := { s with fleet := { s.fleet with rtmax := max s.fleet.rtmax us,
                                              spares := map } }
    s.overCores fun t c => if (t.core c).replay.isEmpty then t else
      t.release c fun r => decide (r.cause = 1) && decide (r.pair = some pair)
  | _, _ => s

def execRetrainEnd (pair spares : Nat) (s : State) : Host.Outcome State Fault Refusal := .next (s.endRetrain pair spares)

/-- Retraining beyond 40 µs: TETHER_STALL, once, to the handler of each core that holds entries of the pair (R440). -/
def State.stallPair (s : State) (pair : Nat) : State :=
  match (s.link pair).since with
  | none => s
  | some t0 =>
    if (s.link pair).state = 1 ∧ !(s.link pair).stalled ∧ t0 + 40 * Config.clocksPerUs < s.clock then
      let s := s.modLink pair fun l => { l with stalled := true }
      s.overCores fun t c =>
        match (t.core c).replay.find? fun r => decide (r.pair = some pair) with
        | none => t
        | some r =>
          if 2 < r.kind then ((t.ctxAt r.ref).map fun x => x.record ⟨19, 3, 0, 0, false, r.addr, 0, none⟩).getD t
          else match (t.entryWith r.flight r.item).bind t.ctxAt with
            | none => t
            | some x => ({ x with e := { x.e with pc := r.pc } } : Ctx).record ⟨19, 3, 0, 0, false, r.addr, 0, some (r.offset x.e)⟩
    else s

def execTetherStall (pair : Nat) (s : State) : Host.Outcome State Fault Refusal := .next (s.stallPair pair)

/-- A pair that cannot retrain goes DOWN until device reset (R440). -/
def execPairDown (pair : Nat) (s : State) : Host.Outcome State Fault Refusal :=
  .next (if (s.link pair).state = 1 ∧ (s.link pair).since.isSome then s.modLink pair fun l => { l with state := 2 } else s)

/-- Initial training of a pair ends; it counts in neither RTCNT nor LAST (R441). -/
def execInitialTraining (pair : Nat) (ok : Bool) (s : State) : Host.Outcome State Fault Refusal :=
  .next (if (s.link pair).state = 1 ∧ (s.link pair).since.isNone then s.modLink pair fun l => { l with state := if ok then 0 else 2 } else s)

/-- A spare channel stands in for a failed one inside the fixed interval, with no visible change but the spare map (R436,
R459, R460). -/
def execChannelSubstitution (channel : Nat) (s : State) : Host.Outcome State Fault Refusal :=
  .next (if channel < 768 ∧ s.fleet.spares.gch < 48 then
    { s with fleet := { s.fleet with spares := { s.fleet.spares with gch := s.fleet.spares.gch + 1 } } } else s)

/-! ### Peer ports (R442, R445, R448) -/

def State.port (s : State) (p : Nat) : Port := s.thx.ports.getD p {}
def State.setPort (s : State) (p : Nat) (x : Port) : State := { s with thx := { s.thx with ports := s.thx.ports.set p x } }

/-- A port comes up with its link session established (R442). -/
def execPeerLinkUp (port : Nat) (peerId : W32) (s : State) : Host.Outcome State Fault Refusal :=
  .next (s.setPort port ⟨0, true, peerId⟩)

/-- A port goes DOWN: uses that rely on it are aborted with PEER_RESET and outstanding chunks on it retire their copies with
PEER_DENY (R448). -/
def State.portDown (s : State) (port : Nat) : State :=
  let s := s.setPort port { s.port port with state := 2, sess := false }
  let s : State := { s with thx := { s.thx with reqs := s.thx.reqs.filter fun r => r.pair < 64 + 4 * port ∨ 64 + 4 * port + 4 ≤ r.pair } }
  let relies (fn : Nat) (c : CollOp) : Bool := (s.thx.colls.getD fn []).any fun e =>
    e.v && decide (e.ident = c.ident) && (decide (e.nport = port) || decide (e.pport = port))
  let s := (List.range 15).foldl (fun s fn => s.abortColls fn 1 (relies fn)) s
  s.modOps (s.opsWhere fun _ o => match o.kind with
    | .copy c => decide ((c.dsp = .peer ∨ c.ssp = .peer) ∧ c.port = port) && !o.done
    | _ => false) AsyncOp.deny

def execPeerPortDown (port : Nat) (s : State) : Host.Outcome State Fault Refusal := .next (s.portDown port)

/-- A peer's request chunk at the exporter (R445): the checks in order, then the bytes served or written, or a refusal; a sector
whose page is in move delays it (R404). -/
def State.servePeer (s : State) (port fn exp rfn : Nat) (write : Bool) (offset len : Nat) (data : List Byte) : State :=
  let e := (s.thx.exports_.getD fn []).getD exp {}
  let refuse : State := { s with fleet := { s.fleet with reply := some ⟨3, 1, []⟩ } }
  if !(s.port port).sess ∨ !e.v ∨ e.rfn ≠ rfn ∨ e.peerId ≠ (s.port port).peerId ∨
      bits e.rights (if write then 1 else 0) 1 = 0 ∨ e.size < offset + len ∨ (write ∧ data.length ≠ len) then refuse
  else match s.devPieces ⟨fn, fn, 0xFE, 0, 0⟩ (if write then .store else .load) (e.base.toNat + offset) len 1 with
    | .error (.park _ _ _) =>
      { s with fleet := { s.fleet with outside := s.fleet.outside ++ [.peer port fn exp rfn write offset len data] } }
    | .error _ => refuse
    | .ok (t, ps) =>
      if write then
        let t := t.writeFor fn ps data
        { t with fleet := { t.fleet with reply := some ⟨3, 0, []⟩ } }
      else { t with fleet := { t.fleet with reply := some ⟨3, 0, t.readPieces ps⟩ } }

def execPeerRequest (port fn exp rfn : Nat) (write : Bool) (offset len : Nat) (data : List Byte) (s : State) :
    Host.Outcome State Fault Refusal := .next (s.servePeer port fn exp rfn write offset len data)

/-! ### Collectives between modules (R280, R448) -/

/-- An abort flit: the current use of the identifier ends with COLL_ABORT and the flit's cause (R448). -/
def execCollAbortFlit (fn : Nat) (id : W32) (use cause : Nat) (s : State) : Host.Outcome State Fault Refusal :=
  .next (s.abortColls fn cause fun c => decide (c.ident = id ∧ c.use = use))

/-- No exchange of the use has progressed for 64 × 2^20 clocks: TIMEOUT (R280). -/
def execCollTimeout (op : Nat) (s : State) : Host.Outcome State Fault Refusal :=
  .next (match (s.opAt op).map (fun x => x.2) <|> (s.savedOp op).map fun x => x.2 with
    | some o => match o.kind with
      | .coll c => if !o.done ∧ c.progress + 2 ^ 26 ≤ s.clock then (s.garble op).modOp op fun o => o.abort 5 else s
      | _ => s
    | none => s)

end Sys2Proof.Machine
end

