-- ==== Sys2Proof/Machine/Partitions.lean ====
section
/-!
DEFINITION. Resets, partitions, memory grants, moving pages and host DMA (R111, R132, R339, R394, R397 to R407, R421, R422).
-/
namespace Sys2Proof.Machine

/-! ### Translation entries (R109, R402) -/

/-- Changes the leaf word that maps an address. -/
def State.modLeaf (s : State) (va : Nat) (f : Nat → Nat) : State :=
  match s.walk va with
  | .leaf l => s.pokeN l.addr 8 (f (s.peekN l.addr 8))
  | .invalid _ a => if a = 0 then s else s.pokeN a 8 (f (s.peekN a 8))
  | .bad _ => s

/-- The table that an entry names, taken from the pool when the entry is empty; none where the entry is a leaf. -/
def State.tableAt (s : State) (entry : Nat) : State × Nat :=
  let w := s.peekN entry 8
  if bits w 0 1 = 1 then (s, bits w 12 52 * 4096)
  else
    let t := Config.ttPool + s.ttNext
    (({ s with ttNext := s.ttNext + 4096 }).pokeN entry 8 (t + 1), t)

/-- Writes a leaf word for an address, on level 3 when `big` (R402). -/
def State.mapPage (s : State) (va word : Nat) (big : Bool) : State :=
  let (s, t2) := s.tableAt (Config.ttRoot + 8 * bits va 39 13)
  let (s, t3) := s.tableAt (t2 + 8 * bits va 30 9)
  if big then s.pokeN (t3 + 8 * bits va 21 9) 8 word
  else
    let (s, t4) := s.tableAt (t3 + 8 * bits va 21 9)
    s.pokeN (t4 + 8 * bits va 16 5) 8 word

/-- A leaf word (R109). -/
def leafWord (big : Bool) (prot owner : Nat) (rd wr : Bool) (frame : Nat) : Nat :=
  1 + (if big then 2 else 0) + prot * 4 + owner * 16 + (if rd then 512 else 0) + (if wr then 1024 else 0) + frame * 65536

/-- Frames that hold data: those whose INIT is 1 (R412). -/
def State.framesInUse (s : State) : List Nat :=
  (s.mem.filter fun c => decide (Config.fatBase ≤ c.1) && decide (c.1 < Config.fatBase + 25165824)).flatMap fun c =>
    let n := 2 * (c.1 - Config.fatBase)
    (if bits c.2.toNat 2 1 = 1 then [n] else []) ++ (if bits c.2.toNat 6 1 = 1 then [n + 1] else [])

/-- A core whose cache keeps the sectors that a test picks. -/
def Core.keep (c : Core) (p : CacheSector → Bool) : Core := { c with cache := c.cache.filter p }

/-- Scrubbing clears the POISON bits of lines that a test picks (R416). -/
def State.unpoisoned (s : State) (p : Nat → Bool) : List Group :=
  s.tier.groups.map fun g => { g with poison := g.poison.mapIdx fun j b => b && !p (8 * (g.group + s.sec.iwin * 2 ^ 24) + j) }

/-- Every copy of a frame reads zero, at every tier, and its poison is gone (R339, R399, R416, R437; assumption 7). -/
def State.zeroFrame (s : State) (frame : Nat) : State :=
  let apart (ls : List HeldLine) : List HeldLine := ls.filter fun h => h.line / 128 ≠ frame
  { s with
    mem := Memory.clear s.mem (frame * 65536) 65536
    tier := { s.tier with
      offpkg := s.tier.offpkg.filter (fun l => l.line / 128 ≠ frame)
      groups := s.unpoisoned fun l => decide (l / 128 = frame)
      poisoned := s.tier.poisoned.filter (fun n => n / 512 ≠ frame)
      lines := apart s.tier.lines
      dies := s.tier.dies.map apart }
    cores := s.cores.map fun c => c.keep fun x => decide (x.sector / 512 ≠ frame) }

/-- A frame is zeroed under an owner: data, tags, poison, the lines that were away (R399, R437). -/
def State.scrubFrame (s : State) (frame owner fat : Nat) : State :=
  ((s.zeroFrame frame).setTags (frame * 512) 512 owner).setFat frame fat

/-! ### Destroying and resetting (R339, R394, R406) -/

/-- The frame that a page of a kernel lies in. -/
def State.frameOf (s : State) (va : Nat) : Option Nat :=
  match s.walk va with
  | .leaf l => some (s.frameAddr l va / 65536)
  | _ => none

/-- WR of a staging page as its region has it (R336, R339). -/
def State.pageWr (s : State) (va : Nat) : Nat :=
  match s.regionAt va with
  | some r => if r.wr then 1 else 0
  | none => 1

/-- A kernel is destroyed: its pages are zeroed, SEAL is cleared and WR restored (R339). -/
def State.destroyKernel (s : State) (k : Kernel) : State :=
  let s := k.pages.foldl (fun s va =>
    match s.frameOf va with
    | none => s
    | some f => (s.zeroFrame f).modLeaf va fun w => setBits (setBits w 8 1 0) 10 1 (s.pageWr va)) s
  { s with kernels := s.kernels.filter fun x => !decide (x.fn = k.fn ∧ x.kid = k.kid) }

def State.destroyAll (s : State) (ks : List Kernel) : State := ks.foldl State.destroyKernel s

/-- Kills launches (R394). -/
def State.killLaunches (s : State) (tags : List Nat) : State := tags.foldl State.killLaunch s

/-- A lock word that a function holds becomes 0 (R406 step 5). -/
def State.dropLock (s : State) (fn addr : Nat) : State :=
  match s.devRead ⟨0, 0, 0xFE, 0, 0⟩ addr 8 8 with
  | .ok (t, bs) =>
    let w := leNat bs
    if bits w 63 1 = 1 ∧ bits w 48 4 = fn then
      match t.devWrite ⟨0, 0, 0xFE, 0, 0⟩ addr 8 (leBytes 8 0) with
      | .ok u => u
      | .error _ => s
    else s
  | .error _ => s

/-- A polynomial in the launch symbols at their values (R317). -/
def formValue (sym : Nat → Int) (p : List (List Nat × Int)) : Int :=
  (p.map fun x => x.2 * (x.1.map sym).foldl (· * ·) 1).foldl (· + ·) 0

/-- The launch symbols of a launch: N, F and the n32 parameters in its parameter block (R319, R326). -/
def State.launchSymbol (s : State) (k : Kernel) (l : Launch) : Nat → Int
  | 0 => l.n
  | 1 => ceilDiv l.n (max 1 (k.strands * k.width))
  | i + 2 => match k.params[i]? with
    | none => 0
    | some p => match s.devRead ⟨0, 0, 0xFE, 0, 0⟩ (l.paramVa + p.1) 4 4 with
      | .ok (_, bs) => leNat bs
      | .error _ => 0

/-- The lock words bound by a function's kernels: in the regions granted at admission where the offset is a constant, and in the
regions of every launch (R329). -/
def State.lockWords (s : State) (fn : Nat) : List Nat :=
  let ks := s.kernels.filter fun k => decide (k.fn = fn)
  let word (base : Nat) (sym : Nat → Int) (p : List (List Nat × Int)) : Nat := (base + formValue sym p).toNat
  (ks.flatMap fun k => k.locks.filterMap fun w =>
    if w.2.all fun x => x.1.isEmpty then (k.grants[w.1]?).map fun g => word g.base (fun _ => 0) w.2 else none) ++
  (s.launches.filter fun l => decide (l.fn = fn)).flatMap fun l =>
    match ks.find? fun k => decide (k.kid = l.kid) with
    | none => []
    | some k => k.locks.filterMap fun w => (l.regions[w.1]?).map fun r => word r.base (s.launchSymbol k l) w.2

/-- Every sector of an owner is zeroed at every tier (R406 step 6). -/
def State.scrubOwner (s : State) (o : Nat) : State :=
  { s with
    mem := s.mem.filter fun c => tagOf s.tags (c.1 / 128) ≠ o
    tier := { s.tier with offpkg := s.tier.offpkg.filter (fun l => l.owner ≠ o),
                          groups := s.unpoisoned fun l => decide (s.lineOwner l = o),
                          poisoned := s.tier.poisoned.filter (fun n => tagOf s.tags n ≠ o) }
    cores := s.cores.map fun c => c.keep fun x => decide (x.tag ≠ o) }

/-- A function's queues, started packets and admissions are gone (R406 step 1). -/
def State.dropQueues (s : State) (fn : Nat) : State :=
  let keep (a : Admission) : Option Admission := if a.fn = fn then none else some a
  let s := (s.queue.qcbs.filter fun q => decide (q.fn = fn)).foldl (fun s q => s.dropQcb q.fn q.qid) s
  { s with queue := { s.queue with
      started := s.queue.started.filter fun p => p.fn ≠ fn
      units := s.queue.units.map fun u => u.bind keep } }

/-- A function's open records are closed (R406 step 4). -/
def State.closeRecords (s : State) (fn : Nat) : State :=
  { s with queue := { s.queue with faults := s.queue.faults.filter fun f => f.fn ≠ fn } }

/-- A function's launches go, with no completion record (R406 steps 1 and 2). -/
def State.dropLaunches (s : State) (fn : Nat) : State :=
  let s := s.killLaunches ((s.launches.filter fun l => decide (l.fn = fn) && !l.killed).map Launch.tag)
  { s with launches := s.launches.filter fun l => l.fn ≠ fn }

/-- The reset of a virtual function (R406). -/
def State.resetFunction (s : State) (fn : Nat) : State :=
  let s := s.dropQueues fn
  let locks := s.lockWords fn
  let s := (s.dropLaunches fn).closeRecords fn
  let s := locks.foldl (fun s a => s.dropLock fn a) s
  let s := s.destroyAll (s.kernels.filter fun k => decide (k.fn = fn))
  let s := s.scrubOwner fn
  let s := { s with sec := { s.sec with keys := s.sec.keys.modify fn fun k => { k with secret := [], loaded := false } } }
  s.modFn fn fun _ => {}

/-- The physical function's queues and records are reset: steps 1, 4 and 7 (R406). -/
def State.resetPhysical (s : State) : State := ((s.dropQueues 0).closeRecords 0).modFn 0 fun _ => {}

/-- A virtual function number. -/
def isVf (fn : Nat) : Bool := decide (1 ≤ fn) && decide (fn ≤ 14)

def State.tdi (s : State) (fn : Nat) : Tdi := s.sec.tdis.getD fn .unlocked
def State.setTdi (s : State) (fn : Nat) (t : Tdi) : State := { s with sec := { s.sec with tdis := s.sec.tdis.set fn t } }

/-- VF_RESET (R406): bit f of PART_VFRST. -/
def execVfReset (fn : Nat) (s : State) : Host.Outcome State Fault Refusal :=
  .next (if isVf fn then (s.resetFunction fn).setTdi fn .unlocked else s)

/-- PF_QUEUE_RESET (R406): bit 0 of PART_VFRST. -/
def execPfQueueReset (s : State) : Host.Outcome State Fault Refusal := .next s.resetPhysical

/-- FUNCTION_LEVEL_RESET (R406, R421). -/
def execFunctionLevelReset (fn : Nat) (s : State) : Host.Outcome State Fault Refusal :=
  .next (if isVf fn then (s.resetFunction fn).setTdi fn .unlocked else if fn = 0 then s.resetPhysical else s)

/-- A locked or running TDI goes to ERROR, which resets its function (R421). -/
def State.tdiError (s : State) (fn : Nat) : State :=
  if s.tdi fn = .locked ∨ s.tdi fn = .run then (s.resetFunction fn).setTdi fn .error else s

/-- Partition reset: every launch of the partition is killed and its queues are FAULTED (R394, class 4). -/
def State.resetPartition (s : State) (p : Nat) : State :=
  let s := s.killLaunches ((s.launches.filter fun l => l.parts.contains p && !l.killed).map Launch.tag)
  (s.queue.qcbs.filter fun q => decide (s.servingPart q.fn = some p)).foldl (fun s q => s.stopQcb q Qcb.faulted) s

/-- Device reset: all state is lost but fuses (R394, R426, R460, R461); a boot salt and the secrets of owners 0 and 15 are
drawn (R417). -/
def State.resetDevice (s : State) : State :=
  let r := State.reset
  { r with
    agenda := s.agenda
    draws := s.draws + 3
    nextId := s.nextId
    cores := s.cores.map fun c => { Core.reset with out := c.out }
    sec := { r.sec with
      life := s.sec.life, unlk := s.sec.unlk, salt := s.draws
      keys := (r.sec.keys.set 0 ⟨[], true, 0, some (s.draws + 1)⟩).set 15 ⟨[], true, 0, some (s.draws + 2)⟩ }
    fleet := { r.fleet with
      spares := s.fleet.spares, spcore := s.fleet.spcore, foffer := s.fleet.foffer, smbus := s.fleet.smbus
      patUnits := s.fleet.patUnits.map fun u => { clean := 0, owners := 0, out := u.out, swapped := u.swapped }
      reply := some ⟨0, 0, []⟩ } }

def execDeviceReset (s : State) : Host.Outcome State Fault Refusal := .next s.resetDevice

/-! ### Partitions (R397, R398, R405) -/

/-- The pending partition word of a core (R78). -/
def State.writeCorePart (s : State) (core rfg acg : Nat) : State :=
  if 4 ≤ rfg ∧ rfg ≤ 24 ∧ acg ≤ 16 then s.modCore core fun c => { c with pend := some (rfg, acg), partBad := false }
  else s.modCore core fun c => { c with partBad := true }

/-- A range lies wholly inside one live region that a test picks. -/
def State.insideRegion (s : State) (a n : Nat) (p : Region → Bool) : Bool :=
  s.oper.regions.any fun r => r.live && p r && decide (r.vbase ≤ a) && decide (a + n ≤ r.vbase + 65536 * r.pages)

/-- STAT of an application (R398). -/
def State.partStat (s : State) (p : Nat) : Nat :=
  let x := (s.part p).shadow
  let old := (s.part p).cur
  let overlaps := (List.range 16).any fun q => decide (q ≠ p) &&
    (decide (x.pairs &&& (s.part q).cur.pairs ≠ 0) || decide (x.slots &&& (s.part q).cur.slots ≠ 0))
  let leaving := s.queue.qcbs.any fun q => match q.slot with
    | some k => decide (q.cls = 0 ∧ bits old.slots k 1 = 1 ∧ bits x.slots k 1 = 0)
    | none => false
  let reserved := ((s.flights.filter fun f => decide (f.part = p)).map Flight.lmax).sum
  if overlaps then 1
  else if x.rfg < 4 ∨ 24 < x.rfg ∨ 16 < x.acg then 2
  else if x.c0slots &&& x.slots ≠ x.c0slots ∨ leaving then 3
  else if x.savesz < reserved ∨ (x.savesz ≠ 0 ∧ !s.insideRegion x.saveb x.savesz Region.spool) then 4
  else 0

/-- Pairs set in the first word and clear in the second. -/
def without (a b : Nat) : Nat := a - (a &&& b)

/-- An accepted application (R398, R405). -/
def State.applyPart (s : State) (p : Nat) : State :=
  let x := (s.part p).shadow
  let old := (s.part p).cur
  let gone := without old.pairs x.pairs
  let refills := if x.period = 0 then 0 else s.clock / (x.period * Config.clocksPerUs)
  let s := s.modPart p fun y => { y with cur := x, stat := 0, busy := true, leaving := gone, charged := refills }
  let s := ((List.range 96).filter fun c => decide (bits x.pairs (c / 2) 1 = 1)).foldl (fun s c => s.writeCorePart c x.rfg x.acg) s
  let s := s.askSaves ((s.flights.filter fun f =>
    decide (f.part = p) && decide (bits gone (f.core / 2) 1 = 1) && decide (f.state = .resident)).map Flight.id)
  let loses (q : Qcb) : Bool := match q.slot with
    | some k => decide (bits old.slots k 1 = 1 ∧ bits x.slots k 1 = 0)
    | none => false
  let s := (s.queue.qcbs.filter loses).foldl (fun s q => s.unmapQcb q.fn q.qid) s
  ((List.range 15).filter fun f => decide (bits old.fns f 1 = 1 ∧ bits x.fns f 1 = 0) && isVf f).foldl State.tdiError s

/-- PARTITION_APPLY (R398). -/
def execPartitionApply (p : Nat) (s : State) : Host.Outcome State Fault Refusal :=
  .next (if 16 ≤ p ∨ (s.part p).busy then s
    else if s.partStat p = 0 then s.applyPart p
    else s.modPart p fun y => { y with stat := s.partStat p })

/-- PARTITION_APPLY_DONE (R405): no departing core holds a flight of the partition. -/
def execPartitionApplyDone (p : Nat) (s : State) : Host.Outcome State Fault Refusal :=
  .next (if (s.part p).busy ∧ !(s.flights.any fun f => decide (f.part = p) && decide (f.state ≠ .saved) &&
      decide (bits (s.part p).leaving (f.core / 2) 1 = 1)) then
    s.modPart p fun y => { y with busy := false, leaving := 0 }
  else s)

/-- PART_PROT_WRITE (R397, R421): clearing the bit of a locked or running TDI moves it to ERROR. -/
def execPartProtWrite (v : W64) (s : State) : Host.Outcome State Fault Refusal :=
  let new := v.toNat % 2 ^ 15
  let t := { s with oper := { s.oper with prot := new } }
  .next (((List.range 15).filter fun f => decide (bits s.oper.prot f 1 = 1 ∧ bits new f 1 = 0) && isVf f).foldl State.tdiError t)

/-- The masks of owners 1 to 14 are disjoint and that of owner 15 is 0 (R397). -/
def waysOk (ms : List Nat) : Bool :=
  decide (ms.getD 15 0 = 0) && (List.range 15).all fun i => (List.range 15).all fun j =>
    decide (i = 0 ∨ j = 0 ∨ i = j) || decide (ms.getD i 0 &&& ms.getD j 0 = 0)

/-- PART_WAYM_WRITE (R397); a write that breaks its rule is ignored. -/
def execPartWaymWrite (owner : Nat) (mask : Nat) (s : State) : Host.Outcome State Fault Refusal :=
  let ms := s.oper.waym.set owner (mask % 65536)
  .next (if owner < 16 ∧ waysOk ms then { s with oper := { s.oper with waym := ms } } else s)

/-! ### Memory grants (R399) -/

def State.region (s : State) (g : Nat) : Region := s.oper.regions.getD g {}
def State.modRegion (s : State) (g : Nat) (f : Region → Region) : State :=
  { s with oper := { s.oper with regions := s.oper.regions.set g (f (s.region g)) } }

/-- Row 2 of R399's table. -/
def Region.bad (r : Region) : Bool :=
  decide (r.pages = 0 ∨ Config.frameCount < r.pages ∨ r.vbase % 65536 ≠ 0 ∨ 2 ^ 52 < r.vbase + 65536 * r.pages ∨ r.attr = 3) ||
  decide (1 ≤ r.owner ∧ r.owner ≤ 14 ∧ r.fns ≠ 2 ^ r.owner) ||
  decide (r.owner = 15 ∧ (r.fns = 0 ∨ bits r.fns 0 1 = 1)) ||
  decide (r.owner = 0 ∧ 1 < r.fns) ||
  ((r.spool || r.hostv) && decide (r.owner ≠ 0)) ||
  (r.spool && (decide (r.fns ≠ 0) || r.rd || r.wr || r.hostv))

/-- Frames of the integrity window and of the MAC area, first and count (R413). -/
def State.windowFrames (s : State) : Nat × Nat := (s.sec.iwin * 2 ^ 20, 2 ^ 20)
def State.macFrames (s : State) : Nat × Nat := (s.sec.macw * 2 ^ 14, 2 ^ 14)

/-- The first frame of a run for a region: inside the integrity window for attribute 10, outside it otherwise; a BIG region's
frames stand to 2 MiB as its addresses do (R399; assumption 24). -/
def State.takeFrames (s : State) (r : Region) : Option Nat :=
  let used := s.framesInUse.map fun f => (f, 1)
  let off := if r.big then r.vbase / 65536 % 32 else 0
  let al := if r.big then 32 else 1
  if r.attr = 2 then
    let (w, n) := s.windowFrames
    (firstFit (used.filterMap fun u => if w ≤ u.1 ∧ u.1 < w + n then some (u.1 - w, 1) else none) n (r.pages + off) al).map
      fun a => w + a + off
  else
    let kept := if s.sec.iwinEn then [s.windowFrames, s.macFrames] else []
    (firstFit (kept ++ used) Config.freeFrames (r.pages + off) al).map fun a => a + off

/-- STAT of a grant and the run of frames it takes (R399). -/
def State.grantOf (s : State) (g : Nat) : Nat × Nat :=
  let r := s.region g
  if r.live then (1, 0)
  else if r.bad then (2, 0)
  else if s.oper.regions.any fun x => x.live && decide (x.vbase < r.vbase + 65536 * r.pages) && decide (r.vbase < x.vbase + 65536 * x.pages)
  then (3, 0)
  else if (r.attr = 2 ∧ !s.sec.iwinEn) ∨ (r.attr ≠ 0 ∧ !((s.sec.keys.getD r.owner .empty).loaded)) then (4, 0)
  else match s.takeFrames r with
    | some f => (0, f)
    | none => (5, 0)

/-- Maps `n` pages of a region from page `i` (R399 step 4). -/
def State.mapRegion (s : State) (r : Region) (frame : Nat) : Nat → Nat → State
  | _, 0 => s
  | i, n + 1 =>
    let va := r.vbase + 65536 * i
    let part := i - va / 65536 % 32
    let inBig := r.big && decide (va / 65536 % 32 ≤ i) && decide (part + 32 ≤ r.pages)
    let t :=
      if inBig then
        (if va / 65536 % 32 = 0 then s.mapPage va (leafWord true r.attr r.owner r.rd r.wr (frame + i)) true else s)
      else s.mapPage va (leafWord false r.attr r.owner r.rd r.wr (frame + i)) false
    State.mapRegion t r frame (i + 1) n

/-- Scrubs `n` frames from a frame (R399 step 2). -/
def State.scrubFrames (s : State) (frame owner fat : Nat) : Nat → State
  | 0 => s
  | n + 1 => ((s.scrubFrame (frame + n) owner fat).scrubFrames frame owner fat n)

/-- The counters of the groups of a run of frames are 0 (R399 step 3, R414). -/
def State.clearCounters (s : State) (frame n : Nat) : State :=
  let kept (x : Group) : Bool :=
    !(decide (16 * frame ≤ x.group + s.sec.iwin * 2 ^ 24) && decide (x.group + s.sec.iwin * 2 ^ 24 < 16 * (frame + n)))
  { s with tier := { s.tier with groups := s.tier.groups.filter kept } }

/-- A grant carried out (R399). -/
def State.grantRegion (s : State) (g frame : Nat) : State :=
  let r := s.region g
  let s := s.scrubFrames frame r.owner (r.attr + 4 + (if r.hostv then 8 else 0)) r.pages
  let s := if r.attr = 2 then s.clearCounters frame r.pages else s
  (s.mapRegion r frame 0 r.pages).modRegion g fun r => { r with live := true, stat := 0 }

/-- REGION_APPLY (R399). -/
def execRegionApply (g : Nat) (s : State) : Host.Outcome State Fault Refusal :=
  .next (if 512 ≤ g then s
    else let (st, frame) := s.grantOf g
      if st = 0 then s.grantRegion g frame else s.modRegion g fun r => { r with stat := st })

/-- Two ranges meet. -/
def meets (a n b m : Nat) : Bool := decide (a < b + m) && decide (b < a + n)

/-- A withdrawal is refused (R399). -/
def State.regionBusy (s : State) (r : Region) : Bool :=
  let n := 65536 * r.pages
  (s.launches.any fun l => !l.killed && decide (bits r.fns l.fn 1 = 1) &&
      l.regions.any fun x => meets x.base x.size r.vbase n) ||
  (s.queue.qcbs.any fun q => meets q.rbase (128 * q.size) r.vbase n) ||
  (s.kernels.any fun k => k.pages.any fun a => meets a 65536 r.vbase n) ||
  (s.queue.units.any fun u => match u with
    | some a => a.pages.any fun p => meets p 65536 r.vbase n
    | none => false) ||
  (s.oper.parts.any fun p => meets p.cur.saveb p.cur.savesz r.vbase n)

/-- Unmaps and scrubs `n` pages from page `i` (R399). -/
def State.unmapRegion (s : State) (r : Region) : Nat → State
  | 0 => s
  | n + 1 =>
    let va := r.vbase + 65536 * n
    let t := match s.frameOf va with
      | some f => s.scrubFrame f r.owner 0
      | none => s
    let t := match t.walk va with
      | .leaf l => if l.big ∧ va / 65536 % 32 ≠ 0 ∧ n ≠ 0 then t else t.pokeN l.addr 8 0
      | _ => t
    t.unmapRegion r n

/-- REGION_REVOKE (R399). -/
def execRegionRevoke (g : Nat) (s : State) : Host.Outcome State Fault Refusal :=
  let r := s.region g
  .next (if 512 ≤ g then s
    else if !r.live then s.modRegion g fun r => { r with stat := 7 }
    else if s.regionBusy r then s.modRegion g fun r => { r with stat := 6 }
    else (s.unmapRegion r r.pages).modRegion g fun r => { r with live := false, stat := 0 })

/-! ### Moving pages (R403, R404) -/

/-- A forwarding entry that is not valid, at or above index `4096 - k`. -/
def State.freeForward (s : State) : Nat → Option Nat
  | 0 => none
  | k + 1 =>
    let a := Config.fwdBase + 128 * (4095 - k)
    if bits (s.peekN a 8) 63 1 = 0 then some a else s.freeForward k

/-- Writes the forwarding entry of a frame with DONE 0; the frame it moves to takes its attribute-table entry, so that row 5 of R111
holds of the sectors served from there. -/
def State.addForward (s : State) (old new : Nat) : Option State :=
  (s.freeForward 4096).map fun a =>
    (((s.zeroFrame new).setFat new (s.fat old)).pokeN a 8 (old + new * 2 ^ 32 + 2 ^ 63)).poke (a + 64) (leBytes 64 0)

def State.addForwards (s : State) (old new : Nat) : Nat → Option State
  | 0 => some s
  | n + 1 => (s.addForwards old new n).bind fun t => t.addForward (old + n) (new + n)

/-- One sector moves: its coherent value to NEW with its tag, the copies of OLD gone, DONE set (R404 step 2). -/
def State.moveSector (s : State) (entry k : Nat) : State :=
  let w := s.peekN entry 8
  let old := bits w 0 26 * 512 + k
  let new := bits w 32 26 * 512 + k
  let s := s.leaveCores fun x => decide (x.sector = old)
  let s := match s.pullLine (tagOf s.tags old) 0 (old / 4) with
    | .ok t => t
    | .error c => s.integrityNotice (old / 4) c
  let s := (s.land (new * 128) (s.peek (old * 128) 128)).setTags new 1 (tagOf s.tags old)
  let bad := s.tier.poisoned
  let s : State := { s with tier := { s.tier with
    lines := dropSectors (old / 4) (sectorBit old) s.tier.lines
    dies := s.tier.dies.map (dropSectors (old / 4) (sectorBit old))
    poisoned := if bad.contains old then new :: bad.filter fun x => x ≠ old else bad } }
  (s.settle (old / 4)).poke (entry + 64) (leBytes 64 (s.peekN (entry + 64) 64 + 2 ^ k))

/-- The first frame of some that has a sector to move: entry and sector. -/
def State.nextSector (s : State) (frame : Nat) : Nat → Option (Nat × Nat)
  | 0 => none
  | n + 1 =>
    match s.nextSector frame n with
    | some x => some x
    | none => (s.fwdEntry (frame + n) 4096).bind fun a =>
      ((List.range 512).find? fun k => decide (s.peekN (a + 64) 64 / 2 ^ k % 2 = 0)).map fun k => (a, k)

/-- The valid forwarding entries of some frames are cleared, and the frames are freed. -/
def State.dropForwards (s : State) (old new : Nat) : Nat → State
  | 0 => s
  | n + 1 =>
    let t := match s.fwdEntry (old + n) 4096 with
      | some a => s.pokeN a 8 0
      | none => s
    let fat := t.fat (old + n)
    ((t.setFat (new + n) fat).setFat (old + n) 0).dropForwards old new n

/-! ### Host DMA (R111, R421, R422) -/

def State.answered (s : State) (dest status : Nat) (data : List Byte) : State :=
  { s with fleet := { s.fleet with reply := some ⟨dest, status, data⟩ } }

/-- Whether the physical function may reach the frames of some pieces (R422). -/
def State.hostVisible (s : State) (ps : List (Nat × Nat)) : Bool :=
  ps.all fun p => decide (bits (s.fat (p.1 / 65536)) 3 1 = 1) && decide (tagOf s.tags (p.1 / 128) = 0)

/-- HOST_DMA: status 0 with the data of a read, or 1, a Completer Abort; one to a page in move waits for the move's end (R111). -/
def State.hostAccess (s : State) (fn addr : Nat) (write : Bool) (len : Nat) (data : List Byte) : State :=
  if 14 < fn ∨ s.tdi fn = .error ∨ (write ∧ data.length ≠ len) then s.answered 2 1 []
  else match s.devPieces ⟨fn, fn, 0xFE, 0, 0⟩ (if write then .store else .load) addr len 1 with
    | .error (.park _ _ _) => { s with fleet := { s.fleet with outside := s.fleet.outside ++ [.host fn addr write len data] } }
    | .error _ => s.answered 2 1 []
    | .ok (t, ps) =>
      if fn = 0 ∧ !t.hostVisible ps then s.answered 2 1 []
      else if write then (t.writeFor fn ps data).answered 2 0 []
      else t.answered 2 0 (t.readPieces ps)

def execHostDma (fn : Nat) (addr : W64) (write : Bool) (len : Nat) (data : List Byte) (s : State) : Host.Outcome State Fault Refusal :=
  .next (s.hostAccess fn addr.toNat write len data)

/-- A request from outside is made again. -/
def State.askAgain (s : State) : Outside → State
  | .host fn addr write len data => s.hostAccess fn addr write len data
  | .peer port fn exp rfn write offset len data => s.servePeer port fn exp rfn write offset len data

/-- What waits for a page in move goes on once the move has ended (R392, R404): entries of MIGRATE of every core, COPY packets and
requests from outside. -/
def State.endMigration (s : State) (va size : Nat) : State :=
  let s := (List.range 96).foldl (fun s c => if (s.core c).replay.isEmpty then s
    else s.release c fun r => decide (r.cause = 2 ∧ r.addr / size = va / size)) s
  let s : State := { s with queue := { s.queue with started := s.queue.started.map fun p => { p with copy := p.copy.map CopyOp.unpark } } }
  s.fleet.outside.foldl State.askAgain { s with fleet := { s.fleet with outside := [] } }

/-- PAGE_SECTOR_MOVE (R404): the next action of the move of the page at `va` to the frames from `newFrame`. -/
def State.movePage (s : State) (va newFrame : Nat) : State :=
  match s.walk va with
  | .leaf l =>
    let n := if l.big then 32 else 1
    if !l.move then
      ((s.addForwards l.frame newFrame n).map fun t => t.pokeN l.addr 8 (s.peekN l.addr 8 + 2048)).getD s
    else match s.nextSector l.frame n with
      | some (a, k) => s.moveSector a k
      | none => s.pokeN l.addr 8 (s.peekN l.addr 8 - 1)
  | .invalid true a =>
    let w := s.peekN a 8
    let n := if bits w 1 1 = 1 then 32 else 1
    let frame := bits w 16 26
    let s := (s.dropForwards frame newFrame n).pokeN a 8 (setBits (setBits (setBits w 0 1 1) 11 1 0) 16 26 newFrame)
    s.endMigration va (65536 * n)
  | _ => s

def execPageSectorMove (va : W64) (newFrame : Nat) (s : State) : Host.Outcome State Fault Refusal :=
  .next (s.movePage va.toNat newFrame)

end Sys2Proof.Machine
end

