-- ==== Sys2Proof/Machine/Queues.lean ====
section
/-!
DEFINITION. Kicks, rings, the scheduling pass and the packets but LAUNCH and ADMIT (R296, R356 to R377).
-/
namespace Sys2Proof.Machine

/-! ### Waking the queue engine (R295, R376) -/

/-- The doorbell word of a queue-engine strand. -/
def State.bell (s : State) (j : Nat) : W64 := s.queue.bells.getD j 0

/-- A parked QWAIT returns when its doorbell word or QE_PSUM is not 0: it writes the doorbell word and clears it. -/
def State.wakeQwaitAt (s : State) (r : EntryRef) : State :=
  match s.entry r with
  | some e =>
    match e.status with
    | .parked (.qwait o) _ =>
      let b := s.bell e.snum
      if b = 0 ∧ s.queue.psum = 0 then s
      else ({ s with queue := { s.queue with bells := s.queue.bells.set e.snum 0 } }).setEntry r
        (e.completeWait (s.regsOf r) (longWords o) o.d true b)
    | _ => s
  | none => s

def State.wakeQwaits (s : State) : State := s.entryRefs.foldl State.wakeQwaitAt s

/-! ### Kicks (R358) -/

/-- A write to the kick word of queue `qid` of a function. -/
def State.kick (s : State) (fn qid : Nat) (w : W32) : State :=
  if 14 < fn ∨ 8192 ≤ qid ∨ s.tdi fn = .error ∨ s.sec.life = 4 ∨ !s.registered fn qid then s
  else
    let s := s.pokeN (shadowOf fn qid) 8 w.toNat
    let s := match s.kickSlot fn qid with
      | some k =>
        { s with queue := { s.queue with bells := s.queue.bells.set (k / 16) (s.bell (k / 16) ||| BitVec.ofNat 64 (2 ^ k)) } }
      | none =>
        let a := kickArea fn + qid / 8
        let s := s.pokeN a 1 ((s.peekN a 1) ||| 2 ^ (qid % 8))
        { s with queue := { s.queue with psum := s.queue.psum ||| 2 ^ fn } }
    s.wakeQwaits

def execKick (fn qid : Nat) (w : W32) (s : State) : Host.Outcome State Fault Refusal := .next (s.kick fn qid w)

/-! ### Error records and faults of a queue (R362, R365) -/

/-- Writes an error record (R365). -/
def State.queueError (s : State) (q : Qcb) (cause expect found : Nat) : State :=
  let b := s.fnBlock q.fn
  if b.errbase = 0 then s
  else
    let bs := leBytes 4 (q.qid + q.fn * 65536 + cause * 2 ^ 24) ++ leBytes 4 (s.kicked q.fn q.qid) ++ leBytes 4 q.ridx ++
      leBytes 4 (expect % 2 ^ 32) ++ leBytes 4 found ++ leBytes 8 s.clock ++ leBytes 36 0
    match s.fnWrite q.fn (b.errbase.toNat + 64 * (b.errcnt % 64)) 1 bs with
    | some t => t.modFn q.fn fun b => { b with errcnt := (b.errcnt + 1) % 256 }
    | none => s

/-- The queue goes to FAULTED, its held packets discarded (R371). -/
def State.faultQueue (s : State) (q : Qcb) (cause found : Nat) : State :=
  (s.queueError q cause (if q.auth then q.seq else 0) found).stopQcb q Qcb.faulted

/-! ### Registration (R363, R374) -/

/-- The free slot reserved for class 0 that a queue of a function takes (R374). -/
def State.reservedSlot (s : State) (fn : Nat) : Option Nat :=
  (s.servingPart fn).bind fun p => (List.range 64).find? fun k =>
    decide (bits (s.part p).cur.c0slots k 1 = 1) && !(s.queue.qcbs.any fun q => decide (q.slot = some k))

/-- A function has class-0 reservations. -/
def State.classZero (s : State) (fn : Nat) : Bool :=
  match s.servingPart fn with
  | some p => decide ((s.part p).cur.c0slots ≠ 0)
  | none => false

/-- Every page of a span carries an owner with RD and WR. -/
def State.spanOpen (s : State) (owner a : Nat) : Nat → Bool
  | 0 => true
  | n + 1 => (match s.walk ((a / 65536 + n) * 65536) with
      | .leaf l => decide (l.owner = owner) && l.rd && l.wr
      | _ => false) && s.spanOpen owner a n

/-- The status of a registration (R361, R363): `fresh` when an earlier registration does not count. -/
def State.regStatus (s : State) (fn qid rbase lgs cls bpri ceil : Nat) (auth fresh : Bool) : Nat :=
  let span := 128 * 2 ^ lgs
  let top := if cls ≤ 1 then 15 else if cls = 2 then 12 else 8
  let pool := (s.queue.qcbs.filter fun q => q.auth && !(decide (q.fn = fn) && decide (q.qid = qid))).length
  if 8192 ≤ qid then 3
  else if !fresh && (s.qcb fn qid).isSome then 2
  else if lgs < 6 ∨ 20 < lgs ∨ (cls = 0 ∧ !s.classZero fn) ∨ ceil < bpri ∨ top < ceil ∨ (auth ∧ 8192 ≤ pool) then 4
  else if rbase % 128 ≠ 0 ∨ !s.insideRegion rbase span (fun r => decide (bits r.fns fn 1 = 1)) ∨
      !s.spanOpen fn rbase ((rbase + span - 1) / 65536 - rbase / 65536 + 1) then 1
  else 0

/-- The window store of an authenticated queue: the lowest free one of the pool (R361, R373). -/
def State.windowStore (s : State) : Nat :=
  (((List.range 8192).find? fun i => !(s.queue.qcbs.any fun q => q.auth && decide (q.wina = Config.windowPool + 8192 * i))).map
    fun i => Config.windowPool + 8192 * i).getD 0

/-- A registered queue starts READY (R363). -/
def State.register (s : State) (fn qid rbase lgs cls bpri ceil : Nat) (auth : Bool) : State :=
  let s : State := { s with queue := { s.queue with qcbs := s.queue.qcbs.filter fun q => !decide (q.fn = fn ∧ q.qid = qid) } }
  s.enterQcb {
    fn := fn, qid := qid, rbase := rbase, size := 2 ^ lgs, ridx := 0, widx := 0, cls := cls, auth := auth, state := 1,
    bpri := bpri, epri := bpri, ceil := ceil, seq := 1, kgen := 0, wina := if auth then s.windowStore else 0, held := [], gapt := 0,
    infl := (s.queue.started.filter fun p => decide (p.fn = fn) && decide (p.qid = qid)).length,
    slot := if cls = 0 then s.reservedSlot fn else none, parsed := [], waiting := none, tried := false,
    secret := ((s.sec.sessions.filter fun x => decide (x.fn = fn)).getLast?).map Session.secret }

/-- Q0GO (R356, R363). -/
def State.goQueue0 (s : State) (fn : Nat) : State :=
  let b := s.fnBlock fn
  let st := s.regStatus fn 0 b.q0base.toNat b.q0lgs b.q0class b.q0bpri b.q0ceil b.q0auth true
  let s := s.modFn fn fun b => { b with q0stat := st }
  if st = 0 then s.register fn 0 b.q0base.toNat b.q0lgs b.q0class b.q0bpri b.q0ceil b.q0auth else s

def execQ0go (fn : Nat) (s : State) : Host.Outcome State Fault Refusal :=
  .next (if fn < 15 ∧ s.sec.life ≠ 4 then s.goQueue0 fn else s)

/-! ### Index check and sequence numbers (R364, R370, R371) -/

/-- The agent that acts for a function on its rings and packets (R360, R367). -/
def fnAgent (fn : Nat) : Agent := ⟨fn, fn, 0xFE, 0, 0⟩

/-- Reads for a function; the physical function reaches HOSTV frames only (R360, R422). -/
def State.fnRead (s : State) (fn va len align : Nat) : Except Acc (State × List Byte) :=
  match s.devPieces (fnAgent fn) .load va len align with
  | .error e => .error e
  | .ok (t, ps) =>
    if fn = 0 ∧ !t.hostVisible ps then .error (.fault ⟨9, 4, 0, false, va⟩) else .ok (t, t.readPieces ps)

/-- Whether a ring's new write index is valid, and what follows (R364). -/
def State.checkIndex (s : State) (q : Qcb) : State :=
  let w := s.kicked q.fn q.qid
  let s2 := 2 * q.size
  if q.state = 3 then s
  else if s2 ≤ w ∨ q.size < ((w + 2 ^ 32 - q.ridx) % 2 ^ 32) % s2 then
    if q.state = 1 then (s.queueError q 1 (if q.auth then q.seq else 0) 0).stopQcb q fun q => { q with state := 2 }
    else s
  else
    let t := s.modQcb q.fn q.qid fun q => { q with widx := w, state := 1 }
    if q.state = 2 then t.storeQcb q.fn q.qid else t

/-- The gap timer's end from now (R371). -/
def State.gapEnd (s : State) (fn : Nat) : Nat := s.clock + (s.fnBlock fn).seqwin * Config.clocksPerUs

/-- The held packets that follow a number in turn, and the number after them (R371). -/
def drainHeld (held : List (Nat × List Byte)) : Nat → Nat → List (List Byte) × Nat
  | 0, x => ([], x)
  | k + 1, x =>
    match held.find? fun h => decide (h.1 = x) with
    | some h => let r := drainHeld held k (x + 1); (h.2 :: r.1, r.2)
    | none => ([], x)

/-- The MAC that a packet should carry (R370) under the ring key that a session's secret gives (R417). -/
def Qcb.mac (q : Qcb) (secret : Nat) (p : List Byte) : List Byte :=
  let key := Crypto.expand (freeData secret 64) (Crypto.text "TRV-RING" ++ leBytes 1 q.fn ++ leBytes 2 q.qid ++ leBytes 1 q.kgen) 64
  (Crypto.hmac key (leBytes 4 q.qid ++ leBytes 4 q.fn ++ p.take 112 ++ leBytes 16 0)).take 16

/-- The MAC of a packet verifies (R370): under the session that was current when the queue was registered, while it lasts (R417). -/
def State.macGood (s : State) (q : Qcb) (p : List Byte) : Bool :=
  match q.secret with
  | some x => (s.sec.sessions.any fun y => decide (y.fn = q.fn) && decide (y.secret = x)) && decide (p.drop 112 = q.mac x p)
  | none => false

/-- One packet of an authenticated ring (R370, R371). -/
def State.takeAuth (s : State) (q : Qcb) (p : List Byte) : State :=
  let s := s.modQcb q.fn q.qid fun q => { q with ridx := (q.ridx + 1) % (2 * q.size) }
  let n := leNat ((p.drop 4).take 4)
  let dropIt := s.modFn q.fn fun b => { b with drop := min (b.drop + 1) (2 ^ 32 - 1) }
  if !s.macGood q p then s.modFn q.fn fun b => { b with macf := min (b.macf + 1) 0xFFFF }
  else if q.seq = 2 ^ 32 then s.faultQueue q 4 n
  else if n < q.seq ∨ q.held.any fun h => decide (h.1 = n) then dropIt
  else if n = q.seq then
    let (ps, x) := drainHeld q.held 64 (q.seq + 1)
    let left := q.held.filter fun h => decide (x < h.1)
    s.modQcb q.fn q.qid fun q => { q with parsed := p :: ps, seq := x, held := left,
                                          gapt := if left.isEmpty then 0 else s.gapEnd q.fn }
  else if n - q.seq ≤ 64 then
    let t := s.poke (q.wina + 128 * (n % 64)) p
    t.modQcb q.fn q.qid fun q => { q with held := q.held ++ [(n, p)], gapt := if q.held.isEmpty then s.gapEnd q.fn else q.gapt }
  else s.faultQueue q 3 n

/-- Takes packets of an authenticated ring until one is parsed (R371). -/
def State.pumpAuth (s : State) (fn qid : Nat) : Nat → State
  | 0 => s
  | k + 1 =>
    match s.qcb fn qid with
    | none => s
    | some q =>
      if q.state ≠ 1 ∨ !q.parsed.isEmpty ∨ q.ridx = q.widx then s
      else match s.fnRead fn (q.rbase + 128 * (q.ridx % q.size)) 128 128 with
        | .ok (t, p) => (t.takeAuth q p).pumpAuth fn qid k
        | .error (.park _ _ _) => s
        | .error _ => s.faultQueue q 6 0

/-- Serves a mapped queue: its index is checked, its authenticated packets are verified, and a LAUNCH that had not started may be tried
again (R364, R371, R375, R379). -/
def State.serveQueue (s : State) (fn qid : Nat) : State :=
  match s.qcb fn qid with
  | none => s
  | some q =>
    let t := (s.checkIndex q).modQcb fn qid fun q => { q with tried := false }
    if q.auth then t.pumpAuth fn qid (2 * q.size) else t

/-- A mapped queue whose read index has changed is served afresh, so that its index is checked before it is parsed on (R364). -/
def State.recheck (s : State) (fn qid : Nat) : State :=
  match s.qcb fn qid with
  | some q => if q.slot.isSome then s.serveQueue fn qid else s
  | none => s

/-! ### The scheduling pass (R374, R375) -/

/-- The slots that a set's passes assign: a partition's unreserved ones, or for 16 those that no partition holds. -/
def State.passSlots (s : State) (p : Nat) : List Nat :=
  (List.range 64).filter fun k =>
    if p = 16 then s.oper.parts.all fun x => decide (bits x.cur.slots k 1 = 0)
    else decide (bits (s.part p).cur.slots k 1 = 1 ∧ bits (s.part p).cur.c0slots k 1 = 0)

/-- The queues that a set serves. -/
def State.passQueues (s : State) (p : Nat) : List Qcb :=
  s.queue.qcbs.filter fun q => decide ((s.servingPart q.fn).getD 16 = p) && !s.holdsReserved q

/-- A queue is waiting: it is READY and has packets (R375). -/
def State.isWaiting (s : State) (q : Qcb) : Bool :=
  decide (q.state = 1) && (decide ((s.kicked q.fn q.qid + 2 * q.size - q.ridx) % (2 * q.size) ≠ 0) || !q.parsed.isEmpty)

/-- The order of step 1: effective priority, then function, then QID. -/
def Qcb.before (a b : Qcb) : Bool :=
  if a.epri ≠ b.epri then decide (b.epri < a.epri) else if a.fn ≠ b.fn then decide (a.fn < b.fn) else decide (a.qid < b.qid)

/-- The order of step 4: QID, then function. -/
def Qcb.mapBefore (a b : Qcb) : Bool := if a.qid ≠ b.qid then decide (a.qid < b.qid) else decide (a.fn < b.fn)

def insertQ (lt : Qcb → Qcb → Bool) (x : Qcb) : List Qcb → List Qcb
  | [] => [x]
  | y :: ys => if lt x y then x :: y :: ys else y :: insertQ lt x ys

def sortQ (lt : Qcb → Qcb → Bool) (qs : List Qcb) : List Qcb := qs.foldl (fun l q => insertQ lt q l) []

/-- Maps queues to the lowest free slots of a set (step 4). -/
def State.mapQueues (s : State) (slots : List Nat) : List Qcb → State
  | [] => s
  | q :: qs =>
    match slots.find? fun k => !(s.queue.qcbs.any fun x => decide (x.slot = some k)) with
    | some k => (s.mapQcb q.fn q.qid k).mapQueues slots qs
    | none => s.mapQueues slots qs

/-- A queue has an effective priority; its QCB is kept where it lies. -/
def State.setEpri (s : State) (q : Qcb) (v : Nat) : State :=
  if q.epri = v then s else (s.modQcb q.fn q.qid fun x => { x with epri := v }).storeQcb q.fn q.qid

/-- One scheduling pass of a set of slots (R375). -/
def State.pass (s : State) (p : Nat) : State :=
  let qs := (s.passQueues p)
  let s := (qs.filter fun q => decide (q.state = 2)).foldl (fun s q => s.checkIndex q) s
  let qs := s.passQueues p
  let wait := qs.filter s.isWaiting
  let slots := s.passSlots p
  let want := (sortQ Qcb.before wait).take slots.length
  let wanted (q : Qcb) : Bool := want.any fun x => decide (x.fn = q.fn ∧ x.qid = q.qid)
  let s := (qs.filter fun q => !wanted q && q.slot.isSome).foldl (fun s q => s.unmapQcb q.fn q.qid) s
  let s := s.mapQueues slots (sortQ Qcb.mapBefore (want.filter fun q => q.slot.isNone))
  let s := want.foldl (fun s q => s.serveQueue q.fn q.qid) s
  qs.foldl (fun s q => s.setEpri q (if s.isWaiting q && !wanted q then min (q.epri + 1) q.ceil else q.bpri)) s

/-- The slots of a set, those reserved for class 0 among them. -/
def State.setSlots (s : State) (p : Nat) : List Nat :=
  (List.range 64).filter fun k =>
    if p = 16 then s.oper.parts.all fun x => decide (bits x.cur.slots k 1 = 0) else decide (bits (s.part p).cur.slots k 1 = 1)

/-- The functions that a set serves (R375). -/
def State.setFns (s : State) (p : Nat) : List Nat := (List.range 15).filter fun f => decide ((s.servingPart f).getD 16 = p)

/-- The bits of a doorbell word that stand for slots of a list. -/
def slotBits (ks : List Nat) : W64 := ks.foldl (fun w k => w ||| BitVec.ofNat 64 (2 ^ k)) 0

/-- What a pass observes before it reads the shadow words: the doorbell bits of its slots, which the QWAIT before it cleared, and the
bits of its functions in QE_PSUM, which it clears with their pending maps (R358, R359, R376). -/
def State.observe (s : State) (p : Nat) : State :=
  let fs := (s.setFns p).filter fun f => decide (bits s.queue.psum f 1 = 1)
  let ks := s.setSlots p
  { s with
    mem := fs.foldl (fun m f => Memory.clear m (kickArea f) 1024) s.mem
    queue := { s.queue with
      passAt := s.queue.passAt.set p s.clock
      psum := fs.foldl (fun w f => setBits w f 1 0) s.queue.psum
      bells := s.queue.bells.map fun b => b &&& ~~~ slotBits ks } }

/-- SCHEDULING_PASS (R375): QWAIT has returned to the queue engine, and the pass of a partition runs, or for 16 that of the slots no
partition holds; queues with a reserved slot are served with their partition. -/
def execSchedulingPass (p : Nat) (s : State) : Host.Outcome State Fault Refusal :=
  .next (if 16 < p then s
    else (s.queue.qcbs.filter fun q => decide ((s.servingPart q.fn).getD 16 = p) && s.holdsReserved q).foldl
      (fun s q => s.serveQueue q.fn q.qid) ((s.observe p).pass p))

/-- A pass of a set is due: a bit that QWAIT waits for is set, or 40.96 µs have gone by (R375, R376); or a queue it serves has
authenticated packets still to verify. -/
def State.passDue (s : State) (p : Nat) : Bool :=
  (s.setFns p).any (fun f => decide (bits s.queue.psum f 1 = 1)) ||
  s.queue.bells.any (fun b => decide (b &&& slotBits (s.setSlots p) ≠ 0)) ||
  decide (s.queue.passAt.getD p 0 + 65536 ≤ s.clock) ||
  s.queue.qcbs.any fun q => q.auth && decide (q.state = 1) && q.parsed.isEmpty && decide (q.ridx ≠ q.widx) &&
    (match q.slot with
    | some k => (s.setSlots p).contains k
    | none => false)

/-- SEQ_GAP (R371): the gap timer has run out. -/
def execSeqGap (fn qid : Nat) (s : State) : Host.Outcome State Fault Refusal :=
  .next (match s.qcb fn qid with
    | some q => if q.state = 1 ∧ !q.held.isEmpty ∧ q.gapt ≠ 0 ∧ q.gapt ≤ s.clock then s.faultQueue q 2 0 else s
    | none => s)

/-! ### Packets (R366, R367) -/

/-- A field [hi:lo] of a packet. -/
def pfield (p : List Byte) (hi lo : Nat) : Nat :=
  bits (leNat ((p.drop (lo / 8)).take (hi / 8 + 1 - lo / 8))) (lo % 8) (hi - lo + 1)

/-- The bits that a packet of an opcode may set, beside those common to all (R366, R367). -/
def bodyBits (p : List Byte) : Option (List (Nat × Nat)) :=
  match pfield p 7 0 with
  | 1 => some [(231, 192)]
  | 2 => some [(320, 192)]
  | 3 => if 5 < pfield p 322 320 then none else some [(327, 192)]
  | 4 => some [(351, 192)]
  | 5 => some [(375, 192), (463, 384), (543, 480)]
  | 6 => some [(287, 192), (511, 320)]
  | 7 => some [(255, 192)]
  | 8 => match pfield p 199 192 with
    | 1 => some [(199, 192), (220, 208), (303, 224)]
    | 2 | 4 => some [(199, 192), (220, 208)]
    | 3 => some [(199, 192), (220, 208), (256, 224)]
    | _ => none
  | _ => none

/-- A packet is well formed: opcode and codes defined, reserved bits 0 (R366, R367). -/
def packetOk (p : List Byte) : Bool :=
  match bodyBits p with
  | none => false
  | some fs =>
    let all : List (Nat × Nat) := [(7, 0), (8, 8), (191, 32), (1023, 896)] ++ fs
    let keep := all.foldl (fun m f => m ||| (2 ^ (f.1 + 1) - 2 ^ f.2)) 0
    decide (leNat p &&& keep = leNat p)

/-- The packet at the head of a queue that may start (R369): mapped, READY, not held by a FENCE. -/
def State.headPacket (s : State) (q : Qcb) : Except Acc (Option (List Byte)) :=
  if q.state ≠ 1 ∨ q.slot.isNone then .ok none
  else if q.auth then .ok q.parsed.head?
  else if q.ridx = q.widx then .ok none
  else (s.fnRead q.fn (q.rbase + 128 * (q.ridx % q.size)) 128 128).map fun x => some x.2

/-- The parse round with a slot served in it: a slot that it has served before begins the next round of the strand that serves the slots
16j to 16j + 15 (R376, R377). -/
def servedIn (round : List Nat) (k : Nat) : List Nat :=
  k :: (if round.contains k then round.filter fun x => decide (x / 16 ≠ k / 16) else round)

/-- The head packet has been taken (R364, R371). -/
def State.takeHead (s : State) (q : Qcb) : State :=
  let t := s.modQcb q.fn q.qid fun q => if q.auth then { q with parsed := q.parsed.drop 1, waiting := none }
    else { q with ridx := (q.ridx + 1) % (2 * q.size), waiting := none }
  match q.slot with
  | some k => { t with queue := { t.queue with round := servedIn t.queue.round k } }
  | none => t

/-- Starts the head packet: it is taken and counted, and waits to complete (R369, R373). -/
def State.startPacket (s : State) (q : Qcb) (p : List Byte) : State × Started :=
  let x : Started := ⟨s.nextId, q.fn, q.qid, p, none, none, none⟩
  let t := (s.takeHead q).modQcb q.fn q.qid fun q => { q with infl := q.infl + 1 }
  ({ t with nextId := s.nextId + 1, queue := { t.queue with started := t.queue.started ++ [x] } }, x)

/-- Starts the head packet and completes it with a status, its effect performed. -/
def State.finishPacket (s : State) (q : Qcb) (p : List Byte) (status : Nat) : State :=
  let (t, x) := s.startPacket q p
  t.completePacket x status

/-- Runs `f` on the head packet of a queue when it has the opcode and may start; a malformed head faults the queue (R366,
R369). -/
def State.onPacket (s : State) (fn qid op : Nat) (f : State → Qcb → List Byte → State) : State :=
  match s.qcb fn qid with
  | none => s
  | some q =>
    match s.headPacket q with
    | .error (.park _ _ _) => s
    | .error _ => s.faultQueue q 6 0
    | .ok none => s
    | .ok (some p) =>
      if pfield p 8 8 = 1 ∧ q.infl ≠ 0 then s
      else if !packetOk p then s.faultQueue (q) 5 (if q.auth then pfield p 63 32 else 0)
      else if pfield p 7 0 = op then f s q p
      else s

/-- CONFIG packets of one subcode. -/
def State.onConfig (s : State) (fn qid sub : Nat) (f : State → Qcb → List Byte → State) : State :=
  s.onPacket fn qid 8 fun s q p => if pfield p 199 192 = sub then f s q p else s

/-! ### FAULT_ACK (R296, R360) -/

/-- FLTACK: disposition 0 kills at the class recorded, wherever the entry is by then (R385), 1 resumes a TETHER_STALL; the status. -/
def State.ackFault (s : State) (fn recno disp : Nat) : State × Nat :=
  match s.queue.faults.find? fun f => decide (f.fn = fn) && decide (f.recno = recno) && f.isOpen with
  | none => (s, 1)
  | some f =>
    if 1 < disp ∨ (disp = 1 ∧ f.code ≠ 19) then (s, 2)
    else
      let t : State := { s with queue := { s.queue with faults := s.queue.faults.filter fun x => x ≠ f } }
      if disp = 1 ∨ !f.launch then (t, 0)
      else match t.launchOf f.tag with
        | none => (t, 0)
        | some la =>
          if la.killed then (t, 0)
          else if f.cls = 3 then (t.killLaunch f.tag, 0)
          else (t.killStrand f.flight f.item, 0)

def execFaultAck (fn qid : Nat) (s : State) : Host.Outcome State Fault Refusal :=
  .next (s.onPacket fn qid 1 fun s q p =>
    let (t, st) := s.ackFault fn (pfield p 223 192) (pfield p 231 224)
    t.finishPacket q p st)

/-! ### SIGNAL, WAIT, COPY (R367, R369) -/

/-- An n64 of device memory as the queue engine reaches it, with where it lies. -/
def State.engineWord (s : State) (fn va : Nat) (k : AccKind) : Except Acc (State × List (Nat × Nat) × Nat) :=
  match s.devPieces (fnAgent fn) k va 8 8 with
  | .error e => .error e
  | .ok (t, ps) =>
    if fn = 0 ∧ !t.hostVisible ps then .error (.fault ⟨9, 4, 0, false, va⟩) else .ok (t, ps, leNat (t.readPieces ps))

def execSignal (fn qid : Nat) (s : State) : Host.Outcome State Fault Refusal :=
  .next (s.onPacket fn qid 2 fun s q p =>
    match s.engineWord fn (pfield p 255 192) .atomic with
    | .error (.park _ _ _) => s
    | .error _ => s.finishPacket q p 9
    | .ok (t, ps, old) =>
      let v := pfield p 319 256
      (t.writeFor fn ps (leBytes 8 (if pfield p 320 320 = 1 then old + v else v))).finishPacket q p 0)

/-- The truth of a comparison code on n64 values (R182). -/
def cc64 (cc a b : Nat) : Bool :=
  match cc with
  | 0 => decide (a = b)
  | 1 => decide (a ≠ b)
  | 2 => decide (a < b)
  | 3 => decide (a ≤ b)
  | 4 => decide (b < a)
  | _ => decide (b ≤ a)

/-- A WAIT's condition, none while the address is parked, or a fault. -/
def State.waitHolds (s : State) (fn : Nat) (p : List Byte) : Except Acc Bool :=
  match s.engineWord fn (pfield p 255 192) .load with
  | .error e => .error e
  | .ok (_, _, v) => .ok (cc64 (pfield p 322 320) v (pfield p 319 256))

/-- WAIT: a condition that holds starts and completes it; one that fails leaves its item parked with a deadline. -/
def execWait (fn qid : Nat) (s : State) : Host.Outcome State Fault Refusal :=
  .next (s.onPacket fn qid 3 fun s q p =>
    if q.waiting.isSome then s
    else match s.waitHolds fn p with
      | .error (.park _ _ _) => s
      | .error _ => s.finishPacket q p 9
      | .ok true => s.finishPacket q p 0
      | .ok false =>
        let e := pfield p 327 323
        let due : Option Nat := if e = 31 then none else some (s.clock + 64 * 2 ^ e)
        s.modQcb fn qid fun q => { q with waiting := some due })

/-- WAIT_PACKET_DONE: a parked WAIT's condition holds, or its timeout has expired (R369). -/
def execWaitPacketDone (fn qid : Nat) (s : State) : Host.Outcome State Fault Refusal :=
  .next (s.onPacket fn qid 3 fun s q p =>
    match q.waiting with
    | none => s
    | some due =>
      match s.waitHolds fn p with
      | .error (.park _ _ _) => s
      | .error _ => s.finishPacket q p 9
      | .ok true => s.finishPacket q p 0
      | .ok false => match due with
        | some t => if t ≤ s.clock then s.finishPacket q p 1 else s
        | none => s)

/-- The chunks of a copy: each ends at a 4 KiB boundary of the destination (R274). -/
def chunksFrom (dst src : Nat) : Nat → Nat → Nat → List Chunk
  | 0, _, _ => []
  | k + 1, off, len =>
    if len ≤ off then []
    else
      let n := min (len - off) (4096 - (dst + off) % 4096)
      ⟨dst + off, src + off, n, off / 4, false, false⟩ :: chunksFrom dst src k (off + n) len

def chunksOf (dst src len : Nat) : List Chunk := chunksFrom dst src (len / 4096 + 2) 0 len

/-- A copy from device memory to device memory. -/
def plainCopy (dst src len : Nat) : CopyOp where
  dsp := .mem
  ssp := .mem
  port := 0
  chunks := chunksOf dst src len
  performed := 0
  link := none
  expect := 0
  chain := 0
  sum := 0
  prior := 0
  startIndex := 0
  denied := false
  cancelled := false
  broken := false
  wrote := []

/-- COPY: its chunks are performed by the copy engine (R274), then its record is written. -/
def execCopy (fn qid : Nat) (s : State) : Host.Outcome State Fault Refusal :=
  .next (s.onPacket fn qid 4 fun s q p =>
    let len := pfield p 351 320
    if len = 0 then s.finishPacket q p 0
    else
      let (t, x) := s.startPacket q p
      { t with queue := { t.queue with started := t.queue.started.map fun y =>
          if y.id = x.id then { y with copy := some (plainCopy (pfield p 255 192) (pfield p 319 256) len) } else y } })

/-! ### DESTROY and CONFIG (R339, R360, R363, R367, R372) -/

/-- A launch of the kernel is queued, resident or saved (R339). -/
def State.kernelBusy (s : State) (fn : Nat) (kid : W64) : Bool :=
  s.launches.any fun l => decide (l.fn = fn) && decide (l.kid = kid) && !l.killed

def execDestroy (fn qid : Nat) (s : State) : Host.Outcome State Fault Refusal :=
  .next (s.onPacket fn qid 7 fun s q p =>
    let kid := BitVec.ofNat 64 (pfield p 255 192)
    if fn = 0 then s.finishPacket q p 0
    else if s.kernelBusy fn kid then s.finishPacket q p 1
    else match s.kernelOf fn kid with
      | some k => (s.destroyKernel k).finishPacket q p 0
      | none => s.finishPacket q p 0)

def execRegq (fn qid : Nat) (s : State) : Host.Outcome State Fault Refusal :=
  .next (s.onConfig fn qid 1 fun s q p =>
    let n := pfield p 220 208
    let auth := decide (pfield p 293 293 = 1)
    let st := s.regStatus fn n (pfield p 287 224) (pfield p 292 288) (pfield p 295 294) (pfield p 299 296) (pfield p 303 300) auth false
    let t := s.finishPacket q p st
    if st = 0 then
      t.register fn n (pfield p 287 224) (pfield p 292 288) (pfield p 295 294) (pfield p 299 296) (pfield p 303 300) auth
    else t)

def execUnregq (fn qid : Nat) (s : State) : Host.Outcome State Fault Refusal :=
  .next (s.onConfig fn qid 2 fun s q p =>
    let n := pfield p 220 208
    if (s.qcb fn n).isNone then s.finishPacket q p 5
    else
      let t := s.finishPacket q p 0
      t.dropQcb fn n)

/-- A queue's key generation advances: number 1 is expected and what was held is dropped (R372). -/
def State.rekeyQueue (s : State) (fn qid : Nat) : State :=
  match s.qcb fn qid with
  | none => s
  | some q =>
    let lost := q.held.length + q.parsed.length
    (s.modFn fn fun b => { b with drop := min (b.drop + lost) (2 ^ 32 - 1) }).modQcb fn qid fun q =>
      { q with kgen := (q.kgen + 1) % 256, seq := 1, held := [], parsed := [], gapt := 0 }

def execResetq (fn qid : Nat) (s : State) : Host.Outcome State Fault Refusal :=
  .next (s.onConfig fn qid 3 fun s q p =>
    let n := pfield p 220 208
    let ridx := pfield p 255 224
    let again := decide (pfield p 256 256 = 1)
    match s.qcb fn n with
    | none => s.finishPacket q p 5
    | some x =>
      if (again && !x.auth) || decide (2 * x.size ≤ ridx) then s.finishPacket q p 4
      else
        let t := s.finishPacket q p 0
        let t := if again then t.rekeyQueue fn n else t
        ((t.modQcb fn n fun x => { x with ridx := ridx, state := 1, waiting := none, tried := false }).storeQcb fn n).recheck fn n)

/-- CONFIG REKEY acts on the queue itself (R372). -/
def execRekey (fn qid : Nat) (s : State) : Host.Outcome State Fault Refusal :=
  .next (s.onConfig fn qid 4 fun s q p =>
    let n := pfield p 220 208
    match s.qcb fn n with
    | none => s.finishPacket q p 5
    | some x => if x.auth then (s.finishPacket q p 0).rekeyQueue fn n else s.finishPacket q p 4)

end Sys2Proof.Machine
end

