-- ==== Sys2Proof/Machine/Launching.lean ====
section
/-!
DEFINITION. LAUNCH: its checks, the parameter block, commit, and gang reservation (R25, R56, R69, R80, R98, R315, R316, R366 to
R369, R378 to R380, R443).
-/
namespace Sys2Proof.Machine

/-! ### Grants at a launch (R315, R443) -/

/-- Reads a grant record of 32 bytes (R315). -/
def grantOfBytes (b : List Byte) : Grant where
  base := pfield b 63 0
  fix := pfield b 95 64
  pitem := pfield b 111 96
  pflt := pfield b 127 112
  ppar := pfield b 143 128
  param := pfield b 159 144
  rights := pfield b 161 160
  shared := decide (pfield b 162 162 = 1)
  owner := pfield b 167 164

/-- A grant record's reserved bits are 0, and its BASE is a multiple of 128 (R9, R315). -/
def grantClean (b : List Byte) : Bool := decide (pfield b 163 163 = 0 ∧ pfield b 255 168 = 0 ∧ pfield b 63 0 % 128 = 0)

/-- Record `i` of a grant list. -/
def grantBytes (g : List Byte) (i : Nat) : List Byte := (g.drop (32 + 32 * i)).take 32

/-- Items of a flight (R25). -/
def Kernel.flightLen (k : Kernel) : Nat := max 1 (k.strands * k.width)

/-- The n32 parameter that a grant names, in the host's bytes (R315). -/
def paramValue (bs : List Byte) (off : Nat) : Nat := if off = 0xFFFF then 0 else leNat ((bs.drop off).take 4)

/-- size(k) of R315. -/
def Grant.size (g : Grant) (n f p : Nat) : Nat := g.fix + g.pitem * n + g.pflt * f + g.ppar * p

/-- A peer address (R443). -/
def isPeer (a : Nat) : Bool := decide (bits a 63 1 = 1)

/-- The import window of a peer address covers a grant (R443). -/
def State.windowCovers (s : State) (fn : Nat) (g : Grant) (size : Nat) : Bool :=
  let w := (s.thx.imports.getD fn []).getD (bits g.base 52 4) {}
  w.v && decide (bits g.base 56 7 = 0) && decide (w.rights &&& g.rights = g.rights) && decide (bits g.base 0 52 + size ≤ w.size)

/-- Pages of an extent all carry the recorded owner and rights (R315). -/
def State.pagesGranted (s : State) (g : Grant) : Nat → Bool
  | 0 => true
  | n + 1 => (match s.walk ((g.base / 65536 + n) * 65536) with
      | .leaf l => decide (l.owner = g.owner) && (l.rd || decide (bits g.rights 0 1 = 0)) && (l.wr || decide (bits g.rights 1 1 = 0))
      | _ => false) && s.pagesGranted g n

/-- The sealed pages of a kernel: those that its code occupies (R137). -/
def Kernel.codePages (k : Kernel) : List Nat := (List.range (ceilDiv (4 * k.words) 65536)).map fun i => k.code + 65536 * i

/-- A region of a launch is large enough and lies where it may. -/
def State.grantFits (s : State) (fn : Nat) (g : Grant) (size : Nat) : Bool :=
  if isPeer g.base then s.windowCovers fn g size
  else decide (g.base + size < 2 ^ 52) && (decide (size = 0) || s.pagesGranted g ((g.base + size - 1) / 65536 - g.base / 65536 + 1)) &&
    s.kernels.all fun k => k.codePages.all fun a => !meets g.base size a 65536

/-- No two extents of a launch overlap. -/
def disjointRegions : List LRegion → Bool
  | [] => true
  | r :: rs => (rs.all fun x => !meets r.base r.size x.base x.size) && disjointRegions rs

/-- NMAX of a grant list, 0 read as 2^32 − 1. -/
def nmaxOf (g : List Byte) : Nat := if pfield g 63 32 = 0 then 2 ^ 32 - 1 else pfield g 63 32

/-- Grant lists agree in every field but BASE (R315). -/
def sameShape (a b : List Grant) : Bool :=
  decide (a.length = b.length) && (a.zip b).all fun p => decide ({ p.1 with base := 0 } = ({ p.2 with base := 0 } : Grant))

/-! ### Room (R80, R378) -/

/-- A flight of the kernel could lie on an empty core or pair of a partition (R80). -/
def State.partHolds (s : State) (p : Nat) (k : Kernel) : Bool :=
  (List.range 96).any fun c => decide (bits (s.part p).cur.pairs (c / 2) 1 = 1) && (!k.pair || decide (c % 2 = 0)) &&
    k.needs.zipIdx.all fun (n, i) => let x := s.core (c + i)
      decide (n.slots ≤ 128 ∧ n.rf ≤ x.partBytes 0 ∧ n.acc ≤ x.partBytes 1 ∧ n.spad ≤ x.partBytes 2)

/-- Flights of the kernel that a partition could hold when empty. -/
def State.capacity (s : State) (p : Nat) (k : Kernel) : Nat :=
  ((List.range 96).map fun c =>
    if decide (bits (s.part p).cur.pairs (c / 2) 1 = 1) && (!k.pair || decide (c % 2 = 0)) then
      (k.needs.zipIdx.map fun (n, i) => let x := s.core (c + i)
        min (x.flightsFor n) ((atMost (x.partBytes 0) n.rf).getD 128)).foldl min 128
    else 0).sum

def State.poolHolds (s : State) (p : Nat) (k : Kernel) : Bool := decide (k.lmax ≤ (s.part p).cur.savesz)

/-! ### The checks (R378) -/

/-- What the fields of a LAUNCH packet ask for, with the host's parameter bytes and the grants in force. -/
structure LaunchReq where
  k : Kernel
  n : Nat
  seed : W32
  parts : List Nat
  gres : Nat
  dep : Nat
  bytes : List Byte
  /-- Whether the header of the list in force fits the kernel and its records are well formed, and its NMAX (R9, R314, R315;
  assumption 36). -/
  listOk : Bool
  nmax : Nat
  grants : List Grant

def LaunchReq.flights (r : LaunchReq) : Nat := ceilDiv r.n r.k.flightLen

/-- The regions of the launch with their sizes. -/
def LaunchReq.regions (r : LaunchReq) : List LRegion :=
  r.grants.map fun g => ⟨g.base, g.size r.n r.flights (paramValue r.bytes g.param), g.rights⟩

/-- The partitions that PARTS names. -/
def partsOf (w : Nat) : List Nat := (List.range 16).filter fun p => decide (bits w p 1 = 1)

/-- The status of a LAUNCH whose packet fields and memory have been read: 0 when it may go on (R378). -/
def State.launchStatus (s : State) (fn : Nat) (r : LaunchReq) : Nat :=
  let rs := r.regions
  if r.k.nmax < r.n ∨ r.nmax < r.n ∨ !r.listOk ∨ !sameShape r.grants r.k.grants ∨ !disjointRegions rs ∨
      !((r.grants.zip rs).all fun x => s.grantFits fn x.1 x.2.size) then 3
  else if r.k.reord && ((rs[r.dep]?).all fun x => decide (x.size < 64 * r.n)) then 4
  else if !(r.parts.any fun p => s.partHolds p r.k) ∨ !(r.parts.any fun p => s.poolHolds p r.k) then 2
  else if 2 ≤ r.parts.length ∧ (r.flights < r.gres * r.parts.length ∨ (r.parts.any fun p => decide (s.capacity p r.k < r.gres)) ∨
      !(r.parts.all fun p => s.poolHolds p r.k)) then 6
  else 0

/-- The host's parameter bytes and the grant list in force: whether its header fits, its NMAX, its records (R314, R367). -/
def State.readLists (s : State) (fn : Nat) (k : Kernel) (psrc plen ga : Nat) :
    Except Acc (List Byte × Bool × Nat × List Grant) :=
  match s.fnRead fn psrc plen 1 with
  | .error e => .error e
  | .ok (_, bs) =>
    if ga = 0 then .ok (bs, true, k.nmax, k.grants)
    else match s.fnRead fn ga (32 + 32 * k.grants.length) 1 with
      | .error e => .error e
      | .ok (_, gs) =>
        let rows := (List.range k.grants.length).map (grantBytes gs)
        .ok (bs, decide (pfield gs 31 0 = k.grants.length ∧ pfield gs 255 64 = 0) && rows.all grantClean, nmaxOf gs, rows.map grantOfBytes)

/-- Reads what a LAUNCH names: a status that refuses it, or the request (R367, R378). -/
def State.readLaunch (s : State) (fn : Nat) (p : List Byte) : Except (Option Nat) LaunchReq :=
  let plen := pfield p 463 448
  if fn = 0 then .error (some 8)
  else if plen % 8 ≠ 0 ∨ 4096 < plen then .error (some 10)
  else match s.kernelOf fn (BitVec.ofNat 64 (pfield p 255 192)) with
    | none => .error (some 1)
    | some k =>
      let parts := partsOf (pfield p 351 320)
      if parts.isEmpty ∨ 2 ^ 16 ≤ pfield p 351 320 ∨ !(parts.all fun q => decide (bits (s.part q).cur.fns fn 1 = 1)) then
        .error (some 5)
      else
        let ga := pfield p 543 480
        match s.readLists fn k (pfield p 447 384) plen ga with
        | .error (.park _ _ _) => .error none
        | .error _ => .error (some 9)
        | .ok (bs, ok, nmax, gs) =>
          let g := pfield p 359 352
          let d := pfield p 375 360
          .ok ⟨k, pfield p 287 256, BitVec.ofNat 32 (pfield p 319 288), parts, if g = 0 then 1 else g,
            if d = 0xFFFF then k.ldep else d, bs, ok, nmax, gs⟩

/-! ### The parameter block (R316) -/

/-- Bytes with `new` over them from an offset, extended with zeros as far as needed. -/
def overlay (bs : List Byte) (off : Nat) (new : List Byte) : List Byte :=
  let bs := bs ++ List.replicate (off + new.length - bs.length) 0
  bs.take off ++ new ++ bs.drop (off + new.length)

/-- The bytes of the parameter block: the host's, extended through the last field, pointers put in. -/
def blockBytes (r : LaunchReq) : List Byte :=
  let top := (r.k.params.map fun x => x.1 + ((Ty.ofCode x.2).map Ty.bytes).getD 8).foldl max 0
  let bs := r.bytes ++ List.replicate (top - r.bytes.length) 0
  let ptrs := r.k.params.filter fun x => decide (x.2 = Ty.ptr.code)
  (ptrs.zip r.grants).foldl (fun bs x => overlay bs x.1.1 (leBytes 8 x.2.base)) bs

/-- Maps and fills the parameter page of a launch tag: the tenant's owner, readable only (R316; assumption 8). -/
def State.buildBlock (s : State) (fn tag : Nat) (r : LaunchReq) : State :=
  let frame := Config.paramFrames + tag
  let va := Config.paramVa + 65536 * tag
  ((s.scrubFrame frame fn 4).mapPage va (leafWord false 0 fn true false frame) false).land (frame * 65536) (blockBytes r)

/-! ### Commit (R378, R380) -/

/-- The lowest tag that no committed launch holds (R380). -/
def State.freeTag (s : State) : Option Nat :=
  (List.range 65536).find? fun t => !(s.launches.any fun l => decide (l.tag = t))

/-- Commits a launch under a tag; its packet has started. -/
def State.commit (s : State) (q : Qcb) (p : List Byte) (r : LaunchReq) (tag : Nat) : State :=
  let fn := q.fn
  let seqNo := (s.fnBlock fn).lseq
  let (s, x) := s.startPacket q p
  let s := s.buildBlock fn tag r
  let s := s.modFn fn fun b => { b with lseq := (b.lseq + 1) % 2 ^ 32 }
  let la : Launch := {
    tag := tag, seqNo := seqNo, order := s.nextId, fn := fn, owner := fn, kid := r.k.kid, n := r.n, seed := storedSeed r.seed, cls := r.k.cls,
    parts := r.parts, next := 0, nextFlight := 0, phase := 0, items := r.n, deposit := r.regions[r.dep]?, recs := [],
    relaunch := [], regions := r.regions, paramVa := Config.paramVa + 65536 * tag, caddr := pfield p 127 64,
    cval := BitVec.ofNat 64 (pfield p 191 128), qid := q.qid, killed := false, qslot := q.slot.getD 0, lastSweep := s.clock,
    swept := false }
  { s with
    nextId := s.nextId + 1
    launches := s.launches ++ [la]
    queue := { s.queue with lseed := storedSeed r.seed, started := s.queue.started.map fun y =>
      { y with tag := if y.id = x.id then some tag else y.tag } } }

/-- A LAUNCH at the head of a queue: refused with a status, done at once for N = 0, or handed on; one that had no room waits for the
next pass (R25, R378 to R380). -/
def State.onLaunch (s : State) (fn qid : Nat) (f : State → Qcb → List Byte → LaunchReq → State) : State :=
  s.onPacket fn qid 5 fun s q p =>
    if q.tried then s
    else match s.readLaunch fn p with
    | .error none => s
    | .error (some st) => s.finishPacket q p st
    | .ok r =>
      let st := s.launchStatus fn r
      if st ≠ 0 then s.finishPacket q p st
      else if r.n = 0 then s.finishPacket q p 0
      else f s q p r

/-- The LAUNCH at the head of a queue has not started, and is tried again at the next pass (R379, R380). -/
def State.tryLater (s : State) (q : Qcb) : State := s.modQcb q.fn q.qid fun x => { x with tried := true }

/-- LAUNCH (R378): a launch over one partition commits. -/
def execLaunch (fn qid : Nat) (s : State) : Host.Outcome State Fault Refusal :=
  .next (s.onLaunch fn qid fun s q p r =>
    if 2 ≤ r.parts.length then s
    else match s.freeTag with
      | some tag => s.commit q p r tag
      | none => s.tryLater q)

/-! ### Gangs (R379) -/

/-- Places `n` flights of a launch on one partition, whether or not their banks are live yet; none where it lacks room. -/
def State.placeOn (s : State) (tag : Nat) (k : Kernel) (p : Nat) : Nat → Option State
  | 0 => some s
  | n + 1 =>
    match s.launchOf tag with
    | none => none
    | some la =>
      ((s.siteFor k [p] fun _ => true).bind (s.seatAt la k la.nextFlight (plainStrands la k la.nextFlight))).bind fun t =>
        (t.modLaunch tag fun l =>
          { l with next := min la.n (la.next + k.strands * k.width), nextFlight := la.nextFlight + 1 }).placeOn tag k p n

/-- Places GRES flights on each named partition in increasing number; none where any lacks room (R379). -/
def State.placeGang (s : State) (tag : Nat) (k : Kernel) (gres : Nat) : List Nat → Option State
  | [] => some s
  | p :: ps => (s.placeOn tag k p gres).bind fun t => t.placeGang tag k gres ps

/-- The pieces of the pool that the flights of a launch hold. -/
def State.piecesOf (s : State) (tag : Nat) : List Alloc := (s.flights.filter fun f => decide (f.tag = tag)).flatMap Flight.alloc

/-- GANG_RESERVATION (R379): when every partition has room, the gang commits and its reserved flights are placed; otherwise
the attempt leaves nothing but the wake of banks and the clears that the placement waits for (R85, R407). -/
def execGangReservation (fn qid : Nat) (s : State) : Host.Outcome State Fault Refusal :=
  .next (s.onLaunch fn qid fun s q p r =>
    if r.parts.length < 2 then s
    else match s.freeTag with
      | some tag => match (s.commit q p r tag).placeGang tag r.k r.gres r.parts with
        | some t => if s.banksLive (t.piecesOf tag) then t else (s.wakeBanks (t.piecesOf tag)).tryLater q
        | none => ((r.parts.findSome? fun p => s.askClear p r.k fun _ => true).getD s).tryLater q
      | none => s.tryLater q)

end Sys2Proof.Machine
end

