-- ==== Sys2Proof/Machine/Annot.lean ====
section
/-!
DEFINITION. The annotations of a kernel as the Arbiter reads them (R136, R317, R319, R354): bound forms, types, relations, held
locks, counts and uniform registers of each block.
-/
namespace Sys2Proof.Machine

/-! ### Bound forms (R317, R324) -/

/-- A polynomial in the launch symbols with integer coefficients: N is symbol 0, F symbol 1, parameter k symbol k + 2.  A
monomial lists its symbols in rising order. -/
abbrev BForm := List (List Nat × Int)

/-- Adds one term. -/
def BForm.plus (m : List Nat) (c : Int) : BForm → BForm
  | [] => if c = 0 then [] else [(m, c)]
  | (n, d) :: r => if n = m then (if d + c = 0 then r else (n, d + c) :: r) else (n, d) :: BForm.plus m c r

def BForm.add (p q : BForm) : BForm := p.foldl (fun acc x => BForm.plus x.1 x.2 acc) q
def BForm.scale (k : Int) (p : BForm) : BForm := if k = 0 then [] else p.map fun x => (x.1, k * x.2)
def BForm.sub (p q : BForm) : BForm := BForm.add p (BForm.scale (-1) q)
def BForm.const (z : Int) : BForm := if z = 0 then [] else [([], z)]
def BForm.sym (n : Nat) : BForm := [([n], 1)]

/-- Two monomials, each in rising order, as one. -/
def mergeSyms (m n : List Nat) : List Nat := m.foldl (fun acc x => acc.takeWhile (· < x) ++ x :: acc.dropWhile (· < x)) n

def BForm.mul (p q : BForm) : BForm :=
  p.foldl (fun acc x => q.foldl (fun acc y => BForm.plus (mergeSyms x.1 y.1) (x.2 * y.2) acc) acc) []

def BForm.degree (p : BForm) : Nat := (p.map fun x => x.1.length).foldl max 0

/-- The integer that a form without symbols is. -/
def BForm.int? (p : BForm) : Option Int := if p.all fun x => x.1.isEmpty then some ((p.map Prod.snd).foldl (· + ·) 0) else none

/-! ### Words of the text (R133, R135) -/

/-- A token: a run of letters, digits, underscores and dots, or any other character. -/
inductive Tok where
  | word (w : List Char)
  | sym (c : Char)
deriving DecidableEq, Repr

def wordChar (c : Char) : Bool := c.isAlphanum || c = '_' || c = '.'

/-- The tokens of a line; the second argument holds the word under way, last character first.  A comment ends the line. -/
def lexLine : List Char → List Char → List Tok
  | [], w => if w = [] then [] else [.word w.reverse]
  | c :: r, w =>
    if wordChar c then lexLine r (c :: w)
    else
      let tail := if c = ';' ∨ (c = '/' ∧ r.head? = some '/') then []
        else if c = ' ' ∨ c = '\t' ∨ c = '\r' then lexLine r [] else .sym c :: lexLine r []
      if w = [] then tail else .word w.reverse :: tail

/-- The lines of a text, which zero bytes may pad. -/
def textLines (bs : List Byte) : List (List Char) :=
  let cs := (bs.takeWhile fun b => b ≠ 0).map fun b => Char.ofNat b.toNat
  cs.foldr (fun c acc => if c = '\n' then [] :: acc else match acc with
    | l :: ls => (c :: l) :: ls
    | [] => [[c]]) [[]]

/-- A digit's value in a base. -/
def digitOf (base : Nat) (c : Char) : Option Nat :=
  let n := if c.isDigit then c.toNat - 48 else c.toLower.toNat - 87
  if (c.isDigit ∨ ('a' ≤ c.toLower ∧ c.toLower ≤ 'f')) ∧ n < base then some n else none

def digitsOf (base : Nat) : List Char → Option Nat
  | [] => none
  | cs => cs.foldl (fun acc c => acc.bind fun n => if c = '_' then some n else (digitOf base c).map fun d => n * base + d) (some 0)

/-- A number in decimal, hexadecimal or binary (R135). -/
def numberOf : List Char → Option Nat
  | '0' :: 'x' :: r => digitsOf 16 r
  | '0' :: 'X' :: r => digitsOf 16 r
  | '0' :: 'b' :: r => digitsOf 2 r
  | '0' :: 'B' :: r => digitsOf 2 r
  | c :: r => if c.isDigit then digitsOf 10 (c :: r) else none
  | [] => none

def lower (w : List Char) : List Char := w.map Char.toLower

/-- What the text may name: regions, parameters with their types, and how many v registers there are. -/
structure Names where
  regions : List (List Char)
  params : List (List Char × Nat)
  regs : Nat

/-- The specifier code of a register that an annotation may name (R142, R317). -/
def regOf (e : Names) (w : List Char) : Option Nat :=
  match lower w with
  | c :: ds =>
    (if ds.all Char.isDigit then digitsOf 10 ds else none).bind fun n =>
      if c = 'v' ∧ n < e.regs then some n
      else if c = 's' ∧ n < 64 then some (128 + n)
      else if c = 'x' ∧ n < 8 then some (256 + n)
      else if c = 'p' ∧ n < 7 then some (272 + n)
      else none
  | [] => none

/-- A launch symbol (R319). -/
def symbolOf (e : Names) (w : List Char) : Option Nat :=
  if w = "N".toList then some 0
  else if w = "F".toList then some 1
  else (e.params.findIdx? fun p => decide (p.1 = w ∧ p.2 = Ty.n32.code)).map (· + 2)

/-- One factor of a bound form. -/
def factorOf (e : Names) (w : List Char) : Option BForm :=
  match numberOf w with
  | some n => some (BForm.const n)
  | none => (symbolOf e w).map BForm.sym

/-- A bound form: products of numbers and symbols, added and subtracted (R317).  `cur` is the product under way. -/
def formOf (e : Names) : List Tok → BForm → Bool → Option BForm → Option BForm
  | [], acc, neg, cur => cur.map fun p => BForm.add acc (BForm.scale (if neg then -1 else 1) p)
  | .sym c :: .word w :: r, acc, neg, cur =>
    match cur, factorOf e w with
    | some p, some f =>
      if c = '*' then formOf e r acc neg (some (BForm.mul p f))
      else
        let acc := BForm.add acc (BForm.scale (if neg then -1 else 1) p)
        if c = '+' then formOf e r acc false (some f) else if c = '-' then formOf e r acc true (some f) else none
    | none, some f => if c = '-' then formOf e r acc (!neg) (some f) else none
    | _, none => none
  | .word w :: r, acc, neg, none => match factorOf e w with
    | some f => formOf e r acc neg (some f)
    | none => none
  | _, _, _, _ => none

/-- A bound form of degree at most 2 (R317). -/
def boundOf (e : Names) (ts : List Tok) : Option BForm :=
  (formOf e ts [] false none).bind fun p => if BForm.degree p ≤ 2 then some p else none

/-- Splits at the commas outside parentheses. -/
def splitCommas : List Tok → Nat → List Tok → List (List Tok)
  | [], _, cur => [cur.reverse]
  | t :: r, d, cur =>
    if t = .sym ',' ∧ d = 0 then cur.reverse :: splitCommas r 0 []
    else splitCommas r (if t = .sym '(' then d + 1 else if t = .sym ')' then d - 1 else d) (t :: cur)

/-! ### Types, relations and blocks (R317, R319, R321) -/

/-- A type of the annotation grammar (R317). -/
inductive AType where
  | value (t : Ty)
  | pred
  | ptr (r : Nat) (lo hi : BForm)
  | idx (lo hi : Nat)
  | lock (name : List Char) (r : Nat) (off : BForm)
  | ret (label : List Char)
  | bar (off : Nat)
  | param
deriving DecidableEq, Repr

/-- The value types as they are written (R146). -/
def valueTypes : List (List Char × Ty) :=
  [("i8".toList, .i8), ("i16".toList, .i16), ("i32".toList, .i32), ("i64".toList, .i64), ("n8".toList, .n8), ("n16".toList, .n16),
   ("n32".toList, .n32), ("n64".toList, .n64), ("f64".toList, .f64), ("f32".toList, .f32), ("f16".toList, .f16),
   ("bf16".toList, .bf16), ("z64".toList, .z64), ("b8".toList, .b8)]

def natOf (e : Names) (ts : List Tok) : Option Nat :=
  (boundOf e ts).bind fun p => p.int?.bind fun z => if 0 ≤ z then some z.toNat else none

def regionOf (e : Names) : List Tok → Option Nat
  | [.word w] => e.regions.findIdx? fun x => decide (x = w)
  | _ => none

/-- Reads a type (R317). -/
def typeOf (e : Names) : List Tok → Option AType
  | [.word w] =>
    let l := lower w
    if l = "pred".toList then some .pred
    else if l = "param".toList then some .param
    else (valueTypes.find? fun p => decide (p.1 = l)).map fun p => .value p.2
  | .word w :: .sym '(' :: r =>
    let l := lower w
    if r.getLast? ≠ some (.sym ')') then none
    else match splitCommas r.dropLast 0 [] with
      | [x, y, z] =>
        if l = "ptr".toList then (regionOf e x).bind fun k => (boundOf e y).bind fun lo => (boundOf e z).map fun hi => .ptr k lo hi
        else if l = "lock".toList then match x with
          | [.word n] => (regionOf e y).bind fun k => (boundOf e z).map fun o => .lock n k o
          | _ => none
        else none
      | [x, y] => if l = "idx".toList then (natOf e x).bind fun lo => (natOf e y).map fun hi => .idx lo hi else none
      | [x] =>
        if l = "bar".toList then (natOf e x).map .bar
        else if l = "ret".toList then match x with
          | [.word n] => some (.ret n)
          | _ => none
        else none
      | _ => none
  | _ => none

/-- Whether a register of the specifier code can have the type: 64 bits need an even v register or a scalar (R65, R317). -/
def typeFits (reg : Nat) : AType → Bool
  | .pred => decide (272 ≤ reg)
  | .idx _ _ => decide (256 ≤ reg ∧ reg < 272)
  | .value t => decide (reg < 256) && (!t.wide || decide (reg % 2 = 0 ∨ 128 ≤ reg))
  | .bar _ => decide (reg < 256)
  | .ptr _ _ _ | .lock _ _ _ | .ret _ | .param => decide (reg < 256 ∧ (reg % 2 = 0 ∨ 128 ≤ reg))

/-- A side of a relation (R319). -/
inductive RTerm where
  | reg (n : Nat)
  | form (p : BForm)
deriving DecidableEq, Repr

/-- `a + c < b` or `a + c <= b` (R319). -/
structure Rel where
  a : RTerm
  c : Int
  strict : Bool
  b : RTerm
deriving DecidableEq, Repr

def termOf (e : Names) (ts : List Tok) : Option RTerm :=
  match ts with
  | [.word w] => match regOf e w with
    | some r => some (.reg r)
    | none => (factorOf e w).map .form
  | [.sym '-', .word w] => (numberOf w).map fun n => .form (BForm.const (-(n : Int)))
  | _ => none

def relOf (e : Names) (ts : List Tok) : Option Rel :=
  let l := ts.takeWhile fun t => t ≠ .sym '<'
  let (strict, r) := match ts.dropWhile fun t => t ≠ .sym '<' with
    | _ :: .sym '=' :: r => (false, r)
    | _ :: r => (true, r)
    | [] => (true, [])
  (termOf e r).bind fun b => match l with
    | [x, .sym '+', .word w] => (termOf e [x]).bind fun a => (numberOf w).map fun n => ⟨a, n, strict, b⟩
    | [x, .sym '+', .sym '-', .word w] => (termOf e [x]).bind fun a => (numberOf w).map fun n => ⟨a, -n, strict, b⟩
    | [x, .sym '-', .word w] => (termOf e [x]).bind fun a => (numberOf w).map fun n => ⟨a, -n, strict, b⟩
    | _ => (termOf e l).map fun a => ⟨a, 0, strict, b⟩

/-- The annotation of a block (R321). -/
structure Annot where
  off : Nat
  /-- The label, where the text opens with `.block`. -/
  label : List Char := []
  types : List (Nat × AType) := []
  rels : List Rel := []
  locks : List (List Char) := []
  counts : List Nat := [0, 0, 0, 0]
  uni : List Nat := []
  /-- The record is well formed (R354). -/
  ok : Bool := true
deriving DecidableEq, Repr

/-- The counter class that `.async` names. -/
def classOf (w : List Char) : Option Nat :=
  ["copy".toList, "matrix".toList, "collective".toList, "stream".toList].findIdx? fun x => decide (x = lower w)

/-- The items of a directive; none for a directive without any. -/
def commaParts (ts : List Tok) : List (List Tok) := if ts = [] then [] else splitCommas ts 0 []

/-- Reads one line into an annotation. -/
def annotLine (e : Names) (a : Annot) (l : List Char) : Option Annot :=
  match lexLine l [] with
  | [] => some a
  | .word d :: ts =>
    let d := lower d
    if d = ".block".toList then match ts with
      | [.word w] => some { a with label := w }
      | _ => none
    else if d = ".types".toList then
      ((commaParts ts).mapM fun (t : List Tok) => match t with
        | .word w :: r => (regOf e w).bind fun reg => (typeOf e r).bind fun ty => if typeFits reg ty then some (reg, ty) else none
        | _ => none).map fun xs => { a with types := a.types ++ xs }
    else if d = ".rel".toList then ((commaParts ts).mapM (relOf e)).map fun xs => { a with rels := a.rels ++ xs }
    else if d = ".locks".toList then
      ((commaParts ts).mapM fun (t : List Tok) => match t with
        | [.word w] => some w
        | _ => none).map fun xs => { a with locks := a.locks ++ xs }
    else if d = ".uni".toList then
      ((commaParts ts).mapM fun (t : List Tok) => match t with
        | [.word w] => (regOf e w).bind fun r => if r < 128 then some r else none
        | _ => none).map fun xs => { a with uni := a.uni ++ xs }
    else if d = ".async".toList then
      (commaParts ts).foldl (fun acc (t : List Tok) => acc.bind fun a => match t with
        | [.word w, .sym '=', .word n] => (classOf w).bind fun k => (numberOf n).map fun n => { a with counts := a.counts.set k n }
        | _ => none) (some a)
    else none
  | _ => none

/-- Reads the text of a record (R354). -/
def annotText (e : Names) (off : Nat) (bs : List Byte) : Option Annot :=
  (textLines bs).foldl (fun acc l => acc.bind fun a => annotLine e a l) (some { off := off })

/-- The records of the annotation section in order: the label's word offset, with its annotation where it is well formed (R354). -/
def annotRecords (e : Names) : Nat → List Byte → List (Nat × Option Annot)
  | 0, _ => []
  | n + 1, bs =>
    if bs.length < 8 then (if bs = [] then [] else [(0, none)])
    else
      let off := pfield bs 31 0
      let len := pfield bs 47 32
      let size := 8 + (len + 7) / 8 * 8
      let a := if bs.length < size ∨ pfield bs 63 48 ≠ 0 then none else annotText e off ((bs.drop 8).take len)
      (off, a) :: annotRecords e n (bs.drop size)

end Sys2Proof.Machine
end

