-- ==== Sys2Proof/Machine/Walk.lean ====
section
/-!
DEFINITION. What the Arbiter's walk knows: rejections, the sites of the code, atoms and facts, the prover, and the state of the walk
with reads, writes and goals (R317 to R320, R324 to R328, R332 to R335).

A check that fails rejects the kernel.  Where the rules leave a check's detail open, assumption 21 says what this model takes.
-/
namespace Sys2Proof.Machine

/-! ### Rejections (R332 to R335) -/

/-- What a rejection record says beside the kernel identifier (R334). -/
structure Rejection where
  fam : Nat
  num : Nat
  block : Nat := 0xFFFFFFFF
  offset : Nat := 0xFFFFFFFF
  field : Nat := 0xFF
  spec : Nat := 0x17F
  item : Nat := 0xFFFF
  expect : Nat := 0
  found : Nat := 0
  target : Nat := 0xFFFFFFFF
  word0 : Nat := 0
  word1 : Nat := 0
deriving DecidableEq, Repr

/-- The 64 bytes of a rejection record (R334). -/
def Rejection.bytes (r : Rejection) (kid : W64) : List Byte :=
  leBytes 8 kid.toNat ++ leBytes 4 r.block ++ leBytes 4 r.offset ++ leBytes 1 r.fam ++ leBytes 1 r.num ++ leBytes 1 r.field ++
  leBytes 1 0 ++ leBytes 2 r.spec ++ leBytes 2 r.item ++ leBytes 8 r.expect ++ leBytes 8 r.found ++ leBytes 4 r.target ++
  leBytes 4 0 ++ leBytes 4 r.word0 ++ leBytes 4 r.word1 ++ leBytes 8 0

/-! ### Sites -/

/-- An instruction of the code with the word offset it starts at and its first two words. -/
structure Site where
  off : Nat
  op : Op
  o : Long
  raw : Raw
  w0 : Nat
  w1 : Nat

/-- A rejection at a site. -/
def Site.reject (x : Site) (fam num field : Nat) : Rejection :=
  { fam := fam, num := num, block := x.off, offset := x.off, field := field, word0 := x.w0, word1 := x.w1 }

/-- The word offset of the instruction after this one. -/
def Site.next (x : Site) : Nat := x.off + x.raw.nwords

/-- The word offset that an instruction's IMM names, as an integer (R147). -/
def Site.target (x : Site) : Int := x.off + signed 16 x.o.imm.val

def Site.fields (x : Site) : Fields := x.op.fields x.o.ty x.o.mod.val x.o.imm.val

/-! ### Atoms and linear forms (R324) -/

/-- A linear form over atoms, with a bound form as its constant. -/
structure Lin where
  const : BForm
  terms : List (Nat × Int)
deriving DecidableEq, Repr

def plusTerm (a : Nat) (c : Int) : List (Nat × Int) → List (Nat × Int)
  | [] => if c = 0 then [] else [(a, c)]
  | (b, d) :: r => if b = a then (if d + c = 0 then r else (b, d + c) :: r) else (b, d) :: plusTerm a c r

def Lin.add (g h : Lin) : Lin := ⟨BForm.add g.const h.const, g.terms.foldl (fun acc t => plusTerm t.1 t.2 acc) h.terms⟩
def Lin.scale (k : Int) (g : Lin) : Lin := ⟨BForm.scale k g.const, if k = 0 then [] else g.terms.map fun t => (t.1, k * t.2)⟩
def Lin.sub (g h : Lin) : Lin := Lin.add g (Lin.scale (-1) h)
def Lin.form (p : BForm) : Lin := ⟨p, []⟩
def Lin.int (z : Int) : Lin := ⟨BForm.const z, []⟩
def Lin.atom (a : Nat) : Lin := ⟨[], [(a, 1)]⟩

/-- A value made at one point of the walk: its bounds, a power of two that divides it, and how it was made (R324). -/
structure Atom where
  lo : BForm
  hi : BForm
  grain : Nat
  defn : Option Lin
deriving DecidableEq, Repr

/-- The greatest power of two up to 128 that divides an integer; 128 for 0. -/
def grainOf (z : Int) : Nat := 2 ^ (((List.range 8).reverse.find? fun n => decide (z % (2 ^ n : Int) = 0)).getD 0)

/-- The values that a type can hold. -/
def Ty.range (t : Ty) : Int × Int :=
  if t.signedInt then (-(2 : Int) ^ (t.width - 1), (2 : Int) ^ (t.width - 1) - 1) else (0, (2 : Int) ^ t.width - 1)

/-! ### What the walk reads throughout -/

/-- The header, the grants and the structure of the code, as the walk reads them. -/
structure Kern where
  /-- The kind of image that the code is for (R148, R271). -/
  image : Image
  names : Names
  width : Nat
  strands : Nat
  pair : Bool
  cls : Nat
  unbounded : Bool
  regs : Nat
  ver : Nat
  features : Nat
  tiles : Nat
  acls : Nat
  spad : Nat
  nmax : Nat
  grants : List Grant
  /-- Block offsets and types of the parameters (R354). -/
  params : List (Nat × Nat)
  annots : List Annot
  sites : List Site
  /-- The open levels at each instruction reached: the BRCs, outermost first (R323). -/
  levels : List (Nat × List Nat)
  /-- The registers written inside each level (R326). -/
  written : List (Nat × List Nat)
  /-- The strand width at each instruction reached; 0 where it is known only at run time (R75). -/
  widths : List (Nat × Nat)
  /-- The names bound to lock words, in text order (R329). -/
  locks : List (List Char × Nat × BForm)
  /-- The scratchpad offsets that the kernel's text gives for barrier words (R236). -/
  bars : List Nat

/-- Items of a flight (R26). -/
def Kern.flight (k : Kern) : Nat := max 1 (k.strands * k.width)

/-- The greatest value of a launch symbol (R324). -/
def Kern.greatest (k : Kern) : Nat → Int
  | 0 => k.nmax
  | 1 => ceilDiv k.nmax k.flight
  | _ => 2 ^ 32 - 1

/-- A bound form with every symbol at its greatest value. -/
def Kern.atMost (k : Kern) (p : BForm) : Int := (p.map fun x => x.2 * (x.1.map k.greatest).foldl (· * ·) 1).foldl (· + ·) 0

/-- The strand width at an instruction, where it is known (R75). -/
def Kern.knownWidth (k : Kern) (off : Nat) : Option Nat := match k.widths.lookup off with
  | some (w + 1) => some (w + 1)
  | _ => none

/-- The size of region `r` as a bound form (R315). -/
def Kern.size (k : Kern) (r : Nat) : BForm :=
  match k.grants[r]? with
  | none => []
  | some g =>
    let base := BForm.plus [] g.fix (BForm.plus [0] g.pitem (BForm.plus [1] g.pflt []))
    if g.param = 0xFFFF then base
    else match k.params.findIdx? fun p => decide (p = (g.param, Ty.n32.code)) with
      | some i => BForm.plus [i + 2] g.ppar base
      | none => base

def Kern.annot (k : Kern) (off : Nat) : Option Annot := k.annots.find? fun a => decide (a.off = off)

/-- The block that an instruction lies in: the nearest label at or before it. -/
def Kern.block (k : Kern) (off : Nat) : Nat := (k.annots.filter fun a => decide (a.off ≤ off)).foldl (fun m a => max m a.off) 0

/-! ### The state of the walk (R324) -/

/-- What is known of a register's contents (R317).  The value of a pointer is its offset in its region. -/
inductive Kind where
  | value (t : Ty)
  /-- What dispatch leaves in s7 to s63 and in the v registers: both n64 and n32 (R321). -/
  | either
  /-- With the comparison that it records: its code and two atoms (R326). -/
  | pred (cmp : Option (Nat × Nat × Nat))
  | ptr (r : Nat)
  | idx (lo hi : Nat)
  | lock (n : Nat)
  | ret (off : Nat)
  | bar (off : Nat)
  | param
deriving DecidableEq, Repr

/-- A register's kind, its atom and its class: 0 uniform, 1 affine, 2 neither (R320). -/
structure Know where
  kind : Kind
  atom : Nat
  cut : Nat
deriving DecidableEq, Repr

/-- The state between two instructions. -/
structure Walking where
  atoms : List Atom := []
  facts : List Lin := []
  /-- Registers by specifier code. -/
  regs : List (Nat × Know) := []
  held : List Nat := []
  counts : List Nat := [0, 0, 0, 0]
  /-- The LOCKs not yet resolved: the destination of each and its name's index (R329). -/
  pend : List (Nat × Nat) := []
  /-- Offsets that barrier instructions met so far have used, where they are known (R236). -/
  bars : List Nat := []
  bad : Option Rejection := none

/-- The kernel is rejected; an earlier rejection stands (R333). -/
def Kern.fail (k : Kern) (st : Walking) (r : Rejection) : Walking :=
  if st.bad.isSome then st else { st with bad := some { r with block := k.block r.offset } }

/-- A check of a site that must hold. -/
def Kern.need (k : Kern) (st : Walking) (ok : Bool) (r : Rejection) : Walking := if ok then st else k.fail st r

def Walking.atom (st : Walking) (a : Nat) : Atom := st.atoms.getD a ⟨[], [], 1, none⟩

/-- A new atom. -/
def Walking.fresh (st : Walking) (a : Atom) : Walking × Nat := ({ st with atoms := st.atoms ++ [a] }, st.atoms.length)

/-- A new atom that holds some value of a type. -/
def Walking.ofType (st : Walking) (t : Ty) : Walking × Nat :=
  st.fresh ⟨BForm.const (Ty.range t).1, BForm.const (Ty.range t).2, 1, none⟩

/-- A new atom equal to a form. -/
def Walking.exactly (st : Walking) (p : BForm) : Walking × Nat :=
  st.fresh ⟨p, p, (p.map fun x => grainOf x.2).foldl min 128, some (Lin.form p)⟩

def Walking.know (st : Walking) (code : Nat) : Option Know := st.regs.lookup code
def Walking.forget (st : Walking) (code : Nat) : Walking := { st with regs := st.regs.filter fun x => decide (x.1 ≠ code) }
def Walking.put (st : Walking) (code : Nat) (x : Know) : Walking := { st with regs := (code, x) :: (st.forget code).regs }

/-- The value of a register as a linear form: a pointer's offset is written out as LEA made it (R326). -/
def Walking.linOf (st : Walking) (y : Know) : Lin :=
  match y.kind with
  | .ptr _ | .lock _ => ((st.atom y.atom).defn).getD (Lin.atom y.atom)
  | _ => Lin.atom y.atom

/-- The form that an atom is known to equal: by its definition, or by bounds that agree. -/
def Walking.exact? (st : Walking) (a : Nat) : Option BForm :=
  let x := st.atom a
  match x.defn with
  | some ⟨p, []⟩ => some p
  | _ => if (BForm.sub x.hi x.lo).isEmpty then some x.lo else none

/-- The bounds of an atom: the form that it equals, where there is one. -/
def Walking.bounds (st : Walking) (a : Nat) : BForm × BForm :=
  match st.exact? a with
  | some p => (p, p)
  | none => ((st.atom a).lo, (st.atom a).hi)

/-! ### The prover (R325) -/

/-- One level of definitions put in place. -/
def Walking.expand1 (st : Walking) (g : Lin) : Lin :=
  g.terms.foldl (fun acc t => Lin.add acc (match (st.atom t.1).defn with
    | some d => Lin.scale t.2 d
    | none => ⟨[], [t]⟩)) ⟨g.const, []⟩

def Walking.expand (st : Walking) : Nat → Lin → Lin
  | 0, g => g
  | n + 1, g => st.expand n (st.expand1 g)

/-- A monomial once N and F are written as numbers at least 1. -/
def shiftMono (m : List Nat) : BForm := m.foldl (fun acc s => BForm.mul acc (if s < 2 then [([s], 1), ([], 1)] else [([s], 1)])) [([], 1)]

/-- No coefficient is negative once N and F are written as numbers at least 1. -/
def formNonneg (p : BForm) : Bool :=
  (p.foldl (fun acc x => BForm.add (BForm.scale x.2 (shiftMono x.1)) acc) []).all fun x => decide (0 ≤ x.2)

/-- The last steps of Nonneg (R325), on a form whose definitions are in place: each atom gives way to a bound. -/
def Walking.bounded (st : Walking) (g : Lin) : Bool :=
  formNonneg (g.terms.foldl (fun acc t =>
    let a := st.atom t.1
    BForm.add (BForm.scale t.2 (if 0 ≤ t.2 then a.lo else a.hi)) acc) g.const)

/-- Nonneg of R325. -/
def Walking.nonneg (st : Walking) (g : Lin) : Bool := st.bounded (st.expand 8 g)

/-- A fact proves a goal: with some atom negative in both, the combination without that atom is Nonneg (R325). -/
def Walking.follows (st : Walking) (g h : Lin) : Bool :=
  g.terms.any fun t => decide (t.2 < 0) && match h.terms.lookup t.1 with
    | some c => decide (c < 0) && st.nonneg (Lin.sub (Lin.scale (-c) g) (Lin.scale (-t.2) h))
    | none => false

/-- A form, and what it is with one level of definitions after another put in place. -/
def Walking.levels (st : Walking) : Nat → Lin → List Lin
  | 0, g => [g]
  | n + 1, g => let h := st.expand1 g; if h = g then [g] else g :: st.levels n h

/-- Prove of R325.  The atoms of a goal and of a fact are taken as they stand and with definitions put in place, up to 8 levels deep
(assumption 21). -/
def Walking.proves (st : Walking) (g : Lin) : Bool :=
  st.nonneg g || st.facts.any fun h => (st.levels 8 g).any fun g => (st.levels 8 h).any fun h => st.follows g h

/-- A fact; a seventeenth displaces the oldest (R324). -/
def Walking.fact (st : Walking) (h : Lin) : Walking := { st with facts := (h :: st.facts).take 16 }

/-- A relation places an atom at or below a form: its upper bound becomes the form, unless the bound it has is provably no greater
(R324, R326). -/
def Walking.below (st : Walking) (a : Nat) (p : BForm) : Walking :=
  let x := st.atom a
  if formNonneg (BForm.sub p x.hi) then st else { st with atoms := st.atoms.set a { x with hi := p } }

/-- The same for a lower bound. -/
def Walking.above (st : Walking) (a : Nat) (p : BForm) : Walking :=
  let x := st.atom a
  if formNonneg (BForm.sub x.lo p) then st else { st with atoms := st.atoms.set a { x with lo := p } }

/-- The atom that a linear form is. -/
def Lin.bare? (g : Lin) : Option Nat := match g.terms with
  | [(a, 1)] => if g.const = [] then some a else none
  | _ => none

/-- The bound form that a linear form is known to equal. -/
def Walking.form? (st : Walking) (g : Lin) : Option BForm :=
  if g.terms = [] then some g.const else g.bare?.bind st.exact?

/-- `g + c ≤ h` becomes known: a fact, and bounds of an atom on one side where the other side is a bound form (R324, R326, R328). -/
def Walking.learn (st : Walking) (g h : Lin) (c : Int) : Walking :=
  let st := st.fact (Lin.sub (Lin.sub h g) (Lin.int c))
  let st := match g.bare?, st.form? h with
    | some a, some p => st.below a (BForm.sub p (BForm.const c))
    | _, _ => st
  match h.bare?, st.form? g with
  | some a, some p => st.above a (BForm.add p (BForm.const c))
  | _, _ => st

/-- A comparison between two atoms becomes known (R182, R326). -/
def Walking.compare (st : Walking) (cc a b : Nat) : Walking :=
  let g := Lin.atom a
  let h := Lin.atom b
  match cc with
  | 0 => (st.learn g h 0).learn h g 0
  | 2 => st.learn g h 1
  | 3 => st.learn g h 0
  | 4 => st.learn h g 1
  | 5 => st.learn h g 0
  | _ => st

/-- The condition that holds where another does not. -/
def negateCc : Nat → Nat
  | 0 => 1
  | 1 => 0
  | 2 => 5
  | 3 => 4
  | 4 => 3
  | 5 => 2
  | n => n

/-! ### Type descriptors (R335) -/

/-- The constant term of a bound form. -/
def BForm.constant (p : BForm) : Int := (p.lookup []).getD 0

/-- A descriptor from its kind, its bits [6:4] and, for a pointer, the constant term of lo. -/
def Kind.desc (k : Kind) (bits : Nat) (lo : Int) : Nat :=
  let u := 16 * bits
  match k with
  | .value t => 1 + u + 256 * t.code
  | .either => 1 + u + 256 * Ty.n64.code
  | .pred _ => 2 + u
  | .ptr r => 3 + u + 65536 * r + 2 ^ 32 * (lo % 2 ^ 32).toNat
  | .idx lo hi => 4 + u + 2 ^ 32 * (lo + 65536 * hi)
  | .lock n => 5 + u + 65536 * n
  | .ret o => 6 + u + 2 ^ 32 * o
  | .bar o => 7 + u + 2 ^ 32 * o
  | .param => 8 + u

/-- Bits [6:4] of a class: UNI and CUT. -/
def cutBits (cut : Nat) : Nat := (if cut = 0 then 1 else 0) + 2 * cut

/-- The descriptor of what a register holds; 0 for a dead one. -/
def Walking.desc (st : Walking) (x : Option Know) : Nat := match x with
  | some y => Kind.desc y.kind (cutBits y.cut) (BForm.constant (st.atom y.atom).lo)
  | none => 0

/-- The descriptor of a type that is asked for: uniform only where that is asked too (assumption 21). -/
def Kind.wanted (k : Kind) (uni : Bool) : Nat := Kind.desc k (if uni then 1 else 0) 0

/-- Descriptors of a set of held locks and of four counts. -/
def heldDesc (ls : List Nat) : Nat := 9 + 2 ^ 32 * ((ls.eraseDups.map (2 ^ ·)).foldl (· + ·) 0)
def countDesc (cs : List Nat) : Nat := 10 + 2 ^ 32 * (cs.zipIdx.map fun x => x.1 * 256 ^ x.2).foldl (· + ·) 0

/-! ### Reading and writing (R318, R320, R322, R326) -/

def Kind.wide : Kind → Bool
  | .value t => t.wide
  | .ptr _ | .lock _ | .ret _ | .param => true
  | _ => false

/-- The width of a value in its register: R88 extends a narrow integer to 32 bits (assumption 21). -/
def heldWidth (u : Ty) : Nat := if u.isInt then max 32 u.width else u.width

/-- A register of the kind may be read at the type (R318): value types of one width are compatible, a scalar of 32 bits may be read at
64, and a pointer or a return address at n64. -/
def Kind.readsAs (k : Kind) (scalar : Bool) (t : Ty) : Bool :=
  match k with
  | .value u => t ≠ .ptr &&
    (u.width = t.width || heldWidth u = t.width || (t = .pred && heldWidth u = 32) || (scalar && heldWidth u = 32 && t.width = 64))
  | .either => t ≠ .ptr && (t = .pred || 32 ≤ t.width)
  | .ptr _ | .lock _ | .param => t.width = 64
  | .ret _ => t.width = 64 && t ≠ .ptr
  | .bar _ => t.width = 32
  | .pred _ | .idx _ _ => false

/-- Instructions that read a source as bits of no type: its being 0 or its form (R165, R166, R172). -/
def Op.untyped : Op → Bool
  | .bru | .vote | .formof => true
  | _ => false

/-- Instructions whose predicate sources are read as predicates, at any TY (R166, R167, R172, R177, R181). -/
def Op.readsPred : Op → Bool
  | .bru | .brc | .vote | .formof | .plog | .sel | .mov => true
  | _ => false

def constKnow (st : Walking) (t : Ty) (z : Int) : Walking × Know :=
  let (st, a) := st.exactly (BForm.const z)
  (st, ⟨.value t, a, 0⟩)

/-- A value of a type that nothing more is known of. -/
def someKnow (st : Walking) (t : Ty) (cut : Nat) : Walking × Know :=
  let (st, a) := st.ofType t
  (st, ⟨.value t, a, cut⟩)

/-- A rejection that concerns the register of a field. -/
def Site.rejectAt (x : Site) (fam num field : Nat) : Rejection :=
  { x.reject fam num field with spec := ([x.o.d, x.o.a, x.o.b, x.o.c].getD field .zero).code }

/-- An index register's window holds the offset (R317, R327). -/
def Kern.reached (k : Kern) (st : Walking) (x : Site) (field : Nat) (n o : Nat) : Walking :=
  match st.know (256 + n) with
  | none => k.fail st { x.rejectAt 2 1 field with expect := Kind.wanted (.idx o (o + 1)) false }
  | some w => k.need st (match w.kind with
      | .idx lo hi => decide (lo ≤ o ∧ o < hi)
      | _ => false) { x.rejectAt 3 3 field with expect := Kind.wanted (.idx o (o + 1)) false, found := st.desc (some w) }

/-- The element width that STRM gives a queue, where the kernel gives it one, is the width of the operand (R71).  A kernel that fills a
queue at both widths or never gives no width to compare: the pop's own check is then at run time (assumption 21). -/
def Kern.queueFits (k : Kern) (q : Nat) (wide : Bool) : Bool :=
  ((k.sites.filter fun x => x.op = .strm ∧ x.o.imm.val % 4 = q).map fun x => decide (x.o.mod.val % 2 = 1)).all fun w => w = wide

/-- One register read at a type (R318). -/
def Kern.readReg (k : Kern) (st : Walking) (x : Site) (field code : Nat) (lt : Ty) : Walking × Know :=
  let bad (num : Nat) (found : Option Know) : Rejection :=
    { x.reject 2 num field with
        spec := code
        expect := Kind.wanted (if lt = .ptr then .ptr 0 else .value lt) false
        found := st.desc found }
  match st.know code with
  | none => someKnow (k.fail st (bad 1 none)) lt 0
  | some y =>
    let ok := Kind.readsAs y.kind (decide (128 ≤ code)) lt || (Op.untyped x.op && match y.kind with
      | .value _ | .either | .bar _ | .ptr _ | .lock _ | .ret _ | .param => true
      | _ => false)
    (k.need st ok (bad 2 (some y)), y)

/-- Reads a source (R318): what is known of its value, at the type of its field. -/
def Kern.read (k : Kern) (st : Walking) (x : Site) (field : Nat) (f : Field) (sp : Spec) : Walking × Know :=
  match f with
  | .unused => constKnow st .i32 0
  | .uses _ wide lt =>
    let bad (num : Nat) (found : Option Know) : Rejection :=
      { x.rejectAt 2 num field with
          expect := Kind.wanted (if lt = .ptr then .ptr 0 else .value lt) false
          found := st.desc found }
    match sp with
    | .zero => constKnow (k.need st (lt ≠ .ptr) (bad 2 none)) lt 0
    | .lit => constKnow (k.need st (lt ≠ .ptr) (bad 4 none)) lt (if lt.signedInt then x.o.lit.toInt else x.o.lit.toNat)
    | .q n => someKnow (k.need st (k.queueFits n wide) (bad 8 none)) lt 2
    | .x n => match st.know (256 + n) with
      | none => someKnow (k.fail st (bad 1 none)) lt 2
      | some y => someKnow (k.need st (lt.width = 32 || Op.untyped x.op) (bad 2 (some y))) lt y.cut
    | .p n =>
      let (st, a) := st.fresh ⟨if n.val = 7 then BForm.const 1 else [], BForm.const 1, 1, none⟩
      if n.val = 7 then (st, ⟨.pred none, a, 0⟩)
      else match st.know (272 + n) with
        | none => someKnow (k.fail st (bad 1 none)) lt 2
        | some y => (k.need st (Op.readsPred x.op || lt.width = 32) (bad 2 (some y)), { y with atom := a })
    | .ind n o => someKnow (k.reached st x field n o) lt 2
    | .v n => k.readReg st x field n lt
    | .s n => k.readReg st x field (128 + n) lt

/-- A guard's class; p7 is uniform. -/
def Kern.guard (k : Kern) (st : Walking) (x : Site) : Walking × Nat :=
  if x.o.pi.val = 7 then (st, 0)
  else match st.know (272 + x.o.pi) with
    | none => (k.fail st { x.reject 2 1 4 with spec := 272 + x.o.pi, expect := Kind.wanted (.pred none) false }, 2)
    | some y => (st, y.cut)

/-- What a guarded write leaves in a register: a value of the type, a pointer into the same region, or nothing of any type
(assumption 21). -/
def Walking.mixed (st : Walking) (old : Option Know) (y : Know) : Option (Walking × Know) :=
  match y.kind, old.map Know.kind with
  | .value t, _ => let (st, a) := st.ofType t; some (st, { y with atom := a })
  | .either, _ => let (st, a) := st.ofType .n32; some (st, ⟨.value .n32, a, y.cut⟩)
  | .ptr r, some (.ptr q) =>
    if q = r then let (st, a) := st.ofType .i64; some (st, { y with atom := a }) else none
  | z, some w => if z = w ∧ z ≠ .bar 0 then some (st, y) else none
  | _, none => none

/-- Writes a register at its specifier code, under a guard other than p7 when `partly`. -/
def Walking.assign (st : Walking) (code : Nat) (partly : Bool) (y : Know) : Walking :=
  if !partly then st.put code y
  else match st.mixed (st.know code) y with
    | some (st, z) => st.put code z
    | none => st.forget code

/-- Writes a destination.  `den`: a level of class den is open; `guard`: the guard's class (R326). -/
def Kern.write (k : Kern) (st : Walking) (x : Site) (den : Bool) (guard : Nat) (wide : Bool) (y : Know) : Walking :=
  let partly := decide (x.o.pi.val ≠ 7)
  -- a result under a guard is uniform only with the guard, and never affine (R35)
  let cut := if !partly || (guard = 0 && y.cut = 0) then y.cut else 2
  -- a predicate read as a value is n32, and affine no longer (R70)
  let value : Know := { y with
    kind := match y.kind with
      | .pred _ => .value .n32
      | z => z
    cut := match y.kind with
      | .pred _ => if cut = 0 then 0 else 2
      | _ => cut }
  let reject (num : Nat) : Rejection :=
    { x.rejectAt 6 num 0 with expect := Kind.wanted value.kind true, found := st.desc (some value) }
  match x.o.d with
  | .v n =>
    let st := if wide then st.forget (n + 1) else st
    let st := if n.val % 2 = 1 then (match st.know (n - 1) with
      | some z => if z.kind.wide then st.forget (n - 1)
          else if z.kind = .either then st.put (n - 1) { z with kind := .value .n32 } else st
      | none => st) else st
    st.assign n partly value
  | .s n =>
    let st := if den then k.fail st (reject 3) else k.need st (value.cut = 0) (reject 2)
    st.assign (128 + n) partly { value with cut := 0 }
  | .p n =>
    if n.val = 7 then st
    else
      let cmp := match y.kind with
        | .pred c => if partly then none else c
        | _ => none
      st.put (272 + n) { y with kind := .pred cmp, cut := cut }
  | .ind n o =>
    let st := k.reached st x 0 n o
    let st := { st with regs := st.regs.filter fun z => decide (128 ≤ z.1) || match z.2.kind with
      | .value _ | .either => true
      | _ => false }
    let vs := st.regs.filter fun z => decide (z.1 < 128)
    vs.foldl (fun st z =>
      let t := match z.2.kind with
        | .value t => t
        | _ => .n32
      let (st, a) := st.ofType t
      st.put z.1 ⟨.value t, a, 2⟩) st
  | _ => st

/-! ### Goals (R327) -/

/-- The goals of an access or a range of `len` bytes at offset `o`: `o ≥ 0`, `o + len ≤ size`, and the grain of the address.  `own` is
the same offset by the bounds that checks gave the pointer itself (R328). -/
def Kern.goals (k : Kern) (st : Walking) (r : Rejection) (size : BForm) (o own len : Lin) (grain have_ : Nat) : Walking :=
  let room (o : Lin) : Lin := Lin.sub (Lin.sub (Lin.form size) o) len
  k.need st ((st.proves o || st.bounded own) && (st.proves (room o) || st.bounded (room own)) && decide (grain ≤ have_)) r

/-- An access through a pointer; `rights` is 1 to read, 2 to write, 3 for both. -/
def Kern.access (k : Kern) (st : Walking) (x : Site) (field num : Nat) (y : Know) (c : Int) (len : Lin) (grain rights : Nat) : Walking :=
  let go (r : Nat) : Walking :=
    let have_ := match k.grants[r]? with
      | some g => g.rights
      | none => 0
    let st := k.need st (have_ &&& rights = rights) { x.rejectAt 2 5 field with found := st.desc (some y) }
    k.goals st { x.rejectAt 3 num field with found := st.desc (some y) } (k.size r)
      (Lin.add (st.linOf y) (Lin.int c)) (Lin.add (Lin.atom y.atom) (Lin.int c)) len grain (min (st.atom y.atom).grain (grainOf c))
  match y.kind with
  | .ptr r => go r
  | .lock n => match k.locks[n]? with
    | some l => go l.2.1
    | none => st
  | .param => k.need st (rights = 1) { x.rejectAt 2 5 field with found := st.desc (some y) }
  | _ => st

/-- The offset in scratchpad that an access is known to reach. -/
def Walking.place? (st : Walking) (y : Know) (c : Int) : Option Int :=
  ((st.exact? y.atom).bind BForm.int?).map fun z => z + c

/-- An access to the scratchpad; `bar` says that the instruction may reach a barrier word.  A word is one where the kernel's text
types its offset so or a barrier instruction names it, and an access reaches it where its place is known (R236; assumption 21). -/
def Kern.spadAccess (k : Kern) (st : Walking) (x : Site) (field num : Nat) (y : Know) (c : Int) (len : Lin) (grain : Nat) (bar : Bool) :
    Walking :=
  let sure := k.atMost (len.terms.foldl (fun acc t => BForm.add acc (BForm.scale t.2 (st.atom t.1).lo)) len.const)
  let clear := match st.place? y c with
    | some z => !((k.bars ++ st.bars).any fun b => decide ((z : Int) < b + 8 ∧ (b : Int) < z + sure))
    | none => true
  let st := k.need st (bar || clear) { x.rejectAt 2 5 field with found := st.desc (some y) }
  let o := Lin.add (Lin.atom y.atom) (Lin.int c)
  k.goals st { x.rejectAt 3 num field with found := st.desc (some y) } (BForm.const k.spad) o o len
    grain (min (st.atom y.atom).grain (grainOf c))

end Sys2Proof.Machine
end

