-- ==== Sys2Proof/Machine/Transfer.lean ====
section
/-!
DEFINITION. What each instruction does to the state of the walk: its sources, its goals, its result (R178, R224 to R242, R246, R248,
R271, R274, R278, R320, R326 to R331).
-/
namespace Sys2Proof.Machine

/-! ### Results (R320, R326) -/

/-- Results that every item receives alike (R172, R207, R233, R271, R286). -/
def Op.givesUni : Op → Bool
  | .vote | .redu | .formof | .split | .fuse | .lock | .unlock | .bari | .barv | .barn | .barw | .waitv | .waitc | .gang | .fblk | .amap
  | .cmpr | .zmod | .cpy | .cpyp | .cpyk | .coll | .cstat | .cnt | .cancel | .strm | .strx | .csrr | .time | .call => true
  | _ => false

/-- Results that differ from item to item whatever the sources (R162, R208, R213, R228). -/
def Op.givesDen : Op → Bool
  | .elect | .atom | .atoms | .cas | .scan | .zntt | .zintt => true
  | _ => false

/-- Fields whose values must be uniform: 1 A, 2 B, 3 C (R166, R211, R229, R237, R238, R246, R271). -/
def Site.uniFields (x : Site) : List Nat :=
  match x.op with
  | .bru | .ret | .zmod | .lock | .unlock | .barv => [1]
  | .bari | .barn | .barw => [1, 2]
  | .cstat | .cancel => match x.o.a with
    | .v _ => []
    | _ => [1]
  | op => if 0x30 ≤ op.maj then [1, 2, 3] else []

/-- The type of a result (R186, R199, R326). -/
def Site.resultTy (x : Site) : Ty :=
  match x.op, x.fields.d with
  | _, .unused => .n32
  | .icvt, _ | .fftoi, _ => (iTarget (x.o.mod.val % 16)).getD .i32
  | _, .uses _ w t => if w = t.wide then t else if w then .n64 else .n32

/-- Whether a result stays affine on affine and uniform sources (R35, R320). -/
def Site.keepsAff (x : Site) (a b : Know) : Bool :=
  let word : Bool := x.o.ty = .i32 || x.o.ty = .n32
  x.o.perm = .none && match x.op with
    | .mov => match a.kind with
      | .value t => t = .i32 || t = .n32
      | .either => true
      | _ => false
    | .iadd | .isub => word && x.o.mod.val % 2 = 0
    | .shl => word && x.o.mod.val % 2 = 0 && b.cut = 0
    | .imul => word && x.o.mod.val % 2 = 0
    | _ => false

/-- The class of a result (R320, R326). -/
def Site.resultCut (x : Site) (den : Bool) (guard : Nat) (a b c : Know) : Nat :=
  if Op.givesUni x.op then (if guard = 0 then 0 else 2)
  else if Op.givesDen x.op || den || guard ≠ 0 || (x.op = .qcvt && x.o.mod.val / 32 = 2) then 2
  else if a.cut = 0 ∧ b.cut = 0 ∧ c.cut = 0 then 0
  else match x.op with
    | .perm => if b.cut = 0 then 0 else 2
    | .icmp =>
      if (x.o.ty = .i32 ∨ x.o.ty = .n32) ∧ 2 ≤ x.o.mod.val % 8 ∧ a.cut + b.cut = 1 then 1 else 2
    | .plog => if x.o.imm.val % 256 = 0x0F ∧ a.cut = 1 ∧ x.o.b = .zero ∧ x.o.c = .zero then 1 else 2
    | .imul => if x.keepsAff a b ∧ a.cut + b.cut = 1 then 1 else 2
    | _ => if x.keepsAff a b ∧ a.cut ≤ 1 ∧ b.cut ≤ 1 then 1 else 2

/-- A linear combination as an atom: with its definition where it cannot leave the range, else any value of the type (R324). -/
def Kern.combine (k : Kern) (st : Walking) (t : Ty) (range : Int × Int) (grain : Nat) (g : Lin) : Walking × Nat :=
  let bound (low : Bool) : BForm := g.terms.foldl (fun acc y =>
    let a := st.atom y.1
    BForm.add (BForm.scale y.2 (if decide (0 ≤ y.2) = low then a.lo else a.hi)) acc) g.const
  if range.1 ≤ k.atMost (bound true) ∧ k.atMost (bound false) ≤ range.2 then st.fresh ⟨bound true, bound false, grain, some g⟩
  else st.fresh ⟨BForm.const (Ty.range t).1, BForm.const (Ty.range t).2, grain, none⟩

/-- The integer that an atom is known to be. -/
def Walking.const? (st : Walking) (a : Nat) : Option Int := (st.exact? a).bind BForm.int?

/-- The lower bound of an atom is not negative. -/
def Walking.atLeast0 (st : Walking) (a : Nat) : Bool := formNonneg (st.atom a).lo

/-- The atom of an arithmetic result; its grain is the least of the terms' grains times their factors (R326). -/
def Kern.arith (k : Kern) (st : Walking) (x : Site) (a b : Nat) : Walking × Nat :=
  let t := x.resultTy
  let ga := (st.atom a).grain
  let gb := (st.atom b).grain
  let lin (grain : Nat) (g : Lin) : Walking × Nat := k.combine st t (Ty.range t) (min 128 grain) g
  if x.o.mod.val % 2 = 1 then st.ofType t
  else match x.op with
    | .iadd => lin (min ga gb) (Lin.add (Lin.atom a) (Lin.atom b))
    | .isub => lin (min ga gb) (Lin.sub (Lin.atom a) (Lin.atom b))
    | .shl => match st.const? b with
      | some z => lin (ga * 2 ^ (z.toNat % t.width)) (Lin.scale (2 ^ (z.toNat % t.width)) (Lin.atom a))
      | none => st.ofType t
    | .imul => match st.const? a, st.const? b with
      | _, some z => lin (ga * grainOf z) (Lin.scale z (Lin.atom a))
      | some z, none => lin (gb * grainOf z) (Lin.scale z (Lin.atom b))
      | none, none =>
        let hi := BForm.mul (st.bounds a).2 (st.bounds b).2
        if st.atLeast0 a && st.atLeast0 b && BForm.degree hi ≤ 2 then
          st.fresh ⟨BForm.mul (st.bounds a).1 (st.bounds b).1, hi, 1, none⟩
        else st.ofType t
    | _ => st.ofType t

/-! ### Goals of the instructions -/

/-- The bytes that a memory operand of the type moves. -/
def tyLen (t : Ty) : Lin := Lin.int t.bytes

/-- The class of tiles that an instruction's type takes (R76, R248, R259). -/
def Site.tileFits (x : Site) (acls : Nat) : Bool :=
  match x.op with
  | .mma | .mmas | .zmma => acls = match x.o.ty with
    | .f16 | .bf16 => 1
    | .f32 => 2
    | .f64 => 3
    | .z64 => 4
    | _ => 0
  | .ald | .ast | .ascl | .adrain => match x.o.ty with
    | .i32 => acls = 0
    | .f32 => acls ≤ 2
    | .f64 => acls = 3
    | _ => acls = 4
  | _ => true

/-- The goals of an instruction whose sources are known (R219 to R227, R236 to R238, R253, R255, R267, R274, R277, R278, R327). -/
def Kern.goalsOf (k : Kern) (st : Walking) (x : Site) (a b c : Know) : Walking :=
  let off := signed 16 x.o.imm.val
  let n := x.o.ty.bytes
  let m := x.o.mod.val
  let side (sp field : Nat) (y : Know) (len : Lin) (grain rights : Nat) : Walking → Walking := fun st =>
    if sp = 1 then k.spadAccess st x field 4 y 0 len grain false else k.access st x field 4 y 0 len grain rights
  let range (y : Know) (low high : Int) (st : Walking) : Walking := match st.const? y.atom with
    | some z => k.need st (decide (low ≤ z ∧ z ≤ high)) (x.reject 3 5 2)
    | none => st
  let st := k.need st (x.tileFits k.acls) (x.reject 2 6 6)
  match x.op with
  | .ld => k.access st x 1 1 a off (tyLen x.o.ty) n 1
  | .ldp => k.access st x 1 1 a off (Lin.int (4 * ldpCount m)) 4 1
  | .st => k.access st x 1 1 a off (tyLen x.o.ty) n 2
  | .stp => k.access st x 1 1 a off (Lin.int (4 * ldpCount m)) 4 2
  | .pref => k.access st x 1 1 a off (Lin.int 1) 1 1
  | .atom => k.access st x 1 1 a 0 (tyLen x.o.ty) n 3
  | .cas => if m / 64 = 1 then k.spadAccess st x 1 2 a 0 (tyLen x.o.ty) n false else k.access st x 1 1 a 0 (tyLen x.o.ty) n 3
  | .waitv => k.access st x 1 1 a 0 (tyLen x.o.ty) n 1
  | .cmaint => k.access st x 1 4 a 0 (Lin.atom b.atom) 1 1
  | .lds => k.spadAccess st x 1 2 a off (tyLen x.o.ty) n true
  | .sts => k.spadAccess st x 1 2 a off (tyLen x.o.ty) n false
  | .atoms => k.spadAccess st x 1 2 a 0 (tyLen x.o.ty) n false
  | .bari => range b 1 (2 ^ 24 - 1) (k.spadAccess st x 1 2 a 0 (Lin.int 8) 8 true)
  | .barn => range b 0 (2 ^ 24 - 1) (k.spadAccess st x 1 2 a 0 (Lin.int 8) 8 true)
  | .barv | .barw => k.spadAccess st x 1 2 a 0 (Lin.int 8) 8 true
  | .fblk => k.spadAccess st x 1 2 a 0 (Lin.int 64) 64 false
  | .amap => k.spadAccess st x 1 2 a 0 (Lin.int 16) 16 false
  | .cpyp => k.spadAccess st x 1 2 a 0 (Lin.int 32) 32 false
  | .strm => k.spadAccess st x 1 2 a 0 (Lin.int 48) 48 false
  | .cpy => side (m / 4 % 4) 2 b (Lin.atom c.atom) 1 1 (side (m % 4) 1 a (Lin.atom c.atom) 1 2 st)
  | .cpyk =>
    let len := Lin.int (16 * x.o.imm.val)
    side (m / 4 % 4) 2 b len 16 1 (side (m % 4) 1 a len 16 2 st)
  | .adrain =>
    if m % 2 = 0 then st
    else
      let e := x.o.ty.bytes
      let (tm, tn) := tileDims k.acls
      -- rows and columns beyond the tile are not written; where C is not known, the whole tile may be (R267)
      let (rows, cols) := match st.const? c.atom with
        | some w => (min (w.toNat % 65536) tm, min (w.toNat / 65536 % 65536) tn)
        | none => (tm, tn)
      let len := if rows = 0 ∨ cols = 0 then Lin.int 0 else Lin.add (Lin.scale ((rows : Int) - 1) (Lin.atom b.atom)) (Lin.int (cols * e))
      k.access st x 1 4 a 0 len e 2
  | _ => st

/-! ### Transfer (R326, R328, R330, R331) -/

/-- The counter class that an instruction raises at issue (R72, R330). -/
def Op.issues : Op → Option Nat
  | .cpy | .cpyp | .cpyk => some 0
  | .mma | .mmas | .zmma | .adrain => some 1
  | .coll => some 2
  | .strm => some 3
  | _ => none

/-- The bounds of the counters after an instruction (R330). -/
def countsAfter (x : Site) (cs : List Nat) : List Nat :=
  match Op.issues x.op with
  | some n => cs.set n (min 63 (cs.getD n 0 + 1))
  | none => match x.op with
    | .waitc => let n := x.o.imm.val % 4; cs.set n (min (cs.getD n 0) (x.o.imm.val / 4 % 64))
    | .fuse => [0, 0, 0, 0]
    | _ => cs

/-- A load through the parameter pointer (R316, R326). -/
def Kern.paramLoad (k : Kern) (st : Walking) (x : Site) : Walking × Know :=
  let off := x.o.imm.val
  let ptrs := (k.params.filter fun p => decide (p.2 = Ty.ptr.code))
  if x.o.ty = .ptr then match ptrs.findIdx? fun p => decide (p.1 = off) with
    | some r =>
      let (st, a) := st.exactly []
      (st, ⟨.ptr r, a, 0⟩)
    | none => someKnow (k.fail st (x.reject 2 4 8)) .n64 0
  else match k.params.findIdx? fun p => decide (p = (off, Ty.n32.code)) with
    | some i =>
      if x.o.ty = .n32 then
        let (st, a) := st.exactly (BForm.sym (i + 2))
        (st, ⟨.value .n32, a, 0⟩)
      else someKnow st x.resultTy 0
    | none => someKnow st x.resultTy 0

/-- What an instruction gives its destination, from what is known of its sources. -/
def Kern.result (k : Kern) (st : Walking) (x : Site) (den : Bool) (guard : Nat) (a b c : Know) : Walking × Know :=
  let cut := x.resultCut den guard a b c
  let t := x.resultTy
  let plain := someKnow st t cut
  match x.op with
  | .movi => let (st, y) := constKnow st t (if t.signedInt then signed 16 x.o.imm.val else x.o.imm.val); (st, { y with cut := cut })
  | .mov =>
    if x.o.ty = .ptr then match a.kind with
      | .ptr _ | .lock _ | .param | .ret _ => (st, { a with cut := cut })
      | _ => someKnow (k.fail st (x.reject 2 4 1)) .n64 cut
    else if x.o.perm ≠ .none then plain
    else match a.kind with
      -- the source's atom and type; a scalar of 32 bits moved at 64 takes the type of the instruction (R318)
      | .value u => (st, ⟨.value (if u.width = t.width ∨ t = .pred then u else t), a.atom, cut⟩)
      | .either => (st, ⟨.value (if t.width = 64 then .n64 else if t.width = 32 then .n32 else t), a.atom, cut⟩)
      | .bar _ | .ret _ | .pred _ | .ptr _ | .lock _ | .param => (st, { a with cut := cut })
      | .idx _ _ => plain
  | .iadd | .isub | .shl | .imul =>
    if x.o.perm ≠ .none then plain
    else
      let (st, z) := k.arith st x a.atom b.atom
      (st, ⟨.value t, z, cut⟩)
  | .idx =>
    let n := match k.knownWidth x.off with
      | some w => if x.o.mod.val % 2 = 1 then (w : Int) - 1 else 2 ^ 32 - 1
      | none => 2 ^ 32 - 1
    let (st, z) := st.fresh ⟨[], BForm.const n, 1, none⟩
    (st, ⟨.value .n32, z, if den ∨ guard ≠ 0 then 2 else 1⟩)
  | .lea =>
    let go (r : Nat) : Walking × Know :=
      let f := 2 ^ (x.o.mod.val % 8)
      let (st, z) := k.combine st .i64 (-(2 : Int) ^ 63, (2 : Int) ^ 63 - 1)
        (min (st.atom a.atom).grain (min 128 ((st.atom b.atom).grain * f))) (Lin.add (st.linOf a) (Lin.scale f (Lin.atom b.atom)))
      (st, ⟨.ptr r, z, cut⟩)
    match a.kind with
    | .ptr r => go r
    | .lock n => go (((k.locks[n]?).map fun l => l.2.1).getD 0)
    | _ => someKnow (k.fail st (x.reject 2 4 1)) .n64 cut
  | .ld => match a.kind with
    | .param => k.paramLoad st x
    | _ => if x.o.ty = .ptr then someKnow (k.fail st (x.reject 2 4 6)) .n64 cut else plain
  | .icmp => match x.o.d with
    | .p _ => (st, ⟨.pred (if x.o.perm = .none then some (x.o.mod.val % 8, a.atom, b.atom) else none), a.atom, cut⟩)
    | _ =>
      let (st, z) := st.fresh ⟨[], BForm.const 1, 1, none⟩
      (st, ⟨.value t, z, if cut = 0 then 0 else 2⟩)
  | .call =>
    let (st, z) := st.ofType .n64
    (st, ⟨.ret x.next, z, 0⟩)
  | _ => if t = .ptr then someKnow (k.fail st (x.reject 2 4 6)) .n64 cut else plain

/-- Checks and windows (R224, R225, R328). -/
def Kern.checked (k : Kern) (st : Walking) (x : Site) (a b c : Know) : Walking :=
  let all := decide (x.o.pi.val = 7) && x.o.perm = .none
  match x.op with
  | .chkb =>
    let same := x.o.ty ≠ .ptr || match a.kind, b.kind, c.kind with
      | .ptr r, .ptr s, .ptr t => decide (r = s ∧ r = t)
      | _, _, _ => false
    if all && same then
      let w : Int := x.o.imm.val
      let st := (st.learn (st.linOf b) (st.linOf a) 0).learn (st.linOf a) (st.linOf c) w
      -- at TY ptr the checked pointer has the bounds itself (R328)
      let st := match st.form? (st.linOf b) with
        | some p => st.above a.atom p
        | none => st
      match st.form? (st.linOf c) with
      | some p => st.below a.atom (BForm.sub p (BForm.const w))
      | none => st
    else st
  | .chkx => match x.o.a with
    | .x n => match st.know (256 + n) with
      | some y => if all then st.put (256 + n) { y with kind := .idx 0 x.o.imm.val } else st
      | none => st
    | _ => st
  | .xset => match x.o.d with
    | .x n =>
      let kind : Kind := match st.const? a.atom, st.const? b.atom with
        | some lo, some hi =>
          if all ∧ a.cut = 0 ∧ b.cut = 0 ∧ 0 ≤ lo ∧ lo ≤ 127 ∧ hi ≤ 128 ∧ lo ≤ hi ∧ hi ≤ k.regs then .idx 0 (hi - lo).toNat else .idx 0 0
        | _, _ => .idx 0 0
      st.put (256 + n) ⟨kind, 0, if a.cut = 0 ∧ b.cut = 0 ∧ all then 0 else 2⟩
    | _ => st
  | _ => st

/-- Registers of a run after the one named hold values too (R173, R221). -/
def Kern.readRun (k : Kern) (st : Walking) (x : Site) : Walking :=
  match x.o.b with
  | .v n => (List.range (Op.run x.op x.o.mod.val .stp + Op.run x.op x.o.mod.val .reord)).foldl (fun st i =>
      (k.readReg st x 2 (n + 1 + i) .n32).1) st
  | _ => st

/-- A source of the instruction: typed, compatible, and uniform where that is required (R323). -/
def Kern.source (k : Kern) (st : Walking) (x : Site) (field : Nat) (f : Field) (sp : Spec) : Walking × Know :=
  let (st, y) := k.read st x field f sp
  (k.need st (!(x.uniFields.contains field) || y.cut = 0)
    { x.rejectAt 6 1 field with expect := Kind.wanted y.kind true, found := st.desc (some y) }, y)

/-- Offsets of barrier words that barrier instructions name are kept (R236). -/
def Walking.barrier (st : Walking) (x : Site) (a : Know) : Walking :=
  match x.op, st.place? a 0 with
  | .bari, some z | .barv, some z | .barn, some z | .barw, some z => { st with bars := z.toNat :: st.bars }
  | _, _ => st

/-- The state after an instruction, and what its source A was. -/
def Kern.transfer (k : Kern) (st : Walking) (x : Site) (den : Bool) : Walking × Know :=
  let fs := x.fields
  let (st, g) := k.guard st x
  let (st, a) := k.source st x 1 fs.a x.o.a
  let (st, b) := k.source st x 2 fs.b x.o.b
  let st := k.readRun st x
  let (st, c) := k.source st x 3 fs.c x.o.c
  let st := match x.op, a.kind with
    | .ret, .ret _ => st
    | .ret, _ => k.fail st { x.rejectAt 2 2 1 with expect := 6, found := st.desc (some a) }
    | _, _ => st
  let st := (k.goalsOf st x a b c).barrier x a
  let st := k.checked st x a b c
  let (st, y) := k.result st x den g a b c
  let wide := fieldWide fs.d
  let st := match fs.d with
    | .unused => st
    | .uses _ _ _ => if x.op = Op.xset then st else if x.op = Op.ldp then match x.o.d with
        | .v n => (List.range (ldpCount x.o.mod.val)).foldl (fun st i =>
            let (st, z) := st.ofType .n32
            let st := match st.know (n + i - 1) with
              | some w => if w.kind.wide ∧ (n + i) % 2 = 1 then st.forget (n + i - 1) else st
              | none => st
            st.assign (n + i) (decide (x.o.pi.val ≠ 7)) ⟨.value .n32, z, if x.o.pi.val = 7 ∨ (g = 0 ∧ y.cut = 0) then y.cut else 2⟩) st
        | _ => st
      else k.write st x den g wide y
  ({ st with counts := countsAfter x st.counts }, a)

end Sys2Proof.Machine
end

