-- ==== Sys2Proof/Machine/Typing.lean ====
section
/-!
DEFINITION. The Arbiter's two passes over the code: levels and targets, then the walk with its edges (R36, R73, R145, R148, R232, R286,
R321 to R323, R329 to R332, R344 to R346).
-/
namespace Sys2Proof.Machine

/-! ### Structure pass (R321, R323, R331) -/

/-- How control leaves an instruction: 0 by falling through, 1 by a branch or a return, 2 to a continuation, 3 to a return point. -/
abbrev Leaving := Nat

/-- The successors of an instruction at a depth (R331).  `rets` gives the labels that RETs return to.  A return point is named by its
CALL, and entered by RET alone. -/
def Site.succ (x : Site) (rets : List (Nat × Nat)) (depth : Nat) : List (Int × Leaving) :=
  match x.op with
  | .ret => ((rets.lookup x.off).map fun l => ((l : Int), 1)).toList
  | .trap => []
  | .bra => [(x.target, 1)]
  | .call => [(x.target, 1), (x.next, 3)]
  | .bru | .brc => [(x.target, 1), (x.next, 0)]
  | .yieldc | .reord => [(x.target, 2)]
  | .exit => if depth = 0 ∧ x.o.pi.val = 7 ∧ x.o.pn = false then [] else [(x.next, 0)]
  | _ => [(x.next, 0)]

/-- The edges among them. -/
def Site.edges (x : Site) (rets : List (Nat × Nat)) (depth : Nat) : List (Int × Leaving) :=
  (x.succ rets depth).filter fun e => decide (e.2 ≠ 3)

/-- ADM-CFG-01 and ADM-CFG-02 for one instruction. -/
def Site.flow (x : Site) (starts : List Nat) (labels : List Nat) : Option Rejection :=
  (x.succ [] 0).findSome? fun e =>
    if e.2 = 0 then none
    else if e.2 ≠ 3 ∧ !(starts.any fun s => decide ((s : Int) = e.1)) then some { x.reject 5 1 8 with target := e.1.toNat }
    else if !(labels.any fun s => decide ((s : Int) = e.1)) then
      some { x.reject 5 2 (if e.2 = 3 then 0xFF else 8) with target := e.1.toNat }
    else none

/-- The labels that the RETs of a block return to: a return address stands in a register by the block's annotation or by a MOV of one
that does (R317, R326, R331). -/
def retsIn : List Site → List (Nat × Nat) → List (Nat × Nat)
  | [], _ => []
  | x :: xs, held =>
    match x.op with
    | .ret => ((held.lookup x.o.a.code).map fun l => (x.off, l)).toList ++ retsIn xs held
    | .mov => retsIn xs (match held.lookup x.o.a.code with
        | some l => (x.o.d.code, l) :: held
        | none => held.filter fun y => decide (y.1 ≠ x.o.d.code))
    | _ => retsIn xs (match x.fields.d with
        | .unused => held
        | .uses _ _ _ => held.filter fun y => decide (y.1 ≠ x.o.d.code))

/-- The word offset of a label. -/
def labelOff (as : List Annot) (l : List Char) : Nat := ((as.find? fun a => decide (a.label = l ∧ l ≠ [])).map Annot.off).getD 0xFFFFFFFF

/-- The labels that the kernel's RETs return to. -/
def retsOf (xs : List Site) (as : List Annot) : List (Nat × Nat) :=
  as.flatMap fun a =>
    let ends := ((as.filter fun b => decide (a.off < b.off)).map Annot.off).foldl min 0xFFFFFFFF
    retsIn (xs.filter fun x => decide (a.off ≤ x.off ∧ x.off < ends)) (a.types.filterMap fun y => match y.2 with
      | .ret l => some (y.1, labelOff as l)
      | _ => none)

/-- How often an instruction pops each queue (R71). -/
def Site.pops (x : Site) : List Nat :=
  (List.range 4).map fun q => ([x.o.a, x.o.b, x.o.c].filter fun sp => match sp with
    | .q n => decide (n.val = q)
    | _ => false).length

/-- Instructions at depth 0 only (R44, R173, R211, R246, R271). -/
def Op.depth0 (op : Op) : Bool :=
  (match op with
    | .split | .reord | .zmod | .coll | .strm | .strx => true
    | _ => false) || (0x30 ≤ op.maj && op.maj ≤ 0x36)

/-- The open levels at the instructions reached, outermost first: each level's BRC, and how often each queue has been popped since it
opened, the levels inside it included (R73). -/
abbrev Levels := List (Nat × List (Nat × List Nat))

/-- Inserts an offset into a list in rising order. -/
def insertOff (n : Nat) : List Nat → List Nat
  | [] => [n]
  | m :: r => if n ≤ m then n :: m :: r else m :: insertOff n r

/-- Opens and closes levels along every edge from the lowest instruction reached (R36, R73, R323). -/
def levelsFrom (sites : List Site) (rets : List (Nat × Nat)) :
    Nat → List Nat → Levels → List (Nat × Nat) → Except Rejection (Levels × List (Nat × Nat))
  | 0, _, ls, js => .ok (ls, js)
  | n + 1, todo, ls, js =>
    match todo with
    | [] => .ok (ls, js)
    | off :: todo =>
      match sites.find? fun x => decide (x.off = off) with
      | none => levelsFrom sites rets n todo ls js
      | some x =>
        let cur := (ls.lookup off).getD []
        if !cur.isEmpty && Op.depth0 x.op then .error (x.reject 5 6 0xFF)
        else
          let popped := cur.map fun (l : Nat × List Nat) => (l.1, (l.2.zip x.pops).map fun y => y.1 + y.2)
          if x.op = .join ∧ popped = [] then .error (x.reject 5 4 0xFF)
          else
            let out := if x.op = .join then popped.dropLast else if x.op = .brc then popped ++ [(x.off, [0, 0, 0, 0])] else popped
            if 8 < out.length then .error (x.reject 5 5 0xFF)
            else
              let js := match x.op, popped.getLast? with
                | .join, some (b, _) => js ++ [(b, off)]
                | _, _ => js
              let go (acc : Except Rejection (List Nat × Levels)) (e : Int × Leaving) : Except Rejection (List Nat × Levels) :=
                acc.bind fun (todo, ls) =>
                  let t := e.1.toNat
                  if !(sites.any fun y => decide (y.off = t)) then .error { x.reject 5 3 0xFF with target := t }
                  else match ls.lookup t with
                    | none => .ok (insertOff t todo, (t, out) :: ls)
                    | some l =>
                      if l = out then .ok (todo, ls)
                      else .error { x.reject 5 (if l.map Prod.fst = out.map Prod.fst then 7 else 8) 0xFF with target := t }
              match (x.edges rets cur.length).foldl go (.ok (todo, ls)) with
              | .error r => .error r
              | .ok (todo, ls) => levelsFrom sites rets n todo ls js

/-- The instructions of a level from which its JOIN can be reached. -/
def reaching (region : List Site) (rets : List (Nat × Nat)) : Nat → List Nat → List Nat
  | 0, seen => seen
  | n + 1, seen =>
    let more := region.filter fun x => !(seen.contains x.off) && (x.edges rets 1).any fun e => seen.contains e.1.toNat
    if more.isEmpty then seen else reaching region rets n (more.map Site.off ++ seen)

/-- A JOIN that does not post-dominate its BRC: another JOIN closes the level too, or a path in the level never reaches it (R36). -/
def notPostDominating (sites : List Site) (rets : List (Nat × Nat)) (ls : Levels) (js : List (Nat × Nat)) : Option Rejection :=
  js.findSome? fun (b, j) =>
    let region := sites.filter fun x => ((ls.lookup x.off).getD []).any fun (l : Nat × List Nat) => decide (l.1 = b)
    let seen := reaching region rets region.length [j]
    if (js.any fun y => decide (y.1 = b ∧ y.2 ≠ j)) || region.any fun x => !(seen.contains x.off) then
      (sites.find? fun x => decide (x.off = j)).map fun x => x.reject 5 4 0xFF
    else none

/-! ### Strand widths (R44, R46, R75) -/

/-- What is known of the strand width: the width, 0 where it is known only at run time, and the register that tells of a FUSE not yet
tested, with whether a value other than 0 there says that it failed. -/
abbrev Width := Nat × Option (Nat × Bool)

/-- The width after an instruction on its edges; a test of FUSE's status gives its outcome to each path. -/
def Site.widthOut (x : Site) (depth : Nat) (kernel : Nat) (w : Width) (how : Leaving) : Width :=
  let d := x.o.d.code
  match x.op with
  | .reord => (kernel, none)
  | .split =>
    let n := if x.o.mod.val = 1 then 16 else 32
    (if n = 16 then 16 else if w.1 = 0 then 0 else min n w.1, none)
  | .fuse => if depth ≠ 0 then w else if w.1 = 0 ∨ 32 < w.1 ∨ x.o.d = .zero ∨ w.2.isSome then
      (if 32 < w.1 ∧ w.2.isNone then w.1 else 0, none) else (w.1, some (d, true))
  | .icmp =>
    match w.2 with
    | some (r, fails) =>
      if x.o.a.code = r ∧ x.o.mod.val % 8 ≤ 1 ∧ x.o.pi.val = 7 ∧ (x.o.b = .zero ∨ (x.o.b = .lit ∧ x.o.lit = 0)) ∧ d ≠ r then
        (w.1, some (d, fails == decide (x.o.mod.val % 8 = 1)))
      else if d = r then (0, none) else w
    | none => w
  | .bru =>
    match w.2 with
    | some (r, fails) =>
      if x.o.a.code = r then
        let truth := decide (how = 1) != decide (x.o.mod.val % 2 = 1)
        (if truth = fails then w.1 else 2 * w.1, none)
      else w
    | none => w
  | _ => match w.2, x.fields.d with
    | some (r, _), .uses _ _ _ => if d = r then (0, none) else w
    | _, _ => w

/-- The width at every instruction reached; where paths bring different ones it is known only at run time. -/
def widthsFrom (sites : List Site) (rets : List (Nat × Nat)) (ls : Levels) (kernel : Nat) :
    Nat → List Nat → List (Nat × Width) → List (Nat × Width)
  | 0, _, ws => ws
  | n + 1, todo, ws =>
    match todo with
    | [] => ws
    | off :: todo =>
      match sites.find? fun x => decide (x.off = off) with
      | none => widthsFrom sites rets ls kernel n todo ws
      | some x =>
        let depth := ((ls.lookup off).getD []).length
        let w := (ws.lookup off).getD (0, none)
        let (todo, ws) := (x.edges rets depth).foldl (fun (acc : List Nat × List (Nat × Width)) e =>
          let t := e.1.toNat
          let out := x.widthOut depth kernel w e.2
          match acc.2.lookup t with
          | none => (insertOff t acc.1, (t, out) :: acc.2)
          | some v =>
            if v = out ∨ v = (0, none) then acc
            else (insertOff t acc.1, (t, (0, none)) :: acc.2.filter fun y => decide (y.1 ≠ t))) (todo, ws)
        widthsFrom sites rets ls kernel n todo ws

/-! ### Register sets (R345, R346) -/

/-- The specifier codes that an operand stands for; `run` is how many registers follow the one named. -/
def specCodes (nregs run : Nat) (wide : Bool) : Spec → List Nat
  | .v n => (List.range (1 + (if wide then 1 else 0) + run)).map (n + ·)
  | .s n => [128 + n]
  | .x n => [256 + n]
  | .q n => [264 + n]
  | .p n => [272 + n]
  | .ind _ _ => List.range nregs
  | _ => []

/-- Implicit state, numbered beyond the specifier codes: 600 modulus context, 601 G, 602 XFLAG, 603 counters, 604 gang, format and
map registers, 605 chain. -/
def Site.implicit (x : Site) : List Nat × List Nat :=
  let m := x.o.mod.val
  let imm := x.o.imm.val
  match x.op with
  | .zmod => ([], [600])
  | .zadd | .zsub | .zmul | .zmulc | .zred | .ztom | .zfromm | .ztwid => ([600], [])
  | .zntt | .zintt => ([600], [602])
  | .zmma => ([600, 604], [603])
  | .ascl => (if x.o.ty = .z64 then [600] else [], [])
  | .adrain => (604 :: (if x.o.ty = .z64 then [600] else []), [603])
  | .qcvt => if m / 32 = 2 then ([601], [601]) else ([], [])
  | .perm | .xset | .barn => ([], [602])
  | .mma | .mmas => ([604], [603])
  | .cmpr | .ald | .ast => ([604], [])
  | .gang | .fblk | .amap => ([], [604])
  | .cpyk => ([605], [605, 603])
  | .cpy | .cpyp | .coll | .cancel => ([], [603])
  | .strm => ([], [603, 264 + imm % 4])
  | .strx => ([], [264 + imm % 4])
  | .cnt | .waitc | .yieldc => ([603], [])
  | .csrr => match imm with
    | 0 => ([602], [602])
    | 1 => ([601], [])
    | 2 => ([605], [])
    | _ => ([], [])
  | _ => ([], [])

/-- Read set and write set of an instruction (R345). -/
def Site.sets (nregs : Nat) (x : Site) : List Nat × List Nat :=
  let fs := x.fields
  let m := x.o.mod.val
  let a := specCodes nregs 0 (fieldWide fs.a) x.o.a
  let b := specCodes nregs (Op.run x.op m .stp + Op.run x.op m .reord) (fieldWide fs.b) x.o.b
  let c := specCodes nregs 0 (fieldWide fs.c) x.o.c
  let d := specCodes nregs (Op.run x.op m .ldp) (fieldWide fs.d) x.o.d
  let qs := (a ++ b ++ c).filter fun r => decide (264 ≤ r ∧ r < 268)
  let xs := [x.o.d, x.o.a, x.o.b, x.o.c].filterMap fun sp => match sp with
    | .ind k _ => some (256 + k.val)
    | _ => none
  let guard := if x.o.pi.val = 7 then [] else [272 + x.o.pi.val]
  let flag := if x.o.perm ≠ .none ∨ qs ≠ [] then [602] else []
  (a ++ b ++ c ++ xs ++ guard ++ x.implicit.1, d ++ qs ++ flag ++ x.implicit.2)

/-- What no window may hold (R346). -/
def Op.endsWindow (op : Op) : Bool :=
  (match op with
    | .exit | .join | .yield | .ret | .trap | .fence => true
    | _ => false) || [0x01, 0x02, 0x03, 0x04, 0x05, 0x07, 0x2C, 0x2E, 0x2F, 0x3D, 0x3E].contains op.maj

/-- The independence count (R145). -/
def Site.count (x : Site) : Nat := if x.o.ver1 then x.o.look.val % 4 else x.o.look.val

/-- The window of `n` instructions from `off` keeps R346. -/
def windowOk (k : Kern) (x : Site) : Nat → Nat → Bool
  | 0, _ => true
  | n + 1, off =>
    match k.sites.find? fun y => decide (y.off = off) with
    | none => false
    | some y =>
      let s := x.sets k.regs
      let t := y.sets k.regs
      (k.annot off).isNone && !(Op.endsWindow y.op) && !((t.1 ++ t.2).any s.2.contains) && !(t.2.any s.1.contains) &&
        windowOk k x n y.next

/-! ### Checks of one instruction (R148, R206, R221, R232, R247, R263, R286, R355) -/

/-- Privileged instructions (R148). -/
def Op.privileged : Op → Bool
  | .csrw | .save | .rest | .tret | .clrx | .rplr | .qwait | .fltack => true
  | _ => false

/-- CSR numbers that a tenant kernel may read (R286). -/
def tenantCsr : List Nat := [0, 1, 2, 3, 4, 5, 0x10]

/-- Instructions that carry a timeout exponent (R168, R232, R249). -/
def Op.timed : Op → Bool
  | .lock | .barw | .waitv | .waitc | .gang => true
  | _ => false

/-- A permutation or a position reaches beyond a known width (R75, R206). -/
def Site.tooFar (x : Site) (w : Nat) : Option Nat :=
  match x.o.perm with
  | .bfly j => if w ≤ 2 ^ j.val then some 5 else none
  | .bcast j => if w ≤ j.val then some 5 else none
  | _ => if x.op = .perm ∧ x.o.b = .lit ∧ w ≤ x.o.lit.toNat then some 2 else none

/-- A tile number beyond the kernel's, or AMOV between the cores of a pair (R76, R247, R263). -/
def Kern.tileBad (k : Kern) (x : Site) : Bool :=
  let i := x.o.imm.val
  match x.op with
  | .mma | .mmas | .zmma | .aclr | .ald | .ast | .ascl | .adrain => decide (k.tiles ≤ i % 16)
  | .amov => decide (k.tiles ≤ i % 16 ∨ k.tiles ≤ i / 16 % 16 ∨ (k.pair ∧ i % 2 ≠ i / 16 % 2))
  | _ => false

/-- Privileged instructions that an image may carry (R148, R271). -/
def imageCarries : Image → Op → Bool
  | .tenant, _ => false
  | .handler, op => match op with
    | .csrw | .save | .rest | .tret | .clrx | .rplr => true
    | _ => false
  | .engine, op => match op with
    | .csrw | .qwait | .fltack => true
    | _ => false

/-- CSR numbers that an image may read (R286). -/
def imageReads : Image → Nat → Bool
  | .tenant, n => tenantCsr.contains n
  | .handler, n => tenantCsr.contains n || (0x100 ≤ n && n ≤ 0x105)
  | .engine, n => tenantCsr.contains n || n = 0x180 || n = 0x181

/-- The rules of families ENC, PRV and SCH for one instruction, in the order of R323.  A LOOK other than 0 on a row of MAJ 0x01 to 0x05
or 0x07 is charged to ADM-SCH-03 as R344 says, and not to ADM-ENC as R150's table of unused fields would have it (assumption 53). -/
def Kern.siteRules (k : Kern) (x : Site) : Option Rejection :=
  let m := x.o.mod.val
  let peer : Bool := x.op = .coll ∨ ((x.op = .cpy ∨ x.op = .cpyp ∨ x.op = .cpyk) ∧ (m % 4 = 2 ∨ m / 4 % 4 = 2))
  match Raw.regsBad x.raw k.regs with
  | some f => some (x.rejectAt 1 3 f)
  | none =>
  match (k.knownWidth x.off).bind x.tooFar with
  | some f => some (x.reject 1 5 f)
  | none =>
    if x.op = .reord ∧ k.regs < 12 then some (x.reject 1 5 0xFF)
    else if k.tileBad x then some (x.reject 1 5 8)
    else if x.op = .csrw ∧ [2, 3, 4, 5, 0x10, 0x104, 0x105].contains x.o.imm.val then some (x.reject 1 5 8)
    else if x.op = .qcvt ∧ m / 32 = 2 ∧ bits k.features 2 1 = 0 then some (x.reject 1 5 7)
    else if peer ∧ bits k.features 3 1 = 0 then some (x.reject 1 5 7)
    else if Op.privileged x.op && !imageCarries k.image x.op then some (x.reject 9 (if k.image = .tenant then 1 else 3) 13)
    else if x.op = .csrr ∧ !imageReads k.image x.o.imm.val then some (x.reject 9 2 8)
    else if (if x.o.ver1 then 1 else 0) ≠ k.ver ∨ (x.o.ver1 ∧ bits k.features 0 1 = 0) then some (x.reject 7 1 10)
    else if Op.timed x.op ∧ m % 32 = 31 ∧ !(k.cls = 0 && k.unbounded) then some (x.reject 7 2 7)
    else if ([1, 2, 3, 4, 5, 7].contains x.op.maj ∧ x.o.look.val ≠ 0) ∨ !windowOk k x x.count x.next then some (x.reject 7 3 9)
    else none

/-! ### Edges (R322) -/

/-- What the walk carries from block to block: the class of each level, and the grain and class of each register that edges from
earlier blocks delivered (R320, R324). -/
structure Trail where
  cls : List (Nat × Nat) := []
  /-- Offsets of barrier words that earlier blocks named (R236). -/
  bars : List Nat := []
  sent : List (Nat × Nat × Nat × Nat) := []

/-- The least grain and the greatest class of a register that edges from earlier blocks delivered; none where there is no such edge. -/
def Trail.head (tr : Trail) (block reg : Nat) : Option (Nat × Nat) :=
  (tr.sent.filter fun y => decide (y.1 = block ∧ y.2.1 = reg)).foldl (fun acc y => match acc with
    | none => some (y.2.2.1, y.2.2.2)
    | some (g, c) => some (min g y.2.2.1, max c y.2.2.2)) none

/-- A value that a relation names, in a state. -/
def Walking.term (st : Walking) : RTerm → Option Lin
  | .form p => some (Lin.form p)
  | .reg r => (st.know r).map st.linOf

/-- The kind that an annotation's type asks for. -/
def Kern.kindOf (k : Kern) : AType → Kind
  | .value t => .value t
  | .pred => .pred none
  | .ptr r _ _ => .ptr r
  | .idx lo hi => .idx lo hi
  | .lock n _ _ => .lock ((k.locks.findIdx? fun l => decide (l.1 = n)).getD 32)
  | .ret l => .ret (labelOff k.annots l)
  | .bar o => .bar o
  | .param => .param

/-- The grain of a pointer type (R324). -/
def ptrGrain (lo hi : BForm) : Nat := ((lo ++ hi).map fun y => grainOf y.2).foldl min 128

/-- The descriptor of an annotation's type, uniform where the annotation makes it so (R335). -/
def Kern.typeDesc (k : Kern) (a : Annot) (reg : Nat) (t : AType) : Nat :=
  Kind.desc (k.kindOf t) (if (128 ≤ reg ∧ reg < 256) ∨ a.uni.contains reg then 1 else 0) (match t with
    | .ptr _ lo _ => BForm.constant lo
    | _ => 0)

/-- The register's contents entail the type (R322): a value type where R318 lets the register be read at it, a pointer by its bounds,
a lock pointer or a barrier offset by its being equal. -/
def Kern.entails (k : Kern) (st : Walking) (reg : Nat) (y : Know) (t : AType) : Bool :=
  let o := st.linOf y
  let equals (p : BForm) : Bool := st.proves (Lin.sub o (Lin.form p)) && st.proves (Lin.sub (Lin.form p) o)
  match t, y.kind with
  | .value t, z => Kind.readsAs z (decide (128 ≤ reg)) t
  | .pred, .pred _ => true
  | .ptr r lo hi, .ptr s =>
    let least (g : Lin) : Bool := let d := Lin.sub g (Lin.form lo); st.proves d || st.bounded d
    let most (g : Lin) : Bool := let d := Lin.sub (Lin.sub (Lin.form hi) g) (Lin.int (ptrGrain lo hi)); st.proves d || st.bounded d
    decide (r = s) && (least o || least (Lin.atom y.atom)) && (most o || most (Lin.atom y.atom))
  | .idx lo hi, .idx lo' hi' => decide (lo' ≤ lo ∧ hi ≤ hi')
  | .lock n r p, .lock m => decide (k.kindOf (.lock n r p) = .lock m)
  | .lock _ r p, .ptr s => decide (r = s) && equals p
  | .ret l, .ret o => decide (k.kindOf (.ret l) = .ret o)
  | .bar o, .bar p => decide (o = p)
  | .bar o, z => Kind.readsAs z (decide (128 ≤ reg)) .n32 && equals (BForm.const o)
  | .param, .param => true
  | _, _ => false

/-- An edge's check against the annotation of its target, and what it delivers there (R322, R324). -/
def Kern.edge (k : Kern) (tr : Trail) (st : Walking) (x : Site) (t : Nat) (how : Leaving) (a : Annot) : Trail × Walking :=
  let rej (fam num : Nat) : Rejection := { x.reject fam num (if how = 0 then 0xFF else 8) with target := t }
  let source := k.block x.off
  let st := a.types.foldl (fun st (reg, ty) => match st.know reg with
    | none => k.fail st { rej 2 7 with spec := reg, expect := k.typeDesc a reg ty }
    | some y => k.need st (k.entails st reg y ty)
        { rej 2 7 with spec := reg, expect := k.typeDesc a reg ty, found := st.desc (some y) }) st
  let st := a.rels.zipIdx.foldl (fun st (r, i) => match st.term r.a, st.term r.b with
    | some g, some h => k.need st (st.proves (Lin.sub (Lin.sub (Lin.sub h g) (Lin.int r.c)) (Lin.int (if r.strict then 1 else 0))))
        { rej 3 6 with item := i, expect := 11 + 2 ^ 32 * i }
    | _, _ => k.fail st { rej 3 6 with item := i, expect := 11 + 2 ^ 32 * i }) st
  let st := a.uni.foldl (fun st reg => k.need st (match st.know reg with
    | some y => y.cut = 0
    | none => false) { rej 6 4 with
        spec := reg
        expect := match a.types.lookup reg with
          | some ty => k.typeDesc a reg ty
          | none => 0
        found := st.desc (st.know reg) }) st
  let want := a.locks.map fun n => (k.locks.findIdx? fun l => decide (l.1 = n)).getD 32
  let odd := (st.held.filter fun n => !(want.contains n)) ++ want.filter fun n => !(st.held.contains n)
  let st := k.need st odd.isEmpty
    { rej 4 1 with item := odd.foldl min 0xFFFF, expect := heldDesc want, found := heldDesc st.held }
  let st := k.need st ((st.counts.zip a.counts).all fun c => decide (c.1 ≤ c.2))
    { rej 8 (if how = 2 then 3 else 2) with expect := countDesc a.counts, found := countDesc st.counts }
  let values := a.types.filter fun y => decide (y.1 < 256 ∨ 272 ≤ y.1)
  let give := values.map fun y => (y.1, match st.know y.1 with
    | some z => ((st.atom z.atom).grain, z.cut)
    | none => (1, 2))
  -- the grain at a block's entry comes from earlier blocks, and later ones must keep it (assumption 21)
  if source < t then ({ tr with sent := tr.sent ++ give.map fun y => (t, y) }, st)
  else if source = t then (tr, st)
  else (tr, give.foldl (fun st y => match tr.head t y.1 with
    | some (g, _) => k.need st (decide (g ≤ y.2.1)) { rej 3 7 with spec := y.1 }
    | none => st) st)

/-! ### Block entries (R321, R324) -/

/-- The state at dispatch, and a relaunch's with its records in v1 to v10 and scalars of its own (R58, R69, R321). -/
def Kern.dispatch (k : Kern) (relaunch : Bool) : Walking :=
  let f : BForm := BForm.sym 1
  let put (code : Nat) (t : Ty) (cut : Nat) (a : Atom) (st : Walking) : Walking :=
    let (st, z) := st.fresh a
    st.put code ⟨.value t, z, cut⟩
  let top (t : Ty) : Atom := ⟨BForm.const (Ty.range t).1, BForm.const (Ty.range t).2, 1, none⟩
  let zero : Atom := ⟨[], [], 128, none⟩
  let (st, z) := Walking.fresh {} zero
  let st := (List.range k.regs).foldl (fun st n =>
    if relaunch ∧ 1 ≤ n ∧ n ≤ 10 then put n .n32 (if n = 9 then 0 else 2) (top .n32) st else st.put n ⟨.either, z, 0⟩) st
  let st := (List.range 57).foldl (fun st n => st.put (135 + n) ⟨.either, z, 0⟩) st
  let st := (List.range 8).foldl (fun st n => st.put (256 + n) ⟨.idx 0 0, 0, 0⟩) st
  let st := (List.range 7).foldl (fun st n => st.put (272 + n) ⟨.pred none, 0, 0⟩) st
  let st :=
    if relaunch then put 129 .n32 0 (top .n32) (put 130 .n32 0 (top .n32) (put 131 .n32 0 (top .n32) st))
    else
      let st := put 129 .n32 0 ⟨BForm.sym 0, BForm.sym 0, 1, some (Lin.form (BForm.sym 0))⟩ st
      let st := put 130 .n32 0 ⟨[], BForm.sub f (BForm.const 1), 1, none⟩ st
      let (st, s3) := k.combine st .n32 (Ty.range .n32) (grainOf k.flight) (Lin.scale k.flight (Lin.atom (st.atoms.length - 1)))
      st.put 131 ⟨.value .n32, s3, 0⟩
  let st := put 132 .n32 0 (top .n32) (put 134 .n64 0 (top .n64) st)
  let st := put 133 .n32 0 ⟨BForm.const k.width, BForm.const k.width, grainOf k.width, none⟩ st
  st.put 128 ⟨.param, 0, 0⟩

/-- The state that an annotation gives (R317, R319, R320, R324). -/
def Kern.enter (k : Kern) (tr : Trail) (a : Annot) : Walking :=
  let st := a.types.foldl (fun (st : Walking) (reg, ty) =>
    let head := tr.head a.off reg
    let grain := (head.map Prod.fst).getD 1
    let cut := if (128 ≤ reg ∧ reg < 256) ∨ a.uni.contains reg then 0 else (head.map Prod.snd).getD 2
    let (st, z) := match ty with
      | .ptr _ lo hi => st.fresh ⟨lo, BForm.sub hi (BForm.const (ptrGrain lo hi)), grain, none⟩
      | .lock _ _ p => st.fresh ⟨p, p, grain, some (Lin.form p)⟩
      | .bar o => st.fresh ⟨BForm.const o, BForm.const o, grain, some (Lin.form (BForm.const o))⟩
      | .value t => st.fresh ⟨BForm.const (Ty.range t).1, BForm.const (Ty.range t).2, grain, none⟩
      | _ => st.ofType .n64
    st.put reg ⟨k.kindOf ty, z, cut⟩) { counts := a.counts }
  let st := a.rels.foldl (fun st r => match st.term r.a, st.term r.b with
    | some g, some h => st.learn g h (r.c + if r.strict then 1 else 0)
    | _, _ => st) st
  { st with held := a.locks.map fun n => (k.locks.findIdx? fun l => decide (l.1 = n)).getD 32, bars := tr.bars }

/-! ### The walk (R323, R326, R329, R330, R331) -/

/-- The levels open at an instruction. -/
def Kern.open_ (k : Kern) (off : Nat) : List Nat := (k.levels.lookup off).getD []

/-- The lock that LOCK or UNLOCK names: the bound word to which its address is proved equal, 8-aligned and in a region of both rights
(R329). -/
def Kern.lockOf (k : Kern) (st : Walking) (x : Site) (a : Know) : Walking × Option Nat :=
  let imm := signed 16 x.o.imm.val
  let o := Lin.add (st.linOf a) (Lin.int imm)
  let found := (match a.kind with
    | .ptr r => some r
    | .lock n => (k.locks[n]?).map fun (l : List Char × Nat × BForm) => l.2.1
    | _ => none).bind fun r =>
      if (k.grants[r]?.map Grant.rights) = some 3 then
        k.locks.findIdx? fun (l : List Char × Nat × BForm) => decide (l.2.1 = r) && (l.2.2.all fun y => decide (y.2 % 8 = 0)) &&
          st.proves (Lin.sub o (Lin.form l.2.2)) && st.proves (Lin.sub (Lin.form l.2.2) o)
      else none
  match found with
  | some n => (st, some n)
  | none => (k.fail st { x.rejectAt 4 5 1 with found := st.desc (some a) }, none)

/-- The rules of family LCK for LOCK, UNLOCK and EXIT (R329). -/
def Kern.lockRules (k : Kern) (st : Walking) (x : Site) (a : Know) (depth : Nat) (plain : Bool) : Walking :=
  match x.op with
  | .lock =>
    let st := k.need st (depth = 0) (x.reject 4 7 0xFF)
    match k.lockOf st x a with
    | (st, some n) =>
      let st := k.need st (!(st.held.contains n)) { x.reject 4 2 0xFF with item := n }
      k.need { st with pend := (x.o.d.code, n) :: st.pend } plain { x.reject 4 6 0xFF with item := n }
    | (st, none) => st
  | .unlock =>
    let st := k.need st (depth = 0) (x.reject 4 7 0xFF)
    match k.lockOf st x a with
    | (st, some n) =>
      let st := k.need st (st.held.contains n) { x.reject 4 3 0xFF with item := n }
      { st with held := st.held.filter fun m => decide (m ≠ n) }
    | (st, none) => st
  | .exit => k.need st (!(depth = 0 && !st.held.isEmpty)) (x.reject 4 4 0xFF)
  | _ => st

/-- A BRU on the status of pending LOCKs resolves them; no other pending LOCK outlasts an edge or a write of its register (R329).
Answers the names that the BRU resolves. -/
def Kern.resolve (k : Kern) (st : Walking) (x : Site) (plain : Bool) : Walking × List Nat :=
  let mine := fun (p : Nat × Nat) => decide (x.op = .bru ∧ x.o.a.code = p.1)
  let lost := st.pend.find? fun p => !mine p && !(plain && !(x.o.d.code = p.1 && x.o.d ≠ .zero))
  let got := (st.pend.filter mine).map Prod.snd
  ((match lost with
    | some (_, n) => k.fail st { x.reject 4 6 0xFF with item := n }
    | none => { st with pend := st.pend.filter fun p => !mine p }), got)

/-- The state on an edge of a branch: its comparison, or the negation, becomes known (R326). -/
def Walking.onEdge (st : Walking) (x : Site) (cond : Know) (taken : Bool) : Walking :=
  match cond.kind with
  | .pred (some (cc, a, b)) =>
    let truth := taken != decide (x.o.mod.val % 2 = 1)
    st.compare (if truth then cc else negateCc cc) a b
  | _ => st

/-- A JOIN closes its level (R73, R326). -/
def Kern.joined (k : Kern) (st : Walking) (b : Nat) : Walking :=
  let ws := (k.written.lookup b).getD []
  { st with regs := (st.regs.filter fun y => !(decide (128 ≤ y.1 ∧ y.1 < 256) && ws.contains y.1)).map fun y =>
      if ws.contains y.1 then (y.1, { y.2 with cut := 2, kind := match y.2.kind with
        | .pred _ => .pred none
        | z => z }) else y }

/-- One instruction of the walk: the state on its fall-through inside the block, or the verdict. -/
def Kern.stepOver (k : Kern) (tr : Trail) (st : Walking) (x : Site) : Trail × Walking :=
  match k.siteRules x with
  | some r => (tr, k.fail st r)
  | none =>
    let stack := k.open_ x.off
    let depth := stack.length
    let den := stack.any fun b => (tr.cls.lookup b).getD 2 = 2
    let succ := x.edges [] depth
    let plain := succ.map Prod.snd = [0] && (k.annot x.next).isNone
    let (st, a) := k.transfer st x den
    let (st, got) := k.resolve st x plain
    let tr := { tr with cls := if x.op = .brc then (x.off, a.cut) :: tr.cls else tr.cls, bars := st.bars }
    let st := if x.op = .join then (match stack.getLast? with
      | some b => k.joined st b
      | none => st) else st
    let st := k.lockRules st x a depth plain
    let side (st : Walking) (taken : Bool) : Walking :=
      -- a status that is not 0 is TIMEOUT
      let st := if taken = decide (x.o.mod.val % 2 = 1) then { st with held := st.held ++ got } else st
      if x.op = .bru ∨ x.op = .brc then st.onEdge x a taken else st
    let go (acc : Trail × Walking) (e : Int × Leaving) : Trail × Walking :=
      let (tr, st) := acc
      let t := e.1.toNat
      match k.annot t with
      | none => (tr, st)
      | some an =>
        let base := if x.op = .reord then { k.dispatch true with bad := st.bad }
          else if x.op = .yieldc then
            let n := x.o.mod.val % 4
            { st with counts := st.counts.set n (min (st.counts.getD n 0) (x.o.mod.val / 4)) }
          else side st (e.2 = 1)
        let (tr, out) := k.edge tr base x t e.2 an
        (tr, { st with bad := out.bad })
    let rets : List (Int × Leaving) := match x.op, a.kind with
      | .ret, .ret o => [((o : Int), 1)]
      | _, _ => []
    let (tr, st) := (succ ++ rets).foldl go (tr, st)
    (tr, side st false)

/-- The checks of a block's annotation: names it uses, and counts (R317, R329, R330). -/
def Kern.annotRules (k : Kern) (a : Annot) : Option Rejection :=
  let bad (fam num : Nat) : Rejection := match k.sites.find? fun x => decide (x.off = a.off) with
    | some x => x.reject fam num 11
    | none => { fam := fam, num := num, block := a.off, offset := a.off, field := 11 }
  if !a.ok then some (bad 1 4)
  else if a.locks.any fun n => (k.locks.findIdx? fun l => decide (l.1 = n)).isNone then some (bad 1 4)
  else if a.types.any fun y => match y.2 with
      | .ret l => !(k.annots.any fun b => decide (b.label = l))
      | .idx lo hi => decide (hi < lo ∨ k.regs < hi)
      | _ => false then some (bad 1 4)
  else if a.types.any fun y => match y.2 with
      | .lock n r p => match k.locks.find? fun l => decide (l.1 = n) with
        | some l => !(decide (l.2.1 = r) && (BForm.sub l.2.2 p).isEmpty)
        | none => true
      | _ => false then some (bad 4 5)
  else if a.counts.any fun c => decide (63 < c) then some (bad 8 1)
  else none

/-- The sites of a block, in order. -/
def Kern.walkSites (k : Kern) : List Site → Trail → Walking → Trail × Walking
  | [], tr, st => (tr, st)
  | x :: xs, tr, st => if st.bad.isSome then (tr, st) else
    let (tr, st) := k.stepOver tr st x
    k.walkSites xs tr st

/-- The blocks in code order; `as` are the annotations from this block on (R323). -/
def Kern.walkBlocks (k : Kern) : List Annot → Trail → Option Rejection
  | [], _ => none
  | a :: as, tr =>
    match k.annotRules a with
    | some r => some r
    | none =>
      let sites := k.sites.filter fun x => decide (a.off ≤ x.off) && match as with
        | b :: _ => decide (x.off < b.off)
        | [] => true
      let (tr, st) := k.walkSites sites tr (if a.off = 0 then k.dispatch false else k.enter tr a)
      match st.bad with
      | some r => some r
      | none => k.walkBlocks as tr

/-- The names of lock words: each is bound by the first lock type that mentions it (R329). -/
def bindLocks (as : List Annot) : List (List Char × Nat × BForm) :=
  ((as.flatMap Annot.types).foldl (fun acc y => match y.2 with
    | .lock n r p => if acc.any fun l => decide (l.1 = n) then acc else acc ++ [(n, r, p)]
    | _ => acc) []).take 32

end Sys2Proof.Machine
end

