-- ==== Sys2Proof/Machine/Arbiter.lean ====
section
/-!
DEFINITION. ADMIT and the Arbiter: header, grant list, the verdict from its passes, sealing and measurement (R313 to R315, R319,
R321, R323, R332, R333, R336 to R338, R353 to R355, R368).
-/
namespace Sys2Proof.Machine

/-! ### The TKO header (R353, R355) -/

/-- The sections of an object: offset and length, code first (R353, R354). -/
def sections (b : List Byte) : List (Nat × Nat) :=
  [(pfield b 191 160, 4 * pfield b 223 192), (pfield b 255 224, pfield b 287 256), (pfield b 351 320, pfield b 383 352),
   (pfield b 415 384, pfield b 447 416)]

/-- Sections that hold bytes lie inside the object after its header and do not overlap; nothing else lies in a page of the code
(R137, R353). -/
def sectionsOk (b : List Byte) : Bool :=
  let ss := (sections b).filter fun s => decide (0 < s.2)
  let room (i : Nat) (s : Nat × Nat) : Nat := if i = 0 then 65536 * ceilDiv s.2 65536 else s.2
  ss.all (fun s => decide (128 ≤ s.1 ∧ s.1 + s.2 ≤ b.length)) &&
    ss.zipIdx.all fun (s, i) => ss.zipIdx.all fun (t, j) => decide (i = j) || !meets s.1 (room i s) t.1 (room j t)

/-- The header obeys its Meaning column (R25, R65, R76, R136, R353) and asks for no feature outside the accepted word. -/
def headerOk (b : List Byte) (features : Nat) : Bool :=
  let w := pfield b 71 64
  let regs := pfield b 79 72
  let st := pfield b 88 80
  let pair := pfield b 89 89
  let nreg := pfield b 303 288
  let ldep := pfield b 495 480
  decide (128 ≤ b.length) && decide (pfield b 31 0 = 0x4F4B5254) && decide (pfield b 47 32 = 1) && decide (pfield b 63 48 = 0) &&
  decide (w = 16 ∨ w = 32 ∨ w = 64) && decide (2 ≤ regs ∧ regs ≤ 128 ∧ regs % 2 = 0) &&
  decide (if pair = 1 then 2 ≤ st ∧ st ≤ 256 else 1 ≤ st ∧ st ≤ 128) &&
  decide (pfield b 95 94 ≤ 1) && decide (pfield b 100 96 ≤ 16) && decide (pfield b 103 101 ≤ 4) && decide (pfield b 127 104 = 0) &&
  decide (pfield b 159 128 % 128 = 0) && decide (pfield b 191 160 % 65536 = 0) && decide (pfield b 255 224 % 8 = 0) &&
  decide (pfield b 351 320 % 8 = 0) && decide (pfield b 415 384 % 8 = 0) && decide (0 < pfield b 223 192) &&
  decide (ldep = 0xFFFF ∨ ldep < nreg) && decide (pfield b 511 496 = 0) && decide (pfield b 1023 640 = 0) &&
  decide (16 * nreg + 8 * pfield b 319 304 ≤ pfield b 383 352) && sectionsOk b &&
  decide (pfield b 639 512 &&& features = pfield b 639 512)

/-! ### The tables (R354) -/

/-- The `.region` records: least size, rights, shared. -/
def regionRows (b : List Byte) : List (Nat × Nat × Bool) :=
  let t := b.drop (pfield b 351 320)
  (List.range (pfield b 303 288)).map fun i =>
    let r := (t.drop (16 * i)).take 16
    (pfield r 31 0, pfield r 33 32, decide (pfield r 34 34 = 1))

/-- The `.param` records: block offset and type code. -/
def paramRows (b : List Byte) : List (Nat × Nat) :=
  let t := b.drop (pfield b 351 320 + 16 * pfield b 303 288)
  (List.range (pfield b 319 304)).map fun i =>
    let r := (t.drop (8 * i)).take 8
    (pfield r 15 0, pfield r 20 16)

/-- The tables keep to `.region` and `.param` of R136 and to the layout of R354: rights that are some, a type of R146, a block offset
that is a multiple of the field's width, and 0 in every other bit. -/
def tablesOk (b : List Byte) : Bool :=
  let t := b.drop (pfield b 351 320)
  let nreg := pfield b 303 288
  ((List.range nreg).all fun i =>
    let r := (t.drop (16 * i)).take 16
    decide (pfield r 33 32 ≠ 0 ∧ pfield r 47 35 = 0 ∧ pfield r 127 64 = 0)) &&
  (List.range (pfield b 319 304)).all fun i =>
    let r := (t.drop (16 * nreg + 8 * i)).take 8
    decide (pfield r 31 21 = 0 ∧ pfield r 63 48 = 0) && match Ty.ofCode (pfield r 20 16) with
      | some ty => decide (ty ≠ .pred ∧ pfield r 15 0 % ty.bytes = 0)
      | none => false

/-! ### The grant list (R314, R315, R332) -/

/-- The admission extent of a grant (R315). -/
def Grant.extent (g : Grant) (nmax l : Nat) : Nat := g.fix + g.pitem * nmax + g.pflt * ceilDiv nmax l

/-- The rules of family REG for one record, in order (R323, R332); `counted` says that COUNT is what the kernel's tables ask for. -/
def grantRow (fn : Nat) (pages : List Nat) (nmax l : Nat) (counted : Bool) (before : List Grant) (row : Option (Nat × Nat × Bool))
    (b : List Byte) : Option Nat :=
  let g := grantOfBytes b
  if pfield b 163 163 ≠ 0 ∨ pfield b 255 168 ≠ 0 ∨ g.rights = 0 then some 5
  else if !counted then some 1
  else match row with
    | none => some 1
    | some (size, rights, shared) =>
      if g.rights &&& rights ≠ rights ∨ g.fix < size then some 2
      else if g.shared ≠ shared ∨ (shared ∧ g.owner ≠ 15) ∨ (!shared ∧ g.owner ≠ fn) then some 3
      else
        let n := g.extent nmax l
        if g.base % 128 ≠ 0 then some 4
        else if isPeer g.base then none
        else if 2 ^ 52 ≤ g.base + n ∨ (pages.any fun a => meets g.base n a 65536) ∨
            (before.any fun x => !isPeer x.base && meets g.base n x.base (x.extent nmax l)) then some 4
        else none

/-- The first rule of family REG that a grant list breaks, with its record (R323). -/
def grantRows (fn : Nat) (pages : List Nat) (nmax l : Nat) (counted : Bool) (rows : List (Nat × Nat × Bool)) (bs : List Byte) :
    Nat → Nat → List Grant → Option (Nat × Nat)
  | 0, _, _ => none
  | k + 1, i, before =>
    let b := (bs.drop (32 + 32 * i)).take 32
    match grantRow fn pages nmax l counted before rows[i]? b with
    | some n => some (n, i)
    | none => grantRows fn pages nmax l counted rows bs k (i + 1) (before ++ [grantOfBytes b])

/-- The grant list's first rejection: its header, then each record under ADM-REG-05 and then ADM-REG-01 to ADM-REG-04 (R323).  `pages`
are the code pages: those of the object and every sealed one.  A COUNT that is not what the tables ask for, or beyond 32, is met at the
first record, or after the header where there is none (assumption 21). -/
def grantCheck (fn : Nat) (pages : List Nat) (b g : List Byte) : Option Rejection :=
  let rows := regionRows b
  let count := pfield g 15 0
  let ptrs := ((paramRows b).filter fun x => decide (x.2 = Ty.ptr.code)).length
  let counted : Bool := decide (count = rows.length ∧ count = ptrs ∧ count ≤ 32)
  let l := max 1 (pfield b 88 80 * pfield b 71 64)
  if pfield g 31 16 ≠ 0 ∨ pfield g 255 64 ≠ 0 then some { fam := 10, num := 5, field := 12 }
  else if count = 0 ∧ !counted then some { fam := 10, num := 1, field := 12 }
  else (grantRows fn pages (nmaxOf g) l counted rows g count 0 []).map fun (n, i) =>
    { fam := 10, num := n, field := 12, item := if n = 1 then 0xFFFF else i }

/-! ### The structure pass over the code (R147, R151, R323, R331) -/

/-- The word and the unit of a specifier's field (R139, R140). -/
def fieldPlace (f : Nat) : Nat × Nat :=
  if f = 0 then (0, 16384) else if f = 1 then (0, 8388608) else if f = 2 then (1, 1) else (1, 512)

/-- The specifier code in a field. -/
def codeIn (ws : List Nat) (f : Nat) : Nat := ws.getD (fieldPlace f).1 0 / (fieldPlace f).2 % 512

/-- The rejected encoding has an odd register where only its even neighbour may stand (R65). -/
def oddPair (ws : List Nat) (r : Reject) : Bool :=
  let unit := fieldPlace r.field
  let code := codeIn ws r.field
  r.kind = 8 && r.field ≤ 3 && code < 128 && code % 2 = 1 && match Raw.decode (ws.modify unit.1 fun w => w - unit.2) with
    | .ok _ => true
    | .error q => q ≠ r

/-- The rule under which an encoding is rejected: a class that ADM-TYP forbids, an odd register, a run of registers that is not aligned,
or what R151 lists (R65, R66, R71, R151, R221, R332; assumption 18). -/
def ruleOf (ws : List Nat) (r : Reject) : Nat × Nat :=
  if r.kind = 10 then (2, if r.field = 0 then 3 else 8)
  else if r.kind = 11 then (1, 5)
  else if oddPair ws r then (1, 3)
  else (1, 1)

/-- Decodes the code from word `off`: the instructions in order, or the first encoding that is none. -/
def decodeAll (nregs : Nat) : Nat → List Nat → Nat → List Site → Except Rejection (List Site)
  | 0, _, _, acc => .ok acc.reverse
  | k + 1, ws, off, acc =>
    match ws with
    | [] => .ok acc.reverse
    | w0 :: rest =>
      let w1 := if w0 % 2 = 0 then 0 else rest.headD 0
      match Raw.decode ws with
      | .error r => .error { fam := (ruleOf ws r).1, num := (ruleOf ws r).2, block := off, offset := off, field := r.field,
                             spec := if ruleOf ws r = (1, 3) then codeIn ws r.field else 0x17F, word0 := w0, word1 := w1 }
      | .ok raw =>
        let (op, o) := Raw.full raw
        decodeAll nregs k (ws.drop raw.nwords) (off + raw.nwords) (⟨off, op, o, raw, w0, w1⟩ :: acc)

/-! ### Annotations and the walk (R319, R321, R323, R354) -/

/-- A name in the object: zero-ended ASCII. -/
def nameAt (b : List Byte) (off : Nat) : List Char := ((b.drop off).takeWhile fun x => x ≠ 0).map fun x => Char.ofNat x.toNat

/-- The names of the table section: its regions, and its parameters with their types (R354). -/
def namesOf (b : List Byte) : Names :=
  let base := pfield b 351 320
  let t := b.drop base
  let nreg := pfield b 303 288
  let strs := base + 16 * nreg + 8 * pfield b 319 304
  { regions := (List.range nreg).map fun i => nameAt b (strs + pfield ((t.drop (16 * i)).take 16) 63 48)
    params := (List.range (pfield b 319 304)).map fun i =>
      let r := (t.drop (16 * nreg + 8 * i)).take 8
      (nameAt b (strs + pfield r 47 32), pfield r 20 16)
    regs := pfield b 79 72 }

/-- The bytes of the annotation section. -/
def annotBytes (b : List Byte) : List Byte := (b.drop (pfield b 255 224)).take (pfield b 287 256)

/-- The word offsets of the annotation records rise from one instruction to another, the entry's annotation is empty, and no parameter
has a reserved name; the first offset that breaks this (R319, R321, R354). -/
def recordsBad (names : Names) (xs : List Site) : Nat → List (Nat × Option Annot) → Option Rejection
  | _, [] => none
  | least, (off, a) :: rest =>
    let bad : Rejection := { fam := 1, num := 4, block := off, offset := off, field := 11 }
    if off < least ∨ !(xs.any fun x => decide (x.off = off)) then some bad
    else if off = 0 && a.any (fun x => decide ({ x with label := [] } ≠ ({ off := 0 } : Annot))) then some bad
    else recordsBad names xs (off + 1) rest

/-- Scratchpad offsets that the kernel's text gives for barrier words: those its annotations type so, and the literals that barrier
instructions name (R236). -/
def barsOf (xs : List Site) (annots : List Annot) : List Nat :=
  ((annots.flatMap Annot.types).filterMap fun y => match y.2 with
    | .bar o => some o
    | _ => none) ++
  xs.filterMap fun x => match x.op, x.o.a with
    | .bari, .lit | .barv, .lit | .barn, .lit | .barw, .lit => some (x.o.lit.toNat % 2 ^ 32)
    | .bari, .zero | .barv, .zero | .barn, .zero | .barw, .zero => some 0
    | _, _ => none

/-- The kernel as the walk reads it. -/
def kernOf (image : Image) (b g : List Byte) (features : Nat) (names : Names) (xs : List Site) (annots : List Annot) (levels : Levels)
    (widths : List (Nat × Width)) : Kern where
  image := image
  names := names
  width := pfield b 71 64
  strands := pfield b 88 80
  pair := decide (pfield b 89 89 = 1)
  cls := pfield b 91 90
  unbounded := decide (pfield b 93 93 = 1)
  regs := pfield b 79 72
  ver := pfield b 95 94
  features := features
  tiles := pfield b 100 96
  acls := pfield b 103 101
  spad := pfield b 159 128
  nmax := nmaxOf g
  grants := (List.range (pfield g 15 0)).map fun i => grantOfBytes (grantBytes g i)
  params := paramRows b
  annots := annots
  sites := xs
  levels := levels.map fun l => (l.1, l.2.map Prod.fst)
  written := (xs.filter fun x => x.op = .brc).map fun x =>
    (x.off, (xs.filter fun y => ((levels.lookup y.off).getD []).any fun (l : Nat × List Nat) => decide (l.1 = x.off)).flatMap fun y =>
      (y.sets (pfield b 79 72)).2.filter fun r => decide (r < 512))
  widths := widths.map fun w => (w.1, w.2.1)
  locks := bindLocks annots
  bars := barsOf xs annots

/-- The passes over decoded code (R323). -/
def codeVerdict (image : Image) (b g : List Byte) (features : Nat) (xs : List Site) : Option Rejection :=
  let names := namesOf b
  let records := annotRecords names (pfield b 287 256) (annotBytes b)
  match recordsBad names xs 0 records with
  | some r => some r
  | none =>
    let annots := records.map fun r => r.2.getD { off := r.1, ok := false }
    if (annots.head?.map Annot.off) ≠ some 0 then some { fam := 5, num := 2, block := 0, offset := 0, field := 11, target := 0 }
    else match xs.findSome? fun x => x.flow (xs.map Site.off) (annots.map Annot.off) with
      | some r => some r
      | none =>
        let rets := retsOf xs annots
        match levelsFrom xs rets (2 * xs.length + 1) [0] [(0, [])] [] with
        | .error r => some r
        | .ok (levels, joins) =>
          match notPostDominating xs rets levels joins with
          | some r => some r
          | none =>
            let w := pfield b 71 64
            let widths := widthsFrom xs rets levels w (6 * xs.length + 1) [0] [(0, (w, none))]
            (kernOf image b g features names xs annots levels widths).walkBlocks annots {}

/-- The verdict on a kernel at a TKO address: header, tables, grant list, structure pass and type walk, in the order of R323.  The code
begins on a page boundary, so the address does (R137). -/
def verdict (image : Image) (fn : Nat) (tko : Nat) (pages : List Nat) (features : Nat) (b g : List Byte) : Option Rejection :=
  if tko % 65536 ≠ 0 || !headerOk b features || !tablesOk b then some { fam := 1, num := 2 }
  else match grantCheck fn pages b g with
    | some r => some r
    | none =>
      if (namesOf b).params.any fun p => p.1 = "N".toList ∨ p.1 = "F".toList then some { fam := 1, num := 4, field := 11 }
      else
        let words := pfield b 223 192
        let inBlock (r : Rejection) : Rejection :=
          let labels := (annotRecords (namesOf b) (pfield b 287 256) (annotBytes b)).map Prod.fst
          { r with block := (labels.filter fun l => decide (l ≤ r.offset)).foldl max 0 }
        match decodeAll (pfield b 79 72) (words + 1) (wordsOfBytes ((b.drop (pfield b 191 160)).take (4 * words))) 0 [] with
        | .error r => some (inBlock r)
        | .ok xs => (codeVerdict image b g features xs).map inBlock

/-- Instructions that the passes visit: those before the first encoding that is none. -/
def visited : Nat → List Nat → Nat
  | 0, _ => 0
  | k + 1, ws => if ws = [] then 0 else match Raw.decode ws with
    | .error _ => 1
    | .ok raw => 1 + visited k (ws.drop raw.nwords)

/-- Clocks that a unit takes to check an object: two instructions a clock (R323). -/
def walkClocks (b : List Byte) : Nat :=
  let words := pfield b 223 192
  ceilDiv (visited (words + 1) (wordsOfBytes ((b.drop (pfield b 191 160)).take (4 * words)))) 2

/-- The lock words that an accepted kernel binds, by region and offset (R329). -/
def lockWordsOf (b : List Byte) : List (Nat × BForm) :=
  (bindLocks ((annotRecords (namesOf b) (pfield b 287 256) (annotBytes b)).filterMap Prod.snd)).map Prod.snd

/-! ### ADMIT (R336, R353, R367, R368) -/

/-- The pages that hold an object. -/
def pagesOf (va len : Nat) : List Nat :=
  if len = 0 then [] else (List.range ((va + len - 1) / 65536 - va / 65536 + 1)).map fun i => (va / 65536 + i) * 65536

/-- The sealed pages. -/
def State.codePages (s : State) : List Nat := s.kernels.flatMap Kernel.codePages

/-- Dirty copies of sectors of the pages leave every core cache: the stores made so far are performed (R336 step 1). -/
def State.cleanPages (s : State) (pages : List Nat) : State :=
  let frames := pages.filterMap fun va => match s.walk va with
    | .leaf l => some (s.frameAddr l va / 65536)
    | _ => none
  (List.range 96).foldl (fun s c => s.cleanCache c fun x => frames.contains (x.sector / 512)) s

/-- A store, a copy chunk or a host write to the pages, issued before a clock, is still to be performed (R336 step 1). -/
def State.earlierWrites (s : State) (before : Nat) (pages : List Nat) : Bool :=
  let on (va len : Nat) : Bool := pages.any fun p => meets p 65536 va len
  let copies (c : CopyOp) : Bool := c.dsp = .mem && c.chunks.any fun x => on x.dst x.len
  let issued (e : Entry) : Bool := e.ops.any fun o => !o.done && decide (o.issued ≤ before) && match o.kind with
    | .copy c => copies c
    | _ => false
  ((List.range 96).any fun c => ((s.core c).flying ++ (s.core c).replay).any fun r =>
    (r.kind = 1 || r.kind = 2) && decide (r.ptime ≤ before) && on r.addr r.len) ||
  (s.slots.any fun x => x.entries.any issued) || (s.flights.any fun f => f.saved.any fun x => x.entries.any issued) ||
  (s.queue.started.any fun p => p.copy.any copies) ||
  s.fleet.outside.any fun o => match o with
    | .host _ addr true len _ => on addr len
    | _ => false

/-- A page is sealed or under admission. -/
def State.pageTaken (s : State) (va : Nat) : Bool :=
  (match s.walk va with
    | .leaf l => l.isSealed
    | _ => false) ||
  s.queue.units.any fun u => match u with
    | some a => a.pages.contains va
    | none => false

/-- A unit that takes an ADMIT: free, in service, not under test (R453, R456). -/
def State.freeUnit (s : State) : Option Nat :=
  (List.range 4).find? fun u => (s.queue.units.getD u none).isNone && !(s.fleet.patUnits.getD (864 + u) {}).out &&
    !(match s.fleet.patTest with
      | some (t, _) => decide (t = 864 + u)
      | none => false)

/-- The object, the grant list and the room for the record, as the packet names them; or the access that fails. -/
def State.readAdmit (s : State) (fn : Nat) (p : List Byte) : Except Acc (List Byte × List Byte) :=
  match s.fnRead fn (pfield p 255 192) (pfield p 287 256) 1 with
  | .error e => .error e
  | .ok (_, b) =>
    match s.fnRead fn (pfield p 383 320) 32 1 with
    | .error e => .error e
    | .ok (_, h) =>
      match s.fnRead fn (pfield p 383 320) (32 + 32 * pfield h 15 0) 1 with
      | .error e => .error e
      | .ok (_, g) =>
        match s.devPieces (fnAgent fn) .store (pfield p 511 448) 64 1 with
        | .error e => .error e
        | .ok _ => .ok (b, g)

/-- ADMIT: staging pages stop being writable and a unit takes the kernel. -/
def execAdmitPkt (fn qid : Nat) (s : State) : Host.Outcome State Fault Refusal :=
  .next (s.onPacket fn qid 6 fun s q p =>
    if fn = 0 then s.finishPacket q p 3
    else match s.readAdmit fn p with
      | .error (.park _ _ _) => s
      | .error _ => s.finishPacket q p 9
      | .ok (b, _) =>
        let pages := pagesOf (pfield p 255 192) (pfield p 287 256)
        if pages.any s.pageTaken then s.finishPacket q p 2
        else match s.freeUnit with
          | none => s
          | some u =>
            let (t, x) := (s.cleanPages pages).startPacket q p
            let t := (pages.foldl (fun t va => t.modLeaf va fun w => setBits w 10 1 0) t).useUnit (864 + u) fn
            { t with
              fleet := { t.fleet with admitted := true }
              queue := { t.queue with
                started := t.queue.started.map fun y => { y with unit := if y.id = x.id then some u else y.unit }
                units := t.queue.units.set u (some ⟨fn, qid, p, t.clock, t.clock + walkClocks b, pages, x.id⟩) } })

/-- WR of the staging pages as it was (R336, R339). -/
def State.restoreWr (s : State) (pages : List Nat) : State :=
  pages.foldl (fun s va => s.modLeaf va fun w => setBits w 10 1 (s.pageWr va)) s

/-- The kernel that an accepted object becomes. -/
def kernelOfTko (fn unit clock tko bytes : Nat) (kid : W64) (b g : List Byte) : Kernel where
  fn := fn
  owner := fn
  kid := kid
  image := .tenant
  width := pfield b 71 64
  regs := pfield b 79 72
  strands := pfield b 88 80
  pair := decide (pfield b 89 89 = 1)
  cls := pfield b 91 90
  mirror := decide (pfield b 92 92 = 1)
  tiles := pfield b 100 96
  acls := pfield b 103 101
  spad := pfield b 159 128
  code := tko + pfield b 191 160
  words := pfield b 223 192
  nmax := nmaxOf g
  grants := (List.range (pfield g 15 0)).map fun i => grantOfBytes (grantBytes g i)
  params := paramRows b
  ldep := pfield b 495 480
  reord := match decodeAll 128 (pfield b 223 192 + 1) (wordsOfBytes ((b.drop (pfield b 191 160)).take (4 * pfield b 223 192))) 0 [] with
    | .ok xs => xs.any fun x => decide (x.op = .reord)
    | .error _ => false
  locks := lockWordsOf b
  pages := pagesOf tko bytes
  unit := unit
  sealedAt := clock
  tko := tko
  tkoBytes := bytes

/-- The digest of R337. -/
def measurement (b g : List Byte) : List Byte :=
  let part (i : Nat) : List Byte := match (sections b)[i]? with
    | some (o, n) => (b.drop o).take n
    | none => []
  let bare := (List.range (pfield g 15 0)).foldl (fun g i => overlay g (32 + 32 * i) (leBytes 8 0)) g
  Sha512.digest (b.take 128 ++ part 0 ++ part 1 ++ bare)

/-- The logs of the tenant, and of owner 15 for a kernel with a tag-15 grant, are extended (R337, R424). -/
def State.measure (s : State) (fn : Nat) (kid : W64) (d : List Byte) (shared : Bool) : State :=
  let ext (m : List Byte) : List Byte := Sha512.digest (m ++ d ++ leBytes 8 kid.toNat)
  let ms := s.sec.mlogs.modify fn ext
  { s with sec := { s.sec with mlogs := if shared then ms.modify 15 ext else ms } }

/-- The end of an admission (R323, R336): the unit accepts and seals the code's pages, or rejects, restores WR and writes the record. -/
def State.admitDone (s : State) (u : Nat) (a : Admission) (x : Started) : State :=
  let p := a.packet
  let kid := BitVec.ofNat 64 (pfield p 447 384)
  let tko := pfield p 255 192
  let bytes := pfield p 287 256
  let s : State := { s with queue := { s.queue with units := s.queue.units.set u none } }
  match s.readAdmit a.fn p with
  | .error _ => (s.restoreWr a.pages).completePacket x 9
  | .ok (b, g) =>
    let k := kernelOfTko a.fn u s.clock tko bytes kid b g
    match verdict .tenant a.fn tko (k.codePages ++ s.codePages) s.fleet.features b g with
    | some r =>
      let t := s.restoreWr a.pages
      match t.fnWrite a.fn (pfield p 511 448) 1 (r.bytes kid) with
      | some t => t.completePacket x 1
      | none => t.completePacket x 9
    | none =>
      let t := k.codePages.foldl (fun t va => t.modLeaf va fun w => setBits w 8 1 1) s
      let t : State := { t with kernels := k :: t.kernels }
      (t.measure a.fn kid (measurement b g) (k.grants.any Grant.shared)).completePacket x 0

/-- ADMISSION_COMPLETE: the walk has ended, and no write issued before the pages were closed is still to come (R323, R336). -/
def execAdmissionComplete (unit : Nat) (s : State) : Host.Outcome State Fault Refusal :=
  .next (match s.queue.units.getD unit none with
    | none => s
    | some a =>
      if s.clock < a.doneAt || s.earlierWrites a.started a.pages then s
      else match s.queue.started.find? fun x => decide (x.id = a.id) with
        | some x => s.admitDone unit a x
        | none => s)

end Sys2Proof.Machine
end

