-- ==== Sys2Proof/Machine/Cross.lean ====
section
/-!
DEFINITION. PERM, REDU and SCAN (R204 to R209).
-/
namespace Sys2Proof.Machine

/-! ### PERM (R206) -/

def execPerm (o : Long) (s : State) : Host.Outcome State Fault Refusal :=
  s.issue fun c => c.lane (longWords o) .perm o fun l =>
    let pos (i : Nat) : Nat := (l.b.at i).toNat % 2 ^ 32
    let rd (i : Nat) : W64 × Bool := l.e.crossRead l.a (some (pos i)) i
    let e := if l.acting.any fun i => (rd i).2 then l.e.setX else l.e
    let one := decide (pos 0 < e.width) || l.a.isUni
    let v : OpVal := if l.b.isUni && one then .uni (rd (l.acting.headD 0)).1 else .build e fun i => (rd i).1
    ({ l with e := e } : Lane).write c.ke.regs o.ty.wide false o.d v

/-! ### Folds (R205, R207) -/

/-- The identity of a fold (R207). -/
def foldIdentity (t : Ty) (op : Nat) : W64 :=
  let f := fmtOf t
  match op with
  | 1 => if t.isFloat then BitVec.ofNat 64 f.infCode else storeInt t false (satZ t.signedInt t.width (2 ^ 70 : Nat))
  | 2 => if t.isFloat then BitVec.ofNat 64 (Float.withSign f true f.infCode)
    else storeInt t false (satZ t.signedInt t.width (-(2 ^ 70 : Nat)))
  | 3 => storePat t (2 ^ t.width - 1)
  | _ => 0

/-- One step of a fold that is not an integer sum (R207). -/
def foldStep (t : Ty) (m : Nat) (r x : W64) : W64 :=
  let f := fmtOf t
  let num := decide (m / 32 % 2 = 1)
  match m % 8 with
  | 0 => BitVec.ofNat 64 (Float.fadd f (Float.Mode.ofCode (m / 8 % 4)) (patOf t r) (patOf t x))
  | 1 => if t.isFloat then BitVec.ofNat 64 (Float.fminmax f false num (patOf t r) (patOf t x))
    else storeInt t false (min (intOf t r) (intOf t x))
  | 2 => if t.isFloat then BitVec.ofNat 64 (Float.fminmax f true num (patOf t r) (patOf t x))
    else storeInt t false (max (intOf t r) (intOf t x))
  | 3 => storePat t (patOf t r &&& patOf t x)
  | 4 => storePat t (patOf t r ||| patOf t x)
  | _ => storePat t (patOf t r ^^^ patOf t x)

/-- A single value as a fold gives it: the canonical NaN stands for every NaN (R90). -/
def foldOne (t : Ty) (w : W64) : W64 :=
  if t.isFloat ∧ (Float.decode (fmtOf t) (patOf t w)).isNan then BitVec.ofNat 64 (fmtOf t).nan else storePat t (patOf t w)

/-- The fold of values in increasing index order; an integer sum is stored once from the exact sum (R207). -/
def foldVals (t : Ty) (m : Nat) (sat : Bool) (xs : List W64) : W64 :=
  if t.isInt ∧ m % 8 = 0 then storeInt t sat ((xs.map (intOf t)).foldl (· + ·) 0)
  else match xs with
    | [] => foldIdentity t (m % 8)
    | x :: rest => rest.foldl (foldStep t m) (foldOne t x)

/-- REDU: the fold over the items acted on, written UNI to every item of the entry (R207). -/
def execRedu (o : Long) (s : State) : Host.Outcome State Fault Refusal :=
  s.issue fun c => c.close (longWords o) do
    let acting := c.e.acting o.pi o.pn
    let l ← c.lanes .redu o acting
    let r := foldVals o.ty o.mod.val (decide (o.mod.val / 64 = 1)) (acting.map l.a.at)
    let e ← l.e.writeEvery c.ke.regs acting o.ty.wide o.ty.signedInt o.d r
    pure (e.advance (longWords o))

/-- SCAN: each item acted on receives the fold up to it, or below it under `.excl` (R208). -/
def execScan (o : Long) (s : State) : Host.Outcome State Fault Refusal :=
  s.issue fun c => c.lane (longWords o) .scan o fun l =>
    let upto (k : Nat) : List Nat :=
      l.acting.filter fun i => if o.mod.val / 64 = 1 then decide (i < k) else decide (i ≤ k)
    l.write c.ke.regs o.ty.wide o.ty.signedInt o.d
      (.build l.e fun k => foldVals o.ty o.mod.val false ((upto k).map l.a.at))

end Sys2Proof.Machine
end

