-- ==== Sys2Proof/Machine/Copies.lean ====
section
/-!
DEFINITION. Copies, collectives, streams, status and cancellation (R270 to R285, R393, R443, R444, R447).
-/
namespace Sys2Proof.Machine

/-! ### Issue (R271, R272, R274) -/

/-- Writes a ticket to D and retires (R272). -/
def Ctx.ticket (c : Ctx) (t : State) (o : Long) (e : Entry) (seq cls : Nat) : State := c.status t o e (ticketOf seq cls)

/-- An operation that retires at issue with a status (R272 to R274). -/
def Ctx.refuseOp (c : Ctx) (o : Long) (e : Entry) (cls code : Nat) : State :=
  c.ticket { c.s with nextId := c.s.nextId + 1 } o (e.refuseOp c.s.nextId cls code c.s.clock) e.seq cls

/-- An operation that starts, over the state `t`. -/
def Ctx.startOp (c : Ctx) (t : State) (o : Long) (e : Entry) (cls : Nat) (k : AsyncKind) : State :=
  c.ticket { t with nextId := c.s.nextId + 1 } o (e.issueOp c.s.nextId cls c.s.clock k) e.seq cls

/-- An instruction over UNI sources that acts once; a non-UNI one is a breach (R271). -/
def Ctx.onceUni (c : Ctx) (op : Op) (o : Long) (k : Lane → W64 → W64 → W64 → State) : State :=
  let uni (v : OpVal) : Option W64 := match v with
    | .uni w => some w
    | _ => none
  c.once op o fun l => match uni l.a, uni l.b, uni l.c with
    | some a, some b, some x => k l a b x
    | _, _, _ => c.raise (longWords o) (breach c.e)

/-- A cached sector holds bytes of a device range. -/
def State.inRange (s : State) (va len sector : Nat) : Bool :=
  (List.range ((va % 65536 + len + 65535) / 65536)).any fun i =>
    let a := (va / 65536 + i) * 65536 + sector % 512 * 128
    decide (a < va + len) && decide (va < a + 128) && (match s.walk a with
      | .leaf l => decide (s.frameAddr l a / 128 = sector)
      | _ => false)

/-- Earlier stores of the entry to a range are cleaned into the die cache (R129). -/
def State.cleanRange (s : State) (core va len : Nat) : State := s.cleanCache core fun x => s.inRange va len x.sector

def spaceOf (code : Nat) : Space :=
  match code with
  | 1 => .spad
  | 2 => .peer
  | _ => .mem

/-- dsp and ssp of R270. -/
def dspOf (o : Long) : Space := spaceOf (o.mod.val % 4)
def sspOf (o : Long) : Space := spaceOf (o.mod.val / 4 % 4)

/-- The import window that a peer address names, and the port: the one given, or the lowest of PORTS (R443, R444). -/
def State.peerWindow (s : State) (fn a : Nat) (port : Option Nat) : Option (Import × Nat) :=
  if bits a 56 8 ≠ 128 then none
  else
    let w := (s.thx.imports.getD fn []).getD (bits a 52 4) {}
    let p := port <|> (List.range 4).find? fun p => decide (bits w.ports p 1 = 1)
    if !w.v then none
    else p.bind fun p => if bits w.ports p 1 = 1 then some (w, p) else none

/-- The peer side of a copy: none when it has none, else its port, or a refusal (R443, R444). -/
def Ctx.peerPort (c : Ctx) (dsp ssp : Space) (d x : Nat) (port : Option Nat) : Except Unit Nat :=
  if dsp = .peer then (match c.s.peerWindow c.la.fn d port with
    | some (_, p) => .ok p
    | none => .error ())
  else if ssp = .peer then (match c.s.peerWindow c.la.fn x port with
    | some (_, p) => .ok p
    | none => .error ())
  else .ok 0

/-- A scratchpad side lies beyond the allocation (R222, R274). -/
def Ctx.beyond (c : Ctx) (sp : Space) (off len : Nat) : Bool := decide (sp = .spad) && decide (c.fl.spadSize < off + len)

/-- The device ranges of a copy whose cached stores are cleaned at issue: the source as R129 says, the destination so that an
earlier store of the entry comes before the copy's write (assumption 32). -/
def devSides (dsp ssp : Space) (d x dlen xlen : Nat) : List (Nat × Nat) :=
  (if ssp = .mem then [(x, xlen)] else []) ++ (if dsp = .mem then [(d, dlen)] else [])

/-- A copy starts with its chunks, or is done at once when it has none (R72, R274). -/
def Ctx.startCopy (c : Ctx) (o : Long) (e : Entry) (cp : CopyOp) (sides : List (Nat × Nat)) : State :=
  if cp.chunks.isEmpty then c.refuseOp o e 0 0
  else c.startOp (sides.foldl (fun s r => s.cleanRange c.ref.core r.1 r.2) c.s) o e 0 (.copy cp)

/-- The copy counter cannot rise (R72). -/
def Ctx.full (c : Ctx) (cls : Nat) : Bool := decide (63 ≤ c.e.counts.getD cls 0)
def Ctx.holdCount (c : Ctx) (cls : Nat) : State := c.put { c.e with status := .held (.counter cls) }

/-- A copy with no chain. -/
def copyOf (dsp ssp : Space) (port : Nat) (ks : List Chunk) : CopyOp := { plainCopy 0 0 0 with dsp := dsp, ssp := ssp, port := port, chunks := ks }

/-- CPY (R274). -/
def execCpy (o : Long) (s : State) : Host.Outcome State Fault Refusal :=
  s.issue fun c => c.onceUni .cpy o fun l a b x =>
    let (d, y, n) := (a.toNat, b.toNat, x.toNat % 2 ^ 32)
    if c.beyond (dspOf o) d n then c.raise (longWords o) (spadFault d none)
    else if c.beyond (sspOf o) y n then c.raise (longWords o) (spadFault y none)
    else match c.peerPort (dspOf o) (sspOf o) d y (some (o.imm.val % 4)) with
      | .error _ => c.refuseOp o l.e 0 6
      | .ok port =>
        if n = 0 then c.refuseOp o l.e 0 0
        else if c.full 0 then c.holdCount 0
        else c.startCopy o l.e (copyOf (dspOf o) (sspOf o) port (chunksOf d y n)) (devSides (dspOf o) (sspOf o) d y n n)

/-! ### CPYP (R276, R277) -/

/-- A range lies in one region of the launch with a right (R277). -/
def Launch.covers (la : Launch) (lo hi right : Nat) : Bool :=
  la.regions.any fun r => decide (r.base ≤ lo) && decide (hi ≤ r.base + r.size) && decide (bits r.rights right 1 = 1)

/-- One side of a CPYP passes the check of R277. -/
def Ctx.sideOk (c : Ctx) (sp : Space) (a ext right : Nat) (port : Nat) : Bool :=
  match sp with
  | .mem => c.la.covers a (a + ext) right
  | .spad => decide (a + ext ≤ c.fl.spadSize)
  | .peer => match c.s.peerWindow c.la.fn a (some port) with
    | some (w, _) => decide (bits a 0 52 + ext ≤ w.size) && decide (bits w.rights right 1 = 1)
    | none => false

/-- CPYP: a record of rows (R276). -/
def execCpyp (o : Long) (s : State) : Host.Outcome State Fault Refusal :=
  s.issue fun c => c.onceUni .cpyp o fun l a _ _ =>
    let off := a.toNat % 2 ^ 32
    c.accessSpad (longWords o) false true [⟨l.acting.headD 0, off, 32⟩]
      (let w := leNat (Memory.readN c.fl.spad off 32)
       let (dst, src, rb, rows) := (bits w 0 64, bits w 64 64, bits w 128 32, bits w 160 32)
       let (dp, sp) := (bits w 192 32, bits w 224 32)
       let (dsp, ssp, port) := (dspOf o, sspOf o, o.imm.val % 4)
       let dext := (rows - 1) * dp + rb
       let sext := (rows - 1) * sp + rb
       if rows = 0 then c.refuseOp o l.e 0 0
       else if 1 < rows ∧ (dp < rb ∨ sp < rb) then c.refuseOp o l.e 0 6
       else if !c.sideOk dsp dst dext 1 port ∨ !c.sideOk ssp src sext 0 port then c.refuseOp o l.e 0 6
       else if c.full 0 then c.holdCount 0
       else c.startCopy o l.e (copyOf dsp ssp port ((List.range rows).flatMap fun r => chunksOf (dst + r * dp) (src + r * sp) rb))
         (devSides dsp ssp dst src dext sext))

/-! ### CPYK (R278) -/

def linkOf (o : Long) : Link :=
  match o.mod.val / 16 with
  | 0 => .first
  | 1 => .mid
  | 2 => .last
  | _ => .only

/-- CPYK: a command of the entry's chain (R278).  A command refused leaves the chain open and broken (R273). -/
def execCpyk (o : Long) (s : State) : Host.Outcome State Fault Refusal :=
  s.issue fun c => c.onceUni .cpyk o fun l a b x =>
    let (d, y, n) := (a.toNat, b.toNat, 16 * o.imm.val)
    let (dsp, ssp, link) := (dspOf o, sspOf o, linkOf o)
    let starts := decide (link = .first ∨ link = .only)
    let ch := l.e.chain
    if d % 16 ≠ 0 ∨ y % 16 ≠ 0 then c.raise (longWords o) ⟨12, 3, 0, 7, false, if d % 16 ≠ 0 then d else y, 0, none⟩
    else if c.beyond dsp d n then c.raise (longWords o) (spadFault d none)
    else if c.beyond ssp y n then c.raise (longWords o) (spadFault y none)
    else if !starts ∧ !ch.isOpen then c.refuseOp o l.e 0 3
    else
      let ch : Chain := if starts then { id := c.s.nextId + 1 } else ch
      let ch' : Chain := { ch with next := ch.next + 4 * o.imm.val, isOpen := decide (link = .first ∨ link = .mid) }
      match c.peerPort dsp ssp d y none with
      | .error _ => c.refuseOp o { l.e with chain := { ch' with broken := true } } 0 6
      | .ok port =>
        if c.full 0 then c.holdCount 0
        else
          let cp : CopyOp := { copyOf dsp ssp port (chunksOf d y n) with
            link := some link
            expect := x.setWidth 32
            chain := ch.id
            prior := ch.acc
            startIndex := ch.next
            broken := ch.broken }
          c.startCopy o { l.e with chain := ch' } cp (devSides dsp ssp d y n n)

/-! ### Chunks (R123, R129, R274, R275, R278, R391, R393, R437, R445) -/

/-- What moving one chunk comes to. -/
inductive Moved where
  /-- It is performed: the bytes written, and where in device memory. -/
  | done (s : State) (bs : List Byte) (wrote : List (Nat × Nat))
  | park (cause : Nat) (pair : Option Nat)
  | fault (f : AccFault)
  | poisoned (va : Nat)
  | wait (line : Nat)
  /-- Its flits are on their way (R435). -/
  | sent (s : State)
  /-- The peer module refused it (R273). -/
  | denied (s : State)

def Acc.moved (a : Acc) : Moved :=
  match a with
  | .park cause _ pair => .park cause pair
  | .fault f => .fault f
  | .poisoned va => .poisoned va
  | .wait l => .wait l
  | .ok _ => .park 0 none

/-- The pair of a peer port that a chunk uses (R444). -/
def peerPair (port dst : Nat) : Nat := 64 + 4 * port + dst / 4096 % 4

/-- The request of a chunk of an operation on a peer's pair. -/
def State.chunkReq (s : State) (id : Nat) (k : Chunk) : Option TReq := s.thx.reqs.find? fun r => decide (r.chunk = some (id, k.dst))

/-- A chunk joins the queue of its pair, a flit for every 128 bytes (R431, R435, R444). -/
def State.sendChunk (s : State) (g : Agent) (id pair : Nat) (k : Chunk) : State :=
  { s with nextId := s.nextId + 1,
           thx := { s.thx with reqs := s.thx.reqs ++
             [⟨s.nextId, pair, g.share, g.cls, 3, 0, 0, g.fn, s.thx.slotCtr, ceilDiv k.len 128, none, none, g.owner, g.die, [],
               some (id, k.dst)⟩] } }

/-- What the port says of a chunk: parked, refused, on its way in the port's slots, or there; a peer that the window allows may
still refuse it (R435, R439, R442, R444, R445; assumption 33). -/
def State.peerGate (s : State) (g : Agent) (id : Nat) (c : CopyOp) (k : Chunk) : Option Moved :=
  let a := if c.dsp = .peer then k.dst else k.src
  let pair := peerPair c.port k.dst
  let t : State := { s with draws := s.draws + 1 }
  let allowed := match s.peerWindow g.fn a (some c.port) with
    | some (w, _) => decide (bits a 0 52 + k.len ≤ w.size) && decide (bits w.rights (if c.dsp = .peer then 1 else 0) 1 = 1)
    | none => false
  if !(s.port c.port).sess ∨ !allowed then some (.denied s)
  else if (s.link pair).state ≠ 0 then some (.park 1 (some pair))
  else if !((s.thx.pst.getD c.port []).any fun e => decide (e.share = g.share)) then some (.park 4 (some pair))
  else match s.chunkReq id k with
    | none => some (.sent (s.sendChunk g id pair k))
    | some q => if q.sentSlot.isNone then some (.sent s) else if Config.freeChoice s.draws % 2 = 1 then some (.denied t) else none

/-- Reads a chunk's source (R275). -/
def State.chunkSource (s : State) (g : Agent) (f : Option Flight) (c : CopyOp) (k : Chunk) : Except Moved (State × List Byte) :=
  match c.ssp with
  | .mem => match s.check g none .load k.src k.len 1 with
    | .ok ps => .ok (s.serve g none ps, s.readPieces ps)
    | e => .error e.moved
  | .spad => match f with
    | some f =>
      if f.damagedIn k.src k.len then .error (.poisoned k.src)
      else .ok (s, Memory.readN f.spad k.src k.len)
    | none => .ok (s, [])
  | .peer => .ok ({ s with draws := s.draws + 1 }, freeData s.draws k.len)

/-- Writes a chunk's destination. -/
def State.chunkDest (s : State) (g : Agent) (f : Option Flight) (c : CopyOp) (k : Chunk) (bs : List Byte) : Moved :=
  match c.dsp with
  | .mem => match s.check g none .store k.dst k.len 1 with
    | .ok ps => .done ((s.serve g none ps).writeFor g.owner ps bs) bs ps
    | e => e.moved
  | .spad => match f with
    | some f => .done (s.modFlight f.id fun f => f.putSpad k.dst bs) bs []
    | none => .done s bs []
  | .peer => .done s bs []

/-- Moves one chunk of an operation. -/
def State.moveChunk (s : State) (g : Agent) (f : Option Flight) (id : Nat) (c : CopyOp) (k : Chunk) : Moved :=
  match (if c.dsp = .peer ∨ c.ssp = .peer then s.peerGate g id c k else none) with
  | some m => m
  | none => match s.chunkSource g f c k with
    | .error m => m
    | .ok (t, bs) => ({ t with thx := { t.thx with reqs := t.thx.reqs.filter fun r => r.chunk ≠ some (id, k.dst) } } : State).chunkDest g f c k bs

/-- The sum of words from an index (R278). -/
def chainSum : List Nat → Nat → W32 → W32
  | [], _, sum => sum
  | w :: ws, i, sum => chainSum ws (i + 1) (sum + (BitVec.ofNat 32 w).rotateLeft (i % 32))

/-- A copy with chunk `n` performed. -/
def CopyOp.perform (c : CopyOp) (n : Nat) (k : Chunk) (bs : List Byte) (wrote : List (Nat × Nat)) : CopyOp :=
  { c with
    chunks := c.chunks.eraseIdx n
    performed := c.performed + 1
    sum := if c.link.isSome then chainSum (wordsOfBytes bs) (c.startIndex + k.index) c.sum else c.sum
    wrote := c.wrote ++ wrote }

/-- A chunk goes in progress, or waits again. -/
def CopyOp.setChunk (c : CopyOp) (n : Nat) (started parked : Bool) : CopyOp :=
  { c with chunks := c.chunks.modify n fun k => { k with started := started, parked := parked } }

def AsyncOp.setCopy (o : AsyncOp) (c : CopyOp) : AsyncOp := { o with kind := .copy c }

/-- A chunk parks: the chunks of its copy not started stand as one replay entry (R130, R391). -/
def State.parkChunk (s : State) (f : Flight) (o : AsyncOp) (c : CopyOp) (n : Nat) (k : Chunk) (cause : Nat) (pair : Option Nat) :
    State :=
  match s.opAt o.id with
  | none => s
  | some (r, _) =>
    let left := ((c.chunks.filter fun x => !x.started).map Chunk.len).sum + k.len
    let e := s.entry r
    let x : Replay :=
      { index := 0, cause := cause, kind := 3, owner := s.ownerOf f.id, slot := r.slot, entry := r.pos, pos := 0, addr := k.dst,
        len := left, order := (e.map Entry.order).getD 0, aux := o.seq, src := k.src, ptime := 0, pair := pair, core := r.core,
        op := o.id, flight := f.id, item := (e.map Entry.start).getD 0, pc := (e.map Entry.pc).getD 0, left := 0, work := .again }
    let t := if (s.core r.core).replay.any fun y => decide (y.kind = 3 ∧ y.op = o.id) then s else s.park r.core x
    if (t.core r.core).replay.any fun y => decide (y.kind = 3 ∧ y.op = o.id) then
      t.modOp o.id fun y => y.setCopy (c.setChunk n false true)
    else s

/-- The words that a chunk of a chain has written count in the chain of the entry that holds it (R278, R286). -/
def State.countWords (s : State) (id : Nat) (c : CopyOp) (k : Chunk) (bs : List Byte) : State :=
  let on (e : Entry) : Entry :=
    if c.link.isSome ∧ e.chain.id = c.chain ∧ e.ops.any (fun o => decide (o.id = id)) then
      { e with chain := { e.chain with sum := chainSum (wordsOfBytes bs) (c.startIndex + k.index) e.chain.sum,
                                       index := e.chain.index + bs.length / 4 } }
    else e
  match s.opAt id with
  | some (r, _) => s.modEntry r on
  | none => s.mapSaved id on

/-- A started chunk of an entry's copy runs (R274, R275, R400). -/
def State.performChunk (s : State) (f : Flight) (o : AsyncOp) (c : CopyOp) (n : Nat) (k : Chunk) : State :=
  let holder (e : Entry) : Bool := e.ops.any fun x => decide (x.id = o.id)
  match s.moveChunk (s.agentOf f) (some f) o.id c k with
  | .done t bs wrote => ((t.charge f.part k.len).countWords o.id c k bs).modOp o.id fun x => (x.setCopy (c.perform n k bs wrote)).settle
  | .sent t => t
  | .denied t => t.modOp o.id AsyncOp.deny
  | .fault e => s.raiseFor f.id holder (e.info none)
  | .poisoned a => s.raiseFor f.id holder (hwError a)
  | .wait l => s.askLine (s.agentOf f) l
  | .park cause pair => s.parkChunk f o c n k cause pair

/-- A chunk of a COPY packet (R367, R368); one that parks waits at the queue engine until its page's move ends (R111, R404;
assumption 40). -/
def State.packetChunk (s : State) (p : Started) (c : CopyOp) (n : Nat) (k : Chunk) : State :=
  let put (t : State) (c : CopyOp) : State := { t with queue := { t.queue with started := t.queue.started.map fun x =>
    if x.id = p.id then { x with copy := some c } else x } }
  if !k.started then put s (c.setChunk n true false)
  else if k.parked then s
  else match s.moveChunk (fnAgent p.fn) none p.id c k with
    | .done t bs wrote =>
      let d := c.perform n k bs wrote
      if d.chunks.isEmpty then t.completePacket p 0 else put t d
    | .fault _ | .poisoned _ => s.completePacket p 9
    | .wait l => s.askLine (fnAgent p.fn) l
    | .park _ _ => put s (c.setChunk n true true)
    | .sent _ | .denied _ => s

/-- COPY_CHUNK_PERFORM: a chunk not started starts; one that has started is performed (R274). -/
def execCopyChunkPerform (op chunk : Nat) (s : State) : Host.Outcome State Fault Refusal :=
  .next (match s.flightWith op, (s.opAt op).map (fun x => x.2) <|> (s.savedOp op).map fun x => x.2 with
    | some f, some o => match o.kind with
      | .copy c => match c.chunks[chunk]? with
        | some k =>
          if k.parked ∨ ((c.dsp = .spad ∨ c.ssp = .spad) ∧ !s.banksLive f.alloc) then s
          else if k.started then s.performChunk f o c chunk k
          else if f.state = .resident ∨ f.state = .asked then s.modOp op fun x => x.setCopy (c.setChunk chunk true false)
          else s
        | none => s
      | _ => s
    | _, _ => match s.queue.started.find? fun p => decide (p.id = op) with
      | some p => match p.copy with
        | some c => match c.chunks[chunk]? with
          | some k => s.packetChunk p c chunk k
          | none => s
        | none => s
      | none => s)

/-! ### Collectives (R279, R280, R446, R447) -/

/-- The valid entry of the function's collective table that an identifier names (R446). -/
def State.collEntry (s : State) (fn : Nat) (ident : W32) : Option CollEnt :=
  (s.thx.colls.getD fn []).find? fun e => e.v && decide (e.ident = ident)

/-- How many uses of an identifier a function has counted (R448). -/
def State.collUse (s : State) (fn : Nat) (ident : W32) : Nat :=
  ((s.thx.collUses.find? fun u => decide (u.1 = fn ∧ u.2.1 = ident)).map fun u => u.2.2).getD 0

def State.countUse (s : State) (fn : Nat) (ident : W32) : State :=
  { s with thx := { s.thx with
      collUses := (fn, ident, s.collUse fn ident + 1) :: s.thx.collUses.filter fun u => !decide (u.1 = fn ∧ u.2.1 = ident) } }

/-- What this module contributes to a use: offset in the buffer and bytes (R279). -/
def contribution (kind rank root parts n : Nat) : Nat × Nat :=
  match kind with
  | 0 => (0, n)
  | 1 => (0, if rank = root then n else 0)
  | 2 => (rank * n, n)
  | _ => (0, parts * n)

/-- COLL (R279): the contribution is read at issue, earlier stores to it cleaned first (R129). -/
def execColl (o : Long) (s : State) : Host.Outcome State Fault Refusal :=
  s.issue fun c => c.onceUni .coll o fun l a b x =>
    let ident := x.setWidth 32
    let kind := o.mod.val % 4
    let root := o.imm.val % 256
    match c.s.collEntry c.la.fn ident with
    | none => c.refuseOp o l.e 2 6
    | some e =>
      let count := b.toNat % 2 ^ 32
      let part := contribution kind e.rank root e.p (count * o.ty.bytes)
      if kind = 1 ∧ e.p ≤ root then c.refuseOp o l.e 2 6
      else if c.full 2 then c.holdCount 2
      else c.access (longWords o) .load 1 0 [⟨l.acting.headD 0, a.toNat + part.1, part.2⟩] fun c rs =>
        let ps := rs.flatMap Prod.snd
        let t := c.s.cleanCache c.ref.core fun y => ps.any fun p => decide (p.1 / 128 = y.sector)
        let op : CollOp := ⟨ident, t.collUse c.la.fn ident, kind, o.mod.val / 4, o.ty, count, root, a.toNat, e.rank, e.p,
          t.readPieces ps, c.s.clock, []⟩
        c.startOp (t.countUse c.la.fn ident) o l.e 2 (.coll op)

/-- The elements of some bytes. -/
def elements (n : Nat) : Nat → List Byte → List W64
  | 0, _ => []
  | k + 1, bs => BitVec.ofNat 64 (leNat (bs.take n)) :: elements n k (bs.drop n)

/-- The left fold over the participants in rank order, element by element (R207, R279). -/
def reduceAll (t : Ty) (op n : Nat) (parts : List (List Byte)) : List Byte :=
  let cols := parts.map (elements t.bytes n)
  (List.range n).flatMap fun i => leBytes t.bytes (foldVals t op false (cols.map fun es => es.getD i 0)).toNat

/-- The result of a use from every participant's contribution in rank order (R279). -/
def CollOp.outcome (c : CollOp) (parts : List (List Byte)) : List Byte :=
  let n := c.count * c.ty.bytes
  match c.kind with
  | 0 => reduceAll c.ty c.op c.count parts
  | 1 => parts.getD c.root []
  | 2 => parts.flatten
  | _ => reduceAll c.ty c.op c.count (parts.map fun p => (p.drop (c.rank * n)).take n)

/-- Every contribution has the bytes that its rank gives. -/
def CollOp.complete (c : CollOp) (parts : List (List Byte)) : Bool :=
  decide (parts.length = c.parts) && parts.zipIdx.all fun (p, r) =>
    decide (p.length = (contribution c.kind r c.root c.parts (c.count * c.ty.bytes)).2)

/-- An exchange of a use that goes on: with every contribution the result is written at device scope and the use retires.  R391 has no
kind of replay entry for a collective: one whose result parks is held by its engine, which exchanges again (assumption 40). -/
def State.exchange (s : State) (f : Flight) (o : AsyncOp) (c : CollOp) (others : List (List Byte)) : State :=
  let parts := others.take c.rank ++ [c.local_] ++ others.drop c.rank
  if !c.complete parts then s.modOp o.id fun x => { x with kind := .coll { c with progress := s.clock } }
  else
    let holder (e : Entry) : Bool := e.ops.any fun x => decide (x.id = o.id)
    let out := c.outcome parts
    match s.check (s.agentOf f) none .store c.result.1 out.length 1 with
    | .ok ps =>
      (((s.serve (s.agentOf f) none ps).writeFor (s.ownerOf f.id) ps out).charge f.part out.length).modOp o.id fun x =>
        { x with kind := .coll { c with wrote := ps, progress := s.clock }, done := true }
    | .fault e => s.raiseFor f.id holder (e.info none)
    | .poisoned a => s.raiseFor f.id holder (hwError a)
    | .wait l => s.askLine (s.agentOf f) l
    | .park _ _ _ => s

/-- COLL_EXCHANGE: the neighbour's blocks, `others` in rank order without this module's; a disagreement ends the use with
MISMATCH (R280, R447). -/
def execCollExchange (op : Nat) (agree : Bool) (others : List (List Byte)) (s : State) : Host.Outcome State Fault Refusal :=
  .next (match s.flightWith op, (s.opAt op).map (fun x => x.2) <|> (s.savedOp op).map fun x => x.2 with
    | some f, some o => match o.kind with
      | .coll c =>
        if o.done then s
        else if agree then s.exchange f o c others
        else (s.garble op).modOp op fun x => x.abort 2
      | _ => s
    | _, _ => s)

/-! ### Status and counters (R273, R281) -/

/-- The status that a ticket names. -/
def Entry.statOf (e : Entry) (t : Nat) : Option OpStat :=
  if 2 ^ 18 ≤ t then none else e.stats.find? fun x => decide (x.seq = t % 65536 ∧ x.cls = t / 65536)

def OpStat.word (x : OpStat) : W64 := BitVec.ofNat 64 (x.code + x.cause * 2 ^ 8 + min x.chunks 0xFFFF * 2 ^ 16 + x.sum.toNat * 2 ^ 32)

/-- A status with the chunks that an outstanding copy has performed so far (R273). -/
def Entry.soFar (e : Entry) (x : OpStat) : OpStat :=
  match (e.ops.find? fun o => decide (o.id = x.id)).map AsyncOp.kind with
  | some (.copy c) => { x with chunks := c.performed }
  | _ => x

/-- CSTAT (R273). -/
def execCstat (o : Long) (s : State) : Host.Outcome State Fault Refusal :=
  s.issue fun c => c.once .cstat o fun l =>
    let w := ((l.e.statOf ((l.a.at (l.acting.headD 0)).toNat % 2 ^ 32)).map fun x => (l.e.soFar x).word).getD 7
    c.close (longWords o) ((l.e.writeAll c.ke.regs true o.d w).map fun e => e.advance (longWords o))

/-- The counters in the layout of R281. -/
def countWord (cs : List Nat) : Nat := cs.getD 0 0 + cs.getD 1 0 * 2 ^ 8 + cs.getD 2 0 * 2 ^ 16 + cs.getD 3 0 * 2 ^ 24

def execCnt (o : Long) (s : State) : Host.Outcome State Fault Refusal :=
  s.issue fun c => c.once .cnt o fun l =>
    c.close (longWords o) ((l.e.writeAll c.ke.regs false o.d (BitVec.ofNat 64 (countWord c.e.counts))).map fun e => e.advance (longWords o))

/-! ### Streams (R71, R284, R285) -/

/-- The stream of a queue still has elements to fetch or to deliver to the program. -/
def Stream.running (q : Stream) : Bool := !q.ended && (decide (q.fetched < q.total) || !q.queued.isEmpty)

/-- Every corner of a stream's extent (R277). -/
def corners (base istride : Int) (p0 p1 : Nat) (counts : List Nat) (strides : List Int) : List Int :=
  let ends (n : Nat) (st : Int) : List Int := [0, ((n - 1 : Nat) : Int) * st]
  ([base + (p0 : Int) * istride, base + (p1 : Int) * istride]).flatMap fun x =>
    (ends (counts.getD 0 1) (strides.getD 0 0)).flatMap fun a =>
      (ends (counts.getD 1 1) (strides.getD 1 0)).flatMap fun b =>
        (ends (counts.getD 2 1) (strides.getD 2 0)).map fun d => x + a + b + d

/-- The extent of a stream lies in one readable region of the launch (R277). -/
def Ctx.streamFits (c : Ctx) (w : Nat) (cs : List Int) : Bool :=
  match cs with
  | [] => false
  | x :: xs =>
    let lo := xs.foldl min x
    let hi := xs.foldl max x
    decide (0 ≤ lo) && c.la.covers lo.toNat (hi.toNat + w) 0

/-- STRM (R284).  Its elements are read from coherent memory; the rule orders them against the entry's later stores alone, and the
model cleans no earlier store at issue, so that an element reads such a store only once it has left the core cache (DESIGN CHOICE,
assumption 41). -/
def execStrm (o : Long) (s : State) : Host.Outcome State Fault Refusal :=
  s.issue fun c => c.onceUni .strm o fun l a _ _ =>
    let off := a.toNat % 2 ^ 32
    let i0 := l.acting.headD 0
    c.accessSpad (longWords o) false true [⟨i0, off, 16⟩, ⟨i0, off + 16, 16⟩, ⟨i0, off + 32, 16⟩]
      (let r := leNat (Memory.readN c.fl.spad off 48)
       let q := o.imm.val % 4
       let wide := decide (o.mod.val = 1)
       let w : Nat := if wide then 8 else 4
       let counts := [96, 160, 224].map fun b => max 1 (bits r b 32)
       let strides := [128, 192, 256].map fun b => signed 32 (bits r b 32)
       let istride := signed 32 (bits r 64 32)
       let total := counts.foldl (· * ·) 1
       let bad := decide (bits r 288 96 ≠ 0) || (istride :: strides).any (fun x => decide (x % (w : Int) ≠ 0)) ||
         decide (2 ^ 32 ≤ total) || ((c.e.streams.getD q none).map Stream.running).getD false ||
         !c.streamFits w (corners (bits r 0 64 : Nat) istride (c.e.posOf 0) (c.e.posOf (c.e.len - 1)) counts strides)
       if bad then c.refuseOp o l.e 3 6
       else if c.full 3 then c.holdCount 3
       else
         let st : Stream := ⟨wide, bits r 0 64, istride, counts, strides, total, 0, [], 0, some c.s.nextId, false⟩
         c.startOp c.s o { l.e with streams := l.e.streams.set q (some st) } 3 (.stream q))

/-- The address of element `n` at a position (R284). -/
def Stream.addr (q : Stream) (p n : Nat) : Nat :=
  let j0 := n % q.counts.getD 0 1
  let j1 := n / q.counts.getD 0 1 % q.counts.getD 1 1
  let j2 := n / (q.counts.getD 0 1 * q.counts.getD 1 1)
  wrapZ 64 ((q.base : Int) + p * q.istride + j0 * q.strides.getD 0 0 + j1 * q.strides.getD 1 0 + j2 * q.strides.getD 2 0)

/-- The accesses of the next element of every live item. -/
def Entry.streamAccs (e : Entry) (q : Stream) : List ItemAcc :=
  ((List.range e.len).filter e.live).map fun i => ⟨i, q.addr (e.posOf i) q.fetched, if q.wide then 8 else 4⟩

/-- A row of elements joins the queue; the last one retires the stream (R284). -/
def Entry.takeRow (e : Entry) (n : Nat) (q : Stream) (row : List (Nat × W64)) : Entry :=
  let vals := (List.range e.len).map fun i => ((row.find? fun p => decide (p.1 = i)).map Prod.snd).getD 0
  let q' : Stream := { q with queued := q.queued ++ [vals], fetched := q.fetched + 1 }
  let e : Entry := { e with
    streams := e.streams.set n (some q')
    status := if e.status = .held (.queue n) then .ready else e.status }
  match q.op with
  | some id => if q'.fetched = q.total then e.modOp id fun o => { o with done := true } else e
  | none => e

/-- One element of every item is fetched: one replay entry stands for what parks (R284, R391). -/
def Ctx.fetchRow (c : Ctx) (n : Nat) (q : Stream) : State :=
  let rs := checkEach (fun va len => c.s.check c.agent none .load va len len) (c.e.streamAccs q) none
  match rs.findSome? fun r => r.2.isFault.map fun f => (r.1, f) with
  | some (a, f) => c.s.raiseAt c.ref (f.info (some a.item))
  | none => match rs.find? fun r => r.2.isPoisoned with
    | some (a, _) => c.s.raiseAt c.ref (hwError a.addr)
    | none => match rs.findSome? fun r => r.2.isWait with
      | some l => c.s.askLine c.agent l
      | none => match rs.findSome? fun r => r.2.isPark.map fun p => (r.1, p) with
        | some (a, cause, pair) => c.s.park c.ref.core (c.replayOf 5 n a cause pair 0 .again)
        | none =>
          let t := c.s.serve c.agent none (rs.flatMap fun r => r.2.pieces)
          let row := rs.map fun r => (r.1.item, BitVec.ofNat 64 (leNat (t.readPieces r.2.pieces)))
          (t.setEntry c.ref (c.e.takeRow n q row)).retireAt c.ref

/-- STREAM_ELEMENT_DELIVER (R284). -/
def execStreamElementDeliver (e : EntryRef) (queue : Nat) (s : State) : Host.Outcome State Fault Refusal :=
  .next (match s.ctxAt e with
    | none => s
    | some c => match c.e.streams.getD queue none with
      | none => s
      | some q =>
        if q.ended ∨ q.total ≤ q.fetched ∨ 16 ≤ q.queued.length ∨ c.fl.state = .saving ∨
            ((s.core e.core).replay.any fun r => decide (r.kind = 5 ∧ r.slot = e.slot ∧ r.entry = e.pos ∧ r.aux = queue)) then s
        else c.fetchRow queue q)

/-- Ends the stream of a queue: what is queued goes, and the stream retires if it is outstanding (R285). -/
def State.endStream (s : State) (r : EntryRef) (e : Entry) (n : Nat) : State :=
  match e.streams.getD n none with
  | none => s.setEntry r e
  | some q =>
    let e : Entry := { e with streams := e.streams.set n (some { q with queued := [], ended := true }) }
    let e := match q.op with
      | some id => e.modOp id fun o => { o with done := true }
      | none => e
    ((s.setEntry r e).dropReplay r.core fun x => decide (x.kind = 5 ∧ x.slot = r.slot ∧ x.entry = r.pos ∧ x.aux = n)).retireAt r

/-- STRX (R285). -/
def execStrx (o : Long) (s : State) : Host.Outcome State Fault Refusal :=
  s.issue fun c => c.once .strx o fun l =>
    let q := o.imm.val % 4
    let on := ((c.e.streams.getD q none).map Stream.running).getD false
    c.andThen (longWords o) (l.e.writeAll c.ke.regs false o.d (if on then 0 else 1)) fun e =>
      if on then c.s.endStream c.ref (e.advance (longWords o)) q else c.put (e.advance (longWords o))

/-! ### CANCEL (R283) -/

/-- A copy with its chunks not started discarded. -/
def AsyncOp.cancelCopy (o : AsyncOp) (c : CopyOp) : AsyncOp :=
  (o.setCopy { c with
    chunks := c.chunks.filter Chunk.started
    cancelled := c.cancelled || c.chunks.any fun k => !k.started }).settle

/-- CANCEL acts on the operation that a ticket names: 0 when it was outstanding, 1 when it is too late. -/
def execCancel (o : Long) (s : State) : Host.Outcome State Fault Refusal :=
  s.issue fun c => c.once .cancel o fun l =>
    let t := (l.a.at (l.acting.headD 0)).toNat % 2 ^ 32
    let found := (l.e.statOf t).bind fun x => l.e.ops.find? fun y => decide (y.id = x.id)
    let fin (code : Nat) (k : Entry → State) : State :=
      c.andThen (longWords o) (l.e.writeAll c.ke.regs false o.d (BitVec.ofNat 64 code)) fun e => k (e.advance (longWords o))
    match found with
    | none => fin 1 c.put
    | some y => match y.kind with
      | .matrix _ => fin 1 c.put
      | .copy _ => fin 0 fun e => ((c.put e).dropReplay c.ref.core fun r => decide (r.kind = 3 ∧ r.op = y.id)).modOp y.id fun z =>
          match z.kind with
          | .copy x => z.cancelCopy x
          | _ => z
      | .coll _ => fin 0 fun e => ((c.put e).garble y.id).modOp y.id fun z => z.abort 3
      | .stream q => fin 0 fun e => c.s.endStream c.ref e q

end Sys2Proof.Machine
end

