-- ==== Sys2Proof/Machine/Divide.lean ====
section
/-!
DEFINITION. Instructions and steps that divide and merge entries: BRC, SPLIT, FUSE and re-joins (R36 to R47, R73, R167,
R169 to R171, R272).
-/
namespace Sys2Proof.Machine

/-! ### Piece tables -/

/-- Replaces entries of a slot: those at some positions go, the others stay, new ones join. -/
def Slot.replace (x : Slot) (drop : List Nat) (add : List Entry) : Slot :=
  { x with entries := x.entries.filter (fun e => !drop.contains e.pos) ++ add }

/-- Free positions of a slot's piece table of 8 (R29). -/
def Slot.freePos (x : Slot) : List Nat := (List.range 8).filter fun p => (x.entry p).isNone

/-! ### BRC (R36 to R39, R167) -/

/-- The entry cut at offset `k`: the low piece keeps the position and the operations, the high piece takes `pos` (R38, R73).
`lowTrue` sends the low piece to the target. -/
def Ctx.cut (c : Ctx) (words k pos target : Nat) (lowTrue : Bool) : State :=
  let e := { c.e with levels := .cut c.s.nextId 2 :: c.e.levels }
  let go (x : Entry) (t : Bool) : Entry := if t then x.jump target else x.advance words
  let low := (go (e.part 0 k) lowTrue).close
  let high := (go { (e.part k (e.len - k)).fresh with pos := pos } (!lowTrue)).close
  { c.s.modSlot c.ref.core c.ref.slot (fun x => x.replace [c.ref.pos] [low, high]) with nextId := c.s.nextId + 1 }

/-- BRC under an item mask (R39): `t` says which items the branch takes; `cause` is why an affine comparison is masked. -/
def Ctx.maskBranch (c : Ctx) (words target cause : Nat) (t : Nat → Bool) : State :=
  let e := c.e
  let taken := e.activeList.filter t
  let push (pending : List Bool) : Entry := { e with levels := .mask e.mask target pending cause :: e.levels }
  let noneLeft := List.replicate e.len false
  c.put (if taken.isEmpty then (push noneLeft).advance words
    else if taken.length = e.activeList.length then (push noneLeft).jump target
    else { (push ((List.range e.len).map taken.contains)).advance words with
             mask := (List.range e.len).map fun i => e.mask.getD i false && !taken.contains i })

/-- BRC: a whole entry, a cut, or an item mask, by the predicate's form (R37). -/
def Ctx.runBrc (c : Ctx) (o : Long) : State :=
  let words := longWords o
  let e := c.e
  let target := branchTarget e.pc o
  let neg := decide (o.mod.val % 2 = 1)
  let n := match o.a with
    | .p n => n.val
    | _ => 7
  if e.activeList.isEmpty then c.maskBranch words target 0 fun _ => false
  else match e.pred n with
    | .uni t =>
      let x := { e with levels := .cut c.s.nextId 1 :: e.levels }
      { c.put (if t != neg then x.jump target else x.advance words) with nextId := c.s.nextId + 1 }
    | .aff t sense =>
      (match c.slot.freePos with
      | pos :: _ => c.cut words (t - e.start) pos target (sense == neg)
      | [] => c.maskBranch words target 2 fun i => (e.pred n).at e.start i != neg)
    | .den _ => c.maskBranch words target 1 fun i => (e.pred n).at e.start i != neg

def execBrc (o : Long) (s : State) : Host.Outcome State Fault Refusal := s.issue fun c => c.runBrc o

/-! ### Merging (R40, R42, R46, R73, R272) -/

/-- The levels of merged entries: sets of items are joined (R38, R40). -/
def joinLevels (pieces : List Entry) (levels : List Level) : List Level :=
  levels.mapIdx fun k l =>
    match l with
    | .cut i n => .cut i n
    | .mask _ t _ c =>
      let setOf (f : List Bool → List Bool → List Bool) (e : Entry) : List Bool :=
        match e.levels[k + (e.levels.length - levels.length)]? with
        | some (.mask sv _ p _) => f sv p
        | _ => []
      .mask (joinBools pieces (setOf fun sv _ => sv) false) t (joinBools pieces (setOf fun _ p => p) false) c

/-- The lowest damaged words of pieces, their offsets counted from the merged range's start. -/
def joinBad (start : Nat) (pieces : List Entry) : List BadWord :=
  pieces.flatMap fun p => p.bad.map fun b => { b with offset := b.offset.map fun i => i + p.start - start }

/-- The queues of a merged entry: the read positions of `lead`, each piece's own elements, and the operation wherever it is. -/
def joinStreams (pieces : List Entry) (lead : Entry) : List (Option Stream) :=
  (List.range 4).map fun q => (lead.streams.getD q none).map fun st =>
    let rows := joinRows pieces q st.popped
    { st with queued := rows, fetched := st.popped + rows.length,
              op := pieces.findSome? fun p => ((p.streams.getD q none).map Stream.op).getD none }

/-- The operation issued last among statuses that a party holds. -/
def lastIssued (e : Entry) : Nat := (e.stats.map fun x => x.issued).foldl max 0

/-- The issue sequence of the party that issued most recently (R272). -/
def joinSeq (pieces : List Entry) : Nat :=
  match pieces with
  | [] => 0
  | p :: ps => (ps.foldl (fun b e => if lastIssued b < lastIssued e then e else b) p).seq

/-- Entries merged: `pieces` in order of range start, `lead` the one whose scalars count, `levels` the stack left (R42, R46,
R73). -/
def mergeEntries (pieces : List Entry) (base lead : Entry) (levels : List Level) : Entry :=
  let start := (pieces.head?.map Entry.start).getD 0
  let stop := (pieces.getLast?.map fun e => e.start + e.len).getD 0
  let ops := match pieces with
    | [] => []
    | p :: ps => ps.foldl (fun l e => joinOps l e.brokenOps) p.ops
  let x : Entry := { base with
    start := start, len := stop - start, status := .ready,
    retired := (pieces.map Entry.retired).foldl max 0,
    regs := (List.range 128).map (mergeV pieces), xregs := (List.range 8).map (mergeX pieces),
    preds := (List.range 7).map (mergeP pieces),
    scalars := lead.scalars, gen := lead.gen, modctx := lead.modctx,
    levels := joinLevels pieces levels,
    mask := joinBools pieces Entry.mask true, dead := joinBools pieces Entry.dead false,
    ended := joinBools pieces Entry.ended false,
    xflag := pieces.any Entry.xflag,
    counts := pieces.foldl (fun l e => addCounts l e.counts) [0, 0, 0, 0],
    seq := joinSeq pieces,
    stats := (match pieces with
      | [] => []
      | p :: ps => ps.foldl (fun l e => joinStats l e.stats) p.stats),
    chain := base.chain, streams := joinStreams pieces lead, ops := ops,
    window := pieces.flatMap Entry.window, bad := joinBad start pieces, dsts := pieces.flatMap Entry.dsts }
  x.normAll

/-- Puts an entry in order of range start. -/
def insertByStart (e : Entry) : List Entry → List Entry
  | [] => [e]
  | x :: xs => if e.start ≤ x.start then e :: x :: xs else x :: insertByStart e xs

/-- The pieces of a cut that have arrived at its JOIN or ended, in order of range start (R40). -/
def Slot.arrivedAt (x : Slot) (id : Nat) : List Entry :=
  (x.entries.filter fun e => decide (e.status = .atJoin ∨ e.status = .done) && (match e.levels with
    | .cut i _ :: _ => decide (i = id)
    | _ => false)).foldr insertByStart []

/-- A re-join: when every piece has arrived and no counter would exceed 63 (R40, R73). -/
def State.rejoin (s : State) (r : EntryRef) : State :=
  match s.slot r.core r.slot, s.entry r with
  | some x, some e =>
    (match e.levels with
    | .cut id count :: ls =>
      let pieces := x.arrivedAt id
      if e.status ≠ .atJoin ∧ e.status ≠ .done then s
      else if pieces.length ≠ count ∨ (pieces.foldl (fun l p => addCounts l p.counts) [0, 0, 0, 0]).any (fun k => decide (63 < k)) then s
      else match pieces, leader pieces with
        | low :: _, some lead =>
          let pc := ((pieces.find? fun p => decide (p.status = .atJoin)).map Entry.pc).getD low.pc
          let m := ({ mergeEntries pieces low lead ls with pc := pc }).close
          (s.modSlot r.core r.slot fun x => x.replace (pieces.map Entry.pos) [m]).reap
        | _, _ => s
    | _ => s)
  | _, _ => s

def execRejoin (r : EntryRef) (s : State) : Host.Outcome State Fault Refusal := .next (s.rejoin r)

/-! ### SPLIT (R44, R169) -/

/-- The strands that SPLIT makes, from the one numbered `k` on: the first keeps the operations. -/
def splitParts (e : Entry) (w words : Nat) : Nat → List Nat → List Entry
  | _, [] => []
  | k, pos :: rest =>
    if e.len ≤ k * w then [] else
    let x := e.part (k * w) (min w (e.len - k * w))
    let x := if k = 0 then x else x.fresh
    ({ x with pos := pos, wstart := e.start + k * w, width := w, snum := e.snum + (e.start + k * w - e.wstart) / 16 }.advance words).close ::
      splitParts e w words (k + 1) rest

/-- SPLIT.  The count it writes takes in the new strands whose items are all dead or ended and that end at once: the rule does not say
whether it does (DESIGN CHOICE, assumption 48).  Where the slot's piece table has no room for every new strand SPLIT has no effect
(DESIGN CHOICE, assumption 47). -/
def execSplit (o : Long) (s : State) : Host.Outcome State Fault Refusal :=
  s.issue fun c =>
    let words := longWords o
    let w := if o.mod.val = 1 then 16 else 32
    let fits := decide (w < c.e.width ∧ ceilDiv c.e.len w ≤ c.slot.freePos.length + 1)
    let n := if fits then ceilDiv c.e.len w else 1
    match c.e.writeAll c.ke.regs false o.d (BitVec.ofNat 64 n) with
    | .error st => c.close words (.error st)
    | .ok e =>
      if !fits then c.put (e.advance words)
      else (c.s.modSlot c.ref.core c.ref.slot fun x =>
        x.replace [c.ref.pos] (splitParts e w words 0 (c.ref.pos :: x.freePos))).reap

/-! ### FUSE (R45 to R47, R170) -/

/-- The words of the matrix instruction that an entry waits with, at the latch, behind it or in an engine queue. -/
def Ctx.engineWords (c : Ctx) (id : Nat) : Option Nat :=
  ((c.fl.latch.toList ++ c.fl.released).findSome? fun p => if p.id = id then some (longWords p.o) else none) <|>
    c.fl.cores.findSome? fun k => (c.s.core k).queue.findSome? fun x => if x.id = id then some (longWords x.o) else none

/-- The PC of the instruction that an entry of the flight issues next, if that is fixed: an entry that waits goes on after its wait. -/
def Ctx.nextPc (c : Ctx) (e : Entry) : Option Nat :=
  match e.status with
  | .ready => some e.pc
  | .parked (.yieldc _ _ t) _ => some t
  | .parked (.barw o _ _) _ | .parked (.waitv o) _ | .parked (.waitc o) _ | .parked (.lock o _ _) _ | .parked (.qwait o) _
  | .held (.clrx o) | .held (.save _ o) => some (e.pc + 4 * longWords o)
  | .parked (.latch id) _ | .held (.engine id) => (c.engineWords id).map fun n => e.pc + 4 * n
  | .held _ => some e.pc
  | _ => none

/-- An entry is in the middle of a wait, whose status it has still to receive. -/
def Entry.waiting (e : Entry) : Bool :=
  match e.status with
  | .ready | .held (.fuse _) => false
  | _ => true

/-- The entries with a live item whose range abuts the issuer's, on the cores of its flight, with their slots. -/
def Ctx.abutting (c : Ctx) (down : Bool) : List (Slot × Entry) :=
  let cores := if c.fl.pair then [c.fl.core, c.fl.core + 1] else [c.fl.core]
  (c.s.slots.filter fun x => cores.contains x.core && decide (x.num < 128)).flatMap fun x =>
    (x.entries.filter fun e => decide (e.status ≠ .done) && decide (0 < e.liveCount) &&
      (if down then decide (e.start + e.len = c.e.start) else decide (e.start = c.e.start + c.e.len))).map fun e => (x, e)

/-- Stacks that agree in depth and in their entries: empty, or of pieces of one cut (R45, R46). -/
def sameStacks (a b : List Level) : Bool :=
  match a, b with
  | [], [] => true
  | .cut i _ :: xs, .cut j _ :: ys => decide (i = j) && decide (xs.length = ys.length)
  | _, _ => false

/-- The code of the first condition of R45 that applies, and the partner when none does.  Where an abutting strand of another flight of
the same launch and one of another launch both stand there, neither NADJ's condition nor KERN's holds as it is worded: the model
gives FUSE_KERN (DESIGN CHOICE, assumption 49). -/
def Ctx.fusePartner (c : Ctx) (down : Bool) : Nat × Option (Slot × Entry) :=
  let near := c.abutting down
  match near.find? fun p => decide (p.1.flight = c.fl.id) with
  | none =>
    let foreign := near.any fun p => match c.s.flightOf p.1.flight with
      | some f => decide (f.tag ≠ c.fl.tag)
      | none => false
    (if foreign then 2 else 1, none)
  | some (x, p) =>
    if x.core ≠ c.ref.core ∨ columnOf x.num ≠ columnOf c.ref.slot then (3, none)
    else if c.nextPc p ≠ some c.e.pc then (4, none)
    else if !sameStacks c.e.levels p.levels then (5, none)
    else if c.e.levels.isEmpty ∧ (p.width ≠ c.e.width ∨ 64 < p.width + c.e.width) then (6, none)
    else (0, some (x, p))

/-- A cut has one piece fewer (R46). -/
def lessPieces (id : Nat) (e : Entry) : Entry :=
  { e with levels := e.levels.map fun l => match l with
      | .cut i n => if i = id then .cut i (n - 1) else .cut i n
      | l => l }

/-- The two parties fused (R46).  The strand whose number is gone leaves the gang register (R250). -/
def Ctx.fuse (c : Ctx) (words : Nat) (o : Long) (y : Slot) (p : Entry) : State :=
  let issuerLow := decide (c.e.start < p.start)
  let low := if issuerLow then c.e else p
  let high := if issuerLow then p else c.e
  let home : Nat × Nat := if issuerLow then (c.ref.core, c.ref.slot) else (y.core, y.num)
  let away : Nat × Nat := if issuerLow then (y.core, y.num) else (c.ref.core, c.ref.slot)
  let m := mergeEntries [low, high] low low low.levels
  let m := if low.levels.isEmpty then { m with width := low.width + high.width } else m
  let m := match m.writeAll c.ke.regs false o.d 0 with
    | .ok x => x
    | .error _ => m
  let m := { m with pc := c.e.pc + 4 * words, retired := m.retired + 1, counts := [0, 0, 0, 0] }
  let s := (c.s.modSlot away.1 away.2 fun x => x.replace [high.pos] []).modSlot home.1 home.2 fun x => x.replace [low.pos] [m]
  let s := if high.snum = low.snum then s else s.modFlight c.fl.id fun f => { f with gang := f.gang.filter fun n => n ≠ high.snum }
  (match low.levels with
    | .cut id _ :: _ => s.modSlot home.1 home.2 fun x => { x with entries := x.entries.map (lessPieces id) }
    | _ => s).reap

/-- FUSE as it stands: fused, held until the operations of both have retired and a wait of the partner has ended, or complete with a
code (R45, R47; assumption 50). -/
def Ctx.tryFuse (c : Ctx) (o : Long) : State :=
  let words := longWords o
  match c.fusePartner (decide (o.mod.val = 1)) with
  | (0, some (y, p)) =>
    if c.e.ops.isEmpty ∧ p.ops.isEmpty ∧ !p.waiting then c.fuse words o y p
    else c.put { c.e with status := .held (.fuse o) }
  | (code, _) => c.close words do
    let e ← ({ c.e with status := .ready } : Entry).writeAll c.ke.regs false o.d (BitVec.ofNat 64 code)
    pure (e.advance words)

def execFuse (o : Long) (s : State) : Host.Outcome State Fault Refusal := s.issue fun c => c.tryFuse o

/-- The FUSE that an entry is held at. -/
def Entry.heldFuse (e : Entry) : Option Long :=
  match e.status with
  | .held (.fuse o) => some o
  | _ => none

/-- The hold of a FUSE ends: it is evaluated against what is then found (R47, R170). -/
def execFuseHoldEnd (r : EntryRef) (s : State) : Host.Outcome State Fault Refusal :=
  .next (match s.ctxAt r with
    | some c => (match c.e.heldFuse with
      | some o => c.tryFuse o
      | none => s)
    | none => s)

/-- Whether another entry of lower start is held at a FUSE toward the same partner (R170). -/
def Ctx.fuseRival (c : Ctx) (o : Long) : Bool :=
  let mine := (c.fusePartner (decide (o.mod.val = 1))).2
  mine.isSome && c.s.entryRefs.any fun r => decide (r ≠ c.ref) && (match c.s.ctxAt r with
    | some d => (match d.e.heldFuse with
      | some p => decide (d.e.start < c.e.start) &&
          decide (((d.fusePartner (decide (p.mod.val = 1))).2.map fun q => (q.1.core, q.1.num, q.2.pos)) =
            mine.map fun q => (q.1.core, q.1.num, q.2.pos))
      | none => false)
    | none => false)

/-- The issuer that lost its partner to a lower one issues its FUSE again (R170). -/
def execFuseRetry (r : EntryRef) (s : State) : Host.Outcome State Fault Refusal :=
  .next (match s.ctxAt r with
    | some c => (match c.e.heldFuse with
      | some o => if c.fuseRival o then s.setEntry r { c.e with status := .ready } else s
      | none => s)
    | none => s)

end Sys2Proof.Machine
end

