-- ==== Sys2Proof/Machine/Security.lean ====
section
/-!
DEFINITION. Keys, sessions, measurement, TDISP, lifecycle, debug unlock and the integrity window (R413, R417 to R428).
-/
namespace Sys2Proof.Machine

/-- The answer of the SPDM responder: status and data. -/
def State.spdm (s : State) (status : Nat) (data : List Byte) : State := s.answered 1 status data

def State.sessionOf (s : State) (id : Nat) : Option Session := s.sec.sessions.find? fun x => x.id = id

/-- The session is bound to the function, which is a tenant's (R418, R425). -/
def State.boundTo (s : State) (session fn : Nat) : Bool :=
  match s.sessionOf session with
  | some x => decide (x.fn = fn) && isVf fn
  | none => false

/-! ### The integrity window (R413, R462) -/

/-- A write of SEC_IWIN is ignored (R413). -/
def State.iwinBusy (s : State) (v : Nat) : Bool :=
  let win := bits v 0 6
  let macw := bits v 16 12
  (s.framesInUse.any fun f => decide (s.fat f % 4 = 2)) || decide (47 < win) || decide (macw / 64 = win)

/-- SEC_IWIN_WRITE (R413); without feature 5, EN ignores writes of 1 (R462). -/
def execSecIwinWrite (v : W64) (s : State) : Host.Outcome State Fault Refusal :=
  let n := v.toNat
  .next { s with sec :=
    if s.iwinBusy n then { s.sec with iwinBad := true }
    else { s.sec with iwin := bits n 0 6, iwinEn := decide (bits n 6 1 = 1) && decide (bits s.fleet.features 5 1 = 1),
                      iwinBad := false, macw := bits n 16 12 } }

/-! ### Sessions and certificates (R423, R425) -/

/-- GET_CERTIFICATE: the chain of slot 0. -/
def execGetCertificate (_session : Nat) (s : State) : Host.Outcome State Fault Refusal :=
  .next (s.spdm 0 Config.certChain)

/-- KEY_EXCHANGE: a session bound to the function, or ERROR Busy (3) for a seventeenth (R423). -/
def execKeyExchange (fn : Nat) (s : State) : Host.Outcome State Fault Refusal :=
  .next (match (List.range 16).find? fun i => !(s.sec.sessions.any fun x => decide (x.id = i)) with
    | some i =>
      ({ s with draws := s.draws + 1, sec := { s.sec with sessions := s.sec.sessions ++ [(⟨i, fn, s.draws⟩ : Session)] } }).spdm 0 (leBytes 4 i)
    | none => s.spdm 3 [])

/-- END_SESSION (R417). -/
def execEndSession (session : Nat) (s : State) : Host.Outcome State Fault Refusal :=
  .next { s with sec := { s.sec with sessions := s.sec.sessions.filter fun x => x.id ≠ session } }

/-! ### Measurement (R337, R424) -/

/-- SEC_IWIN, SEC_LIFE and SEC_DBG as they read (R413, R426, R427). -/
def State.iwinWord (s : State) : Nat :=
  s.sec.iwin + (if s.sec.iwinEn then 64 else 0) + (if s.sec.iwinBad then 128 else 0) + s.sec.macw * 65536
def State.lifeWord (s : State) : Nat := s.sec.life + s.sec.unlk * 256
def State.dbgWord (s : State) : Nat := s.sec.dbgState + s.sec.dbgScope * 4

/-- The 128 bytes of a partition record from its fields, balance and status (R398). -/
def partBytes (x : PartFields) (bal : Nat) (busy : Bool) (stat : Nat) : List Byte :=
  leBytes 16 (x.pairs + x.fns * 2 ^ 48 + x.slots * 2 ^ 64) ++
  leBytes 16 (x.c0slots + x.rfg * 2 ^ 64 + x.acg * 2 ^ 69 + x.tshare * 2 ^ 80) ++
  leBytes 16 (x.period + x.refill * 2 ^ 64) ++ leBytes 16 (x.cap + bal * 2 ^ 64) ++
  leBytes 16 (x.saveb + x.savesz * 2 ^ 64) ++ leBytes 48 ((if busy then 2 else 0) + stat * 256)

/-- The content of a measurement block as a session sees it (R424; assumption 15). -/
def State.block (s : State) (fn index : Nat) : List Byte :=
  if index = 1 ∨ index = 2 then Config.firmwareDigest index
  else if index = 3 then Sha512.digest (leBytes 16 s.fleet.features ++ leBytes 8 s.oper.prot ++ leBytes 8 s.iwinWord)
  else if index = 4 then leBytes 8 s.lifeWord ++ leBytes 8 s.sec.dbgState
  else if index = 5 then Sha512.digest (s.oper.parts.flatMap fun p => partBytes p.cur 0 p.busy p.stat)
  else if 16 ≤ index ∧ index - 16 = fn ∧ isVf fn then s.sec.mlogs.getD fn []
  else if index = 31 ∧ isVf fn then s.sec.mlogs.getD 15 []
  else []

/-- GET_MEASUREMENTS: the block, or an empty one where the session may not see it. -/
def execGetMeasurements (session index : Nat) (s : State) : Host.Outcome State Fault Refusal :=
  .next (match s.sessionOf session with
    | some x => s.spdm 0 (s.block x.fn index)
    | none => s.spdm 3 [])

/-! ### Keys (R418, R419) -/

def State.keySlot (s : State) (o : Nat) : KeySlot := s.sec.keys.getD o .empty

/-- Key messages answer KEY_STATE (R418). -/
def State.keyShut (s : State) : Bool := decide (s.sec.life ≠ 2) || decide (s.sec.dbgState = 1)

/-- KEY_LOAD (R418): KEY_OK 0, KEY_BUSY 1, KEY_STATE 2, KEY_SESSION 3. -/
def execKeyLoad (session fn : Nat) (tk : List Byte) (s : State) : Host.Outcome State Fault Refusal :=
  .next (if !s.boundTo session fn then s.spdm 3 []
    else if s.keyShut then s.spdm 2 []
    else if (s.keySlot fn).loaded then s.spdm 1 []
    else ({ s with sec := { s.sec with keys := s.sec.keys.modify fn fun k =>
      ⟨tk.take 32, true, (k.epoch + 1) % 2 ^ 32, none⟩ } }).spdm 0 [])

/-- KEY_CLEAR (R418): the reset of R406. -/
def execKeyClear (session fn : Nat) (s : State) : Host.Outcome State Fault Refusal :=
  .next (if !s.boundTo session fn then s.spdm 3 []
    else if s.keyShut then s.spdm 2 []
    else (s.resetFunction fn).spdm 0 [])

/-- KEY_QUERY (R418): LOADED and EPOCH. -/
def execKeyQuery (session fn : Nat) (s : State) : Host.Outcome State Fault Refusal :=
  .next (if !s.boundTo session fn then s.spdm 3 []
    else s.spdm 0 (leBytes 1 (if (s.keySlot fn).loaded then 1 else 0) ++ leBytes 4 (s.keySlot fn).epoch))

/-! ### IDE and TDISP (R420, R421) -/

/-- IDE_KM: the stream's keys, by the function's own session; any other change moves a locked or running TDI to ERROR. -/
def execIdeKm (session fn : Nat) (key : List Byte) (s : State) : Host.Outcome State Fault Refusal :=
  .next (if s.boundTo session fn then
      ({ s with sec := { s.sec with ide := s.sec.ide.set fn (some key) } }).spdm 0 []
    else if isVf fn then (s.tdiError fn).spdm 3 [] else s.spdm 3 [])

/-- LOCK_INTERFACE: an unlocked TDI is locked. -/
def execLockInterface (fn : Nat) (s : State) : Host.Outcome State Fault Refusal :=
  .next (if isVf fn ∧ s.tdi fn = .unlocked then s.setTdi fn .locked else s)

/-- START_INTERFACE: a locked TDI runs. -/
def execStartInterface (fn : Nat) (s : State) : Host.Outcome State Fault Refusal :=
  .next (if isVf fn ∧ s.tdi fn = .locked then s.setTdi fn .run else s)

/-- STOP_INTERFACE is a function-level reset. -/
def execStopInterface (fn : Nat) (s : State) : Host.Outcome State Fault Refusal :=
  .next (if isVf fn then (s.resetFunction fn).setTdi fn .unlocked else s)

/-! ### Lifecycle (R426) -/

/-- LIFECYCLE_TRANSITION: forward only, by a signed command; outside PRODUCTION the tenants' key slots are empty. -/
def execLifecycleTransition (target : Nat) (signed : Bool) (s : State) : Host.Outcome State Fault Refusal :=
  .next (if signed ∧ s.sec.life < target ∧ target ≤ 4 then
      { s with sec := { s.sec with
          life := target
          keys := if target = 2 then s.sec.keys
            else s.sec.keys.mapIdx fun o k => if isVf o then { k with secret := [], loaded := false } else k } }
    else s)

/-! ### Debug unlock (R427, R428, R462) -/

/-- DBG_NONCE: a fresh nonce, the earlier one void. -/
def execDbgNonce (s : State) : Host.Outcome State Fault Refusal :=
  let n := freeData s.draws 32
  .next (({ s with draws := s.draws + 1, sec := { s.sec with nonce := some n } }).answered 0 0 n)

/-- The token passes step 2 of R428. -/
def State.tokenGood (s : State) (t : List Byte) : Bool :=
  let part (a n : Nat) : List Byte := (t.drop a).take n
  decide (t.length = 1024) && decide (leNat (part 0 4) = 0x4B544244) && Config.tokenSigned t &&
  decide (part 4 32 = Config.deviceId) && decide (leNat (part 36 1) = s.sec.life) && decide (s.sec.nonce = some (part 40 32)) &&
  decide (leNat (part 38 2) = 0) && decide (leNat (part 72 440) = 0) && decide (leNat (part 37 1) < 8) &&
  decide (s.sec.life = 2) && decide (s.sec.unlk < 64)

/-- Steps 3 to 5 of R428. -/
def State.unlock (s : State) (scope : Nat) : State :=
  let s : State := { s with sec := { s.sec with dbgState := 1, unlk := s.sec.unlk + 1, sessions := [], nonce := none } }
  let s := ((List.range 15).filter isVf).foldl State.resetFunction s
  let s := s.scrubOwner 15
  { s with
    draws := s.draws + 1
    sec := { s.sec with keys := s.sec.keys.set 15 ⟨[], true, (s.keySlot 15).epoch, some s.draws⟩,
                        dbgState := 2, dbgScope := scope % 8 } }

/-- DBG_UNLOCK (R428): status 0, or 1 for DBG_BAD. -/
def execDbgUnlock (token : List Byte) (s : State) : Host.Outcome State Fault Refusal :=
  .next (if bits s.fleet.features 6 1 = 0 then s.answered 0 1 []
    else if s.tokenGood token then (s.unlock (leNat ((token.drop 37).take 1))).answered 0 0 []
    else ({ s with sec := { s.sec with nonce := none } }).answered 0 1 [])

end Sys2Proof.Machine
end

