-- ==== Sys2Proof/Machine/Fleet.lean ====
section
/-!
DEFINITION. The patrol, spares, features, power, telemetry and the side-band port (R352, R452 to R467).
-/
namespace Sys2Proof.Machine

def State.modFleet (s : State) (f : Fleet → Fleet) : State := { s with fleet := f s.fleet }
def State.patUnit (s : State) (u : Nat) : PatUnit := s.fleet.patUnits.getD u {}
def State.modPatUnit (s : State) (u : Nat) (f : PatUnit → PatUnit) : State :=
  s.modFleet fun x => { x with patUnits := x.patUnits.modify u f }

/-! ### Steps of the patrol (R452 to R454) -/

/-- Test time of a unit in clocks (R452). -/
def testClocks (u : Nat) : Nat := Config.clocksPerUs * (if u < 96 then 40 else if u < 864 then 10 else 20)

/-- The entries of a core, on one column group or on all, hold a class-0 flight (R454). -/
def State.classZeroOn (s : State) (core : Nat) (group : Option Nat) : Bool :=
  s.slots.any fun x => decide (x.core = core ∧ x.num < 128) && (match group with
      | some g => decide (columnOf x.num / 8 = g)
      | none => true) &&
    match (s.flightOf x.flight).bind fun f => s.launchOf f.tag with
    | some l => decide (l.cls = 0)
    | none => false

/-- The sequencer puts a unit off (R454). -/
def State.putOff (s : State) (u : Nat) : Bool :=
  if u < 96 then s.classZeroOn u none
  else if u < 864 then s.classZeroOn ((u - 96) / 8) (some ((u - 96) % 8))
  else false

/-- The unit after NEXT that is in service. -/
def State.nextUnit (s : State) : Nat → Nat → Nat
  | 0, u => u
  | k + 1, u => if (s.patUnit u).out then s.nextUnit k ((u + 1) % 868) else u

/-- A rotation begins: deferral time and the rows' counts start again (R454, R459). -/
def State.newRotation (s : State) : State :=
  (s.modFleet fun x => { x with patDefer := 0 }).overCores fun s c =>
    if (s.core c).rowErrs.isEmpty then s else s.modCore c fun x => { x with rowErrs := [] }

/-- Drains a unit and starts its test; the last one in service ends the rotation. -/
def State.startTest (s : State) (u : Nat) (forced : Bool) : State :=
  let v := s.nextUnit 868 ((u + 1) % 868)
  let s := s.modFleet fun x => { x with
    patTest := some (u, s.clock), patWait := false, patLast := s.clock, patNext := v,
    patForced := if forced then min (x.patForced + 1) 0xFFFF else x.patForced }
  if v ≤ u then s.newRotation else s

/-- PATROL_STEP (R452): 5 ms after the last step the next unit is drained, or put off. -/
def execPatrolStep (s : State) : Host.Outcome State Fault Refusal :=
  .next (if s.fleet.patTest.isSome ∨ s.fleet.patSwap.isSome ∨ s.fleet.patWait ∨ s.clock < s.fleet.patLast + 5000 * Config.clocksPerUs then s
    else
      let u := s.nextUnit 868 s.fleet.patNext
      if s.putOff u then s.modFleet fun x => { x with patWait := true, patNext := u, patLast := s.clock }
      else s.startTest u false)

/-- PATROL_DEFER_RETRY (R454): every 50 µs; after 400 ms in the rotation the unit is drained regardless. -/
def execPatrolDeferRetry (s : State) : Host.Outcome State Fault Refusal :=
  .next (if !s.fleet.patWait ∨ s.clock < s.fleet.patLast + 50 * Config.clocksPerUs then s
    else
      let s := s.modFleet fun x => { x with patDefer := x.patDefer + (s.clock - x.patLast), patLast := s.clock }
      let u := s.fleet.patNext
      if !s.putOff u then s.startTest u false
      else if 400000 * Config.clocksPerUs ≤ s.fleet.patDefer then s.startTest u true
      else s)

/-! ### Results (R455 to R460) -/

/-- The watermark over the units in service; it never decreases (R455). -/
def State.rewater (s : State) : State :=
  let ins := s.fleet.patUnits.filter fun u => !u.out
  match ins with
  | [] => s
  | u :: us => s.modFleet fun x => { x with patW := max x.patW (us.foldl (fun m v => min m v.clean) u.clean / 1024) }

/-- A PATROL_FAIL notice to an owner (R457). -/
def State.patrolNotice (s : State) (unit wstart wend owner : Nat) : State :=
  let fn := if owner = 15 then 0 else owner
  s.writeRecord fn (recordBytes (s.fnBlock fn).recno 23 0 false true 0 0 owner 0 0 0 0 0 wstart unit 0 wend)

/-- The spare core of a die that may take a logical core's place (R460). -/
def State.spareCore (s : State) (die : Nat) : Option Nat :=
  (List.range 2).find? fun j => decide (bits s.fleet.spares.cspr (2 * die + j) 1 = 0)

/-- The flights that must be saved before a core's number is taken (R456): all but the handler's own. -/
def State.onCore (s : State) (core : Nat) : List Nat :=
  (s.flights.filter fun f => f.cores.contains core && decide (f.state ≠ .saved) && decide (f.lmax ≠ 0)).map Flight.id

/-- A spare core takes a core's number, or the core is marked OUT (R456): the ACT code. -/
def State.swapCore (s : State) (core : Nat) : State × Nat :=
  let mine (u : Nat) : Bool := decide (u = core) || (decide (96 ≤ u ∧ u < 864) && decide ((u - 96) / 8 = core))
  match s.spareCore (core / 24) with
  | some j =>
    (s.modFleet fun x => { x with
      spares := { x.spares with cspr := x.spares.cspr ||| 2 ^ (2 * (core / 24) + j) }
      spcore := x.spcore.modify core fun c => { c with phys := 24 + j, sub := true, scol := 0, cola := 0, colb := 0 }
      patUnits := x.patUnits.mapIdx fun u y => if mine u then { clean := s.clock } else y }, 1)
  | none =>
    ((s.modCore core fun c => { c with out := true }).modFleet fun x => { x with
      spares := { x.spares with cout := x.spares.cout + 1 }
      spcore := x.spcore.modify core fun c => { c with out := true }
      patUnits := x.patUnits.mapIdx fun u y => if mine u then { y with out := true } else y }, 2)

/-- Spare columns replace failing ones while the group is drained (R456, R460). -/
def State.swapColumns (s : State) (core group : Nat) (cols : List Nat) : State :=
  s.modFleet fun x => { x with
    spares := { x.spares with cols := x.spares.cols + cols.length }
    spcore := x.spcore.modify core fun c =>
      let ls := cols.map fun k => 8 * group + k % 8
      { c with scol := c.scol + cols.length,
               cola := if c.scol = 0 then ls.headD 0 else c.cola,
               colb := if c.scol = 0 then (ls.drop 1).headD c.colb else ls.headD 0 } }

/-- The 32 bytes of a grant record (R315). -/
def Grant.bytes (x : Grant) : List Byte :=
  leBytes 8 x.base ++ leBytes 4 x.fix ++ leBytes 2 x.pitem ++ leBytes 2 x.pflt ++ leBytes 2 x.ppar ++ leBytes 2 x.param ++
  leBytes 12 (x.rights + (if x.shared then 4 else 0) + x.owner * 16)

/-- A kernel that a removed unit sealed is walked again; one that is rejected now loses its launches with HW_ERROR and is
destroyed (R456). -/
def State.rewalk (s : State) (k : Kernel) : State :=
  let ok := match s.fnRead k.fn k.tko k.tkoBytes 1 with
    | .ok (_, b) =>
      let g := leBytes 2 k.grants.length ++ leBytes 2 0 ++ leBytes 4 (k.nmax % (2 ^ 32 - 1)) ++ leBytes 24 0 ++ k.grants.flatMap Grant.bytes
      (verdict k.image k.fn k.tko s.codePages s.fleet.features b g).isNone
    | .error _ => false
  if ok then s
  else
    let tags := (s.launches.filter fun l => decide (l.fn = k.fn) && decide (l.kid = k.kid) && !l.killed).map Launch.tag
    let s := tags.foldl (fun s t => match s.slots.find? fun x => decide ((s.flightOf x.flight).map Flight.tag = some t) with
      | some x => s.raiseAt ⟨x.core, x.num, (x.entries.head?.map Entry.pos).getD 0⟩ ⟨21, 3, 0, 0, true, k.code, 0, none⟩
      | none => s.killLaunch t) s
    s.destroyKernel k

/-- The failure of a unit takes its core out of service: an engine, or columns beyond the core's two spares (R456). -/
def State.losesCore (s : State) (u : Nat) (failing : List Nat) : Bool :=
  decide (u < 96) || decide (u < 864) && decide
    (2 < ((s.fleet.patUnits.drop (96 + 8 * unitCore u)).take 8).foldl (fun m x => m + x.swapped) 0 + failing.length)

/-- The action on a failed unit (R456): the state and ACT. -/
def State.failUnit (s : State) (u wstart : Nat) (failing : List Nat) : State × Nat :=
  if s.losesCore u failing then s.swapCore (unitCore u)
  else if u < 864 then
    ((s.swapColumns (unitCore u) ((u - 96) % 8) failing).modPatUnit u fun x => { x with swapped := x.swapped + failing.length }, 0)
  else
    let s := (s.modPatUnit u fun x => { x with out := true }).modFleet fun x =>
      { x with spares := { x.spares with aout := x.spares.aout ||| 2 ^ (u - 864) } }
    ((s.kernels.filter fun k => decide (k.unit = u - 864 ∧ wstart ≤ k.sealedAt)).foldl State.rewalk s, 3)

/-- A failed test (R456): the action, the log entry with FEPOCH, the notices. -/
def State.patrolFail (s : State) (u : Nat) (failing : List Nat) : State :=
  let x := s.patUnit u
  let (t, act) := s.failUnit u x.clean failing
  let e : PatLog := ⟨u, if 96 ≤ u ∧ u < 864 then failing.headD 0 % 8 else 0, act, x.owners, x.clean, s.clock⟩
  let t := t.modFleet fun f => { f with
    patLog := f.patLog.set (f.patFails % 16) e, patFails := (f.patFails + 1) % 65536, fepoch := min (f.fepoch + 1) 0xFFFF }
  ((List.range 16).filter fun o => decide (bits x.owners o 1 = 1)).foldl (fun t o => t.patrolNotice u x.clean s.clock o) t

/-- A unit has failed: where its core must go out of service, the core's flights are saved first (R456). -/
def State.failed (s : State) (u : Nat) (failing : List Nat) : State :=
  let ids := s.onCore (unitCore u)
  if s.losesCore u failing ∧ ids ≠ [] then (s.modFleet fun x => { x with patSwap := some (u, failing) }).askSaves ids
  else (s.patrolFail u failing).rewater

/-- PATROL_TEST_END (R452, R456): the unit under test passes, or fails in the columns named; or the last flight has left a core whose
number a spare is to take. -/
def execPatrolTestEnd (failing : List Nat) (s : State) : Host.Outcome State Fault Refusal :=
  .next (match s.fleet.patSwap, s.fleet.patTest with
    | some (u, cols), _ =>
      if s.onCore (unitCore u) ≠ [] then s else ((s.modFleet fun x => { x with patSwap := none }).patrolFail u cols).rewater
    | none, none => s
    | none, some (u, t0) =>
      if s.clock < t0 + testClocks u then s
      else
        let s := s.modFleet fun x => { x with patTest := none }
        if failing.isEmpty then (s.modPatUnit u fun x => { x with clean := t0, owners := 0 }).rewater
        else s.failed u failing)

/-! ### Features (R461) -/

/-- FEATURE_COMMIT: FEAT_OK 0, FEAT_UNOFFERED 1, FEAT_LATE 2. -/
def execFeatureCommit (s : State) : Host.Outcome State Fault Refusal :=
  let x := s.fleet
  .next (if x.faccept &&& x.foffer ≠ x.faccept then s.modFleet fun x => { x with fstat := 1 }
    else if x.admitted ∨ x.flocked then s.modFleet fun x => { x with fstat := 2 }
    else s.modFleet fun x => { x with fstat := 0, flocked := true, features := x.faccept })

/-! ### Power and telemetry (R464 to R466) -/

/-- TELEMETRY_SAMPLE: the sensors, and the longest class-0 times, counted when they exceed a bound of R463. -/
def execTelemetrySample (tmax tgmax c0k c0g : Nat) (s : State) : Host.Outcome State Fault Refusal :=
  .next (s.modFleet fun x => { x with
    tmax := tmax % 256, tgmax := tgmax % 256, c0kmax := max x.c0kmax (c0k % 2 ^ 32), c0gmax := max x.c0gmax (c0g % 2 ^ 32),
    c0exc := min (x.c0exc + (if 10000 < c0k then 1 else 0) + (if 900 < c0g then 1 else 0)) 0xFFFF })

/-- POWER_THROTTLE (R464, R465): it changes timing only; what it withholds can be read. -/
def execPowerThrottle (pnow thr : Nat) (c0over : Bool) (s : State) : Host.Outcome State Fault Refusal :=
  .next (s.modFleet fun x => { x with pnow := min pnow x.plim % 4096, thr := min thr 100, c0over := x.c0over || c0over })

/-- D3HOT: accepted only while no launch is queued, resident or saved (R465). -/
def execD3hot (enter : Bool) (s : State) : Host.Outcome State Fault Refusal :=
  .next (if enter then (if s.launches.all fun l => decide (handlerTags ≤ l.tag) then s.modFleet fun x => { x with d3 := true } else s)
    else s.modFleet fun x => { x with d3 := false })

/-! ### Registers of the fleet as bytes (R458, R460, R466) -/

def Fleet.telBytes (x : Fleet) : List Byte :=
  leBytes 1 x.tmax ++ leBytes 1 x.tgmax ++ leBytes 2 0 ++ leBytes 4 x.c0kmax ++ leBytes 4 x.c0gmax ++ leBytes 2 x.rtmax ++
  leBytes 2 x.c0exc ++ leBytes 48 0

def Fleet.spmapBytes (x : Fleet) : List Byte :=
  let m := x.spares
  leBytes 1 m.cspr ++ leBytes 1 m.cout ++ leBytes 1 m.cols ++ leBytes 1 0 ++ leBytes 1 m.mfib ++ leBytes 1 (m.pfib % 4) ++
  leBytes 2 m.wave ++ leBytes 2 m.rows ++ leBytes 2 m.rowf ++ leBytes 52 (m.gch % 64 + m.aout % 16 * 64)

def SpCore.bytes (c : SpCore) : List Byte :=
  leBytes 8 (c.phys % 32 + (if c.sub then 32 else 0) + (if c.out then 64 else 0) + c.scol % 4 * 2 ^ 8 + c.cola % 64 * 2 ^ 10 +
    c.colb % 64 * 2 ^ 16 + c.prows % 2 ^ 16 * 2 ^ 32)

def PatLog.bytes (e : PatLog) : List Byte :=
  leBytes 4 (e.unit % 1024 + e.col % 8 * 2 ^ 10 + e.act % 8 * 2 ^ 13 + e.owners % 2 ^ 16 * 2 ^ 16) ++ leBytes 8 e.wstart ++
  leBytes 8 e.wend ++ leBytes 12 0

/-! ### The side-band port (R467): status 0, or 1 for MGMT_DENY -/

def State.mgmt (s : State) (status : Nat) (data : List Byte) : State := s.answered 0 status data

def execTelGet (s : State) : Host.Outcome State Fault Refusal := .next (s.mgmt 0 s.fleet.telBytes)

def execSpmapGet (s : State) : Host.Outcome State Fault Refusal :=
  .next (s.mgmt 0 (s.fleet.spmapBytes ++ s.fleet.spcore.flatMap SpCore.bytes))

def execPatlogGet (s : State) : Host.Outcome State Fault Refusal := .next (s.mgmt 0 (s.fleet.patLog.flatMap PatLog.bytes))

/-- An SPDM session bound to owner 0 is open (R425, R467). -/
def State.ownerSession (s : State) : Bool := s.sec.sessions.any fun x => decide (x.fn = 0)

def execResetPart (p : Nat) (s : State) : Host.Outcome State Fault Refusal :=
  .next (if s.ownerSession ∧ p < 16 then (s.resetPartition p).mgmt 0 [] else s.mgmt 1 [])

def execResetDev (s : State) : Host.Outcome State Fault Refusal :=
  .next (if s.ownerSession then s.resetDevice else s.mgmt 1 [])

def execLinkRetrain (pair : Nat) (s : State) : Host.Outcome State Fault Refusal :=
  .next (if !s.ownerSession then s.mgmt 1 []
    else if pair < 80 ∧ (s.link pair).state = 0 then (s.startRetrain pair).mgmt 0 []
    else s.mgmt 0 [])

/-- CORE_HZD as it reads (R352). -/
def Core.hzdWord (c : Core) : Nat := (if c.hzdEn then 1 else 0) + c.hzdHits % 65536 * 65536 + c.hzdLastPc % 2 ^ 32 * 2 ^ 32

/-- The debug window is open for an address (R426, R467): SCOPE bit 1 for CORE_HZD, bit 2 for anything else. -/
def State.debugOpen (s : State) (hzd : Bool) : Bool :=
  decide (s.sec.life = 1 ∨ s.sec.life = 3) ||
  (decide (s.sec.dbgState = 2) && decide (bits s.sec.dbgScope (if hzd then 1 else 2) 1 = 1))

/-- The core whose CORE_HZD an address of the debug window names (R467). -/
def hzdCore (addr : Nat) : Option Nat := if addr % 256 = 0 ∧ addr / 256 < 96 then some (addr / 256) else none

/-- DBG_RD: what the window holds beside CORE_HZD the spec does not say, and its reading is a free value (R467, assumption 54). -/
def execDbgRd (addr : Nat) (s : State) : Host.Outcome State Fault Refusal :=
  .next (if !s.debugOpen (hzdCore addr).isSome then s.mgmt 1 []
    else match hzdCore addr with
      | some c => s.mgmt 0 (leBytes 8 (s.core c).hzdWord)
      | none => { s with draws := s.draws + 1 }.mgmt 0 (freeData s.draws 8))

/-- DBG_WR: EN and HITS of a CORE_HZD; EN reads 0 and ignores writes without feature 4 (R352, R355). -/
def execDbgWr (addr : Nat) (v : W64) (s : State) : Host.Outcome State Fault Refusal :=
  .next (if !s.debugOpen (hzdCore addr).isSome then s.mgmt 1 []
    else match hzdCore addr with
      | some c => (s.modCore c fun x =>
          { x with hzdEn := decide (bits v.toNat 0 1 = 1) && decide (bits s.fleet.features 4 1 = 1),
                   hzdHits := bits v.toNat 16 16 }).mgmt 0 []
      | none => s.mgmt 0 [])

/-- SMBUS_FALLBACK: the same messages over SMBus (R467). -/
def execSmbusFallback (s : State) : Host.Outcome State Fault Refusal := .next (s.modFleet fun x => { x with smbus := true })

end Sys2Proof.Machine
end

