-- ==== Sys2Proof/Machine/Matrix.lean ====
section
/-!
DEFINITION. Matrix instructions: the gang and its latch, format and map registers, the engine queue, and what each instruction
does when it leaves the engine (R246 to R269, R350).
-/
namespace Sys2Proof.Machine

/-! ### Gang members (R249, R250) -/

/-- The entries of a flight, resident or saved. -/
def State.entriesOf (s : State) (fid : Nat) : List Entry :=
  ((s.slots.filter fun x => decide (x.flight = fid)).flatMap Slot.entries) ++
  ((s.flightOf fid).map fun f => f.saved.flatMap Slot.entries).getD []

/-- A strand of the flight has the number and has not ended (R249, R250). -/
def State.hasStrand (s : State) (fid snum : Nat) : Bool :=
  (s.entriesOf fid).any fun e => decide (e.snum = snum) && decide (e.liveCount ≠ 0)

/-- The strands that the gang register lists and that are left (R250). -/
def State.gangLeft (s : State) (fl : Flight) : List Nat := fl.gang.filter (s.hasStrand fl.id)

/-- The entries that wait with a matrix instruction. -/
def Entry.awaits (e : Entry) (id : Nat) : Bool :=
  match e.status with
  | .parked (.latch i) _ => decide (i = id)
  | .held (.engine i) => decide (i = id)
  | _ => false

/-- Strands that have arrived at a latch. -/
def State.arrivedAt (s : State) (fid id : Nat) : List Nat := ((s.entriesOf fid).filter fun e => e.awaits id).map Entry.snum

/-- GANG_MISMATCH: the record's ADDR holds the listed numbers as the register does, AUX the strands that had arrived by their
place in the register (R251; assumption 30). -/
def State.gangFault (s : State) (fl : Flight) (id cause : Nat) : FaultInfo :=
  let word := (fl.gang.zipIdx.map fun (n, j) => n * 2 ^ (10 * j)).sum
  let here := s.arrivedAt fl.id id
  let mask := (fl.gang.zipIdx.map fun (n, j) => if here.contains n then 2 ^ j else 0).sum
  ⟨16, 3, cause, 0, false, word, mask, none⟩

/-- GANG (R249). -/
def execGang (o : Long) (s : State) : Host.Outcome State Fault Refusal :=
  s.issue fun c => c.once .gang o fun l => match l.uniA with
    | none => c.raise (longWords o) (breach c.e)
    | some a =>
      let field (j : Nat) : Nat := bits a.toNat (10 * j) 10
      let n := o.imm.val
      let listed := (List.range n).map field
      let bad := (List.range 6).any (fun j => decide (n ≤ j) && decide (field j ≠ 0)) || decide (listed.eraseDups ≠ listed) ||
        listed.any fun k => !s.hasStrand c.fl.id k
      let r : Nat × State :=
        if c.fl.latch.isSome then (5, c.s)
        else if bad then (6, c.s)
        else (0, c.s.modFlight c.fl.id fun f => { f with gang := listed, gangE := o.mod.val })
      c.andThen (longWords o) (l.e.writeAll c.ke.regs false o.d (BitVec.ofNat 64 r.1)) fun e =>
        r.2.setEntry c.ref (e.advance (longWords o))

/-! ### Format and map registers (R253, R255) -/

/-- A record of `n` bytes in scratchpad, as a plain load of the issuer. -/
def Ctx.spadRecord (c : Ctx) (op : Op) (o : Long) (n : Nat) (k : Lane → Nat → State) : State :=
  c.once op o fun l => match l.uniA with
    | none => c.raise (longWords o) (breach c.e)
    | some a =>
      let off := a.toNat % 2 ^ 32
      c.accessSpad (longWords o) false true [⟨l.acting.headD 0, off, n⟩] (k l (leNat (Memory.readN c.fl.spad off n)))

/-- FBLK: the format register from a valid block, else FBLK_BAD (R253). -/
def execFblk (o : Long) (s : State) : Host.Outcome State Fault Refusal :=
  s.issue fun c => c.spadRecord .fblk o 64 fun l w =>
    let b := BitVec.ofNat 512 w
    if fmtValid b then c.status (c.s.modFlight c.fl.id fun f => { f with fmt := some b }) o l.e 0 else c.status c.s o l.e 7

/-- AMAP: map register N from a valid record, else MAP_BAD (R255). -/
def execAmap (o : Long) (s : State) : Host.Outcome State Fault Refusal :=
  s.issue fun c => c.spadRecord .amap o 16 fun l w =>
    let m := BitVec.ofNat 128 w
    if mapValid m c.fl.spadSize then
      c.status (c.s.modFlight c.fl.id fun f => { f with maps := f.maps.set (o.imm.val % 8) m }) o l.e 0
    else c.status c.s o l.e 8

/-! ### The engine queue (R252, R258, R259, R265) -/

/-- The exponent of an element's bytes. -/
def eszOf (t : Ty) : Nat := Nat.log2 t.bytes

/-- The maps that an instruction names: number, element size it needs, and whether it writes through it (R258 to R263). -/
def mapsOf (op : Op) (o : Long) : List (Nat × Nat × Bool) :=
  let f (k : Nat) : Nat := bits o.imm.val k 3
  match op with
  | .mma | .zmma => [(f 4, eszOf o.ty, false), (f 7, eszOf o.ty, false)]
  | .mmas => [(f 4, eszOf o.ty, false), (f 7, eszOf o.ty, false), (f 10, bits o.mod.val 3 1, false)]
  | .cmpr => [(f 0, 0, false), (f 3, 0, true), (f 6, bits o.mod.val 5 1, true)]
  | .ald => [(f 4, eszOf o.ty, false)]
  | .ast => [(f 4, eszOf o.ty, true)]
  | .adrain => if o.mod.val % 2 = 1 then [] else [(f 4, eszOf o.ty, true)]
  | _ => []

/-- A map that the instruction cannot use: the wrong element size, or empty where it is written through; an empty source is
no fault (R258; assumption 31). -/
def badMap (maps : List (BitVec 128)) (op : Op) (o : Long) : Option Nat :=
  ((mapsOf op o).find? fun (n, esz, w) =>
    let m := opMap (maps.getD n 0)
    if m.empty then w else decide (m.esz ≠ esz)).map Prod.fst

def isMultiply (op : Op) : Bool := op = .mma || op = .mmas || op = .zmma

/-- The tile that an instruction names first. -/
def tileNo (o : Long) : Nat := o.imm.val % 16


/-- Operands that reach the other core of a pair flight than the engine's (R259). -/
def Flight.crossings (f : Flight) (core : Nat) (p : Latch) : Nat :=
  if !f.pair || !isMultiply p.op then 0
  else
    let (nm, nn, kd) := mmaDims p.o.ty (decide (p.op = .mmas))
    let st := (mmaDims p.o.ty false).2.2
    let org := [(p.a, nm, st), (p.b, kd, nn)]
    let meta_ : W64 := BitVec.ofNat 64 (originRow p.a + originCol p.a / sparseKept p.o * 2 ^ 32)
    let shapes := if p.op = .mmas then org ++ [(meta_, nm, st / sparseKept p.o)] else org
    (((mapsOf p.op p.o).zip shapes).filter fun (m, w, nr, nc) =>
      ((opMap (f.maps.getD m.1 0)).reach w nr nc).any fun a => decide ((if a < f.half then f.core else f.core + 1) ≠ core)).length

/-- Clocks of engine occupancy (R259, R265). -/
def Flight.occupancy (f : Flight) (acls core : Nat) (p : Latch) : Nat :=
  match p.op with
  | .mma | .mmas | .zmma => 32 + 32 * f.crossings core p
  | .aclr => 1
  | .cmpr => 32
  | _ => ceilDiv (tileBytes acls) 3072

/-- The kernel of a flight. -/
def State.kernelFor (s : State) (f : Flight) : Option Kernel := (s.launchOf f.tag).bind fun l => s.kernelOf l.fn l.kid

/-- The instructions whose issuer goes on once they are in the queue: the others hold it until the engine is done (R265). -/
def goesOn (op : Op) : Bool := isMultiply op || decide (op = .adrain)

/-- The entries that wait with an instruction go on after it. -/
def State.goOn (s : State) (id words : Nat) : State :=
  s.mapEntries fun _ e => if e.awaits id then { e.advance words with status := .ready } else e

/-- An instruction enters the engine queue: it reads the format register, its maps and its origins, and the checks of R253 and
R258 are made (R252). -/
def State.enterEngine (s : State) (fid : Nat) (p : Latch) : State :=
  match s.flightOf fid with
  | none => s
  | some f =>
    let s := s.modFlight fid fun g => { g with released := g.released.filter fun x => x.id ≠ p.id }
    if p.o.ty = .b8 ∧ f.fmt.isNone then
      s.raiseFor fid (fun e => e.awaits p.id) ⟨17, 3, 1, 0, false, 0, 0, none⟩
    else match badMap f.maps p.op p.o with
      | some n => s.raiseFor fid (fun e => e.awaits p.id) ⟨17, 3, 2, 0, false, n, 0, none⟩
      | none =>
        let acls := ((s.kernelFor f).map Kernel.acls).getD 0
        let x : EngInstr := ⟨p.id, fid, p.op, p.o, p.a, p.b, p.c, p.q, f.fmt, f.maps, f.occupancy acls p.core p, none, f.spad, [], false⟩
        let s := s.modCore p.core fun c => { c with queue := c.queue ++ [x] }
        if goesOn p.op then s.goOn p.id (longWords p.o) else s

/-- An instruction takes a place in the queue, or waits for one behind those that wait already (R252). -/
def State.offer (s : State) (fid : Nat) (p : Latch) : State :=
  let waits := s.flights.any fun f => f.released.any fun x => decide (x.core = p.core)
  if (s.core p.core).queue.length < 8 ∧ !waits then s.enterEngine fid p
  else s.modFlight fid fun f => { f with released := f.released ++ [p] }


/-- The modulus context of an instruction that needs one, or NO_MODULUS (R211, R260, R264, R266). -/
def Ctx.modulus (c : Ctx) (words : Nat) (needs : Bool) (k : Option (W64 × W64) → State) : State :=
  if needs ∧ c.e.modctx.isNone then c.raise words noModulus else k (if needs then c.e.modctx else none)

/-! ### Multiplies at the latch (R251) -/

/-- The entry's counter rises at its own issue, and it waits with the instruction (R72, R251). -/
def Ctx.joinLatch (c : Ctx) (s : State) (l : Lane) (id : Nat) (deadline : Option Nat) : State :=
  s.setEntry c.ref { l.e.issueOp c.s.nextId 1 c.s.clock (.matrix id) with status := .parked (.latch id) deadline }

/-- A member of a gang arrives: it parks, which is a yield (R251). -/
def Ctx.arriveAt (c : Ctx) (s : State) (l : Lane) (id : Nat) (deadline : Option Nat) : State :=
  (c.joinLatch s l id deadline).yielded c.ref

/-- Releases the latched instruction when every listed strand that is left has arrived (R250, R251). -/
def State.tryRelease (s : State) (fid : Nat) : State :=
  match s.flightOf fid with
  | none => s
  | some f => match f.latch with
    | none => s
    | some p =>
      if (s.gangLeft f).all fun n => (s.arrivedAt fid p.id).contains n then
        (s.modFlight fid fun g => { g with latch := none }).offer fid p
      else s

/-- MMA, MMAS and ZMMA issue through the latch (R251). -/
def Ctx.multiply (c : Ctx) (op : Op) (o : Long) : State :=
  c.once op o fun l => match l.uniA, l.uniB with
    | some a, some b => c.modulus (longWords o) (decide (op = .zmma)) fun q =>
      if 63 ≤ l.e.counts.getD 1 0 then c.put { c.e with status := .held (.counter 1) }
      else
        let n := c.s.nextId
        let s : State := { c.s with nextId := n + 2 }
        let gang := s.gangLeft c.fl
        let core := c.fl.tileCore (tileNo o)
        if gang.isEmpty then (c.joinLatch s l (n + 1) none).offer c.fl.id ⟨n + 1, op, o, a, b, 0, q, core, none⟩
        else if !gang.contains c.e.snum then c.raise (longWords o) (s.gangFault c.fl ((c.fl.latch.map Latch.id).getD 0) 1)
        else match c.fl.latch with
          | none =>
            let dl := deadlineOf s.clock c.fl.gangE
            let s := s.modFlight c.fl.id fun f => { f with latch := some ⟨n + 1, op, o, a, b, 0, q, core, dl⟩ }
            (c.arriveAt s l (n + 1) dl).tryRelease c.fl.id
          | some p =>
            if p.op = op ∧ p.o = o ∧ p.a = a ∧ p.b = b ∧ p.q = q then
              (c.arriveAt s l p.id (deadlineOf s.clock c.fl.gangE)).tryRelease c.fl.id
            else c.raise (longWords o) (s.gangFault c.fl p.id 2)
    | _, _ => c.raise (longWords o) (breach c.e)

def execMma (o : Long) (s : State) : Host.Outcome State Fault Refusal := s.issue fun c => c.multiply .mma o
def execMmas (o : Long) (s : State) : Host.Outcome State Fault Refusal := s.issue fun c => c.multiply .mmas o
def execZmma (o : Long) (s : State) : Host.Outcome State Fault Refusal := s.issue fun c => c.multiply .zmma o

/-- A strand leaves the gang, or has left it by a FUSE; the latched instruction may then be released (R250). -/
def execGangMemberLeave (flight snum : Nat) (s : State) : Host.Outcome State Fault Refusal :=
  .next (match s.flightOf flight with
    | some f =>
      if f.gang.contains snum ∧ !s.hasStrand flight snum then
        (s.modFlight flight fun g => { g with gang := g.gang.filter fun n => n ≠ snum }).tryRelease flight
      else s.tryRelease flight
    | none => s)

/-- The latch's wait expires: GANG_MISMATCH, cause TIMEOUT, resident or saved (R54, R251). -/
def execGangLatchTimeout (flight : Nat) (s : State) : Host.Outcome State Fault Refusal :=
  .next (match s.flightOf flight with
    | some f => match f.latch with
      | some p => match p.deadline with
        | some d => if d ≤ s.clock then s.raiseFor flight (fun e => e.awaits p.id) (s.gangFault f p.id 3) else s
        | none => s
      | none => s
    | none => s)

/-- An instruction that waits for room enters when a place frees (R252). -/
def execEngineQueueEnter (flight : Nat) (s : State) : Host.Outcome State Fault Refusal :=
  .next (match s.flightOf flight with
    | some f => match f.released.find? fun p => decide ((s.core p.core).queue.length < 8) with
      | some p => s.enterEngine flight p
      | none => s
    | none => s)

/-! ### Instructions of one issuer (R262 to R267) -/

/-- A synchronous instruction or a drain: it enters its queue without the latch; its issuer is held (R265, R266). -/
def Ctx.toEngine (c : Ctx) (op : Op) (o : Long) (core : Nat) (needsQ : Bool) : State :=
  c.once op o fun l =>
    let uni (v : OpVal) : Option W64 := match v with
      | .uni w => some w
      | _ => none
    match uni l.a, uni l.b, uni l.c with
    | some a, some b, some x => c.modulus (longWords o) needsQ fun q =>
      if op = .adrain ∧ 63 ≤ l.e.counts.getD 1 0 then c.put { c.e with status := .held (.counter 1) }
      else
        let n := c.s.nextId
        let e := if op = .adrain then l.e.issueOp n 1 c.s.clock (.matrix (n + 1)) else l.e
        let s : State := { c.s with nextId := n + 2 }
        (s.setEntry c.ref { e with status := .held (.engine (n + 1)) }).offer c.fl.id ⟨n + 1, op, o, a, b, x, q, core, none⟩
    | _, _, _ => c.raise (longWords o) (breach c.e)

def execCmpr (o : Long) (s : State) : Host.Outcome State Fault Refusal :=
  s.issue fun c => c.toEngine .cmpr o c.ref.core false
def execAclr (o : Long) (s : State) : Host.Outcome State Fault Refusal :=
  s.issue fun c => c.toEngine .aclr o (c.fl.tileCore (tileNo o)) false
def execAld (o : Long) (s : State) : Host.Outcome State Fault Refusal :=
  s.issue fun c => c.toEngine .ald o (c.fl.tileCore (tileNo o)) false
def execAst (o : Long) (s : State) : Host.Outcome State Fault Refusal :=
  s.issue fun c => c.toEngine .ast o (c.fl.tileCore (tileNo o)) false
def execAmov (o : Long) (s : State) : Host.Outcome State Fault Refusal :=
  s.issue fun c => c.toEngine .amov o (c.fl.tileCore (tileNo o)) false
def execAscl (o : Long) (s : State) : Host.Outcome State Fault Refusal :=
  s.issue fun c => c.toEngine .ascl o (c.fl.tileCore (tileNo o)) (decide (o.ty = .z64))
def execAdrain (o : Long) (s : State) : Host.Outcome State Fault Refusal :=
  s.issue fun c => c.toEngine .adrain o (c.fl.tileCore (tileNo o)) (decide (o.ty = .z64))
def execAdrainMem (o : Long) (s : State) : Host.Outcome State Fault Refusal :=
  s.issue fun c => c.toEngine .adrain o (c.fl.tileCore (tileNo o)) (decide (o.ty = .z64))

/-! ### The engine (R252, R350, R453) -/

/-- The instruction that may start: the first not started, with the one before it out of the engine. -/
def startable (clock : Nat) : Bool → List EngInstr → Option Nat
  | _, [] => none
  | free, x :: xs =>
    match x.started with
    | some t => startable clock (decide (t + x.clocks ≤ clock)) xs
    | none => if free then some x.id else none

/-- The engine of a core under the patrol's test starts nothing (R453). -/
def State.engineDrained (s : State) (core : Nat) : Bool :=
  match s.fleet.patTest with
  | some (u, _) => decide (u = core)
  | none => false

/-- The engine starts the instruction at the head of its queue, once the banks of its flight are live (R85, R350). -/
def execMatrixEngineStart (core : Nat) (s : State) : Host.Outcome State Fault Refusal :=
  .next (if s.engineDrained core then s
    else match (s.core core).queue.find? fun x => decide (startable s.clock true (s.core core).queue = some x.id) with
      | some x =>
        if s.banksLive (((s.flightOf x.flight).map Flight.alloc).getD []) then
          (s.modCore core fun c => { c with queue := c.queue.map fun y =>
            if y.id = x.id then { y with started := some s.clock } else y }).useUnit core (s.ownerOf x.flight)
        else s
      | none => s)

/-- The oldest instruction of a queue, when it has been out of the engine for `extra` clocks. -/
def State.engineDone (s : State) (core extra : Nat) : Option (EngInstr × Flight) :=
  match (s.core core).queue with
  | [] => none
  | x :: _ => match x.started with
    | some t => if t + x.clocks + extra ≤ s.clock then (s.flightOf x.flight).map fun f => (x, f) else none
    | none => none

/-- Takes an instruction out of a queue. -/
def State.popEngine (s : State) (core id : Nat) : State :=
  s.modCore core fun c => { c with queue := c.queue.filter fun x => x.id ≠ id }

/-- The operations of an engine instruction retire (R251). -/
def State.retireMatrix (s : State) (id : Nat) : State :=
  s.modOps (s.opsWhere fun _ o => decide (o.kind = .matrix id)) fun o => { o with done := true }

/-- The entry that holds an operation of an engine instruction, or waits for it. -/
def Entry.hasEngine (e : Entry) (id : Nat) : Bool := e.awaits id || e.ops.any fun o => decide (o.kind = .matrix id)

def modulusOf (q : Option (W64 × W64)) : Nat × Nat := (q.map fun p => (p.1.toNat, p.2.toNat)).getD (1, 0)

/-- A map that an instruction names, as it entered. -/
def EngInstr.map (x : EngInstr) (k : Nat) : OpMap := opMap (x.maps.getD (((mapsOf x.op x.o)[k]?.map Prod.fst).getD 0) 0)

/-- The tiles that an instruction reads. -/
def EngInstr.readsTiles (x : EngInstr) : List Nat :=
  match x.op with
  | .mma | .mmas | .zmma => if x.o.mod.val % 2 = 1 then [] else [tileNo x.o]
  | .ast | .ascl | .adrain => [tileNo x.o]
  | .amov => [x.o.imm.val / 16]
  | _ => []

/-- M and N of a flight's tiles. -/
def State.dimsOf (s : State) (f : Flight) : Nat × Nat := tileDims (((s.kernelFor f).map Kernel.acls).getD 0)

/-- The bytes a multiply sees of operands written since it entered the queue: old or new, element by element (R268). -/
def EngInstr.sight (x : EngInstr) (f : Flight) (draws : Nat) : Sight :=
  ⟨f.spad, x.snap, fun a => decide (Config.freeChoice (draws + a) % 2 = 1), f.spadSize⟩

/-- The scratchpad offsets that an instruction reads as operands, with the number of the map that reaches them; a scale is named by
its operand's map (R254, R260). -/
def EngInstr.readsSpad (x : EngInstr) (v : Sight) (nm nn : Nat) : List (Nat × Nat) :=
  let num (k : Nat) : Nat := ((mapsOf x.op x.o)[k]?.map Prod.fst).getD 0
  let via (k : Nat) (org : W64) (nr nc : Nat) : List (Nat × Nat) := ((x.map k).reach org nr nc).map fun a => (a, num k)
  match x.op with
  | .mma | .mmas | .zmma =>
    let (pm, pn, kd) := mmaDims x.o.ty (decide (x.op = .mmas))
    let st := (mmaDims x.o.ty false).2.2
    let (sa, sb) := scalesOf v x.op x.o (fmtBlock (x.fmt.getD 0)) (x.map 0) (x.map 1) (x.map 2) x.a x.b
    via 0 x.a pm st ++ via 1 x.b kd pn ++
      (if x.op = .mmas then
        via 2 (BitVec.ofNat 64 (originRow x.a + originCol x.a / sparseKept x.o * 2 ^ 32)) pm (st / sparseKept x.o) else []) ++
      sa.map (fun a => (a, num 0)) ++ sb.map fun a => (a, num 1)
  | .cmpr => via 0 x.a 128 128
  | .ald => via 0 x.a nm nn
  | _ => []

/-- HW_ERROR of an engine: its record names the tile (AUX 1) or the map (AUX 0) (R260). -/
def engineError (n aux : Nat) : FaultInfo := ⟨21, 3, 0, 0, true, n, aux, none⟩

/-- An operand or tile beyond correction: a context kill (R260). -/
def EngInstr.damage (x : EngInstr) (f : Flight) (nm nn : Nat) : Option FaultInfo :=
  if f.spoiled.isEmpty then none
  else match x.readsTiles.find? fun n => f.spoiled.contains (1, n) with
    | some n => some (engineError n 1)
    | none => ((x.readsSpad (x.sight f 0) nm nn).find? fun p => f.spoiled.contains (0, p.1 / 8)).map fun p => engineError p.2 0

/-- A drain to scratchpad that adds reads its destination: an element beyond correction is consumed (R260, R266). -/
def EngInstr.damagedTo (x : EngInstr) (f : Flight) (nm nn : Nat) : Option FaultInfo :=
  if x.o.mod.val / 2 % 2 = 1 then none
  else (((x.map 0).reach x.a nm nn).find? fun a => f.spoiled.contains (0, a / 8)).map fun _ =>
    engineError (((mapsOf x.op x.o)[0]?.map Prod.fst).getD 0) 0

/-- A multiply's results are written and its members' counters fall (R260, R350). -/
def State.retireMultiply (s : State) (core : Nat) (x : EngInstr) (f : Flight) : State :=
  let s := s.popEngine core x.id
  match x.damage f 0 0 with
  | some e => s.raiseFor f.id (fun y => y.hasEngine x.id) e
  | none =>
    let t := mmaTile (x.sight f s.draws) x.op x.o (fmtBlock (x.fmt.getD 0)) (modulusOf x.q) (x.map 0) (x.map 1) (x.map 2) x.a x.b
      (f.tile (tileNo x.o))
    let s : State := { s with draws := s.draws + f.spadSize }
    (s.modFlight f.id fun g => g.setTile (tileNo x.o) t).retireMatrix x.id

def execMatrixRetire (core : Nat) (s : State) : Host.Outcome State Fault Refusal :=
  .next (match s.engineDone core 24 with
    | some (x, f) => if isMultiply x.op then s.retireMultiply core x f else s
    | none => s)

/-- What a synchronous instruction leaves of its flight (R262, R264). -/
def EngInstr.sync (x : EngInstr) (f : Flight) (nm nn : Nat) : Flight :=
  let n := tileNo x.o
  let elems := denseTile (f.tile n) 0 (nm * nn)
  match x.op with
  | .aclr => f.setTile n []
  | .ald => f.setTile n (f.tileFrom (x.map 0) x.a nm nn)
  | .ast => f.storeTile (x.map 0) x.a nn elems
  | .amov => f.setTile n (f.tile (x.o.imm.val / 16))
  | .ascl => f.setTile n (sparseTile 0 (elems.map (scaleElem x.o.ty (decide (x.o.mod.val = 1)) (modulusOf x.q) x.a)))
  | .cmpr => f.compress x.o (x.map 0) (x.map 1) (x.map 2) x.a x.b
  | _ => f

/-- The issuer of a synchronous instruction goes on; CMPR's D receives 0 (R262, R265). -/
def State.syncDone (s : State) (x : EngInstr) : State :=
  s.mapEntries fun y e =>
    if !e.awaits x.id then e
    else if x.op = .cmpr then e.completeWait (s.regsOf ⟨y.core, y.num, e.pos⟩) (longWords x.o) x.o.d false 0
    else { e.advance (longWords x.o) with status := .ready }

def State.completeSync (s : State) (core : Nat) (x : EngInstr) (f : Flight) : State :=
  let s := s.popEngine core x.id
  let (nm, nn) := s.dimsOf f
  match x.damage f nm nn with
  | some e => s.raiseFor f.id (fun y => y.hasEngine x.id) e
  | none => (s.modFlight f.id fun g => x.sync g nm nn).syncDone x

def execSyncMatrixComplete (core : Nat) (s : State) : Host.Outcome State Fault Refusal :=
  .next (match s.engineDone core 8 with
    | some (x, f) => if goesOn x.op then s else s.completeSync core x f
    | none => s)

/-! ### Drains (R128, R266, R267) -/

/-- The engine step of a drain: it reads its tile, and `.clr` clears it (R266). -/
def State.readDrain (s : State) (core : Nat) : State :=
  match s.engineDone core 0 with
  | none => s
  | some (x, f) =>
    if x.op ≠ .adrain then s
    else match x.damage f 0 0 with
      | some e => (s.popEngine core x.id).raiseFor f.id (fun y => y.hasEngine x.id) e
      | none =>
        let s := (s.popEngine core x.id).modCore core fun c => { c with drains := c.drains ++ [{ x with data := f.tile (tileNo x.o) }] }
        if x.o.mod.val / 4 % 2 = 1 then s.modFlight f.id fun g => g.setTile (tileNo x.o) [] else s

/-- The elements that a memory drain writes: address and value, in order (R267). -/
def EngInstr.targets (x : EngInstr) (nm nn : Nat) : List (Nat × W64) :=
  let rows := min (bits x.c.toNat 0 16) nm
  let cols := min (bits x.c.toNat 16 16) nn
  let n := x.o.ty.bytes
  (cellsOf nn (denseTile x.data 0 (nm * nn))).filterMap fun (i, j, v) =>
    if i < rows ∧ j < cols then some ((x.a.toNat + i * (x.b.toNat % 2 ^ 32) + j * n) % 2 ^ 64, v) else none

/-- The checks of a memory drain, row by row of its tile, as stores: sectors that no element lies in are not checked (R267). -/
def State.checkDrain (s : State) (g : Agent) (x : EngInstr) (nm nn : Nat) : List Acc :=
  let rows := min (bits x.c.toNat 0 16) nm
  let cols := min (bits x.c.toNat 16 16) nn
  let n := x.o.ty.bytes
  if rows = 0 ∨ cols = 0 then []
  else (List.range rows).map (fun i => s.check g none .drain ((x.a.toNat + i * (x.b.toNat % 2 ^ 32)) % 2 ^ 64) (cols * n) n) ++
    (if x.b.toNat % n ≠ 0 then [.fault ⟨12, 7, 0, false, x.a.toNat⟩] else [])

/-- The elements of a memory drain applied in order (R267). -/
def State.applyDrain (s : State) (g : Agent) (x : EngInstr) : List (Nat × W64) → State
  | [] => s
  | (a, v) :: rest =>
    let n := x.o.ty.bytes
    match s.check g none .drain a n n with
    | .ok ps =>
      let dest := BitVec.ofNat 64 (leNat (s.readPieces ps))
      ((s.serve g none ps).writeFor g.owner ps (leBytes n (drainElem x.o.ty (decide (x.o.mod.val / 2 % 2 = 1)) (modulusOf x.q) dest v).toNat)).applyDrain g x rest
    | _ => s.applyDrain g x rest

/-- A memory drain as one event at device scope (R128).  It comes after the earlier stores of its flight in program order, so
those in the sectors it reaches are cleaned first, and the flight's cores keep no older copy of them (assumption 32). -/
def State.drainMemory (s : State) (g : Agent) (f : Flight) (x : EngInstr) (ps : List (Nat × Nat)) (ts : List (Nat × W64)) : State :=
  let hit (y : CacheSector) : Bool := ps.any fun p => decide (p.1 / 128 = y.sector)
  let s := s.modCores f.cores fun s c => s.cleanCache c hit
  (s.applyDrain g x ts).modCores f.cores fun s c => s.dropClean c hit

/-- A drain waits whole as one replay entry (R130, R267). -/
def State.parkDrain (s : State) (core : Nat) (x : EngInstr) (cause va : Nat) (pair : Option Nat) : State :=
  match s.slots.findSome? fun y => (y.entries.find? fun e => e.hasEngine x.id).map fun e => (y, e) with
  | none => s
  | some (y, e) =>
    let r : Replay :=
      { index := 0, cause := cause, kind := 4, owner := s.ownerOf x.flight, slot := y.num, entry := e.pos, pos := 0, addr := va, len := 0,
        order := e.order, aux := tileNo x.o, src := 0, ptime := 0, pair := pair, core := core, op := x.id, flight := x.flight,
        item := e.start, pc := e.pc, left := 0, work := .again }
    let s' := s.park core r
    if (s'.core core).replay.length = (s.core core).replay.length then s
    else s'.modCore core fun c => { c with drains := c.drains.map fun d => if d.id = x.id then { d with parked := true } else d }

/-- A drain is performed as one event, or stopped by its checks (R128, R267). -/
def State.performDrain (s : State) (core : Nat) (x : EngInstr) (f : Flight) : State :=
  let (nm, nn) := s.dimsOf f
  let gone : State := s.modCore core fun c => { c with drains := c.drains.filter fun d => d.id ≠ x.id }
  let done (t : State) : State := t.retireMatrix x.id
  let stop (e : FaultInfo) : State := gone.raiseFor f.id (fun y => y.hasEngine x.id) e
  if x.o.mod.val % 2 = 0 then
    match x.damagedTo f nm nn with
    | some e => stop e
    | none => done (gone.modFlight f.id fun g => g.drainTo x.o.ty (decide (x.o.mod.val / 2 % 2 = 1)) (modulusOf x.q) (x.map 0) x.a nn
      (denseTile x.data 0 (nm * nn)))
  else
    let g := s.agentOf f
    let rs := s.checkDrain g x nm nn
    match rs.findSome? Acc.isFault with
    | some e => stop (e.info none)
    | none => match rs.find? Acc.isPoisoned with
      | some (.poisoned a) => stop (hwError a)
      | _ => match rs.findSome? Acc.isWait with
        | some l => s.askLine g l
        | none => match rs.find? fun r => r.isPark.isSome with
          | some (.park cause va pair) => s.parkDrain core x cause va pair
          | _ => done (gone.drainMemory g f x (rs.flatMap Acc.pieces) (x.targets nm nn))

def execDrainPerform (core : Nat) (s : State) : Host.Outcome State Fault Refusal :=
  let s := s.readDrain core
  .next (match (s.core core).drains.find? fun d => !d.parked with
    | some x => match s.flightOf x.flight with
      | some f => s.performDrain core x f
      | none => s
    | none => s)

end Sys2Proof.Machine
end

