-- ==== Sys2Proof/Machine/Sched.lean ====
section
/-!
DEFINITION. What a step does next (assumption 3): the head of the agenda, else an issue (R30), else a step of the device that
is due, else a clock passes.  Also what reaches the storage from outside: errors, evictions, tampering.
-/
namespace Sys2Proof.Machine

/-- A core cache evicts a sector, cleaning it first (R18, R113). -/
def State.evict (s : State) (core sector : Nat) : State := s.evictCache core fun x => decide (x.sector = sector)

/-- A stored word is damaged beyond correction; LOST counts it where no mirror holds it (R59, R84). -/
def State.damageWord (s : State) (r : EntryRef) (w : BadWord) : State :=
  match s.ctxAt r with
  | none => s
  | some c =>
    let t := s.modEntry r fun e => { e with bad := w :: e.bad.filter fun x => x ≠ w }
    if c.fl.mirrored ∧ !w.both then t
    else t.modCore r.core fun k => { k with lost := min (k.lost + 1) 0xFFFF }

/-- The core that holds an 8-byte word of a flight's scratchpad (0) or one of its tiles (1) (R76, R81). -/
def Flight.storeCore (f : Flight) (kind index : Nat) : Nat :=
  if kind = 0 then (if f.pair ∧ f.half ≤ 8 * index then f.core + 1 else f.core) else f.tileCore index

/-- Storage of a flight that no mirror covers is damaged; LOST of the core that holds it counts it (R59, R84, R260). -/
def State.spoil (s : State) (fid kind index : Nat) : State :=
  match s.flightOf fid with
  | none => s
  | some f =>
    (s.modFlight fid fun g => { g with spoiled := (kind, index) :: g.spoiled.filter fun x => x ≠ (kind, index) }).modCore (f.storeCore kind index)
      fun k => { k with lost := min (k.lost + 1) 0xFFFF }

/-- A single-bit error is corrected: CORR counts it, and the row counts it for R459. -/
def State.correctedBit (s : State) (core bank row : Nat) : State :=
  s.modCore core fun k =>
    let n := ((k.rowErrs.find? fun r => decide (r.1 = bank ∧ r.2.1 = row)).map fun r => r.2.2).getD 0
    { k with corr := min (k.corr + 1) 0xFFFF,
             rowErrs := (bank, row, n + 1) :: k.rowErrs.filter fun r => !decide (r.1 = bank ∧ r.2.1 = row) }

/-- Someone outside the package rewrites a stored line and its MAC (R416). -/
def State.tamper (s : State) (line : Nat) (stored : BitVec 4096) (mac : W64) : State :=
  s.addAway (match s.away line with
    | some l => { l with stored := stored, mac := mac }
    | none => ⟨line, s.lineAttr line, s.lineOwner line, stored, mac⟩)

/-- The Gondola can no longer correct a sector that it alone holds (R437). -/
def State.poisonSector (s : State) (sector : Nat) : State :=
  if s.onPkg sector then s
  else { s with tier := { s.tier with poisoned := sector :: s.tier.poisoned.filter fun x => x ≠ sector } }

def State.spoilCounter (s : State) (g : Nat) : State := s.setCounter { s.counter g with bad := true }

/-- A choice that is no step of the opcode table. -/
def State.choice (s : State) : Choice → Plan
  | .event i => if i.toRaw.isNone then .event i s else .other s
  | .issue core column =>
    match s.choose core column with
    | some r => s.issueFor r
    | none => .other s
  | .elapse n => .other (s.tick n)
  | .evict core sector => .other (s.evict core sector)
  | .damage e w => .other (s.damageWord e w)
  | .spoil flight kind index => .other (s.spoil flight kind index)
  | .corrected core bank row => .other (s.correctedBit core bank row)
  | .tamper line stored mac => .other (s.tamper line stored mac)
  | .poison sector => .other (s.poisonSector sector)
  | .counterError g => .other (s.spoilCounter g)
  | .sharedError (some p) => .other (s.resetPartition p)
  | .sharedError none => .other s.resetDevice

/-- Issues that may follow one another before the device is given a turn (assumption 3). -/
def turnLimit : Nat := 32

/-- What the step finds to do. -/
def State.plan (s : State) : Plan :=
  match s.agenda with
  | c :: rest => ({ s with agenda := rest }).choice c
  | [] =>
    match s.nextColumn with
    | some (core, column) =>
      if turnLimit ≤ s.turns then .idle { s with turns := 0 }
      else match s.choose core column with
        | some r => ({ s with turns := s.turns + 1 }).issueFor r
        | none => .other (s.tick 1)
    | none => .idle { s with turns := 0 }

/-- The first of a list of steps that changes the state. -/
def firstChange (s : State) : List (State → Host.Outcome State Fault Refusal) → Option State
  | [] => none
  | f :: fs =>
    match f s with
    | .next t => if t = s then firstChange s fs else some t
    | _ => firstChange s fs

end Sys2Proof.Machine
end

