-- ==== Sys2Proof/Machine/Records.lean ====
section
/-!
DEFINITION. Save records: what a saved flight is written as, its requirement word, and the test of a record's header (R386 to
R391; assumption 14).
-/
namespace Sys2Proof.Machine

/-- `n` bits, least significant first, as a number. -/
def bitsOf : List Bool → Nat
  | [] => 0
  | b :: bs => (if b then 1 else 0) + 2 * bitsOf bs

/-- Two-bit codes as a number. -/
def codesOf (w : Nat) : List Nat → Nat
  | [] => 0
  | c :: cs => c % 2 ^ w + 2 ^ w * codesOf w cs

/-! ### The register section (R389) -/

def VReg.image (r : VReg) : List Byte :=
  match r with
  | .uni u => leBytes 4 u.toNat
  | .aff b d => leBytes 4 b.toNat ++ leBytes 4 d.toNat
  | .den vs => vs.flatMap fun v => leBytes 4 v.toNat

def PReg.image (r : PReg) : List Byte :=
  match r with
  | .uni t => leBytes 4 (if t then 1 else 0)
  | .aff c sense => leBytes 4 c ++ leBytes 4 (if sense then 1 else 0)
  | .den vs => leBytes (ceilDiv vs.length 64 * 8) (bitsOf vs)

def XReg.image (r : XReg) : List Byte :=
  match r with
  | .uni w => leBytes 4 w.toNat
  | .den vs => vs.flatMap fun v => leBytes 4 v.toNat

/-- The form map and the values of an entry's registers, of which the kernel has `nregs` v registers. -/
def Entry.registers (e : Entry) (nregs : Nat) : List Byte :=
  let vs := e.regs.take nregs
  let forms := codesOf 2 (vs.map VReg.code ++ e.preds.map PReg.code) + codesOf 1 (e.xregs.map fun x => x.code / 2) * 2 ^ (2 * (nregs + 7))
  leBytes (ceilDiv (2 * (nregs + 7) + 8) 8) forms ++ vs.flatMap VReg.image ++ e.preds.flatMap PReg.image ++ e.xregs.flatMap XReg.image

/-! ### Entry records (R389) -/

/-- A list of bytes cut or padded with zeros to a length. -/
def fitBytes (n : Nat) (bs : List Byte) : List Byte := (bs ++ List.replicate n 0).take n

/-- The offsets of an entry as positions of its strand (R48). -/
def Entry.atPositions (e : Entry) (bs : List Bool) : Nat := bitsOf (bs.take e.len) * 2 ^ (e.start - e.wstart)

/-- CHAIN in the layout of R286. -/
def Chain.word (c : Chain) : Nat := c.sum.toNat + c.index % 2 ^ 31 * 2 ^ 32 + (if c.isOpen then 2 ^ 63 else 0)

/-- The wait state of an entry (R389): kind, class, threshold, target, and the deadline as a TIME value. -/
def Status.image (s : Status) : List Byte :=
  let w (kind cls t target : Nat) (d : Option Nat) : List Byte :=
    leBytes 1 kind ++ leBytes 1 cls ++ leBytes 2 t ++ leBytes 4 target ++ leBytes 8 (d.getD (2 ^ 64 - 1))
  match s with
  | .parked (.yieldc cls t target) d => w 1 cls t target d
  | .parked (.barw _ _ _) d => w 2 0 0 0 d
  | .parked (.waitv _) d => w 3 0 0 0 d
  | .parked (.waitc _) d => w 4 0 0 0 d
  | .parked (.lock _ _ _) d => w 5 0 0 0 d
  | .parked (.latch _) d => w 6 0 0 0 d
  | .parked (.qwait _) d => w 7 0 0 0 d
  | .held _ => w 8 0 0 0 none
  | .onHandler code _ recno _ => w 9 code 0 recno none
  | .atJoin => w 10 0 0 0 none
  | .ready => w 0 0 0 0 none
  | .done => w 11 0 0 0 none

/-- The 1,024-byte record of an entry (R389). -/
def Entry.image (e : Entry) (slot code : Nat) : List Byte :=
  let cuts := e.levels.flatMap fun l => match l with
    | .cut id n => leBytes 8 id ++ leBytes 8 n
    | .mask _ _ _ _ => []
  let masks := e.levels.flatMap fun l => match l with
    | .cut _ _ => []
    | .mask saved target pending _ => leBytes 8 (e.atPositions saved) ++ leBytes 8 target ++ leBytes 8 (e.atPositions pending)
  e.scalars.flatMap (fun w => leBytes 8 w.toNat) ++ fitBytes 128 cuts ++ fitBytes 192 masks ++
  leBytes 8 (e.atPositions e.mask) ++ leBytes 8 (e.atPositions e.dead) ++ leBytes 8 (e.atPositions e.ended) ++
  leBytes 4 e.start ++ leBytes 2 e.len ++ leBytes 1 e.width ++ leBytes 1 (if e.xflag then 1 else 0) ++
  leBytes 4 ((e.pc - code) / 4) ++ leBytes 4 e.retired ++ leBytes 4 (countWord e.counts) ++ leBytes 4 e.gen.toNat ++
  leBytes 8 ((e.modctx.map fun p => p.1.toNat).getD 0) ++ leBytes 8 ((e.modctx.map fun p => p.2.toNat).getD 0) ++
  leBytes 8 e.chain.word ++ e.status.image ++
  e.streams.flatMap (fun q => leBytes 8 ((q.map Stream.popped).getD 0)) ++ leBytes 8 e.seq ++
  fitBytes 64 (leBytes 8 slot ++ leBytes 8 e.pos ++ leBytes 8 (if e.status = .atJoin then 1 else 0))

/-! ### The whole record (R386, R387, R391) -/

/-- The requirement word (R388). -/
def requirement (k : Kernel) (f : Flight) (xs : List Slot) : Nat :=
  let es := xs.flatMap Slot.entries
  let cuts (e : Entry) : Nat := (e.levels.filter fun l => match l with
    | .cut _ _ => true
    | .mask _ _ _ _ => false).length
  let depth := (es.map fun e => max (cuts e) (e.levels.length - cuts e)).foldl max 0
  k.strands * k.strandBytes / 64 + k.tiles * 2 ^ 16 + k.acls * 2 ^ 21 + k.spad / 128 * 2 ^ 24 + depth * 2 ^ 40 +
  (xs.map fun x => x.entries.length).foldl max 0 * 2 ^ 44 + f.bars.length * 2 ^ 48 +
  (if k.width = 16 then 0 else if k.width = 32 then 1 else 2) * 2 ^ 53 + (if k.pair then 2 ^ 55 else 0) + (k.strands - 1) * 2 ^ 56

/-- A tile as it is saved. -/
def tileImage (acls : Nat) (t : List (Nat × W64)) : List Byte :=
  let (m, n) := tileDims acls
  (denseTile t 0 (m * n)).flatMap fun v => leBytes (tileBytes acls / (m * n)) v.toNat

/-! ### Sections whose inner layout the spec does not give (assumption 14) -/

def barSection : Nat := 256
def matSection : Nat := 512

/-- The barrier table: 16 bytes for each entry, its offset, `.items` mark, decrements due and arrivals. -/
def barImage (f : Flight) : List Byte :=
  fitBytes barSection (f.bars.flatMap fun b =>
    leBytes 4 b.off ++ leBytes 1 (if b.items then 1 else 0) ++ leBytes 3 b.due ++ leBytes 8 b.arrived.length)

/-- The latch, with its operand values. -/
def Latch.image (p : Latch) : List Byte :=
  leBytes 8 (1 + p.op.min * 2 ^ 8 + p.o.mod.val * 2 ^ 16 + p.o.imm.val * 2 ^ 32) ++ leBytes 8 p.a.toNat ++ leBytes 8 p.b.toNat ++
    leBytes 8 p.c.toNat ++ leBytes 8 ((p.q.map fun q => q.1.toNat).getD 0) ++ leBytes 8 ((p.q.map fun q => q.2.toNat).getD 0) ++
    leBytes 8 (p.deadline.getD (2 ^ 64 - 1))

/-- The matrix state: gang register, format register, map registers and latch (R269, R301). -/
def matImage (f : Flight) : List Byte :=
  let word := (f.gang.zipIdx.map fun (n, j) => n * 2 ^ (10 * j)).sum
  fitBytes matSection (leBytes 8 word ++ leBytes 4 f.gang.length ++ leBytes 3 f.gangE ++ leBytes 1 (if f.fmt.isSome then 1 else 0) ++
    leBytes 64 ((f.fmt.map BitVec.toNat).getD 0) ++ f.maps.flatMap (fun m => leBytes 16 m.toNat) ++
    ((f.latch.map Latch.image).getD []))

/-- A stream's record in 64 bytes. -/
def Stream.image (q : Stream) : List Byte :=
  fitBytes 64 (leBytes 8 (if q.wide then 3 else 1) ++ leBytes 8 q.base ++ leBytes 8 (q.istride % 2 ^ 64).toNat ++ leBytes 4 q.total ++
    leBytes 4 q.fetched ++ (q.counts.flatMap fun n => leBytes 4 n) ++ q.strides.flatMap fun (n : Int) => leBytes 4 (n % 2 ^ 32).toNat)

/-- The stream records, the elements queued and the status words of an entry (R272, R289). -/
def Entry.streamImage (e : Entry) : List Byte :=
  (e.streams.flatMap fun q => (q.map Stream.image).getD (List.replicate 64 0)) ++
  e.stats.flatMap (fun x => leBytes 8 x.word.toNat) ++
  e.streams.flatMap fun q => ((q.map Stream.queued).getD []).flatMap fun row => row.flatMap fun w => leBytes 8 w.toNat

/-- The header of a save record (R387). -/
def headerOf (req : Nat) (la : Launch) (f : Flight) (prot : Bool) (nent nrpl len ent reg sp acc bar mat rpl str time : Nat) : List Byte :=
  fitBytes 256 (leBytes 4 0x52535654 ++ leBytes 2 1 ++ leBytes 2 0 ++ leBytes 8 req ++ leBytes 8 la.kid.toNat ++ leBytes 4 f.num ++
    leBytes 4 la.seqNo ++
    leBytes 4 (la.owner % 16 + la.cls % 4 * 2 ^ 4 + (if prot then 2 ^ 6 else 0) + nent * 2 ^ 8 + nrpl * 2 ^ 20) ++
    leBytes 4 len ++ leBytes 4 ent ++ leBytes 4 reg ++ leBytes 4 sp ++ leBytes 4 acc ++ leBytes 4 bar ++ leBytes 4 mat ++
    leBytes 4 rpl ++ leBytes 4 str ++ leBytes 8 time)

/-- The sections of a save record after its header, in order (R387, R389, R391). -/
def sectionImages (k : Kernel) (f : Flight) (xs : List Slot) (rs : List Replay) : List (List Byte) :=
  let es := xs.flatMap fun x => x.entries.map fun e => (x.num, e)
  [es.flatMap fun (n, e) => e.image n k.code, es.flatMap fun (_, e) => e.registers k.regs, Memory.readN f.spad 0 k.spad,
   f.tiles.flatMap (tileImage k.acls), barImage f, matImage f, rs.flatMap (fun r => leBytes 32 r.word) ++ rs.flatMap Replay.data,
   es.flatMap fun (_, e) => e.streamImage]

/-- The bytes of a save record (R387, R389, R391). -/
def recordImage (la : Launch) (k : Kernel) (f : Flight) (prot : Bool) (xs : List Slot) (rs : List Replay) (time : Nat) : List Byte :=
  let ss := sectionImages k f xs rs
  let at_ (i : Nat) : Nat := 256 + ((ss.take i).map List.length).sum
  headerOf (requirement k f xs) la f prot (xs.flatMap Slot.entries).length rs.length (at_ 8) (at_ 0) (at_ 1) (at_ 2) (at_ 3) (at_ 4)
    (at_ 5) (at_ 6) (at_ 7) time ++ ss.flatten

/-- A header that REST may act on, for the lengths of the register and stream sections of its flight (R387, R390): format, reserved
fields, and sections apart from each other and inside LEN. -/
def saveHeaderOk (h reg str : Nat) : Bool :=
  let len := bits h 288 32
  let req := bits h 64 64
  let secs := [(bits h 320 32, 1024 * bits h 264 12), (bits h 352 32, reg), (bits h 384 32, 128 * bits req 24 16),
    (bits h 416 32, bits req 16 5 * tileBytes (bits req 21 3)), (bits h 448 32, barSection), (bits h 480 32, matSection),
    (bits h 512 32, 160 * bits h 276 10), (bits h 544 32, str)]
  decide (bits h 0 32 = 0x52535654) && decide (bits h 32 16 = 1) && decide (bits h 48 16 = 0) && decide (bits h 263 1 = 0) &&
  decide (bits h 286 2 = 0) && decide (bits h 640 1408 = 0) &&
  (secs.all fun s => decide (256 ≤ s.1) && decide (s.1 + s.2 ≤ len)) &&
  (secs.zipIdx.all fun (s, i) => secs.zipIdx.all fun (t, j) =>
    decide (i = j) || decide (s.1 + s.2 ≤ t.1) || decide (t.1 + t.2 ≤ s.1))

/-- What a record's requirement word asks for, as a kernel asks for it (R388, R390). -/
def Kernel.required (k : Kernel) (req : Nat) : Kernel :=
  let n := bits req 56 8 + 1
  let w := if bits req 53 2 = 0 then 16 else if bits req 53 2 = 1 then 32 else 64
  { k with strands := n, width := w, regs := ceilDiv (64 * bits req 0 16) (n * w * 4), tiles := bits req 16 5, acls := bits req 21 3,
           spad := 128 * bits req 24 16, pair := decide (bits req 55 1 = 1) }

end Sys2Proof.Machine
end

