-- ==== Sys2Proof/Machine/Registers.lean ====
section
/-!
DEFINITION. The registers of BAR 0: how each map reads, and what a write does (R8, R9, R356, R357, R397 to R399, R433, R434,
R441 to R446, R458, R460, R461, R464, R466, R469).

A map is rendered as the bytes it reads as; a write lays the written bytes over them and takes the fields back.
-/
namespace Sys2Proof.Machine

/-! ### Maps as they read -/

def FnBlock.bytes (b : FnBlock) : List Byte :=
  leBytes 8 b.q0base.toNat ++
  leBytes 8 (b.q0lgs + (if b.q0auth then 32 else 0) + b.q0class * 64 + b.q0bpri * 256 + b.q0ceil * 4096 + b.q0stat * 2 ^ 24 +
    b.seqwin * 2 ^ 32) ++
  leBytes 8 b.errbase.toNat ++ leBytes 8 b.errcnt ++ leBytes 8 b.fltbase.toNat ++ leBytes 8 b.fltcnt ++ leBytes 16 0 ++
  leBytes 8 (b.drop + b.macf * 2 ^ 32)

def Region.bytes (r : Region) : List Byte :=
  let flag (b : Bool) (k : Nat) : Nat := if b then 2 ^ k else 0
  leBytes 16 (r.vbase + r.pages * 2 ^ 64 + r.owner * 2 ^ 96 + r.attr * 2 ^ 100 + flag r.rd 102 + flag r.wr 103 + flag r.big 104 +
    flag r.spool 105 + flag r.hostv 106 + r.fns * 2 ^ 112) ++
  leBytes 16 (flag r.busy 2 + r.stat * 2 ^ 8 + flag r.live 16)

def slotTableBytes (t : List SlotEnt) : List Byte := t.flatMap fun e => leBytes 2 (e.share % 256 + e.cls % 4 * 256)

/-- THX_TAPPLY as it reads (R434). -/
def Thx.tapWord (x : Thx) : Nat :=
  (if x.tapBusy then 64 else 0) + x.tapStat * 256 +
  (x.mst.filter fun e => decide (e.share ≤ 253 ∧ e.cls = 0)).length * 2 ^ 16 + x.tapFrame * 2 ^ 32

def Link_.word (l : Link_) : Nat := l.state + l.spare * 2 ^ 8 + l.rtcnt * 2 ^ 16 + l.fltf * 2 ^ 32 + l.last * 2 ^ 48

def Port.word (p : Port) : Nat := p.state + (if p.sess then 4 else 0) + p.peerId.toNat * 2 ^ 32

def Import.bytes (w : Import) : List Byte :=
  leBytes 16 ((if w.v then 1 else 0) + w.rights * 2 + w.ports * 8 + w.rfn * 256 + w.exp * 4096 + w.size * 2 ^ 64)

def Export.bytes (e : Export) : List Byte :=
  leBytes 32 ((if e.v then 1 else 0) + e.rights * 2 + e.rfn * 16 + e.peerId.toNat * 256 + e.base.toNat * 2 ^ 64 + e.size * 2 ^ 128)

/-- V of a collective entry reads 0 while another valid entry holds its ID (R446). -/
def collValid (es : List CollEnt) (c : Nat) : Bool :=
  let e := es.getD c {}
  e.v && !(es.zipIdx.any fun (x, i) => decide (i ≠ c) && x.v && decide (x.ident = e.ident))

/-- A collective entry with a given V. -/
def CollEnt.bytes (e : CollEnt) (v : Bool) : List Byte :=
  leBytes 16 (e.ident.toNat + (if v then 2 ^ 32 else 0) + e.p * 2 ^ 40 + e.rank * 2 ^ 48 + e.nport * 2 ^ 54 +
    e.pport * 2 ^ 56 + e.nfn * 2 ^ 60 + e.pfn * 2 ^ 64)

/-- A collective entry as it reads (R446). -/
def collBytes (es : List CollEnt) (c : Nat) : List Byte := (es.getD c {}).bytes (collValid es c)

def Fleet.patStatWord (x : Fleet) : Nat := x.patNext + x.patForced * 2 ^ 16 + x.patFails * 2 ^ 32
def Fleet.waterWord (x : Fleet) : Nat := x.patW % 2 ^ 48 + x.fepoch * 2 ^ 48
def Fleet.pwrWord (x : Fleet) : Nat := x.plim + x.pnow * 2 ^ 12 + x.thr * 2 ^ 24 + (if x.c0over then 2 ^ 32 else 0)

/-- The module's identity as peers see it (R469). -/
def selfId : Nat := leNat ((Config.deviceId.drop 4).take 4)

/-- One map of BAR 0: where it starts, and the bytes it reads as; none where nothing answers. -/
def State.mapAt (s : State) (fn off : Nat) : Option (Nat × List Byte) :=
  let x := s.fleet
  let reg (base w : Nat) : Option (Nat × List Byte) := some (base, leBytes 8 w)
  if off < 72 then some (0, (s.fnBlock fn).bytes)
  else if 0x10000 ≤ off ∧ off < 0x20000 then reg (off / 8 * 8) 0
  else if 0x40000 ≤ off ∧ off < 0x40100 then
    let w := (off - 0x40000) / 16
    some (0x40000 + 16 * w, ((s.thx.imports.getD fn []).getD w {}).bytes)
  else if 0x40100 ≤ off ∧ off < 0x40300 then
    let e := (off - 0x40100) / 32
    some (0x40100 + 32 * e, ((s.thx.exports_.getD fn []).getD e {}).bytes)
  else if 0x40300 ≤ off ∧ off < 0x40400 then
    let c := (off - 0x40300) / 16
    some (0x40300 + 16 * c, collBytes (s.thx.colls.getD fn []) c)
  else if off / 8 = 0x33400 / 8 then reg 0x33400 x.waterWord
  else if off / 8 = 0x32420 / 8 then reg 0x32420 selfId
  else if off / 16 = 0x33810 / 16 then some (0x33810, leBytes 16 x.faccept)
  else if fn ≠ 0 then none
  else if 0x20000 ≤ off ∧ off < 0x20800 then
    let p := (off - 0x20000) / 128
    let y := s.part p
    some (0x20000 + 128 * p, partBytes y.shadow (wrapZ 64 y.bal) y.busy y.stat)
  else if off / 8 = 0x20800 / 8 then reg 0x20800 s.oper.prot
  else if off / 32 = 0x20840 / 32 then some (0x20840, s.oper.waym.flatMap fun m => leBytes 2 m)
  else if off / 8 = 0x20880 / 8 then reg 0x20880 Config.ttRoot
  else if off / 8 = 0x20888 / 8 then reg 0x20888 Config.fwdBase
  else if off / 8 = 0x20890 / 8 then reg 0x20890 (s.oper.vfrst * 2 ^ 16)
  else if off / 8 = 0x208A0 / 8 then reg 0x208A0 Config.kickBase
  else if off / 8 = 0x208A8 / 8 then reg 0x208A8 Config.qcbBase
  else if off / 8 = 0x208B0 / 8 then reg 0x208B0 Config.slotBase
  else if off / 8 = 0x208B8 / 8 then reg 0x208B8 Config.rplBase
  else if 0x21000 ≤ off ∧ off < 0x25000 then
    let g := (off - 0x21000) / 32
    some (0x21000 + 32 * g, (s.region g).bytes)
  else if off / 8 = 0x30000 / 8 then reg 0x30000 s.iwinWord
  else if off / 8 = 0x30008 / 8 then
    reg 0x30008 ((s.sec.keys.zipIdx.map fun (k, i) => if k.loaded then 2 ^ i else 0).sum + s.sec.integ * 2 ^ 32)
  else if off / 8 = 0x30010 / 8 then reg 0x30010 s.lifeWord
  else if off / 8 = 0x30018 / 8 then reg 0x30018 s.dbgWord
  else if off / 8 = 0x30020 / 8 then reg 0x30020 Config.fatBase
  else if 0x31000 ≤ off ∧ off < 0x31200 then some (0x31000, slotTableBytes s.thx.mstShadow)
  else if 0x31200 ≤ off ∧ off < 0x31A00 then
    let p := (off - 0x31200) / 512
    some (0x31200 + 512 * p, slotTableBytes (s.thx.pstShadow.getD p []))
  else if off / 8 = 0x31A00 / 8 then reg 0x31A00 s.thx.tapWord
  else if 0x32000 ≤ off ∧ off < 0x32280 then
    let i := (off - 0x32000) / 8
    reg (0x32000 + 8 * i) (s.link i).word
  else if 0x32400 ≤ off ∧ off < 0x32420 then
    let p := (off - 0x32400) / 8
    reg (0x32400 + 8 * p) (s.port p).word
  else if off / 8 = 0x33408 / 8 then reg 0x33408 x.patStatWord
  else if 0x33440 ≤ off ∧ off < 0x33640 then some (0x33440, x.patLog.flatMap PatLog.bytes)
  else if 0x33700 ≤ off ∧ off < 0x33740 then some (0x33700, x.spmapBytes)
  else if off / 16 = 0x33800 / 16 then some (0x33800, leBytes 16 x.foffer)
  else if off / 8 = 0x33820 / 8 then reg 0x33820 ((if x.flocked then 2 else 0) + x.fstat * 256)
  else if off / 8 = 0x33900 / 8 then reg 0x33900 x.pwrWord
  else if 0x33A00 ≤ off ∧ off < 0x33A40 then some (0x33A00, x.telBytes)
  else if 0x33C00 ≤ off ∧ off < 0x33F00 then some (0x33C00, x.spcore.flatMap SpCore.bytes)
  else none

/-! ### Writes -/

/-- The fields of QE_FN and QE_REPLAY_CNT taken back from their bytes (R356, R357). -/
def FnBlock.take (b : FnBlock) (n : Nat) : FnBlock :=
  { b with
    q0base := BitVec.ofNat 64 (bits n 0 64), q0lgs := bits n 64 5, q0auth := decide (bits n 69 1 = 1), q0class := bits n 70 2,
    q0bpri := bits n 72 4, q0ceil := bits n 76 4, seqwin := if bits n 96 32 = 0 then 1000 else bits n 96 32,
    errbase := BitVec.ofNat 64 (bits n 128 64), fltbase := BitVec.ofNat 64 (bits n 256 64), drop := bits n 512 32,
    macf := bits n 544 16 }

def partFieldsOf (n : Nat) : PartFields where
  pairs := bits n 0 48
  fns := bits n 48 15
  slots := bits n 64 64
  c0slots := bits n 128 64
  rfg := bits n 192 5
  acg := bits n 197 5
  tshare := bits n 208 8
  period := bits n 256 32
  refill := bits n 320 64
  cap := bits n 384 64
  saveb := bits n 512 64
  savesz := bits n 576 64

/-- The written fields of a region record (R399). -/
def Region.take (r : Region) (n : Nat) : Region :=
  let on (k : Nat) : Bool := decide (bits n k 1 = 1)
  { r with vbase := bits n 0 64, pages := bits n 64 32, owner := bits n 96 4, attr := bits n 100 2, rd := on 102, wr := on 103,
           big := on 104, spool := on 105, hostv := on 106, fns := bits n 112 15 }

def slotTableOf (n : Nat) : List SlotEnt := (List.range 256).map fun i => ⟨bits n (16 * i) 8, bits n (16 * i + 8) 2⟩

/-- The state that an outcome goes on to. -/
def outState (s : State) (o : Host.Outcome State Fault Refusal) : State :=
  match o with
  | .next t => t
  | _ => s

/-- Function resets that a write of PART_VFRST asks for (R397, R406). -/
def State.writeVfrst (s : State) (w : Nat) : State :=
  (List.range 15).foldl (fun s f =>
    if bits w f 1 = 0 then s else if f = 0 then outState s (execPfQueueReset s) else outState s (execVfReset f s)) s

/-- What a write does to the map at `base`: `n` the map with the written bytes over it, `w` the written bytes alone. -/
def State.putMap (s : State) (fn base n w : Nat) : State :=
  if base = 0 then
    let t := s.modFn fn fun b => b.take n
    if bits w 80 1 = 1 then outState t (execQ0go fn t) else t
  else if 0x10000 ≤ base ∧ base < 0x20000 then s.kick fn ((base - 0x10000) / 8) (BitVec.ofNat 32 w)
  else if 0x40000 ≤ base ∧ base < 0x40100 then
    let x : Import := ⟨decide (bits n 0 1 = 1), bits n 1 2, bits n 3 4, bits n 8 4, bits n 12 4, bits n 64 52⟩
    { s with thx := { s.thx with imports := s.thx.imports.modify fn fun l => l.set ((base - 0x40000) / 16) x } }
  else if 0x40100 ≤ base ∧ base < 0x40300 then
    let x : Export := ⟨decide (bits n 0 1 = 1), bits n 1 2, bits n 4 4, BitVec.ofNat 32 (bits n 8 32), BitVec.ofNat 64 (bits n 64 64),
      bits n 128 52⟩
    { s with thx := { s.thx with exports_ := s.thx.exports_.modify fn fun l => l.set ((base - 0x40100) / 32) x } }
  else if 0x40300 ≤ base ∧ base < 0x40400 then
    let x : CollEnt := ⟨BitVec.ofNat 32 (bits n 0 32), decide (bits n 32 1 = 1), bits n 40 7, bits n 48 6, bits n 54 2, bits n 56 2,
      bits n 60 4, bits n 64 4⟩
    { s with thx := { s.thx with colls := s.thx.colls.modify fn fun l => l.set ((base - 0x40300) / 16) x } }
  else if fn ≠ 0 then s
  else if base = 0x33810 then s.modFleet fun x => { x with faccept := n % 2 ^ 128 }
  else if 0x20000 ≤ base ∧ base < 0x20800 then
    let p := (base - 0x20000) / 128
    let t := s.modPart p fun y => { y with shadow := partFieldsOf n }
    if bits w 640 1 = 1 then outState t (execPartitionApply p t) else t
  else if base = 0x20800 then outState s (execPartProtWrite (BitVec.ofNat 64 n) s)
  else if base = 0x20840 then
    let ms := (List.range 16).map fun i => bits n (16 * i) 16
    if waysOk ms then { s with oper := { s.oper with waym := ms } } else s
  else if base = 0x20890 then s.writeVfrst w
  else if 0x21000 ≤ base ∧ base < 0x25000 then
    let g := (base - 0x21000) / 32
    let t := if (s.region g).live then s else s.modRegion g fun r => r.take n
    if bits w 128 1 = 1 then outState t (execRegionApply g t)
    else if bits w 129 1 = 1 then outState t (execRegionRevoke g t)
    else t
  else if base = 0x30000 then outState s (execSecIwinWrite (BitVec.ofNat 64 n) s)
  else if base = 0x31000 then { s with thx := { s.thx with mstShadow := slotTableOf n } }
  else if 0x31200 ≤ base ∧ base < 0x31A00 then
    { s with thx := { s.thx with pstShadow := s.thx.pstShadow.set ((base - 0x31200) / 512) (slotTableOf n) } }
  else if base = 0x31A00 then (if bits w 5 1 = 1 then s.applyTables (bits w 0 5) else s)
  else if 0x32000 ≤ base ∧ base < 0x32280 then
    s.modLink ((base - 0x32000) / 8) fun l => { l with rtcnt := bits n 16 16, fltf := bits n 32 16 }
  else if base = 0x33408 then s.modFleet fun x => { x with patForced := bits n 16 16 }
  else if base = 0x33820 then (if bits w 0 1 = 1 then outState s (execFeatureCommit s) else s)
  else if base = 0x33900 then
    s.modFleet fun x => { x with plim := if 600 ≤ bits n 0 12 ∧ bits n 0 12 ≤ 2200 then bits n 0 12 else x.plim,
                                 c0over := x.c0over && decide (bits w 32 1 = 0) }
  else if base = 0x33A00 then
    s.modFleet fun x => { x with c0kmax := bits n 32 32, c0gmax := bits n 64 32, rtmax := bits n 96 16, c0exc := bits n 112 16 }
  else s

/-- One map of BAR 0 as it was last written: a collective entry keeps its V while it reads 0 (R8, R446). -/
def State.mapStored (s : State) (fn off : Nat) : Option (Nat × List Byte) :=
  if 0x40300 ≤ off ∧ off < 0x40400 then
    let c := (off - 0x40300) / 16
    let e := (s.thx.colls.getD fn []).getD c {}
    some (0x40300 + 16 * c, e.bytes e.v)
  else s.mapAt fn off

/-- A host write of `size` bytes to BAR 0 of a function (R8, R9). -/
def State.writeBar (s : State) (fn off size : Nat) (v : W64) : State :=
  if 15 ≤ fn then s
  else match s.mapStored fn off with
    | none => s
    | some (base, img) =>
      let over_ (bs : List Byte) : Nat := leNat ((overlay bs (off - base) (leBytes (min size 8) v.toNat)).take img.length)
      s.putMap fn base (over_ img) (over_ (List.replicate img.length 0))

/-- REGISTER_WRITE (R8). -/
def execRegisterWrite (fn offset size : Nat) (v : W64) (s : State) : Host.Outcome State Fault Refusal :=
  .next (s.writeBar fn offset size v)

end Sys2Proof.Machine
end

