-- ==== Sys2Proof/Machine/System.lean ====
section
/-!
DEFINITION. Control and status registers, TIME, save, restore, return from the handler, clear, the replay queue, the queue
engine's instructions, and the timeouts of waits (R54, R98, R232, R286 to R296, R384 to R393).
-/
namespace Sys2Proof.Machine

/-! ### Reading registers (R78, R84, R86, R286, R287) -/

/-- An instruction that writes one UNI value to D and goes on. -/
def Ctx.give (c : Ctx) (t : State) (o : Long) (e : Entry) (wide : Bool) (w : W64) : State :=
  c.andThen (longWords o) (e.writeAll c.ke.regs wide o.d w) fun e => t.setEntry c.ref (e.advance (longWords o))

/-- CORE_PART as it reads (R78). -/
def Core.partWord (c : Core) : Nat :=
  c.rfg + c.acg * 2 ^ 5 + (48 - c.rfg - c.acg) * 2 ^ 10 + (if c.pend.isSome || c.zeroing.isSome then 2 ^ 16 else 0) +
  (if c.partBad then 2 ^ 17 else 0)

/-- CORE_ECC as it reads (R84). -/
def State.eccWord (s : State) (core : Nat) : Nat :=
  let c := s.core core
  let on := s.flights.any fun f => f.mirrored && decide (f.state ≠ .saved) && f.cores.contains core
  c.corr + c.rep * 2 ^ 16 + c.lost * 2 ^ 32 + (if on then 2 ^ 48 else 0)

/-- CORE_RET as it reads (R86). -/
def Core.retWord (c : Core) : Nat := bitsOf (c.banks.map fun b => decide (b ≠ .live)) + (if c.prken then 2 ^ 48 else 0)

/-- RANGE of an entry (R286). -/
def Entry.rangeWord (e : Entry) : Nat := e.start + e.len * 2 ^ 32 + e.width * 2 ^ 48

/-- What CSRR gives for the registers that reading does not change (R286). -/
def Ctx.csr (c : Ctx) (n : Nat) : Nat :=
  match n with
  | 1 => c.e.gen.toNat
  | 2 => c.e.chain.word
  | 3 => c.e.rangeWord
  | 4 => whereOf c.ref.core c.ref.slot
  | 5 => (c.e.modctx.map fun p => p.1.toNat).getD 0
  | 0x10 => c.s.fleet.waterWord
  | 0x100 => (c.s.core c.ref.core).partWord
  | 0x101 => c.s.eccWord c.ref.core
  | 0x102 => (c.s.core c.ref.core).retWord
  | 0x103 => replayAt c.ref.core 0
  | 0x105 => (c.s.core c.ref.core).trapa.toNat
  | 0x180 => c.s.queue.psum
  | 0x181 => c.s.queue.lseed.toNat
  | _ => 0

def execCsrr (o : Long) (s : State) : Host.Outcome State Fault Refusal :=
  s.issue fun c => c.once .csrr o fun l => c.give c.s o l.e (csrWide o.imm.val) (BitVec.ofNat 64 (c.csr o.imm.val))

/-- CSRR of XFLAG reads the bit and clears it (R49, R286). -/
def execCsrrXflag (o : Long) (s : State) : Host.Outcome State Fault Refusal :=
  s.issue fun c => c.once .csrr o fun l => c.give c.s o { l.e with xflag := false } false (truth l.e.xflag)

/-- CSRR of TRAPQ pops the oldest activation; an empty queue holds the entry (R288). -/
def execCsrrTrapq (o : Long) (s : State) : Host.Outcome State Fault Refusal :=
  s.issue fun c => c.once .csrr o fun l =>
    match (c.s.core c.ref.core).trapq with
    | [] => c.put { c.e with status := .held .trapq }
    | (w0, w1) :: rest => c.give (c.s.modCore c.ref.core fun k => { k with trapq := rest, trapa := w1 }) o l.e true w0

/-- TIME (R287). -/
def execTime (o : Long) (s : State) : Host.Outcome State Fault Refusal :=
  s.issue fun c => c.once .time o fun l => c.give c.s o l.e true (BitVec.ofNat 64 c.s.clock)

/-! ### Writing registers (R78, R84, R86, R98, R286, R359) -/

/-- A CSRW with its UNI source (R271). -/
def Ctx.csrw (c : Ctx) (o : Long) (k : W64 → Entry → State) : State :=
  c.onceUni .csrw o fun l a _ _ => k a (l.e.advance (longWords o))

/-- CSRW of CORE_ECC; a write of CORE_RPLB is ignored (R84, R286). -/
def execCsrw (o : Long) (s : State) : Host.Outcome State Fault Refusal :=
  s.issue fun c => c.csrw o fun a e =>
    if o.imm.val = 0x101 then
      (c.put e).modCore c.ref.core fun k => { k with corr := bits a.toNat 0 16, rep := bits a.toNat 16 16, lost := bits a.toNat 32 16 }
    else c.put e

def execCsrwXflag (o : Long) (s : State) : Host.Outcome State Fault Refusal :=
  s.issue fun c => c.csrw o fun a e => c.put { e with xflag := decide (bits a.toNat 0 1 = 1) }

/-- CSRW of RGEN: 0 is stored as 1 (R98). -/
def execCsrwRgen (o : Long) (s : State) : Host.Outcome State Fault Refusal :=
  s.issue fun c => c.csrw o fun a e => c.put { e with gen := if a.setWidth 32 = 0#32 then 1 else a.setWidth 32 }

/-- CORE_PART: a pending word, or refused (R78). -/
def execCorePartWrite (o : Long) (s : State) : Host.Outcome State Fault Refusal :=
  s.issue fun c => c.csrw o fun a e => (c.put e).writeCorePart c.ref.core (bits a.toNat 0 5) (bits a.toNat 5 5)

/-- The exit that clearing PRKEN starts for banks held for parked flights (R86). -/
def Bank.unpark (b : Bank) (now : Nat) : Bank :=
  match b with
  | .entering true t _ => .entering true t true
  | .retained true => .leaving true now
  | b => b

def execCoreRetWrite (o : Long) (s : State) : Host.Outcome State Fault Refusal :=
  s.issue fun c => c.csrw o fun a e =>
    let on := decide (bits a.toNat 48 1 = 1)
    (c.put e).modCore c.ref.core fun k =>
      { k with prken := on, banks := if on then k.banks else k.banks.map fun b => b.unpark c.s.clock }

/-- QE_PSUM is cleared where the source has ones (R359). -/
def execQePsumClear (o : Long) (s : State) : Host.Outcome State Fault Refusal :=
  s.issue fun c => c.csrw o fun a e =>
    let t := c.put e
    { t with queue := { t.queue with psum := t.queue.psum - (t.queue.psum &&& bits a.toNat 0 15) } }

def execQeLseedWrite (o : Long) (s : State) : Host.Outcome State Fault Refusal :=
  s.issue fun c => c.csrw o fun a e =>
    let t := c.put e
    { t with queue := { t.queue with lseed := storedSeed (a.setWidth 32) } }

/-! ### SAVE and quiescence (R289, R384 to R387) -/

/-- The resident flight that a handle names on a core (R288). -/
def State.flightAt (s : State) (core handle : Nat) : Option Flight :=
  s.flights.find? fun f => decide (f.core = core ∧ (f.state = .resident ∨ f.state = .asked)) && decide (s.handleOf f = handle) &&
    s.slots.any fun x => decide (x.flight = f.id ∧ x.core = core ∧ x.num = handle)

/-- SAVE: the flight stops issuing and comes to quiescence; the issuer waits for D (R289).  The save area is checked as a
store at 4 KiB alignment (assumption 14). -/
def execSave (o : Long) (s : State) : Host.Outcome State Fault Refusal :=
  s.issue fun c => c.onceUni .save o fun l a b _ =>
    match c.s.flightAt c.ref.core a.toNat with
    | none => c.give c.s o l.e false 1
    | some f => c.access (longWords o) (.pool true) 4096 0 [⟨l.acting.headD 0, b.toNat, 256⟩] fun c _ =>
      (c.s.modFlight f.id fun f => { f with state := .saving, saveArea := b.toNat }).setEntry c.ref
        { l.e with status := .held (.save f.id o) }

/-- A flight being saved has come to quiescence: nothing of it is in an engine queue, and no access is under way (R385). -/
def State.quiet (s : State) (f : Flight) : Bool :=
  f.released.isEmpty &&
  (f.cores.all fun c => !((s.core c).queue.any fun x => decide (x.flight = f.id)) &&
    !((s.core c).drains.any fun x => decide (x.flight = f.id) && !x.parked)) &&
  (f.cores.all fun c => !((s.core c).flying.any fun r => decide (r.flight = f.id))) &&
  (s.slots.all fun x => decide (x.flight ≠ f.id) || x.entries.all fun e => e.fillOf.isNone)

/-- The copies of an entry whose chunks not started become one replay entry of cause PREEMPT each (R289, R297, R392). -/
def preempted (s : State) (f : Flight) (x : Slot) (e : Entry) : List Replay :=
  e.ops.filterMap fun o => match o.kind with
    | .copy c =>
      let left := c.chunks.filter fun k => !k.started
      (left.head?).map fun k => { index := 0, cause := 3, kind := 3, owner := s.ownerOf f.id, slot := x.num, entry := e.pos, pos := 0,
                                  addr := k.dst, len := (left.map Chunk.len).sum, order := e.order, aux := ticketOf o.seq 0, src := k.src,
                                  ptime := s.clock % 2 ^ 32, pair := none, core := x.core, op := o.id, flight := f.id, item := e.start,
                                  pc := e.pc, left := 0, work := .again }
    | _ => none

/-- Takes a flight's entries out of its cores' queues. -/
def State.takeReplay (s : State) (f : Flight) : State :=
  s.modCores f.cores fun s c => s.dropReplay c fun r => decide (r.flight = f.id)

/-- The issuer of a SAVE receives its status (R289). -/
def State.saveDone (s : State) (fid status : Nat) : State :=
  s.mapEntries fun x e => match e.status with
    | .held (.save f o) => if f = fid then e.completeWait (s.regsOf ⟨x.core, x.num, e.pos⟩) (longWords o) o.d false (BitVec.ofNat 64 status) else e
    | _ => e

/-- The live items of a flight's strands: slot, piece and offset. -/
def State.itemsOf (s : State) (fid : Nat) : List (EntryRef × Nat) :=
  (s.slots.filter fun x => decide (x.flight = fid)).flatMap fun x => x.entries.flatMap fun e =>
    ((List.range e.len).filter e.live).map fun i => (⟨x.core, x.num, e.pos⟩, i)

/-- A save reads a word of the scratchpad that is damaged: the item that owns it dies, and the spec does not say which item of the
flight that is (assumption 42). -/
def State.loseOwner (s : State) (fid : Nat) : State :=
  let xs := s.itemsOf fid
  match xs[Config.freeChoice s.draws % xs.length]? with
  | some (r, i) => ({ s with draws := s.draws + 1 } : State).endItems r [i] true
  | none => s

/-- A save reads every register word of its flight and its scratchpad: what is damaged is consumed (R59, R61). -/
def State.consumeSaved (s : State) (fid : Nat) : State :=
  let words := ((s.flightOf fid).map fun f => f.spoiled.filter fun p => decide (p.1 = 0)).getD []
  let s := words.foldl (fun s _ => s.loseOwner fid) s
  (s.slots.filter fun x => decide (x.flight = fid)).foldl (fun s x =>
    x.entries.foldl (fun s e => s.consumeAll ⟨x.core, x.num, e.pos⟩ e.bad) s) s

/-- Writes the record and frees the flight's slots and pool (R289). -/
def State.saveFlight (s : State) (f : Flight) (la : Launch) (k : Kernel) : State :=
  let xs := s.slots.filter fun x => decide (x.flight = f.id)
  let parked := f.cores.flatMap fun c => (s.core c).replay.filter fun r => decide (r.flight = f.id) && decide (r.kind ≠ 3)
  let rs := parked ++ xs.flatMap fun x => x.entries.flatMap (preempted s f x)
  let drains := f.cores.flatMap fun c => (s.core c).drains.filter fun d => decide (d.flight = f.id)
  let s := (s.modCores f.cores State.releaseDevice).takeReplay f
  let s := s.modCores f.cores fun s c => s.modCore c fun y => { y with drains := y.drains.filter fun d => decide (d.flight ≠ f.id) }
  let bs := recordImage la k f (s.protectedOwner la.owner) xs rs s.clock
  let s := match s.devPieces ⟨0, 0, 0xFE, 0, 0⟩ (.pool true) f.saveArea bs.length 1 with
    | .ok (t, ps) => t.writeFor 0 ps bs
    | .error _ => s
  let s := s.modFlight f.id fun g => { g with
    state := .saved, saved := xs, savedReplay := rs, savedDrains := drains, alloc := [], mirrored := false, placing := none,
    parkedSince := none }
  let s : State := { s with slots := s.slots.filter fun x => decide (x.flight ≠ f.id) }
  s.saveDone f.id 0

/-- QUIESCENCE_COMPLETE (R385). -/
def execQuiescenceComplete (flight : Nat) (s : State) : Host.Outcome State Fault Refusal :=
  .next (match s.flightOf flight with
    | none => s.saveDone flight 1
    | some f =>
      if f.state = .saving ∧ s.quiet f then
        match s.launchOf f.tag with
        | some la => match s.kernelOf la.fn la.kid with
          | some k =>
            let t := s.consumeSaved f.id
            match t.flightOf f.id with
            | some g => t.saveFlight g la k
            | none => t.saveDone f.id 1
          | none => s
        | none => s
      else s)

/-! ### REST (R290, R390) -/

/-- The saved flight that a header names (R387). -/
def State.savedBy (s : State) (h : Nat) : Option Flight :=
  s.flights.find? fun f => decide (f.state = .saved) && decide (f.num = bits h 192 32) && (match s.launchOf f.tag with
    | some la => decide (la.owner = bits h 256 4 ∧ la.kid.toNat = bits h 128 64 ∧ la.seqNo % 2 ^ 32 = bits h 224 32)
    | none => false)

/-- The cores that a record would take accept a flight: no partition word pending, no zeroing and no spare about to take a core's
number (R79, R468). -/
def State.steady (s : State) (k : Kernel) (core : Nat) : Bool :=
  let ok (c : Nat) : Bool := (s.core c).pend.isNone && (s.core c).zeroing.isNone && !s.swapping c
  ok core && (!k.pair || ok (core + 1))

/-- The slots of a saved flight on their new core or pair: the lowest free slots in order (R29, R62). -/
def State.seatSaved (s : State) (f : Flight) (core : Nat) : List (Slot × Slot) :=
  let lo := f.saved.filter fun x => decide (x.core = f.core)
  let hi := f.saved.filter fun x => decide (x.core ≠ f.core)
  let on (c : Nat) (xs : List Slot) : List (Slot × Slot) :=
    xs.zipIdx.map fun (x, i) => (x, { x with core := c, num := (s.freeSlots c).getD i 0, watchdog := 0 })
  on core lo ++ on (core + 1) hi

/-- A reference into a saved flight, as it stands after the restore. -/
def moveRef (ps : List (Slot × Slot)) (r : EntryRef) : EntryRef :=
  match ps.find? fun p => decide (p.1.core = r.core ∧ p.1.num = r.slot) with
  | some p => ⟨p.2.core, p.2.num, r.pos⟩
  | none => r

/-- A replay entry rejoins a core's queue (R290). -/
def State.rejoinReplay (s : State) (ps : List (Slot × Slot)) (r : Replay) : State :=
  if r.cause = 3 then s
  else
    let x := moveRef ps r.ref
    match freeIndex (s.core x.core).replay 512 0 with
    | some i => s.addReplay x.core { r with core := x.core, slot := x.slot, index := i, src := if r.kind = 1 ∨ r.kind = 2 then i else r.src }
    | none => s

/-- Rebuilds a saved flight on a core (R62, R290, R390, R391). -/
def State.restore (s : State) (f : Flight) (la : Launch) (k : Kernel) (core : Nat) (alloc : List Alloc) : State :=
  let ps := s.seatSaved f core
  let at_ (c : Nat) : Nat := core + (c - f.core)
  let g : Flight := { f with
    state := .resident, core := core, saved := [], savedReplay := [], savedDrains := [], alloc := alloc, mirrored := s.mirrors k core,
    placing := none, latch := f.latch.map fun p => { p with core := at_ p.core } }
  let s := (s.modFlight f.id fun _ => g).modCores g.cores State.acquireCore
  let s : State := { s with slots := s.slots ++ ps.map Prod.snd }
  let s := f.savedReplay.foldl (fun s r => s.rejoinReplay ps r) s
  let s := f.savedDrains.foldl (fun s d => s.modCore (g.tileCore (tileNo d.o)) fun c => { c with drains := c.drains ++ [d] }) s
  let s := s.modOps ((ps.flatMap fun p => p.2.entries.flatMap Entry.ops).map AsyncOp.id) fun o => match o.kind with
    | .copy c => { o with kind := .copy c.unpark }
    | _ => o
  let s := (ps.flatMap fun p => p.2.entries.map fun e => (⟨p.2.core, p.2.num, e.pos⟩ : EntryRef)).foldl State.retireAt s
  (s.takePieces alloc).modCore (2 * (core / 2)) fun c => { c with lastOwner := some la.owner }

/-- The distributor on a record that a core had no room for: the next core or pair of the partition (R390). -/
def State.tryNext (s : State) (f : Flight) (k : Kernel) (core : Nat) : State :=
  match (List.range 96).find? fun c => decide (core < c) && s.siteOpen f.part k c with
  | some c => s.askHandler f c ((s.fitFlight k c).getD [])
  | none => s

/-- The lengths of the register and stream sections of a saved flight (R389). -/
def Flight.sectionLens (f : Flight) (k : Kernel) : Nat × Nat :=
  let es := f.saved.flatMap Slot.entries
  ((es.flatMap fun e => e.registers k.regs).length, (es.flatMap Entry.streamImage).length)

/-- The pieces that a record takes on a core, where what its requirement word asks for fits there: those kept for it, if the
distributor chose this core (R390). -/
def State.recordRoom (s : State) (f : Flight) (k : Kernel) (req core : Nat) : Option (List Alloc) :=
  if s.steady k core then
    (s.fitFlight (k.required req) core).map fun as => if f.placing = some core ∧ !f.alloc.isEmpty then f.alloc else as
  else none

/-- REST: the first row of R290 that applies, as a status and the state; or the wait for the banks that it takes (R85). -/
def State.restAt (s : State) (core h : Nat) : Except State (Nat × State) :=
  match s.savedBy h with
  | none => .ok (3, s)
  | some f => match s.launchOf f.tag, s.kernelFor f with
    | some la, some k =>
      let (reg, str) := f.sectionLens k
      -- what was kept for it counts as free for it
      let s' := s.modFlight f.id fun f => { f with placing := none, alloc := [] }
      if !saveHeaderOk h reg str then .ok (3, s)
      else if bits h 119 1 = 1 ∧ core % 2 ≠ 0 then .ok (4, s')
      else match s'.recordRoom f k (bits h 64 64) core with
        | none => .ok (2, s'.tryNext f k core)
        | some alloc => if s'.banksLive alloc then .ok (0, s'.restore f la k core alloc) else .error (s.wakeBanks alloc)
    | _, _ => .ok (3, s)

def execRest (o : Long) (s : State) : Host.Outcome State Fault Refusal :=
  s.issue fun c => c.onceUni .rest o fun l a _ _ =>
    c.access (longWords o) (.pool false) 4096 0 [⟨l.acting.headD 0, a.toNat, 256⟩] fun c rs =>
      match c.s.restAt c.ref.core (leNat (c.s.readPieces (rs.flatMap Prod.snd))) with
      | .error t => t.setEntry c.ref { c.e with status := .held (.banks c.ref.core) }
      | .ok (st, t) =>
        c.andThen (longWords o) (l.e.writeAll c.ke.regs false o.d (BitVec.ofNat 64 st)) fun e =>
          t.setEntry c.ref (e.advance (longWords o))

/-! ### TRET (R291) -/

/-- TRET: the entry that the handle names goes on, or is killed. -/
def execTret (o : Long) (s : State) : Host.Outcome State Fault Refusal :=
  s.issue fun c => c.onceUni .tret o fun l a _ _ =>
    let t := c.put (l.e.advance (longWords o))
    if 1024 ≤ a.toNat then t
    else t.resume ⟨c.ref.core, bits a.toNat 0 7, bits a.toNat 7 3⟩ (o.mod.val % 4)

/-! ### CLRX (R292, R407) -/

/-- The cores that a CLRX clears. -/
def clrxCores (core : Nat) (pair : Bool) : List Nat := if pair then [2 * (core / 2), 2 * (core / 2) + 1] else [core]

/-- CLRX: the sequence begins when no flight but the issuer's own is resident; it takes at most 8 µs (R292). -/
def execClrx (o : Long) (s : State) : Host.Outcome State Fault Refusal :=
  s.issue fun c => c.once .clrx o fun l =>
    let pair := decide (o.mod.val = 1)
    if c.s.slots.any fun x => (clrxCores c.ref.core pair).contains x.core && decide (x.flight ≠ c.fl.id ∧ x.num < 128) then c.give c.s o l.e false 1
    else
      let due := c.s.clock + Config.freeChoice c.s.draws % (8 * Config.clocksPerUs + 1)
      let t : State := { c.s with draws := c.s.draws + 1 }
      (t.modCore c.ref.core fun k => { k with clearing := some (c.ref, pair, due) }).setEntry c.ref { l.e with status := .held (.clrx o) }

/-- What the clear zeroes of its issuer: stream queues, stacks and modulus context (R292). -/
def Entry.cleared (e : Entry) : Entry := { e with streams := [none, none, none, none], levels := [], modctx := none }

/-- What the clear zeroes of its issuer's flight: gang, format and map registers and the barrier table (R292). -/
def Flight.cleared (f : Flight) : Flight :=
  { f with gang := [], gangE := 31, fmt := none, maps := List.replicate 8 0, bars := [] }

/-- CLRX_COMPLETE: the cores' caches are cleaned and invalidated, their release logs are empty, and what R292 lists is zero. -/
def execClrxComplete (core : Nat) (s : State) : Host.Outcome State Fault Refusal :=
  .next (match (s.core core).clearing with
    | none => s
    | some (r, pair, due) =>
      if s.clock < due then s
      else
        let s := s.modCores (clrxCores core pair) fun s c =>
          ((s.releaseDevice c).modCore c fun k => { k with cache := [] }).clearRemains c
        let s := s.modCore core fun k => { k with clearing := none }
        let s := if pair then s.modCore (2 * (core / 2)) fun k => { k with lastOwner := none, clearAsked := false } else s
        let s := match s.slot r.core r.slot with
          | some x => s.modFlight x.flight Flight.cleared
          | none => s
        s.modEntry r fun e => match e.status with
          | .held (.clrx o) => e.cleared.completeWait (s.regsOf r) (longWords o) o.d false 0
          | _ => e)

/-! ### The replay queue (R293, R294) -/

/-- The entries that RPLR selects (R294); a copy remainder also lies in the page of its source (assumption 34). -/
def replaySel (sel a : Nat) (r : Replay) : Bool :=
  match sel with
  | 0 => decide (r.index = a)
  | 1 => decide (r.addr / 65536 = a / 65536) || (decide (r.kind = 3) && decide (r.src / 65536 = a / 65536))
  | 2 => decide (r.cause = a % 16)
  | _ => true

/-- RPLR: releases the selected entries, or drops those of killed contexts (R132, R294). -/
def execRplr (o : Long) (s : State) : Host.Outcome State Fault Refusal :=
  s.issue fun c => c.onceUni .rplr o fun l a _ _ =>
    let drop := decide (o.mod.val / 4 % 2 = 1)
    let p (r : Replay) : Bool := replaySel (o.mod.val % 4) a.toNat r && (!drop || (c.s.flightOf r.flight).isNone)
    let n := ((c.s.core c.ref.core).replay.filter p).length
    c.andThen (longWords o) (l.e.writeAll c.ke.regs false o.d (BitVec.ofNat 64 n)) fun e =>
      let t := c.put (e.advance (longWords o))
      if drop then t.dropReplay c.ref.core p else t.release c.ref.core p

/-- RPLQ: how many entries the issuing entry holds (R293). -/
def execRplq (o : Long) (s : State) : Host.Outcome State Fault Refusal :=
  s.issue fun c => c.onceUni .rplq o fun l a _ _ =>
    let cause := bits a.toNat 0 4
    let n := ((c.s.core c.ref.core).replay.filter fun r => decide (r.slot = c.ref.slot ∧ r.entry = c.ref.pos ∧ r.flight = c.fl.id) &&
      (decide (cause = 15) || decide (r.cause = cause))).length
    c.give c.s o l.e false (BitVec.ofNat 64 n)

/-! ### The queue engine (R295, R296) -/

/-- QWAIT: at once when the doorbell word or QE_PSUM is not 0, else the entry parks (R295). -/
def execQwait (o : Long) (s : State) : Host.Outcome State Fault Refusal :=
  s.issue fun c => c.once .qwait o fun l =>
    let b := c.s.bell c.e.snum
    if b = 0 ∧ c.s.queue.psum = 0 then c.parkWait c.s o l.e (.qwait o) (o.mod.val % 32)
    else c.give { c.s with queue := { c.s.queue with bells := c.s.queue.bells.set c.e.snum 0 } } o l.e true b

/-- The function whose record FLTACK closes: the issuer's, or the lowest with an open record of that number (assumption 35). -/
def State.ackFn (s : State) (own recno : Nat) : Nat :=
  let open_ (f : Nat) : Bool := s.queue.faults.any fun x => decide (x.fn = f ∧ x.recno = recno) && x.isOpen
  if open_ own then own else ((List.range 15).find? open_).getD own

/-- FLTACK (R296). -/
def execFltack (o : Long) (s : State) : Host.Outcome State Fault Refusal :=
  s.issue fun c => c.onceUni .fltack o fun l a b _ =>
    let recno := a.toNat % 2 ^ 32
    let r := c.s.ackFault (c.s.ackFn c.la.fn recno) recno (b.toNat % 2 ^ 32)
    c.andThen (longWords o) (l.e.writeAll c.ke.regs false o.d (BitVec.ofNat 64 r.2)) fun e =>
      r.1.setEntry c.ref (e.advance (longWords o))

/-! ### Timeouts (R54, R232, R295) -/

/-- A wait whose time has run out writes TIMEOUT and goes on; a QWAIT writes 0. -/
def Entry.expire (e : Entry) (now nregs : Nat) : Entry :=
  match e.status with
  | .parked w (some d) =>
    if now < d then e
    else (match w with
      | .barw o _ _ | .waitv o | .waitc o | .lock o _ _ => e.completeWait nregs (longWords o) o.d false 1
      | .qwait o => e.completeWait nregs (longWords o) o.d true 0
      | _ => e)
  | _ => e

/-- The saved entry that stood at `e`, when its wait runs out (R54). -/
def State.expireSaved (s : State) (e : EntryRef) (f : Flight) : Flight :=
  let nregs := ((s.kernelFor f).map Kernel.regs).getD 128
  { f with saved := f.saved.map fun x =>
      if x.core = e.core ∧ x.num = e.slot then x.modEntry e.pos fun y => y.expire s.clock nregs else x }

/-- TIMEOUT of a wait, of the resident entry or of a saved one that stood there (R54). -/
def execTimeout (e : EntryRef) (s : State) : Host.Outcome State Fault Refusal :=
  let t := s.modEntry e fun x => x.expire s.clock (s.regsOf e)
  .next { t with flights := t.flights.map (s.expireSaved e) }

end Sys2Proof.Machine
end

