-- ==== Sys2Proof/Machine/Auto.lean ====
section
/-!
DEFINITION. The steps of the device that an idle machine tries, in order (assumption 3).
-/
namespace Sys2Proof.Machine

/-- A step of the device. -/
abbrev Act := State → Host.Outcome State Fault Refusal

/-- The steps that an entry may be due. -/
def State.dueEntry (s : State) (r : EntryRef) : List Act :=
  match s.entry r with
  | none => []
  | some e =>
    let streams := ((List.range 4).filter fun q => (e.streams.getD q none).isSome).map fun q => fun t => execStreamElementDeliver r q t
    match e.status with
    | .atJoin | .done => (fun t => execRejoin r t) :: streams
    | .held (.fuse _) => (fun t => execFuseHoldEnd r t) :: streams
    | .parked (.yieldc _ _ _) _ => (fun t => execYieldcWake r t) :: streams
    | .parked (.lock _ _ _) _ => (fun t => execLockRetry r t) :: (fun t => execTimeout r t) :: streams
    | .parked (.waitv _) _ => (fun t => execWaitvReevaluate r t) :: (fun t => execTimeout r t) :: streams
    | .parked _ _ => (fun t => execTimeout r t) :: streams
    | _ => streams

/-- The waits of saved entries (R54). -/
def State.dueSaved (s : State) : List Act :=
  s.flights.flatMap fun f => f.saved.flatMap fun x => x.entries.filterMap fun e => match e.status with
    | .parked _ (some _) => some fun t => execTimeout ⟨x.core, x.num, e.pos⟩ t
    | _ => none

/-- FUSE_RETRY of a held entry: tried last, since a retry of which nothing comes issues the FUSE again (R170). -/
def State.dueRetry (s : State) (r : EntryRef) : List Act :=
  match (s.entry r).map Entry.status with
  | some (.held (.fuse _)) => [fun t => execFuseRetry r t]
  | _ => []

def dueChunks (id : Nat) (c : CopyOp) : List Act :=
  (List.range c.chunks.length).map fun k => fun t => execCopyChunkPerform id k t

/-- The steps that an operation of an entry may be due. -/
def dueOp (o : AsyncOp) : List Act :=
  match o.kind with
  | .copy c => dueChunks o.id c
  | .coll _ => [fun t => execCollTimeout o.id t]
  | _ => []

/-- The chunks of a COPY packet. -/
def dueStarted (p : Started) : List Act :=
  match p.copy with
  | some c => dueChunks p.id c
  | none => []

/-- The steps that a flight may be due. -/
def dueFlight (f : Flight) : List Act :=
  (fun t => execGangLatchTimeout f.id t) :: (fun t => execEngineQueueEnter f.id t) ::
  (fun t => execQuiescenceComplete f.id t) :: (0 :: f.gang).map fun n => fun t => execGangMemberLeave f.id n t

/-- The steps that a core may be due. -/
def dueCore (c : Nat) : List Act :=
  [fun t => execMatrixEngineStart c t, fun t => execDrainPerform c t, fun t => execMatrixRetire c t,
   fun t => execSyncMatrixComplete c t, fun t => execClrxComplete c t, fun t => execPartitionWordTakeEffect c t,
   fun t => execPoolZeroingDone c t]

/-- The changes of retention of a core that may be due (R85). -/
def State.dueBanks (s : State) (c : Nat) : List Act :=
  (List.range 48).flatMap fun b =>
    match (s.core c).banks.getD b .live with
    | .live => []
    | .entering _ _ _ => [fun t => execRetentionEntryDone c b t]
    | .leaving _ _ | .retained _ => [fun t => execRetentionExitDone c b t]

/-- The banks of a core that may enter retention (R85): tried last, so that a bank woken for a flight is still live when the
flight is placed. -/
def State.dueRetention (s : State) (c : Nat) : List Act :=
  (List.range 48).filterMap fun b =>
    if (s.core c).banks.getD b .live = .live ∧ (s.mayRetain c b).isSome then some fun t => execRetentionEntry c b t else none

/-- The steps that a queue may be due beside those of its packets. -/
def dueQueue (q : Qcb) : List Act :=
  [fun t => execWaitPacketDone q.fn q.qid t, fun t => execSeqGap q.fn q.qid t]

/-- The packets at the heads of some queues, group by group (R377). -/
def duePackets (qs : List Qcb) : List Act :=
  let each (f : Nat → Nat → Act) : List Act := qs.map fun q => f q.fn q.qid
  each (fun fn qid t => execFaultAck fn qid t) ++ each (fun fn qid t => execSignal fn qid t) ++ each (fun fn qid t => execWait fn qid t) ++
  each (fun fn qid t => execCopy fn qid t) ++ each (fun fn qid t => execLaunch fn qid t) ++
  each (fun fn qid t => execGangReservation fn qid t) ++ each (fun fn qid t => execAdmitPkt fn qid t) ++
  each (fun fn qid t => execDestroy fn qid t) ++ each (fun fn qid t => execRegq fn qid t) ++ each (fun fn qid t => execUnregq fn qid t) ++
  each (fun fn qid t => execResetq fn qid t) ++ each (fun fn qid t => execRekey fn qid t)

/-- The parse round has served a queue. -/
def State.servedQueue (s : State) (q : Qcb) : Bool := match q.slot with
  | some k => s.queue.round.contains k
  | none => false

/-- The packets of queues that the parse round has still to serve, then those that begin the next round (R377). -/
def State.dueRounds (s : State) : List Act :=
  duePackets (s.queue.qcbs.filter fun q => !s.servedQueue q) ++ duePackets (s.queue.qcbs.filter s.servedQueue)

/-- The steps that a launch may be due. -/
def dueLaunch (l : Launch) : List Act :=
  [fun t => execStallSweep l.tag t, fun t => execReorderPhaseClose l.tag t, fun t => execLaunchComplete l.tag t]

/-- The steps that a line's request may be due (R434 to R436). -/
def dueReq (q : TReq) : List Act :=
  [fun t => execSlotSend (pairOf q.line) t, fun t => execGondolaResponse (pairOf q.line) false t,
   fun t => execLineFill q.line t]

/-- Steps of the device that may be due, in the order in which an idle machine tries them. -/
def State.due (s : State) : List Act :=
  s.entryRefs.flatMap s.dueEntry ++
  s.slots.flatMap (fun x => x.entries.flatMap fun e => e.ops.flatMap dueOp) ++
  s.flights.flatMap (fun f => f.saved.flatMap fun x => x.entries.flatMap fun e => e.ops.flatMap dueOp) ++
  s.dueSaved ++
  s.queue.started.flatMap dueStarted ++
  s.flights.flatMap dueFlight ++
  (List.range 96).flatMap dueCore ++
  (List.range 96).flatMap s.dueBanks ++
  s.slots.map (fun x => fun t => execWatchdog x.core x.num t) ++
  s.launches.flatMap dueLaunch ++
  [fun t => execFlightDispatch t] ++
  (List.range 4).map (fun u => fun t => execAdmissionComplete u t) ++
  s.queue.qcbs.flatMap dueQueue ++
  s.dueRounds ++
  ((List.range 17).filter s.passDue).map (fun p => fun t => execSchedulingPass p t) ++
  (List.range 16).flatMap (fun p => [fun t => execBudgetRefill p t, fun t => execBudgetExhausted p t,
    fun t => execPartitionApplyDone p t]) ++
  [fun t => execTableTakeEffect t, fun t => execPatrolTestEnd [] t, fun t => execPatrolStep t, fun t => execPatrolDeferRetry t] ++
  s.thx.reqs.flatMap dueReq ++
  (List.range 80).map (fun p => fun t => execTetherStall p t) ++
  s.entryRefs.flatMap s.dueRetry ++
  (List.range 96).flatMap s.dueRetention

end Sys2Proof.Machine
end

