-- ==== Sys2Proof/Machine/Place.lean ====
section
/-!
DEFINITION. Putting one instruction where the next step fetches it (assumption 11): over the bytes at the PC of the entry that
issues next, or, with no entry that may issue, by loading a program of one kernel, one flight, one strand and one sealed code
page.
-/
namespace Sys2Proof.Machine

/-- Device address and frame of the page that a loaded program takes. -/
def placeVa : Nat := 0x10000
def placeFrame : Nat := 16

/-- The bytes of a loaded program's translation: a table entry on each level and a sealed, executable, readable leaf of
owner 1 (R109, R402). -/
def State.placePage (s : State) : State :=
  let t2 := Config.ttPool
  let t3 := Config.ttPool + 4096
  let t4 := Config.ttPool + 8192
  let leaf := 1 + 1 * 2 ^ 4 + 2 ^ 8 + 2 ^ 9 + placeFrame * 2 ^ 16
  let s := s.pokeN Config.ttRoot 8 (t2 + 1)
  let s := s.pokeN t2 8 (t3 + 1)
  let s := s.pokeN t3 8 (t4 + 1)
  let s := s.pokeN (t4 + 8) 8 leaf
  (s.setFat placeFrame 4).setTags (placeFrame * 512) 512 1

/-- The strand of a loaded program: 16 items, every register as R33 and R69 give it. -/
def placeEntry : Entry :=
  { Entry.blank 16 placeVa with scalars := [BitVec.ofNat 64 Config.paramVa, 16, 0, 0, 0, 16] ++ List.replicate 58 0 }

def placeFlight (id : Nat) : Flight := { Flight.blank id 0 0 with part := 0, alloc := [⟨0, 0, 0, 8192⟩] }

def placeLaunch : Launch := { Launch.blank 0 1 1 0 with parts := [0], paramVa := Config.paramVa }

def placeKernel : Kernel := { Kernel.blank 1 1 0 .tenant placeVa with pages := [placeVa] }

/-- Loads a program of one strand whose code begins with the bytes. -/
def State.loadProgram (s : State) (bs : List Byte) : State :=
  let s := s.placePage.land (placeFrame * 65536) bs
  { s with
    slots := ⟨0, 0, s.nextId, 0, [placeEntry]⟩ :: s.slots.filter fun x => !decide (x.core = 0 ∧ x.num = 0)
    flights := placeFlight s.nextId :: s.flights
    launches := placeLaunch :: s.launches.filter fun l => l.tag ≠ 0
    kernels := placeKernel :: s.kernels.filter fun k => !decide (k.fn = 1 ∧ k.kid = 0)
    nextId := s.nextId + 1 }

/-- Writes bytes at the PC of an entry, if its page can be fetched. -/
def Ctx.overwrite (c : Ctx) (bs : List Byte) : Option State :=
  match c.s.check c.agent none .fetch c.e.pc bs.length 1 with
  | .ok ps => some (c.s.writePieces ps bs)
  | _ => none

/-- The state with these bytes where the next step fetches. -/
def State.placeCode (s : State) (bs : List Byte) : State :=
  let s := { s with agenda := [], turns := 0 }
  match s.nextColumn with
  | none => s.loadProgram bs
  | some (core, column) =>
    match (s.choose core column).bind s.ctxAt with
    | none => s.loadProgram bs
    | some c => (c.overwrite bs).getD (s.loadProgram bs)

end Sys2Proof.Machine
end

