-- ==== Sys2Proof/Machine/Dispatch.lean ====
section
/-!
DEFINITION. One arm for each constructor of Instr: the meaning of each row of the opcode table.
-/
namespace Sys2Proof.Machine

/-- The meaning of an instruction for the entry `cur`, or of a step of the device. -/
def exec (i : Instr) (s : State) : Host.Outcome State Fault Refusal :=
  match i with
  | .nop o => Sys2Proof.Machine.execNop o s
  | .nopLong o => Sys2Proof.Machine.execNopLong o s
  | .exit o => Sys2Proof.Machine.execExit o s
  | .exitLong o => Sys2Proof.Machine.execExitLong o s
  | .join o => Sys2Proof.Machine.execJoin o s
  | .joinLong o => Sys2Proof.Machine.execJoinLong o s
  | .yield o => Sys2Proof.Machine.execYield o s
  | .yieldLong o => Sys2Proof.Machine.execYieldLong o s
  | .ret o => Sys2Proof.Machine.execRet o s
  | .retLong o => Sys2Proof.Machine.execRetLong o s
  | .elect o => Sys2Proof.Machine.execElect o s
  | .electLong o => Sys2Proof.Machine.execElectLong o s
  | .trap o => Sys2Proof.Machine.execTrap o s
  | .trapLong o => Sys2Proof.Machine.execTrapLong o s
  | .idx o => Sys2Proof.Machine.execIdx o s
  | .idxLong o => Sys2Proof.Machine.execIdxLong o s
  | .formof o => Sys2Proof.Machine.execFormof o s
  | .formofLong o => Sys2Proof.Machine.execFormofLong o s
  | .bra o => Sys2Proof.Machine.execBra o s
  | .call o => Sys2Proof.Machine.execCall o s
  | .bru o => Sys2Proof.Machine.execBru o s
  | .brc o => Sys2Proof.Machine.execBrc o s
  | .yieldc o => Sys2Proof.Machine.execYieldc o s
  | .split o => Sys2Proof.Machine.execSplit o s
  | .fuse o => Sys2Proof.Machine.execFuse o s
  | .vote o => Sys2Proof.Machine.execVote o s
  | .voteLong o => Sys2Proof.Machine.execVoteLong o s
  | .reord o => Sys2Proof.Machine.execReord o s
  | .mov o => Sys2Proof.Machine.execMov o s
  | .movLong o => Sys2Proof.Machine.execMovLong o s
  | .movi o => Sys2Proof.Machine.execMovi o s
  | .moviLong o => Sys2Proof.Machine.execMoviLong o s
  | .sel o => Sys2Proof.Machine.execSel o s
  | .selLong o => Sys2Proof.Machine.execSelLong o s
  | .iadd o => Sys2Proof.Machine.execIadd o s
  | .iaddLong o => Sys2Proof.Machine.execIaddLong o s
  | .isub o => Sys2Proof.Machine.execIsub o s
  | .isubLong o => Sys2Proof.Machine.execIsubLong o s
  | .ineg o => Sys2Proof.Machine.execIneg o s
  | .inegLong o => Sys2Proof.Machine.execInegLong o s
  | .iabs o => Sys2Proof.Machine.execIabs o s
  | .iabsLong o => Sys2Proof.Machine.execIabsLong o s
  | .imin o => Sys2Proof.Machine.execImin o s
  | .iminLong o => Sys2Proof.Machine.execIminLong o s
  | .imax o => Sys2Proof.Machine.execImax o s
  | .imaxLong o => Sys2Proof.Machine.execImaxLong o s
  | .imul o => Sys2Proof.Machine.execImul o s
  | .imulLong o => Sys2Proof.Machine.execImulLong o s
  | .imulh o => Sys2Proof.Machine.execImulh o s
  | .imulhLong o => Sys2Proof.Machine.execImulhLong o s
  | .imad o => Sys2Proof.Machine.execImad o s
  | .imadLong o => Sys2Proof.Machine.execImadLong o s
  | .shl o => Sys2Proof.Machine.execShl o s
  | .shlLong o => Sys2Proof.Machine.execShlLong o s
  | .shr o => Sys2Proof.Machine.execShr o s
  | .shrLong o => Sys2Proof.Machine.execShrLong o s
  | .sar o => Sys2Proof.Machine.execSar o s
  | .sarLong o => Sys2Proof.Machine.execSarLong o s
  | .rol o => Sys2Proof.Machine.execRol o s
  | .rolLong o => Sys2Proof.Machine.execRolLong o s
  | .and o => Sys2Proof.Machine.execAnd o s
  | .andLong o => Sys2Proof.Machine.execAndLong o s
  | .or o => Sys2Proof.Machine.execOr o s
  | .orLong o => Sys2Proof.Machine.execOrLong o s
  | .xor o => Sys2Proof.Machine.execXor o s
  | .xorLong o => Sys2Proof.Machine.execXorLong o s
  | .andn o => Sys2Proof.Machine.execAndn o s
  | .andnLong o => Sys2Proof.Machine.execAndnLong o s
  | .not o => Sys2Proof.Machine.execNot o s
  | .notLong o => Sys2Proof.Machine.execNotLong o s
  | .popc o => Sys2Proof.Machine.execPopc o s
  | .popcLong o => Sys2Proof.Machine.execPopcLong o s
  | .clz o => Sys2Proof.Machine.execClz o s
  | .clzLong o => Sys2Proof.Machine.execClzLong o s
  | .ctz o => Sys2Proof.Machine.execCtz o s
  | .ctzLong o => Sys2Proof.Machine.execCtzLong o s
  | .brev o => Sys2Proof.Machine.execBrev o s
  | .brevLong o => Sys2Proof.Machine.execBrevLong o s
  | .bfx o => Sys2Proof.Machine.execBfx o s
  | .bfxLong o => Sys2Proof.Machine.execBfxLong o s
  | .bfi o => Sys2Proof.Machine.execBfi o s
  | .bfiLong o => Sys2Proof.Machine.execBfiLong o s
  | .icmp o => Sys2Proof.Machine.execIcmp o s
  | .icmpLong o => Sys2Proof.Machine.execIcmpLong o s
  | .plog o => Sys2Proof.Machine.execPlog o s
  | .plogLong o => Sys2Proof.Machine.execPlogLong o s
  | .lea o => Sys2Proof.Machine.execLea o s
  | .leaLong o => Sys2Proof.Machine.execLeaLong o s
  | .icvt o => Sys2Proof.Machine.execIcvt o s
  | .icvtLong o => Sys2Proof.Machine.execIcvtLong o s
  | .fadd o => Sys2Proof.Machine.execFadd o s
  | .faddLong o => Sys2Proof.Machine.execFaddLong o s
  | .fsub o => Sys2Proof.Machine.execFsub o s
  | .fsubLong o => Sys2Proof.Machine.execFsubLong o s
  | .fmul o => Sys2Proof.Machine.execFmul o s
  | .fmulLong o => Sys2Proof.Machine.execFmulLong o s
  | .fmin o => Sys2Proof.Machine.execFmin o s
  | .fminLong o => Sys2Proof.Machine.execFminLong o s
  | .fmax o => Sys2Proof.Machine.execFmax o s
  | .fmaxLong o => Sys2Proof.Machine.execFmaxLong o s
  | .ffma o => Sys2Proof.Machine.execFfma o s
  | .ffmaLong o => Sys2Proof.Machine.execFfmaLong o s
  | .fabs o => Sys2Proof.Machine.execFabs o s
  | .fabsLong o => Sys2Proof.Machine.execFabsLong o s
  | .fneg o => Sys2Proof.Machine.execFneg o s
  | .fnegLong o => Sys2Proof.Machine.execFnegLong o s
  | .fclass o => Sys2Proof.Machine.execFclass o s
  | .fclassLong o => Sys2Proof.Machine.execFclassLong o s
  | .fcmp o => Sys2Proof.Machine.execFcmp o s
  | .fcmpLong o => Sys2Proof.Machine.execFcmpLong o s
  | .frcp o => Sys2Proof.Machine.execFrcp o s
  | .frsq o => Sys2Proof.Machine.execFrsq o s
  | .fsqrt o => Sys2Proof.Machine.execFsqrt o s
  | .fdiv o => Sys2Proof.Machine.execFdiv o s
  | .fexp2 o => Sys2Proof.Machine.execFexp2 o s
  | .flog2 o => Sys2Proof.Machine.execFlog2 o s
  | .ftanh o => Sys2Proof.Machine.execFtanh o s
  | .fcvt o => Sys2Proof.Machine.execFcvt o s
  | .fcvtLong o => Sys2Proof.Machine.execFcvtLong o s
  | .fcvtB8 o => Sys2Proof.Machine.execFcvtB8 o s
  | .fitof o => Sys2Proof.Machine.execFitof o s
  | .fftoi o => Sys2Proof.Machine.execFftoi o s
  | .fftoiLong o => Sys2Proof.Machine.execFftoiLong o s
  | .qcvt o => Sys2Proof.Machine.execQcvt o s
  | .qscaleFit o => Sys2Proof.Machine.execQscaleFit o s
  | .qscaleApply o => Sys2Proof.Machine.execQscaleApply o s
  | .perm o => Sys2Proof.Machine.execPerm o s
  | .redu o => Sys2Proof.Machine.execRedu o s
  | .scan o => Sys2Proof.Machine.execScan o s
  | .zmod o => Sys2Proof.Machine.execZmod o s
  | .zadd o => Sys2Proof.Machine.execZadd o s
  | .zsub o => Sys2Proof.Machine.execZsub o s
  | .zmul o => Sys2Proof.Machine.execZmul o s
  | .zmulc o => Sys2Proof.Machine.execZmulc o s
  | .zred o => Sys2Proof.Machine.execZred o s
  | .ztom o => Sys2Proof.Machine.execZtom o s
  | .zfromm o => Sys2Proof.Machine.execZfromm o s
  | .zntt o => Sys2Proof.Machine.execZntt o s
  | .zintt o => Sys2Proof.Machine.execZintt o s
  | .ztwid o => Sys2Proof.Machine.execZtwid o s
  | .ld o => Sys2Proof.Machine.execLd o s
  | .ldp o => Sys2Proof.Machine.execLdp o s
  | .lds o => Sys2Proof.Machine.execLds o s
  | .pref o => Sys2Proof.Machine.execPref o s
  | .st o => Sys2Proof.Machine.execSt o s
  | .stp o => Sys2Proof.Machine.execStp o s
  | .sts o => Sys2Proof.Machine.execSts o s
  | .chkb o => Sys2Proof.Machine.execChkb o s
  | .chkx o => Sys2Proof.Machine.execChkx o s
  | .xset o => Sys2Proof.Machine.execXset o s
  | .atom o => Sys2Proof.Machine.execAtom o s
  | .atoms o => Sys2Proof.Machine.execAtoms o s
  | .cas o => Sys2Proof.Machine.execCas o s
  | .lock o => Sys2Proof.Machine.execLock o s
  | .unlock o => Sys2Proof.Machine.execUnlock o s
  | .fence o => Sys2Proof.Machine.execFence o s
  | .cmaint o => Sys2Proof.Machine.execCmaint o s
  | .bari o => Sys2Proof.Machine.execBari o s
  | .barv o => Sys2Proof.Machine.execBarv o s
  | .barn o => Sys2Proof.Machine.execBarn o s
  | .barw o => Sys2Proof.Machine.execBarw o s
  | .waitv o => Sys2Proof.Machine.execWaitv o s
  | .waitc o => Sys2Proof.Machine.execWaitc o s
  | .gang o => Sys2Proof.Machine.execGang o s
  | .fblk o => Sys2Proof.Machine.execFblk o s
  | .amap o => Sys2Proof.Machine.execAmap o s
  | .mma o => Sys2Proof.Machine.execMma o s
  | .mmas o => Sys2Proof.Machine.execMmas o s
  | .zmma o => Sys2Proof.Machine.execZmma o s
  | .cmpr o => Sys2Proof.Machine.execCmpr o s
  | .aclr o => Sys2Proof.Machine.execAclr o s
  | .ald o => Sys2Proof.Machine.execAld o s
  | .ast o => Sys2Proof.Machine.execAst o s
  | .amov o => Sys2Proof.Machine.execAmov o s
  | .ascl o => Sys2Proof.Machine.execAscl o s
  | .adrain o => Sys2Proof.Machine.execAdrain o s
  | .adrainMem o => Sys2Proof.Machine.execAdrainMem o s
  | .cpy o => Sys2Proof.Machine.execCpy o s
  | .cpyp o => Sys2Proof.Machine.execCpyp o s
  | .cpyk o => Sys2Proof.Machine.execCpyk o s
  | .coll o => Sys2Proof.Machine.execColl o s
  | .cstat o => Sys2Proof.Machine.execCstat o s
  | .cnt o => Sys2Proof.Machine.execCnt o s
  | .cancel o => Sys2Proof.Machine.execCancel o s
  | .strm o => Sys2Proof.Machine.execStrm o s
  | .strx o => Sys2Proof.Machine.execStrx o s
  | .csrr o => Sys2Proof.Machine.execCsrr o s
  | .csrrXflag o => Sys2Proof.Machine.execCsrrXflag o s
  | .csrrTrapq o => Sys2Proof.Machine.execCsrrTrapq o s
  | .csrw o => Sys2Proof.Machine.execCsrw o s
  | .csrwXflag o => Sys2Proof.Machine.execCsrwXflag o s
  | .csrwRgen o => Sys2Proof.Machine.execCsrwRgen o s
  | .corePartWrite o => Sys2Proof.Machine.execCorePartWrite o s
  | .coreRetWrite o => Sys2Proof.Machine.execCoreRetWrite o s
  | .qePsumClear o => Sys2Proof.Machine.execQePsumClear o s
  | .qeLseedWrite o => Sys2Proof.Machine.execQeLseedWrite o s
  | .time o => Sys2Proof.Machine.execTime o s
  | .save o => Sys2Proof.Machine.execSave o s
  | .rest o => Sys2Proof.Machine.execRest o s
  | .tret o => Sys2Proof.Machine.execTret o s
  | .clrx o => Sys2Proof.Machine.execClrx o s
  | .rplr o => Sys2Proof.Machine.execRplr o s
  | .rplq o => Sys2Proof.Machine.execRplq o s
  | .qwait o => Sys2Proof.Machine.execQwait o s
  | .fltack o => Sys2Proof.Machine.execFltack o s
  | .rejoin e => Sys2Proof.Machine.execRejoin e s
  | .fuseHoldEnd e => Sys2Proof.Machine.execFuseHoldEnd e s
  | .fuseRetry e => Sys2Proof.Machine.execFuseRetry e s
  | .yieldcWake e => Sys2Proof.Machine.execYieldcWake e s
  | .watchdog core slot => Sys2Proof.Machine.execWatchdog core slot s
  | .timeout e => Sys2Proof.Machine.execTimeout e s
  | .lockRetry e => Sys2Proof.Machine.execLockRetry e s
  | .waitvReevaluate e => Sys2Proof.Machine.execWaitvReevaluate e s
  | .gangMemberLeave flight snum => Sys2Proof.Machine.execGangMemberLeave flight snum s
  | .gangLatchTimeout flight => Sys2Proof.Machine.execGangLatchTimeout flight s
  | .engineQueueEnter flight => Sys2Proof.Machine.execEngineQueueEnter flight s
  | .matrixEngineStart core => Sys2Proof.Machine.execMatrixEngineStart core s
  | .matrixRetire core => Sys2Proof.Machine.execMatrixRetire core s
  | .syncMatrixComplete core => Sys2Proof.Machine.execSyncMatrixComplete core s
  | .drainPerform core => Sys2Proof.Machine.execDrainPerform core s
  | .copyChunkPerform op chunk => Sys2Proof.Machine.execCopyChunkPerform op chunk s
  | .streamElementDeliver e queue => Sys2Proof.Machine.execStreamElementDeliver e queue s
  | .collExchange op agree others => Sys2Proof.Machine.execCollExchange op agree others s
  | .collAbortFlit fn id use cause => Sys2Proof.Machine.execCollAbortFlit fn id use cause s
  | .collTimeout op => Sys2Proof.Machine.execCollTimeout op s
  | .flightDispatch => Sys2Proof.Machine.execFlightDispatch s
  | .stallSweep tag => Sys2Proof.Machine.execStallSweep tag s
  | .quiescenceComplete flight => Sys2Proof.Machine.execQuiescenceComplete flight s
  | .clrxComplete core => Sys2Proof.Machine.execClrxComplete core s
  | .reorderPhaseClose tag => Sys2Proof.Machine.execReorderPhaseClose tag s
  | .launchComplete tag => Sys2Proof.Machine.execLaunchComplete tag s
  | .partitionWordTakeEffect core => Sys2Proof.Machine.execPartitionWordTakeEffect core s
  | .poolZeroingDone core => Sys2Proof.Machine.execPoolZeroingDone core s
  | .retentionEntry core bank => Sys2Proof.Machine.execRetentionEntry core bank s
  | .retentionEntryDone core bank => Sys2Proof.Machine.execRetentionEntryDone core bank s
  | .retentionExitDone core bank => Sys2Proof.Machine.execRetentionExitDone core bank s
  | .budgetRefill part => Sys2Proof.Machine.execBudgetRefill part s
  | .budgetExhausted part => Sys2Proof.Machine.execBudgetExhausted part s
  | .kick fn qid w => Sys2Proof.Machine.execKick fn qid w s
  | .q0go fn => Sys2Proof.Machine.execQ0go fn s
  | .schedulingPass part => Sys2Proof.Machine.execSchedulingPass part s
  | .faultAck fn qid => Sys2Proof.Machine.execFaultAck fn qid s
  | .signal fn qid => Sys2Proof.Machine.execSignal fn qid s
  | .wait fn qid => Sys2Proof.Machine.execWait fn qid s
  | .waitPacketDone fn qid => Sys2Proof.Machine.execWaitPacketDone fn qid s
  | .copy fn qid => Sys2Proof.Machine.execCopy fn qid s
  | .launch fn qid => Sys2Proof.Machine.execLaunch fn qid s
  | .gangReservation fn qid => Sys2Proof.Machine.execGangReservation fn qid s
  | .admitPkt fn qid => Sys2Proof.Machine.execAdmitPkt fn qid s
  | .admissionComplete unit => Sys2Proof.Machine.execAdmissionComplete unit s
  | .destroy fn qid => Sys2Proof.Machine.execDestroy fn qid s
  | .regq fn qid => Sys2Proof.Machine.execRegq fn qid s
  | .unregq fn qid => Sys2Proof.Machine.execUnregq fn qid s
  | .resetq fn qid => Sys2Proof.Machine.execResetq fn qid s
  | .rekey fn qid => Sys2Proof.Machine.execRekey fn qid s
  | .seqGap fn qid => Sys2Proof.Machine.execSeqGap fn qid s
  | .vfReset fn => Sys2Proof.Machine.execVfReset fn s
  | .pfQueueReset => Sys2Proof.Machine.execPfQueueReset s
  | .functionLevelReset fn => Sys2Proof.Machine.execFunctionLevelReset fn s
  | .partitionApply part => Sys2Proof.Machine.execPartitionApply part s
  | .partitionApplyDone part => Sys2Proof.Machine.execPartitionApplyDone part s
  | .partProtWrite v => Sys2Proof.Machine.execPartProtWrite v s
  | .partWaymWrite owner mask => Sys2Proof.Machine.execPartWaymWrite owner mask s
  | .regionApply region => Sys2Proof.Machine.execRegionApply region s
  | .regionRevoke region => Sys2Proof.Machine.execRegionRevoke region s
  | .pageSectorMove va newFrame => Sys2Proof.Machine.execPageSectorMove va newFrame s
  | .hostDma fn addr write len data => Sys2Proof.Machine.execHostDma fn addr write len data s
  | .secIwinWrite v => Sys2Proof.Machine.execSecIwinWrite v s
  | .lineWriteback line => Sys2Proof.Machine.execLineWriteback line s
  | .lineFill line => Sys2Proof.Machine.execLineFill line s
  | .tableApply sel => Sys2Proof.Machine.execTableApply sel s
  | .tableTakeEffect => Sys2Proof.Machine.execTableTakeEffect s
  | .slotSend pair => Sys2Proof.Machine.execSlotSend pair s
  | .gondolaResponse pair poisoned => Sys2Proof.Machine.execGondolaResponse pair poisoned s
  | .flitReceive pair ok => Sys2Proof.Machine.execFlitReceive pair ok s
  | .lossOfLock pair => Sys2Proof.Machine.execLossOfLock pair s
  | .retrainEnd pair spares => Sys2Proof.Machine.execRetrainEnd pair spares s
  | .tetherStall pair => Sys2Proof.Machine.execTetherStall pair s
  | .pairDown pair => Sys2Proof.Machine.execPairDown pair s
  | .peerLinkUp port peerId => Sys2Proof.Machine.execPeerLinkUp port peerId s
  | .peerRequest port fn exp rfn write offset len data => Sys2Proof.Machine.execPeerRequest port fn exp rfn write offset len data s
  | .peerPortDown port => Sys2Proof.Machine.execPeerPortDown port s
  | .patrolStep => Sys2Proof.Machine.execPatrolStep s
  | .patrolDeferRetry => Sys2Proof.Machine.execPatrolDeferRetry s
  | .featureCommit => Sys2Proof.Machine.execFeatureCommit s
  | .telemetrySample tmax tgmax c0k c0g => Sys2Proof.Machine.execTelemetrySample tmax tgmax c0k c0g s
  | .registerWrite fn offset size v => Sys2Proof.Machine.execRegisterWrite fn offset size v s
  | .telGet => Sys2Proof.Machine.execTelGet s
  | .spmapGet => Sys2Proof.Machine.execSpmapGet s
  | .patlogGet => Sys2Proof.Machine.execPatlogGet s
  | .resetPart part => Sys2Proof.Machine.execResetPart part s
  | .resetDev => Sys2Proof.Machine.execResetDev s
  | .linkRetrain pair => Sys2Proof.Machine.execLinkRetrain pair s
  | .dbgNonce => Sys2Proof.Machine.execDbgNonce s
  | .dbgUnlock token => Sys2Proof.Machine.execDbgUnlock token s
  | .dbgRd addr => Sys2Proof.Machine.execDbgRd addr s
  | .dbgWr addr v => Sys2Proof.Machine.execDbgWr addr v s
  | .getCertificate session => Sys2Proof.Machine.execGetCertificate session s
  | .keyExchange fn => Sys2Proof.Machine.execKeyExchange fn s
  | .getMeasurements session index => Sys2Proof.Machine.execGetMeasurements session index s
  | .keyLoad session fn tk => Sys2Proof.Machine.execKeyLoad session fn tk s
  | .keyClear session fn => Sys2Proof.Machine.execKeyClear session fn s
  | .keyQuery session fn => Sys2Proof.Machine.execKeyQuery session fn s
  | .ideKm session fn key => Sys2Proof.Machine.execIdeKm session fn key s
  | .lockInterface fn => Sys2Proof.Machine.execLockInterface fn s
  | .startInterface fn => Sys2Proof.Machine.execStartInterface fn s
  | .stopInterface fn => Sys2Proof.Machine.execStopInterface fn s
  | .deviceReset => Sys2Proof.Machine.execDeviceReset s
  | .initialTraining pair ok => Sys2Proof.Machine.execInitialTraining pair ok s
  | .patrolTestEnd failing => Sys2Proof.Machine.execPatrolTestEnd failing s
  | .powerThrottle pnow thr c0over => Sys2Proof.Machine.execPowerThrottle pnow thr c0over s
  | .d3hot enter => Sys2Proof.Machine.execD3hot enter s
  | .endSession session => Sys2Proof.Machine.execEndSession session s
  | .lifecycleTransition target signed => Sys2Proof.Machine.execLifecycleTransition target signed s
  | .channelSubstitution channel => Sys2Proof.Machine.execChannelSubstitution channel s
  | .smbusFallback => Sys2Proof.Machine.execSmbusFallback s

end Sys2Proof.Machine
end

