-- ==== Sys2Proof/Machine/Step.lean ====
section
/-!
DEFINITION. One step of the machine, and placing the instruction that the next step runs.
-/
namespace Sys2Proof.Machine

/-- One step: an issue, a step of the device, or a clock that passes (assumption 3). -/
def step (s : State) : Host.Outcome State Fault Refusal :=
  match s.plan with
  | .run i t clocks raw e nregs =>
    match exec i t with
    | .next u => .next (u.afterIssue t.cur raw e nregs clocks)
    | .fault f => .fault f
    | .refused r => .refused r
  | .event i t => exec i t
  | .other t => .next t
  | .idle t =>
    match firstChange t t.due with
    | some u => .next u
    | none => .next (t.tick 1)

/-- `s` with the instruction whose bits are `w`, numbered as the opcode table numbers them, where the next step fetches. -/
def State.withFetchWord (s : State) (nbits w : Nat) : State := s.placeCode (bytesOfWords (tableWords nbits w))

end Sys2Proof.Machine
end

