-- ==== Sys2Proof/Safety.lean ====
section
/-!
DEFINITION. What counts as a safe step, in the terms that claims use.
-/
namespace Sys2Proof

/-- The step from a state answers a next state: the model neither stops nor refuses there. -/
def SafeStep (s : Machine.State) : Prop := ∃ t, Machine.step s = .next t

/-- A state in which memory has its canonical form. -/
def SoundMemory (s : Machine.State) : Prop := Machine.Memory.wf s.mem = true

/-- A state in which memory and every flight's scratchpad have their canonical form, no core cache holds a sector twice, and a clean
sector of one holds no byte that its core wrote. -/
def SoundStore (s : Machine.State) : Prop :=
  SoundMemory s ∧ (∀ f ∈ s.flights, Machine.Memory.wf f.spad = true) ∧
    ∀ k ∈ s.cores, (k.cache.map Machine.CacheSector.sector).Nodup ∧ ∀ x ∈ k.cache, x.dirty = false → x.wrote = 0

end Sys2Proof
end

