-- ==== Sys2Proof/Claims.lean ====
section
/-!
DEFINITION. The words that the statements use: values item by item, whatever form a register has; what an instruction reads;
what it writes; and that nothing else changes.
-/
namespace Sys2Proof.Machine

/-! ### Values of one item (R31, R63, R65, R67, R70, R71) -/

/-- The item's value of v register `n`. -/
def Entry.vAt (e : Entry) (n i : Nat) : W32 := (e.regs.getD n (.uni 0)).at i
/-- The item's value of index register `n`. -/
def Entry.xAt (e : Entry) (n i : Nat) : W32 := (e.xregs.getD n (.uni 0)).at i
/-- The item's truth of predicate `n`; p7 is true (R70). -/
def Entry.pAt (e : Entry) (n i : Nat) : Bool := (e.pred n).at e.start i
/-- Scalar register `n`. -/
def Entry.sAt (e : Entry) (n : Nat) : W64 := e.scalars.getD n 0
/-- The item's value of v register `n`, or of the pair that it starts. -/
def Entry.wordAt (e : Entry) (n : Nat) (wide : Bool) (i : Nat) : W64 :=
  if wide then pairWord (e.vAt n i) (e.vAt (n + 1) i) else (e.vAt n i).setWidth 64

/-- The row that the next pop of a stream queue gives, if one is queued (R71). -/
def Entry.frontRow (e : Entry) (q : Nat) : Option (List W64) := (e.streams.getD q none).bind fun st => st.queued.head?

/-- The item's value of a source at 64 or at 32 bits. -/
def Entry.sourceAt (e : Entry) (nregs : Nat) (lit : W64) (wide : Bool) (sp : Spec) (i : Nat) : W64 :=
  match sp with
  | .v n => e.wordAt n wide i
  | .ind k o => match e.target k o nregs wide i with
    | some t => e.wordAt t wide i
    | none => 0
  | .s n => if wide then e.sAt n else ((e.sAt n).setWidth 32).setWidth 64
  | .x n => (e.xAt n i).setWidth 64
  | .p n => if e.pAt n i then 1 else 0
  | .q n => ((e.frontRow n).getD []).getD i 0
  | .lit => if wide then lit else (lit.setWidth 32).setWidth 64
  | .zero => 0

/-- The entry after a source is read: a queue loses its front row, or XFLAG is set where it has none left (R71). -/
def Entry.afterSource (e : Entry) (sp : Spec) : Entry :=
  match sp with
  | .q n => match e.streams.getD n none with
    | some st => match st.queued with
      | _ :: rest => { e with streams := e.streams.set n (some { st with queued := rest, popped := st.popped + 1 }) }
      | [] => e.setX
    | none => e.setX
  | _ => e

/-- A source can be read now: an index is in bounds in every item acted on, and a queue is not empty while elements are
still to come (R67, R71). -/
def Entry.canRead (e : Entry) (nregs : Nat) (acting : List Nat) (wide : Bool) (sp : Spec) : Bool :=
  match sp with
  | .ind k o => acting.all fun i => (e.target k o nregs wide i).isSome
  | .q n => match e.streams.getD n none with
    | some st => !st.queued.isEmpty || st.ended || decide (st.total ≤ st.fetched)
    | none => true
  | _ => true

/-- What a reader at offset `i` reads through a modifier (R48, R49, R74): its own value where the source position lies
outside the strand, 0 where no live item of the entry is there. -/
def Entry.through (e : Entry) (m : Perm) (f : Nat → W64) (i : Nat) : W64 :=
  match m with
  | .none => f i
  | m => match permSource m e.width (e.posOf i) with
    | some p => if e.width ≤ p then f i else match e.atPos p with
      | some j => f j
      | none => 0
    | none => f i

/-- Whether the read sets XFLAG (R49). -/
def Entry.strays (e : Entry) (m : Perm) (i : Nat) : Bool :=
  match m with
  | .none => false
  | m => match permSource m e.width (e.posOf i) with
    | some p => decide (e.width ≤ p) || (e.atPos p).isNone
    | none => true

/-! ### What an instruction reads (R64) -/

/-- The values of A, B and C for each item, and the entry once they are read. -/
structure Reads where
  e : Entry
  a : Nat → W64
  b : Nat → W64
  c : Nat → W64

/-- The offsets that an instruction acts on. -/
def Ctx.actsOn (c : Ctx) (o : Long) : List Nat := c.e.acting o.pi o.pn

/-- The sources in the order A, B, C, each from the entry as the one before left it (R64), A through its modifier (R74). -/
def Ctx.readsFor (c : Ctx) (acting : List Nat) (op : Op) (o : Long) : Reads :=
  let fs := op.fields o.ty o.mod.val o.imm.val
  let n := c.ke.regs
  let e1 := c.e.afterSource o.a
  let e2 := if acting.any (e1.strays o.perm) then e1.setX else e1
  let e3 := e2.afterSource o.b
  ⟨e3.afterSource o.c, e1.through o.perm (c.e.sourceAt n o.lit (fieldWide fs.a) o.a),
    e2.sourceAt n o.lit (fieldWide fs.b) o.b, e3.sourceAt n o.lit (fieldWide fs.c) o.c⟩

def Ctx.reads (c : Ctx) (op : Op) (o : Long) : Reads := c.readsFor (c.actsOn o) op o

/-- Every source can be read. -/
def Ctx.readableFor (c : Ctx) (acting : List Nat) (op : Op) (o : Long) : Bool :=
  let fs := op.fields o.ty o.mod.val o.imm.val
  let n := c.ke.regs
  let e1 := c.e.afterSource o.a
  let e2 := if acting.any (e1.strays o.perm) then e1.setX else e1
  c.e.canRead n acting (fieldWide fs.a) o.a && e2.canRead n acting (fieldWide fs.b) o.b &&
    (e2.afterSource o.b).canRead n acting (fieldWide fs.c) o.c

def Ctx.readable (c : Ctx) (op : Op) (o : Long) : Bool := c.readableFor (c.actsOn o) op o

/-! ### What an instruction writes (R63, R65, R67, R70) -/

/-- The v register that a destination reaches for an item. -/
def Entry.destOf (e : Entry) (nregs : Nat) (wide : Bool) (d : Spec) (i : Nat) : Option Nat :=
  match d with
  | .v n => some n
  | .ind k o => e.target k o nregs wide i
  | _ => none

/-- The destination exists, item by item; a scalar has statements of its own. -/
def Entry.canWrite (e : Entry) (nregs : Nat) (acting : List Nat) (wide : Bool) (d : Spec) : Bool :=
  let w := if wide then 1 else 0
  match d with
  | .v n => decide (n.val + w < e.regs.length)
  | .ind k o => acting.all fun i => match e.target k o nregs wide i with
    | some t => decide (t + w < e.regs.length)
    | none => false
  | .p n => decide (n.val = 7 ∨ n.val < e.preds.length)
  | .x n => decide (n.val < e.xregs.length)
  | .s _ => false
  | .q _ | .lit | .zero => true

/-- `new` is `e` with the destination `d` of the items acted on holding `f`, and every other register as it was, read item by
item for the live items; nothing but register values differs. -/
structure Wrote (e new : Entry) (nregs : Nat) (acting : List Nat) (wide : Bool) (d : Spec) (f : Nat → W64) : Prop where
  v : ∀ n i, e.live i → new.vAt n i =
    if i ∈ acting ∧ e.destOf nregs wide d i = some n then (f i).setWidth 32
    else if i ∈ acting ∧ wide = true ∧ 0 < n ∧ e.destOf nregs wide d i = some (n - 1) then (f i >>> 32).setWidth 32
    else e.vAt n i
  p : ∀ (n : Fin 8) i, e.live i → new.pAt n i = if i ∈ acting ∧ d = .p n ∧ n ≠ 7 then f i != 0 else e.pAt n i
  x : ∀ (n : Fin 8) i, e.live i → new.xAt n i = if i ∈ acting ∧ d = .x n then (f i).setWidth 32 else e.xAt n i
  rest : new = { e with regs := new.regs, xregs := new.xregs, preds := new.preds }

/-- A destination that takes one value for every item of the entry can be written (R172, R207, R233). -/
def Entry.canWriteEvery (e : Entry) (nregs : Nat) (acting : List Nat) (wide : Bool) (d : Spec) : Bool :=
  match d with
  | .s n => decide (n.val < e.scalars.length)
  | .ind k o => e.canRead nregs acting wide d && e.liveList.all fun i => match e.target k o nregs wide i with
    | some t => decide (t + (if wide then 1 else 0) < e.regs.length)
    | none => true
  | d => e.canWrite nregs acting wide d

/-- `new` is `e` with `w` in the destination of every live item, masked-off and guard-false ones included, or in the scalar. -/
structure WroteEvery (e new : Entry) (nregs : Nat) (wide sg : Bool) (d : Spec) (w : W64) : Prop where
  v : ∀ n i, e.live i → new.vAt n i =
    if e.destOf nregs wide d i = some n then w.setWidth 32
    else if wide = true ∧ 0 < n ∧ e.destOf nregs wide d i = some (n - 1) then (w >>> 32).setWidth 32
    else e.vAt n i
  p : ∀ (n : Fin 8) i, e.live i → new.pAt n i = if d = .p n ∧ n ≠ 7 then w != 0 else e.pAt n i
  x : ∀ (n : Fin 8) i, e.live i → new.xAt n i = if d = .x n then w.setWidth 32 else e.xAt n i
  s : ∀ n : Fin 64, new.sAt n = if d = .s n then widenScalar wide sg w else e.sAt n
  rest : new = { e with regs := new.regs, xregs := new.xregs, preds := new.preds, scalars := new.scalars }

/-- The state differs from `s` only in the entry `cur`, which is now `e`. -/
structure OnlyEntry (s t : State) (e : Entry) : Prop where
  here : t.entry s.cur = some e
  others : ∀ r, r ≠ s.cur → t.entry r = s.entry r
  slots : ∀ core num, (t.slot core num).map (fun x => (x.flight, x.watchdog)) = (s.slot core num).map fun x => (x.flight, x.watchdog)
  memory : ∀ a, Memory.read t.mem a = Memory.read s.mem a
  rest : t = { s with slots := t.slots }

/-- The entry as it is left by an instruction of `words` words that goes on to the next one. -/
def Entry.stepped (e : Entry) (words : Nat) : Entry := { e with pc := e.pc + 4 * words, retired := e.retired + 1 }

/-! ### What the item-wise instructions compute (R174 to R186, R193 to R203, R212)

Each function below lists the opcodes of a family: the width of the result, whether a scalar extends it by its sign, and the
value for one item from the item's values of A, B and C. -/

/-- A result: 64 bits wide or not, extended by its sign in a scalar or not, and its value for an item. -/
structure Formula where
  wide : Bool
  sg : Bool
  val : W64 → W64 → W64 → W64

/-- A result of an integer type. -/
def Formula.ofTy (t : Ty) (f : W64 → W64 → W64 → W64) : Formula := ⟨t.wide, t.signedInt, f⟩

/-- MOV to ICVT without the bit operations (R176 to R178, R185, R186): exact integers, stored by Wrap or, under `.sat`, Sat. -/
def integerFormula (op : Op) (o : Long) : Option Formula :=
  let t := o.ty
  let z := intOf t
  let st (sat : Bool) (f : W64 → W64 → W64 → Int) : Option Formula := some (.ofTy t fun a b c => storeInt t sat (f a b c))
  match op with
  | .mov => some (.ofTy t fun a _ _ => storePat t (patOf t a))
  | .movi => st false fun _ _ _ => if t.signedInt then (BitVec.ofNat 16 o.imm.val).toInt else o.imm.val
  | .sel => some (.ofTy t fun a b c => storePat t (patOf t (if patOf t c ≠ 0 then a else b)))
  | .iadd => st (satOf o) fun a b _ => z a + z b
  | .isub => st (satOf o) fun a b _ => z a - z b
  | .ineg => st (satOf o) fun a _ _ => -z a
  | .iabs => st (satOf o) fun a _ _ => |z a|
  | .imin => st false fun a b _ => if z a ≤ z b then z a else z b
  | .imax => st false fun a b _ => if z a ≤ z b then z b else z a
  | .imul => st (satOf o) fun a b _ => z a * z b
  | .imulh => st false fun a b _ => z a * z b / 2 ^ t.width
  | .imad => st (satOf o) fun a b c => z a * z b + z c
  | .lea => some ⟨true, false, fun a b _ => a + BitVec.ofInt 64 (z b * 2 ^ (o.mod.val % 8))⟩
  | .icvt =>
    let u := (iTarget (o.mod.val % 16)).getD .i32
    some (.ofTy u fun a _ _ => storeInt u (decide (o.mod.val / 16 % 2 = 1)) (z a))
  | _ => none

/-- A source as a word of the type's width. -/
def word (t : Ty) (a : W64) : BitVec t.width := a.setWidth t.width

/-- SHL to BFI (R179 to R181), on words of the type's width. -/
def bitFormula (op : Op) (o : Long) : Option Formula :=
  let t := o.ty
  let w := t.width
  let st (f : BitVec w → BitVec w → BitVec w → BitVec w) : Option Formula :=
    some (.ofTy t fun a b c => storePat t (f (word t a) (word t b) (word t c)).toNat)
  let cnt (f : BitVec w → Nat) : Option Formula := some (.ofTy t fun a _ _ => storePat t (f (word t a)))
  match op with
  | .shl => some (.ofTy t fun a b _ => storeInt t (satOf o) (intOf t a * 2 ^ ((word t b).toNat % w)))
  | .shr => st fun a b _ => a >>> (b.toNat % w)
  | .sar => st fun a b _ => a.sshiftRight (b.toNat % w)
  | .rol => st fun a b _ => a.rotateLeft (b.toNat % w)
  | .and => st fun a b _ => a &&& b
  | .or => st fun a b _ => a ||| b
  | .xor => st fun a b _ => a ^^^ b
  | .andn => st fun a b _ => a &&& ~~~b
  | .not => st fun a _ _ => ~~~a
  | .popc => cnt fun a => ((List.range w).filter a.getLsbD).length
  | .clz => cnt fun a => ((List.range w).takeWhile fun k => !a.getMsbD k).length
  | .ctz => cnt fun a => ((List.range w).takeWhile fun k => !a.getLsbD k).length
  | .brev => st fun a _ _ => a.reverse
  | .bfx => some (.ofTy t fun a b _ =>
      let pos := b.toNat % 256
      let len := min (b.toNat / 256 % 256) (w - pos)
      if b.toNat / 256 % 256 = 0 ∨ w ≤ pos then 0
      else storePat t (if t.signedInt then ((word t a).extractLsb' pos len).signExtend w
        else ((word t a).extractLsb' pos len).setWidth w).toNat)
  | .bfi => some (.ofTy t fun a b c =>
      let pos := b.toNat % 256
      let len := min (b.toNat / 256 % 256) (w - pos)
      let mask : BitVec w := (BitVec.allOnes len).setWidth w <<< pos
      if b.toNat / 256 % 256 = 0 ∨ w ≤ pos then storePat t (word t c).toNat
      else storePat t ((word t c &&& ~~~mask) ||| (word t a <<< pos &&& mask)).toNat)
  | _ => none

/-- The comparison that a condition code names (R182). -/
def compares (cc : Nat) (x y : Int) : Bool :=
  (decide (x < y) && (cc = 2 || cc = 3 || cc = 1)) || (decide (x = y) && (cc = 0 || cc = 3 || cc = 5)) ||
    (decide (y < x) && (cc = 4 || cc = 5 || cc = 1))

/-- ICMP and PLOG, whose result is a truth (R182 to R184). -/
def testFormula (op : Op) (o : Long) : Option Formula :=
  let t := o.ty
  match op with
  | .icmp => some ⟨t.wide, false, fun a b _ => if compares (o.mod.val % 8) (intOf t a) (intOf t b) then 1 else 0⟩
  | .plog => some ⟨false, false, fun a b c =>
      if o.imm.val.testBit ((decide (a ≠ 0)).toNat * 4 + (decide (b ≠ 0)).toNat * 2 + (decide (c ≠ 0)).toNat) then 1 else 0⟩
  | _ => none

/-- A floating-point result of the instruction's type from the patterns of the sources. -/
def Formula.flt (t : Ty) (wide : Bool) (f : Nat → Nat → Nat → Nat) : Formula :=
  ⟨wide, false, fun a b c => BitVec.ofNat 64 (f (patOf t a) (patOf t b) (patOf t c))⟩

/-- FADD to FCMP (R193 to R198): the exact result, rounded once. -/
def floatFormula (op : Op) (o : Long) : Option Formula :=
  let t := o.ty
  let f := fmtOf t
  let md := rmOf o
  let d := Float.decode f
  let own (g : Nat → Nat → Nat → Nat) : Option Formula := some (.flt t t.wide g)
  let rnd (g : Nat → Nat → Nat → Float.Val) : Option Formula := own fun a b c => Float.encode f md (g a b c)
  match op with
  | .fadd => rnd fun a b _ => Float.addV md (d a) (d b)
  | .fsub => rnd fun a b _ => Float.addV md (d a) (Float.negV (d b))
  | .fmul => rnd fun a b _ => Float.mulV (d a) (d b)
  | .ffma => rnd fun a b c => Float.addV md (Float.mulV (d a) (d b)) (d c)
  | .fmin => own fun a b _ => Float.fminmax f false (decide (o.mod.val / 4 % 2 = 1)) a b
  | .fmax => own fun a b _ => Float.fminmax f true (decide (o.mod.val / 4 % 2 = 1)) a b
  | .fabs => own fun a _ _ => a % f.signBit
  | .fneg => own fun a _ _ => a ^^^ f.signBit
  | .frcp => own fun a _ _ => Float.frcp f md a
  | .fdiv => own fun a b _ => Float.fdiv f md a b
  | .fsqrt => own fun a _ _ => Float.fsqrt f md a
  | .frsq => own fun a _ _ => Float.frsq f a
  | .fexp2 => own fun a _ _ => Float.fexp2 f a
  | .flog2 => own fun a _ _ => Float.flog2 f a
  | .ftanh => own fun a _ _ => Float.ftanh f a
  | .fclass => some (.flt t false fun a _ _ =>
      Float.fclass f a &&& (if o.imm.val % 1024 = 0 then 0x3FF else o.imm.val % 1024))
  | .fcmp => some (.flt t false fun a b _ => if Float.fcmp f (o.mod.val % 8) a b then 1 else 0)
  | _ => none

/-- FCVT to QSCALE but for QCVT under SR (R199 to R203). -/
def convFormula (op : Op) (o : Long) : Option Formula :=
  let t := o.ty
  let f := fmtOf t
  let b8 := Float.B8.ofCode (o.mod.val % 32)
  match op with
  | .fcvt =>
    if t = .b8 then
      let u := fTarget (o.mod.val / 32)
      some (.flt t u.wide fun a _ _ => Float.encode (fmtOf u) (Float.Mode.ofCode (o.imm.val % 4)) (b8.decode a))
    else
      let u := fTarget (o.mod.val / 4 % 4)
      some (.flt t u.wide fun a _ _ => Float.encode (fmtOf u) (rmOf o) (Float.decode f a))
  | .fitof =>
    let u := fTarget (o.mod.val / 4 % 4)
    some ⟨u.wide, false, fun a _ _ => BitVec.ofNat 64 (Float.ofInt (fmtOf u) (rmOf o) (intOf t a))⟩
  | .fftoi =>
    let u := (iTarget (o.mod.val % 16)).getD .i32
    some (.ofTy u fun a _ _ =>
      storeInt u false (Float.toInt f (Float.Mode.ofCode (o.mod.val / 16 % 4)) u.signedInt u.width (patOf t a)))
  | .qcvt =>
    if o.mod.val / 32 = 2 then none
    else some (.flt t false fun a _ _ => b8.convert (decide (o.mod.val / 32 = 1)) (Float.decode f a))
  | .qscale =>
    if o.mod.val / 64 = 1 then some ⟨t.wide, false, fun a b _ => BitVec.ofNat 64 (Float.applyScale f (patOf t a) (b.toNat % 256))⟩
    else some (.flt t false fun a _ _ => b8.fit (Float.decode f a))
  | _ => none

/-- ZADD to ZFROMM and ZTWID under the context `(q, q')` (R106, R107, R212, R214): residues as numbers below `q`, with
`R = 2^64` the Montgomery radix. -/
def modularFormula (q qn : Nat) (op : Op) : Option Formula :=
  let st (f : Nat → Nat → Nat → Nat) : Option Formula :=
    some ⟨true, false, fun a b c => BitVec.ofNat 64 (f (a.toNat % q) (b.toNat % q) c.toNat)⟩
  match op with
  | .zadd => st fun a b _ => (a + b) % q
  | .zsub => st fun a b _ => (a + (q - b)) % q
  | .zmul => st fun a b _ => mont q qn a b
  | .zmulc => st fun a b c => shoup q a b c
  | .zred => st fun a _ _ => a
  | .ztom => st fun a _ _ => a * 2 ^ 64 % q
  | .zfromm => st fun a _ _ => mont q qn a 1
  | .ztwid => some ⟨true, false, fun a b _ => BitVec.ofNat 64 (montPow q qn (a.toNat % q) (b.toNat % 2 ^ 32) 32 (toMont q 1))⟩
  | _ => none

/-- An instruction with these fields computes, in every item that it acts on, the family's formula of its sources, writes it
to D, goes on to the next instruction, and changes nothing else; `base` is the entry before the write, where it is more than
its sources read.  The conditions are that it acts on some item, that its sources can be read, and that D is no scalar and
exists. -/
def Computes (i : Instr) (op : Op) (o : Long) (words : Nat) (wide : Bool) (f : Ctx → Reads → Nat → W64)
    (base : Ctx → Reads → Entry := fun _ r => r.e) : Prop :=
  ∀ s c, s.here = some c → c.actsOn o ≠ [] → c.readable op o = true →
    c.e.canWrite c.ke.regs (c.actsOn o) wide o.d = true →
    ∃ t e, exec i s = .next t ∧ OnlyEntry s t e ∧
      Wrote ((base c (c.reads op o)).stepped words) e c.ke.regs (c.actsOn o) wide o.d (f c (c.reads op o))

/-- The value of a formula for an item. -/
def Formula.of (F : Formula) : Ctx → Reads → Nat → W64 := fun _ r i => F.val (r.a i) (r.b i) (r.c i)

/-- Every well-formed instruction of a family, in its short and its longer forms, computes the family's formula. -/
def FamilyComputes (F : Op → Long → Option Formula) : Prop :=
  ∀ i r f, i.WellFormed → i.toRaw = some r → F (Raw.full r).1 (Raw.full r).2 = some f →
    Computes i (Raw.full r).1 (Raw.full r).2 r.nwords f.wide f.of

/-- The formulas of every family whose result needs nothing but its sources. -/
def itemFormula (op : Op) (o : Long) : Option Formula :=
  integerFormula op o <|> bitFormula op o <|> testFormula op o <|> floatFormula op o <|> convFormula op o

/-! ### Forms of sources (R31, R34, R35) -/

/-- A v register, or both of a pair, in form UNI. -/
def Entry.uniWord (e : Entry) (n : Nat) (wide : Bool) : Bool :=
  decide ((e.regs.getD n (.uni 0)).code = 0) && (!wide || decide ((e.regs.getD (n + 1) (.uni 0)).code = 0))

/-- A source that reads as one value for every item acted on. -/
def Entry.uniSource (e : Entry) (nregs : Nat) (acting : List Nat) (wide : Bool) (sp : Spec) : Bool :=
  match sp with
  | .v n => e.uniWord n wide
  | .ind k o => decide ((e.xregs.getD k (.uni 0)).code = 0) && acting.all fun i => match e.target k o nregs wide i with
    | some t => e.uniWord t wide
    | none => false
  | .x n => decide ((e.xregs.getD n (.uni 0)).code = 0)
  | .p n => decide ((e.pred n).code = 0)
  | .q _ => false
  | .s _ | .lit | .zero => true

/-- A source that is held item by item. -/
def Entry.spreadSource (e : Entry) (wide : Bool) (sp : Spec) : Bool :=
  match sp with
  | .v n => if wide then !e.uniWord n true else decide ((e.regs.getD n (.uni 0)).code = 2)
  | .ind k _ => decide ((e.xregs.getD k (.uni 0)).code = 2)
  | .x n => decide ((e.xregs.getD n (.uni 0)).code = 2)
  | .p n => decide ((e.pred n).code ≠ 0)
  | .q _ => true
  | .s _ | .lit | .zero => false

/-- Every source of an instruction reads as one value; A does so through its modifier when it names one value in range for all,
or when every item acted on reads the same (R75). -/
def Ctx.uniSources (c : Ctx) (op : Op) (o : Long) : Bool :=
  let fs := op.fields o.ty o.mod.val o.imm.val
  let uni (f : Field) (sp : Spec) : Bool := c.e.uniSource c.ke.regs (c.actsOn o) (fieldWide f) sp
  uni fs.b o.b && uni fs.c o.c && (match o.perm with
    | .none => uni fs.a o.a
    | .bcast j => decide (j.val < c.e.width)
    | _ => uni fs.a o.a && (c.actsOn o).all fun i => decide ((c.reads op o).a i = (c.reads op o).a ((c.actsOn o).headD 0)))

/-- Some source of an instruction without a modifier is held item by item. -/
def Ctx.spreadSources (c : Ctx) (op : Op) (o : Long) : Bool :=
  let fs := op.fields o.ty o.mod.val o.imm.val
  let den (f : Field) (sp : Spec) : Bool := c.e.spreadSource (fieldWide f) sp
  decide (o.perm = .none) && (den fs.a o.a || den fs.b o.b || den fs.c o.c)

/-- An instruction acts on every live item, under no item mask and with a guard that is UNI true (R35). -/
def Ctx.whole (c : Ctx) (o : Long) : Bool := !c.e.masked && c.e.guardUni o.pi o.pn

/-! ### Reads across items and control (R48, R49, R147, R161) -/

/-- What a reader at offset `i` reads at position `p` of its strand: its own value beyond the strand's width, 0 where no live item of
the entry is (R49). -/
def Entry.fromPos (e : Entry) (p : Nat) (f : Nat → W64) (i : Nat) : W64 :=
  if e.width ≤ p then f i else match e.atPos p with
    | some j => f j
    | none => 0

/-- Whether a read at a position sets XFLAG (R49). -/
def Entry.strayPos (e : Entry) (p : Nat) : Bool := decide (e.width ≤ p) || (e.atPos p).isNone

/-- The address `PC + 4 × IMM` (R147). -/
def Entry.branch (e : Entry) (o : Long) : Nat :=
  (BitVec.ofNat 64 e.pc + 4 * (BitVec.ofNat 16 o.imm.val).signExtend 64).toNat

/-- The entry after an instruction that goes on at an address. -/
def Entry.goesTo (e : Entry) (pc : Nat) : Entry := { e with pc := pc, retired := e.retired + 1 }

/-- The word that VOTE gives over the items acted on (R172). -/
def votes (op : Nat) (acting : List Nat) (pos : Nat → Nat) (holds : Nat → Bool) : W64 :=
  match op with
  | 0 => if acting.any holds then 1 else 0
  | 1 => if acting.all holds then 1 else 0
  | 2 => BitVec.ofNat 64 (((acting.filter holds).map fun i => 2 ^ pos i).sum)
  | _ => BitVec.ofNat 64 (acting.filter holds).length

/-- FORMOF's code of a source (R165). -/
def Entry.formAt (e : Entry) (nregs : Nat) (pair : Bool) (sp : Spec) : Nat :=
  match sp with
  | .v n => if pair then (if e.uniWord n true then 0 else 2) else (e.regs.getD n (.uni 0)).code
  | .ind k o => match e.xregs.getD k (.uni 0), e.activeList with
    | .uni _, i :: _ => ((e.target k o nregs false i).map fun t => (e.regs.getD t (.uni 0)).code).getD 0
    | .uni _, [] => 0
    | .den _, _ => 2
  | .x n => (e.xregs.getD n (.uni 0)).code
  | .p n => (e.pred n).code
  | _ => 0

/-- Entries that follow one another without a gap, by their ranges. -/
def Contiguous : List Entry → Prop
  | p :: q :: rest => p.start + p.len = q.start ∧ Contiguous (q :: rest)
  | _ => True

/-! ### Memory as a core sees it (R18, R120) -/

/-- The byte at a physical address as a core sees it: its own cached copy, else coherent memory. -/
def State.seenAt (s : State) (core pa : Nat) : Byte :=
  match (s.core core).hit (pa / 128) with
  | some x => x.byte (pa % 128)
  | none => Memory.read s.mem pa

/-- Bytes as a core sees them. -/
def State.seen (s : State) (core pa n : Nat) : List Byte := (List.range n).map fun k => s.seenAt core (pa + k)

/-- The byte that the last of several stores to an address leaves, if one reaches it (R117). -/
def lastStore (ws : List (Nat × List Byte)) (a : Nat) : Option Byte :=
  (ws.reverse.find? fun w => decide (w.1 ≤ a) && decide (a < w.1 + w.2.length)).map fun w => w.2.getD (a - w.1) 0

/-- Which lines the die caches and the bonded tier hold, and what owners are charged: nothing else of the tiers differs (R18, R114). -/
def Tier.regroups (x y : Tier) : Prop := y = { x with lines := y.lines, dies := y.dies, band := y.band }

/-- The state differs from `s` only in the entry `cur`, which is now `e`, in cores, in what the watchdogs count, and in which lines the
caches of the dies and the bonded tier hold. -/
structure EntryAndCores (s t : State) (e : Entry) : Prop where
  here : t.entry s.cur = some e
  others : ∀ r, r ≠ s.cur → t.entry r = s.entry r
  memory : ∀ a, Memory.read t.mem a = Memory.read s.mem a
  rest : t = { s with slots := t.slots, cores := t.cores, tier := t.tier }
  tier : s.tier.regroups t.tier

/-- The address that a memory instruction forms from A (R217, R219), and its scratchpad offset (R222). -/
def addrOf (o : Long) (a : W64) : Nat := (a + (BitVec.ofNat 16 o.imm.val).signExtend 64).toNat
def offsetOf (o : Long) (a : W64) : Nat := ((a + (BitVec.ofNat 16 o.imm.val).signExtend 64).setWidth 32).toNat

/-- The byte at a physical address as the die and a core's dirty copy give it: a clean copy does not count. -/
def State.freshAt (s : State) (core pa : Nat) : Byte :=
  match (s.core core).hit (pa / 128) with
  | some x => if x.wrote.getLsbD (pa % 128) then x.byte (pa % 128) else Memory.read s.mem pa
  | none => Memory.read s.mem pa

/-- Nothing that the entry has accessed is outstanding: parked, or on its way to a line of the Gondola (R124, R130, R344). -/
def Ctx.quiet (c : Ctx) : Prop := c.s.unsettled c.slot c.e = []

/-- An owner may fill some way of the bonded tier, or is the owner of shared sectors (R114). -/
def State.mayFill (s : State) (owner : Nat) : Prop := owner = 15 ∨ s.quota owner ≠ []

/-- The owner, and every owner of a sector, may fill the bonded tier, so that no write goes through to the Gondola (R114). -/
def Ctx.kept (c : Ctx) : Prop :=
  c.s.mayFill c.la.owner ∧ (∀ k, ∀ x ∈ (c.s.core k).cache, c.s.mayFill x.tag) ∧ ∀ n, c.s.mayFill (tagOf c.s.tags n)

/-- The die cache that an agent reads and writes through has room for `n` lines more, and writes of its owner stay on the package (R18,
R114). -/
def State.dieRoom (s : State) (g : Agent) (n : Nat) : Prop := (s.tier.dies.getD g.die []).length + n ≤ dieLines ∧ s.mayFill g.owner

/-- The core's cache and its die's have room for `n` sectors more, so that none that they hold has to leave (R18). -/
def Ctx.roomFor (c : Ctx) (n : Nat) : Prop :=
  (c.s.core c.ref.core).cache.length + n ≤ coreSectors ∧ (c.s.tier.dies.getD (c.ref.core / 24) []).length + n ≤ dieLines ∧
    (c.s.core c.ref.core).replay.length ≤ 512

/-- Every access of `n` bytes is served: the check of R111 finds it at one place of one sector; no earlier access of the entry is
outstanding, and none that the hazard detector still watches overlaps one; and nothing has to leave a cache for it. -/
def Ctx.served (c : Ctx) (k : AccKind) (n : Nat) (accs : List (Nat × Nat)) (pa : Nat → Nat) : Prop :=
  c.overlap 0 k.writes (accs.map fun a => ⟨a.1, a.2, n⟩) = none ∧ c.ref.core < c.s.cores.length ∧ c.quiet ∧ c.kept ∧ c.roomFor accs.length ∧
    ∀ a ∈ accs, c.s.check c.agent (some c.ref.core) k a.2 n n = .ok [(pa a.2, n)] ∧ pa a.2 % 128 + n ≤ 128

/-- Every access of `n` bytes to the scratchpad is served: inside the allocation, aligned, and, where it reads, of words that are not
damaged (R222). -/
def Ctx.servedSpad (c : Ctx) (writes reads : Bool) (n : Nat) (accs : List (Nat × Nat)) : Prop :=
  c.overlap 1 writes (accs.map fun a => ⟨a.1, a.2, n⟩) = none ∧
    ∀ a ∈ accs, a.2 % n = 0 ∧ a.2 + n ≤ c.fl.spadSize ∧ (reads = true → c.fl.damagedIn a.2 n = false)

/-- The accesses of the items acted on: each with its address. -/
def Ctx.reaches (c : Ctx) (o : Long) (addr : Nat → Nat) : List (Nat × Nat) := (c.actsOn o).map fun i => (i, addr i)

/-- The accesses of LDP and STP: `n` words of each item. -/
def Ctx.reachesWords (c : Ctx) (o : Long) (addr : Nat → Nat) (n : Nat) : List (Nat × Nat) :=
  (c.actsOn o).flatMap fun i => (List.range n).map fun j => (i, (addr i + 4 * j) % 2 ^ 64)

/-- The entry after a memory instruction: the next in program order, with the windows that its count opened (R344, R391). -/
def Entry.ordered (e : Entry) (words : Nat) (win : List WinRec) : Entry :=
  { e with pc := e.pc + 4 * words, retired := e.retired + 1, order := (e.order + 1) % 65536, window := win }

/-! ### Encoded instructions and what a step adds around one -/

/-- An instruction of three words whose operands are all unused and whose guard is p7 (R138 to R141). -/
def plainLong : Long :=
  ⟨.len01, false, .zero, .zero, .zero, .zero, false, 7, .none, 0, .i32, 0, 0, 0⟩

/-- The entry that a step issues for, and the state in which it is the one that acts: the agenda names a column, or the scheduler does
(R30; assumption 3). -/
def State.picks (s : State) : Option (EntryRef × State) :=
  match s.agenda with
  | .issue core column :: rest => (s.choose core column).map fun r => (r, { s with agenda := rest, cur := r })
  | [] => if s.turns < turnLimit then (s.nextColumn.bind fun p => s.choose p.1 p.2).map fun r =>
      (r, { s with turns := s.turns + 1, cur := r })
    else none
  | _ => none

/-- What a step does before the instruction of an entry with no damaged registers: its open windows and its accesses that have not
completed come one instruction nearer their end, its flight is no longer parked, and its column group is in use by its owner (R55,
R344, R456). -/
def State.issuing (s : State) (r : EntryRef) (c : Ctx) : State :=
  let s := if c.e.window.isEmpty then s else s.modEntry r fun e =>
    { e with window := (e.window.map fun w => { w with left := w.left - 1 }).filter fun w => decide (0 < w.left) }
  let s := s.countDown r.core c.fl.id c.e
  let s := if c.fl.parkedSince.isNone then s else s.modFlight c.fl.id fun f => { f with parkedSince := none }
  s.useUnit (96 + 8 * r.core + columnOf r.slot / 8) c.la.owner

/-! ### Waiting and barriers -/

/-- The deadline of a wait with exponent `n`; 31 has none (R232). -/
def waitUntil (now n : Nat) : Option Nat := if n = 31 then none else some (now + 64 * 2 ^ n)

/-- The barrier an instruction names is registered, and its word lies in the allocation (R236). -/
def Ctx.barrierReady (c : Ctx) (off : Nat) (b : Barrier) : Prop :=
  off % 8 = 0 ∧ off + 8 ≤ c.fl.spadSize ∧ (c.fl.bars.find? fun b => decide (b.off = off)) = some b ∧ bits (c.fl.word off) 63 1 = 1

/-- The byte that an atomic on device memory works on: as the die and the core's own dirty bytes give it where the scope is coherent,
else as the core sees it (R121, R228). -/
def atomicView (c : Ctx) (u : State) (scope a : Nat) : Byte :=
  if c.coherent scope then u.freshAt c.ref.core a else u.seenAt c.ref.core a

/-! ### The matrix engine -/

/-- No entry waits under an identity yet. -/
def Ctx.fresh (c : Ctx) (id : Nat) : Prop :=
  (∀ x ∈ c.s.slots, ∀ y ∈ x.entries, y.awaits id = false) ∧ ∀ f ∈ c.s.flights, ∀ x ∈ f.saved, ∀ y ∈ x.entries, y.awaits id = false

/-- The engine queue of a core takes an instruction at once: it has a place, nothing waits for one, and the checks of R253 and R258
pass. -/
def Ctx.engineFree (c : Ctx) (op : Op) (o : Long) (core : Nat) : Prop :=
  core < c.s.cores.length ∧ (c.s.core core).queue.length < 8 ∧ (∀ f ∈ c.s.flights, ∀ x ∈ f.released, x.core ≠ core) ∧
    (o.ty = .b8 → c.fl.fmt ≠ none) ∧ badMap c.fl.maps op o = none

/-- The queue of a core holds one instruction more, with the format register, the maps and the scratchpad as they are now; no other
queue, no tile and no byte changes. -/
structure EngineTook (c : Ctx) (t : State) (p : Latch) : Prop where
  queue : ∃ n, (t.core p.core).queue = (c.s.core p.core).queue ++
    [⟨p.id, c.fl.id, p.op, p.o, p.a, p.b, p.c, p.q, c.fl.fmt, c.fl.maps, n, none, c.fl.spad, [], false⟩]
  cores : ∀ k, k ≠ p.core → t.core k = c.s.core k
  flights : ∀ k f, c.s.flightOf k = some f → ∃ g, t.flightOf k = some g ∧ g = { f with released := g.released, latch := g.latch }
  rest : t = { c.s with slots := t.slots, flights := t.flights, cores := t.cores, nextId := t.nextId }

/-! ### Asynchronous operations -/

/-- An instruction that issues an operation writes its ticket to D and goes on; `base` is the entry with the operation's status in its
store, and its counter raised where the operation is outstanding.  Bytes that its core had stored may now be in memory, and its die's
cache holds their sectors (R72, R129, R272). -/
structure Issued (c : Ctx) (t : State) (o : Long) (base : Entry) (cls : Nat) : Prop where
  entry : ∃ e, t.entry c.s.cur = some e ∧
    WroteEvery (base.ordered (longWords o) c.e.window) e c.ke.regs false false o.d (BitVec.ofNat 64 (c.e.seq % 65536 + cls * 65536))
  others : ∀ r, r ≠ c.s.cur → t.entry r = c.s.entry r
  fresh : ∀ a, t.freshAt c.ref.core a = c.s.freshAt c.ref.core a
  memory : ∀ a, Memory.read t.mem a = Memory.read c.s.mem a ∨ Memory.read t.mem a = c.s.freshAt c.ref.core a
  rest : t = { c.s with slots := t.slots, cores := t.cores, mem := t.mem, nextId := c.s.nextId + 1, thx := t.thx, tier := t.tier }
  tier : c.s.tier.regroups t.tier

/-! ### Queues and packets -/

/-- The queue's head packet may start now: it is well formed, and no fence holds it (R366, R369). -/
structure Heads (s : State) (q : Qcb) (p : List Byte) : Prop where
  queue : s.qcb q.fn q.qid = some q
  packet : s.headPacket q = .ok (some p)
  free : pfield p 8 8 = 1 → q.infl = 0
  formed : packetOk p = true

/-- A queue once its head packet is taken (R364, R371). -/
def Qcb.taken (q : Qcb) : Qcb :=
  if q.auth then { q with parsed := q.parsed.drop 1, waiting := none } else { q with ridx := (q.ridx + 1) % (2 * q.size), waiting := none }

/-- The bytes that a function's writer puts over a range are there, if its pieces can be written, and every other byte is as it was once
the lines that they lie in had come onto the package, but for the ranges `also`, apart from them (R360, R422). -/
def FnWrote (s t : State) (fn a : Nat) (bs : List Byte) (also : List (Nat × Nat) := []) : Prop :=
  ∀ u ps, s.devPieces (fnAgent fn) .store a bs.length 1 = .ok (u, ps) → (fn = 0 → ∀ p ∈ ps, bits (u.fat (p.1 / 65536)) 3 1 = 1) →
    SoundMemory u → u.mayFill fn → (ps.map Prod.snd).sum = bs.length → ps.Pairwise (fun p q => p.1 + p.2 ≤ q.1 ∨ q.1 + q.2 ≤ p.1) →
    (∀ p ∈ ps, ∀ q ∈ also, p.1 + p.2 ≤ q.1 ∨ q.1 + q.2 ≤ p.1) →
    t.readPieces ps = bs ∧ ∀ x, (∀ p ∈ ps ++ also, x < p.1 ∨ p.1 + p.2 ≤ x) → Memory.read t.mem x = Memory.read u.mem x

/-- The states agree in memory and in every tier of it. -/
def State.sameStore (s t : State) : Prop := t.mem = s.mem ∧ t.tier = s.tier ∧ t.cores = s.cores ∧ t.thx = s.thx

/-- A completion record (R368): with CADDR 0 nothing is written. -/
def Recorded (s t : State) (fn : Nat) (p : List Byte) (status : Nat) : Prop :=
  (pfield p 127 64 = 0 → s.sameStore t) ∧
  (pfield p 127 64 ≠ 0 → FnWrote s t fn (pfield p 127 64) (leBytes 8 (pfield p 191 128) ++ leBytes 4 status ++ leBytes 4 0))

/-- From a state with its effect, the head packet of a queue is taken and completes with a status; nothing else changes but where lines
of memory are held, for the record's sake, and what the parse round has served (R377). -/
structure Finished (u t : State) (q : Qcb) (p : List Byte) (status : Nat) : Prop where
  queue : t.qcb q.fn q.qid = (u.qcb q.fn q.qid).map Qcb.taken
  others : ∀ f n, f ≠ q.fn ∨ n ≠ q.qid → t.qcb f n = u.qcb f n
  started : t.queue.started = u.queue.started.filter fun x => x.id ≠ u.nextId
  record : Recorded u t q.fn p status
  fresh : u.nextId < t.nextId
  round : ∀ k, q.slot = some k → t.queue.round = servedIn u.queue.round k
  rest : t = { u with nextId := t.nextId, queue := { u.queue with qcbs := t.queue.qcbs, started := t.queue.started, round := t.queue.round },
                      mem := t.mem, tier := t.tier, cores := t.cores, thx := t.thx }

/-- The head packet of a queue is taken and under way as `x`. -/
structure Begun (u t : State) (q : Qcb) (x : Started) : Prop where
  queue : t.qcb q.fn q.qid = (u.qcb q.fn q.qid).map fun y => { y.taken with infl := y.infl + 1 }
  others : ∀ f n, f ≠ q.fn ∨ n ≠ q.qid → t.qcb f n = u.qcb f n
  started : x ∈ t.queue.started
  kept : ∀ y ∈ u.queue.started, y.id ≠ u.nextId → y ∈ t.queue.started
  round : ∀ k, q.slot = some k → t.queue.round = servedIn u.queue.round k
  rest : t = { u with nextId := u.nextId + 1,
                      queue := { u.queue with qcbs := t.queue.qcbs, started := t.queue.started, round := t.queue.round } }

/-- The slot of a queue that leaves READY: it keeps one reserved for class 0 (R374). -/
def Qcb.keeps (s : State) (q : Qcb) : Option Nat := if s.holdsReserved q then q.slot else none

/-- A queue as a fault leaves it: FAULTED, with nothing held, parsed or waited for, in its slot only if that is a reserved one (R362, R371,
R374). -/
def Qcb.faultedIn (s : State) (q : Qcb) : Qcb :=
  { q with state := 3, held := [], parsed := [], gapt := 0, waiting := none, tried := false, slot := q.keeps s }

/-- A queue goes to FAULTED with what it held discarded; its QCB, 76 bytes up to INFL, is written where it lies, and beside it only memory,
its function's block and the queue change (R371, R373). -/
structure QueueFaulted (s t : State) (q : Qcb) (cause expect found : Nat) : Prop where
  queue : t.qcb q.fn q.qid = some (q.faultedIn s)
  others : ∀ f n, f ≠ q.fn ∨ n ≠ q.qid → t.qcb f n = s.qcb f n
  record : (s.fnBlock q.fn).errbase ≠ 0 →
    FnWrote s t q.fn ((s.fnBlock q.fn).errbase.toNat + 64 * ((s.fnBlock q.fn).errcnt % 64))
      (leBytes 2 q.qid ++ leBytes 1 q.fn ++ leBytes 1 cause ++ leBytes 4 (s.kicked q.fn q.qid) ++ leBytes 4 q.ridx ++ leBytes 4 expect ++
        leBytes 4 found ++ leBytes 8 s.clock ++ leBytes 36 0) [((q.faultedIn s).store, 76)]
  silent : (s.fnBlock q.fn).errbase = 0 → t.tier = s.tier ∧ t.cores = s.cores ∧ t.thx = s.thx ∧ t.nextId = s.nextId ∧
    (SoundMemory s → t.peek (q.faultedIn s).store 76 = (q.faultedIn s).bytes ∧
      ∀ x, x < (q.faultedIn s).store ∨ (q.faultedIn s).store + 76 ≤ x → Memory.read t.mem x = Memory.read s.mem x)
  rest : t = { s with queue := { s.queue with qcbs := t.queue.qcbs, fns := t.queue.fns }, mem := t.mem, tier := t.tier,
                      cores := t.cores, thx := t.thx, nextId := t.nextId }

/-- The fields of a function's block lie in their widths (R356, R357). -/
def FnBlock.inWidth (b : FnBlock) : Prop :=
  b.q0lgs < 32 ∧ b.q0class < 4 ∧ b.q0bpri < 16 ∧ b.q0ceil < 16 ∧ b.q0stat < 256 ∧ 0 < b.seqwin ∧ b.seqwin < 2 ^ 32 ∧ b.drop < 2 ^ 32 ∧
    b.macf < 2 ^ 16

end Sys2Proof.Machine
end

