-- ==== Sys2Proof/Statements/Arithmetic.lean ====
section
/-!
DEFINITION. The statements on item-wise results, results across items and modular arithmetic (Certificates/Slice0/Obligations.lean puts them together).
-/
namespace Sys2Proof.Claim

open Machine

/-! ### Item-wise results (R174 to R186, R189 to R203, R212) -/

/-- MOV, MOVI, SEL, IADD, ISUB, INEG, IABS, IMIN, IMAX, IMUL, IMULH, IMAD, LEA and ICVT, in their short and long rows: with an
item to act on, readable sources and a destination within the register count, each answers a next state in which D has, item by item,
the formula's value of the sources, and nothing else changes but the pc, the retired count and the queues popped (R174 to R178). -/
def IntegerResults : Prop := FamilyComputes integerFormula

/-- The same of SHL, SHR, SAR, ROL, AND, OR, XOR, ANDN, NOT, POPC, CLZ, CTZ, BREV, BFX and BFI, on words of the type's width
(R179 to R181). -/
def BitResults : Prop := FamilyComputes bitFormula

/-- The same of ICMP, whose truth goes to a predicate or, as 0 or 1, to another register, and of PLOG, which looks three truths up
in its eight bits (R182, R184). -/
def TestResults : Prop := FamilyComputes testFormula

/-- The same of FADD, FSUB, FMUL, FFMA, FMIN, FMAX, FABS, FNEG, FRCP, FDIV, FSQRT, FRSQ, FEXP2, FLOG2, FTANH, FCLASS and FCMP: the
exact result rounded once (R193 to R198; assumption 12 says how the transcendental functions are computed). -/
def FloatResults : Prop := FamilyComputes floatFormula

/-- The same of FCVT, FITOF, FFTOI, QCVT and QSCALE, but for QCVT under stochastic rounding (R199 to R203). -/
def ConversionResults : Prop := FamilyComputes convFormula

/-- ZADD, ZSUB, ZMUL, ZMULC, ZRED, ZTOM, ZFROMM and ZTWID under the context that the entry holds (R106, R107, R212, R214). -/
def ModularResults : Prop :=
  ∀ i op o f q qn, i.WellFormed → i.toRaw = some (.long op o) → modularFormula q qn op = some f →
    ∀ s c, s.here = some c → c.e.modctx = some (BitVec.ofNat 64 q, BitVec.ofNat 64 qn) → q < 2 ^ 64 → qn < 2 ^ 64 →
      c.actsOn o ≠ [] → c.readable op o = true → c.e.canWrite c.ke.regs (c.actsOn o) true o.d = true →
      ∃ t e, exec i s = .next t ∧ OnlyEntry s t e ∧
        Wrote ((c.reads op o).e.stepped (longWords o)) e c.ke.regs (c.actsOn o) true o.d (f.of c (c.reads op o))

/-- A result whose sources are UNI goes to a scalar, zero- or sign-extended by its type; with one live item it always does (R34,
R68, R88). -/
def ScalarResults : Prop :=
  ∀ i r f n, i.WellFormed → i.toRaw = some r → itemFormula (Raw.full r).1 (Raw.full r).2 = some f → (Raw.full r).2.d = .s n →
    ∀ s c i0 is, s.here = some c → c.actsOn (Raw.full r).2 = i0 :: is → c.readable (Raw.full r).1 (Raw.full r).2 = true →
      (c.e.single = some i0 ∨ c.whole (Raw.full r).2 = true ∧ c.uniSources (Raw.full r).1 (Raw.full r).2 = true) →
      ∃ t e, exec i s = .next t ∧ OnlyEntry s t e ∧
        e = { (c.reads (Raw.full r).1 (Raw.full r).2).e.stepped r.nwords with
          scalars := c.e.scalars.set n (widenScalar f.wide f.sg (f.of c (c.reads (Raw.full r).1 (Raw.full r).2) i0)) }

/-- A result that is not UNI cannot go to a scalar: with more than one live item, a write under a mask or a guard, or from a source
held item by item, raises UNIFORM_BREACH (R68, R396). -/
def ScalarBreach : Prop :=
  ∀ i r f n, i.WellFormed → i.toRaw = some r → itemFormula (Raw.full r).1 (Raw.full r).2 = some f → (Raw.full r).2.d = .s n →
    ∀ s c, s.here = some c → c.actsOn (Raw.full r).2 ≠ [] → c.readable (Raw.full r).1 (Raw.full r).2 = true → c.e.single = none →
      (c.whole (Raw.full r).2 = false ∨ c.spreadSources (Raw.full r).1 (Raw.full r).2 = true) →
      exec i s = .next (c.raise r.nwords (breach c.e))

/-- With no item to act on, an instruction pops its queues, goes on, and does nothing else (R17, R71). -/
def NoItems : Prop :=
  ∀ i r f, i.WellFormed → i.toRaw = some r → itemFormula (Raw.full r).1 (Raw.full r).2 = some f →
    ∀ s c, s.here = some c → c.actsOn (Raw.full r).2 = [] → c.readable (Raw.full r).1 (Raw.full r).2 = true →
      ∃ t, exec i s = .next t ∧ OnlyEntry s t ((c.reads (Raw.full r).1 (Raw.full r).2).e.stepped r.nwords)

/-- An index out of bounds in a source A raises REGBOUND for the lowest item concerned, and an empty queue that still has elements to
come holds the entry, which nothing else changes (R67, R71, R396). -/
def SourceStops : Prop :=
  ∀ i r f, i.WellFormed → i.toRaw = some r → itemFormula (Raw.full r).1 (Raw.full r).2 = some f → ∀ s c, s.here = some c →
    (∀ k off j js, (Raw.full r).2.a = .ind k off →
      ((c.actsOn (Raw.full r).2).filter fun j => (c.e.target k off c.ke.regs (fieldWide ((Raw.full r).1.fields (Raw.full r).2.ty
        (Raw.full r).2.mod.val (Raw.full r).2.imm.val).a) j).isNone) = j :: js →
      exec i s = .next (c.raise r.nwords (regbound j))) ∧
    (∀ q st, (Raw.full r).2.a = .q q → c.e.streams.getD q none = some st → st.queued = [] → st.ended = false → st.fetched < st.total →
      ∃ t, exec i s = .next t ∧ OnlyEntry s t { c.e with status := .held (.queue q) })

/-- The sum and the difference of affine or uniform registers stay affine, with stride 0 as UNI (R34, R35). -/
def AffineSums : Prop :=
  ∀ o s c (d a b : Fin 128) p q, s.here = some c → c.whole o = true → c.actsOn o ≠ [] → o.perm = .none →
    o.d = .v d → o.a = .v a → o.b = .v b → o.mod.val = 0 → (o.ty = .n32 ∨ o.ty = .i32) → d.val < c.e.regs.length →
    (c.e.readV a false).affine = some p → (c.e.readV b false).affine = some q → o.c = .zero → c.e.single = none →
    (∃ t e, exec (.iaddLong o) s = .next t ∧ OnlyEntry s t e ∧
      e = { c.e.stepped (longWords o) with regs := c.e.regs.set d (if p.2 + q.2 = 0 then .uni (p.1 + q.1) else .aff (p.1 + q.1) (p.2 + q.2)) }) ∧
    (∃ t e, exec (.isubLong o) s = .next t ∧ OnlyEntry s t e ∧
      e = { c.e.stepped (longWords o) with regs := c.e.regs.set d (if p.2 - q.2 = 0 then .uni (p.1 - q.1) else .aff (p.1 - q.1) (p.2 - q.2)) })

/-- A result of an integer instruction is UNI when every source is and the whole register is written, and DEN when a source is or when
only some items are written (R31, R34, R35). -/
def ResultForms : Prop :=
  ∀ i r f (n : Fin 128), i.WellFormed → i.toRaw = some r →
    (integerFormula (Raw.full r).1 (Raw.full r).2 = some f ∨ bitFormula (Raw.full r).1 (Raw.full r).2 = some f ∨
      floatFormula (Raw.full r).1 (Raw.full r).2 = some f ∨ convFormula (Raw.full r).1 (Raw.full r).2 = some f) →
    (Raw.full r).2.d = .v n → f.wide = false →
    ∀ s c t, s.here = some c → c.actsOn (Raw.full r).2 ≠ [] → c.readable (Raw.full r).1 (Raw.full r).2 = true →
      n.val < c.e.regs.length → c.e.single = none → exec i s = .next t →
      (c.whole (Raw.full r).2 = true → c.uniSources (Raw.full r).1 (Raw.full r).2 = true →
        ∃ e, t.entry s.cur = some e ∧ ((e.regs.getD n (.uni 0)).code = 0)) ∧
      (c.whole (Raw.full r).2 = false ∨ c.spreadSources (Raw.full r).1 (Raw.full r).2 = true →
        ∃ e, t.entry s.cur = some e ∧ ((e.regs.getD n (.uni 0)).code = 2))


/-! ### Across items (R48, R49, R98, R205 to R208, R211, R213) -/

/-- PERM gives each item acted on A's value at the position that B names (R49, R206). -/
def PermResults : Prop :=
  ∀ o, (Instr.perm o).WellFormed → Computes (.perm o) .perm o (longWords o) o.ty.wide
    (fun _ r i => r.e.fromPos ((r.b i).toNat % 2 ^ 32) r.a i)
    (fun c r => if (c.actsOn o).any fun i => r.e.strayPos ((r.b i).toNat % 2 ^ 32) then r.e.setX else r.e)

/-- SCAN gives each item acted on the fold of A over the items acted on up to it, or below it under `.excl` (R208). -/
def ScanResults : Prop :=
  ∀ o, (Instr.scan o).WellFormed → Computes (.scan o) .scan o (longWords o) o.ty.wide
    (fun c r k => foldVals o.ty o.mod.val false
      (((c.actsOn o).filter fun i => if o.mod.val / 64 = 1 then decide (i < k) else decide (i ≤ k)).map r.a))

/-- REDU writes the fold of A over the items acted on to every item of the entry; over none it is the identity (R17, R207). -/
def ReduResults : Prop :=
  ∀ o s c, (Instr.redu o).WellFormed → s.here = some c → c.readable .redu o = true →
    c.e.canWriteEvery c.ke.regs (c.actsOn o) o.ty.wide o.d = true →
    ∃ t e, exec (.redu o) s = .next t ∧ OnlyEntry s t e ∧
      WroteEvery ((c.reads .redu o).e.stepped (longWords o)) e c.ke.regs o.ty.wide o.ty.signedInt o.d
        (foldVals o.ty o.mod.val (decide (o.mod.val / 64 = 1)) ((c.actsOn o).map (c.reads .redu o).a))

/-- A fold of integers under `.add` is stored once from the exact sum; `.min` and `.max` of integers are the least and the
greatest; `.and`, `.or` and `.xor` combine bits; over nothing each is its identity (R205, R207). -/
def FoldValues : Prop :=
  ∀ (t : Ty) (sat : Bool) (xs : List W64), t.isInt = true →
    foldVals t 0 sat xs = storeInt t sat (xs.map (intOf t)).sum ∧
    (∀ x ∈ xs, intOf t (foldVals t 1 sat xs) ≤ intOf t x) ∧ (xs ≠ [] → ∃ x ∈ xs, intOf t (foldVals t 1 sat xs) = intOf t x) ∧
    (∀ x ∈ xs, intOf t x ≤ intOf t (foldVals t 2 sat xs)) ∧ (xs ≠ [] → ∃ x ∈ xs, intOf t (foldVals t 2 sat xs) = intOf t x) ∧
    (∀ k, k < t.width → (foldVals t 3 sat xs).getLsbD k = xs.all fun x => x.getLsbD k) ∧
    (∀ k, k < t.width → (foldVals t 4 sat xs).getLsbD k = xs.any fun x => x.getLsbD k) ∧
    (∀ k, k < t.width → (foldVals t 5 sat xs).getLsbD k = decide ((xs.filter fun x => x.getLsbD k).length % 2 = 1)) ∧
    (∀ (w : W64), intOf t w ≤ intOf t (foldVals t 1 sat [])) ∧ (∀ (w : W64), intOf t (foldVals t 2 sat []) ≤ intOf t w)

/-- QCVT under stochastic rounding draws for each item, and the generator advances once (R98, R99, R202). -/
def StochasticResults : Prop :=
  ∀ o, (Instr.qcvt o).WellFormed → o.mod.val / 32 = 2 → Computes (.qcvt o) .qcvt o (longWords o) false
    (fun _ r i => BitVec.ofNat 64 ((Float.B8.ofCode (o.mod.val % 32)).convertSR (Float.rand r.e.gen (r.e.start + i)).toNat
      (Float.decode (fmtOf o.ty) (patOf o.ty (r.a i)))))
    (fun _ r => { r.e with gen := Float.xs r.e.gen })

/-- ZNTT and ZINTT: the item at the lower position of a pair keeps the sum, the other the difference, with the twiddle before or
after (R213). -/
def ButterflyResults : Prop :=
  ∀ o k q qn s c, o.perm = .bfly k → s.here = some c → c.e.modctx = some (BitVec.ofNat 64 q, BitVec.ofNat 64 qn) → q < 2 ^ 64 →
    qn < 2 ^ 64 → c.actsOn o ≠ [] → c.e.canWrite c.ke.regs (c.actsOn o) true o.d = true →
    ((Instr.zntt o).WellFormed → c.readable .zntt o = true →
      ∃ t e, exec (.zntt o) s = .next t ∧ OnlyEntry s t e ∧
        Wrote ((c.reads .zntt o).e.stepped (longWords o)) e c.ke.regs (c.actsOn o) true o.d fun i =>
          let x := (c.e.sourceAt c.ke.regs o.lit true o.a i).toNat % q
          let y := ((c.reads .zntt o).a i).toNat % q
          let w := ((c.reads .zntt o).b i).toNat % q
          BitVec.ofNat 64 (if (c.e.posOf i).testBit k then (y + (q - mont q qn w x)) % q else (x + mont q qn w y) % q)) ∧
    ((Instr.zintt o).WellFormed → c.readable .zintt o = true →
      ∃ t e, exec (.zintt o) s = .next t ∧ OnlyEntry s t e ∧
        Wrote ((c.reads .zintt o).e.stepped (longWords o)) e c.ke.regs (c.actsOn o) true o.d fun i =>
          let x := (c.e.sourceAt c.ke.regs o.lit true o.a i).toNat % q
          let y := ((c.reads .zintt o).a i).toNat % q
          let w := ((c.reads .zintt o).b i).toNat % q
          BitVec.ofNat 64 (if (c.e.posOf i).testBit k then mont q qn ((y + (q - x)) % q) w else (x + y) % q))

/-- ZMOD sets the entry's context for an odd modulus from 3 to 2^62 and clears ZMOD_BAD; for any other it sets ZMOD_BAD and keeps the
context (R106, R211). -/
def ModulusContext : Prop :=
  ∀ o s c i0 is, (Instr.zmod o).WellFormed → s.here = some c → c.actsOn o = i0 :: is → c.readable .zmod o = true →
    c.whole o = true → c.uniSources .zmod o = true →
    ∃ t e q qn bad, exec (.zmod o) s = .next t ∧ OnlyEntry s t e ∧ q = (c.reads .zmod o).a i0 ∧
      bad = !decide (q.toNat % 2 = 1 ∧ 3 ≤ q.toNat ∧ q.toNat < 2 ^ 62) ∧ (bad = false → q * qn = -1) ∧
      e = { c.e.stepped (longWords o) with
        streams := e.streams, xflag := e.xflag, modctx := if bad then c.e.modctx else some (q, qn),
        scalars := match o.d with
          | .s n => c.e.scalars.set n (if bad then 1 else 0)
          | _ => c.e.scalars }

/-- The other modular instructions raise NO_MODULUS in an entry without a context (R211). -/
def NeedsModulus : Prop :=
  ∀ o s c, s.here = some c → c.e.modctx = none →
    ∀ i ∈ [Instr.zadd o, .zsub o, .zmul o, .zmulc o, .zred o, .ztom o, .zfromm o, .zntt o, .zintt o, .ztwid o],
      exec i s = .next (c.raise (longWords o) noModulus)

/-- Montgomery's and Shoup's products are the residues that R107 says they are. -/
def ModularProducts : Prop :=
  ∀ q qn a b w : Nat, q % 2 = 1 → 3 ≤ q → q < 2 ^ 62 → (q * qn + 1) % 2 ^ 64 = 0 → a < q → b < q → w < q →
    mont q qn a b < q ∧ mont q qn a b * 2 ^ 64 % q = a * b % q ∧ shoup q a w (w * 2 ^ 64 / q) = a * w % q ∧
      mont q qn (a * 2 ^ 64 % q) 1 = a

/-! ### Rules stated by themselves -/

/-- SHL, SHR, SAR and ROL shift by B mod the width, B unsigned, in every item (R179). -/
def ShiftCounts : Prop :=
  ∀ i r op o, i.WellFormed → i.toRaw = some r → Raw.full r = (op, o) → op = .shl ∨ op = .shr ∨ op = .sar ∨ op = .rol →
    Computes i op o r.nwords o.ty.wide fun _ rd k =>
      let a := word o.ty (rd.a k)
      let n := (word o.ty (rd.b k)).toNat % o.ty.width
      if op = .shl then storeInt o.ty (satOf o) (intOf o.ty (rd.a k) * 2 ^ n)
      else storePat o.ty (if op = .shr then a >>> n else if op = .sar then a.sshiftRight n else a.rotateLeft n).toNat

/-- FABS clears the highest bit of the pattern and FNEG inverts it; every other bit stays, under every MOD (R196). -/
def SignBits : Prop :=
  ∀ i r op o, i.WellFormed → i.toRaw = some r → Raw.full r = (op, o) → op = .fabs ∨ op = .fneg →
    Computes i op o r.nwords o.ty.wide fun _ rd k =>
      let a := word o.ty (rd.a k)
      let top : BitVec o.ty.width := 1#o.ty.width <<< (o.ty.width - 1)
      (if op = .fabs then a &&& ~~~top else a ^^^ top).setWidth 64

end Sys2Proof.Claim
end

