-- ==== Sys2Proof/Statements/Control.lean ====
section
/-!
DEFINITION. The statements on control, divergence, joins and strands (Certificates/Slice0/Obligations.lean puts them together).
-/
namespace Sys2Proof.Claim

open Machine

/-! ### Control (R36 to R46, R157 to R172) -/

/-- NOP goes on and changes nothing else. -/
def NopResults : Prop :=
  ∀ s c, s.here = some c →
    (∀ o, ∃ t, exec (.nop o) s = .next t ∧ OnlyEntry s t (c.e.stepped 1)) ∧
    (∀ o, ∃ t, exec (.nopLong o) s = .next t ∧ OnlyEntry s t (c.e.stepped (longWords o)))

/-- EXIT goes on at the next instruction with the items acted on ended; an instruction of no items ends none (R17, R158). -/
def ExitResults : Prop :=
  ∀ i r s c, i.toRaw = some r → (Raw.full r).1 = .exit → s.here = some c →
    ∃ u, OnlyEntry s u (c.e.stepped r.nwords) ∧
      exec i s = .next (if c.actsOn (Raw.full r).2 = [] then u else u.endItems s.cur (c.actsOn (Raw.full r).2) false)

/-- Ending items of an entry that issues leaves its other items, its registers and its PC as they were, and memory too (R41). -/
def EndsItems : Prop :=
  ∀ (s : State) (r : EntryRef) (e : Entry) (offs : List Nat) (die : Bool), s.entry r = some e → e.status = .ready →
    (∃ i, i ∉ offs ∧ e.live i = true) →
    ∃ f, (s.endItems r offs die).entry r = some f ∧ (∀ i, f.live i = (e.live i && !offs.contains i)) ∧
      f = { e with ended := f.ended, dead := f.dead, retired := f.retired } ∧
      (∀ a, Memory.read (s.endItems r offs die).mem a = Memory.read s.mem a)

/-- YIELD goes to the next instruction, leaves every register, restarts the slot's watchdog, and gives way: no other ready entry of
its flight has retired more (R53, R160). -/
def YieldResults : Prop :=
  ∀ i r s c, i.toRaw = some r → (Raw.full r).1 = .yield → s.here = some c →
    ∃ u n, OnlyEntry s u { c.e with pc := c.e.pc + 4 * r.nwords, retired := n } ∧ exec i s = .next (u.yielded s.cur) ∧
      ∀ x ∈ c.peerCounts, x < n

/-- BRA, CALL and RET transfer the whole entry; CALL leaves the address of the next instruction in D (R161). -/
def Transfers : Prop :=
  ∀ s c, s.here = some c → c.e.pc < 2 ^ 64 →
    (∀ o, ∃ t, exec (.bra o) s = .next t ∧ OnlyEntry s t (c.e.goesTo (c.e.branch o))) ∧
    (∀ o n, o.d = .s n → ∃ t, exec (.call o) s = .next t ∧ OnlyEntry s t
      { c.e.goesTo (c.e.branch o) with scalars := c.e.scalars.set n (BitVec.ofNat 64 (c.e.pc + 12)) }) ∧
    (∀ i r n, i.toRaw = some r → (Raw.full r).1 = .ret → (Raw.full r).2.a = .s n →
      ∃ t, exec i s = .next t ∧ OnlyEntry s t (c.e.goesTo (c.e.sAt n).toNat))

/-- BRU transfers the whole entry when its condition is true and falls through when it is not; a predicate that is not UNI raises
UNIFORM_BREACH (R43, R166). -/
def UniformBranch : Prop :=
  ∀ o s c, s.here = some c → c.e.pc < 2 ^ 64 →
    (∀ n b, (o.a = .s n ∧ b = decide (c.e.sAt n ≠ 0)) ∨ (∃ m : Fin 8, o.a = .p m ∧ c.e.pred m = .uni b) →
      ∃ t, exec (.bru o) s = .next t ∧
        OnlyEntry s t (if b = decide (o.mod.val % 2 = 0) then c.e.goesTo (c.e.branch o) else c.e.stepped (longWords o))) ∧
    (∀ n : Fin 8, o.a = .p n → (c.e.pred n).code ≠ 0 → exec (.bru o) s = .next (c.raise (longWords o) (breach c.e)))

/-- ELECT is true in the lowest item acted on and false in every other; over no item it does nothing (R162). -/
def ElectResults : Prop :=
  ∀ i r s c (n : Fin 8), i.toRaw = some r → (Raw.full r).1 = .elect → (Raw.full r).2.d = .p n → s.here = some c →
    c.e.preds.length = 7 →
    ∃ t e, exec i s = .next t ∧ OnlyEntry s t e ∧ (∀ m k, e.live k → e.vAt m k = c.e.vAt m k) ∧
      (∀ (m : Fin 8) k, e.live k → e.pAt m k =
        if m = n ∧ n ≠ 7 ∧ c.e.activeList ≠ [] then decide (c.e.activeList.head? = some k) else c.e.pAt m k) ∧
      e = { c.e.stepped r.nwords with regs := e.regs, xregs := e.xregs, preds := e.preds }

/-- IDX writes each item its launch index, or its position under `.pos`, as one affine value (R33, R164). -/
def IdxResults : Prop :=
  (∀ o, (Instr.idx o).WellFormed → Computes (.idx o) .idx (o.toLong .idx) 1 false
    (fun c _ i => (BitVec.ofNat 32 (c.e.start + i)).setWidth 64)) ∧
  (∀ o, (Instr.idxLong o).WellFormed → Computes (.idxLong o) .idx o (longWords o) false
    (fun c _ i => (BitVec.ofNat 32 ((if o.mod.val = 1 then c.e.start - c.e.wstart else c.e.start) + i)).setWidth 64)) ∧
  (∀ o s c t (n : Fin 128), (Instr.idxLong o).WellFormed → o.d = .v n → n.val < c.e.regs.length → s.here = some c →
    c.actsOn o ≠ [] → c.whole o = true → c.e.single = none → exec (.idxLong o) s = .next t →
    ∃ e, t.entry s.cur = some e ∧ (e.regs.getD n (.uni 0)).code = 1)

/-- FORMOF writes the form code of its source to a scalar (R165). -/
def FormofResults : Prop :=
  ∀ i r s c n, i.WellFormed → i.toRaw = some r → (Raw.full r).1 = .formof → (Raw.full r).2.d = .s n → s.here = some c →
    c.e.canRead c.ke.regs c.e.activeList false (Raw.full r).2.a = true →
    ∃ t, exec i s = .next t ∧ OnlyEntry s t { c.e.stepped r.nwords with
      scalars := c.e.scalars.set n (BitVec.ofNat 64 (c.e.formAt c.ke.regs (decide ((Raw.full r).2.mod.val % 2 = 1)) (Raw.full r).2.a)) }

/-- VOTE writes its result to every item of the entry, over no item its identity (R17, R172). -/
def VoteResults : Prop :=
  ∀ i r s c, i.WellFormed → i.toRaw = some r → (Raw.full r).1 = .vote → s.here = some c →
    c.readableFor c.e.activeList .vote (Raw.full r).2 = true →
    c.e.canWriteEvery c.ke.regs c.e.activeList (decide ((Raw.full r).2.mod.val % 4 = 2)) (Raw.full r).2.d = true →
    (∀ i ∈ c.e.activeList, c.e.posOf i < 64) →
    ∃ t e, exec i s = .next t ∧ OnlyEntry s t e ∧
      WroteEvery ((c.readsFor c.e.activeList .vote (Raw.full r).2).e.stepped r.nwords) e c.ke.regs
        (decide ((Raw.full r).2.mod.val % 4 = 2)) false (Raw.full r).2.d
        (votes ((Raw.full r).2.mod.val % 4) c.e.activeList c.e.posOf fun k =>
          (c.readsFor c.e.activeList .vote (Raw.full r).2).a k != 0)

/-- TRAP takes the handler with its code before any other effect: the entry waits on the handler with its registers and PC as they
were (R163, R288, R395). -/
def TrapResults : Prop :=
  ∀ i r s c, i.toRaw = some r → (Raw.full r).1 = .trap → s.here = some c →
    exec i s = .next (c.raise r.nwords ⟨5, 2, 0, 0, false, 0, (Raw.full r).2.imm.val, none⟩)



/-! ### Division and merging (R36 to R47, R56, R73, R167 to R173) -/

/-- BRC on a UNI predicate moves the whole entry and opens a level of one piece (R37, R167). -/
def BranchWhole : Prop :=
  ∀ o s c b (n : Fin 8), o.a = .p n → s.here = some c → c.e.pc < 2 ^ 64 → c.e.activeList ≠ [] → c.e.pred n = .uni b →
    ∃ u, OnlyEntry s u { (if b = decide (o.mod.val % 2 = 0) then c.e.goesTo (c.e.branch o) else c.e.stepped (longWords o)) with
        levels := .cut s.nextId 1 :: c.e.levels } ∧
      exec (.brc o) s = .next { u with nextId := s.nextId + 1 }

/-- BRC on an AFF predicate cuts the entry at the threshold: the items below and from it on go on as two entries, each with its items'
values, one at the target and the other at the next instruction (R37, R38, R73, R167). -/
def BranchCuts : Prop :=
  ∀ o s c thr sense pos ps (n : Fin 8), o.a = .p n → s.here = some c → c.e.pc < 2 ^ 64 → c.e.activeList ≠ [] → c.e.pred n = .aff thr sense →
    c.slot.freePos = pos :: ps → c.e.start < thr → thr < c.e.start + c.e.len →
    (∃ i, i < thr - c.e.start ∧ c.e.live i = true) → (∃ i, thr - c.e.start ≤ i ∧ c.e.live i = true) →
    ∃ t low high, exec (.brc o) s = .next t ∧ t.entry s.cur = some low ∧ t.entry { s.cur with pos := pos } = some high ∧
      (∀ r, r ≠ s.cur → r ≠ { s.cur with pos := pos } → t.entry r = s.entry r) ∧ t = { s with slots := t.slots, nextId := s.nextId + 1 } ∧
      low.start = c.e.start ∧ low.len = thr - c.e.start ∧ high.start = thr ∧ high.len = c.e.len - low.len ∧
      (∀ m i, low.live i → low.vAt m i = c.e.vAt m i ∧ low.xAt m i = c.e.xAt m i) ∧
      (∀ m i, high.live i → high.vAt m i = c.e.vAt m (low.len + i) ∧ high.xAt m i = c.e.xAt m (low.len + i)) ∧
      (∀ i, low.live i = (decide (i < low.len) && c.e.live i)) ∧ (∀ i, high.live i = c.e.live (low.len + i)) ∧
      low.scalars = c.e.scalars ∧ high.scalars = c.e.scalars ∧ low.ops = c.e.ops ∧ high.ops = [] ∧
      low.pc = (if sense = decide (o.mod.val % 2 = 1) then c.e.branch o else c.e.pc + 4 * longWords o) ∧
      high.pc = (if sense = decide (o.mod.val % 2 = 1) then c.e.pc + 4 * longWords o else c.e.branch o) ∧
      (∃ ls, low.levels = .cut s.nextId 2 :: ls) ∧ ∃ ls, high.levels = .cut s.nextId 2 :: ls

/-- BRC on a DEN predicate, or on an AFF one when the piece table is full, masks: the items that do not branch go on first, and the
target waits for the others; where all or none branch nothing is masked (R37, R39, R167). -/
def BranchMasks : Prop :=
  ∀ o s c cause (n : Fin 8), o.a = .p n → s.here = some c → c.e.pc < 2 ^ 64 → c.e.activeList ≠ [] →
    (cause = 1 ∧ (∃ vs, c.e.pred n = .den vs) ∨ cause = 2 ∧ (∃ t x, c.e.pred n = .aff t x) ∧ c.slot.freePos = []) →
    ∃ t e pend, exec (.brc o) s = .next t ∧ OnlyEntry s t e ∧
      e.levels = .mask c.e.mask (c.e.branch o) pend cause :: c.e.levels ∧
      (let taken (i : Nat) : Bool := c.e.active i && (c.e.pAt n i != decide (o.mod.val % 2 = 1))
       let mixed := c.e.activeList.any taken && c.e.activeList.any fun i => !taken i
       (∀ i, i < c.e.len → e.active i = (c.e.active i && !(mixed && taken i)) ∧ pend.getD i false = (mixed && taken i)) ∧
       e.pc = if c.e.activeList.all taken then c.e.branch o else c.e.pc + 4 * longWords o) ∧
      e = { c.e with pc := e.pc, mask := e.mask, levels := e.levels, retired := c.e.retired + 1 }

/-- JOIN: with no level it goes on; at a cut it waits for the other pieces; at a mask it runs the items that branched, and after them
restores the mask (R39, R40, R159). -/
def JoinResults : Prop :=
  ∀ i r s c, i.toRaw = some r → (Raw.full r).1 = .join → s.here = some c → c.e.pc < 2 ^ 64 →
    (c.e.levels = [] → ∃ t, exec i s = .next t ∧ OnlyEntry s t (c.e.stepped r.nwords)) ∧
    (∀ id n ls, c.e.levels = .cut id n :: ls →
      ∃ t, exec i s = .next t ∧ OnlyEntry s t { c.e.stepped r.nwords with status := .atJoin }) ∧
    (∀ saved target pend cause ls, c.e.levels = .mask saved target pend cause :: ls →
      (pend.any id = true → target < 2 ^ 64 → ∃ t, exec i s = .next t ∧ OnlyEntry s t { c.e.goesTo target with
        mask := pend, levels := .mask saved target (pend.map fun _ => false) cause :: ls }) ∧
      (pend.any id = false → ∃ t, exec i s = .next t ∧ OnlyEntry s t { c.e.stepped r.nwords with mask := saved, levels := ls }))

/-- Registers of merged pieces hold, for every live item, what the item's piece held (R32, R42). -/
def MergeKeepsValues : Prop :=
  ∀ pieces n (p : Entry) i, Contiguous pieces → p ∈ pieces → p.live i = true →
    (mergeV pieces n).at (p.start + i - (pieces.head?.map Entry.start).getD 0) = p.vAt n i ∧
    (mergeX pieces n).at (p.start + i - (pieces.head?.map Entry.start).getD 0) = p.xAt n i ∧
    (mergeP pieces n).at ((pieces.head?.map Entry.start).getD 0) (p.start + i - (pieces.head?.map Entry.start).getD 0) = (p.pred n).at p.start i

/-- Two pieces that have both arrived at their JOIN become one entry again, which goes on (R40, R42, R46, R73). -/
def RejoinResults : Prop :=
  ∀ s r (x : Slot) (a b : Entry) id ls ls2, s.slot r.core r.slot = some x → x.entries = [a, b] → r.pos = a.pos → a.pos ≠ b.pos →
    a.status = .atJoin → b.status = .atJoin → a.levels = .cut id 2 :: ls → b.levels = .cut id 2 :: ls2 → a.start + a.len = b.start →
    (∀ k, k < 4 → a.counts.getD k 0 + b.counts.getD k 0 ≤ 63) → (∃ i, a.live i = true) → a.pc = b.pc → 0 < a.len →
    (s.slots.filter fun y => decide (y.core = r.core) && decide (y.num = r.slot)) = [x] →
    ∃ t m, exec (.rejoin r) s = .next t ∧ t.entry r = some m ∧ m.status = .ready ∧ m.pc = a.pc ∧ m.start = a.start ∧
      m.len = a.len + b.len ∧ m.scalars = a.scalars ∧ m.levels.length = ls.length ∧
      (∀ n i, n < 128 → a.live i → m.vAt n i = a.vAt n i) ∧ (∀ n i, n < 128 → b.live i → m.vAt n (a.len + i) = b.vAt n i)

/-- SPLIT of a strand no wider than the new width leaves it and counts one strand; of a wider one it makes strands of the new width,
each with its items' values, and each counts them (R44, R169). -/
def SplitResults : Prop :=
  ∀ o s c (n : Fin 64) w, s.here = some c → o.d = .s n → w = (if o.mod.val = 1 then 16 else 32) → n.val < c.e.scalars.length →
    (c.e.width ≤ w → ∃ t, exec (.split o) s = .next t ∧
      OnlyEntry s t { c.e.stepped (longWords o) with scalars := c.e.scalars.set n 1 }) ∧
    (w < c.e.width → 0 < c.e.len → (c.e.len + w - 1) / w ≤ 1 + c.slot.freePos.length →
      (∀ k, k * w < c.e.len → ∃ i, k * w ≤ i ∧ i < (k + 1) * w ∧ c.e.live i = true) →
      ∃ t, exec (.split o) s = .next t ∧ ∀ k, k * w < c.e.len → ∃ p e,
        (s.cur.pos :: c.slot.freePos)[k]? = some p ∧ t.entry { s.cur with pos := p } = some e ∧ e.start = c.e.start + k * w ∧
        e.len = min w (c.e.len - k * w) ∧ e.width = w ∧ e.sAt n = BitVec.ofNat 64 ((c.e.len + w - 1) / w) ∧
        e.pc = c.e.pc + 4 * longWords o ∧ ∀ m i, e.live i → e.vAt m i = c.e.vAt m (k * w + i) ∧ e.xAt m i = c.e.xAt m (k * w + i))

/-- FUSE without a partner completes with the code of the first condition of R45 that applies; with one whose operations have not all
retired it waits (R45, R47, R170). -/
def FuseResults : Prop :=
  ∀ o s c, s.here = some c →
    (∀ n code, o.d = .s n → c.fusePartner (decide (o.mod.val = 1)) = (code, none) → code < 8 →
      ∃ t, exec (.fuse o) s = .next t ∧
        OnlyEntry s t { c.e.stepped (longWords o) with scalars := c.e.scalars.set n (BitVec.ofNat 64 code) }) ∧
    (∀ y p, c.fusePartner (decide (o.mod.val = 1)) = (0, some (y, p)) → (c.e.ops ≠ [] ∨ p.ops ≠ []) →
      ∃ t, exec (.fuse o) s = .next t ∧ OnlyEntry s t { c.e with status := .held (.fuse o) }) ∧
    (c.abutting (decide (o.mod.val = 1)) = [] → c.fusePartner (decide (o.mod.val = 1)) = (1, none))

/-- FUSE with a partner at the next position of the same slot makes one strand of both, twice as wide, with every item's values, and
goes on (R45, R46, R170). -/
def FuseMerges : Prop :=
  ∀ o s c p (n : Fin 64), s.here = some c → o.mod.val = 0 → o.d = .s n → n.val < c.e.scalars.length → c.slot.entries = [c.e, p] → c.e.pos ≠ p.pos →
    (s.slots.filter fun y => decide (y.core = c.slot.core) && decide (y.num = c.slot.num)) = [c.slot] →
    c.fusePartner false = (0, some (c.slot, p)) → p.status = .ready → c.e.ops = [] → p.ops = [] → c.e.levels = [] → p.levels = [] →
    c.e.start + c.e.len = p.start → (∃ i, c.e.live i = true) → 0 < c.e.len →
    ∃ t m, exec (.fuse o) s = .next t ∧ t.entry s.cur = some m ∧ m.start = c.e.start ∧ m.len = c.e.len + p.len ∧
      m.width = c.e.width + p.width ∧ m.pc = c.e.pc + 4 * longWords o ∧ m.status = .ready ∧ m.scalars = c.e.scalars.set n 0 ∧
      (∀ k i, k < 128 → c.e.live i → m.vAt k i = c.e.vAt k i) ∧ (∀ k i, k < 128 → p.live i → m.vAt k (c.e.len + i) = p.vAt k i)

/-- YIELDC goes on at its continuation when the class's count is at or below the threshold, and else waits for that; either way it
restarts the slot's watchdog and keeps the mask, the levels and every register (R53, R168). -/
def YieldcResults : Prop :=
  ∀ o s c, s.here = some c → c.e.pc < 2 ^ 64 →
    (c.e.counts.getD (o.mod.val % 4) 0 ≤ o.mod.val / 4 → ∃ u, exec (.yieldc o) s = .next (u.yielded s.cur) ∧
      EntryAndCores s u { c.e.goesTo (c.e.branch o) with dsts := [] }) ∧
    (o.mod.val / 4 < c.e.counts.getD (o.mod.val % 4) 0 → ∃ u, exec (.yieldc o) s = .next (u.yielded s.cur) ∧
      OnlyEntry s u { c.e with status := .parked (.yieldc (o.mod.val % 4) (o.mod.val / 4) (c.e.branch o)) none })

/-- REORD deposits the record of each item acted on, whole, at its place in the deposit region, and ends the items (R56, R173). -/
def ReordResults : Prop :=
  ∀ o s c (b : Fin 128) dep i0 is (pa : Nat → Nat), s.here = some c → c.actsOn o = i0 :: is → c.readable .reord o = true → o.b = .v b →
    SoundStore s → c.quiet → c.kept → c.roomFor (c.actsOn o).length → c.ref.core < s.cores.length → c.la.deposit = some dep → c.e.pc < 2 ^ 64 → c.ke.code < 2 ^ 64 →
    c.overlap 0 true ((c.actsOn o).map fun i => ⟨i, dep.base + 64 * (c.e.start + i), 64⟩) = none →
    (∀ i ∈ c.actsOn o, c.s.check c.agent (some c.ref.core) .store (dep.base + 64 * (c.e.start + i)) 64 1 = .ok [(pa i, 64)]) →
    (∀ i ∈ c.actsOn o, ∀ j ∈ c.actsOn o, i ≠ j → pa i + 64 ≤ pa j ∨ pa j + 64 ≤ pa i) →
    ∃ t, exec (.reord o) s = .next t ∧
      (∀ i ∈ c.actsOn o, Memory.readN t.mem (pa i) 64 =
        leBytes 2 ((c.reads .reord o).a i).toNat ++ leBytes 4 (c.e.start + i) ++ leBytes 4 ((c.e.branch o + 2 ^ 64 - c.ke.code) % 2 ^ 64) ++
          List.replicate 22 0 ++ (List.range 8).flatMap fun j => leBytes 4 (c.e.vAt (b + j) i).toNat) ∧
      (∀ e, t.entry s.cur = some e → ∀ i, e.live i = (c.e.live i && !(c.actsOn o).contains i)) ∧
      (t.launchOf c.la.tag).map (fun l => l.recs.length) = some (c.la.recs.length + (c.actsOn o).length)

end Sys2Proof.Claim
end

