-- ==== Sys2Proof/Statements/Copying.lean ====
section
/-!
DEFINITION. The statements on copies, collectives and streams (Certificates/Slice0/Obligations.lean puts them together).
-/
namespace Sys2Proof.Claim

open Machine

/-! ### Copies, collectives and streams (R270 to R285, R443 to R447) -/

/-- A copy's chunks cover it in order, and none crosses a 4 KiB boundary of the destination (R274). -/
def ChunksCover : Prop :=
  ∀ d x n, ((chunksOf d x n).map Chunk.len).sum = n ∧ ∀ i k, (chunksOf d x n)[i]? = some k →
    let at_ := (((chunksOf d x n).take i).map Chunk.len).sum
    k.dst = d + at_ ∧ k.src = x + at_ ∧ 0 < k.len ∧ k.dst / 4096 = (k.dst + k.len - 1) / 4096 ∧ k.started = false ∧ k.parked = false

/-- CPY: a scratchpad side beyond the allocation raises SPAD_FAULT; a peer side without a window is refused at issue; a copy of nothing
is done at once; the counter at 63 holds the issuer; else the copy is outstanding (R72, R222, R272 to R274, R443). -/
def CopyIssue : Prop :=
  ∀ o s c i0 is, (Instr.cpy o).WellFormed → SoundStore s → s.here = some c → c.actsOn o = i0 :: is → c.readable .cpy o = true →
    c.uniSources .cpy o = true → c.e.canWriteEvery c.ke.regs c.e.activeList false o.d = true → c.ref.core < s.cores.length → c.kept →
    let r := c.reads .cpy o
    let d := (r.a i0).toNat
    let y := (r.b i0).toNat
    let n := (r.c i0).toNat % 2 ^ 32
    (c.beyond (dspOf o) d n = true → exec (.cpy o) s = .next (c.raise (longWords o) (spadFault d none))) ∧
    (c.beyond (dspOf o) d n = false → c.beyond (sspOf o) y n = true → exec (.cpy o) s = .next (c.raise (longWords o) (spadFault y none))) ∧
    (c.beyond (dspOf o) d n = false → c.beyond (sspOf o) y n = false →
      (c.peerPort (dspOf o) (sspOf o) d y (some (o.imm.val % 4)) = .error () →
        ∃ t, exec (.cpy o) s = .next t ∧ Issued c t o (r.e.refuseOp s.nextId 0 6 s.clock) 0) ∧
      ∀ port, c.peerPort (dspOf o) (sspOf o) d y (some (o.imm.val % 4)) = .ok port →
        (n = 0 → ∃ t, exec (.cpy o) s = .next t ∧ Issued c t o (r.e.refuseOp s.nextId 0 0 s.clock) 0) ∧
        (n ≠ 0 → 63 ≤ c.e.counts.getD 0 0 → ∃ t, exec (.cpy o) s = .next t ∧ OnlyEntry s t { c.e with status := .held (.counter 0) }) ∧
        (n ≠ 0 → c.e.counts.getD 0 0 < 63 → ∃ t, exec (.cpy o) s = .next t ∧
          Issued c t o (r.e.issueOp s.nextId 0 s.clock (.copy { plainCopy d y n with dsp := dspOf o, ssp := sspOf o, port := port })) 0))

/-- CPYP copies the rows of a record of the scratchpad, refused at issue unless each side lies in one region, window or allocation with
the right it needs (R276, R277). -/
def RowCopyIssue : Prop :=
  ∀ o s c i0 is, (Instr.cpyp o).WellFormed → SoundStore s → s.here = some c → c.actsOn o = i0 :: is → c.readable .cpyp o = true →
    c.uniSources .cpyp o = true → c.e.canWriteEvery c.ke.regs c.e.activeList false o.d = true → c.ref.core < s.cores.length → c.kept →
    let r := c.reads .cpyp o
    let off := (r.a i0).toNat % 2 ^ 32
    c.servedSpad false true 32 [(i0, off)] → c.e.counts.getD 0 0 < 63 →
    let w := leNat (Memory.readN c.fl.spad off 32)
    let rows := bits w 160 32
    let rb := bits w 128 32
    let reach (pitch : Nat) : Nat := (rows - 1) * pitch + rb
    let fits := c.sideOk (dspOf o) (bits w 0 64) (reach (bits w 192 32)) 1 (o.imm.val % 4) &&
      c.sideOk (sspOf o) (bits w 64 64) (reach (bits w 224 32)) 0 (o.imm.val % 4)
    let apart := decide (rows ≤ 1 ∨ (rb ≤ bits w 192 32 ∧ rb ≤ bits w 224 32))
    ∃ t, exec (.cpyp o) s = .next t ∧
      (rows = 0 → Issued c t o (r.e.refuseOp s.nextId 0 0 s.clock) 0) ∧
      (rows ≠ 0 → (apart && fits) = false → Issued c t o (r.e.refuseOp s.nextId 0 6 s.clock) 0) ∧
      (rows ≠ 0 → (apart && fits) = true → rb ≠ 0 → ∃ cp, Issued c t o (r.e.issueOp s.nextId 0 s.clock (.copy cp)) 0 ∧
        cp = { plainCopy 0 0 0 with dsp := dspOf o, ssp := sspOf o, port := o.imm.val % 4, chunks := cp.chunks } ∧
        cp.chunks = (List.range rows).flatMap fun k => chunksOf (bits w 0 64 + k * bits w 192 32) (bits w 64 64 + k * bits w 224 32) rb)

/-- CPYK: misaligned sides raise ALIGN; a command that goes on a chain that is not open gets CHAIN_BROKEN; else it is outstanding, and the
entry's chain counts its words (R278). -/
def ChainCopyIssue : Prop :=
  ∀ o s c i0 is, (Instr.cpyk o).WellFormed → SoundStore s → s.here = some c → c.actsOn o = i0 :: is → c.readable .cpyk o = true →
    c.uniSources .cpyk o = true → c.e.canWriteEvery c.ke.regs c.e.activeList false o.d = true → c.ref.core < s.cores.length → c.kept →
    let r := c.reads .cpyk o
    let d := (r.a i0).toNat
    let y := (r.b i0).toNat
    let n := 16 * o.imm.val
    let starts := decide (o.mod.val / 16 = 0 ∨ 3 ≤ o.mod.val / 16)
    let ends := decide (2 ≤ o.mod.val / 16)
    (d % 16 ≠ 0 ∨ y % 16 ≠ 0 →
      exec (.cpyk o) s = .next (c.raise (longWords o) ⟨12, 3, 0, 7, false, if d % 16 ≠ 0 then d else y, 0, none⟩)) ∧
    (d % 16 = 0 → y % 16 = 0 → c.beyond (dspOf o) d n = false → c.beyond (sspOf o) y n = false →
      (starts = false → c.e.chain.isOpen = false → ∃ t, exec (.cpyk o) s = .next t ∧ Issued c t o (r.e.refuseOp s.nextId 0 3 s.clock) 0) ∧
      (starts = true ∨ c.e.chain.isOpen = true → ∀ port, c.peerPort (dspOf o) (sspOf o) d y none = .ok port → c.e.counts.getD 0 0 < 63 →
        0 < o.imm.val →
        ∃ t ch cp, exec (.cpyk o) s = .next t ∧ Issued c t o (({ r.e with chain := ch } : Entry).issueOp s.nextId 0 s.clock (.copy cp)) 0 ∧
          ch = { (if starts then ({ id := s.nextId + 1 } : Chain) else c.e.chain) with
            next := (if starts then 0 else c.e.chain.next) + 4 * o.imm.val, isOpen := !ends } ∧
          cp = { plainCopy d y n with
            dsp := dspOf o, ssp := sspOf o, port := port, link := cp.link, expect := (r.c i0).setWidth 32, chain := ch.id,
            prior := if starts then 0 else c.e.chain.acc, startIndex := if starts then 0 else c.e.chain.next,
            broken := !starts && c.e.chain.broken } ∧
          cp.link.isSome = true) ∧
      (starts = true ∨ c.e.chain.isOpen = true → c.peerPort (dspOf o) (sspOf o) d y none = .error () →
        ∃ t ch, exec (.cpyk o) s = .next t ∧ Issued c t o (({ r.e with chain := ch } : Entry).refuseOp s.nextId 0 6 s.clock) 0 ∧
          ch.broken = true ∧ ch.isOpen = !ends))

/-- A chunk not started starts; a started chunk of a copy between two ranges of device memory that pass the checks writes the bytes of its
source at its destination, every other byte of memory stays, and the copy has a chunk less (R123, R274, R275). -/
def ChunkPerforms : Prop :=
  ∀ s id n r o cp k f e, s.opAt id = some (r, o) → s.entry r = some e → o ∈ e.ops → o.kind = .copy cp → cp.chunks[n]? = some k → k.parked = false →
    s.flightWith id = some f → (∀ x ∈ s.slots, ∀ y ∈ x.entries, ∀ z ∈ y.ops, z.id = id → z = o) → o.done = false → 2 ≤ cp.chunks.length →
    (∀ j, e.headDone j = none) →
    (k.started = false → f.state = .resident → cp.dsp ≠ .spad → cp.ssp ≠ .spad →
      ∃ t z, exec (.copyChunkPerform id n) s = .next t ∧ (t.opAt id).map Prod.snd = some z ∧
        z = { o with kind := .copy { cp with chunks := cp.chunks.set n { k with started := true, parked := false } } } ∧ t.mem = s.mem) ∧
    (∀ ps qs, k.started = true → cp.dsp = .mem → cp.ssp = .mem → s.check (s.agentOf f) none .load k.src k.len 1 = .ok ps →
      s.check (s.agentOf f) none .store k.dst k.len 1 = .ok qs → (ps.map Prod.snd).sum = k.len → (qs.map Prod.snd).sum = k.len →
      SoundStore s → qs.Pairwise (fun p q => p.1 + p.2 ≤ q.1 ∨ q.1 + q.2 ≤ p.1) → s.dieRoom (s.agentOf f) (ps.length + qs.length) →
      ∃ t z cq, exec (.copyChunkPerform id n) s = .next t ∧ t.readPieces qs = s.readPieces ps ∧
        (∀ a, (∀ p ∈ qs, a < p.1 ∨ p.1 + p.2 ≤ a) → Memory.read t.mem a = Memory.read s.mem a) ∧
        (t.opAt id).map Prod.snd = some z ∧ z.kind = .copy cq ∧ cq.chunks = cp.chunks.eraseIdx n ∧ cq.performed = cp.performed + 1)

/-- A copy that ends its chain retires with OK where the sum of its chain is what it expects, and with CHAIN_SUM where it is not; one
that a peer denied or that was cancelled says so, and every later command of its chain goes on from its sum (R273, R278). -/
def ChainEnds : Prop :=
  ∀ (c : CopyOp),
    (c.link ≠ some .last → c.link ≠ some .only → c.retire.1 = if c.denied then 8 else if c.cancelled then 4 else 0) ∧
    (c.link = some .last ∨ c.link = some .only → c.denied = false → c.cancelled = false →
      c.retire.2 = c.prior + c.sum ∧ c.retire.1 = if c.broken then 3 else if c.prior + c.sum = c.expect then 0 else 2) ∧
    ∀ (e : Entry) (o y : AsyncOp) (d : CopyOp), o.kind = .copy c → c.link.isSome = true → y ∈ e.ops → y.id ≠ o.id → y.kind = .copy d →
      d.link.isSome = true → d.chain = c.chain →
      ∃ z ∈ (e.retireOp o).ops, z = { y with kind := .copy { d with
        prior := c.prior + c.sum, broken := d.broken || c.broken || c.denied || c.cancelled } }

/-- COLL without a valid table entry, or with a root that is no rank, is refused at issue; else its contribution is read and the use is
outstanding, counted once more for its identifier (R129, R279, R446, R448). -/
def CollectiveIssue : Prop :=
  ∀ o s c i0 is, (Instr.coll o).WellFormed → SoundStore s → s.here = some c → c.actsOn o = i0 :: is → c.readable .coll o = true →
    c.uniSources .coll o = true → c.e.canWriteEvery c.ke.regs c.e.activeList false o.d = true → c.ref.core < s.cores.length → c.kept →
    let r := c.reads .coll o
    let ident := (r.c i0).setWidth 32
    (c.s.collEntry c.la.fn ident = none → ∃ t, exec (.coll o) s = .next t ∧ Issued c t o (r.e.refuseOp s.nextId 2 6 s.clock) 2) ∧
    (∀ e, c.s.collEntry c.la.fn ident = some e →
      (o.mod.val % 4 = 1 → e.p ≤ o.imm.val % 256 → ∃ t, exec (.coll o) s = .next t ∧ Issued c t o (r.e.refuseOp s.nextId 2 6 s.clock) 2) ∧
      (∀ n at_ ps, (o.mod.val % 4 = 1 → o.imm.val % 256 < e.p) → c.e.counts.getD 2 0 < 63 →
        n = ((r.b i0).toNat % 2 ^ 32) * o.ty.bytes →
        at_ = (if o.mod.val % 4 = 2 then e.rank * n else 0, if o.mod.val % 4 = 3 then e.p * n else if o.mod.val % 4 = 1 ∧ e.rank ≠ o.imm.val % 256
          then 0 else n) →
        c.overlap 0 false [⟨i0, (r.a i0).toNat + at_.1, at_.2⟩] = none →
        s.check c.agent (some c.ref.core) .load ((r.a i0).toNat + at_.1) at_.2 1 = .ok ps → (∀ p ∈ ps, p.1 % 128 + p.2 ≤ 128) →
        c.quiet → (s.tier.dies.getD (c.ref.core / 24) []).length + ps.length ≤ dieLines →
        ∃ t op, exec (.coll o) s = .next t ∧ Issued c t o (r.e.issueOp s.nextId 2 s.clock (.coll op)) 2 ∧ op.ident = ident ∧
          op.use = s.collUse c.la.fn ident ∧ t.collUse c.la.fn ident = s.collUse c.la.fn ident + 1 ∧ op.kind = o.mod.val % 4 ∧
          op.count = (r.b i0).toNat % 2 ^ 32 ∧ op.rank = e.rank ∧ op.parts = e.p ∧ op.root = o.imm.val % 256 ∧ op.buf = (r.a i0).toNat ∧
          op.local_ = ps.flatMap fun p => (List.range p.2).map fun k => s.freshAt c.ref.core (p.1 + k)))

/-- What a collective gives: the fold of the contributions in rank order element by element, the root's bytes, all of them one after
another, or the module's own part of the fold (R207, R279). -/
def CollectiveValues : Prop :=
  ∀ (c : CollOp) (parts : List (List Byte)), c.ty = .i32 ∨ c.ty = .n32 →
    let word (p : List Byte) (i : Nat) : W64 := BitVec.ofNat 64 (leNat ((p.drop (4 * i)).take 4))
    (c.kind = 1 → c.outcome parts = parts.getD c.root []) ∧ (c.kind = 2 → c.outcome parts = parts.flatten) ∧
    (c.kind = 0 → c.op % 8 = 0 → ∀ i, i < c.count → word (c.outcome parts) i = storeInt c.ty false ((parts.map fun p => intOf c.ty (word p i)).sum)) ∧
    (c.kind = 3 → c.op % 8 = 0 → ∀ i, i < c.count →
      word (c.outcome parts) i = storeInt c.ty false ((parts.map fun p => intOf c.ty (word p (c.rank * c.count + i))).sum))

/-- An exchange that brings every contribution writes the result where the use's buffer says and retires the use; one that disagrees ends
it with MISMATCH, as its timeout and an abort flit end it with their causes (R280, R447, R448). -/
def CollectiveEvents : Prop :=
  ∀ s id r o cl f e rest, s.opAt id = some (r, o) → s.entry r = some e → e.ops.filter (fun x => decide (x.cls = 2)) = o :: rest → o.cls = 2 →
    o.kind = .coll cl → o.done = false → o.id = id → e.status = .ready → (∀ x ∈ e.ops, x.id = id → x = o) →
    e.headDone 0 = none → e.headDone 1 = none → s.flightWith id = some f →
    (∀ others ps, cl.complete (others.take cl.rank ++ [cl.local_] ++ others.drop cl.rank) = true →
      let out := cl.outcome (others.take cl.rank ++ [cl.local_] ++ others.drop cl.rank)
      s.check (s.agentOf f) none .store cl.result.1 out.length 1 = .ok ps → (ps.map Prod.snd).sum = out.length → SoundStore s →
      s.dieRoom (s.agentOf f) ps.length → s.mayFill (s.ownerOf f.id) →
      ps.Pairwise (fun p q => p.1 + p.2 ≤ q.1 ∨ q.1 + q.2 ≤ p.1) →
      ∃ t g, exec (.collExchange id true others) s = .next t ∧ t.readPieces ps = out ∧ t.entry r = some g ∧ (∀ x ∈ g.ops, x.id ≠ id) ∧
        (∀ a, (∀ p ∈ ps, a < p.1 ∨ p.1 + p.2 ≤ a) → Memory.read t.mem a = Memory.read s.mem a)) ∧
    (∀ others, ∃ t g, exec (.collExchange id false others) s = .next t ∧ t.entry r = some g ∧ (∀ x ∈ g.ops, x.id ≠ id) ∧
      ∀ x ∈ g.stats, x.id = id → x.code = 5 ∧ x.cause = 2) ∧
    (s.clock < cl.progress + 2 ^ 26 → exec (.collTimeout id) s = .next s) ∧
    (cl.progress + 2 ^ 26 ≤ s.clock → ∃ t g, exec (.collTimeout id) s = .next t ∧ t.entry r = some g ∧ (∀ x ∈ g.ops, x.id ≠ id) ∧
      ∀ x ∈ g.stats, x.id = id → x.code = 5 ∧ x.cause = 5) ∧
    (∀ fn use cause, (∀ y ∈ s.slots, ∀ z ∈ y.entries, ∀ w ∈ z.ops, ∀ d, w.kind = .coll d → d.ident = cl.ident → w.id = id) →
      (∀ y ∈ s.flights, ∀ z ∈ y.saved, ∀ w ∈ z.entries, w.ops = []) → s.fnOf f.id = some fn → cl.use = use →
      (∃ x ∈ s.slots, x.flight = f.id ∧ e ∈ x.entries) →
      ∃ t g, exec (.collAbortFlit fn cl.ident use cause) s = .next t ∧ t.entry r = some g ∧ (∀ x ∈ g.ops, x.id ≠ id) ∧
        ∀ x ∈ g.stats, x.id = id → x.code = 5 ∧ x.cause = cause)

/-- CSTAT writes the status of the operation that a ticket names, of an outstanding copy with the chunks performed so far, and NO_OP where
the store holds none (R273). -/
def StatusReads : Prop :=
  ∀ o s c i0 is, s.here = some c → c.actsOn o = i0 :: is → (Instr.cstat o).WellFormed → c.readable .cstat o = true →
    c.e.canWriteEvery c.ke.regs c.e.activeList true o.d = true →
    ∀ k w, k = ((c.reads .cstat o).a i0).toNat % 2 ^ 32 →
      ((w = 7 ∧ (2 ^ 18 ≤ k ∨ ∀ x ∈ c.e.stats, ¬(x.seq = k % 65536 ∧ x.cls = k / 65536))) ∨
        (∃ x n, k < 2 ^ 18 ∧ c.e.stats.find? (fun x => decide (x.seq = k % 65536 ∧ x.cls = k / 65536)) = some x ∧
          n = (match (c.e.ops.find? fun z => decide (z.id = x.id)).map AsyncOp.kind with
            | some (.copy cp) => cp.performed
            | _ => x.chunks) ∧
          w = BitVec.ofNat 64 (x.code + x.cause * 2 ^ 8 + min n 0xFFFF * 2 ^ 16 + x.sum.toNat * 2 ^ 32))) →
      ∃ t e, exec (.cstat o) s = .next t ∧ OnlyEntry s t e ∧
        WroteEvery ((c.reads .cstat o).e.stepped (longWords o)) e c.ke.regs true false o.d w

/-- CNT writes the entry's four counters, copy, matrix, collective and stream, from the lowest byte up, as a UNI n32, and orders nothing
(R281). -/
def CountersRead : Prop :=
  ∀ o s c, s.here = some c → c.actsOn o ≠ [] → (Instr.cnt o).WellFormed → c.readable .cnt o = true →
    c.e.canWriteEvery c.ke.regs c.e.activeList false o.d = true →
    ∃ t e, exec (.cnt o) s = .next t ∧ OnlyEntry s t e ∧
      WroteEvery ((c.reads .cnt o).e.stepped (longWords o)) e c.ke.regs false false o.d (BitVec.ofNat 64
        (c.e.counts.getD 0 0 + c.e.counts.getD 1 0 * 2 ^ 8 + c.e.counts.getD 2 0 * 2 ^ 16 + c.e.counts.getD 3 0 * 2 ^ 24))

/-- CANCEL of a ticket that names nothing outstanding, or a matrix operation, writes 1; of a copy it writes 0 and the chunks not started
go (R283). -/
def CancelResults : Prop :=
  ∀ o s c i0 is k, (Instr.cancel o).WellFormed → s.here = some c → c.actsOn o = i0 :: is → c.readable .cancel o = true →
    c.e.canWriteEvery c.ke.regs c.e.activeList false o.d = true → k = ((c.reads .cancel o).a i0).toNat % 2 ^ 32 →
    let named (y : AsyncOp) : Prop := ∃ x, c.e.statOf k = some x ∧ c.e.ops.find? (fun z => decide (z.id = x.id)) = some y
    ((∀ y, ¬named y) ∨ (∃ y n, named y ∧ y.kind = .matrix n) → ∃ t e, exec (.cancel o) s = .next t ∧ OnlyEntry s t e ∧
      WroteEvery ((c.reads .cancel o).e.stepped (longWords o)) e c.ke.regs false false o.d 1) ∧
    (∀ y cp, named y → y.kind = .copy cp → y.done = false → (∃ q ∈ cp.chunks, q.started = true) → (∃ q ∈ cp.chunks, q.started = false) →
      (∀ x ∈ s.slots, ∀ e ∈ x.entries, ∀ z ∈ e.ops, z.id = y.id → z = y) → s.opAt y.id = some (s.cur, y) → (∀ j, c.e.headDone j = none) →
      ∃ t e e0 z, exec (.cancel o) s = .next t ∧ t.entry s.cur = some e ∧ z ∈ e.ops ∧
        z = { y with kind := .copy { cp with chunks := cp.chunks.filter Chunk.started, cancelled := true } } ∧
        WroteEvery ((c.reads .cancel o).e.stepped (longWords o)) e0 c.ke.regs false false o.d 0 ∧
        e = { e0 with ops := e.ops, counts := e.counts, stats := e.stats, chain := e.chain, dsts := e.dsts })

/-- STRM starts the stream of a queue from a record of the scratchpad, refused at issue where the record's reserved bits are not 0 or the
queue's stream still runs (R273, R284). -/
def StreamIssue : Prop :=
  ∀ o s c i0 is, (Instr.strm o).WellFormed → SoundStore s → s.here = some c → c.actsOn o = i0 :: is → c.readable .strm o = true →
    c.uniSources .strm o = true → c.e.canWriteEvery c.ke.regs c.e.activeList false o.d = true → c.ref.core < s.cores.length →
    let r := c.reads .strm o
    let off := (r.a i0).toNat % 2 ^ 32
    c.servedSpad false true 16 [(i0, off), (i0, off + 16), (i0, off + 32)] →
    let w := leNat (Memory.readN c.fl.spad off 48)
    let q := o.imm.val % 4
    let size := if o.mod.val = 1 then 8 else 4
    let n (b : Nat) : Nat := max 1 (bits w b 32)
    let st (b : Nat) : Int := signed 32 (bits w b 32)
    let runs := ((c.e.streams.getD q none).map Stream.running).getD false
    (bits w 288 96 ≠ 0 ∨ runs = true → ∃ t, exec (.strm o) s = .next t ∧ Issued c t o (r.e.refuseOp s.nextId 3 6 s.clock) 3) ∧
    (bits w 288 96 = 0 → runs = false → (∀ b ∈ [64, 128, 192, 256], (size : Int) ∣ st b) → n 96 * n 160 * n 224 < 2 ^ 32 →
      c.e.counts.getD 3 0 < 63 →
      (∃ g ∈ c.la.regions, bits g.rights 0 1 = 1 ∧ ∀ i j0 j1 j2, i < c.e.len → j0 < n 96 → j1 < n 160 → j2 < n 224 →
        let a : Int := bits w 0 64 + c.e.posOf i * st 64 + j0 * st 128 + j1 * st 192 + j2 * st 256
        (g.base : Int) ≤ a ∧ a + size ≤ g.base + g.size) →
      ∃ t x, exec (.strm o) s = .next t ∧
        Issued c t o (({ r.e with streams := r.e.streams.set q (some x) } : Entry).issueOp s.nextId 3 s.clock (.stream q)) 3 ∧
        x = ⟨decide (o.mod.val = 1), bits w 0 64, st 64, [n 96, n 160, n 224], [st 128, st 192, st 256], n 96 * n 160 * n 224, 0, [], 0,
          some s.nextId, false⟩)

/-- STRX ends a stream that runs: its queue is empty and D reads 0; where none runs D reads 1 (R285). -/
def StreamEnds : Prop :=
  ∀ o s c i0 is, (Instr.strx o).WellFormed → s.here = some c → c.actsOn o = i0 :: is → c.readable .strx o = true →
    c.e.canWriteEvery c.ke.regs c.e.activeList false o.d = true →
    let q := o.imm.val % 4
    let runs := ((c.e.streams.getD q none).map Stream.running).getD false
    (runs = false → ∃ t e, exec (.strx o) s = .next t ∧ OnlyEntry s t e ∧
      WroteEvery ((c.reads .strx o).e.stepped (longWords o)) e c.ke.regs false false o.d 1) ∧
    (runs = true → q < c.e.streams.length → ∃ t e e0 x, exec (.strx o) s = .next t ∧ t.entry s.cur = some e ∧
      (∀ r, r ≠ s.cur → t.entry r = s.entry r) ∧ e.streams.getD q none = some x ∧ x.queued = [] ∧ x.ended = true ∧
      WroteEvery ((c.reads .strx o).e.stepped (longWords o)) e0 c.ke.regs false false o.d 0 ∧
      e = { e0 with streams := e.streams, ops := e.ops, counts := e.counts, stats := e.stats, chain := e.chain, dsts := e.dsts })

/-- A stream delivers its elements in order: the next row holds, for each live item, the bytes in memory at its address; nothing is
delivered to a full queue or beyond the last element (R71, R284). -/
def StreamDelivers : Prop :=
  ∀ s r c q x, s.ctxAt r = some c → q < c.e.streams.length → c.e.streams.getD q none = some x →
    (x.ended = true ∨ x.total ≤ x.fetched ∨ 16 ≤ x.queued.length → exec (.streamElementDeliver r q) s = .next s) ∧
    (∀ pa : Nat → Nat, x.ended = false → x.fetched < x.total → x.queued.length < 16 → c.fl.state = .resident →
      c.e.status ≠ .done → (s.tier.dies.getD (r.core / 24) []).length + c.e.len ≤ dieLines →
      (∀ y ∈ (s.core r.core).replay, y.kind ≠ 5) → x.counts.length = 3 → (∀ k ∈ x.counts, 0 < k) → x.strides.length = 3 →
      let size := if x.wide then 8 else 4
      let n := x.fetched
      let addr (i : Nat) : Nat := ((x.base + c.e.posOf i * x.istride + (n % x.counts[0]! : Nat) * x.strides[0]! +
        (n / x.counts[0]! % x.counts[1]! : Nat) * x.strides[1]! + (n / (x.counts[0]! * x.counts[1]!) : Nat) * x.strides[2]!) % 2 ^ 64).toNat
      (∀ i, c.e.live i = true → s.check c.agent none .load (addr i) size size = .ok [(pa i, size)]) →
      ∃ t e y row, exec (.streamElementDeliver r q) s = .next t ∧ t.entry r = some e ∧ e.streams.getD q none = some y ∧
        y = { x with queued := x.queued ++ [row], fetched := n + 1 } ∧ t.mem = s.mem ∧
        ∀ i, c.e.live i = true → row.getD i 0 = BitVec.ofNat 64 (leNat (Memory.readN s.mem (pa i) size)))

end Sys2Proof.Claim
end

