-- ==== Sys2Proof/Statements/Encoding.lean ====
section
/-!
DEFINITION. The statements on encodings, on steps and on the invariant of the store, one definition each (Certificates/Slice0/Obligations.lean puts them together).
-/
namespace Sys2Proof.Claim

open Machine

/-! ### Encoding (R137 to R151) -/

/-- The worked encodings of the spec, word by word (R149, R187, R243, R285). -/
def DecodesSpecWords : Prop :=
  decodeWords [0x014480F1, 0x001EFE87, 0x00000800] = .ok (.icmpLong { plainLong with d := .p 2, a := .v 2, b := .s 7, mod := 4 }) ∧
  decodeWords [0x895FC031, 0x001EFF7F, 0x000E0000] = .ok (.brc { plainLong with a := .p 2, imm := 14 }) ∧
  decodeWords [0x00810191, 0x065C0602, 0x00000050] =
    .ok (.ffmaLong { plainLong with d := .v 4, a := .v 1, b := .v 2, c := .v 3, perm := .bfly 3, ty := .f32 }) ∧
  decodeWords [0x02010271, 0x045EFE06, 0x000000D0] =
    .ok (.zntt { plainLong with d := .v 4, a := .v 4, b := .v 6, perm := .bfly 2, ty := .z64 }) ∧
  decodeWords [0x4400C281, 0x001EFF7F, 0x00405A00] = .ok (.ld { plainLong with d := .v 3, a := .s 8, mod := 45, imm := 64 }) ∧
  decodeWords [0x455FC311, 0x001EFE8B, 0x00810470] =
    .ok (.mma { plainLong with a := .s 10, b := .s 11, ty := .bf16, mod := 2, imm := 129 }) ∧
  decodeWords [0x46254B81, 0x001D1C8D, 0x00014200] =
    .ok (.cpyk { plainLong with d := .s 21, a := .s 12, b := .s 13, c := .s 14, mod := 33, imm := 1 }) ∧
  decodeWords [0xBFDFC000] = .ok (.nop ⟨false, .zero, .zero⟩) ∧ decodeWords [0xBFDFC400] = .ok (.exit ⟨false, .zero, .zero⟩)

/-- The bytes of a well-formed instruction decode to it, whatever code follows (R137 to R151). -/
def DecodeEncode : Prop :=
  ∀ i rest, i.WellFormed → i.toRaw ≠ none → decode (encode i ++ rest) = .ok i

/-- The decoder accepts nothing but the words of a well-formed instruction: no bit of an instruction is without meaning, and two
encodings never stand for one instruction (R137 to R151). -/
def DecodedWordsAreCanonical : Prop :=
  ∀ bs i, decode bs = .ok i → i.WellFormed ∧ ∃ rest, wordsOfBytes bs = i.words ++ rest

/-- A step of an entry whose code at the PC decodes runs that instruction, with a window open for it where the hazard detector is on, and
then its clocks pass (R30, R137, R151, R352). -/
def StepRunsDecoded : Prop :=
  ∀ (s t : State) (r : EntryRef) (c : Ctx) (ws : List Nat) (i : Instr) (raw : Raw),
    s.picks = some (r, t) → t.ctxAt r = some c → c.e.status = .ready → c.e.bad = [] →
    c.words = .ok ws → decodeWords ws = .ok i → i.toRaw = some raw → Raw.regsOk raw c.ke.regs = true →
    ∃ d, (t.issuing r c).here = some d ∧
      step s = match exec i ((t.issuing r c).noteWindow r raw) with
        | .next u => .next (u.tick (d.clocks raw))
        | .fault f => .fault f
        | .refused x => .refused x

/-- Code that decodes to no instruction, or that names a v register beyond the kernel's `.regs`, takes ILLEGAL: one step, one
clock, and the fault, whose record carries the words (R65, R151, R396). -/
def StepTakesIllegal : Prop :=
  ∀ (s t : State) (r : EntryRef) (c : Ctx) (ws : List Nat),
    s.picks = some (r, t) → t.ctxAt r = some c → c.words = .ok ws →
    (∀ i raw, decodeWords ws = .ok i → i.toRaw = some raw → Raw.regsOk raw c.ke.regs = false) →
    step s = .next ((c.raise 0 (illegal ws)).tick 1)

/-! ### The whole machine -/

/-- Every step keeps memory and the scratchpads in their canonical form, and never gives a core cache a sector twice. -/
def StepKeepsStore : Prop := ∀ s t, SoundStore s → step s = .next t → SoundStore t

/-- At reset memory lists nothing, and no cache holds anything. -/
def ResetStore : Prop := SoundStore State.reset ∧ State.reset.mem = [] ∧ ∀ k ∈ State.reset.cores, k.cache = []

end Sys2Proof.Claim
end

