-- ==== Sys2Proof/Statements/Launches.lean ====
section
/-!
DEFINITION. The statements on launches, flights, phases and admissions (Certificates/Slice0/Obligations.lean puts them together).
-/
namespace Sys2Proof.Claim

open Machine

/-! ### Launches and admissions (R25 to R28, R55 to R58, R69, R98, R313 to R316, R332 to R338, R353 to R355, R367 to R369, R378 to R380) -/

/-- A refused LAUNCH completes with its status, first cause first: 8 for the physical function, 10 for a parameter length that may not
be, 1 for no kernel, 5 for partitions that may not be named, then the status of R378; a launch of no items completes with 0.  One for which no
tag is free waits, and is tried again after the next pass (R25, R367, R375, R378 to R380). -/
def LaunchRefused : Prop :=
  ∀ s q p i, Heads s q p → pfield p 7 0 = 5 → i = .launch q.fn q.qid ∨ i = .gangReservation q.fn q.qid →
    let plen := pfield p 463 448
    let kernel := s.kernelOf q.fn (BitVec.ofNat 64 (pfield p 255 192))
    let named (k : Nat) : Bool := (pfield p 351 320).testBit k
    let done (st : Nat) : Prop := ∃ t, exec i s = .next t ∧ Finished s t q p st
    (q.tried = true → exec i s = .next s) ∧ (q.tried = false →
    (q.fn = 0 → done 8) ∧
    (q.fn ≠ 0 → plen % 8 ≠ 0 ∨ 4096 < plen → done 10) ∧
    (q.fn ≠ 0 → plen % 8 = 0 → plen ≤ 4096 → kernel = none → done 1) ∧
    (q.fn ≠ 0 → plen % 8 = 0 → plen ≤ 4096 → kernel ≠ none →
      pfield p 351 320 = 0 ∨ 2 ^ 16 ≤ pfield p 351 320 ∨ (∃ k, k < 16 ∧ named k ∧ (s.part k).cur.fns.testBit q.fn = false) → done 5) ∧
    ∀ r, s.readLaunch q.fn p = .ok r → (s.launchStatus q.fn r ≠ 0 → done (s.launchStatus q.fn r)) ∧
      (s.launchStatus q.fn r = 0 → r.n = 0 → done 0) ∧
      (s.launchStatus q.fn r = 0 → r.n ≠ 0 → s.freeTag = none → (2 ≤ r.parts.length ↔ i = .gangReservation q.fn q.qid) →
        ∃ t, exec i s = .next t ∧ t.qcb q.fn q.qid = some { q with tried := true } ∧
          t = { s with queue := { s.queue with qcbs := t.queue.qcbs } }))

/-- What the status of R378 says: 3 for more items than NMAX, for a grant list of another shape, and for regions that overlap; 4 for
deposits that no region holds; 2 for a flight that no named partition can hold; 0 only for a launch that none of these touches. -/
def LaunchStatuses : Prop :=
  ∀ (s : State) fn (r : LaunchReq), let st := s.launchStatus fn r
    (r.k.nmax < r.n ∨ r.nmax < r.n → st = 3) ∧
    (r.grants.length ≠ r.k.grants.length → st = 3) ∧
    (∀ a b : Nat, a < b → ∀ (x y : LRegion), r.regions[a]? = some x → r.regions[b]? = some y → x.base < y.base + y.size → y.base < x.base + x.size → st = 3) ∧
    (st = 0 → r.k.reord = true → ∃ x, r.regions[r.dep]? = some x ∧ 64 * r.n ≤ x.size) ∧
    (st = 0 → r.n ≤ r.k.nmax ∧ (∃ p ∈ r.parts, r.k.lmax ≤ (s.part p).cur.savesz) ∧
      (∃ p ∈ r.parts, ∃ core, core < 96 ∧ (s.part p).cur.pairs.testBit (core / 2) = true ∧
        ∀ n i, r.k.needs[i]? = some n → n.slots ≤ 128 ∧ n.rf ≤ (s.core (core + i)).partBytes 0 ∧
          n.acc ≤ (s.core (core + i)).partBytes 1 ∧ n.spad ≤ (s.core (core + i)).partBytes 2) ∧
      (2 ≤ r.parts.length → ∀ p ∈ r.parts, r.gres ≤ s.capacity p r.k) ∧
      ∀ g x, (g, x) ∈ r.grants.zip r.regions → s.grantFits fn g x.size = true)

/-- LAUNCH over one partition commits: a launch under the lowest free tag with the function's next sequence number, its parameter block
written, its packet under way (R316, R378, R380). -/
def LaunchCommits : Prop :=
  ∀ s q p r tag, Heads s q p → q.tried = false → pfield p 7 0 = 5 → s.readLaunch q.fn p = .ok r → s.launchStatus q.fn r = 0 → r.n ≠ 0 →
    r.parts.length < 2 → s.freeTag = some tag → SoundMemory s → q.fn < s.queue.fns.length →
    ∃ t la, exec (.launch q.fn q.qid) s = .next t ∧ t.launchOf tag = some la ∧ (∀ k, k ≠ tag → t.launchOf k = s.launchOf k) ∧
      la.seqNo = (s.fnBlock q.fn).lseq ∧ la.fn = q.fn ∧ la.owner = q.fn ∧ la.kid = r.k.kid ∧ la.n = r.n ∧ la.seed = (if r.seed = 0 then 1 else r.seed) ∧
      la.cls = r.k.cls ∧ la.parts = r.parts ∧ la.next = 0 ∧ la.nextFlight = 0 ∧ la.phase = 0 ∧ la.recs = [] ∧ la.relaunch = [] ∧
      la.regions = r.grants.map (fun g => ⟨g.base,
        g.fix + g.pitem * r.n + g.pflt * ceilDiv r.n (max 1 (r.k.strands * r.k.width)) + g.ppar * paramValue r.bytes g.param, g.rights⟩) ∧
      la.caddr = pfield p 127 64 ∧ la.cval = BitVec.ofNat 64 (pfield p 191 128) ∧ la.qid = q.qid ∧ la.killed = false ∧
      la.paramVa = Config.paramVa + 65536 * tag ∧
      t.peek ((Config.paramFrames + tag) * 65536) (blockBytes r).length = blockBytes r ∧
      (t.fnBlock q.fn).lseq = ((s.fnBlock q.fn).lseq + 1) % 2 ^ 32 ∧ t.queue.lseed = la.seed ∧
      (∃ x ∈ t.queue.started, x.fn = q.fn ∧ x.qid = q.qid ∧ x.packet = p ∧ x.tag = some tag) ∧
      t.qcb q.fn q.qid = some { q.taken with infl := q.infl + 1 } ∧
      t = { s with launches := t.launches, nextId := s.nextId + 2, mem := t.mem, tier := t.tier, cores := t.cores, tags := t.tags,
                   ttNext := t.ttNext,
                   queue := { s.queue with qcbs := t.queue.qcbs, fns := t.queue.fns, started := t.queue.started, lseed := la.seed,
                                           round := t.queue.round } }

/-- A gang waits for the next pass until every partition that it names has room, and commits nothing until then; once the banks it takes are live too, each
holds its reserved flights at once (R85, R379). -/
def GangReserves : Prop :=
  ∀ s q p r tag, Heads s q p → q.tried = false → pfield p 7 0 = 5 → s.readLaunch q.fn p = .ok r → s.launchStatus q.fn r = 0 → r.n ≠ 0 →
    2 ≤ r.parts.length → s.freeTag = some tag → (∀ f ∈ s.flights, f.tag ≠ tag) →
    ((s.commit q p r tag).placeGang tag r.k r.gres r.parts = none → ∃ t, exec (.gangReservation q.fn q.qid) s = .next t ∧
      t.launches = s.launches ∧ t.flights = s.flights ∧ t.mem = s.mem ∧
      t.qcb q.fn q.qid = some { q with tried := true } ∧ (∀ f n, f ≠ q.fn ∨ n ≠ q.qid → t.qcb f n = s.qcb f n) ∧
      t.queue = { s.queue with qcbs := t.queue.qcbs }) ∧
    (∀ u, (s.commit q p r tag).placeGang tag r.k r.gres r.parts = some u → s.banksLive (u.piecesOf tag) = true →
      ∃ t la, exec (.gangReservation q.fn q.qid) s = .next t ∧ t.launchOf tag = some la ∧ la.kid = r.k.kid ∧ la.n = r.n ∧
        la.nextFlight = r.gres * r.parts.length ∧
        ∀ k ∈ r.parts, (t.flights.filter fun f => decide (f.tag = tag) && decide (f.part = k)).length = r.gres)

/-- FLIGHT_DISPATCH places the next flight of a launch at the site with the most free slots: strand j of flight f starts at item
f × S × W + j × W, at the kernel's first instruction, with every register UNI 0 but s0 to s6 (R26 to R28, R33, R69, R98). -/
def DispatchResults : Prop :=
  (∀ s, s.launches = [] → exec .flightDispatch s = .next s) ∧
  ∀ s la k p area core alloc, s.launches = [la] → s.kernelOf la.fn la.kid = some k → la.killed = false → la.relaunch = [] →
    la.phase = 0 → la.next < la.n → (∀ f ∈ s.flights, f.tag = la.tag → f.state ≠ .saved) → la.parts = [p] → s.budgetOpen p = true →
    s.reservePool p k = some area → s.bestSite k (s.sites p k) = some (core, alloc) → s.banksLive alloc = true →
    s.cores.length = 96 →
    let f := la.nextFlight
    let len := k.strands * k.width
    ∃ t g, exec .flightDispatch s = .next t ∧ t.flights = s.flights ++ [g] ∧ g.id = s.nextId ∧ g.tag = la.tag ∧ g.num = f ∧ g.core = core ∧
      g.pair = k.pair ∧ g.state = .resident ∧ g.part = p ∧ g.saveArea = area ∧ g.lmax = k.lmax ∧ g.alloc = alloc ∧
      g.spadSize = k.spad ∧ g.spad = [] ∧ g.gang = [] ∧ g.maps = List.replicate 8 0 ∧ g.fmt = none ∧ g.bars = [] ∧
      t.launches = [{ la with next := min la.n (la.next + len), nextFlight := f + 1, swept := false }] ∧
      (t.core (2 * (core / 2))).lastOwner = some la.owner ∧
      (∀ x ∈ s.slots, x ∈ t.slots) ∧
      (∀ x ∈ t.slots, x ∉ s.slots → x.flight = s.nextId ∧ x.num < 128 ∧ (x.core = core ∨ (k.pair = true ∧ x.core = core + 1)) ∧
        ∀ y ∈ s.slots, y.core = x.core → y.num ≠ x.num) ∧
      ∀ j, j < k.strands → f * len + j * k.width < la.n → ∃ x ∈ t.slots, ∃ e, x.flight = s.nextId ∧ x.entries = [e] ∧
        e.start = f * len + j * k.width ∧ e.len = min k.width (la.n - (f * len + j * k.width)) ∧ e.width = k.width ∧ e.pc = k.code ∧
        e.status = .ready ∧ e.liveCount = e.len ∧ e.levels = [] ∧ e.snum = j * k.width / 16 ∧
        (∀ n : Fin 128, e.regs[n.val]? = some (.uni 0)) ∧ (∀ n : Fin 8, e.xregs[n.val]? = some (.uni 0)) ∧
        (∀ n : Fin 7, e.preds[n.val]? = some (.uni false)) ∧ e.gen = (if la.seed = 0 then 1 else la.seed) ∧
        e.sAt 0 = BitVec.ofNat 64 la.paramVa ∧ e.sAt 1 = BitVec.ofNat 64 la.n ∧ e.sAt 2 = BitVec.ofNat 64 f ∧
        e.sAt 3 = BitVec.ofNat 64 (f * len) ∧ e.sAt 4 = BitVec.ofNat 64 (j * k.width / 16) ∧ e.sAt 5 = BitVec.ofNat 64 k.width ∧
        e.sAt 6 = BitVec.ofNat 64 (la.qslot % 64 + la.tag % 65536 * 2 ^ 16 + la.seqNo % 2 ^ 32 * 2 ^ 32) ∧
        ∀ n, 7 ≤ n → e.sAt n = 0

/-- STALL_SWEEP: when every flight of a launch has been parked for 64 µs and items are still to place, its flight of the highest number
is asked to be saved; while one flight runs nothing happens (R55). -/
def SweepResults : Prop :=
  ∀ s tag la f, s.launchOf tag = some la → f ∈ s.flights → f.tag = tag → f.state ≠ .saved →
    ((∃ g ∈ s.flights, g.tag = tag ∧ g.state ≠ .saved ∧ g.parkedSince = none) → exec (.stallSweep tag) s = .next s) ∧
    (la.n ≤ la.next → la.relaunch = [] → exec (.stallSweep tag) s = .next s) ∧
    ((∀ g ∈ s.flights, g.tag = tag → g.state ≠ .saved → g.num < f.num ∨ g = f) → s.flightOf f.id = some f → f.state = .resident →
      f.lmax ≠ 0 → f.core < s.cores.length → la.next < la.n ∨ la.relaunch ≠ [] → la.swept = false →
      (∀ g ∈ s.flights, g.tag = tag → g.state ≠ .saved →
        ∃ a, g.parkedSince = some a ∧ max a la.lastSweep + 64 * Config.clocksPerUs ≤ s.clock) →
      ∃ t g, exec (.stallSweep tag) s = .next t ∧ t.flightOf f.id = some g ∧ g = { f with state := .asked } ∧
        (t.core f.core).trapq = (s.core f.core).trapq ++
          [(BitVec.ofNat 64 (2 + s.handleOf f % 128 * 2 ^ 12), BitVec.ofNat 64 f.saveArea)] ∧
        (∀ g ∈ s.flights, g.id ≠ f.id → g ∈ t.flights) ∧ t.launchOf tag = some { la with lastSweep := s.clock, swept := true })

/-- REORDER_PHASE_CLOSE: when no flight of the launch is left, the records of the phase become its next flights (R56, R57). -/
def PhaseCloses : Prop :=
  ∀ s tag la k, s.launchOf tag = some la → s.kernelOf la.fn la.kid = some k →
    ((∃ f ∈ s.flights, f.tag = tag) ∨ la.next < la.n ∨ la.recs = [] → exec (.reorderPhaseClose tag) s = .next s) ∧
    (la.killed = false → la.n ≤ la.next → la.relaunch = [] → la.recs ≠ [] → (∀ f ∈ s.flights, f.tag ≠ tag) →
      ∃ t, exec (.reorderPhaseClose tag) s = .next t ∧
        t.launchOf tag = some { la with phase := la.phase + 1, items := la.recs.length, recs := [],
                                        relaunch := relaunchOf la.recs k.width k.strands } ∧
        (∀ n, n ≠ tag → t.launchOf n = s.launchOf n) ∧ t = { s with launches := t.launches })

/-- The relaunch of a phase: every record once, die by die, sorted by continuation, key and index; a strand holds at most W records of
one continuation and one key, a flight at most S strands, and indices and flight numbers are consecutive (R57). -/
def RelaunchOrder : Prop :=
  ∀ (recs : List RRec) w n, 1 ≤ w → 1 ≤ n → (∀ r ∈ recs, r.die < 4) →
    let fs := relaunchOf recs w n
    let strands := fs.flatMap RFlight.strands
    let all := strands.flatMap RStrand.recs
    all.Perm recs ∧
    (∀ i (f : RFlight), fs[i]? = some f → f.num = i ∧ f.strands ≠ [] ∧ f.strands.length ≤ n ∧ ∀ x ∈ f.strands, ∀ r ∈ x.recs, r.die = f.die) ∧
    (∀ x ∈ strands, x.recs ≠ [] ∧ x.recs.length ≤ w ∧ ∀ r ∈ x.recs, ∀ r' ∈ x.recs, r.key = r'.key ∧ r.cont = r'.cont) ∧
    (∀ i (x : RStrand), strands[i]? = some x → x.start = ((strands.take i).map fun y => y.recs.length).sum) ∧
    (∀ (i j : Nat) (a b : RRec), i < j → all[i]? = some a → all[j]? = some b → a.die < b.die ∨ (a.die = b.die ∧
      (a.cont < b.cont ∨ (a.cont = b.cont ∧ (a.key < b.key ∨ (a.key = b.key ∧ a.index ≤ b.index))))))

/-- A strand of a relaunched flight starts at its continuation with the payload words in v1 to v8, the key in v9 and the former launch
index in v10 of each item (R27, R58, R98). -/
def RelaunchedStrand : Prop :=
  ∀ (la : Launch) (k : Kernel) (f : RFlight) first j (x : RStrand) r0 rest, x.recs = r0 :: rest →
    let e := relaunchStrand la k f first j x
    e.pc = k.code + r0.cont ∧ e.start = x.start ∧ e.len = x.recs.length ∧ e.status = .ready ∧ e.snum = j * (k.width / 16) ∧
      e.gen = phaseSeed la.seed la.phase ∧ e.sAt 1 = BitVec.ofNat 64 la.items ∧ e.sAt 2 = BitVec.ofNat 64 f.num ∧
      (∀ i r, x.recs[i]? = some r → (∀ n, n < 8 → e.vAt (n + 1) i = r.payload.getD n 0) ∧ e.vAt 9 i = BitVec.ofNat 32 r0.key ∧
        e.vAt 10 i = BitVec.ofNat 32 r.index) ∧
      ∀ n i, n = 0 ∨ 11 ≤ n → e.vAt n i = 0

/-- LAUNCH_COMPLETE: with no flight left and no record waiting, every byte stored reaches the coherent tiers, the launch gives up its
tag, and its completion record says 0, or 7 for a launch that was killed, once its open records are closed (R28, R368, R369, R380). -/
def LaunchCompletes : Prop :=
  (∀ s tag la, s.launchOf tag = some la →
    (la.next < la.n ∨ la.relaunch ≠ [] ∨ la.recs ≠ [] ∨ (∃ f ∈ s.flights, f.tag = tag) ∨ (la.killed = true ∧ s.openRecord tag = true) →
      exec (.launchComplete tag) s = .next s) ∧
    ∀ x, la.n ≤ la.next → la.relaunch = [] → la.recs = [] → (∀ f ∈ s.flights, f.tag ≠ tag) → (la.killed = true → s.openRecord tag = false) →
      (s.queue.started.find? fun p => decide (p.tag = some tag)) = some x → s.cores.length = 96 →
      ∃ t, exec (.launchComplete tag) s = .next t ∧ t.launchOf tag = none ∧ (∀ n, n ≠ tag → t.launchOf n = s.launchOf n) ∧
        (∀ k ∈ t.cores, ∀ y ∈ k.cache, y.dirty = false) ∧ Recorded s.cleanAll t x.fn x.packet (if la.killed then 7 else 0) ∧
        (∀ y, y ∈ t.queue.started ↔ y ∈ s.queue.started ∧ y.id ≠ x.id) ∧
        t.qcb x.fn x.qid = (s.qcb x.fn x.qid).map (fun q => { q with infl := q.infl - 1 }) ∧
        t.flights = s.flights ∧ t.slots = s.slots ∧ t.kernels = s.kernels) ∧
  ∀ s core x i, SoundStore s → s.cores.length = 96 → core < 96 → x ∈ (s.core core).cache → i < 128 → x.wrote.getLsbD i = true →
    (∀ k, ∀ y ∈ (s.core k).cache, s.mayFill y.tag) →
    (∀ k, k ≠ core → ∀ y ∈ (s.core k).cache, y.sector = x.sector → y.wrote.getLsbD i = false) →
    Memory.read s.cleanAll.mem (x.sector * 128 + i) = x.byte i

/-- ADMIT: 3 for the physical function; 9 where the object, the grant list or the record's place cannot be reached; 2 where a page of the
object is sealed or under admission; without a free unit it waits; else a unit takes the object, whose page can no longer be written
(R336, R367). -/
def AdmitResults : Prop :=
  ∀ s q p, Heads s q p → pfield p 7 0 = 6 →
    let pages := pagesOf (pfield p 255 192) (pfield p 287 256)
    (q.fn = 0 → ∃ t, exec (.admitPkt q.fn q.qid) s = .next t ∧ Finished s t q p 3) ∧
    (∀ f, q.fn ≠ 0 → s.readAdmit q.fn p = .error (.fault f) → ∃ t, exec (.admitPkt q.fn q.qid) s = .next t ∧ Finished s t q p 9) ∧
    (q.fn ≠ 0 → ∀ b g, s.readAdmit q.fn p = .ok (b, g) →
      (pages.any s.pageTaken = true → ∃ t, exec (.admitPkt q.fn q.qid) s = .next t ∧ Finished s t q p 2) ∧
      (pages.any s.pageTaken = false →
        (s.freeUnit = none → exec (.admitPkt q.fn q.qid) s = .next s) ∧
        ∀ u, s.freeUnit = some u → u < s.queue.units.length → ∃ t x, exec (.admitPkt q.fn q.qid) s = .next t ∧ x ∈ t.queue.started ∧
          x.packet = p ∧ x.unit = some u ∧
          t.queue.units.getD u none = some ⟨q.fn, q.qid, p, s.clock, s.clock + walkClocks b, pages, x.id⟩ ∧
          t.fleet.admitted = true ∧ t.qcb q.fn q.qid = some { q.taken with infl := q.infl + 1 } ∧
          ((∀ k ∈ s.cores, ∀ y ∈ k.cache, y.dirty = false) → SoundMemory s →
            (∀ va l, pages = [va] → s.walk va = .leaf l → t.peekN l.addr 8 = setBits (s.peekN l.addr 8) 10 1 0) ∧
            ∀ va l a, pages = [va] → s.walk va = .leaf l → a < l.addr ∨ l.addr + 8 ≤ a → Memory.read t.mem a = Memory.read s.mem a)))

/-- ADMISSION_COMPLETE: an object that the Arbiter rejects completes with 1 and its rejection record; one that it accepts is a kernel of
the tenant, its code's page sealed, measured in the tenant's log.  Neither happens before the walk has ended and the earlier writes to
its pages are made (R323, R334, R336, R337). -/
def AdmissionResults : Prop :=
  ∀ s unit (a : Admission) (x : Started) b g, s.queue.units.getD unit none = some a →
    (s.queue.started.find? fun x => decide (x.id = a.id)) = some x → s.readAdmit a.fn a.packet = .ok (b, g) → SoundMemory s →
    a.fn < s.sec.mlogs.length → a.fn < 15 → pfield x.packet 127 64 = 0 →
    (s.clock < a.doneAt ∨ s.earlierWrites a.started a.pages = true → exec (.admissionComplete unit) s = .next s) ∧
    (a.doneAt ≤ s.clock → s.earlierWrites a.started a.pages = false →
      let tko := pfield a.packet 255 192
      let kid := BitVec.ofNat 64 (pfield a.packet 447 384)
      let code := (List.range ((4 * pfield b 223 192 + 65535) / 65536)).map fun i => tko + pfield b 191 160 + 65536 * i
      let v := verdict .tenant a.fn tko (code ++ s.codePages) s.fleet.features b g
      ∃ t, exec (.admissionComplete unit) s = .next t ∧ (∀ y, y ∈ t.queue.started ↔ y ∈ s.queue.started ∧ y.id ≠ x.id) ∧
        t.qcb x.fn x.qid = (s.qcb x.fn x.qid).map (fun q => { q with infl := q.infl - 1 }) ∧
        t.queue.units = s.queue.units.set unit none ∧
        (∀ r, v = some r → t.kernels = s.kernels ∧ t.sec = s.sec ∧
          FnWrote (s.restoreWr a.pages) t a.fn (pfield a.packet 511 448) (r.bytes kid)) ∧
        (v = none → ∃ k, t.kernels = k :: s.kernels ∧ k.fn = a.fn ∧ k.owner = a.fn ∧ k.kid = kid ∧ k.image = .tenant ∧
          k.width = pfield b 71 64 ∧ k.regs = pfield b 79 72 ∧ k.strands = pfield b 88 80 ∧ k.pair = decide (pfield b 89 89 = 1) ∧
          k.cls = pfield b 91 90 ∧ k.tiles = pfield b 100 96 ∧ k.acls = pfield b 103 101 ∧ k.spad = pfield b 159 128 ∧
          k.code = tko + pfield b 191 160 ∧ k.words = pfield b 223 192 ∧
          k.nmax = (if pfield g 63 32 = 0 then 2 ^ 32 - 1 else pfield g 63 32) ∧ k.grants.length = pfield g 15 0 ∧ k.unit = unit ∧
          k.sealedAt = s.clock ∧
          t.sec.mlogs.getD a.fn [] = Sha512.digest (s.sec.mlogs.getD a.fn [] ++ measurement b g ++ leBytes 8 kid.toNat) ∧
          ∀ va l, code = [va] → s.walk va = .leaf l → t.peekN l.addr 8 = setBits (s.peekN l.addr 8) 8 1 1))

/-- What the Arbiter's verdict says first: an object off a page boundary, or whose header or tables break their rules, is ADM-ENC-02; then
the grant list's first rejection; then a parameter named N or F; then an encoding that is none at the first word is rejected under its
rule there, ADM-ENC-01 for a reserved opcode, version or length (R137, R151, R319, R323, R332, R353). -/
def VerdictOrder : Prop :=
  ∀ image fn tko pages features b g,
    let sound := tko % 65536 = 0 ∧ headerOk b features = true ∧ tablesOk b = true
    (¬sound → verdict image fn tko pages features b g = some { fam := 1, num := 2 }) ∧
    (∀ r, sound → grantCheck fn pages b g = some r → verdict image fn tko pages features b g = some r) ∧
    (∀ p, sound → grantCheck fn pages b g = none → p ∈ (namesOf b).params → p.1 = "N".toList ∨ p.1 = "F".toList →
      ∃ x, verdict image fn tko pages features b g = some x ∧ x.fam = 1 ∧ x.num = 4 ∧ x.offset = 0xFFFFFFFF) ∧
    (∀ r, sound → grantCheck fn pages b g = none → (∀ p ∈ (namesOf b).params, p.1 ≠ "N".toList ∧ p.1 ≠ "F".toList) →
      let ws := wordsOfBytes ((b.drop (pfield b 191 160)).take (4 * pfield b 223 192))
      Raw.decode ws = .error r → ws ≠ [] →
      ∃ x, verdict image fn tko pages features b g = some x ∧ x.offset = 0 ∧ x.block = 0 ∧ x.field = r.field ∧ (x.fam, x.num) = ruleOf ws r ∧
        (r.kind ≤ 7 ∨ r.kind = 9 → x.fam = 1 ∧ x.num = 1))

end Sys2Proof.Claim
end

