-- ==== Sys2Proof/Statements/Matrix.lean ====
section
/-!
DEFINITION. The statements on gangs, the matrix engine and drains (Certificates/Slice0/Obligations.lean puts them together).
-/
namespace Sys2Proof.Claim

open Machine

/-! ### The matrix engine (R76, R246 to R269, R350) -/

/-- GANG: 5 while an instruction is latched, 6 where the list is no list of strands of the flight, else 0 with the gang set (R249,
R251). -/
def GangResults : Prop :=
  ∀ o s c i0 is w, (Instr.gang o).WellFormed → s.here = some c → c.actsOn o = i0 :: is → c.readable .gang o = true →
    c.uniSources .gang o = true → c.e.canWriteEvery c.ke.regs c.e.activeList false o.d = true → w = ((c.reads .gang o).a i0).toNat →
    let listed := (List.range o.imm.val).map fun j => bits w (10 * j) 10
    let ok := listed.Nodup ∧ (∀ k ∈ listed, s.hasStrand c.fl.id k = true) ∧ ∀ j, o.imm.val ≤ j → j < 6 → bits w (10 * j) 10 = 0
    let gives (u : State) (code : W64) : Prop := ∃ t e, exec (.gang o) s = .next t ∧ OnlyEntry u t e ∧
      WroteEvery ((c.reads .gang o).e.stepped (longWords o)) e c.ke.regs false false o.d code
    (c.fl.latch ≠ none → gives s 5) ∧ (c.fl.latch = none → ¬ok → gives s 6) ∧
      (c.fl.latch = none → ok → gives (s.modFlight c.fl.id fun f => { f with gang := listed, gangE := o.mod.val }) 0)

/-- FBLK and AMAP load a record of the flight's scratchpad into the format register and a map register when it is valid, and say so in D;
another leaves them and gives FBLK_BAD and MAP_BAD (R253, R255). -/
def MatrixRegisters : Prop :=
  ∀ o s c i0 is, s.here = some c → c.actsOn o = i0 :: is → c.e.canWriteEvery c.ke.regs c.e.activeList false o.d = true →
    let word (op : Op) (n : Nat) : Nat := leNat (Memory.readN c.fl.spad (((c.reads op o).a i0).toNat % 2 ^ 32) n)
    let ready (op : Op) (n : Nat) : Prop := c.readable op o = true ∧ c.uniSources op o = true ∧
      c.servedSpad false true n [(i0, ((c.reads op o).a i0).toNat % 2 ^ 32)]
    let gives (i : Instr) (op : Op) (u : State) (code : W64) : Prop := ∃ t e, exec i s = .next t ∧ OnlyEntry u t e ∧
      WroteEvery ((c.reads op o).e.ordered (longWords o) c.e.window) e c.ke.regs false false o.d code
    ((Instr.fblk o).WellFormed → ready .fblk 64 →
      let b := BitVec.ofNat 512 (word .fblk 64)
      (fmtValid b = true → gives (.fblk o) .fblk (s.modFlight c.fl.id fun f => { f with fmt := some b }) 0) ∧
      (fmtValid b = false → gives (.fblk o) .fblk s 7)) ∧
    ((Instr.amap o).WellFormed → ready .amap 16 →
      let m := BitVec.ofNat 128 (word .amap 16)
      (mapValid m c.fl.spadSize = true →
        gives (.amap o) .amap (s.modFlight c.fl.id fun f => { f with maps := f.maps.set (o.imm.val % 8) m }) 0) ∧
      (mapValid m c.fl.spadSize = false → gives (.amap o) .amap s 8))

/-- MMA, MMAS and ZMMA of a strand.  With no gang the instruction enters the engine queue at once and its issuer goes on with one
operation more.  The first member of a gang leaves it at the latch and waits; the last to arrive with the same instruction lets it into
the queue, and every member goes on (R249 to R252, R72). -/
def MultiplyIssue : Prop :=
  ∀ i op o s c i0 is a b q, ((i = .mma o ∧ op = .mma ∧ q = none) ∨ (i = .mmas o ∧ op = .mmas ∧ q = none) ∨
      (i = .zmma o ∧ op = .zmma ∧ q = c.e.modctx ∧ q ≠ none)) →
    i.WellFormed → s.here = some c → c.actsOn o = i0 :: is → c.readable op o = true → c.uniSources op o = true →
    a = (c.reads op o).a i0 → b = (c.reads op o).b i0 → c.e.counts.getD 1 0 < 63 →
    let n := s.nextId
    let core := c.fl.tileCore (tileNo o)
    let due := waitUntil s.clock c.fl.gangE
    let e (id : Nat) := (c.reads op o).e.issueOp n 1 s.clock (.matrix id)
    (s.gangLeft c.fl = [] → c.fresh (n + 1) → c.engineFree op o core →
      ∃ t, exec i s = .next t ∧ EngineTook c t ⟨n + 1, op, o, a, b, 0, q, core, none⟩ ∧
        t.entry s.cur = some ((e (n + 1)).stepped (longWords o)) ∧ ∀ r, r ≠ s.cur → t.entry r = s.entry r) ∧
    (c.e.snum ∈ s.gangLeft c.fl → c.fl.latch = none → c.fresh (n + 1) →
      (∃ r x y, r ≠ s.cur ∧ s.slot r.core r.slot = some x ∧ x.flight = c.fl.id ∧ s.entry r = some y ∧ y.snum ∈ c.fl.gang ∧
        y.snum ≠ c.e.snum ∧ y.liveCount ≠ 0) →
      ∃ t g, exec i s = .next t ∧ t.entry s.cur = some { e (n + 1) with status := .parked (.latch (n + 1)) due } ∧
        (∀ r, r ≠ s.cur → t.entry r = s.entry r) ∧ t = { s with slots := t.slots, flights := t.flights, nextId := t.nextId } ∧
        t.flightOf c.fl.id = some g ∧ g = { c.fl with latch := some ⟨n + 1, op, o, a, b, 0, q, core, due⟩ }) ∧
    (∀ p, c.fl.latch = some p → p.op = op → p.o = o → p.a = a → p.b = b → p.q = q → c.e.snum ∈ s.gangLeft c.fl → c.engineFree op o p.core →
      (∀ k ∈ s.gangLeft c.fl, k ≠ c.e.snum → ∃ r x y, r ≠ s.cur ∧ s.slot r.core r.slot = some x ∧ x.flight = c.fl.id ∧
        s.entry r = some y ∧ y.snum = k ∧ y.awaits p.id = true) →
      ∃ t, exec i s = .next t ∧ EngineTook c t p ∧ t.entry s.cur = some ((e p.id).stepped (longWords o)) ∧
        ∀ r y, r ≠ s.cur → s.entry r = some y →
          t.entry r = some (if y.awaits p.id then { y.stepped (longWords o) with status := .ready } else y))

/-- A multiply from a strand outside its flight's gang, or one that differs from the instruction latched, raises GANG_MISMATCH; the issuer
whose matrix counter stands at 63 is held until it falls (R72, R251). -/
def MultiplyStops : Prop :=
  ∀ i op o s c i0 is a b q, ((i = .mma o ∧ op = .mma ∧ q = none) ∨ (i = .mmas o ∧ op = .mmas ∧ q = none) ∨
      (i = .zmma o ∧ op = .zmma ∧ q = c.e.modctx ∧ q ≠ none)) →
    i.WellFormed → s.here = some c → c.actsOn o = i0 :: is → c.readable op o = true → c.uniSources op o = true →
    a = (c.reads op o).a i0 → b = (c.reads op o).b i0 →
    (63 ≤ c.e.counts.getD 1 0 → ∃ t, exec i s = .next t ∧ OnlyEntry s t { c.e with status := .held (.counter 1) }) ∧
    (c.e.counts.getD 1 0 < 63 → s.gangLeft c.fl ≠ [] → c.e.snum ∉ s.gangLeft c.fl →
      exec i s = .next (c.raise (longWords o) (s.gangFault c.fl ((c.fl.latch.map Latch.id).getD 0) 1))) ∧
    (∀ p, c.e.counts.getD 1 0 < 63 → c.e.snum ∈ s.gangLeft c.fl → c.fl.latch = some p →
      ¬(p.op = op ∧ p.o = o ∧ p.a = a ∧ p.b = b ∧ p.q = q) → exec i s = .next (c.raise (longWords o) (s.gangFault c.fl p.id 2)))

/-- CMPR, ACLR, ALD, AST, AMOV, ASCL and the drains enter the queue of their tile's core, CMPR of its own.  A drain's issuer goes on; that
of the others is held until the engine is done (R252, R262 to R267). -/
def EngineIssue : Prop :=
  ∀ i op o s c i0 is core, ((i = .cmpr o ∧ op = .cmpr ∧ core = s.cur.core) ∨
      (((i = .aclr o ∧ op = .aclr) ∨ (i = .ald o ∧ op = .ald) ∨ (i = .ast o ∧ op = .ast) ∨ (i = .amov o ∧ op = .amov) ∨
        (i = .ascl o ∧ op = .ascl) ∨ (i = .adrain o ∧ op = .adrain) ∨ (i = .adrainMem o ∧ op = .adrain)) ∧
        core = c.fl.tileCore (tileNo o))) →
    i.WellFormed → s.here = some c → c.actsOn o = i0 :: is → c.readable op o = true → c.uniSources op o = true →
    (o.ty = .z64 → (op = .ascl ∨ op = .adrain) → c.e.modctx ≠ none) → (op = .adrain → c.e.counts.getD 1 0 < 63) →
    c.fresh (s.nextId + 1) → c.engineFree op o core →
    let n := s.nextId
    let r := c.reads op o
    let q := if o.ty = .z64 ∧ (op = .ascl ∨ op = .adrain) then c.e.modctx else none
    ∃ t, exec i s = .next t ∧ EngineTook c t ⟨n + 1, op, o, r.a i0, r.b i0, r.c i0, q, core, none⟩ ∧
      t.entry s.cur = some (if op = .adrain then (r.e.issueOp n 1 s.clock (.matrix (n + 1))).stepped (longWords o)
        else { r.e with status := .held (.engine (n + 1)) }) ∧ ∀ k, k ≠ s.cur → t.entry k = s.entry k

/-- A full queue takes nothing: the instruction waits behind those of its flight that wait already, its issuer held, and enters when a
place is free (R252). -/
def EngineFull : Prop :=
  (∀ o s c i0 is, (Instr.aclr o).WellFormed → s.here = some c → c.actsOn o = i0 :: is → c.readable .aclr o = true →
    c.uniSources .aclr o = true → 8 ≤ (s.core (c.fl.tileCore (tileNo o))).queue.length →
    ∃ t g, exec (.aclr o) s = .next t ∧ t.cores = s.cores ∧ t.flightOf c.fl.id = some g ∧
      g = { c.fl with released := c.fl.released ++ [⟨s.nextId + 1, .aclr, o, (c.reads .aclr o).a i0, (c.reads .aclr o).b i0,
        (c.reads .aclr o).c i0, none, c.fl.tileCore (tileNo o), none⟩] } ∧
      t.entry s.cur = some { (c.reads .aclr o).e with status := .held (.engine (s.nextId + 1)) }) ∧
  (∀ s fid f p ps, s.flightOf fid = some f → f.released = p :: ps → (∀ x ∈ ps, x.id ≠ p.id) → p.core < s.cores.length →
    (s.core p.core).queue.length < 8 → (p.o.ty = .b8 → f.fmt ≠ none) → badMap f.maps p.op p.o = none →
    ∃ t g x, exec (.engineQueueEnter fid) s = .next t ∧ (t.core p.core).queue = (s.core p.core).queue ++ [x] ∧ x.id = p.id ∧ x.op = p.op ∧
      x.o = p.o ∧ x.a = p.a ∧ x.b = p.b ∧ x.c = p.c ∧ x.started = none ∧ x.maps = f.maps ∧ x.fmt = f.fmt ∧
      t.flightOf fid = some g ∧ g.released = ps)

/-- A map that an instruction cannot use, or a binary8 instruction without a format register, raises MATRIX_OPERAND, which kills the
launch: none of its flights is left (R253, R258, R394). -/
def MatrixOperandKills : Prop :=
  ∀ i op o core s c i0 is, ((i = .ald o ∧ op = .ald ∧ core = c.fl.tileCore (tileNo o)) ∨ (i = .cmpr o ∧ op = .cmpr ∧ core = s.cur.core)) →
    i.WellFormed → s.here = some c → c.actsOn o = i0 :: is → c.readable op o = true →
    c.uniSources op o = true → c.fresh (s.nextId + 1) → (s.core core).queue.length < 8 →
    (∀ f ∈ s.flights, ∀ x ∈ f.released, x.core ≠ core) → (badMap c.fl.maps op o).isSome ∨ (o.ty = .b8 ∧ c.fl.fmt = none) →
    ∃ t, exec i s = .next t ∧ ∀ f ∈ t.flights, f.tag ≠ c.fl.tag

/-- The engine of a core starts the head of its queue, nothing while the patrol tests the core or a bank of the flight is not live, and no second instruction before the one
in the engine has had its clocks there (R85, R350, R453). -/
def EngineStarts : Prop :=
  ∀ s core, core < s.cores.length →
    (s.engineDrained core = true → exec (.matrixEngineStart core) s = .next s) ∧
    (∀ x xs, s.engineDrained core = false → (s.core core).queue = x :: xs → x.started = none → (∀ y ∈ xs, y.id ≠ x.id) →
      let live := s.banksLive (((s.flightOf x.flight).map Flight.alloc).getD [])
      (live = false → exec (.matrixEngineStart core) s = .next s) ∧ (live = true → ∃ t, exec (.matrixEngineStart core) s = .next t ∧ (t.core core).queue = { x with started := some s.clock } :: xs ∧
        t = { s with cores := t.cores, fleet := t.fleet })) ∧
    (∀ x y ys t0, (s.core core).queue = x :: y :: ys → x.started = some t0 → y.started = none → s.clock < t0 + x.clocks →
      exec (.matrixEngineStart core) s = .next s)

/-- A multiply retires 24 clocks after it leaves the engine: its tile holds the results, every other tile and the scratchpad stay, and the
queue loses it (R260, R350). -/
def MultiplyRetires : Prop :=
  ∀ s core x xs f t0, core < s.cores.length → (s.core core).queue = x :: xs → (∀ y ∈ xs, y.id ≠ x.id) → x.started = some t0 →
    t0 + x.clocks + 24 ≤ s.clock → isMultiply x.op = true → s.flightOf x.flight = some f → f.spoiled = [] →
    tileNo x.o < f.tiles.length → (∀ y ∈ s.slots, ∀ e ∈ y.entries, ∀ o ∈ e.ops, o.kind ≠ .matrix x.id) →
    (∀ g ∈ s.flights, ∀ y ∈ g.saved, ∀ e ∈ y.entries, ∀ o ∈ e.ops, o.kind ≠ .matrix x.id) →
    ∃ t g, exec (.matrixRetire core) s = .next t ∧ (t.core core).queue = xs ∧ t.flightOf x.flight = some g ∧
      g.tile (tileNo x.o) = mmaTile (x.sight f s.draws) x.op x.o (fmtBlock (x.fmt.getD 0)) (modulusOf x.q) (x.map 0) (x.map 1)
        (x.map 2) x.a x.b (f.tile (tileNo x.o)) ∧
      (∀ m, m ≠ tileNo x.o → g.tile m = f.tile m) ∧ g.spad = f.spad ∧ (∀ a, Memory.read t.mem a = Memory.read s.mem a)

/-- Retirement counts down: the oldest operation of its class, once performed, leaves the entry, its class counts one less,
and no register changes (R72, R129). -/
def OperationsRetire : Prop :=
  ∀ (e : Entry) (o : AsyncOp) rest n, e.ops.filter (fun x => decide (x.cls = 1)) = o :: rest → o.cls = 1 → o.done = true → o.kind = .matrix n →
    e.headDone 0 = none → (∀ x ∈ rest, x.done = false) → e.headDone 2 = none → e.headDone 3 = none → (∀ x ∈ e.ops, x ≠ o → x.id ≠ o.id) →
    1 < e.counts.length → (e.retireAll 256).counts.getD 1 0 = e.counts.getD 1 0 - 1 ∧
      (e.retireAll 256).ops = e.ops.filter (fun x => decide (x.id ≠ o.id)) ∧ (e.retireAll 256).regs = e.regs ∧ (e.retireAll 256).pc = e.pc

/-- An I8 or N8 multiply adds to each element the exact sum of the products over K, elements outside an extent left out, and stores it
once by Wrap; `.init` starts from 0 (R254, R257, R260). -/
def IntegerProducts : Prop :=
  ∀ (v : Sight) (o : Long) fb q ma mb mm (ra rb : W64) t i j, o.ty = .i8 ∨ o.ty = .n8 → i < 128 → j < 192 →
    let num (w : Nat) : Int := if o.ty = .i8 then signed 8 w else w
    let prior : Int := if o.mod.val % 2 = 1 then 0 else intOf .i32 ((denseTile t 0 (128 * 192)).getD (192 * i + j) 0)
    (denseTile (mmaTile v .mma o fb q ma mb mm ra rb t) 0 (128 * 192)).getD (192 * i + j) 0 =
      storeInt .i32 false (prior + ((List.range 64).map fun k =>
        (v.elem ma (originRow ra + i) (originCol ra + k)).elim 0 num * (v.elem mb (originRow rb + k) (originCol rb + j)).elim 0 num).sum)

/-- A ZMMA adds to each element the sum of the Montgomery products over K modulo q (R107, R260). -/
def ResidueProducts : Prop :=
  ∀ (v : Sight) (o : Long) fb q qn ma mb mm (ra rb : W64) t i j, o.ty = .z64 → i < 16 → j < 32 → 0 < q → q < 2 ^ 64 →
    let prior : Nat := if o.mod.val % 2 = 1 then 0 else ((denseTile t 0 (16 * 32)).getD (32 * i + j) 0).toNat % q
    (denseTile (mmaTile v .zmma o fb (q, qn) ma mb mm ra rb t) 0 (16 * 32)).getD (32 * i + j) 0 =
      BitVec.ofNat 64 ((prior + ((List.range 32).map fun k =>
        (v.elem ma (originRow ra + i) (originCol ra + k)).elim 0 fun x => (v.elem mb (originRow rb + k) (originCol rb + j)).elim 0 fun y =>
          mont q qn (x % q) (y % q)).sum) % q)

/-- The elements of a tile inside the extent of a map take their places of the scratchpad, the others read as 0 there (R256, R257). -/
def MapPlaces : Prop :=
  (∀ (w : BitVec 128) alloc r c, mapValid w alloc = true → r < (opMap w).rows → c < (opMap w).cols →
    ∃ a, (opMap w).at r c = some a ∧ a % 2 ^ (opMap w).esz = 0 ∧ a + 2 ^ (opMap w).esz ≤ alloc) ∧
  (∀ (w : BitVec 128) alloc r c r' c' a a', mapValid w alloc = true → (opMap w).at r c = some a → (opMap w).at r' c' = some a' →
    (r, c) ≠ (r', c') → a + 2 ^ (opMap w).esz ≤ a' ∨ a' + 2 ^ (opMap w).esz ≤ a) ∧
  ∀ (m : OpMap) r c, m.rows ≤ r ∨ m.cols ≤ c → m.at r c = none

/-- An instruction that holds its issuer is done 8 clocks after it leaves the engine: the flight is as the instruction leaves it, and the
issuer goes on, CMPR with 0 in D (R262, R264, R265, R350). -/
def EngineCompletes : Prop :=
  ∀ s core x xs f t0 r y, core < s.cores.length → (s.core core).queue = x :: xs → (∀ z ∈ xs, z.id ≠ x.id) → x.started = some t0 →
    t0 + x.clocks + 8 ≤ s.clock → goesOn x.op = false → s.flightOf x.flight = some f → f.spoiled = [] → s.entry r = some y →
    y.status = .held (.engine x.id) →
    ∃ t e, exec (.syncMatrixComplete core) s = .next t ∧ (t.core core).queue = xs ∧
      t.flightOf x.flight = some (x.sync f (s.dimsOf f).1 (s.dimsOf f).2) ∧ t.entry r = some e ∧
      (x.op ≠ .cmpr → e = { y.stepped (longWords x.o) with status := .ready }) ∧
      (x.op = .cmpr → y.canWriteEvery (s.regsOf r) y.activeList false x.o.d = true →
        WroteEvery { y.stepped (longWords x.o) with status := .ready } e (s.regsOf r) false false x.o.d 0) ∧
      (∀ k z, s.entry k = some z → z.awaits x.id = false → t.entry k = some z) ∧ ∀ a, Memory.read t.mem a = Memory.read s.mem a

/-- What the accumulator instructions leave: ACLR a tile of zeros, ALD the elements of a map, AMOV a copy of another tile, ASCL each
element times B's value, AST the elements in the scratchpad; every other tile stays (R264). -/
def AccumulatorResults : Prop :=
  ∀ (x : EngInstr) (f : Flight) nm nn i j, tileNo x.o < f.tiles.length → i < nm → j < nn →
    let at_ (g : Flight) (n : Nat) : W64 := (denseTile (g.tile n) 0 (nm * nn)).getD (nn * i + j) 0
    let n := tileNo x.o
    (∀ m, m ≠ n → (x.sync f nm nn).tile m = f.tile m) ∧
    (x.op = .aclr → at_ (x.sync f nm nn) n = 0 ∧ (x.sync f nm nn).spad = f.spad) ∧
    (x.op = .amov → at_ (x.sync f nm nn) n = at_ f (x.o.imm.val / 16) ∧ (x.sync f nm nn).spad = f.spad) ∧
    (x.op = .ald → at_ (x.sync f nm nn) n = (((x.map 0).at (originRow x.a + i) (originCol x.a + j)).elim 0 fun a =>
      BitVec.ofNat 64 (leNat (Memory.readN f.spad a (2 ^ (x.map 0).esz)))) ∧ (x.sync f nm nn).spad = f.spad) ∧
    (x.op = .ascl → (x.o.ty = .i32 ∨ x.o.ty = .n32) →
      at_ (x.sync f nm nn) n = storeInt x.o.ty (decide (x.o.mod.val = 1)) (intOf x.o.ty (at_ f n) * intOf x.o.ty x.a)) ∧
    (x.op = .ast → ∀ w alloc a, x.map 0 = opMap w → mapValid w alloc = true → Memory.wf f.spad = true →
      (x.map 0).at (originRow x.a + i) (originCol x.a + j) = some a →
      (x.sync f nm nn).tile n = f.tile n ∧ Memory.readN (x.sync f nm nn).spad a (2 ^ (x.map 0).esz) =
        leBytes (2 ^ (x.map 0).esz) (at_ f n).toNat)

/-- CMPR keeps of each group as many elements as it says, in their order, and none of those it leaves out ranks above one it keeps; of
equal ranks the lower index is kept (R262). -/
def CompressKeeps : Prop :=
  ∀ (ranks : List Nat) kept, kept ≤ ranks.length →
    (keptOf ranks kept).length = kept ∧ (keptOf ranks kept).Pairwise (· < ·) ∧
      ∀ j m, j ∈ keptOf ranks kept → m ∉ keptOf ranks kept → m < ranks.length →
        ranks.getD m 0 ≤ ranks.getD j 0 ∧ (ranks.getD m 0 = ranks.getD j 0 → j < m)

/-- A drain to scratchpad, once it has left the engine, adds each element of its tile inside the map's extent to the element that stands
there, or puts it there under `.set`; `.clr` clears the tile; nothing else of the flight or of memory changes (R266, R267). -/
def DrainsToScratchpad : Prop :=
  ∀ s core x xs f t0 nm nn, core < s.cores.length → (s.core core).queue = x :: xs → (∀ z ∈ xs, z.id ≠ x.id) → x.started = some t0 →
    t0 + x.clocks ≤ s.clock → x.op = .adrain → x.o.mod.val % 2 = 0 → x.parked = false → (s.core core).drains = [] →
    s.flightOf x.flight = some f → f.spoiled = [] → s.dimsOf f = (nm, nn) → tileNo x.o < f.tiles.length → Memory.wf f.spad = true →
    (∀ y ∈ s.slots, ∀ e ∈ y.entries, ∀ o ∈ e.ops, o.kind ≠ .matrix x.id) →
    (∀ g ∈ s.flights, ∀ y ∈ g.saved, ∀ e ∈ y.entries, ∀ o ∈ e.ops, o.kind ≠ .matrix x.id) →
    ∀ w, x.map 0 = opMap w → mapValid w f.spadSize = true →
    let n := 2 ^ (x.map 0).esz
    let place (i j : Nat) : Option Nat := (x.map 0).at (originRow x.a + i) (originCol x.a + j)
    ∃ t g, exec (.drainPerform core) s = .next t ∧ (t.core core).queue = xs ∧ (t.core core).drains = [] ∧ t.flightOf x.flight = some g ∧
      (∀ i j a, i < nm → j < nn → place i j = some a → Memory.readN g.spad a n =
        leBytes n (drainElem x.o.ty (decide (x.o.mod.val / 2 % 2 = 1)) (modulusOf x.q) (BitVec.ofNat 64 (leNat (Memory.readN f.spad a n)))
          ((denseTile (f.tile (tileNo x.o)) 0 (nm * nn)).getD (nn * i + j) 0)).toNat) ∧
      (∀ b, (∀ i j a, i < nm → j < nn → place i j = some a → b < a ∨ a + n ≤ b) → Memory.read g.spad b = Memory.read f.spad b) ∧
      (∀ m, g.tile m = if m = tileNo x.o ∧ x.o.mod.val / 4 % 2 = 1 then [] else f.tile m) ∧
      ∀ a, Memory.read t.mem a = Memory.read s.mem a

/-- A drain to memory whose rows are all served, now and while it writes, leaves each element of its tile inside the rows and columns of C in device memory, added
to what stood there or put there under `.set`, and changes no other byte of memory but what its flight's cores had already stored in the
sectors that it reaches (R128, R266, R267). -/
def DrainsToMemory : Prop :=
  ∀ s core x f nm nn (pa : Nat → Nat → Nat), SoundStore s → core < s.cores.length → (s.core core).queue = [] → (s.core core).drains = [x] → x.parked = false →
    x.op = .adrain → x.o.mod.val % 2 = 1 → s.flightOf x.flight = some f → s.dimsOf f = (nm, nn) → x.o.ty.bytes ∣ x.b.toNat →
    (∀ y ∈ s.slots, ∀ e ∈ y.entries, ∀ o ∈ e.ops, o.kind ≠ .matrix x.id) →
    (∀ g ∈ s.flights, ∀ y ∈ g.saved, ∀ e ∈ y.entries, ∀ o ∈ e.ops, o.kind ≠ .matrix x.id) →
    let n := x.o.ty.bytes
    let rows := min (bits x.c.toNat 0 16) nm
    let cols := min (bits x.c.toNat 16 16) nn
    let va (i j : Nat) : Nat := (x.a.toNat + i * (x.b.toNat % 2 ^ 32) + j * n) % 2 ^ 64
    (∀ i, i < rows → ∃ ps, s.check (s.agentOf f) none .drain ((x.a.toNat + i * (x.b.toNat % 2 ^ 32)) % 2 ^ 64) (cols * n) n = .ok ps ∧
      ∀ j, j < cols → ∃ p ∈ ps, pa i j / 128 = p.1 / 128) →
    (s.tier.dies.getD (f.core / 24) []).length + (s.core core).cache.length + rows * cols ≤ dieLines → s.mayFill (s.agentOf f).owner →
    (∀ y ∈ (s.core core).cache, s.mayFill y.tag) →
    (∀ u : State, u = { s with mem := u.mem, cores := u.cores, tier := u.tier } → s.tier.regroups u.tier →
      (∀ k, s.onPkg k = true → u.onPkg k = true) → (∀ a, Memory.read u.mem a = Memory.read s.mem a ∨ Memory.read u.mem a = s.freshAt core a ∨
        ∃ i j, i < rows ∧ j < cols ∧ pa i j ≤ a ∧ a < pa i j + n) →
      ∀ i j, i < rows → j < cols → u.check (s.agentOf f) none .drain (va i j) n n = .ok [(pa i j, n)] ∧ pa i j % 128 + n ≤ 128) →
    (∀ i j i' j', i < rows → j < cols → i' < rows → j' < cols → (i, j) ≠ (i', j') → pa i j + n ≤ pa i' j' ∨ pa i' j' + n ≤ pa i j) →
    f.pair = false → f.core = core →
    ∃ t, exec (.drainPerform core) s = .next t ∧ (t.core core).drains = [] ∧
      (∀ i j k, i < rows → j < cols → k < n → Memory.read t.mem (pa i j + k) =
        (leBytes n (drainElem x.o.ty (decide (x.o.mod.val / 2 % 2 = 1)) (modulusOf x.q)
          (BitVec.ofNat 64 (leNat ((List.range n).map fun m => s.freshAt core (pa i j + m))))
          ((denseTile x.data 0 (nm * nn)).getD (nn * i + j) 0)).toNat).getD k 0) ∧
      ∀ a, (∀ i j, i < rows → j < cols → a < pa i j ∨ pa i j + n ≤ a) →
        Memory.read t.mem a = Memory.read s.mem a ∨ Memory.read t.mem a = s.freshAt core a

/-- What a drain makes of an element (R266). -/
def DrainValues : Prop :=
  ∀ q qn (d x : W64), 0 < q → q < 2 ^ 63 →
    (∀ t : Ty, t = .i32 ∨ t = .n32 → drainElem t false (q, qn) d x = storeInt t false (intOf t d + intOf t x) ∧ drainElem t true (q, qn) d x = x) ∧
    (drainElem .z64 false (q, qn) d x).toNat = (d.toNat + x.toNat) % q ∧ (drainElem .z64 true (q, qn) d x).toNat = x.toNat % q ∧
    ∀ t : Ty, t = .f32 ∨ t = .f64 → drainElem t false (q, qn) d x = BitVec.ofNat 64 (Float.fadd (fmtOf t) .rne (patOf t d) (patOf t x)) ∧
      drainElem t true (q, qn) d x = x

/-- A strand that has ended leaves its gang, and the latched instruction is let in when the others have arrived; one that is left stays.
The latch's wait ends at its deadline with GANG_MISMATCH, which kills the launch (R54, R250, R251). -/
def GangEvents : Prop :=
  ∀ s fid f n, s.flightOf fid = some f →
    (f.latch = none → s.hasStrand fid n = false → n ∈ f.gang → ∃ t g, exec (.gangMemberLeave fid n) s = .next t ∧
      t.flightOf fid = some g ∧ g = { f with gang := f.gang.filter fun k => k ≠ n } ∧ (∀ k, k ≠ fid → t.flightOf k = s.flightOf k) ∧
      t = { s with flights := t.flights }) ∧
    (f.latch = none → s.hasStrand fid n = true ∨ n ∉ f.gang → exec (.gangMemberLeave fid n) s = .next s) ∧
    (∀ p, f.latch = some p → s.hasStrand fid n = true ∨ n ∉ f.gang → (∃ k ∈ s.gangLeft f, k ∉ s.arrivedAt fid p.id) →
      exec (.gangMemberLeave fid n) s = .next s) ∧
    (∀ p, f.latch = some p → n ∈ f.gang → s.hasStrand fid n = false → (∀ k ∈ s.gangLeft f, k ∈ s.arrivedAt fid p.id) →
      isMultiply p.op = true → p.core < s.cores.length → (s.core p.core).queue.length < 8 →
      (∀ g ∈ s.flights, ∀ x ∈ g.released, x.core ≠ p.core) → (p.o.ty = .b8 → f.fmt ≠ none) → badMap f.maps p.op p.o = none →
      ∃ t g x, exec (.gangMemberLeave fid n) s = .next t ∧ (t.core p.core).queue = (s.core p.core).queue ++ [x] ∧ x.id = p.id ∧ x.op = p.op ∧
        x.o = p.o ∧ x.a = p.a ∧ x.b = p.b ∧ x.q = p.q ∧ t.flightOf fid = some g ∧ g.latch = none ∧ g.gang = f.gang.filter (fun k => k ≠ n) ∧
        ∀ r y, s.entry r = some y → t.entry r = some (if y.awaits p.id then { y.stepped (longWords p.o) with status := .ready } else y)) ∧
    (f.latch = none → exec (.gangLatchTimeout fid) s = .next s) ∧
    (∀ p d, f.latch = some p → p.deadline = some d → s.clock < d → exec (.gangLatchTimeout fid) s = .next s) ∧
    (∀ p d r x y, f.latch = some p → p.deadline = some d → d ≤ s.clock → s.slot r.core r.slot = some x → x.flight = fid → s.entry r = some y →
      y.awaits p.id = true → (∀ z ∈ s.slots, ∀ e ∈ z.entries, e.awaits p.id = true → z.flight = fid → s.slot z.core z.num = some z) →
      (∃ la, s.launchOf f.tag = some la ∧ (s.kernelOf la.fn la.kid).isSome) →
      ∃ t, exec (.gangLatchTimeout fid) s = .next t ∧ ∀ g ∈ t.flights, g.tag ≠ f.tag)

end Sys2Proof.Claim
end

