-- ==== Sys2Proof/Statements/Memory.lean ====
section
/-!
DEFINITION. The statements on loads, stores, atomics and ordering (Certificates/Slice0/Obligations.lean puts them together).
-/
namespace Sys2Proof.Claim

open Machine

/-! ### Memory (R59, R111, R117 to R128, R217 to R242) -/

/-- LD gives each item acted on the bytes at its address as the core sees them, after the acquire where there is one, extended as the
type says; no byte changes (R219, R220). -/
def LoadResults : Prop :=
  ∀ o s c pa u, (Instr.ld o).WellFormed → s.here = some c → c.actsOn o ≠ [] → c.readable .ld o = true →
    c.served .load o.ty.bytes (c.reaches o fun i => addrOf o ((c.reads .ld o).a i)) pa →
    c.e.canWrite c.ke.regs (c.actsOn o) o.ty.wide o.d = true →
    u = (if o.mod.val % 4 = 1 then c.acquire s (o.mod.val / 4 % 8) (decide (o.mod.val / 32 % 2 = 1)) else s) →
    ∃ t e win, exec (.ld o) s = .next t ∧ EntryAndCores u t e ∧ (∀ k a, t.seenAt k a = u.seenAt k a) ∧
      Wrote ((c.reads .ld o).e.ordered (longWords o) win) e c.ke.regs (c.actsOn o) o.ty.wide o.d fun i =>
        storePat o.ty (leNat (u.seen c.ref.core (pa (addrOf o ((c.reads .ld o).a i))) o.ty.bytes))

/-- LDP gives the item's registers from D on the words at its address (R221). -/
def LoadsWords : Prop :=
  ∀ o s c pa (d : Fin 128) n, (Instr.ldp o).WellFormed → s.here = some c → c.actsOn o ≠ [] → c.readable .ldp o = true → o.d = .v d →
    n = 2 ^ (o.mod.val / 4) → d.val + n ≤ c.e.regs.length →
    c.served .load 4 (c.reachesWords o (fun i => addrOf o ((c.reads .ldp o).a i)) n) pa →
    ∃ t e, exec (.ldp o) s = .next t ∧ EntryAndCores s t e ∧ (∀ k a, t.seenAt k a = s.seenAt k a) ∧
      (∀ m i, c.e.live i → e.vAt m i = if i ∈ c.actsOn o ∧ d.val ≤ m ∧ m < d.val + n then
        BitVec.ofNat 32 (leNat (s.seen c.ref.core (pa ((addrOf o ((c.reads .ldp o).a i) + 4 * (m - d.val)) % 2 ^ 64)) 4)) else c.e.vAt m i) ∧
      e.pc = c.e.pc + 4 * longWords o ∧ e.scalars = c.e.scalars

/-- LDS gives each item acted on the bytes of the flight's scratchpad, and acts as an acquire where its modifier says so (R116, R222). -/
def LoadsScratchpad : Prop :=
  ∀ o s c u, (Instr.lds o).WellFormed → s.here = some c → c.actsOn o ≠ [] → c.readable .lds o = true →
    c.mustWait (o.mod.val % 4) (o.mod.val / 4 % 8) = false →
    u = (if o.mod.val % 4 = 1 then c.acquire s (o.mod.val / 4 % 8) (decide (o.mod.val / 32 % 2 = 1)) else s) →
    c.servedSpad false true o.ty.bytes (c.reaches o fun i => offsetOf o ((c.reads .lds o).a i)) →
    c.e.canWrite c.ke.regs (c.actsOn o) o.ty.wide o.d = true →
    ∃ t e win, exec (.lds o) s = .next t ∧ OnlyEntry u t e ∧
      Wrote ((c.reads .lds o).e.ordered (longWords o) win) e c.ke.regs (c.actsOn o) o.ty.wide o.d fun i =>
        storePat o.ty (leNat (Memory.readN c.fl.spad (offsetOf o ((c.reads .lds o).a i)) o.ty.bytes))

/-- ST leaves, where its items store, the bytes that the highest of them stores there, and every other byte as its core saw it.  Without
a release or `.na` coherent memory does not change; a release of device or system scope publishes what was stored (R117, R124, R219,
R220). -/
def StoreResults : Prop :=
  ∀ o s c pa ws, (Instr.st o).WellFormed → s.here = some c → c.actsOn o ≠ [] → c.readable .st o = true → SoundStore s →
    c.mustWait (o.mod.val % 4) (o.mod.val / 4 % 8) = false →
    c.served .store o.ty.bytes (c.reaches o fun i => addrOf o ((c.reads .st o).a i)) pa →
    ws = ((c.actsOn o).map fun i => (pa (addrOf o ((c.reads .st o).a i)), leBytes o.ty.bytes ((c.reads .st o).b i).toNat)) →
    ∃ t win, exec (.st o) s = .next t ∧ t.entry s.cur = some ((c.reads .st o).e.ordered (longWords o) win) ∧
      (∀ r, r ≠ s.cur → t.entry r = s.entry r) ∧ t = { s with slots := t.slots, cores := t.cores, mem := t.mem, tier := t.tier } ∧
      s.tier.regroups t.tier ∧ (∀ a, t.freshAt c.ref.core a = (lastStore ws a).getD (s.freshAt c.ref.core a)) ∧
      (∀ a, (lastStore ws a).isSome → t.seenAt c.ref.core a = t.freshAt c.ref.core a) ∧
      (o.mod.val % 4 = 0 → o.mod.val / 64 = 0 → ∀ a, Memory.read t.mem a = Memory.read s.mem a) ∧
      (o.mod.val % 4 = 2 → 3 ≤ o.mod.val / 4 % 8 → ∀ a, (lastStore ws a).isSome → Memory.read t.mem a = t.freshAt c.ref.core a)

/-- STP stores the item's registers from B on as words at its address (R221). -/
def StoresWords : Prop :=
  ∀ o s c pa (b : Fin 128) n ws, (Instr.stp o).WellFormed → s.here = some c → c.actsOn o ≠ [] → c.readable .stp o = true → o.b = .v b →
    n = 2 ^ (o.mod.val / 4) → c.served .store 4 (c.reachesWords o (fun i => addrOf o ((c.reads .stp o).a i)) n) pa →
    ws = ((c.actsOn o).flatMap fun i => (List.range n).map fun j =>
      (pa ((addrOf o ((c.reads .stp o).a i) + 4 * j) % 2 ^ 64), leBytes 4 (c.e.vAt (b.val + j) i).toNat)) →
    ∃ t win, exec (.stp o) s = .next t ∧ EntryAndCores s t ((c.reads .stp o).e.ordered (longWords o) win) ∧
      ∀ a, t.seenAt c.ref.core a = (lastStore ws a).getD (s.seenAt c.ref.core a)

/-- STS leaves in the flight's scratchpad the bytes that the highest item stores at each place, and nothing else, after its release
where its modifier asks for one (R116, R117, R222). -/
def StoresScratchpad : Prop :=
  ∀ o s c u ws, (Instr.sts o).WellFormed → SoundStore s → s.here = some c → c.actsOn o ≠ [] → c.readable .sts o = true →
    c.mustWait (o.mod.val % 4) (o.mod.val / 4 % 8) = false →
    u = (if o.mod.val % 4 = 2 then c.release s (o.mod.val / 4 % 8) else s) →
    c.servedSpad true false o.ty.bytes (c.reaches o fun i => offsetOf o ((c.reads .sts o).a i)) →
    ws = ((c.actsOn o).map fun i => (offsetOf o ((c.reads .sts o).a i), leBytes o.ty.bytes ((c.reads .sts o).b i).toNat)) →
    ∃ t f win, exec (.sts o) s = .next t ∧ t.entry s.cur = some ((c.reads .sts o).e.ordered (longWords o) win) ∧
      (∀ r, r ≠ s.cur → t.entry r = s.entry r) ∧ t = { u with slots := t.slots, flights := t.flights } ∧ t.flightOf c.fl.id = some f ∧
      (∀ a, Memory.read f.spad a = (lastStore ws a).getD (Memory.read c.fl.spad a)) ∧
      f = { c.fl with spad := f.spad, spoiled := f.spoiled } ∧ ∀ id, id ≠ c.fl.id → t.flightOf id = s.flightOf id

/-- PREF goes on, whatever its addresses.  Where nothing has to leave a cache for what it brings, it changes no byte that any core sees
(R223). -/
def PrefetchResults : Prop :=
  ∀ o s c, s.here = some c → c.actsOn o ≠ [] → c.readable .pref o = true →
    ∃ t win, exec (.pref o) s = .next t ∧ t.entry s.cur = some ((c.reads .pref o).e.ordered (longWords o) win) ∧
      (∀ r, r ≠ s.cur → t.entry r = s.entry r) ∧
      (c.roomFor (c.actsOn o).length → o.mod.val % 4 ≠ 2 → (∀ k a, t.seenAt k a = s.seenAt k a) ∧
        (∀ a, Memory.read t.mem a = Memory.read s.mem a) ∧ s.tier.regroups t.tier ∧
        t = { s with slots := t.slots, cores := t.cores, thx := t.thx, nextId := t.nextId, tier := t.tier }) ∧
      ((c.actsOn o).length = 1 → (∀ line, ∃ w, s.freeWay c.la.owner line = some (w, s)) → o.mod.val % 4 = 2 →
        s.tier.regroups t.tier ∧ t = { s with slots := t.slots, thx := t.thx, nextId := t.nextId, tier := t.tier })

/-- CHKB and CHKX go on when every item passes, and raise CHECK_FAIL for the lowest that does not (R224). -/
def CheckResults : Prop :=
  ∀ o s c, s.here = some c → c.actsOn o ≠ [] →
    (c.readable .chkb o = true →
      ((∀ i ∈ c.actsOn o, intOf o.ty ((c.reads .chkb o).b i) ≤ intOf o.ty ((c.reads .chkb o).a i) ∧
          intOf o.ty ((c.reads .chkb o).a i) + o.imm.val ≤ intOf o.ty ((c.reads .chkb o).c i)) →
        ∃ t, exec (.chkb o) s = .next t ∧ OnlyEntry s t ((c.reads .chkb o).e.stepped (longWords o))) ∧
      (∀ i is, ((c.actsOn o).filter fun i => !(decide (intOf o.ty ((c.reads .chkb o).b i) ≤ intOf o.ty ((c.reads .chkb o).a i)) &&
          decide (intOf o.ty ((c.reads .chkb o).a i) + o.imm.val ≤ intOf o.ty ((c.reads .chkb o).c i)))) = i :: is →
        exec (.chkb o) s = .next (c.raise (longWords o) (checkFail i ((c.reads .chkb o).a i))))) ∧
    (c.readable .chkx o = true →
      ((∀ i ∈ c.actsOn o, ((c.reads .chkx o).a i).toNat % 256 + o.imm.val ≤ ((c.reads .chkx o).a i).toNat / 256 % 256 ∧
          ((c.reads .chkx o).a i).toNat / 256 % 256 ≤ c.ke.regs) →
        ∃ t, exec (.chkx o) s = .next t ∧ OnlyEntry s t ((c.reads .chkx o).e.stepped (longWords o))) ∧
      (∀ i is, ((c.actsOn o).filter fun i =>
          decide (((c.reads .chkx o).a i).toNat / 256 % 256 < ((c.reads .chkx o).a i).toNat % 256 + o.imm.val) ||
            decide (c.ke.regs < ((c.reads .chkx o).a i).toNat / 256 % 256)) = i :: is →
        exec (.chkx o) s = .next (c.raise (longWords o) (checkFail i ((c.reads .chkx o).a i)))))

/-- XSET makes the window [A, B) of each item acted on, or the empty one with XFLAG where A, B are no window (R225). -/
def WindowResults : Prop :=
  ∀ o, (Instr.xset o).WellFormed →
    let ok (a b : W64) : Bool := decide (a.toNat ≤ 127) && decide (b.toNat ≤ 128) && decide (a.toNat ≤ b.toNat)
    Computes (.xset o) .xset o (longWords o) false
      (fun _ r i => if ok (r.a i) (r.b i) then BitVec.ofNat 64 ((r.a i).toNat + 256 * (r.b i).toNat) else 0)
      (fun c r => if (c.actsOn o).all fun i => ok (r.a i) (r.b i) then r.e else r.e.setX)

/-- ATOM and CAS on addresses that do not overlap: D receives the value each item reads, and the item's word becomes what the operation
makes of it; every other byte stays (R121, R226 to R228). -/
def AtomicResults : Prop :=
  ∀ i op o (f : Ctx → Nat → W64 → W64) s c pa u n,
    ((i = .atom o ∧ op = .atom ∧ f = fun c j old => atomVal o.ty (o.imm.val % 8) old ((c.reads .atom o).b j)) ∨
      (i = .cas o ∧ op = .cas ∧ o.mod.val / 64 = 0 ∧ f = fun c j old =>
        if patOf o.ty old = patOf o.ty ((c.reads .cas o).b j) then (c.reads .cas o).c j else old)) →
    i.WellFormed → s.here = some c → c.actsOn o ≠ [] → c.readable op o = true → SoundStore s → n = o.ty.bytes →
    c.mustWait (o.mod.val % 4) (o.mod.val / 4 % 8) = false →
    c.served .atomic n (c.reaches o fun j => ((c.reads op o).a j).toNat) pa →
    c.e.canWrite c.ke.regs (c.actsOn o) o.ty.wide o.d = true →
    (∀ j ∈ c.actsOn o, ∀ k ∈ c.actsOn o, j ≠ k →
      pa ((c.reads op o).a j).toNat + n ≤ pa ((c.reads op o).a k).toNat ∨ pa ((c.reads op o).a k).toNat + n ≤ pa ((c.reads op o).a j).toNat) →
    u = (if o.mod.val % 2 = 1 then c.acquire s (o.mod.val / 4 % 8) (decide (o.mod.val / 32 % 2 = 1)) else s) →
    let old (j : Nat) : W64 := storePat o.ty (leNat ((List.range n).map fun k => atomicView c u (o.mod.val / 4 % 8) (pa ((c.reads op o).a j).toNat + k)))
    ∃ t e win, exec i s = .next t ∧ t.entry s.cur = some e ∧ (∀ r, r ≠ s.cur → t.entry r = s.entry r) ∧
      Wrote ((c.reads op o).e.ordered (longWords o) win) e c.ke.regs (c.actsOn o) o.ty.wide o.d old ∧
      (∀ j ∈ c.actsOn o, ∀ k, k < n →
        atomicView c t (o.mod.val / 4 % 8) (pa ((c.reads op o).a j).toNat + k) = (leBytes n (f c j (old j)).toNat).getD k 0) ∧
      (∀ a, (∀ j ∈ c.actsOn o, a < pa ((c.reads op o).a j).toNat ∨ pa ((c.reads op o).a j).toNat + n ≤ a) →
        t.freshAt c.ref.core a = u.freshAt c.ref.core a)

/-- Items of one ATOM at one address act in increasing index, each on what the one before left (R117, R228). -/
def AtomicsInOrder : Prop :=
  ∀ o s c a pa, (Instr.atom o).WellFormed → s.here = some c → c.actsOn o ≠ [] → c.readable .atom o = true → SoundStore s →
    o.mod.val % 4 = 0 → o.mod.val / 64 = 0 → c.coherent (o.mod.val / 4 % 8) = true → c.served .atomic o.ty.bytes (c.reaches o fun _ => a) (fun _ => pa) →
    (∀ j ∈ c.actsOn o, ((c.reads .atom o).a j).toNat = a) → o.d = .zero →
    ∃ t, exec (.atom o) s = .next t ∧ storePat o.ty (leNat (Memory.readN t.mem pa o.ty.bytes)) =
      (c.actsOn o).foldl (fun w j => atomVal o.ty (o.imm.val % 8) w ((c.reads .atom o).b j))
        (storePat o.ty (leNat ((List.range o.ty.bytes).map fun k => s.freshAt c.ref.core (pa + k))))

/-- ATOMS and CAS `.spad` on offsets that do not overlap: as ATOM and CAS, on the flight's scratchpad (R226, R227). -/
def ScratchpadAtomics : Prop :=
  ∀ i op o (f : Ctx → Nat → W64 → W64) s c n,
    ((i = .atoms o ∧ op = .atoms ∧ f = fun c j old => atomVal o.ty (o.imm.val % 8) old ((c.reads .atoms o).b j)) ∨
      (i = .cas o ∧ op = .cas ∧ o.mod.val / 64 = 1 ∧ f = fun c j old =>
        if patOf o.ty old = patOf o.ty ((c.reads .cas o).b j) then (c.reads .cas o).c j else old)) →
    i.WellFormed → SoundStore s → s.here = some c → c.actsOn o ≠ [] → c.readable op o = true → n = o.ty.bytes →
    c.mustWait (o.mod.val % 4) (o.mod.val / 4 % 8) = false →
    c.servedSpad true true n (c.reaches o fun j => ((c.reads op o).a j).toNat % 2 ^ 32) →
    c.e.canWrite c.ke.regs (c.actsOn o) o.ty.wide o.d = true →
    (∀ j ∈ c.actsOn o, ∀ k ∈ c.actsOn o, j ≠ k →
      ((c.reads op o).a j).toNat % 2 ^ 32 + n ≤ ((c.reads op o).a k).toNat % 2 ^ 32 ∨ ((c.reads op o).a k).toNat % 2 ^ 32 + n ≤ ((c.reads op o).a j).toNat % 2 ^ 32) →
    let at_ (j : Nat) : Nat := ((c.reads op o).a j).toNat % 2 ^ 32
    let old (j : Nat) : W64 := storePat o.ty (leNat (Memory.readN c.fl.spad (at_ j) n))
    ∃ t e g win, exec i s = .next t ∧ t.entry s.cur = some e ∧ (∀ r, r ≠ s.cur → t.entry r = s.entry r) ∧ t.flightOf c.fl.id = some g ∧
      Wrote ((c.reads op o).e.ordered (longWords o) win) e c.ke.regs (c.actsOn o) o.ty.wide o.d old ∧
      (∀ j ∈ c.actsOn o, Memory.readN g.spad (at_ j) n = leBytes n (f c j (old j)).toNat) ∧
      (∀ a, (∀ j ∈ c.actsOn o, a < at_ j ∨ at_ j + n ≤ a) → Memory.read g.spad a = Memory.read c.fl.spad a)

/-- What the atomic operations make of integers (R226). -/
def AtomicValues : Prop :=
  ∀ (t : Ty) (x y : W64), t = .i32 ∨ t = .n32 ∨ t = .i64 ∨ t = .n64 →
    atomVal t 0 x y = storeInt t false (intOf t x + intOf t y) ∧
    atomVal t 1 x y = storeInt t false (if intOf t x ≤ intOf t y then intOf t x else intOf t y) ∧
    atomVal t 2 x y = storeInt t false (if intOf t x ≤ intOf t y then intOf t y else intOf t x) ∧
    atomVal t 3 x y = storePat t (x &&& y).toNat ∧ atomVal t 4 x y = storePat t (x ||| y).toNat ∧
    atomVal t 5 x y = storePat t (x ^^^ y).toNat ∧ atomVal t 6 x y = storePat t y.toNat

/-- FENCE acts as its release and then its acquire, and changes no register (R124, R241). -/
def FenceResults : Prop :=
  ∀ o s c, (Instr.fence o).WellFormed → s.here = some c → c.mustWait (o.mod.val % 4) (o.mod.val / 4 % 8) = false →
    (c.actsOn o = [] → ∃ t, exec (.fence o) s = .next t ∧ OnlyEntry s t (c.e.stepped (longWords o))) ∧
    (c.actsOn o ≠ [] → ∃ t win u v, exec (.fence o) s = .next t ∧ EntryAndCores v t (c.e.ordered (longWords o) win) ∧
      u = (if 2 ≤ o.mod.val % 4 then c.release s (o.mod.val / 4 % 8) else s) ∧
      v = (if o.mod.val % 2 = 1 then c.acquire u (o.mod.val / 4 % 8) (decide (o.mod.val / 32 % 2 = 1)) else u))

/-- A release of device or system scope leaves in memory every byte that its core had written, and what each core sees of the bytes it
has written stays (R124). -/
def ReleasePublishes : Prop :=
  ∀ (c : Ctx) (s : State) scope, 3 ≤ scope → SoundStore s → c.ref.core < s.cores.length →
    (∀ x ∈ (s.core c.ref.core).cache, s.mayFill x.tag) →
    (∀ a, (c.release s scope).freshAt c.ref.core a = s.freshAt c.ref.core a) ∧
    (∀ a, Memory.read (c.release s scope).mem a = s.freshAt c.ref.core a) ∧
    ∀ x ∈ ((c.release s scope).core c.ref.core).cache, x.dirty = false

/-- An acquire of device or system scope leaves the core seeing memory, but for bytes it has itself written and not released (R120,
R124). -/
def AcquireSees : Prop :=
  ∀ (c : Ctx) (s : State) scope, 3 ≤ scope → SoundStore s → c.ref.core < s.cores.length →
    ∀ a, (c.acquire s scope false).seenAt c.ref.core a = s.freshAt c.ref.core a ∧ (c.acquire s scope false).mem = s.mem

/-- CMAINT goes on once the entry's earlier accesses have been made and its ranges pass row 8 of R111.  `.clean` at level core leaves
every byte of the range in memory as the core had written it, and discards nothing; the two invalidations leave no copy of the range in
the core's cache (R127, R242). -/
def MaintainResults : Prop :=
  ∀ o s c, (Instr.cmaint o).WellFormed → s.here = some c → c.actsOn o ≠ [] → c.readable .cmaint o = true → SoundStore s →
    c.ref.core < s.cores.length → c.quiet →
    let from_ (i : Nat) : Nat := ((c.reads .cmaint o).a i).toNat
    let len (i : Nat) : Nat := ((c.reads .cmaint o).b i).toNat % 2 ^ 32
    (∀ i ∈ c.actsOn o, c.rangeTag (from_ i) (len i) = none) →
    ∃ t win, exec (.cmaint o) s = .next t ∧ t.entry s.cur = some ((c.reads .cmaint o).e.ordered (longWords o) win) ∧
      (∀ r, r ≠ s.cur → t.entry r = s.entry r) ∧
      (o.mod.val % 4 = 0 → o.mod.val / 4 % 4 = 0 → c.kept → (∀ a, t.freshAt c.ref.core a = s.freshAt c.ref.core a) ∧
        ∀ i, c.actsOn o = [i] → ∀ k ∈ c.rangeSectors s (from_ i) (len i), ∀ j < 128,
          Memory.read t.mem (128 * k + j) = s.freshAt c.ref.core (128 * k + j)) ∧
      (o.mod.val % 4 ≠ 0 → ∀ i, c.actsOn o = [i] → ∀ k ∈ c.rangeSectors s (from_ i) (len i), (t.core c.ref.core).hit k = none)

end Sys2Proof.Claim
end

