-- ==== Sys2Proof/Statements/Module.lean ====
section
/-!
DEFINITION. The statements on the patrol, power, keys, interfaces and register writes (Certificates/Slice0/Obligations.lean puts them together).
-/
namespace Sys2Proof.Claim

open Machine

/-! ### The patrol, features, power and the side-band port (R352, R355, R424 to R428, R452 to R467) -/

/-- PATROL_STEP: 5 ms after the last step the next unit in service is drained for its test, or put off while class-0 work is on it; after
the last unit in service a rotation begins anew (R452, R454, R459). -/
def PatrolSteps : Prop :=
  ∀ s, let x := s.fleet
    (x.patTest ≠ none ∨ x.patSwap ≠ none ∨ x.patWait = true ∨ s.clock < x.patLast + 5000 * Config.clocksPerUs → exec .patrolStep s = .next s) ∧
    (x.patTest = none → x.patSwap = none → x.patWait = false → x.patLast + 5000 * Config.clocksPerUs ≤ s.clock →
      ∀ u v, u = s.nextUnit 868 x.patNext → v = s.nextUnit 868 ((u + 1) % 868) →
        (s.putOff u = true → exec .patrolStep s = .next { s with fleet := { x with patWait := true, patNext := u, patLast := s.clock } }) ∧
        (s.putOff u = false → u < v → exec .patrolStep s = .next { s with fleet := { x with
          patTest := some (u, s.clock), patLast := s.clock, patNext := v } }) ∧
        (s.putOff u = false → v ≤ u → ∃ t, exec .patrolStep s = .next t ∧ t.fleet.patTest = some (u, s.clock) ∧ t.fleet.patNext = v ∧
          t.fleet.patDefer = 0 ∧ ∀ c, c < 96 → (t.core c).rowErrs = [])) ∧
    (∀ u k, x.patNext < 868 → u = s.nextUnit 868 x.patNext → k < 868 → (s.patUnit k).out = false → u < 868 ∧ (s.patUnit u).out = false)

/-- PATROL_DEFER_RETRY: 50 µs after it was put off the unit is tried again; after 400 ms of deferrals in the rotation it is drained
regardless, which FORCED counts (R454). -/
def PatrolRetries : Prop :=
  ∀ s, let x := s.fleet
    (x.patWait = false ∨ s.clock < x.patLast + 50 * Config.clocksPerUs → exec .patrolDeferRetry s = .next s) ∧
    (x.patWait = true → x.patLast + 50 * Config.clocksPerUs ≤ s.clock →
      ∀ v, v = s.nextUnit 868 ((x.patNext + 1) % 868) → x.patNext < v →
      let spent := x.patDefer + (s.clock - x.patLast)
      (s.putOff x.patNext = true → spent < 400000 * Config.clocksPerUs →
        exec .patrolDeferRetry s = .next { s with fleet := { x with patDefer := spent, patLast := s.clock } }) ∧
      (s.putOff x.patNext = false ∨ 400000 * Config.clocksPerUs ≤ spent → exec .patrolDeferRetry s = .next { s with fleet := { x with
        patDefer := spent, patLast := s.clock, patTest := some (x.patNext, s.clock), patWait := false, patNext := v,
        patForced := if s.putOff x.patNext = true then min (x.patForced + 1) 0xFFFF else x.patForced } }))

/-- PATROL_TEST_END: no earlier than the unit's test time; a clean pass begins the unit's record anew, and the watermark never falls
(R452, R455). -/
def PatrolPasses : Prop :=
  ∀ s failing,
    (s.fleet.patTest = none → s.fleet.patSwap = none → exec (.patrolTestEnd failing) s = .next s) ∧
    ∀ u a, s.fleet.patSwap = none → s.fleet.patTest = some (u, a) →
      (s.clock < a + Config.clocksPerUs * (if u < 96 then 40 else if u < 864 then 10 else 20) → exec (.patrolTestEnd failing) s = .next s) ∧
      (a + Config.clocksPerUs * (if u < 96 then 40 else if u < 864 then 10 else 20) ≤ s.clock → failing = [] → u < s.fleet.patUnits.length →
        ∃ t, exec (.patrolTestEnd failing) s = .next t ∧ t.fleet.patTest = none ∧ t.patUnit u = { s.patUnit u with clean := a, owners := 0 } ∧
          (∀ k, k ≠ u → t.patUnit k = s.patUnit k) ∧ s.fleet.patW ≤ t.fleet.patW ∧
          (∀ m, s.fleet.patW ≤ m → (∀ k ∈ t.fleet.patUnits, k.out = false → 1024 * m ≤ k.clean) → (∃ k ∈ t.fleet.patUnits, k.out = false) →
            m ≤ t.fleet.patW) ∧
          (t.fleet.patW = s.fleet.patW ∨ ∀ k ∈ t.fleet.patUnits, k.out = false → 1024 * t.fleet.patW ≤ k.clean) ∧
          t = { s with fleet := { s.fleet with patTest := none, patUnits := t.fleet.patUnits, patW := t.fleet.patW } })

/-- A failing test that leaves no flight to save is logged and FEPOCH advances.  A column group swaps one or two columns for spares; a core swaps for a spare core of its
die, or is OUT with all its units where the die has none; a unit of the Arbiter is OUT (R456, R458, R460). -/
def PatrolFails : Prop :=
  ∀ s u a col rest, s.fleet.patSwap = none → s.fleet.patTest = some (u, a) → a + Config.clocksPerUs * (if u < 96 then 40 else if u < 864 then 10 else 20) ≤ s.clock →
    u < 868 → s.fleet.patUnits.length = 868 → s.fleet.spcore.length = 96 → s.fleet.patLog.length = 16 → s.cores.length = 96 →
    (∀ k ∈ s.kernels, k.unit ≠ u - 864 ∨ u < 864) → (s.patUnit u).owners = 0 →
    let core := if u < 96 then u else (u - 96) / 8
    s.onCore core = [] ∨ s.losesCore u (col :: rest) = false →
    let swaps := decide (96 ≤ u ∧ u < 864) &&
      decide ((((s.fleet.patUnits.drop (96 + 8 * core)).take 8).map PatUnit.swapped).sum + rest.length + 1 ≤ 2)
    let spare := decide (s.fleet.spares.cspr.testBit (2 * (core / 24)) = false ∨ s.fleet.spares.cspr.testBit (2 * (core / 24) + 1) = false)
    ∃ t e, exec (.patrolTestEnd (col :: rest)) s = .next t ∧ t.fleet.patTest = none ∧ t.fleet.fepoch = min (s.fleet.fepoch + 1) 0xFFFF ∧
      t.fleet.patFails = (s.fleet.patFails + 1) % 65536 ∧ t.fleet.patLog.getD (s.fleet.patFails % 16) ⟨0, 0, 0, 0, 0, 0⟩ = e ∧ e.unit = u ∧
      e.wstart = (s.patUnit u).clean ∧ e.wend = s.clock ∧ s.fleet.patW ≤ t.fleet.patW ∧
      (swaps = true → e.act = 0 ∧ t.fleet.spares.cols = s.fleet.spares.cols + rest.length + 1 ∧ (t.patUnit u).out = (s.patUnit u).out) ∧
      (u < 864 → swaps = false → spare = true → e.act = 1 ∧
        (t.fleet.spcore.getD core {}).sub = true ∧ (t.fleet.spcore.getD core {}).phys = 24 + (if s.fleet.spares.cspr.testBit (2 * (core / 24)) then 1 else 0) ∧
        (t.core core).out = (s.core core).out) ∧
      (u < 864 → swaps = false → spare = false → e.act = 2 ∧ (t.core core).out = true ∧ (t.fleet.spcore.getD core {}).out = true ∧
        t.fleet.spares.cout = s.fleet.spares.cout + 1 ∧
        ∀ k, k < 868 → k = core ∨ (96 + 8 * core ≤ k ∧ k < 96 + 8 * core + 8) → (t.patUnit k).out = true) ∧
      (864 ≤ u → e.act = 3 ∧ (t.patUnit u).out = true ∧ t.fleet.spares.aout.testBit (u - 864) = true)

/-- A failure that takes a core out of service first has the core's flights saved, and takes effect when the last has left: the window that
the log and the notices give ends then (R456, R468). -/
def PatrolSwaps : Prop :=
  ∀ s u failing, let ids := s.onCore (unitCore u)
    (∀ f : Flight, f.id ∈ ids ↔ ∃ g ∈ s.flights, g.id = f.id ∧ unitCore u ∈ g.cores ∧ g.state ≠ .saved ∧ g.lmax ≠ 0) ∧
    (∀ a, s.fleet.patSwap = none → s.fleet.patTest = some (u, a) → failing ≠ [] → s.losesCore u failing = true → ids ≠ [] →
      a + Config.clocksPerUs * (if u < 96 then 40 else if u < 864 then 10 else 20) ≤ s.clock →
      ∃ t, exec (.patrolTestEnd failing) s = .next t ∧ t.fleet = { s.fleet with patTest := none, patSwap := some (u, failing) } ∧
        ((s.flights.map Flight.id).Nodup → ∀ f ∈ s.flights, f.id ∈ ids → f.state = .resident →
          t.flightOf f.id = some { f with state := .asked }) ∧
        t = { s with fleet := t.fleet, flights := t.flights, cores := t.cores, slots := t.slots }) ∧
    (s.fleet.patSwap = some (u, failing) → ids ≠ [] → ∀ cols, exec (.patrolTestEnd cols) s = .next s) ∧
    (s.fleet.patSwap = some (u, failing) → ids = [] → s.fleet.patTest = none → failing ≠ [] → 40 * Config.clocksPerUs ≤ s.clock →
      ∀ cols, exec (.patrolTestEnd cols) s = exec (.patrolTestEnd failing)
        { s with fleet := { s.fleet with patSwap := none, patTest := some (u, s.clock - 40 * Config.clocksPerUs) } }) ∧
    (u < 96 → s.losesCore u failing = true) ∧ (864 ≤ u → s.losesCore u failing = false)

/-- FEATURE_COMMIT takes a word within what is offered, once, before the first ADMIT; else FSTAT says why not (R461). -/
def FeatureResults : Prop :=
  ∀ s, let x := s.fleet
    (x.faccept &&& x.foffer ≠ x.faccept → exec .featureCommit s = .next { s with fleet := { x with fstat := 1 } }) ∧
    (x.faccept &&& x.foffer = x.faccept → x.admitted = true ∨ x.flocked = true → exec .featureCommit s = .next { s with fleet := { x with fstat := 2 } }) ∧
    (x.faccept &&& x.foffer = x.faccept → x.admitted = false → x.flocked = false →
      exec .featureCommit s = .next { s with fleet := { x with fstat := 0, flocked := true, features := x.faccept } })

/-- Telemetry keeps the greatest class-0 times and counts those beyond their bounds; throttling and D3HOT change nothing else, and D3HOT
waits until no launch but the trap handler's is left (R463 to R466). -/
def PowerResults : Prop :=
  ∀ s, let x := s.fleet
    (∀ tmax tgmax c0k c0g, tmax < 256 → tgmax < 256 → c0k < 2 ^ 32 → c0g < 2 ^ 32 → x.c0exc + 2 ≤ 0xFFFF →
      exec (.telemetrySample tmax tgmax c0k c0g) s = .next { s with fleet := { x with
        tmax := tmax, tgmax := tgmax, c0kmax := max x.c0kmax c0k,
        c0gmax := max x.c0gmax c0g, c0exc := x.c0exc + ((if 10000 < c0k then 1 else 0) + (if 900 < c0g then 1 else 0)) } }) ∧
    (∀ p thr o, thr ≤ 100 → x.plim < 4096 → ∃ t, exec (.powerThrottle p thr o) s = .next t ∧ t.fleet.pnow = min p x.plim ∧ t.fleet.thr = thr ∧
      t.fleet.c0over = (x.c0over || o) ∧ t = { s with fleet := { x with pnow := t.fleet.pnow, thr := t.fleet.thr, c0over := t.fleet.c0over } }) ∧
    ((∀ l ∈ s.launches, handlerTags ≤ l.tag) → exec (.d3hot true) s = .next { s with fleet := { x with d3 := true } }) ∧
    ((∃ l ∈ s.launches, l.tag < handlerTags) → exec (.d3hot true) s = .next s) ∧ exec (.d3hot false) s = .next { s with fleet := { x with d3 := false } } ∧
    exec .smbusFallback s = .next { s with fleet := { x with smbus := true } }

/-- The side-band port: TEL_GET, SPMAP_GET and PATLOG_GET answer the registers; RESET_PART, RESET_DEV and LINK_RETRAIN need a session
bound to owner 0, and are denied without one (R394, R439, R458, R460, R466, R467). -/
def SidebandResults : Prop :=
  ∀ s, let x := s.fleet
    let ans (t : State) (st : Nat) (d : List Byte) : State := { t with fleet := { t.fleet with reply := some ⟨0, st, d⟩ } }
    (exec .telGet s = .next (ans s 0 (leBytes 1 x.tmax ++ leBytes 1 x.tgmax ++ leBytes 2 0 ++ leBytes 4 x.c0kmax ++ leBytes 4 x.c0gmax ++
      leBytes 2 x.rtmax ++ leBytes 2 x.c0exc ++ leBytes 48 0))) ∧
    (∃ d, exec .spmapGet s = .next (ans s 0 (x.spmapBytes ++ d)) ∧ (x.spcore.length = 96 → d.length = 768)) ∧
    (∃ d, exec .patlogGet s = .next (ans s 0 d) ∧ (x.patLog.length = 16 → d.length = 512) ∧
      ∀ i e, x.patLog[i]? = some e → (d.drop (32 * i)).take 32 = leBytes 4 (e.unit % 1024 + e.col % 8 * 2 ^ 10 + e.act % 8 * 2 ^ 13 +
        e.owners % 2 ^ 16 * 2 ^ 16) ++ leBytes 8 e.wstart ++ leBytes 8 e.wend ++ leBytes 12 0) ∧
    (∀ i, (∃ p, i = .resetPart p) ∨ i = .resetDev ∨ (∃ p, i = .linkRetrain p) → (∀ k ∈ s.sec.sessions, k.fn ≠ 0) →
      exec i s = .next (ans s 1 [])) ∧
    ((∃ k ∈ s.sec.sessions, k.fn = 0) →
      exec .resetDev s = exec .deviceReset s ∧
      (∀ p, p < 16 → ∃ t, exec (.resetPart p) s = .next t ∧ t.fleet.reply = some ⟨0, 0, []⟩ ∧
        (∀ l ∈ s.launches, p ∈ l.parts → l.killed = false → ∀ f ∈ t.flights, f.tag ≠ l.tag) ∧
        ∀ q ∈ t.queue.qcbs, s.servingPart q.fn = some p → q.state = 3 ∧ q.held = [] ∧
          (s.holdsReserved q = false → q.slot = none)) ∧
      ∀ p, p < 80 → p < s.thx.links.length → (s.link p).state = 0 → ∃ t, exec (.linkRetrain p) s = .next t ∧ (t.link p).state = 1 ∧
        (t.link p).since = some s.clock ∧ t.fleet.reply = some ⟨0, 0, []⟩)

/-- The debug window opens for an address under its scope; CORE_HZD reads its fields and takes EN and HITS, EN only with feature 4 (R352,
R355, R426, R467). -/
def DebugWindow : Prop :=
  ∀ s addr (v : W64), let core := addr / 256
    let hzd := decide (addr % 256 = 0 ∧ core < 96)
    let isOpen := decide (s.sec.life = 1 ∨ s.sec.life = 3) || (decide (s.sec.dbgState = 2) && s.sec.dbgScope.testBit (if hzd then 1 else 2))
    let ans (t : State) (st : Nat) (d : List Byte) : State := { t with fleet := { t.fleet with reply := some ⟨0, st, d⟩ } }
    (isOpen = false → exec (.dbgRd addr) s = .next (ans s 1 []) ∧ exec (.dbgWr addr v) s = .next (ans s 1 [])) ∧
    (isOpen = true → hzd = false → exec (.dbgRd addr) s = .next (ans { s with draws := s.draws + 1 } 0 (freeData s.draws 8)) ∧
      exec (.dbgWr addr v) s = .next (ans s 0 [])) ∧
    (isOpen = true → hzd = true →
      exec (.dbgRd addr) s = .next (ans s 0 (leBytes 8 ((if (s.core core).hzdEn then 1 else 0) + (s.core core).hzdHits % 65536 * 65536 +
        (s.core core).hzdLastPc % 2 ^ 32 * 2 ^ 32))) ∧
      (core < s.cores.length → ∃ t, exec (.dbgWr addr v) s = .next (ans t 0 []) ∧ t = { s with cores := t.cores } ∧
        t.core core = { s.core core with hzdEn := v.getLsbD 0 && s.fleet.features.testBit 4, hzdHits := bits v.toNat 16 16 } ∧
        ∀ c, c ≠ core → t.core c = s.core c))

/-- DBG_NONCE draws a fresh nonce; a token that fails is DBG_BAD and voids it; one that passes resets every tenant, clears owner 15's
sectors and opens the scope (R427, R428, R462). -/
def DebugUnlock : Prop :=
  (∀ s, ∃ n, exec .dbgNonce s = .next { s with
    draws := s.draws + 1, sec := { s.sec with nonce := some n },
    fleet := { s.fleet with reply := some ⟨0, 0, n⟩ } }) ∧
  ∀ s token,
    (s.fleet.features.testBit 6 = false → exec (.dbgUnlock token) s = .next { s with fleet := { s.fleet with reply := some ⟨0, 1, []⟩ } }) ∧
    (s.fleet.features.testBit 6 = true → token.length ≠ 1024 ∨ s.sec.life ≠ 2 ∨ 64 ≤ s.sec.unlk ∨ s.sec.nonce ≠ some ((token.drop 40).take 32) →
      exec (.dbgUnlock token) s = .next { s with sec := { s.sec with nonce := none }, fleet := { s.fleet with reply := some ⟨0, 1, []⟩ } }) ∧
    (s.fleet.features.testBit 6 = true → s.tokenGood token = true →
      ∃ t, exec (.dbgUnlock token) s = .next t ∧ t.fleet.reply = some ⟨0, 0, []⟩ ∧ t.sec.dbgState = 2 ∧
        t.sec.dbgScope = leNat ((token.drop 37).take 1) ∧ t.sec.unlk = s.sec.unlk + 1 ∧ t.sec.sessions = [] ∧ t.sec.nonce = none ∧
        (∀ l ∈ t.launches, l.fn = 0 ∨ 14 < l.fn) ∧ (∀ k ∈ t.kernels, k.fn = 0 ∨ 14 < k.fn) ∧
        (∀ o k, 1 ≤ o → o ≤ 14 → t.sec.keys[o]? = some k → k.loaded = false) ∧
        ((∀ k ∈ s.kernels, k.pages = [] ∧ k.locks = []) → (∀ l ∈ s.launches, l.fn ≠ 0 → l.owner = l.fn) → ∀ a, 1 ≤ tagOf t.tags (a / 128) → tagOf t.tags (a / 128) ≤ 15 → Memory.read t.mem a = 0) ∧
        ∀ c ∈ t.cores, ∀ x ∈ c.cache, x.tag = 0 ∨ 15 < x.tag)

/-! ### Sessions, keys, measurement, interfaces and lifecycle (R413, R417 to R426, R462) -/

/-- SEC_IWIN: a write while a frame of attribute 10 is in use, or of a window that does not exist or holds its own MACs, only sets BAD;
another takes effect, EN only with feature 5 (R413, R462). -/
def WindowWrites : Prop :=
  ∀ s (v : W64), let n := v.toNat
    (s.iwinBusy n = true → exec (.secIwinWrite v) s = .next { s with sec := { s.sec with iwinBad := true } }) ∧
    (s.iwinBusy n = false → exec (.secIwinWrite v) s = .next { s with sec := { s.sec with
      iwin := bits n 0 6,
      iwinEn := v.getLsbD 6 && s.fleet.features.testBit 5, iwinBad := false, macw := bits n 16 12 } }) ∧
    (s.iwinBusy n = true ↔ (∃ f ∈ s.framesInUse, s.fat f % 4 = 2) ∨ 47 < bits n 0 6 ∨ bits n 16 12 / 64 = bits n 0 6)

/-- Sessions: KEY_EXCHANGE opens one of sixteen, bound to its function, or answers Busy; END_SESSION closes it; GET_CERTIFICATE gives the
chain; GET_MEASUREMENTS gives what the session may see, a tenant its own log (R423 to R425). -/
def SessionResults : Prop :=
  ∀ s, let ans (t : State) (st : Nat) (d : List Byte) : State := { t with fleet := { t.fleet with reply := some ⟨1, st, d⟩ } }
    (∀ k, exec (.getCertificate k) s = .next (ans s 0 Config.certChain)) ∧
    (∀ fn, (∀ i, i < 16 → ∃ x ∈ s.sec.sessions, x.id = i) → exec (.keyExchange fn) s = .next (ans s 3 [])) ∧
    (∀ fn i, i < 16 → (∀ x ∈ s.sec.sessions, x.id ≠ i) → (∀ j, j < i → ∃ x ∈ s.sec.sessions, x.id = j) →
      exec (.keyExchange fn) s = .next (ans { s with draws := s.draws + 1, sec := { s.sec with
        sessions := s.sec.sessions ++ [⟨i, fn, s.draws⟩] } } 0 (leBytes 4 i))) ∧
    (∀ k, ∃ t, exec (.endSession k) s = .next t ∧ t = { s with sec := { s.sec with sessions := t.sec.sessions } } ∧
      ∀ x, x ∈ t.sec.sessions ↔ x ∈ s.sec.sessions ∧ x.id ≠ k) ∧
    (∀ k n, (∀ x ∈ s.sec.sessions, x.id ≠ k) → exec (.getMeasurements k n) s = .next (ans s 3 [])) ∧
    ∀ k n x, s.sec.sessions.find? (fun y => decide (y.id = k)) = some x → ∃ d, exec (.getMeasurements k n) s = .next (ans s 0 d) ∧
      (1 ≤ x.fn → x.fn ≤ 14 → n = 16 + x.fn → n ≠ 31 → d = s.sec.mlogs.getD x.fn []) ∧
      (16 < n → n ≤ 30 → n ≠ 16 + x.fn → d = []) ∧ (n = 31 → 1 ≤ x.fn → x.fn ≤ 14 → d = s.sec.mlogs.getD 15 [])

/-- Key messages: KEY_SESSION outside the function's own session, KEY_STATE outside PRODUCTION or while debug opens, KEY_BUSY for a loaded
slot; KEY_LOAD raises EPOCH, KEY_CLEAR resets the function, KEY_QUERY tells LOADED and EPOCH (R418). -/
def KeyResults : Prop :=
  ∀ s k fn, let ans (t : State) (st : Nat) (d : List Byte) : State := { t with fleet := { t.fleet with reply := some ⟨1, st, d⟩ } }
    let own : Prop := 1 ≤ fn ∧ fn ≤ 14 ∧ ∃ x, s.sec.sessions.find? (fun y => decide (y.id = k)) = some x ∧ x.fn = fn
    let shut : Prop := s.sec.life ≠ 2 ∨ s.sec.dbgState = 1
    let slot := s.sec.keys.getD fn .empty
    (∀ i, (∃ tk, i = .keyLoad k fn tk) ∨ i = .keyClear k fn ∨ i = .keyQuery k fn → ¬own → exec i s = .next (ans s 3 [])) ∧
    (∀ i, (∃ tk, i = .keyLoad k fn tk) ∨ i = .keyClear k fn → own → shut → exec i s = .next (ans s 2 [])) ∧
    (∀ tk, own → ¬shut → slot.loaded = true → exec (.keyLoad k fn tk) s = .next (ans s 1 [])) ∧
    (∀ tk, own → ¬shut → slot.loaded = false → fn < s.sec.keys.length → ∃ t, exec (.keyLoad k fn tk) s = .next (ans t 0 []) ∧
      t.sec.keys.getD fn .empty = ⟨tk.take 32, true, (slot.epoch + 1) % 2 ^ 32, none⟩ ∧
      (∀ o, o ≠ fn → t.sec.keys.getD o .empty = s.sec.keys.getD o .empty) ∧ t = { s with sec := { s.sec with keys := t.sec.keys } }) ∧
    (own → ¬shut → fn < s.queue.fns.length → ∃ t, exec (.keyClear k fn) s = .next t ∧ t.fleet.reply = some ⟨1, 0, []⟩ ∧ t.fnBlock fn = {} ∧
      (∀ x, t.sec.keys[fn]? = some x → x.loaded = false) ∧ (∀ l ∈ t.launches, l.fn ≠ fn) ∧ (∀ x ∈ t.kernels, x.fn ≠ fn) ∧
      ∀ a, tagOf t.tags (a / 128) = fn → Memory.read t.mem a = 0) ∧
    (own → exec (.keyQuery k fn) s = .next (ans s 0 (leBytes 1 (if slot.loaded then 1 else 0) ++ leBytes 4 slot.epoch)))

/-- The interface of a function goes from unlocked to locked to running; IDE keys come from its own session, and any other attempt sends a
locked or running interface to ERROR, which resets its function (R420, R421). -/
def InterfaceResults : Prop :=
  ∀ s fn, 1 ≤ fn → fn ≤ 14 → fn < s.sec.tdis.length →
    let only (t : State) (x : Tdi) : Prop := t.tdi fn = x ∧ (∀ k, k ≠ fn → t.tdi k = s.tdi k) ∧ t = { s with sec := { s.sec with tdis := t.sec.tdis } }
    (s.tdi fn = .unlocked → ∃ t, exec (.lockInterface fn) s = .next t ∧ only t .locked) ∧
    (s.tdi fn ≠ .unlocked → exec (.lockInterface fn) s = .next s) ∧
    (s.tdi fn = .locked → ∃ t, exec (.startInterface fn) s = .next t ∧ only t .run) ∧
    (s.tdi fn ≠ .locked → exec (.startInterface fn) s = .next s) ∧
    ∀ k key,
      (∀ x, s.sec.sessions.find? (fun y => decide (y.id = k)) = some x → x.fn = fn → ∃ t, exec (.ideKm k fn key) s = .next t ∧
        t = { s with sec := { s.sec with ide := s.sec.ide.set fn (some key) }, fleet := { s.fleet with reply := some ⟨1, 0, []⟩ } }) ∧
      ((∀ x ∈ s.sec.sessions, x.id = k → x.fn ≠ fn) → s.tdi fn = .locked ∨ s.tdi fn = .run →
        ∃ t, exec (.ideKm k fn key) s = .next t ∧ t.tdi fn = .error ∧ (∀ l ∈ t.launches, l.fn ≠ fn) ∧ (∀ x ∈ t.kernels, x.fn ≠ fn) ∧
          t.fleet.reply = some ⟨1, 3, []⟩)

/-- The lifecycle goes forward only, by a signed command; outside PRODUCTION the tenants' key slots are empty (R426). -/
def LifecycleResults : Prop :=
  ∀ s target,
    (exec (.lifecycleTransition target false) s = .next s) ∧
    (target ≤ s.sec.life ∨ 4 < target → exec (.lifecycleTransition target true) s = .next s) ∧
    (s.sec.life < target → target ≤ 4 → ∃ t, exec (.lifecycleTransition target true) s = .next t ∧ t.sec.life = target ∧
      t = { s with sec := { s.sec with life := target, keys := t.sec.keys } } ∧ (target = 2 → t.sec.keys = s.sec.keys) ∧
      (target ≠ 2 → ∀ o k, 1 ≤ o → o ≤ 14 → t.sec.keys[o]? = some k → k.loaded = false ∧ k.secret = []))

/-! ### Register writes (R8, R9, R356, R358, R397, R398, R433, R434, R441 to R446, R458, R460, R461, R464) -/

/-- REGISTER_WRITE: a write where nothing answers, and a write by a tenant to a register of the physical function, change nothing.  A write
to the function's block stores the fields whole and leaves the read-only ones; a kick word kicks its queue; FACCEPT, PLIM and the
counters of a pair take the bytes written; THX_TAPPLY applies tables (R8, R9, R356, R358, R434, R441, R461, R464). -/
def WriteResults : Prop :=
  (∀ s fn off n v, 15 ≤ fn ∨ s.mapAt fn off = none → exec (.registerWrite fn off n v) s = .next s) ∧
  (∀ s fn off n v, fn ≠ 0 → 0x20000 ≤ off → off < 0x32420 → exec (.registerWrite fn off n v) s = .next s) ∧
  (∀ s fn (v : W64), fn < 15 → fn < s.queue.fns.length → (s.fnBlock fn).inWidth → ∃ t, exec (.registerWrite fn 0x10 8 v) s = .next t ∧
    t.fnBlock fn = { s.fnBlock fn with errbase := v } ∧ (∀ f, f ≠ fn → t.fnBlock f = s.fnBlock f) ∧
    t = { s with queue := { s.queue with fns := t.queue.fns } }) ∧
  (∀ s fn (v : W64), fn < 15 → fn < s.queue.fns.length → (s.fnBlock fn).inWidth → ∃ t, exec (.registerWrite fn 0x20 8 v) s = .next t ∧
    t.fnBlock fn = { s.fnBlock fn with fltbase := v }) ∧
  (∀ s fn qid (v : W64), fn < 15 → qid < 8192 → exec (.registerWrite fn (0x10000 + 8 * qid) 4 v) s = exec (.kick fn qid (v.setWidth 32)) s) ∧
  (∀ s (v : W64), ∃ t, exec (.registerWrite 0 0x33810 8 v) s = .next t ∧ t.fleet.faccept = v.toNat + s.fleet.faccept / 2 ^ 64 % 2 ^ 64 * 2 ^ 64 ∧
    t = { s with fleet := { s.fleet with faccept := t.fleet.faccept } }) ∧
  (∀ s (v : W64), v.toNat < 2 ^ 32 → ∃ t, exec (.registerWrite 0 0x33900 8 v) s = .next t ∧
    (t.fleet.plim = if 600 ≤ bits v.toNat 0 12 ∧ bits v.toNat 0 12 ≤ 2200 then bits v.toNat 0 12 else s.fleet.plim) ∧
    t = { s with fleet := { s.fleet with plim := t.fleet.plim } }) ∧
  (∀ s pair, pair < 80 → pair < s.thx.links.length → ∃ t,
    exec (.registerWrite 0 (0x32000 + 8 * pair) 8 0) s = .next t ∧ t.link pair = { s.link pair with rtcnt := 0, fltf := 0 } ∧
    (∀ k, k ≠ pair → t.link k = s.link k)) ∧
  ∀ s sel (v : W64), v.toNat = sel + 32 → sel < 32 → exec (.registerWrite 0 0x31A00 8 v) s = exec (.tableApply sel) s

end Sys2Proof.Claim
end

