-- ==== Sys2Proof/Statements/Operator.lean ====
section
/-!
DEFINITION. The statements on cores, budgets, partitions, regions, moves and resets (Certificates/Slice0/Obligations.lean puts them together).
-/
namespace Sys2Proof.Claim

open Machine

/-! ### Cores, budgets, partitions, regions and resets (R79, R85, R86, R111, R132, R394, R397 to R409, R421, R422, R459) -/

/-- PARTITION_WORD_TAKE_EFFECT: a core that no flight holds takes its pending word and zeroes its pool for 512 clocks; with one it
waits.  POOL_ZEROING_DONE: then the core takes flights again, but for a word accepted meanwhile, which stays pending (R78, R79). -/
def PoolChanges : Prop :=
  ∀ s core, core < s.cores.length → let k := s.core core
    let held : Prop := ∃ f ∈ s.flights, f.state ≠ .saved ∧ f.tag < handlerTags ∧ core ∈ f.cores
    (held → exec (.partitionWordTakeEffect core) s = .next s) ∧
    (k.pend = none → exec (.partitionWordTakeEffect core) s = .next s) ∧
    (∀ r a, k.pend = some (r, a) → ¬held → k.zeroing = none →
      ∃ t, exec (.partitionWordTakeEffect core) s = .next t ∧
        t.core core = { k with rfg := r, acg := a, pend := none, zeroing := some (s.clock + 512), rowErrs := (t.core core).rowErrs } ∧
        (∀ c, c ≠ core → t.core c = s.core c) ∧ t = { s with cores := t.cores, fleet := t.fleet, remains := t.remains } ∧
        (∀ f, f ∈ t.remains ↔ f ∈ s.remains ∧ ∀ a ∈ f.alloc, a.core ≠ core) ∧
        t.fleet = { s.fleet with spares := t.fleet.spares, spcore := t.fleet.spcore } ∧
        t.fleet.spares.rows + t.fleet.spares.rowf = s.fleet.spares.rows + s.fleet.spares.rowf) ∧
    (∀ d, k.zeroing = some d → (d ≤ s.clock → ∃ t, exec (.poolZeroingDone core) s = .next t ∧
        t.core core = { k with zeroing := none } ∧ (∀ c, c ≠ core → t.core c = s.core c) ∧ t = { s with cores := t.cores }) ∧
      (s.clock < d → exec (.poolZeroingDone core) s = .next s))

/-- A bank of no flight may enter retention, unless a placement that waits has woken it; one whose flights have all been parked for 64 µs and are not of class 0 may with its
contents, while PRKEN is 1; any other stays live.  Entry takes 2 µs and exit 3 µs (R85, R86). -/
def RetentionResults : Prop :=
  ∀ s core bank, core < s.cores.length → let k := s.core core
    let only (t : State) (b : Bank) : Prop := t.core core = { k with banks := k.banks.set bank b } ∧
      (∀ c, c ≠ core → t.core c = s.core c) ∧ t = { s with cores := t.cores }
    let enters (t : State) (b : Bank) : Prop :=
      t.core core = { k with banks := k.banks.set bank b, woken := (t.core core).woken, rowErrs := (t.core core).rowErrs } ∧
      (∀ w, w ∈ (t.core core).woken ↔ w ∈ k.woken ∧ w ≠ bank) ∧ (∀ c, c ≠ core → t.core c = s.core c) ∧
      t = { s with cores := t.cores, fleet := t.fleet, remains := t.remains }
    (k.banks[bank]? = some .live →
      (s.holders core bank = [] → bank ∉ k.woken ∨ s.placementWaits = false →
        ∃ t, exec (.retentionEntry core bank) s = .next t ∧ enters t (.entering false s.clock false) ∧
          ∀ f, f ∈ t.remains ↔ f ∈ s.remains ∧ ∀ a ∈ f.alloc, a.core = core → bank ∉ k.banksOf a) ∧
      (s.holders core bank ≠ [] → k.prken = true →
        (∀ f ∈ s.holders core bank, (∃ a, f.parkedSince = some a ∧ a + 64 * Config.clocksPerUs ≤ s.clock) ∧
          ∃ la, s.launchOf f.tag = some la ∧ la.cls ≠ 0) →
        ∃ t, exec (.retentionEntry core bank) s = .next t ∧ enters t (.entering true s.clock false) ∧ t.remains = s.remains) ∧
      (∀ f ∈ s.holders core bank, k.prken = false ∨ f.parkedSince = none ∨ (∃ la, s.launchOf f.tag = some la ∧ la.cls = 0) →
        exec (.retentionEntry core bank) s = .next s)) ∧
    (∀ kept a ask, k.banks[bank]? = some (.entering kept a ask) →
      (s.clock < a + 2 * Config.clocksPerUs → exec (.retentionEntryDone core bank) s = .next s) ∧
      (a + 2 * Config.clocksPerUs ≤ s.clock → ∃ t, exec (.retentionEntryDone core bank) s = .next t ∧
        only t (if ask || (kept && s.bankWanted core bank) then .leaving kept s.clock else .retained kept))) ∧
    (∀ kept a, k.banks[bank]? = some (.leaving kept a) →
      (s.clock < a + 3 * Config.clocksPerUs → exec (.retentionExitDone core bank) s = .next s) ∧
      (a + 3 * Config.clocksPerUs ≤ s.clock → ∃ t, exec (.retentionExitDone core bank) s = .next t ∧
        only { t with slots := s.slots } .live ∧ ∀ r, t.entry r = (s.entry r).map fun e =>
          if e.status = .held (.banks core) then { e with status := .ready } else e)) ∧
    (k.banks[bank]? = some (.retained true) → s.bankWanted core bank = true →
      ∃ t, exec (.retentionExitDone core bank) s = .next t ∧ only t (.leaving true s.clock))

/-- BUDGET_REFILL adds the refill at each end of a period, up to the cap; BUDGET_EXHAUSTED asks for the save of every resident flight of a
partition whose balance is not positive; time charges a clock for every core of its pairs that holds a flight of it (R400, R401). -/
def BudgetResults : Prop :=
  ∀ s p, p < 16 → s.oper.parts.length = 16 → let x := s.part p
    (x.cur.period ≠ 0 → (x.charged + 1) * (x.cur.period * Config.clocksPerUs) ≤ s.clock →
      ∃ t, exec (.budgetRefill p) s = .next t ∧ t.part p = { x with bal := min (x.bal + x.cur.refill) x.cur.cap, charged := x.charged + 1 } ∧
        (∀ k, k ≠ p → t.part k = s.part k) ∧ t = { s with oper := { s.oper with parts := t.oper.parts } }) ∧
    (x.cur.period = 0 ∨ s.clock < (x.charged + 1) * (x.cur.period * Config.clocksPerUs) → exec (.budgetRefill p) s = .next s) ∧
    (x.cur.period = 0 ∨ 0 < x.bal → exec (.budgetExhausted p) s = .next s) ∧
    (∀ f, x.cur.period ≠ 0 → x.bal ≤ 0 → (s.flights.map Flight.id).Nodup → f ∈ s.flights → f.part = p → f.state = .resident → f.lmax ≠ 0 →
      ∃ t, exec (.budgetExhausted p) s = .next t ∧ t.flightOf f.id = some { f with state := .asked } ∧
        t = { s with flights := t.flights, cores := t.cores, slots := t.slots }) ∧
    (x.cur.period ≠ 0 → ∀ n, ((s.tick n).part p).bal = x.bal - n * s.busyCores p)

/-- PARTITION_APPLY: STAT says why a shadow record is refused, and the fields in force stay; accepted, they are the shadow's, the
pending words of the partition's cores are the record's, flights on pairs that leave are asked to be saved, and queues leave the slots that
it gives up, their QCBs copied back.  While BUSY it is
ignored; PARTITION_APPLY_DONE ends it (R398, R405). -/
def PartitionResults : Prop :=
  ∀ s p, p < 16 → s.oper.parts.length = 16 → s.cores.length = 96 → let y := s.part p
    (y.busy = true → exec (.partitionApply p) s = .next s) ∧
    (y.busy = false → s.partStat p ≠ 0 → ∃ t, exec (.partitionApply p) s = .next t ∧ t.part p = { y with stat := s.partStat p } ∧
      (∀ k, k ≠ p → t.part k = s.part k) ∧ t = { s with oper := { s.oper with parts := t.oper.parts } }) ∧
    (y.busy = false → s.partStat p = 0 → (∀ f, f < 15 → y.cur.fns.testBit f = true → y.shadow.fns.testBit f = true) →
      ∃ t, exec (.partitionApply p) s = .next t ∧ (t.part p).cur = y.shadow ∧ (t.part p).busy = true ∧ (t.part p).stat = 0 ∧
        (∀ k, k ≠ p → t.part k = s.part k) ∧
        (∀ c, c < 96 → y.shadow.pairs.testBit (c / 2) = true → (t.core c).pend = some (y.shadow.rfg, y.shadow.acg)) ∧
        (∀ c, c < 96 → y.shadow.pairs.testBit (c / 2) = false → (t.core c).pend = (s.core c).pend) ∧
        (∀ f ∈ s.flights, f.part = p → f.state = .resident → f.lmax ≠ 0 → (s.flights.map Flight.id).Nodup →
          y.cur.pairs.testBit (f.core / 2) = true → y.shadow.pairs.testBit (f.core / 2) = false →
          t.flightOf f.id = some { f with state := .asked }) ∧
        ((s.queue.qcbs.map fun q => (q.fn, q.qid)).Nodup → ∀ q ∈ s.queue.qcbs, t.qcb q.fn q.qid = some { q with
          slot := q.slot.filter fun k => !(y.cur.slots.testBit k && !y.shadow.slots.testBit k) }) ∧
        (SoundMemory s → ∀ x, (∀ q ∈ s.queue.qcbs, x < qcbStore q.fn q.qid ∨ qcbStore q.fn q.qid + 76 ≤ x) →
          Memory.read t.mem x = Memory.read s.mem x) ∧
        t = { s with oper := t.oper, cores := t.cores, slots := t.slots, flights := t.flights, mem := t.mem,
                     queue := { s.queue with qcbs := t.queue.qcbs } }) ∧
    (s.partStat p = 0 → y.shadow.rfg ≤ 24 ∧ 4 ≤ y.shadow.rfg ∧ y.shadow.acg ≤ 16 ∧
      ∀ k, k < 16 → k ≠ p → y.shadow.pairs &&& (s.part k).cur.pairs = 0 ∧ y.shadow.slots &&& (s.part k).cur.slots = 0) ∧
    (y.busy = true → (∀ f ∈ s.flights, f.part = p → f.state ≠ .saved → y.leaving.testBit (f.core / 2) = false) →
      ∃ t, exec (.partitionApplyDone p) s = .next t ∧ t.part p = { y with busy := false, leaving := 0 } ∧ (∀ k, k ≠ p → t.part k = s.part k) ∧
        t = { s with oper := { s.oper with parts := t.oper.parts } }) ∧
    (∀ f ∈ s.flights, f.part = p → f.state ≠ .saved → y.leaving.testBit (f.core / 2) = true → exec (.partitionApplyDone p) s = .next s)

/-- PART_PROT takes the owners written; a bit cleared for a TDI that is locked or runs sends it to ERROR.  PART_WAYM takes a mask that
keeps the owners' masks apart, and ignores another (R397, R421). -/
def ProtectionWrites : Prop :=
  (∀ s v, (∀ f, f < 15 → s.oper.prot.testBit f = true → v.getLsbD f = true) → exec (.partProtWrite v) s =
    .next { s with oper := { s.oper with prot := v.toNat % 2 ^ 15 } }) ∧
  (∀ s (v : W64) f, 1 ≤ f → f ≤ 14 → f < s.sec.tdis.length → s.oper.prot.testBit f = true → v.getLsbD f = false →
    s.tdi f = .locked ∨ s.tdi f = .run →
    ∃ t, exec (.partProtWrite v) s = .next t ∧ t.tdi f = .error ∧ t.oper.prot = v.toNat % 2 ^ 15 ∧ (∀ l ∈ t.launches, l.fn ≠ f) ∧
      ∀ k ∈ t.kernels, k.fn ≠ f) ∧
  ∀ s owner mask, owner < 16 → s.oper.waym.length = 16 →
    let w (k : Nat) : Nat := if k = owner then mask % 65536 else s.oper.waym.getD k 0
    let fits : Prop := w 15 = 0 ∧ ∀ i j, 1 ≤ i → i < j → j ≤ 14 → w i &&& w j = 0
    (fits → ∃ t, exec (.partWaymWrite owner mask) s = .next t ∧ (∀ k, t.oper.waym.getD k 0 = w k) ∧
      t = { s with oper := { s.oper with waym := t.oper.waym } }) ∧ (¬fits → exec (.partWaymWrite owner mask) s = .next s)

/-- REGION_APPLY leaves the status that refuses a grant, first cause first; a grant of one page maps it to a frame of zeros under its
owner, attribute and rights, with the frame's sectors under its tag (R112, R399, R412). -/
def GrantResults : Prop :=
  ∀ s g, g < 512 → s.oper.regions.length = 512 → SoundMemory s → let r := s.region g
    (r.live = true → (s.grantOf g).1 = 1) ∧
    (r.live = false → r.bad = true → (s.grantOf g).1 = 2) ∧
    (r.live = false → r.bad = false → (∃ x ∈ s.oper.regions, x.live = true ∧ x.vbase < r.vbase + 65536 * r.pages ∧
      r.vbase < x.vbase + 65536 * x.pages) → (s.grantOf g).1 = 3) ∧
    ((s.grantOf g).1 ≠ 0 → ∃ t, exec (.regionApply g) s = .next t ∧ t.region g = { r with stat := (s.grantOf g).1 } ∧
      (∀ k, k ≠ g → t.region k = s.region k) ∧ t = { s with oper := { s.oper with regions := t.oper.regions } }) ∧
    ((s.grantOf g).1 = 0 → let frame := (s.grantOf g).2
      ∃ t, exec (.regionApply g) s = .next t ∧ t.region g = { r with live := true, stat := 0 } ∧
        (∀ k, k ≠ g → t.region k = s.region k) ∧
        (∀ n, frame * 512 ≤ n → n < (frame + r.pages) * 512 → tagOf t.tags n = r.owner) ∧
        (∀ n, n < frame * 512 ∨ (frame + r.pages) * 512 ≤ n → tagOf t.tags n = tagOf s.tags n) ∧
        (∀ k ∈ t.cores, ∀ x ∈ k.cache, x.sector < frame * 512 ∨ (frame + r.pages) * 512 ≤ x.sector) ∧
        t = { s with mem := t.mem, tier := t.tier, cores := t.cores, tags := t.tags, ttNext := t.ttNext,
                     oper := { s.oper with regions := t.oper.regions } })

/-- Scrubbing a frame leaves it zero in memory, away from the Gondola, in no cache, free of poison, its lines' POISON bits clear, and under
the owner and table entry given (R399, R412, R416, R437). -/
def ScrubResults : Prop :=
  ∀ s frame owner fat, SoundMemory s → (frame + 1) * 65536 ≤ Config.fatBase → let t := s.scrubFrame frame owner fat
    (∀ a, frame * 65536 ≤ a → a < (frame + 1) * 65536 → Memory.read t.mem a = 0) ∧
    (∀ a, a < frame * 65536 ∨ (frame + 1) * 65536 ≤ a → a ≠ Config.fatBase + frame / 2 → Memory.read t.mem a = Memory.read s.mem a) ∧
    (∀ n, t.fat n = if n = frame then fat % 16 else s.fat n) ∧
    (∀ n, n / 512 = frame → tagOf t.tags n = owner ∧ n ∉ t.tier.poisoned) ∧ (∀ line, line / 128 = frame → t.away line = none) ∧
    (∀ line, line / 128 ≠ frame → t.away line = s.away line) ∧
    (∀ line, s.sec.iwin * 2 ^ 24 ≤ line / 8 → (t.counter (t.groupOf line)).poison.getD (line % 8) false =
      ((s.counter (s.groupOf line)).poison.getD (line % 8) false && decide (line / 128 ≠ frame))) ∧ ∀ k ∈ t.cores, ∀ x ∈ k.cache, x.sector / 512 ≠ frame

/-- Mapping a page whose table path is empty: the walk of every address in it finds the leaf written (R109, R402). -/
def PageMapped : Prop :=
  ∀ s va word x, SoundMemory s → va < 2 ^ 52 → word < 2 ^ 64 → x / 65536 = va / 65536 →
    s.peekN (Config.ttRoot + 8 * bits va 39 13) 8 = 0 →
    (∀ a, Config.ttPool + s.ttNext ≤ a → a < Config.ttPool + s.ttNext + 8192 → Memory.read s.mem a = 0) →
    (Config.ttPool + s.ttNext) % 4096 = 0 → Config.ttPool + s.ttNext + 8192 < 2 ^ 64 →
    (Config.ttRoot + 65536 ≤ Config.ttPool + s.ttNext) →
    ∃ a, (s.mapPage va word false).walk x = leafOf word a false

/-- REGION_REVOKE: 7 for a grant that is not live, 6 for one that a launch, ring, kernel, admission or save pool still uses; a grant of
one small page is unmapped and its frame scrubbed (R132, R399). -/
def RevokeResults : Prop :=
  ∀ s g, g < 512 → s.oper.regions.length = 512 → let r := s.region g
    let only (t : State) (y : Region) : Prop := t.region g = y ∧ (∀ k, k ≠ g → t.region k = s.region k)
    (r.live = false → ∃ t, exec (.regionRevoke g) s = .next t ∧ only t { r with stat := 7 } ∧
      t = { s with oper := { s.oper with regions := t.oper.regions } }) ∧
    (r.live = true → s.regionBusy r = true → ∃ t, exec (.regionRevoke g) s = .next t ∧ only t { r with stat := 6 } ∧
      t = { s with oper := { s.oper with regions := t.oper.regions } }) ∧
    (r.live = true → (∃ l ∈ s.launches, l.killed = false ∧ bits r.fns l.fn 1 = 1 ∧ ∃ x ∈ l.regions, x.base < r.vbase + 65536 * r.pages ∧
      r.vbase < x.base + x.size) → s.regionBusy r = true) ∧
    (r.live = true → s.regionBusy r = false → ∃ t, exec (.regionRevoke g) s = .next t ∧ only t { r with live := false, stat := 0 } ∧
      t = { s with mem := t.mem, tier := t.tier, cores := t.cores, tags := t.tags, oper := { s.oper with regions := t.oper.regions } } ∧
      ∀ l, r.pages = 1 → SoundMemory s → (s.scrubFrame (s.frameAddr l r.vbase / 65536) r.owner 0).walk r.vbase = .leaf l →
        s.walk r.vbase = .leaf l → t.walk r.vbase = .invalid false l.addr)

/-- PAGE_SECTOR_MOVE: it starts by setting MOVE, with a forwarding entry that has no sector done (R403, R404). -/
def MoveStarts : Prop :=
  ∀ s va newFrame l a, s.walk va.toNat = .leaf l → l.move = false → l.big = false → SoundMemory s → s.freeForward 4096 = some a →
    newFrame < 2 ^ 26 → (l.addr + 8 ≤ Config.fwdBase ∨ Config.fwdBase + 524288 ≤ l.addr) →
    ∃ t, exec (.pageSectorMove va newFrame) s = .next t ∧ t.peekN a 8 = l.frame + newFrame * 2 ^ 32 + 2 ^ 63 ∧ t.peekN (a + 64) 64 = 0 ∧
      t.peekN l.addr 8 = setBits (s.peekN l.addr 8) 11 1 1 ∧
      t = { s with mem := t.mem, tier := t.tier, cores := t.cores }

/-- While a page moves, its sectors lie at the frame of its forwarding entry where DONE is set, and at its own frame elsewhere.  A sector
that moves has its bytes and tag at NEW, its DONE bit set, and no copy of OLD in a cache (R403, R404). -/
def SectorMoves : Prop :=
  (∀ (s : State) (l : Leaf) va a, l.move = true → l.big = false → s.fwdEntry l.frame 4096 = some a → s.frameAddr l va =
    va % 65536 + 65536 * (if (s.peekN (a + 64) 64).testBit (va % 65536 / 128) then bits (s.peekN a 8) 32 26 else l.frame)) ∧
  ∀ s entry k, SoundStore s → s.cores.length = 96 → k < 512 → let w := s.peekN entry 8
    let old := bits w 0 26 * 512 + k
    let new := bits w 32 26 * 512 + k
    (∀ c ∈ s.cores, ∀ x ∈ c.cache, x.sector = old → x.dirty = false) → (s.presentIn (old / 4)).length = 4 → bits w 0 26 ≠ bits w 32 26 →
    0 < s.tier.dies.length → (s.peekN (entry + 64) 64).testBit k = false → (entry + 128 ≤ new * 128 ∨ (new + 1) * 128 ≤ entry) →
    let t := s.moveSector entry k
    t.peek (new * 128) 128 = s.peek (old * 128) 128 ∧ tagOf t.tags new = tagOf s.tags old ∧
      (∀ j, (t.peekN (entry + 64) 64).testBit j = ((s.peekN (entry + 64) 64).testBit j || decide (j = k))) ∧
      (∀ c ∈ t.cores, ∀ x ∈ c.cache, x.sector ≠ old) ∧ (old * 128 < Config.reserve → t.onPkg old = false) ∧
      ∀ a, a / 128 ≠ new → a / 128 ≠ old → a < entry + 64 ∨ entry + 128 ≤ a → Memory.read t.mem a = Memory.read s.mem a

/-- Host DMA passes the function's checks and reads or writes the bytes, or ends with a Completer Abort that changes nothing; to a page in
move it waits (R111, R421, R422). -/
def HostAccess : Prop :=
  ∀ s fn addr write len data,
    let pieces := s.devPieces ⟨fn, fn, 0xFE, 0, 0⟩ (if write then .store else .load) addr.toNat len 1
    let formed : Prop := fn ≤ 14 ∧ s.tdi fn ≠ .error ∧ (write = true → data.length = len)
    (¬formed → exec (.hostDma fn addr write len data) s = .next (s.answered 2 1 [])) ∧
    (∀ f, pieces = .error (.fault f) → exec (.hostDma fn addr write len data) s = .next (s.answered 2 1 [])) ∧
    (∀ cause a pair, formed → pieces = .error (.park cause a pair) → exec (.hostDma fn addr write len data) s =
      .next { s with fleet := { s.fleet with outside := s.fleet.outside ++ [.host fn addr.toNat write len data] } }) ∧
    ∀ u ps, formed → pieces = .ok (u, ps) →
      (fn = 0 → ∀ p ∈ ps, bits (u.fat (p.1 / 65536)) 3 1 = 1 ∧ tagOf u.tags (p.1 / 128) = 0) →
      (write = false → exec (.hostDma fn addr write len data) s = .next (u.answered 2 0 (u.readPieces ps))) ∧
      (write = true → SoundMemory u → u.mayFill fn → (ps.map Prod.snd).sum = len →
        ps.Pairwise (fun p q => p.1 + p.2 ≤ q.1 ∨ q.1 + q.2 ≤ p.1) →
        ∃ t, exec (.hostDma fn addr write len data) s = .next t ∧ t.readPieces ps = data ∧
          (∀ x, (∀ p ∈ ps, x < p.1 ∨ p.1 + p.2 ≤ x) → Memory.read t.mem x = Memory.read u.mem x) ∧
          t = { u with mem := t.mem, tier := t.tier, fleet := { u.fleet with reply := some ⟨2, 0, []⟩ } })

/-- The reset of a function: its queues, launches, kernels, open records and key are gone, its block is at its reset values, no byte of
its owner is left in memory, in the Gondola or in a cache; the rest of the module goes on (R394, R406, R421). -/
def FunctionResets : Prop :=
  ∀ s fn i, 1 ≤ fn → fn ≤ 14 → i = .vfReset fn ∨ i = .functionLevelReset fn ∨ i = .stopInterface fn → fn < s.queue.fns.length →
    fn < s.sec.tdis.length →
    ∃ t, exec i s = .next t ∧ t.fnBlock fn = {} ∧ (∀ f, f ≠ fn → t.fnBlock f = s.fnBlock f) ∧ t.tdi fn = .unlocked ∧
      (∀ q ∈ t.queue.qcbs, q.fn ≠ fn) ∧ (∀ q ∈ s.queue.qcbs, q.fn ≠ fn → q ∈ t.queue.qcbs) ∧ (∀ l ∈ t.launches, l.fn ≠ fn) ∧
      (∀ l ∈ s.launches, l.fn ≠ fn → (∀ l' ∈ s.launches, l'.fn = fn → l'.tag ≠ l.tag) → l ∈ t.launches) ∧
      (∀ k ∈ t.kernels, k.fn ≠ fn) ∧ (∀ k ∈ s.kernels, k.fn ≠ fn → k ∈ t.kernels) ∧ (∀ f ∈ t.queue.faults, f.fn ≠ fn) ∧
      (∀ k, t.sec.keys[fn]? = some k → k.loaded = false ∧ k.secret = []) ∧ (∀ c ∈ t.cores, ∀ x ∈ c.cache, x.tag ≠ fn) ∧
      (∀ x ∈ t.tier.offpkg, x.owner ≠ fn) ∧ ∀ a, tagOf t.tags (a / 128) = fn → Memory.read t.mem a = 0

/-- PF_QUEUE_RESET, and the function-level reset of the physical function: its queues, packets and records go; launches and kernels stay,
and memory changes only where its queues' QCBs hold their STATE (R358, R406). -/
def PhysicalResets : Prop :=
  ∀ s i, i = .pfQueueReset ∨ i = .functionLevelReset 0 → 0 < s.queue.fns.length →
    ∃ t, exec i s = .next t ∧ t.fnBlock 0 = {} ∧ (∀ f, f ≠ 0 → t.fnBlock f = s.fnBlock f) ∧ (∀ q, q ∈ t.queue.qcbs ↔ q ∈ s.queue.qcbs ∧ q.fn ≠ 0) ∧
      (∀ x, x ∈ t.queue.started ↔ x ∈ s.queue.started ∧ x.fn ≠ 0) ∧ (∀ f, f ∈ t.queue.faults ↔ f ∈ s.queue.faults ∧ f.fn ≠ 0) ∧
      (SoundMemory s → ∀ x, (∀ q ∈ s.queue.qcbs, q.fn = 0 → x ≠ qcbStore 0 q.qid + 23) → Memory.read t.mem x = Memory.read s.mem x) ∧
      t = { s with mem := t.mem, queue := { s.queue with
        fns := t.queue.fns, qcbs := t.queue.qcbs, started := t.queue.started, faults := t.queue.faults, units := t.queue.units } }

/-- DEVICE_RESET leaves the reset values everywhere, the trap handler in its slot of every core among them, but in fuses: the lifecycle, its
count of unlocks, the spare map and the cores and units out of service.  The boot salt and the secrets of owners 0 and 15 are drawn afresh
(R394, R417, R426, R460, R461). -/
def DeviceResets : Prop :=
  ∀ s, ∃ t, exec .deviceReset s = .next t ∧ t.clock = 0 ∧ t.mem = [] ∧ t.tags = [] ∧ t.slots = State.reset.slots ∧
    t.flights = State.reset.flights ∧ t.launches = State.reset.launches ∧ t.kernels = State.reset.kernels ∧ t.remains = [] ∧ t.tier = Tier.reset ∧ t.queue = QueueEngine.reset ∧ t.oper = Oper.reset ∧ t.thx = Thx.reset ∧
    t.sec.life = s.sec.life ∧ t.sec.unlk = s.sec.unlk ∧ t.sec.sessions = [] ∧ t.sec.tdis = List.replicate 15 .unlocked ∧
    t.sec.dbgState = 0 ∧ t.sec.salt = s.draws ∧ t.sec.keys[0]? = some ⟨[], true, 0, some (s.draws + 1)⟩ ∧
    t.sec.keys[15]? = some ⟨[], true, 0, some (s.draws + 2)⟩ ∧ (∀ o k, 1 ≤ o → o ≤ 14 → t.sec.keys[o]? = some k → k.loaded = false) ∧
    t.fleet.spares = s.fleet.spares ∧ t.fleet.spcore = s.fleet.spcore ∧ t.fleet.features = 0 ∧ t.fleet.flocked = false ∧
    t.fleet.patLog = Fleet.reset.patLog ∧ ∀ c, c < s.cores.length → t.core c = { Core.reset with out := (s.core c).out }

end Sys2Proof.Claim
end

