-- ==== Sys2Proof/Statements/Queues.lean ====
section
/-!
DEFINITION. The statements on kicks, rings and packets (Certificates/Slice0/Obligations.lean puts them together).
-/
namespace Sys2Proof.Claim

open Machine

/-! ### Kicks, queues and packets (R295, R296, R356 to R377) -/

/-- KICK stores the write index; the doorbell bit of the lowest slot entry that holds the queue is set, or, where none does, its bit in the
function's map and in QE_PSUM.  A kick of a queue whose backing store says it is not registered, or of a function in ERROR, changes nothing
(R358, R376). -/
def KickResults : Prop :=
  ∀ s fn qid w,
    (14 < fn ∨ 8192 ≤ qid ∨ s.tdi fn = .error ∨ s.sec.life = 4 ∨ s.registered fn qid = false → exec (.kick fn qid w) s = .next s) ∧
    (fn ≤ 14 → qid < 8192 → s.tdi fn ≠ .error → s.sec.life ≠ 4 → s.registered fn qid = true → SoundMemory s →
      (∀ x ∈ s.slots, ∀ e ∈ x.entries, ∀ o d, e.status ≠ .parked (.qwait o) d) →
      ∃ t, exec (.kick fn qid w) s = .next t ∧ t.kicked fn qid = w.toNat ∧
        t = { s with mem := t.mem, queue := { s.queue with bells := t.queue.bells, psum := t.queue.psum } } ∧
        (∀ k, s.kickSlot fn qid = some k → k / 16 < s.queue.bells.length → t.queue.psum = s.queue.psum ∧
          ∀ j, t.bell j = if j = k / 16 then s.bell j ||| BitVec.ofNat 64 (2 ^ k) else s.bell j) ∧
        (s.kickSlot fn qid = none → t.queue.bells = s.queue.bells ∧ (∀ b, t.queue.psum.testBit b = (s.queue.psum.testBit b || decide (b = fn))) ∧
          ∀ n, n < 8192 → bits (t.peekN (kickArea fn + n / 8) 1) (n % 8) 1 =
            if n = qid then 1 else bits (s.peekN (kickArea fn + n / 8) 1) (n % 8) 1))

/-- A kick wakes the one entry parked at QWAIT whose strand serves the slot that the kick reaches: it writes the doorbell word, which is cleared
(R295, R376). -/
def KickWakes : Prop :=
  ∀ s fn qid w k (r : EntryRef) e o d, fn ≤ 14 → qid < 8192 → s.tdi fn ≠ .error → s.sec.life ≠ 4 → s.registered fn qid = true →
    SoundMemory s → s.kickSlot fn qid = some k → k / 16 < s.queue.bells.length → s.queue.psum = 0 → s.entry r = some e →
    (∀ r' e' o' d', r' ≠ r → s.entry r' = some e' → e'.status ≠ .parked (.qwait o') d') →
    e.status = .parked (.qwait o) d → e.snum = k / 16 → e.canWriteEvery (s.regsOf r) e.activeList true o.d = true →
    s.bell (k / 16) ||| BitVec.ofNat 64 (2 ^ k) ≠ 0 →
    ∃ t y, exec (.kick fn qid w) s = .next t ∧ t.entry r = some y ∧ y.status = .ready ∧ t.bell (k / 16) = 0 ∧
      WroteEvery { e.stepped (longWords o) with status := .ready } y (s.regsOf r) true false o.d (s.bell (k / 16) ||| BitVec.ofNat 64 (2 ^ k))

/-- Q0GO registers queue 0 as its function's block says, or leaves the status that refuses it (R356, R363). -/
def QueueZero : Prop :=
  ∀ s fn, fn < 15 → s.sec.life ≠ 4 → fn < s.queue.fns.length → SoundMemory s →
    let b := s.fnBlock fn
    let st := s.regStatus fn 0 b.q0base.toNat b.q0lgs b.q0class b.q0bpri b.q0ceil b.q0auth true
    ∃ t, exec (.q0go fn) s = .next t ∧ t.fnBlock fn = { b with q0stat := st } ∧ (∀ f, f ≠ fn → t.fnBlock f = s.fnBlock f) ∧
      (∀ f n, f ≠ fn ∨ n ≠ 0 → t.qcb f n = s.qcb f n) ∧
      (st ≠ 0 → t = { s with queue := { s.queue with fns := t.queue.fns } }) ∧
      (st = 0 → ∃ q, t.qcb fn 0 = some q ∧ q.rbase = b.q0base.toNat ∧ q.size = 2 ^ b.q0lgs ∧ q.cls = b.q0class ∧ q.auth = b.q0auth ∧
        q.bpri = b.q0bpri ∧ q.epri = b.q0bpri ∧ q.ceil = b.q0ceil ∧ q.state = 1 ∧ q.ridx = 0 ∧ q.widx = 0 ∧ q.seq = 1 ∧ q.kgen = 0 ∧
        q.held = [] ∧ q.parsed = [] ∧ t.kicked fn 0 = 0 ∧ (b.q0class < 4 → t.registered fn 0 = true) ∧
        t = { s with mem := t.mem, queue := { s.queue with fns := t.queue.fns, qcbs := t.queue.qcbs } })

/-- What a registration's status says (R361, R363): 3 for a number beyond 8191, else 2 for a queue that is registered, else 4 for sizes,
priorities or a class that may not be, else 1 for a ring that does not lie in one live region of the function. -/
def RegistrationStatus : Prop :=
  ∀ (s : State) fn qid rbase lgs cls bpri ceil auth, let st := s.regStatus fn qid rbase lgs cls bpri ceil auth false
    (st = 3 ↔ 8192 ≤ qid) ∧
    (st = 2 ↔ qid < 8192 ∧ s.qcb fn qid ≠ none) ∧
    (qid < 8192 → s.qcb fn qid = none → (lgs < 6 ∨ 20 < lgs ∨ ceil < bpri ∨ (cls ≤ 1 ∧ 15 < ceil) ∨ (cls = 2 ∧ 12 < ceil) ∨ (3 ≤ cls ∧ 8 < ceil)) →
      st = 4) ∧
    (st = 0 → rbase % 128 = 0 ∧ (∃ r ∈ s.oper.regions, r.live = true ∧ bits r.fns fn 1 = 1 ∧ r.vbase ≤ rbase ∧
        rbase + 128 * 2 ^ lgs ≤ r.vbase + 65536 * r.pages) ∧
      ∀ a, rbase ≤ a → a < rbase + 128 * 2 ^ lgs → ∃ l, s.walk (a / 65536 * 65536) = .leaf l ∧ l.owner = fn ∧ l.rd = true ∧ l.wr = true)

/-- A pass observes the doorbell bits of its set's slots, and the bits in QE_PSUM of the functions that it serves, which it clears with their
pending maps.  It gives the set's slots to the waiting queues of highest effective priority, whose QCBs it copies into the slots' entries;
a waiting queue without one rises in priority, up to its ceiling, and every other falls back to its base.  Memory changes in the maps and the
QCBs alone (R358, R359, R374 to R376). -/
def PassResults : Prop :=
  ∀ s p, p ≤ 16 → SoundMemory s → (s.queue.qcbs.map fun q => (q.fn, q.qid)).Nodup →
    (∀ q ∈ s.queue.qcbs, s.holdsReserved q = false) →
    (∀ q ∈ s.queue.qcbs, ∀ k, q.slot = some k → (k ∈ s.passSlots p ↔ q ∈ s.passQueues p)) →
    (∀ a ∈ s.queue.qcbs, ∀ b ∈ s.queue.qcbs, a.slot = b.slot → a.slot ≠ none → a = b) →
    (∀ q ∈ s.passQueues p, q.state = 1 ∧ q.auth = false ∧ q.fn < 15 ∧ q.qid < 8192 ∧ s.kicked q.fn q.qid < 2 * q.size ∧
      (s.kicked q.fn q.qid + 2 ^ 32 - q.ridx) % 2 ^ 32 % (2 * q.size) ≤ q.size) →
    ∃ t, exec (.schedulingPass p) s = .next t ∧ t = { s with mem := t.mem, queue := { s.queue with
          qcbs := t.queue.qcbs, bells := t.queue.bells, psum := t.queue.psum, passAt := s.queue.passAt.set p s.clock } } ∧
      (∀ f, t.queue.psum.testBit f = (s.queue.psum.testBit f && !decide (f ∈ s.setFns p))) ∧
      (∀ j, t.bell j = s.bell j &&& ~~~ slotBits (s.setSlots p)) ∧
      (∀ f ∈ s.setFns p, s.queue.psum.testBit f = true → ∀ i, i < 1024 → Memory.read t.mem (kickArea f + i) = 0) ∧
      (∀ x, (∀ f ∈ s.setFns p, x < kickArea f ∨ kickArea f + 1024 ≤ x) → (∀ k ∈ s.passSlots p, x < slotStore k ∨ slotStore k + 76 ≤ x) →
        (∀ q ∈ s.passQueues p, x < qcbStore q.fn q.qid ∨ qcbStore q.fn q.qid + 76 ≤ x) → Memory.read t.mem x = Memory.read s.mem x) ∧
      (∀ q ∈ s.queue.qcbs, q ∉ s.passQueues p → t.qcb q.fn q.qid = some q) ∧
      ∀ q ∈ s.passQueues p,
        let mapped := s.isWaiting q && decide (((s.passQueues p).filter fun y => s.isWaiting y && y.before q).length < (s.passSlots p).length)
        ∃ y, t.qcb q.fn q.qid = some y ∧
          y = { q with slot := y.slot, widx := if mapped then s.kicked q.fn q.qid else q.widx,
                       epri := if s.isWaiting q && !mapped then min (q.epri + 1) q.ceil else q.bpri,
                       tried := q.tried && !mapped } ∧
          (mapped = true → q.slot = none → q.cls < 4 → ∀ k, y.slot = some k → t.slotHolds q.fn q.qid k = true) ∧
          (mapped = false → y.slot = none) ∧ (mapped = true → ∃ k ∈ s.passSlots p, y.slot = some k) ∧
          (mapped = true → ∀ k, q.slot = some k → y.slot = some k) ∧
          ∀ z ∈ s.passQueues p, z ≠ q → ∀ y', t.qcb z.fn z.qid = some y' → y'.slot = none ∨ y'.slot ≠ y.slot

/-- An index that runs past the ring holds the queue, which keeps only a reserved slot, and tells it in the error ring; the queue goes on when a valid index arrives (R364,
R365). -/
def IndexChecks : Prop :=
  ∀ (s : State) (q : Qcb), s.qcb q.fn q.qid = some q → q.qid < 8192 → q.fn < 15 → q.fn < s.queue.fns.length → q.state ≠ 3 →
    let w := s.kicked q.fn q.qid
    (w < 2 * q.size → (w + 2 ^ 32 - q.ridx) % 2 ^ 32 % (2 * q.size) ≤ q.size →
      (s.checkIndex q).qcb q.fn q.qid = some { q with widx := w, state := 1 }) ∧
    (q.state = 1 → 2 * q.size ≤ w ∨ q.size < (w + 2 ^ 32 - q.ridx) % 2 ^ 32 % (2 * q.size) →
      (s.checkIndex q).qcb q.fn q.qid = some { q with state := 2, slot := q.keeps s } ∧
      ((s.fnBlock q.fn).errbase ≠ 0 → FnWrote s (s.checkIndex q) q.fn ((s.fnBlock q.fn).errbase.toNat + 64 * ((s.fnBlock q.fn).errcnt % 64))
        (leBytes 2 q.qid ++ leBytes 1 q.fn ++ leBytes 1 1 ++ leBytes 4 w ++ leBytes 4 q.ridx ++
          leBytes 4 (if q.auth then q.seq else 0) ++ leBytes 4 0 ++ leBytes 8 s.clock ++ leBytes 36 0)
        [(({ q with slot := q.keeps s } : Qcb).store, 76)]))

/-- The numbers of an authenticated ring: a bad MAC and a number already passed are dropped and counted; the expected number is parsed; a
number up to 64 ahead waits; one farther ahead, or none left, faults the queue (R370, R371). -/
def SequenceNumbers : Prop :=
  ∀ (s : State) (q : Qcb) (p : List Byte), s.qcb q.fn q.qid = some q → q.fn < 15 → q.fn < s.queue.fns.length → q.qid < 8192 → q.parsed = [] →
    let n := leNat ((p.drop 4).take 4)
    let t := s.takeAuth q p
    let q' := { q with ridx := (q.ridx + 1) % (2 * q.size) }
    (s.macGood q p = false → t.qcb q.fn q.qid = some q' ∧ (t.fnBlock q.fn).macf = min ((s.fnBlock q.fn).macf + 1) 0xFFFF ∧
      (t.fnBlock q.fn).drop = (s.fnBlock q.fn).drop) ∧
    (s.macGood q p = true → q.seq < 2 ^ 32 → n < q.seq → t.qcb q.fn q.qid = some q' ∧
      (t.fnBlock q.fn).drop = min ((s.fnBlock q.fn).drop + 1) (2 ^ 32 - 1)) ∧
    (s.macGood q p = true → q.seq < 2 ^ 32 → n = q.seq → q.held = [] →
      t.qcb q.fn q.qid = some { q' with parsed := [p], seq := q.seq + 1, gapt := 0 }) ∧
    (s.macGood q p = true → q.seq < n → n ≤ q.seq + 64 → (∀ h ∈ q.held, h.1 ≠ n) → q.seq < 2 ^ 32 →
      t.qcb q.fn q.qid = some { q' with held := q.held ++ [(n, p)], gapt :=
         if q.held = [] then s.clock + (s.fnBlock q.fn).seqwin * Config.clocksPerUs else q.gapt }) ∧
    (s.macGood q p = true → q.seq + 64 < n → (∀ h ∈ q.held, h.1 ≠ n) → q.seq < 2 ^ 32 →
      ∃ y, t.qcb q.fn q.qid = some y ∧ y.state = 3 ∧ y.slot = q.keeps s ∧ y.held = [] ∧ y.parsed = [])

/-- The gap timer's end faults its queue with cause 2; before it nothing happens (R371). -/
def GapEnds : Prop :=
  ∀ s fn qid q, s.qcb fn qid = some q → fn < 15 → fn < s.queue.fns.length → qid < 8192 →
    (q.state = 1 → q.held ≠ [] → q.gapt ≠ 0 → q.gapt ≤ s.clock →
      ∃ t, exec (.seqGap fn qid) s = .next t ∧ QueueFaulted s t q 2 (if q.auth then q.seq else 0) 0) ∧
    (q.held = [] ∨ s.clock < q.gapt → exec (.seqGap fn qid) s = .next s)

/-- The steps that act on the head packet of a queue. -/
def packetStep (fn qid : Nat) (i : Instr) : Prop :=
  i = .faultAck fn qid ∨ i = .signal fn qid ∨ i = .wait fn qid ∨ i = .waitPacketDone fn qid ∨ i = .copy fn qid ∨ i = .launch fn qid ∨
    i = .gangReservation fn qid ∨ i = .admitPkt fn qid ∨ i = .destroy fn qid ∨ i = .regq fn qid ∨ i = .unregq fn qid ∨
    i = .resetq fn qid ∨ i = .rekey fn qid

/-- A head packet with a reserved bit set or an opcode that is none faults its queue; one that a fence holds, a queue that is not READY
or not mapped, and a packet of another opcode leave everything as it is (R366, R367, R369). -/
def PacketStops : Prop :=
  ∀ s fn qid q i, packetStep fn qid i → s.qcb fn qid = some q → fn < 15 → fn < s.queue.fns.length → qid < 8192 →
    (q.state ≠ 1 ∨ q.slot = none → exec i s = .next s) ∧
    (∀ p, s.headPacket q = .ok (some p) → pfield p 8 8 = 1 → q.infl ≠ 0 → exec i s = .next s) ∧
    (∀ p, s.headPacket q = .ok (some p) → (pfield p 8 8 = 1 → q.infl = 0) → packetOk p = false →
      ∃ t, exec i s = .next t ∧ QueueFaulted s t q 5 (if q.auth then q.seq else 0) (if q.auth then pfield p 63 32 else 0))

/-- FAULT_ACK: 1 where no open record has the number; 2 for a disposition that is none or that the fault has not; 1 resumes and 0 kills,
either closing the record (R296, R367). -/
def FaultAckResults : Prop :=
  ∀ s q p, Heads s q p → pfield p 7 0 = 1 →
    let found := s.queue.faults.find? fun f => decide (f.fn = q.fn) && decide (f.recno = pfield p 223 192) && f.isOpen
    let d := pfield p 231 224
    (found = none → ∃ t, exec (.faultAck q.fn q.qid) s = .next t ∧ Finished s t q p 1) ∧
    (∀ f, found = some f → 1 < d ∨ (d = 1 ∧ f.code ≠ 19) → ∃ t, exec (.faultAck q.fn q.qid) s = .next t ∧ Finished s t q p 2) ∧
    (∀ f, found = some f → f.code = 19 → d = 1 → ∃ t, exec (.faultAck q.fn q.qid) s = .next t ∧
      Finished { s with queue := { s.queue with faults := s.queue.faults.filter fun x => x ≠ f } } t q p 0) ∧
    (∀ f la, found = some f → d = 0 → f.launch = true → f.cls = 3 → s.launchOf f.tag = some la → la.killed = false →
      ∃ t u, exec (.faultAck q.fn q.qid) s = .next t ∧ Finished u t q p 0 ∧ f ∉ u.queue.faults ∧ (∀ g ∈ t.flights, g.tag ≠ f.tag) ∧
        ∀ x ∈ t.slots, x.flight ∉ s.flightsOf f.tag)

/-- SIGNAL stores its value, or adds it, at an n64; 9 where the address faults (R367). -/
def SignalResults : Prop :=
  ∀ s q p, Heads s q p → pfield p 7 0 = 2 →
    let a := pfield p 255 192
    (∀ u pa, s.devPieces (fnAgent q.fn) .atomic a 8 8 = .ok (u, [(pa, 8)]) → (q.fn = 0 → u.hostVisible [(pa, 8)] = true) →
      SoundMemory u → u.mayFill q.fn →
      ∃ t m, exec (.signal q.fn q.qid) s = .next t ∧ Finished m t q p 0 ∧ m = { u with mem := m.mem, tier := m.tier } ∧
        m.peekN pa 8 = ((if pfield p 320 320 = 1 then u.peekN pa 8 else 0) + pfield p 319 256) % 2 ^ 64 ∧
        ∀ x, x < pa ∨ pa + 8 ≤ x → Memory.read m.mem x = Memory.read u.mem x) ∧
    (∀ f, s.devPieces (fnAgent q.fn) .atomic a 8 8 = .error (.fault f) →
      ∃ t, exec (.signal q.fn q.qid) s = .next t ∧ Finished s t q p 9)

/-- WAIT completes at once where its condition holds, with 9 where its address faults, and else waits for its deadline; a parked WAIT
completes with 0 when the condition holds and with 1 when the deadline has passed (R182, R367, R369). -/
def WaitPacketResults : Prop :=
  ∀ s q p, Heads s q p → pfield p 7 0 = 3 → ∀ u pa, s.devPieces (fnAgent q.fn) .load (pfield p 255 192) 8 8 = .ok (u, [(pa, 8)]) →
    (q.fn = 0 → u.hostVisible [(pa, 8)] = true) →
    let holds := compares (pfield p 322 320) (u.peekN pa 8) (pfield p 319 256)
    (q.waiting = none → holds = true → ∃ t, exec (.wait q.fn q.qid) s = .next t ∧ Finished s t q p 0) ∧
    (q.waiting = none → holds = false → ∃ t, exec (.wait q.fn q.qid) s = .next t ∧
      t.qcb q.fn q.qid = some { q with waiting := some (waitUntil s.clock (pfield p 327 323)) } ∧
      t = { s with queue := { s.queue with qcbs := t.queue.qcbs } }) ∧
    (∀ due, q.waiting = some due →
      (holds = true → ∃ t, exec (.waitPacketDone q.fn q.qid) s = .next t ∧ Finished s t q p 0) ∧
      (holds = false → ∀ d, due = some d → d ≤ s.clock → ∃ t, exec (.waitPacketDone q.fn q.qid) s = .next t ∧ Finished s t q p 1) ∧
      (holds = false → (∀ d, due = some d → s.clock < d) → exec (.waitPacketDone q.fn q.qid) s = .next s))

/-- COPY of nothing completes at once; another is under way, with the chunks of R274 (R367, R369). -/
def CopyPacketResults : Prop :=
  ∀ s q p, Heads s q p → pfield p 7 0 = 4 →
    let n := pfield p 351 320
    (n = 0 → ∃ t, exec (.copy q.fn q.qid) s = .next t ∧ Finished s t q p 0) ∧
    (n ≠ 0 → ∃ t, exec (.copy q.fn q.qid) s = .next t ∧
      Begun s t q ⟨s.nextId, q.fn, q.qid, p, some (plainCopy (pfield p 255 192) (pfield p 319 256) n), none, none⟩)

/-- DESTROY of a kernel with a launch not yet complete fails with 1; else the kernel is gone and its pages hold zeros.  On the physical
function, which has no kernels, it completes with 0 (R339, R360, R367). -/
def DestroyResults : Prop :=
  ∀ s q p, Heads s q p → pfield p 7 0 = 7 →
    let kid := BitVec.ofNat 64 (pfield p 255 192)
    (q.fn = 0 → ∃ t, exec (.destroy q.fn q.qid) s = .next t ∧ Finished s t q p 0) ∧
    (q.fn ≠ 0 → (∃ l ∈ s.launches, l.fn = q.fn ∧ l.kid = kid ∧ l.killed = false) → ∃ t, exec (.destroy q.fn q.qid) s = .next t ∧ Finished s t q p 1) ∧
    (q.fn ≠ 0 → (∀ l ∈ s.launches, l.fn = q.fn → l.kid = kid → l.killed = true) →
      (s.kernelOf q.fn kid = none → ∃ t, exec (.destroy q.fn q.qid) s = .next t ∧ Finished s t q p 0) ∧
      ∀ k, s.kernelOf q.fn kid = some k → ∃ t u, exec (.destroy q.fn q.qid) s = .next t ∧ Finished u t q p 0 ∧
        u = { s with mem := u.mem, tier := u.tier, cores := u.cores, kernels := s.kernels.filter fun x => !decide (x.fn = q.fn ∧ x.kid = kid) } ∧
        ∀ va f l, k.pages = [va] → s.frameOf va = some f → SoundMemory s →
          ({ s with mem := Memory.clear s.mem (f * 65536) 65536 } : State).walk va = .leaf l → l.addr / 65536 ≠ f →
          ∀ i, i < 65536 → Memory.read u.mem (f * 65536 + i) = 0)

/-- CONFIG REGQ registers a queue with the fields of the packet, or completes with the status that refuses it (R363, R367). -/
def RegisterResults : Prop :=
  ∀ s q p, Heads s q p → pfield p 7 0 = 8 → pfield p 199 192 = 1 → SoundMemory s →
    let n := pfield p 220 208
    let base := pfield p 287 224
    let lgs := pfield p 292 288
    let auth := decide (pfield p 293 293 = 1)
    let st := s.regStatus q.fn n base lgs (pfield p 295 294) (pfield p 299 296) (pfield p 303 300) auth false
    (st ≠ 0 → ∃ t, exec (.regq q.fn q.qid) s = .next t ∧ Finished s t q p st) ∧
    (st = 0 → ∃ t m y, exec (.regq q.fn q.qid) s = .next t ∧ Finished s m q p 0 ∧ t.qcb q.fn n = some y ∧ y.rbase = base ∧
      y.size = 2 ^ lgs ∧ y.cls = pfield p 295 294 ∧ y.auth = auth ∧ y.bpri = pfield p 299 296 ∧ y.epri = pfield p 299 296 ∧
      y.ceil = pfield p 303 300 ∧ y.state = 1 ∧ y.ridx = 0 ∧ y.widx = 0 ∧ y.seq = 1 ∧ y.kgen = 0 ∧ y.held = [] ∧ y.parsed = [] ∧
      (∀ f k, f ≠ q.fn ∨ k ≠ n → t.qcb f k = m.qcb f k) ∧ t.kicked q.fn n = 0 ∧
      t = { m with mem := t.mem, queue := { m.queue with qcbs := t.queue.qcbs } })

/-- CONFIG UNREGQ and RESETQ (R362, R367, R372): 5 for a number without a queue, 4 for a read index or a number restart that the queue
has not; RESETQ makes the queue READY at the index, and one that keeps a slot takes up its kicked index (R364). -/
def QueueChanges : Prop :=
  ∀ s q p, Heads s q p → pfield p 7 0 = 8 →
    let n := pfield p 220 208
    let ridx := pfield p 255 224
    let again := decide (pfield p 256 256 = 1)
    (pfield p 199 192 = 2 →
      (s.qcb q.fn n = none → ∃ t, exec (.unregq q.fn q.qid) s = .next t ∧ Finished s t q p 5) ∧
      (s.qcb q.fn n ≠ none → ∃ t m, exec (.unregq q.fn q.qid) s = .next t ∧ Finished s m q p 0 ∧ t.qcb q.fn n = none ∧
        (∀ f k, f ≠ q.fn ∨ k ≠ n → t.qcb f k = m.qcb f k) ∧ t = { m with mem := t.mem, queue := { m.queue with qcbs := t.queue.qcbs } } ∧
        (SoundMemory m → t.registered q.fn n = false ∧ ∀ x, x ≠ qcbStore q.fn n + 23 → Memory.read t.mem x = Memory.read m.mem x))) ∧
    (pfield p 199 192 = 3 →
      (s.qcb q.fn n = none → ∃ t, exec (.resetq q.fn q.qid) s = .next t ∧ Finished s t q p 5) ∧
      ∀ x, s.qcb q.fn n = some x →
        ((again = true ∧ x.auth = false) ∨ 2 * x.size ≤ ridx → ∃ t, exec (.resetq q.fn q.qid) s = .next t ∧ Finished s t q p 4) ∧
        ((again = true → x.auth = true) → ridx < 2 * x.size → ∃ t m y, exec (.resetq q.fn q.qid) s = .next t ∧ Finished s m q p 0 ∧
          m.qcb q.fn n = some y ∧ (∀ f k, f ≠ q.fn ∨ k ≠ n → t.qcb f k = m.qcb f k) ∧
          let z : Qcb := { (if again then { y with kgen := (y.kgen + 1) % 256, seq := 1, held := [], parsed := [], gapt := 0 } else y) with
            ridx := ridx, state := 1, waiting := none, tried := false }
          let only : Prop := t = { m with mem := t.mem, queue := { m.queue with qcbs := t.queue.qcbs, fns := t.queue.fns } }
          let w := m.kicked q.fn n
          (y.slot = none → t.qcb q.fn n = some z ∧ only) ∧
          (y.slot ≠ none → y.auth = false → q.fn < 15 → SoundMemory m → w < 2 * y.size → (w + 2 ^ 32 - ridx) % 2 ^ 32 % (2 * y.size) ≤ y.size →
            t.qcb q.fn n = some { z with widx := w } ∧ only))) ∧
    (pfield p 199 192 = 4 →
      (s.qcb q.fn n = none → ∃ t, exec (.rekey q.fn q.qid) s = .next t ∧ Finished s t q p 5) ∧
      ∀ x, s.qcb q.fn n = some x →
        (x.auth = false → ∃ t, exec (.rekey q.fn q.qid) s = .next t ∧ Finished s t q p 4) ∧
        (x.auth = true → ∃ t m y, exec (.rekey q.fn q.qid) s = .next t ∧ Finished s m q p 0 ∧ m.qcb q.fn n = some y ∧
          t.qcb q.fn n = some { y with kgen := (y.kgen + 1) % 256, seq := 1, held := [], parsed := [], gapt := 0 } ∧
          (∀ f k, f ≠ q.fn ∨ k ≠ n → t.qcb f k = m.qcb f k) ∧
          t = { m with queue := { m.queue with qcbs := t.queue.qcbs, fns := t.queue.fns } }))

end Sys2Proof.Claim
end

