-- ==== Sys2Proof/Statements/System.lean ====
section
/-!
DEFINITION. The statements on faults, special registers, save, restore and the handler's instructions (Certificates/Slice0/Obligations.lean puts them together).
-/
namespace Sys2Proof.Claim

open Machine

/-! ### Taking a fault and returning from it (R52, R288, R291, R394 to R396) -/

/-- A fault of an entry with no access outstanding is counted in its function's records, and its core's handler is told the code, slot,
entry and record.  One that may resume
leaves the entry waiting on the handler with its registers and PC; one of class 2 ends its strand, and one of class 3 stops every flight
of the launch (R288, R394, R395, R396). -/
def FaultTaken : Prop :=
  ∀ (c : Ctx) words f, c.s.ctxAt c.ref = some c → c.e.status = .ready → c.la.fn < c.s.queue.fns.length → c.ref.core < c.s.cores.length →
    c.s.outstanding c.slot c.e = false →
    let t := c.raise words f
    let recno := (c.s.fnBlock c.la.fn).recno
    (t.core c.ref.core).trapq = (c.s.core c.ref.core).trapq ++
      [(BitVec.ofNat 64 (1 + f.code * 2 ^ 4 + c.ref.slot % 128 * 2 ^ 12 + c.ref.pos * 2 ^ 19 + recno * 2 ^ 32), 0)] ∧
    (t.fnBlock c.la.fn).recno = (recno + 1) % 2 ^ 32 ∧
    (f.code = 4 ∨ f.code = 5 ∨ f.code = 18 ∨ f.code = 19 →
      t.entry c.ref = some { c.e with status := .onHandler f.code c.la.fn recno words }) ∧
    (f.code ≠ 4 ∧ f.code ≠ 5 ∧ f.code ≠ 18 ∧ f.code ≠ 19 →
      (∀ i e, f.cls = 1 → f.item = some i → t.entry c.ref = some e → e.live i = false) ∧
      (∀ y, f.cls = 2 → t.slot c.ref.core c.ref.slot = some y → ∀ e ∈ y.entries, e.status = .done) ∧
      (f.cls = 3 → (∀ g ∈ t.flights, g.tag ≠ c.fl.tag) ∧ ∀ x ∈ t.slots, x.flight ∉ c.s.flightsOf c.fl.tag))

/-- The record of a fault, where its function has a ring that can be written; a fault in the window of an access waits for the access
(R348, R395). -/
def FaultRecorded : Prop :=
  (∀ (c : Ctx) words f, c.s.outstanding c.slot c.e = true → c.raise words f = c.s.modEntry c.ref fun e => { e with status := .held .acks }) ∧
  ∀ (c : Ctx) words f u ps, c.s.ctxAt c.ref = some c → c.la.fn ≠ 0 → (c.s.fnBlock c.la.fn).fltbase ≠ 0 → c.ref.slot < 128 →
    c.s.outstanding c.slot c.e = false →
    (∀ x, x ∈ c.s.slots ∨ (∃ g ∈ c.s.flights, x ∈ g.saved) → ∀ e ∈ x.entries, ∀ o ∈ e.ops, ∀ k, o.kind ≠ .coll k) →
    c.s.devPieces ⟨c.la.fn, c.la.fn, 0xFE, 0, 0⟩ .store
      ((c.s.fnBlock c.la.fn).fltbase.toNat + 64 * ((c.s.fnBlock c.la.fn).recno % 1024)) 64 1 = .ok (u, ps) →
    SoundMemory u → u.mayFill c.la.fn → (ps.map Prod.snd).sum = 64 → ps.Pairwise (fun p q => p.1 + p.2 ≤ q.1 ∨ q.1 + q.2 ≤ p.1) →
    (c.raise words f).readPieces ps =
      leBytes 4 (c.s.fnBlock c.la.fn).recno ++ leBytes 1 f.code ++
      leBytes 1 (f.cls % 8 + (if f.code = 4 ∨ f.code = 5 ∨ f.code = 18 ∨ f.code = 19 then 8 else 0) + if f.hwe then 16 else 0) ++
      leBytes 1 (f.row % 16 + f.cause % 16 * 16) ++ leBytes 1 (c.la.owner % 16) ++ leBytes 8 c.la.kid.toNat ++ leBytes 4 c.la.seqNo ++
      leBytes 4 c.fl.num ++ leBytes 4 (c.e.start + f.item.getD (c.e.activeList.headD 0)) ++ leBytes 4 ((c.e.pc - c.ke.code) / 4) ++
      leBytes 8 f.addr ++ leBytes 4 f.aux ++ leBytes 4 (c.ref.core + c.ref.slot / 2 * 256 + c.ref.slot % 2 * 65536) ++ leBytes 8 c.s.clock ++
      leBytes 8 0

/-- TRET: `.again` makes the entry that the handle names ready where it stopped, `.next` at the next instruction, `.kill` ends its
strand; of a strand that WATCHDOG stopped, every entry goes on; the issuer goes on (R52, R291). -/
def ReturnResults : Prop :=
  ∀ o s c i0 is (r : EntryRef) y code fn recno words, (Instr.tret o).WellFormed → s.here = some c → c.actsOn o = i0 :: is →
    c.readable .tret o = true → c.uniSources .tret o = true → ((c.reads .tret o).a i0).toNat = r.slot + 128 * r.pos → r.slot < 128 →
    r.pos < 8 → r.core = s.cur.core → r ≠ s.cur → (s.ctxAt r).map Ctx.e = some y → y.status = .onHandler code fn recno words →
    (∀ f ∈ s.queue.faults, f.fn = fn → f.recno = recno → f.cls = 2) →
    ∃ t, exec (.tret o) s = .next t ∧
      (o.mod.val % 4 = 0 ∨ o.mod.val % 4 = 1 ∧ code = 4 → t.entry r = some { y with status := .ready }) ∧
      (o.mod.val % 4 = 1 → code ≠ 4 → t.entry r = some { y with status := .ready, pc := y.pc + 4 * words, retired := y.retired + 1 }) ∧
      (o.mod.val % 4 < 2 → code = 4 → ∀ k z w, k.core = r.core → k.slot = r.slot → s.entry k = some z → z.status = .onHandler 4 fn recno w →
        t.entry k = some { z with status := .ready }) ∧
      (2 ≤ o.mod.val % 4 → ∀ z, t.entry r = some z → z.status = .done) ∧
      (o.mod.val % 4 < 2 → t.entry s.cur = some ((c.reads .tret o).e.stepped (longWords o)) ∧
        (∀ k, k ≠ s.cur → k ≠ r → (code = 4 → k.core ≠ r.core ∨ k.slot ≠ r.slot) → t.entry k = s.entry k) ∧
        t = { s with slots := t.slots })

/-- TRET with a handle that names no entry on the handler goes on and changes nothing else (R291). -/
def ReturnOfNothing : Prop :=
  ∀ o s c i0 is, (Instr.tret o).WellFormed → s.here = some c → c.actsOn o = i0 :: is → c.readable .tret o = true →
    c.uniSources .tret o = true → (1024 ≤ ((c.reads .tret o).a i0).toNat ∨
      s.entry ⟨s.cur.core, bits ((c.reads .tret o).a i0).toNat 0 7, bits ((c.reads .tret o).a i0).toNat 7 3⟩ = none) →
    ∃ t, exec (.tret o) s = .next t ∧ OnlyEntry s t ((c.reads .tret o).e.stepped (longWords o))

/-- The watchdog of a slot that has run 2^20 clocks sends every ready entry of its strand to the handler with code 4, under one record;
before that it does nothing (R52, R396). -/
def WatchdogFires : Prop :=
  ∀ s core slot x, s.slot core slot = some x →
    (x.watchdog < 2 ^ 20 → exec (.watchdog core slot) s = .next s) ∧
    (∀ e, 2 ^ 20 ≤ x.watchdog → x.entries.find? (fun e => decide (e.status = .ready)) = some e →
      ∀ c, s.ctxAt ⟨core, slot, e.pos⟩ = some c → c.e = e → c.la.fn < s.queue.fns.length →
      ∃ t y, exec (.watchdog core slot) s = .next t ∧
        (∀ pos z, s.entry ⟨core, slot, pos⟩ = some z →
          (z.status = .ready →
            t.entry ⟨core, slot, pos⟩ = some { z with status := .onHandler 4 c.la.fn (s.fnBlock c.la.fn).recno 0 }) ∧
          (z.status ≠ .ready → z.status ≠ .held .trapq → t.entry ⟨core, slot, pos⟩ = some z)) ∧
        t.slot core slot = some y ∧ y.watchdog = 0)

/-! ### Registers, time, save and restore (R54, R78, R84, R86, R98, R286 to R296, R384 to R393) -/

/-- CSRR gives the registers in their layouts, and reading changes none of them; TIME gives the clock (R286, R287). -/
def RegisterReads : Prop :=
  ∀ o s c, s.here = some c → c.actsOn o ≠ [] →
    (∀ wide w, (Instr.csrr o).WellFormed → c.readable .csrr o = true → c.e.canWriteEvery c.ke.regs c.e.activeList wide o.d = true →
      ((o.imm.val = 1 ∧ wide = false ∧ w = c.e.gen.toNat) ∨
        (o.imm.val = 2 ∧ wide = true ∧ w = c.e.chain.sum.toNat + c.e.chain.index % 2 ^ 31 * 2 ^ 32 + if c.e.chain.isOpen then 2 ^ 63 else 0) ∨
        (o.imm.val = 3 ∧ wide = true ∧ w = c.e.start + c.e.len * 2 ^ 32 + c.e.width * 2 ^ 48) ∨
        (o.imm.val = 4 ∧ wide = false ∧ s.cur.slot < 128 ∧ w = s.cur.core + s.cur.slot / 2 * 2 ^ 8 + s.cur.slot % 2 * 2 ^ 16) ∨
        (o.imm.val = 5 ∧ wide = true ∧ (w = 0 ∧ c.e.modctx = none ∨ ∃ q qn, c.e.modctx = some (q, qn) ∧ w = q.toNat)) ∨
        (o.imm.val = 0x10 ∧ wide = true ∧ w = s.fleet.patW % 2 ^ 48 + s.fleet.fepoch * 2 ^ 48) ∨
        (o.imm.val = 0x100 ∧ wide = false ∧ w = (s.core s.cur.core).rfg + (s.core s.cur.core).acg * 2 ^ 5 +
          (48 - (s.core s.cur.core).rfg - (s.core s.cur.core).acg) * 2 ^ 10 +
          (if (s.core s.cur.core).pend.isSome ∨ (s.core s.cur.core).zeroing.isSome then 2 ^ 16 else 0) +
          if (s.core s.cur.core).partBad then 2 ^ 17 else 0) ∨
        (o.imm.val = 0x102 ∧ wide = true ∧ w = bitsOf ((s.core s.cur.core).banks.map fun b => decide (b ≠ .live)) +
          if (s.core s.cur.core).prken then 2 ^ 48 else 0) ∨
        (o.imm.val = 0x105 ∧ wide = true ∧ w = (s.core s.cur.core).trapa.toNat) ∨
        (o.imm.val = 0x180 ∧ wide = true ∧ w = s.queue.psum) ∨ (o.imm.val = 0x181 ∧ wide = false ∧ w = s.queue.lseed.toNat)) →
      ∃ t e, exec (.csrr o) s = .next t ∧ OnlyEntry s t e ∧
        WroteEvery ((c.reads .csrr o).e.stepped (longWords o)) e c.ke.regs wide false o.d (BitVec.ofNat 64 w)) ∧
    ((Instr.time o).WellFormed → c.readable .time o = true → c.e.canWriteEvery c.ke.regs c.e.activeList true o.d = true →
      ∃ t e, exec (.time o) s = .next t ∧ OnlyEntry s t e ∧
        WroteEvery ((c.reads .time o).e.stepped (longWords o)) e c.ke.regs true false o.d (BitVec.ofNat 64 s.clock))

/-- CSRR of XFLAG clears it, and CSRR of TRAPQ takes the oldest activation, whose second word TRAPA keeps; from an empty queue the entry
waits (R49, R286, R288). -/
def ReadsThatChange : Prop :=
  ∀ o s c, s.here = some c → c.actsOn o ≠ [] →
    ((Instr.csrrXflag o).WellFormed → c.readable .csrr o = true → c.e.canWriteEvery c.ke.regs c.e.activeList false o.d = true →
      ∃ t e, exec (.csrrXflag o) s = .next t ∧ OnlyEntry s t e ∧
        WroteEvery { (c.reads .csrr o).e.stepped (longWords o) with xflag := false } e c.ke.regs false false o.d
          (if (c.reads .csrr o).e.xflag then 1 else 0)) ∧
    ((Instr.csrrTrapq o).WellFormed → c.readable .csrr o = true → c.e.canWriteEvery c.ke.regs c.e.activeList true o.d = true →
      s.cur.core < s.cores.length →
      ((s.core s.cur.core).trapq = [] → ∃ t, exec (.csrrTrapq o) s = .next t ∧ OnlyEntry s t { c.e with status := .held .trapq }) ∧
      ∀ w0 w1 rest, (s.core s.cur.core).trapq = (w0, w1) :: rest →
        ∃ t e, exec (.csrrTrapq o) s = .next t ∧ EntryAndCores s t e ∧
          WroteEvery ((c.reads .csrr o).e.stepped (longWords o)) e c.ke.regs true false o.d w0 ∧
          t.core s.cur.core = { s.core s.cur.core with trapq := rest, trapa := w1 } ∧ ∀ k, k ≠ s.cur.core → t.core k = s.core k)

/-- CSRW: the counters of CORE_ECC, XFLAG, RGEN (0 stored as 1), PRKEN with the banks it lets go, QE_PSUM's ones cleared, QE_LSEED; a
value of CORE_PART that is no partition sets PART_BAD and leaves the rest (R78, R84, R86, R98, R286, R359). -/
def RegisterWrites : Prop :=
  ∀ o s c i0 is w, s.here = some c → c.actsOn o = i0 :: is → c.readable .csrw o = true → c.uniSources .csrw o = true →
    s.cur.core < s.cores.length → w = (c.reads .csrw o).a i0 →
    let e := (c.reads .csrw o).e.stepped (longWords o)
    let k := s.core s.cur.core
    ((Instr.csrw o).WellFormed → o.imm.val = 0x101 → ∃ t, exec (.csrw o) s = .next t ∧ EntryAndCores s t e ∧
      t.core s.cur.core = { k with corr := bits w.toNat 0 16, rep := bits w.toNat 16 16, lost := bits w.toNat 32 16 }) ∧
    ((Instr.csrw o).WellFormed → o.imm.val ≠ 0x101 → ∃ t, exec (.csrw o) s = .next t ∧ OnlyEntry s t e) ∧
    ((Instr.csrwXflag o).WellFormed → ∃ t, exec (.csrwXflag o) s = .next t ∧ OnlyEntry s t { e with xflag := w.getLsbD 0 }) ∧
    ((Instr.csrwRgen o).WellFormed → ∃ t, exec (.csrwRgen o) s = .next t ∧
      OnlyEntry s t { e with gen := if w.setWidth 32 = 0#32 then 1 else w.setWidth 32 }) ∧
    ((Instr.corePartWrite o).WellFormed → ∃ t, exec (.corePartWrite o) s = .next t ∧ EntryAndCores s t e ∧
      t.core s.cur.core = if 4 ≤ bits w.toNat 0 5 ∧ bits w.toNat 0 5 ≤ 24 ∧ bits w.toNat 5 5 ≤ 16
        then { k with pend := some (bits w.toNat 0 5, bits w.toNat 5 5), partBad := false } else { k with partBad := true }) ∧
    ((Instr.coreRetWrite o).WellFormed → ∃ t, exec (.coreRetWrite o) s = .next t ∧ EntryAndCores s t e ∧
      (t.core s.cur.core).prken = w.getLsbD 48 ∧ (w.getLsbD 48 = true → (t.core s.cur.core).banks = k.banks) ∧
      ∀ b : Nat, w.getLsbD 48 = false → k.banks[b]? = some (.retained true) → (t.core s.cur.core).banks[b]? = some (.leaving true s.clock)) ∧
    ((Instr.qePsumClear o).WellFormed → ∃ t u, exec (.qePsumClear o) s = .next t ∧ OnlyEntry s u e ∧
      t = { u with queue := { s.queue with psum := t.queue.psum } } ∧
      ∀ b, t.queue.psum.testBit b = (s.queue.psum.testBit b && !(decide (b < 15) && w.getLsbD b))) ∧
    ((Instr.qeLseedWrite o).WellFormed → ∃ t u, exec (.qeLseedWrite o) s = .next t ∧ OnlyEntry s u e ∧
      t = { u with queue := { s.queue with lseed := w.setWidth 32 } })

/-- SAVE of no resident flight writes 1; of one it stops the flight's issue and waits.  Quiescence writes the record, frees the flight's
slots and lets the issuer go on with 0 (R289, R384, R385). -/
def SaveResults : Prop :=
  (∀ o s c i0 is, (Instr.save o).WellFormed → s.here = some c → c.actsOn o = i0 :: is → c.readable .save o = true →
    c.uniSources .save o = true →
    (s.flightAt s.cur.core ((c.reads .save o).a i0).toNat = none → c.e.canWriteEvery c.ke.regs c.e.activeList false o.d = true →
      ∃ t e, exec (.save o) s = .next t ∧ OnlyEntry s t e ∧
        WroteEvery ((c.reads .save o).e.stepped (longWords o)) e c.ke.regs false false o.d 1) ∧
    (∀ f ps, s.flightAt s.cur.core ((c.reads .save o).a i0).toNat = some f →
      c.overlap 0 true [⟨i0, ((c.reads .save o).b i0).toNat, 256⟩] = none → c.quiet → c.ref.core < s.cores.length →
      s.check c.agent (some s.cur.core) (.pool true) ((c.reads .save o).b i0).toNat 256 4096 = .ok ps →
      ∃ t g, exec (.save o) s = .next t ∧ t.flightOf f.id = some g ∧ g.state = .saving ∧ g.saveArea = ((c.reads .save o).b i0).toNat ∧
        t.entry s.cur = some { (c.reads .save o).e with status := .held (.save f.id o) } ∧ (∀ r, r ≠ s.cur → t.entry r = s.entry r))) ∧
  (∀ s fid f la k r e o, s.flightOf fid = some f → f.state = .saving → s.quiet f = true → s.launchOf f.tag = some la →
    s.kernelOf la.fn la.kid = some k → s.entry r = some e → e.status = .held (.save fid o) →
    (∀ x ∈ s.slots, x.core = r.core → x.num = r.slot → x.flight ≠ fid) → (∀ x ∈ s.slots, ∀ y ∈ x.entries, y.bad = []) → f.spoiled = [] →
    e.canWriteEvery (s.regsOf r) e.activeList false o.d = true →
    ∃ t g y, exec (.quiescenceComplete fid) s = .next t ∧ t.flightOf fid = some g ∧ g.state = .saved ∧
      g.saved = s.slots.filter (fun x => decide (x.flight = fid)) ∧ g.spad = f.spad ∧ g.tiles = f.tiles ∧ g.bars = f.bars ∧ g.alloc = [] ∧
      (∀ x ∈ t.slots, x.flight ≠ fid) ∧ t.entry r = some y ∧
      WroteEvery { e.stepped (longWords o) with status := .ready } y (s.regsOf r) false false o.d 0)

/-- REST of a record that is no record of a saved flight writes 3, of a pair flight on an odd core 4, and without room for it on the core 2;
while a bank that it takes is not live it waits; else the flight is resident there with every strand's registers, and its scratchpad and
tiles, as they were (R62, R85, R290). -/
def RestoreResults : Prop :=
  ∀ o s c i0 is ps h, (Instr.rest o).WellFormed → s.here = some c → c.actsOn o = i0 :: is → c.readable .rest o = true →
    c.uniSources .rest o = true → c.e.canWriteEvery c.ke.regs c.e.activeList false o.d = true →
    c.overlap 0 false [⟨i0, ((c.reads .rest o).a i0).toNat, 256⟩] = none → c.quiet → c.roomFor 2 →
    s.check c.agent (some s.cur.core) (.pool false) ((c.reads .rest o).a i0).toNat 256 4096 = .ok ps → h = leNat (s.readPieces ps) →
    let gives (t : State) (w : W64) : Prop := ∃ e, t.entry s.cur = some e ∧
      WroteEvery ((c.reads .rest o).e.stepped (longWords o)) e c.ke.regs false false o.d w
    (s.savedBy h = none → ∃ t e, exec (.rest o) s = .next t ∧ EntryAndCores s t e ∧ gives t 3) ∧
    (∀ f la k, s.savedBy h = some f → s.launchOf f.tag = some la → s.kernelFor f = some k →
      let ok := saveHeaderOk h (f.sectionLens k).1 (f.sectionLens k).2
      let fits (core : Nat) : Bool := bits h 119 1 = 0 || core % 2 = 0
      let u := s.modFlight f.id fun f => { f with placing := none, alloc := [] }
      (ok = false → ∃ t e, exec (.rest o) s = .next t ∧ EntryAndCores s t e ∧ gives t 3) ∧
      (ok = true → fits s.cur.core = false → ∃ t, exec (.rest o) s = .next t ∧ gives t 4 ∧ t.flights = u.flights) ∧
      (ok = true → fits s.cur.core = true → u.recordRoom f k (bits h 64 64) s.cur.core = none →
        ∃ t, exec (.rest o) s = .next t ∧ gives t 2) ∧
      ∀ alloc, ok = true → fits s.cur.core = true → u.recordRoom f k (bits h 64 64) s.cur.core = some alloc →
        (u.banksLive alloc = false → ∃ t, exec (.rest o) s = .next t ∧
          t.entry s.cur = some { c.e with status := .held (.banks s.cur.core) } ∧ t.flights = s.flights) ∧
        (u.banksLive alloc = true → f.saved.length ≤ (s.freeSlots s.cur.core).length → f.pair = false → (∀ x ∈ f.saved, x.core = f.core) →
          (f.saved.map Slot.num).Nodup →
          (∀ x ∈ f.saved, ∀ e ∈ x.entries, e.ops = [] ∧ e.status ≠ .done ∧ ∀ y d, e.status ≠ .parked (.waitc y) d) →
          ∃ t g, exec (.rest o) s = .next t ∧ gives t 0 ∧
            t.flightOf f.id = some g ∧ g.state = .resident ∧ g.core = s.cur.core ∧ g.alloc = alloc ∧ g.spad = f.spad ∧ g.tiles = f.tiles ∧
            g.bars = f.bars ∧ g.saved = [] ∧
            ∀ x ∈ f.saved, ∃ y ∈ t.slots, y.flight = x.flight ∧ y.core = s.cur.core ∧
              y.entries.map (fun z => (z.pos, z.pc, z.regs, z.xregs, z.preds, z.scalars, z.levels, z.mask)) =
                x.entries.map fun z => (z.pos, z.pc, z.regs, z.xregs, z.preds, z.scalars, z.levels, z.mask)))

/-- CLRX with another flight on its cores, the trap handler's own slot apart, writes 1; else the entry waits, and when the sequence is over
every byte that the core had stored is in memory, its cache is empty, the issuer's streams, stacks, modulus context and its flight's gang,
format, maps and barriers are empty, and D reads 0 (R292). -/
def ClearResults : Prop :=
  (∀ o s c, (Instr.clrx o).WellFormed → s.here = some c → c.actsOn o ≠ [] → c.readable .clrx o = true →
    c.e.canWriteEvery c.ke.regs c.e.activeList false o.d = true → s.cur.core < s.cores.length →
    let cs := if o.mod.val = 1 then [2 * (s.cur.core / 2), 2 * (s.cur.core / 2) + 1] else [s.cur.core]
    ((∃ x ∈ s.slots, x.core ∈ cs ∧ x.flight ≠ c.fl.id ∧ x.num < 128) → ∃ t e, exec (.clrx o) s = .next t ∧ OnlyEntry s t e ∧
      WroteEvery ((c.reads .clrx o).e.stepped (longWords o)) e c.ke.regs false false o.d 1) ∧
    ((∀ x ∈ s.slots, x.core ∈ cs → x.num < 128 → x.flight = c.fl.id) → ∃ t due, exec (.clrx o) s = .next t ∧
      t.entry s.cur = some { (c.reads .clrx o).e with status := .held (.clrx o) } ∧
      (t.core s.cur.core).clearing = some (s.cur, decide (o.mod.val = 1), due) ∧ s.clock ≤ due ∧ due ≤ s.clock + 8 * Config.clocksPerUs)) ∧
  (∀ s core r due o e, SoundStore s → core < s.cores.length → (s.core core).clearing = some (r, false, due) →
    (s.clock < due → exec (.clrxComplete core) s = .next s) ∧
    (due ≤ s.clock → s.entry r = some e → e.status = .held (.clrx o) → e.canWriteEvery (s.regsOf r) e.activeList false o.d = true →
      (∀ x ∈ (s.core core).cache, s.mayFill x.tag) →
      ∃ t y, exec (.clrxComplete core) s = .next t ∧ t.entry r = some y ∧
        WroteEvery { e.stepped (longWords o) with status := .ready, streams := [none, none, none, none], levels := [], modctx := none } y
          (s.regsOf r) false false o.d 0 ∧ (t.core core).cache = [] ∧
        (t.core core).relLog = [] ∧ (t.core core).clearing = none ∧ (∀ a, Memory.read t.mem a = s.freshAt core a) ∧
        (∀ x f, s.slot r.core r.slot = some x → s.flightOf x.flight = some f → ∃ g, t.flightOf x.flight = some g ∧
          g = { f with gang := [], gangE := g.gangE, fmt := none, maps := List.replicate 8 0, bars := [] }) ∧
        ∀ k, k ≠ r → t.entry k = s.entry k))

/-- RPLQ counts the entries that the issuer holds in its core's replay queue, by cause; RPLR takes the selected ones out of the queue and
counts them: `.drop` takes only those of contexts that are gone, which are never performed; else they are released (R132, R293, R294). -/
def ReplayResults : Prop :=
  ∀ o s c i0 is, s.here = some c → c.actsOn o = i0 :: is → s.cur.core < s.cores.length →
    c.e.canWriteEvery c.ke.regs c.e.activeList false o.d = true →
    ((Instr.rplq o).WellFormed → c.readable .rplq o = true → c.uniSources .rplq o = true →
      ∃ t e, exec (.rplq o) s = .next t ∧ OnlyEntry s t e ∧
        WroteEvery ((c.reads .rplq o).e.stepped (longWords o)) e c.ke.regs false false o.d
          (BitVec.ofNat 64 ((s.core s.cur.core).replay.filter fun r =>
            decide (r.slot = s.cur.slot ∧ r.entry = s.cur.pos ∧ r.flight = c.fl.id) &&
              (decide (bits ((c.reads .rplq o).a i0).toNat 0 4 = 15) || decide (r.cause = bits ((c.reads .rplq o).a i0).toNat 0 4))).length)) ∧
    ((Instr.rplr o).WellFormed → c.readable .rplr o = true → c.uniSources .rplr o = true →
      ∀ p : Replay → Bool, (∀ r, p r = (replaySel (o.mod.val % 4) ((c.reads .rplr o).a i0).toNat r &&
          (decide (o.mod.val / 4 % 2 = 0) || (s.flightOf r.flight).isNone))) →
        ∃ t u e, exec (.rplr o) s = .next t ∧ OnlyEntry s u e ∧
          WroteEvery ((c.reads .rplr o).e.stepped (longWords o)) e c.ke.regs false false o.d
            (BitVec.ofNat 64 ((s.core s.cur.core).replay.filter p).length) ∧
          (o.mod.val / 4 % 2 = 1 → (t.core s.cur.core).replay = (s.core s.cur.core).replay.filter (fun r => !p r) ∧
            (∀ k, k ≠ s.cur.core → t.core k = s.core k) ∧ t = { u with cores := t.cores, mem := t.mem }) ∧
          (o.mod.val / 4 % 2 = 0 → t = u.release s.cur.core p))

/-- QWAIT gives the doorbell word of its strand and clears it where that word or QE_PSUM is not 0, else it waits (R295); FLTACK of no open
record writes 1, with a disposition out of range 2, and else closes the record (R296). -/
def QueueEngineResults : Prop :=
  ∀ o s c i0 is, s.here = some c → c.actsOn o = i0 :: is →
    ((Instr.qwait o).WellFormed → c.readable .qwait o = true → c.e.canWriteEvery c.ke.regs c.e.activeList true o.d = true →
      (s.bell c.e.snum ≠ 0 ∨ s.queue.psum ≠ 0 → ∃ t u e, exec (.qwait o) s = .next t ∧ OnlyEntry s u e ∧
        t = { u with queue := { s.queue with bells := s.queue.bells.set c.e.snum 0 } } ∧
        WroteEvery ((c.reads .qwait o).e.stepped (longWords o)) e c.ke.regs true false o.d (s.bell c.e.snum)) ∧
      (s.bell c.e.snum = 0 → s.queue.psum = 0 → ∃ u, exec (.qwait o) s = .next (u.yielded s.cur) ∧
        OnlyEntry s u { (c.reads .qwait o).e with status := .parked (.qwait o) (waitUntil s.clock (o.mod.val % 32)) })) ∧
    ((Instr.fltack o).WellFormed → c.readable .fltack o = true → c.uniSources .fltack o = true →
      c.e.canWriteEvery c.ke.regs c.e.activeList false o.d = true →
      let recno := ((c.reads .fltack o).a i0).toNat % 2 ^ 32
      let disp := ((c.reads .fltack o).b i0).toNat % 2 ^ 32
      ((∀ f ∈ s.queue.faults, f.isOpen = true → f.recno ≠ recno) → ∃ t e, exec (.fltack o) s = .next t ∧ OnlyEntry s t e ∧
        WroteEvery ((c.reads .fltack o).e.stepped (longWords o)) e c.ke.regs false false o.d 1) ∧
      (∀ f, s.queue.faults.find? (fun x => decide (x.fn = c.la.fn ∧ x.recno = recno) && x.isOpen) = some f →
        (1 < disp ∨ disp = 1 ∧ f.code ≠ 19 → ∃ t e, exec (.fltack o) s = .next t ∧ OnlyEntry s t e ∧
          WroteEvery ((c.reads .fltack o).e.stepped (longWords o)) e c.ke.regs false false o.d 2) ∧
        (disp = 1 → f.code = 19 → ∃ t u e, exec (.fltack o) s = .next t ∧ OnlyEntry s u e ∧
          t = { u with queue := { s.queue with faults := s.queue.faults.filter fun x => decide (x ≠ f) } } ∧
          WroteEvery ((c.reads .fltack o).e.stepped (longWords o)) e c.ke.regs false false o.d 0) ∧
        (∀ la, disp = 0 → f.launch = true → f.cls = 3 → s.launchOf f.tag = some la → la.killed = false → c.fl.id ∉ s.flightsOf f.tag →
          ∃ t e, exec (.fltack o) s = .next t ∧ t.entry s.cur = some e ∧ (∀ g ∈ t.flights, g.tag ≠ f.tag) ∧
            WroteEvery ((c.reads .fltack o).e.stepped (longWords o)) e c.ke.regs false false o.d 0)))

/-- A QWAIT that times out writes 0, a LOCK that does writes 1 (R232, R295). -/
def OtherTimeouts : Prop :=
  ∀ s r (e : Entry) d o, s.entry r = some e → d ≤ s.clock →
    (e.status = .parked (.qwait o) (some d) → e.canWriteEvery (s.regsOf r) e.activeList true o.d = true →
      ∃ t y, exec (.timeout r) s = .next t ∧ t.entry r = some y ∧
        WroteEvery { e.stepped (longWords o) with status := .ready } y (s.regsOf r) true false o.d 0) ∧
    (∀ p va, e.status = .parked (.lock o p va) (some d) → e.canWriteEvery (s.regsOf r) e.activeList false o.d = true →
      ∃ t y, exec (.timeout r) s = .next t ∧ t.entry r = some y ∧
        WroteEvery { e.stepped (longWords o) with status := .ready } y (s.regsOf r) false false o.d 1)

/-- The hold of a FUSE ends when it no longer has a partner: it completes with the code of R45; one that lost its partner to a lower issuer
issues again (R47, R170). -/
def FuseHolds : Prop :=
  ∀ s r c o, s.ctxAt r = some c → c.e.status = .held (.fuse o) →
    (∀ n code, o.d = .s n → c.fusePartner (decide (o.mod.val = 1)) = (code, none) → code < 8 →
      ∃ t, exec (.fuseHoldEnd r) s = .next t ∧ t.entry r = some { c.e.stepped (longWords o) with
        status := .ready, scalars := c.e.scalars.set n (BitVec.ofNat 64 code) }) ∧
    (c.fuseRival o = true → ∃ t, exec (.fuseRetry r) s = .next t ∧ t.entry r = some { c.e with status := .ready }) ∧
    (c.fuseRival o = false → exec (.fuseRetry r) s = .next s)

/-! ### After reset (R12, R78, R84, R86, R287, R356, R398, R417, R427, R433, R461) -/

/-- The values that the spec states for reset; nothing is resident but the trap handler, in a slot of its own of every core (R288; the
slot's number is the model's choice, assumption 10). -/
def ResetValues : Prop :=
  State.reset.clock = 0 ∧ (∀ x ∈ State.reset.slots, x.num = 128) ∧ State.reset.slots.map Slot.core = List.range 96 ∧
    (∀ l ∈ State.reset.launches, l.owner = 0) ∧ (∀ k ∈ State.reset.kernels, k.owner = 0) ∧ State.reset.remains = [] ∧
    State.reset.cores.length = 96 ∧
    (∀ k ∈ State.reset.cores, k.rfg = 12 ∧ k.acg = 12 ∧ k.pend = none ∧ k.partBad = false ∧ k.corr = 0 ∧ k.rep = 0 ∧ k.lost = 0 ∧
      k.prken = true ∧ (∀ b ∈ k.banks, b = .live)) ∧
    State.reset.queue.fns.length = 15 ∧ (∀ b ∈ State.reset.queue.fns, b.q0lgs = 6 ∧ b.q0class = 2 ∧ b.seqwin = 1000) ∧
    State.reset.thx.mst.length = 256 ∧ (∀ e ∈ State.reset.thx.mst, e.share = 0xFE ∧ e.cls = 0) ∧
    State.reset.thx.pst.length = 4 ∧ (∀ p ∈ State.reset.thx.pst, p.length = 256 ∧ ∀ e ∈ p, e.share = 0xFE ∧ e.cls = 0) ∧
    State.reset.fleet.faccept = 0

end Sys2Proof.Claim
end

