-- ==== Sys2Proof/Statements/Tethers.lean ====
section
/-!
DEFINITION. The statements on the Gondola, tethers and peers (Certificates/Slice0/Obligations.lean puts them together).
-/
namespace Sys2Proof.Claim

open Machine

/-! ### The Gondola, tethers and peers (R410 to R416, R431 to R448) -/

/-- A line written to the Gondola reads as the bytes it held, under every attribute, whatever its counters, unless its POISON bit is set;
and a line that is in the
Gondola alone, brought onto the package, holds the bytes it reads as (R18, R410, R411, R415, R416). -/
def LinesReturn : Prop :=
  (∀ (s : State) line, s.lineAttr line ≠ 3 →
    (s.lineAttr line = 2 → ∀ g, g = s.counter (s.groupOf line) → g.bad = false ∧ g.minors.length = 8 ∧ g.poison.length = 8 ∧
      g.poison.getD (line % 8) false = false) →
    (s.writeBack line).readLine line = .ok (linePlain s line) ∧ (s.writeBack line).mem = s.mem) ∧
  ∀ (s : State) o die line plain, SoundMemory s → s.presentIn line = [] → s.readLine line = .ok plain → die < s.tier.dies.length →
    ∃ t, s.pullLine o die line = .ok t ∧ (∀ k, k < 4 → t.onPkg (4 * line + k) = true) ∧
      ∀ k, k < 512 → Memory.read t.mem (line * 512 + k) = BitVec.ofNat 8 (plain.toNat / 256 ^ k)

/-- LINE_WRITEBACK of a line that the bonded tier alone holds, whole: it leaves the package, and where a sector is dirty the Gondola has it
under its frame's attribute and owner; under attribute 2 its minor counter advances, with the major at 127.  A line that no cache holds,
and one of the device reserve, stay as they are (R18, R410, R414, R415). -/
def WriteBackResults : Prop :=
  ∀ s line, (Config.reserve ≤ line * 512 → exec (.lineWriteback line) s = .next s) ∧
    (s.inTier line = false → (∀ d ∈ s.tier.dies, ∀ h ∈ d, h.line ≠ line) → (∀ c ∈ s.cores, ∀ x ∈ c.cache, x.sector / 4 ≠ line) →
      exec (.lineWriteback line) s = .next s) ∧
    ∀ h, line * 512 < Config.reserve → (∀ c ∈ s.cores, ∀ x ∈ c.cache, x.sector / 4 ≠ line) → (∀ d ∈ s.tier.dies, ∀ x ∈ d, x.line ≠ line) →
      s.tier.lines.filter (fun x => decide (x.line = line)) = [h] → h.present = 15 →
      ∃ t, exec (.lineWriteback line) s = .next t ∧ t.presentIn line = [] ∧
        (∀ a, a / 512 = line → Memory.read t.mem a = 0) ∧ (SoundMemory s → ∀ a, a / 512 ≠ line → Memory.read t.mem a = Memory.read s.mem a) ∧
        t.tier.lines = s.tier.lines.filter (fun x => decide (x.line ≠ line)) ∧ t.tier.dies = s.tier.dies ∧
        (h.dirty = 0 → t.tier.offpkg = s.tier.offpkg ∧ t.tier.groups = s.tier.groups ∧ t.thx = s.thx) ∧
        (h.dirty ≠ 0 → s.lineAttr line ≠ 3 →
          (∃ q, t.thx = { s.thx with reqs := s.thx.reqs ++ [q] } ∧ q.kind = 2 ∧ q.line = line) ∧
          ∃ l, t.away line = some l ∧ l.attr = s.lineAttr line ∧ l.owner = s.lineOwner line ∧
          (s.lineAttr line = 0 → ∀ k, k < 512 → BitVec.ofNat 8 (l.stored.toNat / 256 ^ k) = Memory.read s.mem (line * 512 + k)) ∧
          ∀ g, s.lineAttr line = 2 → g = s.counter (s.groupOf line) → g.minors.length = 8 →
            ∃ g', t.counter (s.groupOf line) = g' ∧ (g'.major = if g.minors.getD (line % 8) 0 < 127 then g.major else g.major + 1) ∧
              g'.minors.getD (line % 8) 0 = if g.minors.getD (line % 8) 0 < 127 then g.minors.getD (line % 8) 0 + 1 else 0) ∧
        t = { s with mem := t.mem, thx := t.thx, nextId := t.nextId, tier := { s.tier with
          lines := t.tier.lines, offpkg := t.tier.offpkg, groups := t.tier.groups } }

/-- A fill checks a line of attribute 2: a poison bit, a counter entry beyond correction and a MAC that does not verify are causes 3, 2 and
1 of INTEGRITY (R416). -/
def FillChecks : Prop :=
  ∀ (s : State) o die line l, s.away line = some l → (s.presentIn line).length ≠ 4 →
    (l.attr ≠ 2 → ∃ t, s.pullLine o die line = .ok t) ∧
    (l.attr = 2 → let g := s.counter (s.groupOf line)
      (g.poison.getD (line % 8) false = true → s.pullLine o die line = .error 3) ∧
      (g.poison.getD (line % 8) false = false → g.bad = true → s.pullLine o die line = .error 2) ∧
      (g.poison.getD (line % 8) false = false → g.bad = false → s.macOk l g.major (g.minors.getD (line % 8) 0) = false →
        s.pullLine o die line = .error 1))

/-- LINE_FILL: without an answer nothing happens; an answered line is on the package and the entries that wait for it are ready; one that
fails its checks kills a launch that waits for it with INTEGRITY, or tells the owner where no entry waits (R416).  The stores and prefetches
that a line completes are spoken of elsewhere: here none is on its way. -/
def FillResults : Prop :=
  ∀ s line, ((∀ r ∈ s.thx.reqs, r.line = line → r.kind = 1 → r.answered = none) → exec (.lineFill line) s = .next s) ∧
    ∀ q, (s.thx.reqs.find? fun r => decide (r.line = line ∧ r.kind = 1) && r.answered.isSome) = some q → q.pref = [] →
      (∀ c, c < 96 → (s.core c).flying = []) →
      (∀ u, s.pullLine q.owner q.die line = .ok u → ∃ t, exec (.lineFill line) s = .next t ∧ t.mem = u.mem ∧ t.tier = u.tier ∧
        (∀ r ∈ t.thx.reqs, r.id ≠ q.id) ∧
        (∀ r e, s.entry r = some e → t.entry r = some (if e.status = .held (.fill line) then { e with status := .ready } else e)) ∧
        t = { u with slots := t.slots, thx := { u.thx with reqs := t.thx.reqs } }) ∧
      (∀ cause, s.pullLine q.owner q.die line = .error cause → (∀ x ∈ s.slots, ∀ e ∈ x.entries, e.status ≠ .held (.fill line)) →
        ∃ t, exec (.lineFill line) s = .next t ∧ t.sec.integ = min (s.sec.integ + 1) (2 ^ 32 - 1) ∧ t.slots = s.slots ∧
          t.flights = s.flights ∧ t.launches = s.launches) ∧
      ∀ cause r c, s.pullLine q.owner q.die line = .error cause → s.ctxAt r = some c → c.e.status = .held (.fill line) →
        (∀ x ∈ s.slots, ∀ e ∈ x.entries, e.status = .held (.fill line) → (⟨x.core, x.num, e.pos⟩ : EntryRef) = r) →
        ∃ t, exec (.lineFill line) s = .next t ∧ (∀ f ∈ t.flights, f.tag ≠ c.fl.tag) ∧ (∀ x ∈ t.slots, x.flight ∉ s.flightsOf c.fl.tag) ∧
          t.sec.integ = min (s.sec.integ + 1) (2 ^ 32 - 1)

/-- The replay queue of a core holds nothing but instructions to be made again, each at an index of its own. -/
def replayPlain (k : Core) : Prop := (∀ r ∈ k.replay, r.kind ≤ 2 ∧ r.work = .again) ∧ (k.replay.map Replay.index).Nodup

/-- TABLE_APPLY: a memory table with fewer than four positions of the engines is refused; else the tables selected take effect at the first
frame at least two frames on, ignored while BUSY.  TABLE_TAKE_EFFECT puts them in force and releases accesses parked with NOSLOT whose
share now has a position (R392, R434, R435). -/
def TableResults : Prop :=
  (∀ s sel, (s.thx.tapBusy = true → exec (.tableApply sel) s = .next s) ∧
    (s.thx.tapBusy = false → sel.testBit 0 = true → (s.thx.mstShadow.filter fun e => decide (e.share = 0xFE)).length < 4 →
      exec (.tableApply sel) s = .next { s with thx := { s.thx with tapStat := 1 } }) ∧
    (s.thx.tapBusy = false → (sel.testBit 0 = true → 4 ≤ (s.thx.mstShadow.filter fun e => decide (e.share = 0xFE)).length) →
      ∃ t, exec (.tableApply sel) s = .next t ∧ t.thx = { s.thx with tapBusy := true, tapSel := sel % 32, tapStat := 0, tapDue := t.thx.tapDue } ∧
        t = { s with thx := t.thx } ∧ s.thx.slotCtr + 512 ≤ 256 * t.thx.tapDue ∧ 256 * t.thx.tapDue < s.thx.slotCtr + 768)) ∧
  ∀ s, (s.thx.tapBusy = false ∨ s.thx.slotCtr < 256 * s.thx.tapDue → exec .tableTakeEffect s = .next s) ∧
    (s.thx.tapBusy = true → 256 * s.thx.tapDue ≤ s.thx.slotCtr → ∃ t, exec .tableTakeEffect s = .next t ∧ t.thx.tapBusy = false ∧
      t.thx.tapFrame = s.thx.tapDue % 2 ^ 32 ∧ (t.thx.mst = if s.thx.tapSel.testBit 0 then s.thx.mstShadow else s.thx.mst) ∧
      (∀ p, p < 4 → t.thx.pst.getD p [] = if s.thx.tapSel.testBit (p + 1) then s.thx.pstShadow.getD p [] else s.thx.pst.getD p []) ∧
      t.thx.mstShadow = s.thx.mstShadow ∧ t.thx.pstShadow = s.thx.pstShadow ∧
      ((∀ c, c < 96 → replayPlain (s.core c)) → ∀ c, c < 96 → (t.core c).replay =
        (s.core c).replay.filter fun r => !(decide (r.cause = 4) && t.thx.mst.any fun e => decide (e.share = s.replayShare r))))

/-- SLOT_SEND: a pair sends in each slot a flit of the oldest request of the slot's share in its class, or in the next class that has one,
from the memory table or its port's table; a pair that is not UP, and one that has sent in this slot, sends nothing (R433, R435). -/
def SlotResults : Prop :=
  ∀ s pair, let now := s.thx.slotCtr
    let e := (if pair < 64 then s.thx.mst else s.thx.pst.getD ((pair - 64) / 4) []).getD (now % 256) ⟨0xFF, 0⟩
    let waits (r : TReq) : Prop := r.pair = pair ∧ r.sentSlot = none ∧ r.asked ≤ now ∧ r.share = e.share ∧ e.cls ≤ r.cls ∧ r.cls < 4
    (80 ≤ pair ∨ (s.link pair).state ≠ 0 ∨ now < (s.link pair).sent ∨ (∀ r ∈ s.thx.reqs, r.pair = pair → r.sentSlot ≠ none) →
      exec (.slotSend pair) s = .next s) ∧
    (pair < 80 → pair < s.thx.links.length → (s.link pair).state = 0 → (s.link pair).sent = now →
      (∃ r ∈ s.thx.reqs, r.pair = pair ∧ r.sentSlot = none) →
      ((∀ r ∈ s.thx.reqs, ¬waits r) → ∃ t, exec (.slotSend pair) s = .next t ∧ t.thx.reqs = s.thx.reqs ∧
        t.link pair = { s.link pair with sent := now + 1 } ∧ t = { s with thx := { s.thx with links := t.thx.links } }) ∧
      ∀ before after q, s.thx.reqs = before ++ q :: after → (∀ r ∈ before ++ after, r.id ≠ q.id) → waits q →
        (∀ r ∈ s.thx.reqs, waits r → q.cls ≤ r.cls) → (∀ r ∈ before, waits r → r.cls ≠ q.cls) →
        ∃ t, exec (.slotSend pair) s = .next t ∧ t.link pair = { s.link pair with sent := now + 1 } ∧
          (∀ k, k ≠ pair → t.link k = s.link k) ∧ t = { s with thx := { s.thx with links := t.thx.links, reqs := t.thx.reqs } } ∧
          t.thx.reqs = before ++ (if q.left ≤ 1 then { q with left := 0, sentSlot := some now } else { q with left := q.left - 1 }) :: after)

/-- GONDOLA_RESPONSE: the answer, in slot t + 448, to the oldest request sent 448 slots ago or earlier: a write is
acknowledged, read data awaits its fill, poisoned data marks its sector and lets the waiting entries go on (R20, R436, R437). -/
def ResponseResults : Prop :=
  ∀ s pair poisoned, let due (r : TReq) : Prop := r.pair = pair ∧ r.answered = none ∧ ∃ a, r.sentSlot = some a ∧ a + 448 ≤ s.thx.slotCtr
    (64 ≤ pair ∨ (s.link pair).state ≠ 0 ∨ (∀ r ∈ s.thx.reqs, ¬due r) → exec (.gondolaResponse pair poisoned) s = .next s) ∧
    ∀ before after q a, pair < 64 → (s.link pair).state = 0 → s.thx.reqs = before ++ q :: after → (∀ r ∈ before ++ after, r.id ≠ q.id) →
      due q → q.sentSlot = some a → (∀ r ∈ before, due r → ∀ b, r.sentSlot = some b → a < b) →
      (∀ r ∈ after, due r → ∀ b, r.sentSlot = some b → a ≤ b) →
      (q.kind ≠ 1 → exec (.gondolaResponse pair poisoned) s = .next { s with thx := { s.thx with reqs := before ++ after } }) ∧
      (q.kind = 1 → poisoned = false → exec (.gondolaResponse pair poisoned) s = .next { s with thx := { s.thx with
        reqs := before ++ { q with answered := some (a + 448) } :: after } }) ∧
      (q.kind = 1 → poisoned = true → (∀ c, c < 96 → (s.core c).flying = []) →
        ∃ t, exec (.gondolaResponse pair poisoned) s = .next t ∧ q.sector ∈ t.tier.poisoned ∧ t.thx.reqs = before ++ after ∧
          ∀ r e, s.entry r = some e → t.entry r = some (if e.status = .held (.fill q.line) then { e with status := .ready } else e))

/-- A flit that fails its check is counted and starts a retraining of a pair that is UP, as a loss of lock does; then the requests that wait
for a line of the pair are replay entries of cause RETRAIN, and its writes are sent anew (R392, R431, R439, R441). -/
def RetrainStarts : Prop :=
  ∀ s pair, pair < s.thx.links.length →
    (exec (.flitReceive pair true) s = .next s) ∧
    ((s.link pair).state = 2 → exec (.flitReceive pair false) s = .next s) ∧
    ((s.link pair).state ≠ 0 → exec (.lossOfLock pair) s = .next s) ∧
    ((s.link pair).state = 1 → ∃ t, exec (.flitReceive pair false) s = .next t ∧
      t.link pair = { s.link pair with fltf := min ((s.link pair).fltf + 1) 0xFFFF } ∧
      t = { s with thx := { s.thx with links := t.thx.links } }) ∧
    ∀ i, i = .lossOfLock pair ∨ i = .flitReceive pair false → (s.link pair).state = 0 →
      ∃ t y, exec i s = .next t ∧ t.link pair = y ∧ y.state = 1 ∧ y.since = some s.clock ∧ y.stalled = false ∧
        y.rtcnt = min ((s.link pair).rtcnt + 1) 0xFFFF ∧
        y.fltf = (if i = .flitReceive pair false then min ((s.link pair).fltf + 1) 0xFFFF else (s.link pair).fltf) ∧
        (∀ k, k ≠ pair → t.link k = s.link k) ∧
        (pair < 64 → (∀ r ∈ t.thx.reqs, r.pair = pair → (r.kind = 1 → r.answered ≠ none) ∧ (r.kind ≠ 1 → r.sentSlot = none)) ∧
          ∀ r c l, s.ctxAt r = some c → c.e.status = .held (.fill l) → l % 64 = pair → (t.entry r).map Entry.status = some .ready ∧
            ((s.core r.core).replay = [] → (∀ k, k < 96 → (s.core k).flying = []) → (s.waitingOn pair).length ≤ 512 → r.core < s.cores.length →
              ∃ y ∈ (t.core r.core).replay, y.cause = 1 ∧ y.pair = some pair ∧ y.flight = c.fl.id ∧ y.addr = l * 512 ∧ y.work = .again))

/-- RETRAIN_END: the pair is UP with its time and spares recorded, none of its accesses stays parked; with none under way nothing happens (R440, R441, R459, R466). -/
def RetrainEnds : Prop :=
  ∀ s pair spares, pair < s.thx.links.length →
    ((s.link pair).state ≠ 1 ∨ (s.link pair).since = none → exec (.retrainEnd pair spares) s = .next s) ∧
    ∀ a, (s.link pair).state = 1 → (s.link pair).since = some a →
      let us := min ((s.clock - a) / Config.clocksPerUs) 0xFFFF
      ∃ t, exec (.retrainEnd pair spares) s = .next t ∧
        ((∀ c, c < 96 → replayPlain (s.core c)) →
          t.link pair = { s.link pair with state := 0, spare := spares % 256, last := us, since := none, stalled := false } ∧
          ∀ k, k ≠ pair → t.link k = s.link k) ∧ t.fleet.rtmax = max s.fleet.rtmax us ∧
        ((∀ c, c < 96 → replayPlain (s.core c)) →
          ∀ c, c < 96 → (t.core c).replay = (s.core c).replay.filter fun r => !(decide (r.cause = 1) && decide (r.pair = some pair)))

/-- A retraining of over 40 µs tells TETHER_STALL, once, to the handlers of the cores that hold entries of the pair; a pair that
cannot retrain is DOWN; initial training leaves it UP or DOWN and counts in neither counter (R440, R441). -/
def TetherEvents : Prop :=
  ∀ s pair, pair < s.thx.links.length → let y := s.link pair
    let only (t : State) (z : Link_) : Prop := t.link pair = z ∧ (∀ k, k ≠ pair → t.link k = s.link k) ∧ t = { s with thx := { s.thx with links := t.thx.links } }
    (y.state ≠ 1 ∨ y.since = none ∨ y.stalled = true ∨ (∃ a, y.since = some a ∧ s.clock ≤ a + 40 * Config.clocksPerUs) →
      exec (.tetherStall pair) s = .next s) ∧
    (∀ a, y.state = 1 → y.since = some a → y.stalled = false → a + 40 * Config.clocksPerUs < s.clock →
      ((∀ c, c < 96 → ∀ r ∈ (s.core c).replay, r.pair ≠ some pair) → ∃ t, exec (.tetherStall pair) s = .next t ∧ only t { y with stalled := true }) ∧
      ∀ core r rest x, core < 96 → core < s.cores.length → (∀ c, c < 96 → c ≠ core → ∀ r ∈ (s.core c).replay, r.pair ≠ some pair) →
        (s.core core).replay = r :: rest → r.pair = some pair → r.kind ≤ 2 → (s.entryWith r.flight r.item).bind s.ctxAt = some x →
        x.la.fn < s.queue.fns.length → x.ref.core = core →
        ∃ t, exec (.tetherStall pair) s = .next t ∧ t.link pair = { y with stalled := true } ∧
          (t.core core).trapq = (s.core core).trapq ++ [(BitVec.ofNat 64 (1 + 19 * 2 ^ 4 + x.ref.slot % 128 * 2 ^ 12 + x.ref.pos * 2 ^ 19 +
            (s.fnBlock x.la.fn).recno * 2 ^ 32), 0)] ∧
          ∃ f ∈ t.queue.faults, f.fn = x.la.fn ∧ f.recno = (s.fnBlock x.la.fn).recno ∧ f.code = 19 ∧ f.res = true) ∧
    (y.state = 1 → y.since ≠ none → ∃ t, exec (.pairDown pair) s = .next t ∧ only t { y with state := 2 }) ∧
    (y.state ≠ 1 ∨ y.since = none → exec (.pairDown pair) s = .next s) ∧
    (∀ ok, y.state = 1 → y.since = none → ∃ t, exec (.initialTraining pair ok) s = .next t ∧ only t { y with state := if ok then 0 else 2 }) ∧
    (∀ ok, y.state ≠ 1 ∨ y.since ≠ none → exec (.initialTraining pair ok) s = .next s)

/-- A spare channel stands in for a failed one while the stack has spares: only the spare map shows it (R436, R459, R460). -/
def ChannelStandsIn : Prop :=
  ∀ s ch, (ch < 768 → s.fleet.spares.gch < 48 → exec (.channelSubstitution ch) s = .next { s with fleet := { s.fleet with
      spares := { s.fleet.spares with gch := s.fleet.spares.gch + 1 } } }) ∧
    (768 ≤ ch ∨ 48 ≤ s.fleet.spares.gch → exec (.channelSubstitution ch) s = .next s)

/-- A peer's request at an export: refused, with nothing read or written, unless the port's session stands, the entry is valid for that peer and
function with the right asked, and the range lies in it; then it reads or writes the bytes, or waits for a page in move (R404, R442, R445). -/
def PeerResults : Prop :=
  (∀ s port peerId, port < s.thx.ports.length → ∃ t, exec (.peerLinkUp port peerId) s = .next t ∧ t.port port = ⟨0, true, peerId⟩ ∧
    (∀ k, k ≠ port → t.port k = s.port k) ∧ t = { s with thx := { s.thx with ports := t.thx.ports } }) ∧
  ∀ s port fn exp rfn write offset len data, let e := (s.thx.exports_.getD fn []).getD exp {}
    let refused : State := { s with fleet := { s.fleet with reply := some ⟨3, 1, []⟩ } }
    ((s.port port).sess = false ∨ e.v = false ∨ e.rfn ≠ rfn ∨ e.peerId ≠ (s.port port).peerId ∨
        e.rights.testBit (if write then 1 else 0) = false ∨ e.size < offset + len ∨ (write = true ∧ data.length ≠ len) →
      exec (.peerRequest port fn exp rfn write offset len data) s = .next refused) ∧
    ((s.port port).sess = true → e.v = true → e.rfn = rfn → e.peerId = (s.port port).peerId →
      e.rights.testBit (if write then 1 else 0) = true → offset + len ≤ e.size → (write = true → data.length = len) →
      let pieces := s.devPieces ⟨fn, fn, 0xFE, 0, 0⟩ (if write then .store else .load) (e.base.toNat + offset) len 1
      (∀ cause a pair, pieces = .error (.park cause a pair) → exec (.peerRequest port fn exp rfn write offset len data) s = .next { s with
        fleet := { s.fleet with outside := s.fleet.outside ++ [.peer port fn exp rfn write offset len data] } }) ∧
      (∀ f, pieces = .error (.fault f) → exec (.peerRequest port fn exp rfn write offset len data) s = .next refused) ∧
      ∀ u ps, pieces = .ok (u, ps) →
      (write = false → exec (.peerRequest port fn exp rfn write offset len data) s =
        .next { u with fleet := { u.fleet with reply := some ⟨3, 0, u.readPieces ps⟩ } }) ∧
      (write = true → SoundMemory u → u.mayFill fn → (ps.map Prod.snd).sum = len →
        ps.Pairwise (fun p q => p.1 + p.2 ≤ q.1 ∨ q.1 + q.2 ≤ p.1) →
        ∃ t, exec (.peerRequest port fn exp rfn write offset len data) s = .next t ∧ t.readPieces ps = data ∧
          (∀ x, (∀ p ∈ ps, x < p.1 ∨ p.1 + p.2 ≤ x) → Memory.read t.mem x = Memory.read u.mem x) ∧
          t = { u with mem := t.mem, tier := t.tier, fleet := { u.fleet with reply := some ⟨3, 0, []⟩ } }))

/-- PEER_PORT_DOWN: the port is DOWN without a session, and a copy of an entry that is outstanding there retires with PEER_DENY (R273, R448). -/
def PortGoesDown : Prop :=
  ∀ s port, port < s.thx.ports.length → ∃ t, exec (.peerPortDown port) s = .next t ∧ t.port port = { s.port port with state := 2, sess := false } ∧
    (∀ k, k ≠ port → t.port k = s.port k) ∧
    ((∀ x ∈ s.slots, ∀ e ∈ x.entries, e.ops = []) → (∀ f ∈ s.flights, f.saved = []) →
      t = { s with thx := { s.thx with ports := t.thx.ports, reqs := t.thx.reqs } }) ∧
    (∀ r ∈ t.thx.reqs, r.pair < 64 + 4 * port ∨ 68 + 4 * port ≤ r.pair) ∧
    ∀ r e o c, (s.slots.map fun x => (x.core, x.num)).Nodup → (∀ x ∈ s.slots, (x.entries.map Entry.pos).Nodup) → s.entry r = some e →
      (∀ x ∈ s.slots, ∀ y ∈ x.entries, (⟨x.core, x.num, y.pos⟩ : EntryRef) ≠ r → y.ops = []) → (∀ f ∈ s.flights, f.saved = []) → e.ops = [o] → o.kind = .copy c → o.cls = 0 → o.done = false →
      (c.dsp = .peer ∨ c.ssp = .peer) → c.port = port → c.cancelled = false → c.broken = false →
      e.status = .ready →
      ∃ y, t.entry r = some y ∧ (∀ z ∈ y.ops, z.id ≠ o.id) ∧ ∀ st ∈ y.stats, st.id = o.id → st.code = 8

end Sys2Proof.Claim
end

