-- ==== Sys2Proof/Statements/Waiting.lean ====
section
/-!
DEFINITION. The statements on locks, barriers and waits (Certificates/Slice0/Obligations.lean puts them together).
-/
namespace Sys2Proof.Claim

open Machine

/-! ### Locks, waits and barriers (R229 to R240, R54) -/

/-- LOCK takes a word that reads 0: it holds the entry's identity and D reads 0.  A word that is held leaves the entry waiting, in order
of arrival, until its deadline (R229, R230, R232). -/
def LockResults : Prop :=
  ∀ o s c i0 is va pa w, (Instr.lock o).WellFormed → SoundStore s → s.here = some c → c.actsOn o = i0 :: is → c.readable .lock o = true →
    c.uniSources .lock o = true → va = addrOf o ((c.reads .lock o).a i0) → c.served .atomic 8 [(i0, va)] (fun _ => pa) →
    c.e.canWriteEvery c.ke.regs c.e.activeList false o.d = true →
    w = leNat ((List.range 8).map fun k => atomicView c s (o.mod.val / 32 + 2) (pa + k)) →
    (w = 0 → ∃ t e, exec (.lock o) s = .next t ∧ t.entry s.cur = some e ∧ (∀ r, r ≠ s.cur → t.entry r = s.entry r) ∧
      WroteEvery ((c.reads .lock o).e.ordered (longWords o) c.e.window) e c.ke.regs false false o.d 0 ∧
      (∀ k, k < 8 → t.freshAt c.ref.core (pa + k) = (leBytes 8 c.identity.toNat).getD k 0) ∧
      ∀ a, a < pa ∨ pa + 8 ≤ a → t.freshAt c.ref.core a = s.freshAt c.ref.core a) ∧
    (w ≠ 0 → ∃ u, exec (.lock o) s = .next (u.yielded s.cur) ∧ EntryAndCores { s with nextId := s.nextId + 1 } u
      { (c.reads .lock o).e with status := .parked (.lock o s.nextId va) (waitUntil s.clock (o.mod.val % 32)) })

/-- UNLOCK of a word that holds the entry's identity leaves 0 there and writes 0 to D; of any other word it leaves it and writes 2
(R231). -/
def UnlockResults : Prop :=
  ∀ o s c i0 is va pa w, (Instr.unlock o).WellFormed → SoundStore s → s.here = some c → c.actsOn o = i0 :: is →
    c.readable .unlock o = true → c.uniSources .unlock o = true → va = addrOf o ((c.reads .unlock o).a i0) →
    c.served .atomic 8 [(i0, va)] (fun _ => pa) → c.e.canWriteEvery c.ke.regs c.e.activeList false o.d = true →
    c.mustWait 2 (o.mod.val / 32 + 2) = false →
    w = leNat ((List.range 8).map fun k => atomicView c s (o.mod.val / 32 + 2) (pa + k)) →
    ∃ t e, exec (.unlock o) s = .next t ∧ t.entry s.cur = some e ∧ (∀ r, r ≠ s.cur → t.entry r = s.entry r) ∧
      WroteEvery ((c.reads .unlock o).e.ordered (longWords o) c.e.window) e c.ke.regs false false o.d (if w = c.identity.toNat then 0 else 2) ∧
      leNat ((List.range 8).map fun k => atomicView c t (o.mod.val / 32 + 2) (pa + k)) = (if w = c.identity.toNat then 0 else w)

/-- A retry of a waiting LOCK takes a word that reads 0 when no entry came to it earlier, and the entry goes on (R230). -/
def LockRetryResults : Prop :=
  ∀ s r c o place va pa dl, SoundStore s → s.ctxAt r = some c → c.e.status = .parked (.lock o place va) dl → c.quiet → c.kept →
    c.roomFor 1 → r.core < s.cores.length →
    s.check c.agent (some r.core) .atomic va 8 8 = .ok [(pa, 8)] → pa % 128 + 8 ≤ 128 → s.lockBefore place va = false →
    c.e.canWriteEvery c.ke.regs c.e.activeList false o.d = true →
    (∀ k, k < 8 → atomicView c s (o.mod.val / 32 + 2) (pa + k) = 0) →
    ∃ t e, exec (.lockRetry r) s = .next t ∧ t.entry r = some e ∧ e.status = .ready ∧ e.pc = c.e.pc + 4 * longWords o ∧
      ∀ k, k < 8 → t.freshAt r.core (pa + k) = (leBytes 8 c.identity.toNat).getD k 0

/-- BARI registers a word, or registers it again where nothing has arrived, and says by its status why it does not (R236, R237). -/
def BarrierInit : Prop :=
  ∀ o s c i0 is off n, (Instr.bari o).WellFormed → SoundStore s → s.here = some c → c.actsOn o = i0 :: is → c.readable .bari o = true →
    c.uniSources .bari o = true → off = ((c.reads .bari o).a i0).toNat → n = ((c.reads .bari o).b i0).toNat → off % 8 = 0 →
    off + 8 ≤ c.fl.spadSize → c.e.canWriteEvery c.ke.regs c.e.activeList false o.d = true →
    let w := c.fl.word off
    let old := decide (bits w 63 1 = 1)
    let code := if n = 0 ∨ 2 ^ 24 ≤ n then 3 else if old then (if 0 < bits w 24 24 then 3 else 0) else if 16 ≤ c.fl.bars.length then 4 else 0
    ∃ t e g, exec (.bari o) s = .next t ∧ t.entry s.cur = some e ∧ (∀ r, r ≠ s.cur → t.entry r = s.entry r) ∧ t.flightOf c.fl.id = some g ∧
      t = { s with slots := t.slots, flights := t.flights } ∧
      WroteEvery ((c.reads .bari o).e.ordered (longWords o) c.e.window) e c.ke.regs false false o.d (BitVec.ofNat 64 code) ∧
      (code ≠ 0 → g = c.fl) ∧
      (code = 0 → g.word off = n + (if old then bits w 48 15 else 0) * 2 ^ 48 + 2 ^ 63 ∧
        (∀ a, a < off ∨ off + 8 ≤ a → Memory.read g.spad a = Memory.read c.fl.spad a) ∧
        (old = false → ∃ b ∈ g.bars, b.off = off ∧ b.items = decide (o.mod.val = 1)))

/-- BARV arrives once for each item acted on and BARN B times for the entry: D receives the phase found; as often as the arrivals reach
EXPECT the phase goes on, and the rest stays counted (R238). -/
def BarrierArrivals : Prop :=
  ∀ i op o s c i0 is off b k, ((i = .barv o ∧ op = .barv ∧ k = (c.actsOn o).length) ∨
      (i = .barn o ∧ op = .barn ∧ k = ((c.reads .barn o).b i0).toNat ∧ k < 2 ^ 24)) →
    i.WellFormed → SoundStore s → s.here = some c → c.actsOn o = i0 :: is → c.readable op o = true → c.uniSources op o = true →
    off = ((c.reads op o).a i0).toNat → c.barrierReady off b → b.due = 0 → 0 < bits (c.fl.word off) 0 24 → c.quiet →
    c.e.canWriteEvery c.ke.regs c.e.activeList false o.d = true →
    let x := bits (c.fl.word off) 0 24
    let a := bits (c.fl.word off) 24 24
    let p := bits (c.fl.word off) 48 15
    ∃ t e g, exec i s = .next t ∧ t.entry s.cur = some e ∧ t.flightOf c.fl.id = some g ∧
      WroteEvery { (c.reads op o).e.ordered (longWords o) c.e.window with retired := e.retired } e c.ke.regs false false o.d (BitVec.ofNat 64 p) ∧
      g.word off = x + (a + k) % x * 2 ^ 24 + (p + (a + k) / x) % 2 ^ 15 * 2 ^ 48 + 2 ^ 63 ∧
      (∀ m, m < off ∨ off + 8 ≤ m → Memory.read g.spad m = Memory.read c.fl.spad m) ∧ (∀ j, j ≠ c.fl.id → t.flightOf j = s.flightOf j)

/-- BARN with a count out of range arrives at nothing: D receives the phase, and XFLAG is set (R238). -/
def BarrierCountBad : Prop :=
  ∀ o s c i0 is off b, (Instr.barn o).WellFormed → s.here = some c → c.actsOn o = i0 :: is → c.readable .barn o = true →
    c.uniSources .barn o = true → off = ((c.reads .barn o).a i0).toNat → c.barrierReady off b → 2 ^ 24 ≤ ((c.reads .barn o).b i0).toNat →
    c.e.canWriteEvery c.ke.regs c.e.activeList false o.d = true →
    ∃ t e, exec (.barn o) s = .next t ∧ OnlyEntry s t e ∧
      WroteEvery { (c.reads .barn o).e.ordered (longWords o) c.e.window with xflag := true } e c.ke.regs false false o.d
        (BitVec.ofNat 64 (bits (c.fl.word off) 48 15))

/-- BARW goes on at once where the phase has moved on from B, and else waits (R239). -/
def BarrierWaits : Prop :=
  ∀ o s c i0 is off b, (Instr.barw o).WellFormed → s.here = some c → c.actsOn o = i0 :: is → c.readable .barw o = true →
    c.uniSources .barw o = true → off = ((c.reads .barw o).a i0).toNat → c.barrierReady off b → c.quiet →
    c.e.canWriteEvery c.ke.regs c.e.activeList false o.d = true →
    (bits (c.fl.word off) 48 15 ≠ ((c.reads .barw o).b i0).toNat % 2 ^ 15 → ∃ t e, exec (.barw o) s = .next t ∧ EntryAndCores s t e ∧
      WroteEvery ((c.reads .barw o).e.ordered (longWords o) c.e.window) e c.ke.regs false false o.d 0) ∧
    (bits (c.fl.word off) 48 15 = ((c.reads .barw o).b i0).toNat % 2 ^ 15 → ∃ u, exec (.barw o) s = .next (u.yielded s.cur) ∧
      OnlyEntry s u { (c.reads .barw o).e with status := .parked (.barw o off (((c.reads .barw o).b i0).toNat % 2 ^ 15)) (waitUntil s.clock (o.mod.val % 32)) })

/-- A barrier instruction on a word that no BARI registered raises BAR_UNINIT (R236, R396). -/
def BarrierUninit : Prop :=
  ∀ o s c i0 is off, s.here = some c → c.actsOn o = i0 :: is → off % 8 = 0 → off + 8 ≤ c.fl.spadSize →
    (c.fl.bars.find? fun b => decide (b.off = off)) = none →
    ∀ p ∈ [(Instr.barv o, Op.barv), (.barn o, .barn), (.barw o, .barw)], p.1.WellFormed → c.readable p.2 o = true → c.uniSources p.2 o = true →
      off = ((c.reads p.2 o).a i0).toNat → exec p.1 s = .next (c.raise (longWords o) ⟨15, 2, 0, 0, false, off, 0, none⟩)

/-- WAITC goes on when its class counts no more than its threshold, and the copies of retired destinations leave the core's cache; else it
waits (R129, R235). -/
def WaitcResults : Prop :=
  ∀ o s c i0 is, (Instr.waitc o).WellFormed → s.here = some c → c.actsOn o = i0 :: is → c.quiet →
    c.e.canWriteEvery c.ke.regs c.e.activeList false o.d = true →
    (c.e.counts.getD (o.imm.val % 4) 0 ≤ o.imm.val / 4 % 64 → ∃ t e, exec (.waitc o) s = .next t ∧ EntryAndCores s t e ∧
      WroteEvery { c.e.ordered (longWords o) c.e.window with dsts := [] } e c.ke.regs false false o.d 0) ∧
    (o.imm.val / 4 % 64 < c.e.counts.getD (o.imm.val % 4) 0 → ∃ u, exec (.waitc o) s = .next (u.yielded s.cur) ∧
      OnlyEntry s u { c.e with status := .parked (.waitc o) (waitUntil s.clock (o.mod.val % 32)) })

/-- WAITV goes on when the relation holds, in every item acted on, between the word at its address and B; else it waits (R234). -/
def WaitvResults : Prop :=
  ∀ o s c pa u n, (Instr.waitv o).WellFormed → s.here = some c → c.actsOn o ≠ [] → c.readable .waitv o = true → n = o.ty.bytes →
    c.served .load n (c.reaches o fun i => ((c.reads .waitv o).a i).toNat) pa →
    c.e.canWriteEvery c.ke.regs c.e.activeList false o.d = true →
    u = c.acquire s (o.imm.val / 8 % 8) (decide (o.imm.val / 64 = 1)) →
    let holds := (c.actsOn o).all fun i => compares (o.imm.val % 8)
      (intOf o.ty (storePat o.ty (leNat (u.seen c.ref.core (pa ((c.reads .waitv o).a i).toNat) n)))) (intOf o.ty ((c.reads .waitv o).b i))
    (holds = true → ∃ t e, exec (.waitv o) s = .next t ∧ EntryAndCores u t e ∧
      WroteEvery ((c.reads .waitv o).e.ordered (longWords o) c.e.window) e c.ke.regs false false o.d 0) ∧
    (holds = false → ∃ t, exec (.waitv o) s = .next (t.yielded s.cur) ∧
      EntryAndCores s t { (c.reads .waitv o).e with status := .parked (.waitv o) (waitUntil s.clock (o.mod.val % 32)) })

/-- The wakes of waiting entries: YIELDC_WAKE once the count has fallen, WAITV_REEVALUATE leaves the entry ready once its relation holds,
TIMEOUT at the deadline writes 1 and goes on; before that they change nothing (R53, R54, R232, R234). -/
def WaitWakes : Prop :=
  ∀ s r c, s.ctxAt r = some c →
    (∀ cls t target dl, c.e.status = .parked (.yieldc cls t target) dl → target < 2 ^ 64 →
      (c.e.counts.getD cls 0 ≤ t → ∃ u e, exec (.yieldcWake r) s = .next u ∧ u.entry r = some e ∧
        e = { c.e.goesTo target with status := .ready, dsts := [] }) ∧
      (t < c.e.counts.getD cls 0 → exec (.yieldcWake r) s = .next s)) ∧
    (∀ o w d, c.e.status = .parked w (some d) →
      (w = .waitv o ∨ w = .waitc o ∨ (∃ off p, w = .barw o off p) ∨ ∃ n a, w = .lock o n a) →
      c.e.canWriteEvery c.ke.regs c.e.activeList false o.d = true → d ≤ s.clock →
      ∃ u e, exec (.timeout r) s = .next u ∧ u.entry r = some e ∧
        WroteEvery { c.e.stepped (longWords o) with status := .ready } e c.ke.regs false false o.d 1) ∧
    (∀ w d, c.e.status = .parked w (some d) → s.clock < d → ∃ u, exec (.timeout r) s = .next u ∧ u.entry r = some c.e) ∧
    (∀ o dl i (a : Nat) pa u, c.e.status = .parked (.waitv o) dl → (Instr.waitv o).WellFormed → c.actsOn o = [i] →
      c.readable .waitv o = true → a = ((c.reads .waitv o).a i).toNat → c.quiet → c.kept → c.roomFor 1 → r.core < s.cores.length →
      s.check c.agent (some r.core) .load a o.ty.bytes o.ty.bytes = .ok [(pa, o.ty.bytes)] →
      pa % 128 + o.ty.bytes ≤ 128 → u = c.acquire s (o.imm.val / 8 % 8) (decide (o.imm.val / 64 = 1)) →
      compares (o.imm.val % 8) (intOf o.ty (storePat o.ty (leNat (u.seen r.core pa o.ty.bytes)))) (intOf o.ty ((c.reads .waitv o).b i)) = true →
      ∃ t e, exec (.waitvReevaluate r) s = .next t ∧ t.entry r = some e ∧ e.status = .ready)

end Sys2Proof.Claim
end

