-- ==== Sys2Proof/Certificates/Slice0/Obligations.lean ====
section
/-!
DEFINITION. The statements for the provers.  Each puts together claims of Sys2Proof/Statements/, whose docstrings name the rules.
-/

/-- The worked encodings of the spec decode to the instructions they stand for. -/
def Obligations.DecodesSpecWords : Prop :=
  Sys2Proof.Claim.DecodesSpecWords

/-- Decoding the encoding of a well-formed instruction gives it back. -/
def Obligations.DecodeEncode : Prop :=
  Sys2Proof.Claim.DecodeEncode

/-- The decoder accepts nothing but the words of a well-formed instruction. -/
def Obligations.DecodedWordsAreCanonical : Prop :=
  Sys2Proof.Claim.DecodedWordsAreCanonical

/-- A step runs the instruction that the code at the PC decodes to, or takes ILLEGAL. -/
def Obligations.StepsRunTheCode : Prop :=
  Sys2Proof.Claim.StepRunsDecoded ∧ Sys2Proof.Claim.StepTakesIllegal

/-- Every step keeps memory, scratchpads and core caches in their canonical form. -/
def Obligations.StepKeepsStore : Prop :=
  Sys2Proof.Claim.StepKeepsStore

/-- What reset leaves: an empty store that meets the invariant, and the values that the spec gives. -/
def Obligations.ResetLeaves : Prop :=
  Sys2Proof.Claim.ResetStore ∧ Sys2Proof.Claim.ResetValues

/-- The integer, bit and test instructions: values, completion and frame. -/
def Obligations.IntegerInstructions : Prop :=
  Sys2Proof.Claim.IntegerResults ∧ Sys2Proof.Claim.BitResults ∧ Sys2Proof.Claim.TestResults

/-- Shifts take their count modulo the width (R179). -/
def Obligations.ShiftCounts : Prop :=
  Sys2Proof.Claim.ShiftCounts

/-- The floating-point and conversion instructions: values, completion and frame. -/
def Obligations.FloatInstructions : Prop :=
  Sys2Proof.Claim.FloatResults ∧ Sys2Proof.Claim.ConversionResults ∧ Sys2Proof.Claim.StochasticResults

/-- FABS and FNEG change the highest bit of the pattern and nothing else (R196). -/
def Obligations.SignBits : Prop :=
  Sys2Proof.Claim.SignBits

/-- The modular instructions: the context, the values and the butterflies. -/
def Obligations.ModularInstructions : Prop :=
  Sys2Proof.Claim.ModulusContext ∧ Sys2Proof.Claim.NeedsModulus ∧ Sys2Proof.Claim.ModularResults ∧
  Sys2Proof.Claim.ButterflyResults ∧ Sys2Proof.Claim.ModularProducts

/-- A UNI result goes to a scalar, and another raises UNIFORM_BREACH. -/
def Obligations.ScalarDestinations : Prop :=
  Sys2Proof.Claim.ScalarResults ∧ Sys2Proof.Claim.ScalarBreach

/-- No item to act on, an index out of bounds, and an empty queue. -/
def Obligations.ItemsAndSources : Prop :=
  Sys2Proof.Claim.NoItems ∧ Sys2Proof.Claim.SourceStops

/-- The forms that results have: UNI, AFF and DEN. -/
def Obligations.RegisterForms : Prop :=
  Sys2Proof.Claim.AffineSums ∧ Sys2Proof.Claim.ResultForms

/-- PERM, SCAN and REDU across the items of an entry. -/
def Obligations.AcrossItems : Prop :=
  Sys2Proof.Claim.PermResults ∧ Sys2Proof.Claim.ScanResults ∧ Sys2Proof.Claim.ReduResults ∧ Sys2Proof.Claim.FoldValues

/-- NOP has no effect but counts as retired (R157). -/
def Obligations.NopRetires : Prop :=
  Sys2Proof.Claim.NopResults

/-- EXIT, YIELD, BRA, CALL, RET, YIELDC and REORD. -/
def Obligations.EntryControl : Prop :=
  Sys2Proof.Claim.ExitResults ∧ Sys2Proof.Claim.EndsItems ∧ Sys2Proof.Claim.YieldResults ∧
  Sys2Proof.Claim.Transfers ∧ Sys2Proof.Claim.YieldcResults ∧ Sys2Proof.Claim.ReordResults

/-- BRU transfers the whole entry or falls through (R166). -/
def Obligations.UniformBranches : Prop :=
  Sys2Proof.Claim.UniformBranch

/-- ELECT, IDX, FORMOF and VOTE. -/
def Obligations.StrandQueries : Prop :=
  Sys2Proof.Claim.ElectResults ∧ Sys2Proof.Claim.IdxResults ∧ Sys2Proof.Claim.FormofResults ∧
  Sys2Proof.Claim.VoteResults

/-- BRC: the whole entry, two pieces, or a mask. -/
def Obligations.Divergence : Prop :=
  Sys2Proof.Claim.BranchWhole ∧ Sys2Proof.Claim.BranchCuts ∧ Sys2Proof.Claim.BranchMasks

/-- JOIN and the reunion of pieces. -/
def Obligations.Joins : Prop :=
  Sys2Proof.Claim.JoinResults ∧ Sys2Proof.Claim.MergeKeepsValues ∧ Sys2Proof.Claim.RejoinResults

/-- SPLIT and FUSE of strands. -/
def Obligations.SplitsAndFuses : Prop :=
  Sys2Proof.Claim.SplitResults ∧ Sys2Proof.Claim.FuseResults ∧ Sys2Proof.Claim.FuseMerges ∧ Sys2Proof.Claim.FuseHolds

/-- LD, LDP, LDS and PREF. -/
def Obligations.Loads : Prop :=
  Sys2Proof.Claim.LoadResults ∧ Sys2Proof.Claim.LoadsWords ∧ Sys2Proof.Claim.LoadsScratchpad ∧
  Sys2Proof.Claim.PrefetchResults

/-- ST, STP, STS, XSET, CHKB and CHKX. -/
def Obligations.Stores : Prop :=
  Sys2Proof.Claim.StoreResults ∧ Sys2Proof.Claim.StoresWords ∧ Sys2Proof.Claim.StoresScratchpad ∧
  Sys2Proof.Claim.WindowResults ∧ Sys2Proof.Claim.CheckResults

/-- ATOM, ATOMS and CAS. -/
def Obligations.Atomics : Prop :=
  Sys2Proof.Claim.AtomicResults ∧ Sys2Proof.Claim.AtomicsInOrder ∧ Sys2Proof.Claim.ScratchpadAtomics ∧
  Sys2Proof.Claim.AtomicValues

/-- FENCE, release, acquire and CMAINT. -/
def Obligations.Ordering : Prop :=
  Sys2Proof.Claim.FenceResults ∧ Sys2Proof.Claim.ReleasePublishes ∧ Sys2Proof.Claim.AcquireSees ∧
  Sys2Proof.Claim.MaintainResults

/-- LOCK and UNLOCK, and the retry of a lock that waits. -/
def Obligations.Locks : Prop :=
  Sys2Proof.Claim.LockResults ∧ Sys2Proof.Claim.UnlockResults ∧ Sys2Proof.Claim.LockRetryResults

/-- BARI, BARV, BARN and BARW. -/
def Obligations.Barriers : Prop :=
  Sys2Proof.Claim.BarrierInit ∧ Sys2Proof.Claim.BarrierArrivals ∧ Sys2Proof.Claim.BarrierCountBad ∧
  Sys2Proof.Claim.BarrierWaits ∧ Sys2Proof.Claim.BarrierUninit

/-- WAITC and WAITV, and what ends a wait. -/
def Obligations.Waits : Prop :=
  Sys2Proof.Claim.WaitcResults ∧ Sys2Proof.Claim.WaitvResults ∧ Sys2Proof.Claim.WaitWakes ∧
  Sys2Proof.Claim.OtherTimeouts

/-- GANG, the gang latch, FBLK and AMAP. -/
def Obligations.Gangs : Prop :=
  Sys2Proof.Claim.GangResults ∧ Sys2Proof.Claim.GangEvents ∧ Sys2Proof.Claim.MatrixRegisters

/-- MMA, MMAS, ZMMA, CMPR, ACLR, ALD, AST, AMOV, ASCL and the drains enter the engine queue. -/
def Obligations.MatrixIssue : Prop :=
  Sys2Proof.Claim.MultiplyIssue ∧ Sys2Proof.Claim.MultiplyStops ∧ Sys2Proof.Claim.EngineIssue ∧
  Sys2Proof.Claim.EngineFull ∧ Sys2Proof.Claim.MatrixOperandKills

/-- The engine starts, retires and completes its instructions in order. -/
def Obligations.MatrixEngine : Prop :=
  Sys2Proof.Claim.EngineStarts ∧ Sys2Proof.Claim.MultiplyRetires ∧ Sys2Proof.Claim.OperationsRetire ∧
  Sys2Proof.Claim.EngineCompletes

/-- What the matrix instructions compute. -/
def Obligations.MatrixValues : Prop :=
  Sys2Proof.Claim.IntegerProducts ∧ Sys2Proof.Claim.ResidueProducts ∧ Sys2Proof.Claim.MapPlaces ∧
  Sys2Proof.Claim.AccumulatorResults ∧ Sys2Proof.Claim.CompressKeeps

/-- Drains to the scratchpad and to memory. -/
def Obligations.Drains : Prop :=
  Sys2Proof.Claim.DrainsToScratchpad ∧ Sys2Proof.Claim.DrainsToMemory ∧ Sys2Proof.Claim.DrainValues

/-- CPY, CPYP and CPYK issue, and the chunks they cover. -/
def Obligations.CopyIssues : Prop :=
  Sys2Proof.Claim.ChunksCover ∧ Sys2Proof.Claim.CopyIssue ∧ Sys2Proof.Claim.RowCopyIssue ∧
  Sys2Proof.Claim.ChainCopyIssue

/-- Chunks, chains, CANCEL and CSTAT. -/
def Obligations.CopiesPerform : Prop :=
  Sys2Proof.Claim.ChunkPerforms ∧ Sys2Proof.Claim.ChainEnds ∧ Sys2Proof.Claim.CancelResults ∧
  Sys2Proof.Claim.StatusReads

/-- CNT reads the issuing entry's four counters (R281). -/
def Obligations.CountersRead : Prop :=
  Sys2Proof.Claim.CountersRead

/-- COLL: its issue, its values and its ends. -/
def Obligations.Collectives : Prop :=
  Sys2Proof.Claim.CollectiveIssue ∧ Sys2Proof.Claim.CollectiveValues ∧ Sys2Proof.Claim.CollectiveEvents

/-- STRM and STRX, and what a stream delivers. -/
def Obligations.Streams : Prop :=
  Sys2Proof.Claim.StreamIssue ∧ Sys2Proof.Claim.StreamDelivers ∧ Sys2Proof.Claim.StreamEnds

/-- Taking a fault: its record, the handler, its class; TRAP. -/
def Obligations.TakingFaults : Prop :=
  Sys2Proof.Claim.FaultTaken ∧ Sys2Proof.Claim.FaultRecorded ∧ Sys2Proof.Claim.TrapResults

/-- TRET, and the watchdog. -/
def Obligations.ReturningFromFaults : Prop :=
  Sys2Proof.Claim.ReturnResults ∧ Sys2Proof.Claim.ReturnOfNothing ∧ Sys2Proof.Claim.WatchdogFires

/-- CSRR and CSRW. -/
def Obligations.SpecialRegisters : Prop :=
  Sys2Proof.Claim.RegisterReads ∧ Sys2Proof.Claim.ReadsThatChange ∧ Sys2Proof.Claim.RegisterWrites

/-- SAVE, REST and CLRX. -/
def Obligations.SaveAndRestore : Prop :=
  Sys2Proof.Claim.SaveResults ∧ Sys2Proof.Claim.RestoreResults ∧ Sys2Proof.Claim.ClearResults

/-- RPLQ, RPLR, QWAIT and FLTACK. -/
def Obligations.HandlerInstructions : Prop :=
  Sys2Proof.Claim.ReplayResults ∧ Sys2Proof.Claim.QueueEngineResults

/-- KICK, the wake of QWAIT, and the registration of queues. -/
def Obligations.KicksAndRegistration : Prop :=
  Sys2Proof.Claim.KickResults ∧ Sys2Proof.Claim.KickWakes ∧ Sys2Proof.Claim.QueueZero ∧
  Sys2Proof.Claim.RegistrationStatus

/-- How queues are served: slots, indexes, authenticated numbers, malformed packets. -/
def Obligations.QueueService : Prop :=
  Sys2Proof.Claim.PassResults ∧ Sys2Proof.Claim.IndexChecks ∧ Sys2Proof.Claim.SequenceNumbers ∧
  Sys2Proof.Claim.GapEnds ∧ Sys2Proof.Claim.PacketStops

/-- FAULT_ACK, SIGNAL, WAIT, COPY, DESTROY and CONFIG packets. -/
def Obligations.Packets : Prop :=
  Sys2Proof.Claim.FaultAckResults ∧ Sys2Proof.Claim.SignalResults ∧ Sys2Proof.Claim.WaitPacketResults ∧
  Sys2Proof.Claim.CopyPacketResults ∧ Sys2Proof.Claim.DestroyResults ∧ Sys2Proof.Claim.RegisterResults ∧
  Sys2Proof.Claim.QueueChanges

/-- LAUNCH packets: refusals, statuses, the commit and gangs of partitions. -/
def Obligations.Launches : Prop :=
  Sys2Proof.Claim.LaunchRefused ∧ Sys2Proof.Claim.LaunchStatuses ∧ Sys2Proof.Claim.LaunchCommits ∧
  Sys2Proof.Claim.GangReserves

/-- Flights are placed, swept and completed. -/
def Obligations.Dispatching : Prop :=
  Sys2Proof.Claim.DispatchResults ∧ Sys2Proof.Claim.SweepResults ∧ Sys2Proof.Claim.LaunchCompletes

/-- A reorder phase closes and relaunches its records in order. -/
def Obligations.ReorderPhases : Prop :=
  Sys2Proof.Claim.PhaseCloses ∧ Sys2Proof.Claim.RelaunchOrder ∧ Sys2Proof.Claim.RelaunchedStrand

/-- ADMIT packets, admission and what its verdict says first. -/
def Obligations.Admissions : Prop :=
  Sys2Proof.Claim.AdmitResults ∧ Sys2Proof.Claim.AdmissionResults ∧ Sys2Proof.Claim.VerdictOrder

/-- Partition words, pools, retention and budgets. -/
def Obligations.PoolsAndBudgets : Prop :=
  Sys2Proof.Claim.PoolChanges ∧ Sys2Proof.Claim.RetentionResults ∧ Sys2Proof.Claim.BudgetResults

/-- PARTITION_APPLY, PART_PROT and PART_WAYM. -/
def Obligations.Partitions : Prop :=
  Sys2Proof.Claim.PartitionResults ∧ Sys2Proof.Claim.ProtectionWrites

/-- Regions: grants, scrubbing, mapping and revocation. -/
def Obligations.Regions : Prop :=
  Sys2Proof.Claim.GrantResults ∧ Sys2Proof.Claim.ScrubResults ∧ Sys2Proof.Claim.PageMapped ∧
  Sys2Proof.Claim.RevokeResults

/-- Moving pages, and host DMA. -/
def Obligations.MovingAndHost : Prop :=
  Sys2Proof.Claim.MoveStarts ∧ Sys2Proof.Claim.SectorMoves ∧ Sys2Proof.Claim.HostAccess

/-- Resets of a function, of the physical function and of the device. -/
def Obligations.Resets : Prop :=
  Sys2Proof.Claim.FunctionResets ∧ Sys2Proof.Claim.PhysicalResets ∧ Sys2Proof.Claim.DeviceResets

/-- Lines of the Gondola: written back, filled and checked. -/
def Obligations.GondolaLines : Prop :=
  Sys2Proof.Claim.LinesReturn ∧ Sys2Proof.Claim.WriteBackResults ∧ Sys2Proof.Claim.FillChecks ∧
  Sys2Proof.Claim.FillResults

/-- Slot tables, requests, retraining, spares and peers. -/
def Obligations.TethersAndPeers : Prop :=
  Sys2Proof.Claim.TableResults ∧ Sys2Proof.Claim.SlotResults ∧ Sys2Proof.Claim.ResponseResults ∧
  Sys2Proof.Claim.RetrainStarts ∧ Sys2Proof.Claim.RetrainEnds ∧ Sys2Proof.Claim.TetherEvents ∧
  Sys2Proof.Claim.ChannelStandsIn ∧ Sys2Proof.Claim.PeerResults ∧ Sys2Proof.Claim.PortGoesDown

/-- The patrol, spares, power, the side-band port and debug. -/
def Obligations.PatrolAndPort : Prop :=
  Sys2Proof.Claim.PatrolSteps ∧ Sys2Proof.Claim.PatrolRetries ∧ Sys2Proof.Claim.PatrolPasses ∧
  Sys2Proof.Claim.PatrolFails ∧ Sys2Proof.Claim.PatrolSwaps ∧ Sys2Proof.Claim.FeatureResults ∧
  Sys2Proof.Claim.PowerResults ∧ Sys2Proof.Claim.SidebandResults ∧ Sys2Proof.Claim.DebugWindow ∧
  Sys2Proof.Claim.DebugUnlock

/-- Integrity windows, sessions, keys, interfaces, the lifecycle, and register writes. -/
def Obligations.TrustAndRegisters : Prop :=
  Sys2Proof.Claim.WindowWrites ∧ Sys2Proof.Claim.SessionResults ∧ Sys2Proof.Claim.KeyResults ∧
  Sys2Proof.Claim.InterfaceResults ∧ Sys2Proof.Claim.LifecycleResults ∧ Sys2Proof.Claim.WriteResults
end

