-- ==== Sys2Proof/Laws/Values.lean ====
section
/-!
SUPPORT. Reading and writing registers item by item, whatever form they have (R31, R34, R35, R67).
-/
namespace Sys2Proof.Machine

/-! ### Forms -/

theorem live_lt {e : Entry} {i : Nat} (h : e.live i = true) : i < e.len := by
  simp only [Entry.live, Bool.and_eq_true, decide_eq_true_eq] at h
  exact h.1.1

theorem mem_liveList {e : Entry} {i : Nat} : i ∈ e.liveList ↔ e.live i = true := by
  simp only [Entry.liveList, List.mem_filter, List.mem_range]
  exact ⟨fun h => h.2, fun h => ⟨live_lt h, h⟩⟩

/-- The only live item is the one that `single` names. -/
theorem single_unique {e : Entry} {k i : Nat} (hs : e.single = some k) (hi : e.live i = true) : i = k := by
  unfold Entry.single at hs
  split at hs
  · rename_i j hj
    have : i ∈ (List.range e.len).filter e.live := mem_liveList.2 hi
    rw [hj] at this
    cases hs
    simpa using this
  · cases hs

theorem single_live {e : Entry} {k : Nat} (hs : e.single = some k) : e.live k = true := by
  unfold Entry.single at hs
  split at hs
  · rename_i j hj
    cases hs
    have : k ∈ (List.range e.len).filter e.live := by rw [hj]; simp
    exact (List.mem_filter.1 this).2
  · cases hs

theorem VReg.norm_at {e : Entry} {i : Nat} (r : VReg) (hi : e.live i = true) : (r.norm e.single).at i = r.at i := by
  unfold VReg.norm
  split
  · rename_i k hk
    rw [single_unique hk hi]
    rfl
  · split
    · split
      · rename_i d hd
        subst hd
        simp [VReg.at]
      · rfl
    · rfl

theorem XReg.norm_at {e : Entry} {i : Nat} (r : XReg) (hi : e.live i = true) : (r.norm e.single).at i = r.at i := by
  unfold XReg.norm
  split
  · rename_i k hk
    rw [single_unique hk hi]
    rfl
  · rfl

theorem PReg.norm_at {e : Entry} {i : Nat} (r : PReg) (hi : e.live i = true) :
    (r.norm e.start e.len e.single).at e.start i = r.at e.start i := by
  have hl := live_lt hi
  unfold PReg.norm
  split
  · rename_i k hk
    rw [single_unique hk hi]
    rfl
  · split
    · rename_i c sense
      split
      · simp only [PReg.at]
        rw [if_neg (by omega)]
      · split
        · simp only [PReg.at]
          rw [if_pos (by omega)]
        · rfl
    · rfl

/-! ### Normalising an entry leaves the value of every live item -/

theorem getD_map {α β : Type} (f : α → β) (l : List α) (n : Nat) (d : α) (d' : β) (hd : f d = d') :
    (l.map f).getD n d' = f (l.getD n d) := by
  subst hd
  simp only [List.getD_eq_getElem?_getD, List.getElem?_map]
  cases l[n]? <;> rfl

theorem VReg.norm_zero (s : Option Nat) : VReg.norm (.uni 0) s = .uni 0 := by
  cases s <;> rfl
theorem XReg.norm_zero (s : Option Nat) : XReg.norm (.uni 0) s = .uni 0 := by
  cases s <;> rfl
theorem PReg.norm_false (a b : Nat) (s : Option Nat) : PReg.norm (.uni false) a b s = .uni false := by
  cases s <;> rfl

theorem normAll_vAt {e : Entry} {i : Nat} (n : Nat) (hi : e.live i = true) : e.normAll.vAt n i = e.vAt n i := by
  simp only [Entry.vAt, Entry.normAll]
  rw [getD_map (fun r => VReg.norm r e.single) e.regs n (VReg.uni 0) (VReg.uni 0) (VReg.norm_zero _), VReg.norm_at _ hi]

theorem normAll_xAt {e : Entry} {i : Nat} (n : Nat) (hi : e.live i = true) : e.normAll.xAt n i = e.xAt n i := by
  simp only [Entry.xAt, Entry.normAll]
  rw [getD_map (fun r => XReg.norm r e.single) e.xregs n (XReg.uni 0) (XReg.uni 0) (XReg.norm_zero _), XReg.norm_at _ hi]

theorem normAll_pAt {e : Entry} {i : Nat} (n : Nat) (hi : e.live i = true) : e.normAll.pAt n i = e.pAt n i := by
  simp only [Entry.pAt, Entry.pred, Entry.normAll]
  split
  · rfl
  · rw [getD_map (fun r => PReg.norm r e.start e.len e.single) e.preds n (PReg.uni false) (PReg.uni false) (PReg.norm_false _ _ _),
      PReg.norm_at _ hi]

/-! ### Entries that differ only in register values -/

/-- `new` is `e` but for its v, x and p registers. -/
def OnlyRegs (e new : Entry) : Prop := new = { e with regs := new.regs, xregs := new.xregs, preds := new.preds }

theorem OnlyRegs.refl (e : Entry) : OnlyRegs e e := rfl

theorem OnlyRegs.trans {a b c : Entry} (h : OnlyRegs a b) (g : OnlyRegs b c) : OnlyRegs a c := by
  unfold OnlyRegs at *
  rw [g, h]

theorem OnlyRegs.live {a b : Entry} (h : OnlyRegs a b) (i : Nat) : b.live i = a.live i := by
  unfold OnlyRegs at h
  rw [h]
  rfl

theorem OnlyRegs.single {a b : Entry} (h : OnlyRegs a b) : b.single = a.single := by
  unfold OnlyRegs at h
  rw [h]
  rfl

theorem OnlyRegs.start {a b : Entry} (h : OnlyRegs a b) : b.start = a.start := by
  unfold OnlyRegs at h
  rw [h]

theorem OnlyRegs.len {a b : Entry} (h : OnlyRegs a b) : b.len = a.len := by
  unfold OnlyRegs at h
  rw [h]

theorem normAll_onlyRegs (e : Entry) : OnlyRegs e e.normAll := rfl

theorem normWritten_onlyRegs (e : Entry) : OnlyRegs e e.normWritten := by
  unfold Entry.normWritten
  split
  · exact normAll_onlyRegs e
  · rfl

theorem normWritten_vAt {e : Entry} {i : Nat} (n : Nat) (hi : e.live i = true) : e.normWritten.vAt n i = e.vAt n i := by
  unfold Entry.normWritten
  split
  · exact normAll_vAt n hi
  · rfl

theorem normWritten_xAt {e : Entry} {i : Nat} (n : Nat) (hi : e.live i = true) : e.normWritten.xAt n i = e.xAt n i := by
  unfold Entry.normWritten
  split
  · exact normAll_xAt n hi
  · rfl

theorem normWritten_pAt {e : Entry} {i : Nat} (n : Nat) (hi : e.live i = true) : e.normWritten.pAt n i = e.pAt n i := by
  unfold Entry.normWritten
  split
  · exact normAll_pAt n hi
  · rfl

theorem normWritten_length (e : Entry) : e.normWritten.regs.length = e.regs.length := by
  unfold Entry.normWritten
  split
  · simp only [Entry.normAll, List.length_map]
  · rfl

/-! ### Writing one register -/

theorem VReg.den_at (vs : List W32) (i : Nat) : (VReg.den vs).at i = vs.getD i 0 := rfl
theorem XReg.den_at (vs : List W32) (i : Nat) : (XReg.den vs).at i = vs.getD i 0 := rfl
theorem PReg.den_at (vs : List Bool) (s i : Nat) : (PReg.den vs).at s i = vs.getD i false := rfl

/-- A write reaches the item. -/
def covers (items : Option (List Nat)) (i : Nat) : Bool :=
  match items with
  | none => true
  | some is => is.contains i

theorem getD_set {α : Type} (l : List α) (n m : Nat) (x d : α) (h : n < l.length) :
    (l.set n x).getD m d = if m = n then x else l.getD m d := by
  simp only [List.getD_eq_getElem?_getD, List.getElem?_set]
  split
  · rename_i h1
    subst h1
    simp
  · rename_i h1
    rw [if_neg (fun h2 => h1 h2.symm)]

theorem getD_range_map {α : Type} (f : Nat → α) (n i : Nat) (d : α) (h : i < n) :
    ((List.range n).map f).getD i d = f i := by
  simp [List.getD_eq_getElem?_getD, List.getElem?_map, List.getElem?_range h]

theorem putV_onlyRegs (e : Entry) (n : Nat) (r : VReg) (items : Option (List Nat)) : OnlyRegs e (e.putV n r items) :=
  OnlyRegs.trans (b := { e with regs := _ }) rfl (normWritten_onlyRegs _)

theorem putV_vAt {e : Entry} {n i : Nat} (r : VReg) (items : Option (List Nat)) (m : Nat) (hn : n < e.regs.length)
    (hi : e.live i = true) : (e.putV n r items).vAt m i = if m = n ∧ covers items i = true then r.at i else e.vAt m i := by
  unfold Entry.putV
  rw [normWritten_vAt m (by exact hi)]
  simp only [Entry.vAt]
  rw [getD_set _ _ _ _ _ hn]
  by_cases h : m = n
  · subst h
    simp only [if_true, true_and]
    rw [VReg.norm_at _ hi]
    cases items with
    | none => simp [covers]
    | some is =>
      simp only [covers, VReg.den_at]
      rw [getD_range_map _ _ _ _ (live_lt hi)]
      rfl
  · simp [h]

theorem putV_xAt {e : Entry} {n i : Nat} (r : VReg) (items : Option (List Nat)) (m : Nat) (hi : e.live i = true) :
    (e.putV n r items).xAt m i = e.xAt m i := by
  unfold Entry.putV
  rw [normWritten_xAt m (by exact hi)]
  rfl

theorem putV_pAt {e : Entry} {n i : Nat} (r : VReg) (items : Option (List Nat)) (m : Nat) (hi : e.live i = true) :
    (e.putV n r items).pAt m i = e.pAt m i := by
  unfold Entry.putV
  rw [normWritten_pAt m (by exact hi)]
  rfl

theorem putV_length (e : Entry) (n : Nat) (r : VReg) (items : Option (List Nat)) :
    (e.putV n r items).regs.length = e.regs.length := by
  unfold Entry.putV
  rw [normWritten_length]
  simp only [List.length_set]

theorem putX_onlyRegs (e : Entry) (n : Nat) (r : XReg) (items : Option (List Nat)) : OnlyRegs e (e.putX n r items) :=
  OnlyRegs.trans (b := { e with xregs := _ }) rfl (normWritten_onlyRegs _)

theorem putX_xAt {e : Entry} {n i : Nat} (r : XReg) (items : Option (List Nat)) (m : Nat) (hn : n < e.xregs.length)
    (hi : e.live i = true) : (e.putX n r items).xAt m i = if m = n ∧ covers items i = true then r.at i else e.xAt m i := by
  unfold Entry.putX
  rw [normWritten_xAt m (by exact hi)]
  simp only [Entry.xAt]
  rw [getD_set _ _ _ _ _ hn]
  by_cases h : m = n
  · subst h
    simp only [if_true, true_and]
    rw [XReg.norm_at _ hi]
    cases items with
    | none => simp [covers]
    | some is =>
      simp only [covers, XReg.den_at]
      rw [getD_range_map _ _ _ _ (live_lt hi)]
      rfl
  · simp [h]

theorem putX_vAt {e : Entry} {n i : Nat} (r : XReg) (items : Option (List Nat)) (m : Nat) (hi : e.live i = true) :
    (e.putX n r items).vAt m i = e.vAt m i := by
  unfold Entry.putX
  rw [normWritten_vAt m (by exact hi)]
  rfl

theorem putX_pAt {e : Entry} {n i : Nat} (r : XReg) (items : Option (List Nat)) (m : Nat) (hi : e.live i = true) :
    (e.putX n r items).pAt m i = e.pAt m i := by
  unfold Entry.putX
  rw [normWritten_pAt m (by exact hi)]
  rfl

theorem putP_onlyRegs (e : Entry) (n : Nat) (r : PReg) (items : Option (List Nat)) : OnlyRegs e (e.putP n r items) := by
  unfold Entry.putP
  split
  · rfl
  · exact OnlyRegs.trans (b := { e with preds := _ }) rfl (normWritten_onlyRegs _)

theorem putP_pAt {e : Entry} {n i : Nat} (r : PReg) (items : Option (List Nat)) (m : Nat) (hn : n = 7 ∨ n < e.preds.length)
    (hi : e.live i = true) :
    (e.putP n r items).pAt m i = if m = n ∧ n ≠ 7 ∧ covers items i = true then r.at e.start i else e.pAt m i := by
  unfold Entry.putP
  split
  · rename_i h
    simp [h]
  · rename_i h7
    have hn : n < e.preds.length := hn.resolve_left h7
    rw [normWritten_pAt m (by exact hi)]
    simp only [Entry.pAt, Entry.pred]
    by_cases hm : m = 7
    · rw [if_pos hm, if_pos hm, if_neg (by omega)]
    · rw [if_neg hm, if_neg hm, getD_set _ _ _ _ _ hn]
      by_cases h : m = n
      · subst h
        simp only [if_true, true_and]
        rw [PReg.norm_at _ hi]
        cases items with
        | none => simp [covers, hm]
        | some is =>
          simp only [covers, PReg.den_at]
          rw [getD_range_map _ _ _ _ (live_lt hi)]
          simp only [ne_eq, hm, not_false_eq_true, true_and]
      · simp [h]

theorem putP_vAt {e : Entry} {n i : Nat} (r : PReg) (items : Option (List Nat)) (m : Nat) (hi : e.live i = true) :
    (e.putP n r items).vAt m i = e.vAt m i := by
  unfold Entry.putP
  split
  · rfl
  · rw [normWritten_vAt m (by exact hi)]
    rfl

theorem putP_xAt {e : Entry} {n i : Nat} (r : PReg) (items : Option (List Nat)) (m : Nat) (hi : e.live i = true) :
    (e.putP n r items).xAt m i = e.xAt m i := by
  unfold Entry.putP
  split
  · rfl
  · rw [normWritten_xAt m (by exact hi)]
    rfl

/-! ### Operand values -/

theorem build_at {e : Entry} {i : Nat} (f : Nat → W64) (hi : i < e.len) : (OpVal.build e f).at i = f i := by
  simp only [OpVal.build, OpVal.at]
  exact getD_range_map _ _ _ _ hi

theorem OpVal.norm_at (v : OpVal) (i : Nat) : v.norm.at i = v.at i := by
  unfold OpVal.norm
  split
  · split
    · rename_i b d hd
      subst hd
      simp [OpVal.at]
    · rfl
  · rfl

theorem toVal_at (r : VReg) (i : Nat) : r.toVal.at i = (r.at i).setWidth 64 := by
  cases r with
  | uni u => rfl
  | aff b d => rfl
  | den vs => exact getD_map _ _ _ 0 _ rfl

theorem readV_at {e : Entry} {i : Nat} (n : Nat) (wide : Bool) (hi : i < e.len) : (e.readV n wide).at i = e.wordAt n wide i := by
  unfold Entry.readV Entry.wordAt
  simp only
  split
  · split
    · rename_i ha hb
      simp only [OpVal.at, Entry.vAt, ha, hb, VReg.at]
    · rw [build_at _ hi]
      rfl
  · exact toVal_at _ _

/-! ### Writing a value to a v register or pair -/

theorem putVal_vAt {e : Entry} {n i : Nat} (v : OpVal) (items : Option (List Nat)) (m : Nat) (hn : n < e.regs.length)
    (hi : e.live i = true) :
    (e.putVal n v items).vAt m i = if m = n ∧ covers items i = true then (v.at i).setWidth 32 else e.vAt m i := by
  unfold Entry.putVal
  rw [putV_vAt _ _ _ hn hi]
  congr 1
  cases v with
  | uni w => rfl
  | aff b d => simp [VReg.at, OpVal.at]
  | den vs => exact getD_map _ _ _ 0 _ rfl

theorem putVal_onlyRegs (e : Entry) (n : Nat) (v : OpVal) (items : Option (List Nat)) : OnlyRegs e (e.putVal n v items) :=
  putV_onlyRegs _ _ _ _

theorem putVal_length (e : Entry) (n : Nat) (v : OpVal) (items : Option (List Nat)) :
    (e.putVal n v items).regs.length = e.regs.length := putV_length _ _ _ _

theorem putVW_onlyRegs (e : Entry) (n : Nat) (wide : Bool) (v : OpVal) (items : Option (List Nat)) :
    OnlyRegs e (e.putVW n wide v items) := by
  unfold Entry.putVW
  split
  · exact (putVal_onlyRegs _ _ _ _).trans (putVal_onlyRegs _ _ _ _)
  · exact putVal_onlyRegs _ _ _ _

theorem putVW_length (e : Entry) (n : Nat) (wide : Bool) (v : OpVal) (items : Option (List Nat)) :
    (e.putVW n wide v items).regs.length = e.regs.length := by
  unfold Entry.putVW
  split
  · rw [putVal_length, putVal_length]
  · exact putVal_length _ _ _ _

theorem putPair_vAt {e : Entry} {n i : Nat} (lo hi_ : OpVal) (items : Option (List Nat)) (m : Nat)
    (hn : n + 1 < e.regs.length) (hi : e.live i = true) :
    ((e.putVal n lo items).putVal (n + 1) hi_ items).vAt m i =
      if covers items i = true ∧ m = n then (lo.at i).setWidth 32
      else if covers items i = true ∧ m = n + 1 then (hi_.at i).setWidth 32
      else e.vAt m i := by
  have hi2 : (e.putVal n lo items).live i = true := by rw [(putVal_onlyRegs _ _ _ _).live]; exact hi
  rw [putVal_vAt _ _ _ (by rw [putVal_length]; omega) hi2, putVal_vAt _ _ _ (by omega) hi]
  by_cases hc : covers items i = true
  · by_cases hm : m = n
    · subst hm
      simp [hc]
    · simp [hc, hm]
  · simp [hc]

/-- A write of a value to a v register or pair, item by item. -/
theorem putVW_vAt {e : Entry} {n i : Nat} (wide : Bool) (v : OpVal) (items : Option (List Nat)) (m : Nat)
    (hn : n + (if wide then 1 else 0) < e.regs.length) (hi : e.live i = true) :
    (e.putVW n wide v items).vAt m i =
      if covers items i = true ∧ m = n then (v.at i).setWidth 32
      else if covers items i = true ∧ wide = true ∧ m = n + 1 then (v.at i >>> 32).setWidth 32
      else e.vAt m i := by
  unfold Entry.putVW
  cases wide with
  | false =>
    simp only [Bool.false_eq_true, if_false, false_and, and_false] at hn ⊢
    rw [putVal_vAt _ _ _ (by omega) hi]
    simp only [and_comm]
  | true =>
    simp only [if_true, true_and] at hn ⊢
    rw [putPair_vAt _ _ _ _ hn hi]
    cases v with
    | uni w => rfl
    | aff b d => simp only [build_at _ (live_lt hi)]
    | den vs => simp only [build_at _ (live_lt hi)]

theorem putVW_xAt {e : Entry} {n i : Nat} (wide : Bool) (v : OpVal) (items : Option (List Nat)) (m : Nat)
    (hi : e.live i = true) : (e.putVW n wide v items).xAt m i = e.xAt m i := by
  unfold Entry.putVW Entry.putVal
  split
  · rw [putV_xAt _ _ _ (by rw [(putV_onlyRegs _ _ _ _).live]; exact hi), putV_xAt _ _ _ hi]
  · exact putV_xAt _ _ _ hi

theorem putVW_pAt {e : Entry} {n i : Nat} (wide : Bool) (v : OpVal) (items : Option (List Nat)) (m : Nat)
    (hi : e.live i = true) : (e.putVW n wide v items).pAt m i = e.pAt m i := by
  unfold Entry.putVW Entry.putVal
  split
  · rw [putV_pAt _ _ _ (by rw [(putV_onlyRegs _ _ _ _).live]; exact hi), putV_pAt _ _ _ hi]
  · exact putV_pAt _ _ _ hi

end Sys2Proof.Machine
end

