-- ==== Sys2Proof/Laws/Operands.lean ====
section
/-!
SUPPORT. Sources and destinations as the statements read them (R63 to R75), and one instruction over the items of an entry.
-/
namespace Sys2Proof.Machine

/-! ### Sources -/

/-- An entry after a source is read keeps all but its queues and XFLAG. -/
theorem afterSource_cases (e : Entry) (sp : Spec) :
    ∃ st x, e.afterSource sp = { e with streams := st, xflag := x } := by
  unfold Entry.afterSource
  split
  · split
    · split
      · exact ⟨_, _, rfl⟩
      · exact ⟨_, _, rfl⟩
    · exact ⟨_, _, rfl⟩
  · exact ⟨_, _, rfl⟩

theorem find?_isNone_of_all {α : Type} (p : α → Bool) (l : List α) (h : l.all (fun i => !p i) = true) : l.find? p = none := by
  rw [List.find?_eq_none]
  intro x hx
  have := List.all_eq_true.1 h x hx
  simpa using this

theorem outOfBounds_none {e : Entry} {k o nregs : Nat} {wide : Bool} {acting : List Nat}
    (h : ∀ i ∈ acting, (e.target k o nregs wide i).isSome = true) : e.outOfBounds k o nregs wide acting = none := by
  unfold Entry.outOfBounds
  rw [List.find?_eq_none]
  intro i hi
  have := h i hi
  cases ht : e.target k o nregs wide i with
  | none => rw [ht] at this; cases this
  | some t => simp

theorem target_uni {e : Entry} {k : Nat} {w : W32} (h : e.xregs.getD k (.uni 0) = .uni w) (o nregs : Nat) (wide : Bool) (i j : Nat) :
    e.target k o nregs wide i = e.target k o nregs wide j := by
  unfold Entry.target
  simp only [h, XReg.at]

/-- Reading a source: the entry and the items' values are as the statements say. -/
theorem readSpec_eq {e : Entry} {nregs : Nat} {acting : List Nat} {lit : W64} {wide : Bool} {sp : Spec}
    (ha : acting ≠ []) (h : e.canRead nregs acting wide sp = true) :
    ∃ v, e.readSpec nregs acting lit wide sp = .ok (e.afterSource sp, v) ∧
      ∀ i, i < e.len → v.at i = e.sourceAt nregs lit wide sp i := by
  cases sp with
  | v n => exact ⟨_, rfl, fun i hi => readV_at _ _ hi⟩
  | s n => exact ⟨_, rfl, fun i _ => rfl⟩
  | lit => exact ⟨_, rfl, fun i _ => rfl⟩
  | zero => exact ⟨_, rfl, fun i _ => rfl⟩
  | x n =>
    refine ⟨_, rfl, fun i hi => ?_⟩
    simp only [Entry.sourceAt, Entry.xAt]
    cases e.xregs.getD n (.uni 0) with
    | uni w => rfl
    | den vs => exact getD_map _ _ _ 0 _ rfl
  | p n =>
    refine ⟨_, rfl, fun i hi => ?_⟩
    simp only [Entry.sourceAt, Entry.pAt, Entry.readPred]
    split
    · rename_i t ht
      simp only [ht, PReg.at, OpVal.at]
    · rw [build_at _ hi]
      rfl
  | ind k o =>
    simp only [Entry.canRead, List.all_eq_true] at h
    have hb := outOfBounds_none h
    have hr : ∃ v, e.readInd k o nregs wide acting = .ok v ∧ ∀ i, i < e.len → v.at i = e.sourceAt nregs lit wide (.ind k o) i := by
      cases acting with
      | nil => exact absurd rfl ha
      | cons i0 rest =>
        simp only [Entry.readInd, hb]
        cases hx : e.xregs.getD k (.uni 0) with
        | uni w =>
          refine ⟨_, rfl, fun i hi => ?_⟩
          obtain ⟨t, ht⟩ := Option.isSome_iff_exists.1 (h i0 (List.mem_cons_self ..))
          simp only [Entry.sourceAt, target_uni hx o nregs wide i i0, ht, Option.getD_some]
          exact readV_at _ _ hi
        | den vs =>
          refine ⟨_, rfl, fun i hi => ?_⟩
          rw [build_at _ hi]
          simp only [Entry.sourceAt]
          cases e.target k o nregs wide i with
          | some t => exact readV_at _ _ hi
          | none => rfl
    obtain ⟨v, hv, hat⟩ := hr
    exact ⟨v, by simp only [Entry.readSpec, hv, Except.map, Entry.afterSource], hat⟩
  | q n =>
    simp only [Entry.readSpec, Entry.popQueue, Entry.afterSource, Entry.canRead, Entry.sourceAt, Entry.frontRow] at h ⊢
    cases hs : e.streams.getD n none with
    | none => exact ⟨_, rfl, fun i hi => by rw [build_at _ hi]; rfl⟩
    | some st =>
      rw [hs] at h
      simp only at h ⊢
      cases hq : st.queued with
      | cons row rest => exact ⟨_, rfl, fun i _ => by simp [OpVal.at, hq]⟩
      | nil =>
        rw [hq] at h
        simp only [List.isEmpty_nil, Bool.not_true, Bool.false_or] at h
        simp only [h, if_true]
        exact ⟨_, rfl, fun i hi => by rw [build_at _ hi]; simp [hq]⟩

theorem atPos_lt {e : Entry} {p j : Nat} (h : e.atPos p = some j) : j < e.len := by
  unfold Entry.atPos at h
  split at h
  · rename_i hc
    cases h
    exact live_lt hc.2
  · cases h

/-- A cross-item read of a value that the items hold as `f` says. -/
theorem crossRead_eq {e : Entry} {v : OpVal} {f : Nat → W64} {i : Nat} (hf : ∀ i, i < e.len → v.at i = f i) (hi : i < e.len)
    (src : Option Nat) :
    e.crossRead v src i = (match src with
      | some p => if e.width ≤ p then f i else match e.atPos p with
        | some j => f j
        | none => 0
      | none => f i,
      match src with
      | some p => decide (e.width ≤ p) || (e.atPos p).isNone
      | none => true) := by
  unfold Entry.crossRead
  cases src with
  | none => simp only [hf i hi]
  | some p =>
    simp only
    by_cases hw : e.width ≤ p
    · simp [hw, hf i hi]
    · simp only [hw, if_false, decide_false, Bool.false_or]
      cases hp : e.atPos p with
      | none => rfl
      | some j => simp [hf j (atPos_lt hp)]

theorem acting_live {e : Entry} {pi : Nat} {pn : Bool} {i : Nat} (h : i ∈ e.acting pi pn) : e.live i = true := by
  simp only [Entry.acting, Entry.activeList, List.mem_filter, Entry.active, Bool.and_eq_true] at h
  exact h.1.2.1

theorem any_congr {α : Type} {p q : α → Bool} {l : List α} (h : ∀ x ∈ l, p x = q x) : l.any p = l.any q := by
  induction l with
  | nil => rfl
  | cons x xs ih =>
    simp only [List.any_cons, h x (List.mem_cons_self ..), ih fun y hy => h y (List.mem_cons_of_mem _ hy)]

/-- The value of a modified read when the items may share one value. -/
theorem permute_value {e x : Entry} {acting : List Nat} {rd : Nat → W64 × Bool} {g : Nat → W64} {i0 : Nat} (b : Bool)
    (hl : ∀ i ∈ acting, i < e.len) (hr : ∀ i ∈ acting, (rd i).1 = g i) (h0 : i0 ∈ acting)
    (hb : b = true → ∀ i ∈ acting, g i = g i0) :
    ∃ w, (if b = true then (x, OpVal.uni (rd i0).1) else (x, OpVal.build e fun i => (rd i).1)) = (x, w) ∧
      ∀ i ∈ acting, w.at i = g i := by
  cases b with
  | true => exact ⟨_, rfl, fun i hi => by simp only [OpVal.at]; rw [hr i0 h0, hb rfl i hi]⟩
  | false => exact ⟨_, rfl, fun i hi => by rw [build_at _ (hl i hi), hr i hi]⟩

/-- A source read through a modifier, item by item (R74, R75). -/
theorem permute_eq {e : Entry} {m : Perm} {acting : List Nat} {v : OpVal} {f : Nat → W64} (hl : ∀ i ∈ acting, i < e.len)
    (hf : ∀ i, i < e.len → v.at i = f i) :
    ∃ w, e.permute m acting v = (if acting.any (e.strays m) then e.setX else e, w) ∧
      ∀ i ∈ acting, w.at i = e.through m f i := by
  by_cases hm : m = .none
  · subst hm
    refine ⟨v, ?_, fun i hi => hf i (hl i hi)⟩
    have : acting.any (e.strays .none) = false := by simp [Entry.strays]
    simp [Entry.permute, this]
  · cases acting with
    | nil => exact ⟨v, by cases m <;> simp_all [Entry.permute], fun i hi => by cases hi⟩
    | cons i0 rest =>
      have rdv : ∀ i ∈ i0 :: rest, e.crossRead v (permSource m e.width (e.posOf i)) i = (e.through m f i, e.strays m i) := by
        intro i hi
        rw [crossRead_eq hf (hl i hi)]
        cases m with
        | none => exact absurd rfl hm
        | bfly k => rfl
        | rot8 k => rfl
        | rev => rfl
        | bcast j => rfl
      have hany : ((i0 :: rest).any fun i => (e.crossRead v (permSource m e.width (e.posOf i)) i).2) = (i0 :: rest).any (e.strays m) :=
        any_congr fun i hi => by rw [rdv i hi]
      have hone : (v.isUni && (i0 :: rest).all fun i => decide ((e.crossRead v (permSource m e.width (e.posOf i)) i).1 =
          (e.crossRead v (permSource m e.width (e.posOf i0)) i0).1)) = true → ∀ i ∈ i0 :: rest, e.through m f i = e.through m f i0 := by
        intro hu i hi
        have h1 := List.all_eq_true.1 (Bool.and_eq_true_iff.1 hu).2 i hi
        simp only [decide_eq_true_eq] at h1
        rwa [rdv i hi, rdv i0 (List.mem_cons_self ..)] at h1
      rw [← hany]
      cases m with
      | none => exact absurd rfl hm
      | bfly k =>
        exact permute_value _ hl (fun i hi => by rw [rdv i hi]) (List.mem_cons_self ..) (by rw [Bool.false_or]; exact hone)
      | rot8 k =>
        exact permute_value _ hl (fun i hi => by rw [rdv i hi]) (List.mem_cons_self ..) (by rw [Bool.false_or]; exact hone)
      | rev =>
        exact permute_value _ hl (fun i hi => by rw [rdv i hi]) (List.mem_cons_self ..) (by rw [Bool.false_or]; exact hone)
      | bcast j =>
        refine permute_value _ hl (fun i hi => by rw [rdv i hi]) (List.mem_cons_self ..) fun hc => ?_
        rcases Bool.or_eq_true_iff.1 hc with hb | hu
        · intro i hi
          simp only [decide_eq_true_eq] at hb
          simp only [Entry.through, permSource, if_pos hb, if_neg (Nat.not_le.2 hb)]
        · exact hone hu

/-! ### What reading leaves alone -/

/-- Reading changes an entry only in its queues and XFLAG. -/
def OnlyReads (e new : Entry) : Prop := ∃ st x, new = { e with streams := st, xflag := x }

theorem OnlyReads.refl (e : Entry) : OnlyReads e e := ⟨e.streams, e.xflag, rfl⟩
theorem OnlyReads.trans {a b c : Entry} (h : OnlyReads a b) (g : OnlyReads b c) : OnlyReads a c := by
  obtain ⟨s, x, rfl⟩ := h
  obtain ⟨t, y, rfl⟩ := g
  exact ⟨t, y, rfl⟩
theorem OnlyReads.source (e : Entry) (sp : Spec) : OnlyReads e (e.afterSource sp) := afterSource_cases e sp
theorem OnlyReads.ite (e : Entry) (b : Bool) : OnlyReads e (if b then e.setX else e) := by
  split
  · exact ⟨e.streams, true, rfl⟩
  · exact OnlyReads.refl e
theorem OnlyReads.len {a b : Entry} (h : OnlyReads a b) : b.len = a.len := by
  obtain ⟨s, x, rfl⟩ := h
  rfl
theorem OnlyReads.live {a b : Entry} (h : OnlyReads a b) (i : Nat) : b.live i = a.live i := by
  obtain ⟨s, x, rfl⟩ := h
  rfl

/-! ### The sources of an instruction -/

/-- Reading all sources: the entry, the items acted on, what the write covers, and the values of each item acted on. -/
theorem lanes_eq {c : Ctx} {op : Op} {o : Long} {acting : List Nat} (ha : acting ≠ []) (hl : ∀ i ∈ acting, i < c.e.len)
    (h : c.readableFor acting op o = true) :
    ∃ l, c.lanes op o acting = .ok l ∧ l.e = (c.readsFor acting op o).e ∧ l.acting = acting ∧
      l.items = c.e.cover o.pi o.pn acting ∧
      ∀ i ∈ acting, l.a.at i = (c.readsFor acting op o).a i ∧ l.b.at i = (c.readsFor acting op o).b i ∧
        l.c.at i = (c.readsFor acting op o).c i := by
  simp only [Ctx.readableFor, Bool.and_eq_true] at h
  obtain ⟨⟨h1, h2⟩, h3⟩ := h
  obtain ⟨va, ea, fa⟩ := readSpec_eq (lit := o.lit) ha h1
  obtain ⟨wa, ep, fp⟩ := permute_eq (m := o.perm) (v := va) (f := c.e.sourceAt c.ke.regs o.lit
      (fieldWide (op.fields o.ty o.mod.val o.imm.val).a) o.a) (e := c.e.afterSource o.a) (acting := acting)
    (by rw [(OnlyReads.source c.e o.a).len]; exact hl) (by rw [(OnlyReads.source c.e o.a).len]; exact fa)
  obtain ⟨vb, eb, fb⟩ := readSpec_eq (lit := o.lit) ha h2
  obtain ⟨vc, ec, fc⟩ := readSpec_eq (lit := o.lit) ha h3
  refine ⟨⟨(c.readsFor acting op o).e, acting, c.e.cover o.pi o.pn acting, wa.norm, vb.norm, vc.norm⟩, ?_, rfl, rfl, rfl, ?_⟩
  · simp only [Ctx.lanes, bind, Except.bind, ea, ep, eb, ec, pure, Except.pure]
    rfl
  · intro i hi
    have hi0 := hl i hi
    have e2 : OnlyReads c.e (if acting.any ((c.e.afterSource o.a).strays o.perm) then (c.e.afterSource o.a).setX else c.e.afterSource o.a) :=
      (OnlyReads.source _ _).trans (OnlyReads.ite _ _)
    have e3 := e2.trans (OnlyReads.source _ o.b)
    refine ⟨?_, ?_, ?_⟩
    · rw [OpVal.norm_at]; exact fp i hi
    · rw [OpVal.norm_at]; exact fb i (by rw [e2.len]; exact hi0)
    · rw [OpVal.norm_at]; exact fc i (by rw [e3.len]; exact hi0)

end Sys2Proof.Machine
end

