-- ==== Sys2Proof/Laws/Results.lean ====
section
/-!
SUPPORT. What a write of a result does, item by item (R35, R63, R67, R70), and what an instruction over the items of an entry
leaves of the state.
-/
namespace Sys2Proof.Machine

/-- The items that a write covers are those acted on: all the live ones when it covers the whole register. -/
def CoverOk (e : Entry) (nregs : Nat) (acting : List Nat) (wide : Bool) (items : Option (List Nat)) (d : Spec) : Prop :=
  items = some acting ∨ (items = none ∧ ∀ i, e.live i = true →
    (∀ k o, d = .ind k o → (e.target k o nregs wide i).isSome = true) → i ∈ acting)

theorem covers_iff {e : Entry} {nregs : Nat} {acting : List Nat} {wide : Bool} {items : Option (List Nat)} {d : Spec} {i : Nat}
    (hc : CoverOk e nregs acting wide items d) (hi : e.live i = true)
    (ht : ∀ k o, d = .ind k o → (e.target k o nregs wide i).isSome = true) : covers items i = true ↔ i ∈ acting := by
  rcases hc with h | ⟨h, hall⟩
  · subst h
    simp [covers]
  · subst h
    simp only [covers, true_iff]
    exact hall i hi ht

theorem asPreg_at {e : Entry} {i : Nat} (v : OpVal) (hi : i < e.len) : (v.asPreg e).at e.start i = (v.at i != 0) := by
  cases v with
  | uni w => rfl
  | aff b d => exact getD_range_map _ _ _ _ hi
  | den vs => exact getD_range_map _ _ _ _ hi

theorem asXreg_at {e : Entry} {i : Nat} (v : OpVal) (hi : i < e.len) : (v.asXreg e).at i = (v.at i).setWidth 32 := by
  cases v with
  | uni w => rfl
  | aff b d => exact getD_range_map _ _ _ _ hi
  | den vs => exact getD_range_map _ _ _ _ hi

theorem pair_if {α : Type} (n m : Nat) (w : Prop) [Decidable w] (a b c : α) :
    (if m = n then a else if w ∧ m = n + 1 then b else c) = if n = m then a else if w ∧ 0 < m ∧ n = m - 1 then b else c := by
  by_cases h1 : n = m
  · rw [if_pos h1, if_pos h1.symm]
  · rw [if_neg h1, if_neg (fun h => h1 h.symm)]
    by_cases h2 : w ∧ m = n + 1
    · rw [if_pos h2, if_pos ⟨h2.1, by omega, by omega⟩]
    · rw [if_neg h2, if_neg (fun h => h2 ⟨h.1, by omega⟩)]

/-- Nothing written. -/
theorem Wrote.none (e : Entry) (nregs : Nat) (wide : Bool) (d : Spec) (f : Nat → W64) : Wrote e e nregs [] wide d f :=
  ⟨fun n i _ => by simp, fun n i _ => by simp, fun n i _ => by simp, rfl⟩

/-- A destination that discards: a queue, a literal or zero. -/
theorem Wrote.discard {e : Entry} {d : Spec} (hd : (∃ n, d = .q n) ∨ d = .lit ∨ d = .zero) (nregs : Nat) (acting : List Nat)
    (wide : Bool) (f : Nat → W64) : Wrote e e nregs acting wide d f := by
  refine ⟨fun n i _ => ?_, fun n i _ => ?_, fun n i _ => ?_, rfl⟩ <;>
    rcases hd with ⟨m, rfl⟩ | rfl | rfl <;> simp [Entry.destOf]

theorem target_putVW {e : Entry} {i : Nat} (hi : e.live i = true) (n : Nat) (wide : Bool) (v : OpVal) (items : Option (List Nat))
    (k o nregs : Nat) (w : Bool) : (e.putVW n wide v items).target k o nregs w i = e.target k o nregs w i := by
  unfold Entry.target
  have := putVW_xAt (n := n) wide v items k hi
  simp only [Entry.xAt] at this
  rw [this]

/-- Pairs that two items reach through an index register are the same or apart (R67). -/
theorem target_pair {e : Entry} {k o nregs : Nat} {wide : Bool} {i t : Nat} (h : e.target k o nregs wide i = some t)
    (hw : wide = true) : t % 2 = 0 := by
  unfold Entry.target at h
  simp only at h
  split at h
  · cases h
  · rename_i hc
    cases h
    simp only [hw, true_and, not_or, ne_eq, not_not] at hc
    exact hc.2.2

/-- One write per register that some item reaches. -/
theorem fold_vAt {e : Entry} {nregs k o : Nat} {wide : Bool} {acting : List Nat} {v : OpVal} {i : Nat} (hi : e.live i = true)
    (hd : ∀ j ∈ acting, ∀ t, e.target k o nregs wide j = some t → t + (if wide then 1 else 0) < e.regs.length) :
    ∀ (ts : List Nat) (x : Entry), (∀ t ∈ ts, ∃ j ∈ acting, e.target k o nregs wide j = some t) → OnlyRegs e x →
      x.regs.length = e.regs.length → ∀ n,
      (ts.foldl (fun x t => x.putVW t wide v (some (acting.filter fun i => decide (e.target k o nregs wide i = some t)))) x).vAt n i =
        if i ∈ acting ∧ n ∈ ts ∧ e.target k o nregs wide i = some n then (v.at i).setWidth 32
        else if i ∈ acting ∧ wide = true ∧ 0 < n ∧ n - 1 ∈ ts ∧ e.target k o nregs wide i = some (n - 1) then (v.at i >>> 32).setWidth 32
        else x.vAt n i := by
  intro ts
  induction ts with
  | nil => intro x _ _ _ n; simp
  | cons t ts ih =>
    intro x hts hx hlen n
    simp only [List.foldl_cons]
    have hxi : x.live i = true := by rw [hx.live]; exact hi
    obtain ⟨j, hj, hjt⟩ := hts t (List.mem_cons_self ..)
    have hb := hd j hj t hjt
    rw [ih _ (fun u hu => hts u (List.mem_cons_of_mem _ hu)) (hx.trans (putVW_onlyRegs _ _ _ _ _))
      (by rw [putVW_length, hlen]) n, putVW_vAt _ _ _ _ (by rw [hlen]; exact hb) hxi]
    simp only [covers, List.contains_iff_mem, List.mem_filter, decide_eq_true_eq, List.mem_cons]
    by_cases ha : i ∈ acting
    · cases hT : e.target k o nregs wide i with
      | none => simp
      | some u =>
        simp only [ha, true_and, Option.some.injEq]
        by_cases h1 : u = n
        · subst h1
          have h9 : ¬ (wide = true ∧ 0 < u ∧ u - 1 ∈ ts ∧ u = u - 1) := fun h => by omega
          have h8 : ¬ (wide = true ∧ 0 < u ∧ (u - 1 = t ∨ u - 1 ∈ ts) ∧ u = u - 1) := fun h => by omega
          by_cases h2 : u ∈ ts
          · simp [h2]
          · by_cases h3 : u = t
            · subst h3
              simp [h2, h9]
            · simp only [h2, h3, h8, h9, false_and, if_false, false_or]
        · simp only [h1, and_false, if_false]
          have h7 : ¬ (u = t ∧ n = t) := fun h => h1 (h.1.trans h.2.symm)
          rw [if_neg h7]
          by_cases h4 : wide = true ∧ 0 < n ∧ u = n - 1
          · obtain ⟨h3, h4, h5⟩ := h4
            subst h5
            by_cases h5 : n - 1 ∈ ts
            · simp [h3, h4, h5]
            · by_cases h6 : n - 1 = t
              · have h10 : n = t + 1 := by omega
                rw [if_neg (fun h => h5 h.2.2.1), if_pos ⟨h6, h3, h10⟩, if_pos ⟨h3, h4, .inl h6, rfl⟩]
              · simp only [h3, h4, h5, h6, true_and, false_and, if_false, or_self]
          · rw [if_neg (fun h => h4 ⟨h.1, h.2.1, h.2.2.2⟩), if_neg (fun h => h4 ⟨h.2.1, by omega, by omega⟩),
              if_neg (fun h => h4 ⟨h.1, h.2.1, h.2.2.2⟩)]
    · simp [ha]

theorem fold_other {e : Entry} {nregs k o : Nat} {wide : Bool} {acting : List Nat} {v : OpVal} {i : Nat} (hi : e.live i = true) :
    ∀ (ts : List Nat) (x : Entry), OnlyRegs e x →
      let y := ts.foldl (fun x t => x.putVW t wide v (some (acting.filter fun i => decide (e.target k o nregs wide i = some t)))) x
      (∀ n, y.pAt n i = x.pAt n i) ∧ (∀ n, y.xAt n i = x.xAt n i) := by
  intro ts
  induction ts with
  | nil => intro x _; exact ⟨fun _ => rfl, fun _ => rfl⟩
  | cons t ts ih =>
    intro x hx
    have hxi : x.live i = true := by rw [hx.live]; exact hi
    obtain ⟨h1, h2⟩ := ih _ (hx.trans (putVW_onlyRegs x t wide v (some (acting.filter fun i => decide (e.target k o nregs wide i = some t)))))
    exact ⟨fun n => (h1 n).trans (putVW_pAt _ _ _ _ hxi), fun n => (h2 n).trans (putVW_xAt _ _ _ _ hxi)⟩

theorem fold_onlyRegs {e : Entry} {nregs k o : Nat} {wide : Bool} {acting : List Nat} {v : OpVal} :
    ∀ (ts : List Nat) (x : Entry), OnlyRegs x
      (ts.foldl (fun x t => x.putVW t wide v (some (acting.filter fun i => decide (e.target k o nregs wide i = some t)))) x) := by
  intro ts
  induction ts with
  | nil => intro x; exact OnlyRegs.refl x
  | cons t ts ih => intro x; exact (putVW_onlyRegs _ _ _ _ _).trans (ih _)

/-- A write of a result to a destination that is no scalar: it succeeds, and its effect item by item. -/
theorem writeSpec_wrote {e : Entry} {nregs : Nat} {acting : List Nat} {wide sg : Bool} {items : Option (List Nat)} {d : Spec}
    {v : OpVal} {f : Nat → W64} (hl : ∀ i ∈ acting, e.live i = true) (hw : e.canWrite nregs acting wide d = true)
    (hc : CoverOk e nregs acting wide items d) (hf : ∀ i ∈ acting, v.at i = f i) :
    ∃ x, e.writeSpec nregs acting wide sg items d v = .ok x ∧ Wrote e x nregs acting wide d f := by
  cases d with
  | s n => cases hw
  | q n => exact ⟨e, rfl, Wrote.discard (.inl ⟨n, rfl⟩) _ _ _ _⟩
  | lit => exact ⟨e, rfl, Wrote.discard (.inr (.inl rfl)) _ _ _ _⟩
  | zero => exact ⟨e, rfl, Wrote.discard (.inr (.inr rfl)) _ _ _ _⟩
  | v n =>
    simp only [Entry.canWrite, decide_eq_true_eq] at hw
    refine ⟨_, rfl, fun m i hi => ?_, fun m i hi => ?_, fun m i hi => ?_, putVW_onlyRegs _ _ _ _ _⟩
    · have hcv := covers_iff hc hi (fun _ _ h => by cases h)
      rw [putVW_vAt _ _ _ _ hw hi]
      simp only [hcv, Entry.destOf, Option.some.injEq]
      by_cases ha : i ∈ acting
      · simp only [ha, true_and, hf i ha]
        exact pair_if _ _ _ _ _ _
      · simp [ha]
    · rw [putVW_pAt _ _ _ _ hi]
      simp
    · rw [putVW_xAt _ _ _ _ hi]
      simp
  | p n =>
    simp only [Entry.canWrite, decide_eq_true_eq] at hw
    refine ⟨_, rfl, fun m i hi => ?_, fun m i hi => ?_, fun m i hi => ?_, putP_onlyRegs _ _ _ _⟩
    · rw [putP_vAt _ _ _ hi]
      simp [Entry.destOf]
    · have hcv := covers_iff hc hi (fun _ _ h => by cases h)
      rw [putP_pAt _ _ _ hw hi, asPreg_at _ (live_lt hi)]
      simp only [hcv, Spec.p.injEq]
      by_cases ha : i ∈ acting
      · simp only [ha, and_true, true_and, hf i ha]
        by_cases h1 : m = n
        · subst h1
          by_cases h7 : m = 7
          · subst h7; rfl
          · have : m.val ≠ 7 := fun h => h7 (Fin.ext h)
            simp [h7, this]
        · have h2 : m.val ≠ n.val := fun h => h1 (Fin.ext h)
          have h3 : ¬ n = m := fun h => h1 h.symm
          simp [h2, h3]
      · simp [ha]
    · rw [putP_xAt _ _ _ hi]
      simp
  | x n =>
    simp only [Entry.canWrite, decide_eq_true_eq] at hw
    refine ⟨_, rfl, fun m i hi => ?_, fun m i hi => ?_, fun m i hi => ?_, putX_onlyRegs _ _ _ _⟩
    · rw [putX_vAt _ _ _ hi]
      simp [Entry.destOf]
    · rw [putX_pAt _ _ _ hi]
      simp
    · have hcv := covers_iff hc hi (fun _ _ h => by cases h)
      rw [putX_xAt _ _ _ hw hi, asXreg_at _ (live_lt hi)]
      simp only [hcv, Spec.x.injEq]
      by_cases ha : i ∈ acting
      · simp only [ha, and_true, true_and, hf i ha]
        by_cases h1 : m = n
        · subst h1; simp
        · have h2 : m.val ≠ n.val := fun h => h1 (Fin.ext h)
          have h3 : ¬ n = m := fun h => h1 h.symm
          simp [h2, h3]
      · simp [ha]
  | ind k o =>
    simp only [Entry.canWrite, List.all_eq_true] at hw
    have hT : ∀ i ∈ acting, (e.target k o nregs wide i).isSome = true := by
      intro i hi
      have := hw i hi
      cases h : e.target k o nregs wide i with
      | none => rw [h] at this; cases this
      | some t => rfl
    have hB : ∀ j ∈ acting, ∀ t, e.target k o nregs wide j = some t → t + (if wide then 1 else 0) < e.regs.length := by
      intro j hj t ht
      have := hw j hj
      rw [ht] at this
      simpa using this
    have hob := outOfBounds_none hT
    simp only [Entry.writeSpec, hob]
    cases acting with
    | nil =>
      refine ⟨e, ?_, Wrote.none _ _ _ _ _⟩
      cases e.xregs.getD k (.uni 0) with
      | uni w => rfl
      | den vs => rfl
    | cons i0 rest =>
      cases hx : e.xregs.getD k (.uni 0) with
      | uni w =>
        obtain ⟨t, ht⟩ := Option.isSome_iff_exists.1 (hT i0 (List.mem_cons_self ..))
        have htj : ∀ j, e.target k o nregs wide j = some t := fun j => (target_uni hx o nregs wide j i0).trans ht
        have hb := hB i0 (List.mem_cons_self ..) t ht
        simp only [ht, Option.getD_some]
        refine ⟨_, rfl, fun m i hi => ?_, fun m i hi => ?_, fun m i hi => ?_, putVW_onlyRegs _ _ _ _ _⟩
        · have hcv := covers_iff hc hi (fun _ _ h => by cases h; rw [htj]; rfl)
          rw [putVW_vAt _ _ _ _ hb hi]
          simp only [hcv, Entry.destOf, htj, Option.some.injEq]
          by_cases ha : i ∈ i0 :: rest
          · simp only [ha, true_and, hf i ha]
            exact pair_if _ _ _ _ _ _
          · simp [ha]
        · rw [putVW_pAt _ _ _ _ hi]
          simp
        · rw [putVW_xAt _ _ _ _ hi]
          simp
      | den vs =>
        have hmem : ∀ n, n ∈ ((i0 :: rest).filterMap (e.target k o nregs wide)).eraseDups ↔ ∃ j ∈ i0 :: rest, e.target k o nregs wide j = some n := by
          intro n
          rw [List.mem_eraseDups, List.mem_filterMap]
        refine ⟨_, rfl, fun m i hi => ?_, fun m i hi => ?_, fun m i hi => ?_, fold_onlyRegs _ _⟩
        · rw [fold_vAt hi hB _ e (fun t ht => (hmem t).1 ht) (OnlyRegs.refl e) rfl m]
          simp only [Entry.destOf]
          by_cases ha : i ∈ i0 :: rest
          · simp only [hf i ha]
            have h1 : (i ∈ i0 :: rest ∧ m ∈ ((i0 :: rest).filterMap (e.target k o nregs wide)).eraseDups ∧ e.target k o nregs wide i = some m) ↔
                (i ∈ i0 :: rest ∧ e.target k o nregs wide i = some m) :=
              ⟨fun h => ⟨h.1, h.2.2⟩, fun h => ⟨h.1, (hmem m).2 ⟨i, h.1, h.2⟩, h.2⟩⟩
            have h2 : (i ∈ i0 :: rest ∧ wide = true ∧ 0 < m ∧ m - 1 ∈ ((i0 :: rest).filterMap (e.target k o nregs wide)).eraseDups ∧
                  e.target k o nregs wide i = some (m - 1)) ↔
                (i ∈ i0 :: rest ∧ wide = true ∧ 0 < m ∧ e.target k o nregs wide i = some (m - 1)) :=
              ⟨fun h => ⟨h.1, h.2.1, h.2.2.1, h.2.2.2.2⟩,
                fun h => ⟨h.1, h.2.1, h.2.2.1, (hmem (m - 1)).2 ⟨i, h.1, h.2.2.2⟩, h.2.2.2⟩⟩
            simp only [h1, h2]
            rfl
          · simp [ha]
        · rw [(fold_other hi _ e (OnlyRegs.refl e)).1]
          simp
        · rw [(fold_other hi _ e (OnlyRegs.refl e)).2]
          simp

/-! ### One value for every item (R172, R207, R233) -/

theorem OnlyRegs.scalars {a b : Entry} (h : OnlyRegs a b) : b.scalars = a.scalars := by
  unfold OnlyRegs at h
  rw [h]

/-- A write of one value to the items that the list holds, as a write to every item. -/
theorem WroteEvery.of_wrote {e x : Entry} {nregs : Nat} {acting : List Nat} {wide sg : Bool} {d : Spec} {w : W64}
    (h : Wrote e x nregs acting wide d fun _ => w) (hd : ∀ n, d ≠ .s n)
    (hc : ∀ i, e.live i = true → (∀ k o, d = .ind k o → (e.target k o nregs wide i).isSome = true) → i ∈ acting) :
    WroteEvery e x nregs wide sg d w := by
  have hs : x.scalars = e.scalars := by rw [h.rest]
  refine ⟨fun n i hi => ?_, fun n i hi => ?_, fun n i hi => ?_, fun n => ?_, ?_⟩
  · rw [h.v n i hi]
    by_cases ht : ∀ k o, d = .ind k o → (e.target k o nregs wide i).isSome = true
    · simp only [hc i hi ht, true_and]
    · have hnone : e.destOf nregs wide d i = none := by
        cases d with
        | ind k o =>
          unfold Entry.destOf
          cases hT : e.target k o nregs wide i with
          | none => exact hT
          | some t => exact absurd (fun k' o' heq => by cases heq; rw [hT]; rfl) ht
        | _ => exact absurd (fun k o heq => by cases heq) ht
      simp [hnone]
  · rw [h.p n i hi]
    by_cases hdp : d = .p n
    · have := hc i hi (fun k o heq => by rw [hdp] at heq; cases heq)
      simp [this]
    · simp [hdp]
  · rw [h.x n i hi]
    by_cases hdx : d = .x n
    · have := hc i hi (fun k o heq => by rw [hdx] at heq; cases heq)
      simp [this]
    · simp [hdx]
  · rw [if_neg (hd n)]
    simp only [Entry.sAt, hs]
  · rw [h.rest]

/-- A write of one value to every item succeeds where it can, and its effect item by item. -/
theorem writeEvery_wrote {e : Entry} {nregs : Nat} {acting : List Nat} {wide sg : Bool} {d : Spec} {w : W64}
    (hw : e.canWriteEvery nregs acting wide d = true) :
    ∃ x, e.writeEvery nregs acting wide sg d w = .ok x ∧ WroteEvery e x nregs wide sg d w := by
  have plain : ∀ (hd : ∀ n, d ≠ .s n) (hi : ∀ k o, d ≠ .ind k o) (hw : e.canWrite nregs acting wide d = true),
      ∃ x, e.writeSpec nregs acting wide sg none d (.uni w) = .ok x ∧ WroteEvery e x nregs wide sg d w := by
    intro hd hi hw
    have hw2 : e.canWrite nregs e.liveList wide d = true := by
      cases d with
      | ind k o => exact absurd rfl (hi k o)
      | _ => exact hw
    obtain ⟨x, hx, hy⟩ := writeSpec_wrote (acting := e.liveList) (sg := sg) (items := none) (v := .uni w) (f := fun _ => w)
      (fun i h => mem_liveList.1 h) hw2 (.inr ⟨rfl, fun i h _ => mem_liveList.2 h⟩) (fun _ _ => rfl)
    refine ⟨x, ?_, WroteEvery.of_wrote hy hd fun i h _ => mem_liveList.2 h⟩
    cases d with
    | ind k o => exact absurd rfl (hi k o)
    | _ => exact hx
  cases d with
  | s n =>
    simp only [Entry.canWriteEvery, decide_eq_true_eq] at hw
    refine ⟨e.putS n (widenScalar wide sg w), ?_, fun m i _ => ?_, fun m i _ => ?_, fun m i _ => ?_, fun m => ?_, rfl⟩
    · unfold Entry.writeEvery Entry.writeSpec Entry.uniOf
      rfl
    · simp [Entry.destOf, Entry.putS, Entry.vAt]
    · simp [Entry.putS, Entry.pAt, Entry.pred]
    · simp [Entry.putS, Entry.xAt]
    · unfold Entry.sAt Entry.putS
      simp only [Spec.s.injEq]
      rw [getD_set _ _ _ _ _ hw]
      by_cases h : m = n
      · subst h; simp
      · have h1 : m.val ≠ n.val := fun g => h (Fin.ext g)
        have h2 : ¬ n = m := fun g => h g.symm
        simp [h1, h2]
  | ind k o =>
    simp only [Entry.canWriteEvery, Bool.and_eq_true, Entry.canRead, List.all_eq_true] at hw
    obtain ⟨h1, h2⟩ := hw
    have hob := outOfBounds_none h1
    have hw2 : e.canWrite nregs (e.liveList.filter fun i => (e.target k o nregs wide i).isSome) wide (.ind k o) = true := by
      simp only [Entry.canWrite, List.all_eq_true, List.mem_filter]
      rintro i ⟨hi, ht⟩
      have := h2 i hi
      cases hT : e.target k o nregs wide i with
      | none => rw [hT] at ht; cases ht
      | some t => rw [hT] at this; exact this
    obtain ⟨x, hx, hy⟩ := writeSpec_wrote (acting := e.liveList.filter fun i => (e.target k o nregs wide i).isSome)
      (sg := sg) (items := none) (v := .uni w) (f := fun _ => w)
      (fun i h => mem_liveList.1 (List.mem_filter.1 h).1) hw2
      (.inr ⟨rfl, fun i h ht => List.mem_filter.2 ⟨mem_liveList.2 h, ht k o rfl⟩⟩) (fun _ _ => rfl)
    refine ⟨x, ?_, WroteEvery.of_wrote hy (fun n h => by cases h) fun i h ht => List.mem_filter.2 ⟨mem_liveList.2 h, ht k o rfl⟩⟩
    unfold Entry.writeEvery
    simp only [hob]
    exact hx
  | v n => exact plain (fun m h => by cases h) (fun k o h => by cases h) hw
  | x n => exact plain (fun m h => by cases h) (fun k o h => by cases h) hw
  | p n => exact plain (fun m h => by cases h) (fun k o h => by cases h) hw
  | q n => exact plain (fun m h => by cases h) (fun k o h => by cases h) hw
  | lit => exact plain (fun m h => by cases h) (fun k o h => by cases h) hw
  | zero => exact plain (fun m h => by cases h) (fun k o h => by cases h) hw

end Sys2Proof.Machine
end

