-- ==== Sys2Proof/Laws/Lanes.lean ====
section
/-!
SUPPORT. The shape that the meaning of an instruction over items has: it answers a next state that differs in the entry that
issued alone, and what that entry then holds.
-/
namespace Sys2Proof.Machine

/-! ### Putting an entry back -/

theorem EntryRef.eq_of {a b : EntryRef} (h1 : a.core = b.core) (h2 : a.slot = b.slot) (h3 : a.pos = b.pos) : a = b := by
  cases a; cases b; simp_all

theorem find?_map_of {α : Type} (p : α → Bool) (f : α → α) (hf : ∀ x, p (f x) = p x) (l : List α) :
    (l.map f).find? p = (l.find? p).map f := by
  induction l with
  | nil => rfl
  | cons x xs ih =>
    simp only [List.map_cons, List.find?_cons, hf x, ih]
    cases p x <;> rfl

/-- The slot of a number after one of its entries is changed. -/
theorem modSlot_slot (s : State) (c0 n0 : Nat) (f : Slot → Slot) (hf : ∀ x, (f x).core = x.core ∧ (f x).num = x.num) (c1 n1 : Nat) :
    (s.modSlot c0 n0 f).slot c1 n1 = if c1 = c0 ∧ n1 = n0 then (s.slot c1 n1).map f else s.slot c1 n1 := by
  unfold State.slot State.modSlot
  simp only
  rw [find?_map_of _ _ (fun x => by split <;> simp [hf])]
  cases h : s.slots.find? fun x => decide (x.core = c1) && decide (x.num = n1) with
  | none => simp
  | some y =>
    have hy := List.find?_some h
    simp only [Bool.and_eq_true, decide_eq_true_eq] at hy
    obtain ⟨h1, h2⟩ := hy
    subst h1 h2
    simp only [Option.map_some]
    split <;> rfl

theorem modEntry_entry (x : Slot) (p0 : Nat) (f : Entry → Entry) (hf : ∀ e, (f e).pos = e.pos) (p1 : Nat) :
    (x.modEntry p0 f).entry p1 = if p1 = p0 then (x.entry p1).map f else x.entry p1 := by
  unfold Slot.entry Slot.modEntry
  simp only
  rw [find?_map_of _ _ (fun e => by split <;> simp [hf])]
  cases h : x.entries.find? fun e => decide (e.pos = p1) with
  | none => simp
  | some y =>
    have hy := List.find?_some h
    simp only [decide_eq_true_eq] at hy
    subst hy
    simp only [Option.map_some]
    split <;> rfl

/-- The parts of a context are found in its state. -/
theorem ctxAt_parts {s : State} {r : EntryRef} {c : Ctx} (h : s.ctxAt r = some c) :
    c.s = s ∧ c.ref = r ∧ s.slot r.core r.slot = some c.slot ∧ c.slot.entry r.pos = some c.e ∧
      s.flightOf c.slot.flight = some c.fl ∧ s.launchOf c.fl.tag = some c.la ∧ s.kernelOf c.la.fn c.la.kid = some c.ke := by
  unfold State.ctxAt at h
  simp only [Option.bind_eq_bind, Option.bind_eq_some_iff] at h
  obtain ⟨x, hx, e, he, fl, hfl, la, hla, ke, hke, h⟩ := h
  cases h
  exact ⟨rfl, rfl, hx, he, hfl, hla, hke⟩

theorem here_parts {s : State} {c : Ctx} (h : s.here = some c) : s.ctxAt s.cur = some c ∧ c.e.status = .ready := by
  unfold State.here at h
  split at h
  · rename_i d hd
    split at h
    · cases h; exact ⟨hd, by assumption⟩
    · cases h
  · cases h

theorem ctx_entry {s : State} {r : EntryRef} {c : Ctx} (h : s.ctxAt r = some c) : s.entry r = some c.e := by
  obtain ⟨_, _, h1, h2, _⟩ := ctxAt_parts h
  simp only [State.entry, h1, Option.bind_some, h2]

theorem entry_pos {s : State} {r : EntryRef} {e : Entry} (h : s.entry r = some e) : e.pos = r.pos := by
  unfold State.entry at h
  obtain ⟨x, _, he⟩ := Option.bind_eq_some_iff.1 h
  have := List.find?_some he
  simpa using this

/-- Putting an entry in the place of the one that issued changes nothing else. -/
theorem setEntry_only {s : State} {c : Ctx} (h : s.ctxAt s.cur = some c) {e : Entry} (hp : e.pos = c.e.pos) :
    OnlyEntry s (s.setEntry s.cur e) e := by
  obtain ⟨_, _, hslot, hent, _⟩ := ctxAt_parts h
  have hpos : e.pos = s.cur.pos := hp.trans (entry_pos (ctx_entry h))
  have hcn : ∀ x : Slot, ((fun x : Slot => x.modEntry s.cur.pos fun _ => e) x).core = x.core ∧
      ((fun x : Slot => x.modEntry s.cur.pos fun _ => e) x).num = x.num := fun x => ⟨rfl, rfl⟩
  have hm : ∀ x : Slot, ∀ p, (x.modEntry s.cur.pos fun _ => e).entry p = if p = s.cur.pos then (x.entry p).map fun _ => e else x.entry p := by
    intro x p
    unfold Slot.entry Slot.modEntry
    simp only
    induction x.entries with
    | nil => simp
    | cons y ys ih =>
      simp only [List.map_cons, List.find?_cons]
      by_cases h1 : y.pos = s.cur.pos
      · simp only [h1, if_true, hpos]
        by_cases h2 : s.cur.pos = p
        · subst h2; simp
        · have h3 : ¬ p = s.cur.pos := fun h => h2 h.symm
          simp only [h2, h3, decide_false, if_false] at ih ⊢
          exact ih
      · simp only [h1, if_false]
        by_cases h2 : y.pos = p
        · subst h2; simp [h1]
        · simp only [h2, decide_false]
          exact ih
  refine ⟨?_, ?_, ?_, fun _ => rfl, rfl⟩
  · unfold State.entry State.setEntry State.modEntry
    rw [modSlot_slot s _ _ _ hcn]
    simp only [and_self, if_true, hslot, Option.map_some, Option.bind_some, hm, hent]
  · intro r hr
    unfold State.entry State.setEntry State.modEntry
    rw [modSlot_slot s _ _ _ hcn]
    split
    · rename_i hc
      cases hs : s.slot r.core r.slot with
      | none => rfl
      | some x =>
        simp only [Option.map_some, Option.bind_some]
        rw [hm, if_neg]
        intro hp2
        exact hr (EntryRef.eq_of hc.1 hc.2 hp2)
    · rfl
  · intro c1 n1
    unfold State.setEntry State.modEntry
    rw [modSlot_slot s _ _ _ hcn]
    split
    · cases s.slot c1 n1 <;> rfl
    · rfl

/-! ### What an instruction over items leaves -/

theorem reads_only (c : Ctx) (acting : List Nat) (op : Op) (o : Long) : OnlyReads c.e (c.readsFor acting op o).e := by
  unfold Ctx.readsFor
  exact (((OnlyReads.source _ _).trans (OnlyReads.ite _ _)).trans (OnlyReads.source _ _)).trans (OnlyReads.source _ _)

theorem OnlyReads.target {a b : Entry} (h : OnlyReads a b) (k o n : Nat) (w : Bool) (i : Nat) :
    b.target k o n w i = a.target k o n w i := by
  obtain ⟨s, x, rfl⟩ := h
  rfl

theorem OnlyReads.canWrite {a b : Entry} (h : OnlyReads a b) (n : Nat) (acting : List Nat) (w : Bool) (d : Spec) :
    b.canWrite n acting w d = a.canWrite n acting w d := by
  obtain ⟨s, x, rfl⟩ := h
  rfl

/-- The items acted on are those a write covers. -/
theorem cover_ok {a b : Entry} (h : OnlyReads a b) (nregs : Nat) (pi : Nat) (pn wide : Bool) (d : Spec) :
    CoverOk b nregs (a.acting pi pn) wide (a.cover pi pn (a.acting pi pn)) d := by
  unfold Entry.cover
  split
  · exact .inl rfl
  · rename_i hc
    refine .inr ⟨rfl, fun i hi _ => ?_⟩
    rw [h.live] at hi
    simp only [Bool.or_eq_true, not_or, Bool.not_eq_true, Bool.not_eq_false'] at hc
    obtain ⟨hm, hg⟩ := hc
    unfold Entry.acting Entry.activeList Entry.active
    simp only [List.mem_filter, List.mem_range, Bool.and_eq_true]
    refine ⟨⟨live_lt hi, hi, ?_⟩, ?_⟩
    · unfold Entry.masked at hm
      rw [List.any_eq_false] at hm
      have := hm i (List.mem_range.2 (live_lt hi))
      simp only [hi, Bool.true_and, Bool.not_eq_true, Bool.not_eq_false'] at this
      simpa using this
    · unfold Entry.guardUni at hg
      unfold Entry.guard
      split at hg
      · rename_i t ht
        rw [ht]
        simpa [PReg.at] using hg
      · simp at hg

/-- The lanes that an instruction gives its result function, as the statements describe them. -/
structure LanesOf (c : Ctx) (op : Op) (o : Long) (l : Lane) : Prop where
  e : l.e = (c.reads op o).e
  acting : l.acting = c.actsOn o
  items : l.items = c.e.cover o.pi o.pn (c.actsOn o)
  vals : ∀ i ∈ c.actsOn o, l.a.at i = (c.reads op o).a i ∧ l.b.at i = (c.reads op o).b i ∧ l.c.at i = (c.reads op o).c i

theorem actsOn_live {c : Ctx} {o : Long} {i : Nat} (h : i ∈ c.actsOn o) : c.e.live i = true := acting_live h

/-- An instruction over items, its result function once its sources are read. -/
theorem lane_eq {c : Ctx} {op : Op} {o : Long} {words : Nat} {k : Lane → Except Stop Entry} {P : Entry → Prop}
    (ha : c.actsOn o ≠ []) (hr : c.readable op o = true)
    (hk : ∀ l, LanesOf c op o l → ∃ x, k l = .ok x ∧ P x) :
    ∃ x, c.lane words op o k = c.put (x.advance words) ∧ P x := by
  obtain ⟨l, hl, h1, h2, h3, h4⟩ := lanes_eq ha (fun i hi => live_lt (actsOn_live hi)) hr
  obtain ⟨x, hx, hp⟩ := hk l ⟨h1, h2, h3, h4⟩
  refine ⟨x, ?_, hp⟩
  unfold Ctx.lane
  have hne : (c.e.acting o.pi o.pn).isEmpty = false := by
    have : c.e.acting o.pi o.pn ≠ [] := ha
    cases h : c.e.acting o.pi o.pn with
    | nil => exact absurd h this
    | cons _ _ => rfl
  have hl' : c.lanes op o (c.e.acting o.pi o.pn) = .ok l := hl
  simp only [hl', bind, Except.bind, hne, Bool.false_eq_true, if_false, hx, pure, Except.pure, Ctx.close]

/-- Writing a value that the items acted on hold as `f` says. -/
theorem lane_write {c : Ctx} {op : Op} {o : Long} {l : Lane} (hl : LanesOf c op o l) {wide sg : Bool} {v : OpVal} {f : Nat → W64}
    (hw : c.e.canWrite c.ke.regs (c.actsOn o) wide o.d = true) (hf : ∀ i ∈ c.actsOn o, v.at i = f i) :
    ∃ x, l.write c.ke.regs wide sg o.d v = .ok x ∧ Wrote (c.reads op o).e x c.ke.regs (c.actsOn o) wide o.d f := by
  have ho := reads_only c (c.actsOn o) op o
  unfold Lane.write
  rw [hl.e, hl.acting, hl.items]
  exact writeSpec_wrote (fun i hi => by
      have := ho.live i
      unfold Ctx.reads
      rw [this]; exact actsOn_live hi)
    (by unfold Ctx.reads; rw [ho.canWrite]; exact hw) (cover_ok ho _ _ _ _ _) hf

/-- A result computed item by item. -/
theorem each_at {c : Ctx} {op : Op} {o : Long} {l : Lane} (hl : LanesOf c op o l) (f : W64 → W64 → W64 → W64) {i : Nat}
    (hi : i ∈ c.actsOn o) :
    (l.each f).at i = f ((c.reads op o).a i) ((c.reads op o).b i) ((c.reads op o).c i) := by
  obtain ⟨h1, h2, h3⟩ := hl.vals i hi
  rw [← h1, ← h2, ← h3]
  unfold Lane.each
  split
  · rename_i hu
    simp only [Lane.uniAll, Bool.and_eq_true] at hu
    obtain ⟨⟨⟨_, ha⟩, hb⟩, hc⟩ := hu
    have aux : ∀ v : OpVal, v.isUni = true → ∀ i j, v.at i = v.at j := by
      intro v hv i j
      cases v with
      | uni w => rfl
      | aff b d => cases hv
      | den vs => cases hv
    show f (l.a.at 0) (l.b.at 0) (l.c.at 0) = _
    rw [aux _ ha 0 i, aux _ hb 0 i, aux _ hc 0 i]
  · have hlt : i < l.e.len := by
      rw [hl.e]
      unfold Ctx.reads
      rw [(reads_only c (c.actsOn o) op o).len]
      exact live_lt (actsOn_live hi)
    rw [build_at _ hlt]

end Sys2Proof.Machine
end

