-- ==== Sys2Proof/Laws/Formulas.lean ====
section
/-!
SUPPORT. The values that the item-wise meanings compute are those of the statements' formulas, and the shape of such a meaning.
-/
namespace Sys2Proof.Machine

/-! ### Integers of a width (R2, R11) -/

theorem wrapZ_lt (w : Nat) (z : Int) : wrapZ w z < 2 ^ w := by
  unfold wrapZ
  have h1 : (0 : Int) < 2 ^ w := by positivity
  have h2 := Int.emod_lt_of_pos z h1
  have h3 := Int.emod_nonneg z (ne_of_gt h1)
  zify
  rw [Int.toNat_of_nonneg h3]
  exact h2

theorem wrapZ_cast (w : Nat) (z : Int) : ((wrapZ w z : Nat) : Int) = z % 2 ^ w := by
  unfold wrapZ
  exact Int.toNat_of_nonneg (Int.emod_nonneg z (by positivity))

theorem wrapZ_ofInt (w : Nat) (z : Int) : wrapZ w z = (BitVec.ofInt w z).toNat := by
  zify
  rw [wrapZ_cast, BitVec.toNat_ofInt, Int.toNat_of_nonneg (Int.emod_nonneg z (by positivity))]
  norm_cast

theorem signed_toInt {w : Nat} (hw : 0 < w) (n : Nat) : signed w n = (BitVec.ofNat w n).toInt := by
  unfold signed
  rw [BitVec.toInt_eq_msb_cond, BitVec.msb_eq_decide, BitVec.toNat_ofNat]
  simp only [hw, and_true, decide_eq_true_eq]

theorem storePat_mod (t : Ty) (n : Nat) : storePat t (n % 2 ^ t.width) = storePat t n := by
  unfold storePat
  rw [Nat.mod_mod]

/-- Two numbers that agree in the type's low bits are stored alike. -/
theorem storePat_congr {t : Ty} {m n : Nat} (h : m % 2 ^ t.width = n % 2 ^ t.width) : storePat t m = storePat t n := by
  rw [← storePat_mod t m, h, storePat_mod]

theorem width_pos (t : Ty) : 0 < t.width := by cases t <;> decide

/-- The value of a 32-bit integer word. -/
theorem intOf_word {t : Ty} (h : affTy t = true) (x : W32) :
    intOf t (x.setWidth 64) % 2 ^ 32 = (x.toNat : Int) := by
  have hx := x.isLt
  simp only [affTy, Bool.or_eq_true, decide_eq_true_eq] at h
  have h64 : (x.setWidth 64).toNat = x.toNat := by
    rw [BitVec.toNat_setWidth]
    exact Nat.mod_eq_of_lt (by omega)
  rcases h with rfl | rfl
  · unfold intOf
    simp only [Ty.signedInt, if_true, Ty.width, h64]
    unfold signed
    rw [Nat.mod_eq_of_lt hx]
    simp only
    split <;> omega
  · unfold intOf
    simp only [Ty.signedInt, Bool.false_eq_true, if_false, Ty.width, h64]
    rw [Nat.mod_eq_of_lt hx]
    omega

/-- A 32-bit result without saturation is the low word of the exact result. -/
theorem storeInt_word {t : Ty} (h : affTy t = true) (z : Int) (x : W32) (hz : z % 2 ^ 32 = (x.toNat : Int)) :
    storeInt t false z = x.setWidth 64 := by
  have hx := x.isLt
  have hw : t.width = 32 := by
    simp only [affTy, Bool.or_eq_true, decide_eq_true_eq] at h
    rcases h with rfl | rfl <;> rfl
  have h1 : wrapZ 32 z = x.toNat := by
    have := wrapZ_cast 32 z
    rw [hz] at this
    exact_mod_cast this
  unfold storeInt storePat
  simp only [Bool.false_eq_true, if_false, hw, lt_irrefl, false_and, h1]
  apply BitVec.eq_of_toNat_eq
  rw [BitVec.toNat_ofNat, BitVec.toNat_setWidth, Nat.mod_eq_of_lt (show x.toNat < 2 ^ 32 from hx)]

/-! ### Affine results (R35) -/

theorem affine_at {v : OpVal} {p : W32 × W32} (h : v.affine = some p) (i : Nat) :
    (∃ w, v = .uni w ∧ (p.1 + p.2 * BitVec.ofNat 32 i).setWidth 64 = (w.setWidth 32).setWidth 64) ∨
      (p.1 + p.2 * BitVec.ofNat 32 i).setWidth 64 = v.at i := by
  cases v with
  | uni w =>
    left
    simp only [OpVal.affine, Option.some.injEq] at h
    subst h
    exact ⟨w, rfl, by simp⟩
  | aff b d =>
    right
    simp only [OpVal.affine, Option.some.injEq] at h
    subst h
    rfl
  | den vs => cases h

/-- An affine result holds the values that the item-wise result holds. -/
theorem affineOr_at {l : Lane} {ok : Bool} {g : W32 × W32 → W32 × W32 → Option (W32 × W32)} {dense : OpVal} {i : Nat}
    {F : W64 → W64 → W64} (hd : dense.at i = F (l.a.at i) (l.b.at i))
    (hg : ok = true → ∀ p q r, g p q = some r →
      (r.1 + r.2 * BitVec.ofNat 32 i).setWidth 64 = F ((p.1 + p.2 * BitVec.ofNat 32 i).setWidth 64) ((q.1 + q.2 * BitVec.ofNat 32 i).setWidth 64))
    (ha : ∀ w, l.a = .uni w → ∀ y, F (w.setWidth 32 |>.setWidth 64) y = F w y)
    (hb : ∀ w, l.b = .uni w → ∀ x, F x (w.setWidth 32 |>.setWidth 64) = F x w) :
    (l.affineOr ok g dense).at i = F (l.a.at i) (l.b.at i) := by
  unfold Lane.affineOr
  split
  · exact hd
  · rename_i hc
    simp only [Bool.or_eq_true, not_or, Bool.not_eq_true, Bool.not_eq_false'] at hc
    have hok : ok = true := by
      cases ok with
      | true => rfl
      | false => simp at hc
    split
    · rename_i p q hp hq
      split
      · rename_i r hr
        rw [OpVal.norm_at]
        have h : (OpVal.aff r.1 r.2).at i = _ := hg hok p q r hr
        rw [h]
        rcases affine_at hp i with ⟨w, hw, h1⟩ | h1 <;> rcases affine_at hq i with ⟨u, hu, h2⟩ | h2
        · rw [h1, h2, ha w hw, hb u hu, hw, hu]; rfl
        · rw [h1, h2, ha w hw, hw]; rfl
        · rw [h1, h2, hb u hu, hu]; rfl
        · rw [h1, h2]
      · exact hd
    · exact hd

/-! ### The shape of an item-wise meaning -/

/-- A meaning that answers the state in which the entry holds its result. -/
theorem computes_of_lane {s : State} {c : Ctx} {op : Op} {o : Long} {words : Nat} {wide : Bool} {f : Ctx → Reads → Nat → W64}
    {k : Lane → Except Stop Entry} (hs : s.here = some c) (ha : c.actsOn o ≠ []) (hr : c.readable op o = true)
    (hk : ∀ l, LanesOf c op o l → ∃ x, k l = .ok x ∧ Wrote (c.reads op o).e x c.ke.regs (c.actsOn o) wide o.d (f c (c.reads op o))) :
    ∃ t e, (Host.Outcome.next (c.lane words op o k) : Host.Outcome State Fault Refusal) = .next t ∧ OnlyEntry s t e ∧
      Wrote ((c.reads op o).e.stepped words) e c.ke.regs (c.actsOn o) wide o.d (f c (c.reads op o)) := by
  obtain ⟨x, hx, hw⟩ := lane_eq (words := words) ha hr hk
  have hp := here_parts hs
  obtain ⟨h1, h2, _⟩ := ctxAt_parts hp.1
  refine ⟨_, x.advance words, by rw [hx], ?_, ?_⟩
  · unfold Ctx.put
    rw [h1, h2]
    apply setEntry_only hp.1
    have h3 := hw.rest
    obtain ⟨st, y, h4⟩ := reads_only c (c.actsOn o) op o
    have h5 : (c.reads op o).e.pos = c.e.pos := by unfold Ctx.reads; rw [h4]
    show x.pos = _
    rw [h3]
    exact h5
  · refine ⟨hw.v, hw.p, hw.x, ?_⟩
    have h3 := hw.rest
    unfold Entry.advance Entry.stepped
    rw [h3]

/-- The meaning of an item-wise instruction, run for the entry that issues. -/
theorem issue_eq {s : State} {c : Ctx} (hs : s.here = some c) (f : Ctx → State) : s.issue f = .next (f c) := by
  unfold State.issue
  rw [hs]

/-- What the meaning answers for the entry that issues, the instruction answers. -/
theorem issued {s : State} {c : Ctx} {f : Ctx → State} {P : State → Entry → Prop} (hs : s.here = some c)
    (h : ∃ t e, (Host.Outcome.next (f c) : Host.Outcome State Fault Refusal) = .next t ∧ P t e) :
    ∃ t e, s.issue f = .next t ∧ P t e := by
  rw [issue_eq hs]
  exact h

/-- A result computed item by item and written at a width. -/
theorem laneEach_computes {s : State} {c : Ctx} {op : Op} {o : Long} {words : Nat} {wide sg : Bool} {g f : W64 → W64 → W64 → W64}
    (hs : s.here = some c) (ha : c.actsOn o ≠ []) (hr : c.readable op o = true)
    (hw : c.e.canWrite c.ke.regs (c.actsOn o) wide o.d = true) (hfg : ∀ a b x, g a b x = f a b x) :
    ∃ t e, (Host.Outcome.next (c.laneEach words op o wide sg g) : Host.Outcome State Fault Refusal) = .next t ∧ OnlyEntry s t e ∧
      Wrote ((c.reads op o).e.stepped words) e c.ke.regs (c.actsOn o) wide o.d
        (fun i => f ((c.reads op o).a i) ((c.reads op o).b i) ((c.reads op o).c i)) :=
  computes_of_lane (f := fun _ r i => f (r.a i) (r.b i) (r.c i)) hs ha hr fun _ hl =>
    lane_write hl hw fun _ hi => (each_at hl g hi).trans (hfg _ _ _)

end Sys2Proof.Machine
end

