-- ==== Sys2Proof/Laws/Bits.lean ====
section
/-!
SUPPORT. The bit operations on patterns are those of words of the type's width (R179 to R181, R185).
-/
namespace Sys2Proof.Machine

theorem patOf_word {t : Ty} (h : t ≠ .pred) (a : W64) : patOf t a = (word t a).toNat := by
  unfold patOf word
  rw [if_neg h, BitVec.toNat_setWidth]

/-- The address sum of LEA. -/
theorem lea_eq (a : W64) (z : Int) (k : Nat) :
    BitVec.ofNat 64 (wrapZ 64 ((a.toNat : Int) + z * (2 ^ k : Nat))) = a + BitVec.ofInt 64 (z * 2 ^ k) := by
  rw [wrapZ_ofInt, BitVec.ofNat_toNat, BitVec.setWidth_eq, BitVec.ofInt_add]
  congr 1
  · apply BitVec.eq_of_toNat_eq
    rw [BitVec.toNat_ofInt]
    have := a.isLt
    omega

theorem shr_eq {w : Nat} (a : BitVec w) (k : Nat) : shrPat w a.toNat k = (a >>> k).toNat := by
  simp [shrPat, BitVec.toNat_ushiftRight, Nat.shiftRight_eq_div_pow]

theorem sar_eq {w : Nat} (hw : 0 < w) (a : BitVec w) (k : Nat) : sarPat w a.toNat k = (a.sshiftRight k).toNat := by
  unfold sarPat
  rw [signed_toInt hw, BitVec.ofNat_toNat, BitVec.setWidth_eq, wrapZ_ofInt]
  congr 1
  apply BitVec.eq_of_toInt_eq
  rw [BitVec.toInt_sshiftRight, BitVec.toInt_ofInt, Int.shiftRight_eq_div_pow]
  have h1 := BitVec.toInt_lt (x := a)
  have h2 := BitVec.le_toInt (x := a)
  have hk : (1 : Int) ≤ ((2 ^ k : Nat) : Int) := by exact_mod_cast Nat.one_le_two_pow
  apply Int.bmod_eq_of_le
  · have h3 : ((2 ^ w : Nat) : Int) / 2 = 2 ^ (w - 1) := by
      obtain ⟨v, rfl⟩ : ∃ v, w = v + 1 := ⟨w - 1, by omega⟩
      simp [pow_succ]
    rw [h3]
    rw [Int.le_ediv_iff_mul_le (by omega)]
    nlinarith [show (0 : Int) ≤ 2 ^ (w - 1) by positivity]
  · have h3 : (((2 ^ w : Nat) : Int) + 1) / 2 = 2 ^ (w - 1) := by
      obtain ⟨v, rfl⟩ : ∃ v, w = v + 1 := ⟨w - 1, by omega⟩
      push_cast
      simp only [pow_succ]
      omega
    rw [h3]
    rw [Int.ediv_lt_iff_lt_mul (by omega)]
    nlinarith [show (0 : Int) < 2 ^ (w - 1) by positivity]

theorem rol_eq {w : Nat} (a : BitVec w) {k : Nat} (hk : k < w) : rolPat w a.toNat k = (a.rotateLeft k).toNat := by
  unfold rolPat
  have h0 : a.toNat < 2 ^ w := a.isLt
  rw [BitVec.rotateLeft_def, Nat.mod_eq_of_lt hk, BitVec.toNat_or, BitVec.toNat_shiftLeft, BitVec.toNat_ushiftRight,
    Nat.shiftLeft_eq, Nat.shiftRight_eq_div_pow]
  have h1 : a.toNat / 2 ^ (w - k) < 2 ^ k := by
    rw [Nat.div_lt_iff_lt_mul (by positivity), ← pow_add]
    rwa [show k + (w - k) = w by omega]
  have h2 : a.toNat * 2 ^ k % 2 ^ w = 2 ^ k * (a.toNat % 2 ^ (w - k)) := by
    rw [show (2 : Nat) ^ w = 2 ^ k * 2 ^ (w - k) by rw [← pow_add, show k + (w - k) = w by omega], Nat.mul_comm a.toNat,
      Nat.mul_mod_mul_left]
  rw [h2]
  exact (Nat.two_pow_add_eq_or_of_lt h1 _)

theorem not_eq {w : Nat} (a : BitVec w) : notPat w a.toNat = (~~~a).toNat := by
  unfold notPat
  rw [BitVec.toNat_not, Nat.mod_eq_of_lt a.isLt]

theorem popc_eq {w : Nat} (a : BitVec w) : popcPat w a.toNat = ((List.range w).filter a.getLsbD).length := rfl

theorem ctz_eq {w : Nat} (a : BitVec w) : ctzPat w a.toNat = ((List.range w).takeWhile fun k => !a.getLsbD k).length := by
  unfold ctzPat
  have key : ∀ (n s : Nat), ((List.range' s n).find? fun k => a.toNat.testBit k).getD (s + n) =
      s + ((List.range' s n).takeWhile fun k => !a.getLsbD k).length := by
    intro n
    induction n with
    | zero => intro s; simp
    | succ n ih =>
      intro s
      simp only [List.range'_succ, List.find?_cons, List.takeWhile_cons]
      cases h : a.toNat.testBit s with
      | true =>
        have h2 : a.getLsbD s = true := h
        simp [h2]
      | false =>
        have h2 : a.getLsbD s = false := h
        simp only [h2, Bool.not_false, if_true, List.length_cons]
        have := ih (s + 1)
        rw [show s + (n + 1) = s + 1 + n by omega, this]
        omega
  have := key w 0
  simpa [List.range_eq_range'] using this

theorem clz_eq {w : Nat} (a : BitVec w) : clzPat w a.toNat = ((List.range w).takeWhile fun k => !a.getMsbD k).length := by
  unfold clzPat
  rw [Nat.mod_eq_of_lt a.isLt]
  -- zeros taken from the top stop at the first bit that is set
  have run : ∀ (n s : Nat), s + n ≤ w → (∀ k, k < n → a.getMsbD (s + k) = false) →
      ∀ m, ((List.range' s (n + m)).takeWhile fun k => !a.getMsbD k).length =
        n + ((List.range' (s + n) m).takeWhile fun k => !a.getMsbD k).length := by
    intro n
    induction n with
    | zero => intro s _ _ m; simp
    | succ n ih =>
      intro s hs hz m
      rw [show n + 1 + m = (n + m) + 1 by omega, List.range'_succ, List.takeWhile_cons]
      have h0 := hz 0 (by omega)
      simp only [Nat.add_zero] at h0
      simp only [h0, Bool.not_false, if_true, List.length_cons]
      rw [ih (s + 1) (by omega) (fun k hk => by
        have := hz (k + 1) (by omega)
        rwa [show s + (k + 1) = s + 1 + k by omega] at this) m, show s + 1 + n = s + (n + 1) by omega]
      omega
  split
  · rename_i h
    have hz : ∀ k, a.getMsbD k = false := by
      intro k
      simp only [BitVec.getMsbD, BitVec.getLsbD, h, Nat.zero_testBit, Bool.and_false]
    have := run w 0 (by omega) (fun k _ => hz _) 0
    simpa [List.range_eq_range'] using this.symm
  · rename_i h
    have hl : Nat.log2 a.toNat < w := (Nat.log2_lt h).2 a.isLt
    have hb : a.toNat.testBit (Nat.log2 a.toNat) = true := Nat.testBit_log2 h
    have hz : ∀ k, k < w - 1 - Nat.log2 a.toNat → a.getMsbD (0 + k) = false := by
      intro k hk
      simp only [BitVec.getMsbD, BitVec.getLsbD, Nat.zero_add]
      rw [Nat.testBit_lt_two_pow, Bool.and_false]
      exact lt_of_lt_of_le (Nat.lt_log2_self (n := a.toNat)) (Nat.pow_le_pow_right (by omega) (by omega))
    have hr := run (w - 1 - Nat.log2 a.toNat) 0 (by omega) hz (Nat.log2 a.toNat + 1)
    rw [show w - 1 - Nat.log2 a.toNat + (Nat.log2 a.toNat + 1) = w by omega] at hr
    rw [List.range_eq_range', hr, List.range'_succ, List.takeWhile_cons]
    have h1 : a.getMsbD (0 + (w - 1 - Nat.log2 a.toNat)) = true := by
      simp only [BitVec.getMsbD, BitVec.getLsbD, Nat.zero_add]
      rw [show w - 1 - (w - 1 - Nat.log2 a.toNat) = Nat.log2 a.toNat by omega, hb]
      simp only [Bool.and_true, decide_eq_true_eq]
      omega
    simp only [h1, Bool.not_true, Bool.false_eq_true, if_false, List.length_nil, Nat.add_zero]

theorem brevPat_lt (w a : Nat) : brevPat w a < 2 ^ w := by
  induction w generalizing a with
  | zero => simp [brevPat]
  | succ w ih =>
    unfold brevPat
    have := ih (a / 2)
    have h2 : a % 2 < 2 := Nat.mod_lt _ (by decide)
    rw [pow_succ]
    nlinarith [Nat.zero_le (2 ^ w)]

theorem brevPat_testBit (w a k : Nat) : (brevPat w a).testBit k = (decide (k < w) && a.testBit (w - 1 - k)) := by
  induction w generalizing a k with
  | zero => simp [brevPat]
  | succ w ih =>
    unfold brevPat
    have hlt := brevPat_lt w (a / 2)
    rw [Nat.mul_comm, Nat.testBit_two_pow_mul_add _ hlt]
    by_cases h : k < w
    · rw [if_pos h, ih, Nat.testBit_div_two]
      simp only [h, decide_true, Bool.true_and, show k < w + 1 by omega]
      rw [show w - 1 - k + 1 = w + 1 - 1 - k by omega]
    · rw [if_neg h]
      by_cases h2 : k = w
      · subst h2
        simp [Nat.testBit_zero]
      · have h3 : k - w ≠ 0 := by omega
        have h4 : (a % 2).testBit (k - w) = false := by
          apply Nat.testBit_lt_two_pow
          calc a % 2 < 2 ^ 1 := by omega
            _ ≤ 2 ^ (k - w) := Nat.pow_le_pow_right (by omega) (by omega)
        rw [h4]
        simp only [show ¬ k < w + 1 by omega, decide_false, Bool.false_and]

theorem brev_eq {w : Nat} (a : BitVec w) : brevPat w a.toNat = a.reverse.toNat := by
  apply Nat.eq_of_testBit_eq
  intro k
  rw [brevPat_testBit]
  show _ = a.reverse.getLsbD k
  rw [BitVec.getLsbD_reverse, BitVec.getMsbD]
  rfl

theorem field_toNat {w : Nat} (a : BitVec w) (pos len : Nat) : a.toNat / 2 ^ pos % 2 ^ len = (a.extractLsb' pos len).toNat := by
  rw [BitVec.extractLsb'_toNat, Nat.shiftRight_eq_div_pow]

theorem bfx_eq {t : Ty} (ht : t ≠ .pred) (a b : W64) :
    bfx t a b = (let pos := b.toNat % 256
      let len := min (b.toNat / 256 % 256) (t.width - pos)
      if b.toNat / 256 % 256 = 0 ∨ t.width ≤ pos then 0
      else storePat t (if t.signedInt then ((word t a).extractLsb' pos len).signExtend t.width
        else ((word t a).extractLsb' pos len).setWidth t.width).toNat) := by
  unfold bfx fieldOf
  simp only
  by_cases h : b.toNat / 256 % 256 = 0 ∨ t.width ≤ b.toNat % 256
  · simp only [if_pos h]
  · simp only [if_neg h]
    rw [patOf_word ht, field_toNat]
    have hlen : min (b.toNat / 256 % 256) (t.width - b.toNat % 256) ≤ t.width := by omega
    have hpos : 0 < min (b.toNat / 256 % 256) (t.width - b.toNat % 256) := by omega
    congr 1
    split
    · rw [signed_toInt hpos, BitVec.ofNat_toNat, BitVec.setWidth_eq, wrapZ_ofInt]
      rfl
    · rw [BitVec.toNat_setWidth]
      exact (Nat.mod_eq_of_lt (lt_of_lt_of_le (BitVec.isLt _) (Nat.pow_le_pow_right (by omega) hlen))).symm

/-- A replaced field, as three parts. -/
theorem setBits_parts (n lo w v : Nat) :
    setBits n lo w v = 2 ^ (lo + w) * (n / 2 ^ (lo + w)) + (2 ^ lo * (v % 2 ^ w) + n % 2 ^ lo) := by
  unfold setBits bits
  have h1 : n = 2 ^ lo * (n / 2 ^ lo) + n % 2 ^ lo := (Nat.div_add_mod n (2 ^ lo)).symm
  have h2 : n / 2 ^ lo = 2 ^ w * (n / 2 ^ lo / 2 ^ w) + n / 2 ^ lo % 2 ^ w := (Nat.div_add_mod _ _).symm
  have h3 : n / 2 ^ (lo + w) = n / 2 ^ lo / 2 ^ w := by rw [pow_add, Nat.div_div_eq_div_mul]
  rw [h3]
  have h4 : n / 2 ^ lo % 2 ^ w * 2 ^ lo ≤ n := by
    calc n / 2 ^ lo % 2 ^ w * 2 ^ lo ≤ n / 2 ^ lo * 2 ^ lo := Nat.mul_le_mul_right _ (Nat.mod_le _ _)
      _ ≤ n := Nat.div_mul_le_self _ _
  have h5 : n = 2 ^ (lo + w) * (n / 2 ^ lo / 2 ^ w) + n / 2 ^ lo % 2 ^ w * 2 ^ lo + n % 2 ^ lo := by
    conv_lhs => rw [h1, h2]
    rw [pow_add]
    ring
  rw [Nat.mul_comm (v % 2 ^ w)]
  omega

theorem setBits_testBit (n lo w v k : Nat) :
    (setBits n lo w v).testBit k = if lo ≤ k ∧ k < lo + w then v.testBit (k - lo) else n.testBit k := by
  rw [setBits_parts]
  have h1 : n % 2 ^ lo < 2 ^ lo := Nat.mod_lt _ (by positivity)
  have h2 : v % 2 ^ w < 2 ^ w := Nat.mod_lt _ (by positivity)
  have h3 : 2 ^ lo * (v % 2 ^ w) + n % 2 ^ lo < 2 ^ (lo + w) := by
    rw [pow_add]
    calc 2 ^ lo * (v % 2 ^ w) + n % 2 ^ lo < 2 ^ lo * (v % 2 ^ w) + 2 ^ lo := by omega
      _ = 2 ^ lo * (v % 2 ^ w + 1) := by ring
      _ ≤ 2 ^ lo * 2 ^ w := Nat.mul_le_mul_left _ h2
  rw [Nat.testBit_two_pow_mul_add _ h3, Nat.testBit_two_pow_mul_add _ h1]
  by_cases hk : k < lo + w
  · rw [if_pos hk]
    by_cases hl : k < lo
    · rw [if_pos hl, if_neg (by omega), Nat.testBit_mod_two_pow]
      simp [hl]
    · rw [if_neg hl, if_pos ⟨by omega, hk⟩, Nat.testBit_mod_two_pow]
      have : k - lo < w := by omega
      simp [this]
  · rw [if_neg hk, if_neg (fun h => hk h.2), Nat.testBit_div_two_pow]
    congr 1
    omega

theorem bfi_eq {t : Ty} (ht : t ≠ .pred) (a b c : W64) :
    bfi t a b c = (let pos := b.toNat % 256
      let len := min (b.toNat / 256 % 256) (t.width - pos)
      let mask : BitVec t.width := (BitVec.allOnes len).setWidth t.width <<< pos
      if b.toNat / 256 % 256 = 0 ∨ t.width ≤ pos then storePat t (word t c).toNat
      else storePat t ((word t c &&& ~~~mask) ||| (word t a <<< pos &&& mask)).toNat) := by
  unfold bfi fieldOf
  simp only
  by_cases h : b.toNat / 256 % 256 = 0 ∨ t.width ≤ b.toNat % 256
  · simp only [if_pos h]
    rw [patOf_word ht]
  · simp only [if_neg h]
    rw [patOf_word ht, patOf_word ht]
    congr 1
    apply Nat.eq_of_testBit_eq
    intro k
    rw [setBits_testBit]
    show _ = BitVec.getLsbD _ k
    simp only [BitVec.getLsbD_or, BitVec.getLsbD_and, BitVec.getLsbD_not, BitVec.getLsbD_shiftLeft, BitVec.getLsbD_setWidth,
      BitVec.getLsbD_allOnes]
    generalize b.toNat % 256 = pos at *
    generalize b.toNat / 256 % 256 = l at *
    have hc : (word t c).toNat.testBit k = (word t c).getLsbD k := rfl
    have ha : (word t a).toNat.testBit (k - pos) = (word t a).getLsbD (k - pos) := rfl
    rw [hc, ha]
    by_cases hk : k < t.width
    · by_cases h1 : pos ≤ k ∧ k < pos + min l (t.width - pos)
      · rw [if_pos h1]
        have h2 : ¬ k < pos := by omega
        have h3 : k - pos < t.width := by omega
        have h4 : k - pos < min l (t.width - pos) := by omega
        simp [hk, h2, h3, h4]
      · rw [if_neg h1]
        by_cases h2 : k < pos
        · simp [hk, h2]
        · have h4 : ¬ k - pos < min l (t.width - pos) := by omega
          simp only [hk, h2, h4, decide_true, decide_false, Bool.not_false, Bool.true_and, Bool.and_false,
            Bool.and_true, Bool.or_false]
    · have h1 : ¬ (pos ≤ k ∧ k < pos + min l (t.width - pos)) := by omega
      rw [if_neg h1, BitVec.getLsbD_of_ge _ _ (by omega)]
      simp [hk]

end Sys2Proof.Machine
end

