-- ==== Sys2Proof/Laws/Encoding.lean ====
section
/-!
SUPPORT. The encoder and the decoder take the same digits apart and put them together (R3, R137 to R151).
-/
namespace Sys2Proof

/-! ### Codes -/

theorem ofCode_v (c : Nat) (n : Fin 128) (h : c = 0 + n.val) : Spec.ofCode c = some (.v n) := by
  have := n.isLt
  unfold Spec.ofCode
  rw [dif_pos (by omega)]
  exact congrArg (fun k => some (Spec.v k)) (Fin.ext (by simp only [h]; omega))

theorem ofCode_s (c : Nat) (n : Fin 64) (h : c = 128 + n.val) : Spec.ofCode c = some (.s n) := by
  have := n.isLt
  unfold Spec.ofCode
  rw [dif_neg (by omega), dif_pos (by omega)]
  exact congrArg (fun k => some (Spec.s k)) (Fin.ext (by simp only [h]; omega))

theorem ofCode_x (c : Nat) (n : Fin 8) (h : c = 256 + n.val) : Spec.ofCode c = some (.x n) := by
  have := n.isLt
  unfold Spec.ofCode
  rw [dif_neg (by omega), dif_neg (by omega), if_neg (by omega), dif_pos (by omega)]
  exact congrArg (fun k => some (Spec.x k)) (Fin.ext (by simp only [h]; omega))

theorem ofCode_q (c : Nat) (n : Fin 4) (h : c = 264 + n.val) : Spec.ofCode c = some (.q n) := by
  have := n.isLt
  unfold Spec.ofCode
  rw [dif_neg (by omega), dif_neg (by omega), if_neg (by omega), dif_neg (by omega), dif_pos (by omega)]
  exact congrArg (fun k => some (Spec.q k)) (Fin.ext (by simp only [h]; omega))

theorem ofCode_p (c : Nat) (n : Fin 8) (h : c = 272 + n.val) : Spec.ofCode c = some (.p n) := by
  have := n.isLt
  unfold Spec.ofCode
  rw [dif_neg (by omega), dif_neg (by omega), if_neg (by omega), dif_neg (by omega), dif_neg (by omega), if_neg (by omega), dif_pos (by omega)]
  exact congrArg (fun k => some (Spec.p k)) (Fin.ext (by simp only [h]; omega))

theorem ofCode_ind (c : Nat) (k : Fin 8) (o : Fin 16) (h : c = 384 + 16 * k.val + o.val) : Spec.ofCode c = some (.ind k o) := by
  have := k.isLt
  have := o.isLt
  unfold Spec.ofCode
  rw [dif_neg (by omega), dif_neg (by omega), if_neg (by omega), dif_neg (by omega), dif_neg (by omega), if_neg (by omega),
    dif_neg (by omega), if_neg (by omega), if_neg (by omega), if_neg (by omega), if_pos (by omega)]
  exact congrArg some (congrArg₂ Spec.ind (Fin.ext (by simp only [h]; omega)) (Fin.ext (by simp only [h]; omega)))

theorem Spec.ofCode_code (sp : Spec) : Spec.ofCode sp.code = some sp := by
  cases sp with
  | v n => exact ofCode_v _ n (Nat.zero_add _).symm
  | s n => exact ofCode_s _ n rfl
  | x n => exact ofCode_x _ n rfl
  | q n => exact ofCode_q _ n rfl
  | p n => exact ofCode_p _ n rfl
  | lit => decide
  | zero => decide
  | ind k o => exact ofCode_ind _ k o rfl

theorem Spec.code_lt (sp : Spec) : sp.code < 512 := by
  cases sp with
  | ind k o => have := k.isLt; have := o.isLt; simp only [Spec.code]; omega
  | lit => decide
  | zero => decide
  | v n => have := n.isLt; simp only [Spec.code]; omega
  | s n => have := n.isLt; simp only [Spec.code]; omega
  | x n => have := n.isLt; simp only [Spec.code]; omega
  | q n => have := n.isLt; simp only [Spec.code]; omega
  | p n => have := n.isLt; simp only [Spec.code]; omega

theorem Ty.ofCode_code (t : Ty) : Ty.ofCode t.code = some t := by cases t <;> rfl

theorem Ty.code_lt (t : Ty) : t.code < 16 := by cases t <;> decide

theorem Perm.ofCodes_codes (m : Perm) : Perm.ofCodes m.codes.1 m.codes.2 = some m := by
  cases m <;> simp [Perm.codes, Perm.ofCodes]

theorem Perm.codes_lt (m : Perm) : m.codes.1 < 8 ∧ m.codes.2 < 64 := by
  cases m with
  | none => decide
  | bfly k => have := k.isLt; simp only [Perm.codes]; omega
  | rot8 k => have := k.isLt; simp only [Perm.codes]; omega
  | rev => decide
  | bcast j => have := j.isLt; simp only [Perm.codes]; omega

theorem Op.find_code (op : Op) : Op.find op.maj op.min = some op := by cases op <;> rfl

theorem Op.code_lt (op : Op) : op.maj < 64 ∧ op.min < 16 := by cases op <;> decide

/-! ### Words and bytes -/

theorem word0_digits (len : Nat) (hl : len < 4) (ver1 : Bool) (op : Op) (d a : Spec) :
    let w := word0 len ver1 op d a
    w % 4 = len ∧ w / 4 % 4 = (if ver1 then 1 else 0) ∧ w / 16 % 64 = op.maj ∧ w / 1024 % 16 = op.min ∧
      w / 16384 % 512 = d.code ∧ w / 8388608 % 512 = a.code ∧ w < 4294967296 := by
  have h1 := Op.code_lt op
  have h2 := d.code_lt
  have h3 := a.code_lt
  have h4 : (if ver1 then 1 else 0 : Nat) < 2 := by split <;> decide
  simp only [word0]
  generalize (if ver1 then 1 else 0 : Nat) = v at *
  omega

theorem word1_digits (o : Long) :
    let w := word1 o
    w / 2147483648 % 2 = 0 ∧ w % 512 = o.b.code ∧ w / 512 % 512 = o.c.code ∧ w / 262144 % 8 = o.pi.val ∧
      w / 2097152 % 2 = (if o.pn then 1 else 0) ∧ w / 4194304 % 8 = o.perm.codes.1 ∧ w / 33554432 % 64 = o.perm.codes.2 ∧
      w < 4294967296 := by
  have h1 := o.b.code_lt
  have h2 := o.c.code_lt
  have h3 := o.pi.isLt
  have h4 : (if o.pn then 1 else 0 : Nat) < 2 := by split <;> decide
  have h5 := o.perm.codes_lt
  simp only [word1]
  generalize (if o.pn then 1 else 0 : Nat) = v at *
  omega

theorem word2_digits (o : Long) :
    let w := word2 o
    w % 16 = o.look.val ∧ w / 16 % 32 = o.ty.code ∧ w / 512 % 128 = o.mod.val ∧ w / 65536 % 65536 = o.imm.val ∧
      w < 4294967296 := by
  have h1 := o.look.isLt
  have h2 := o.ty.code_lt
  have h3 := o.mod.isLt
  have h4 := o.imm.isLt
  simp only [word2]
  omega

theorem joinLit_split (l : W64) : joinLit (l.toNat % 4294967296) (l.toNat / 4294967296) = l := by
  unfold joinLit
  rw [Nat.mod_add_div]
  simp

theorem wordOfBytes_split (w : Nat) (h : w < 4294967296) :
    wordOfBytes (BitVec.ofNat 8 w) (BitVec.ofNat 8 (w / 256)) (BitVec.ofNat 8 (w / 65536)) (BitVec.ofNat 8 (w / 16777216)) = w := by
  simp only [wordOfBytes, BitVec.toNat_ofNat]
  omega

/-- Words laid out as bytes are read back, whatever follows. -/
theorem wordsOfBytes_bytes (ws : List Nat) (h : ∀ w ∈ ws, w < 4294967296) (rest : List Byte) :
    wordsOfBytes (bytesOfWords ws ++ rest) = ws ++ wordsOfBytes rest := by
  induction ws with
  | nil => rfl
  | cons w ws ih =>
    have hw := wordOfBytes_split w (h w (by simp))
    simp only [bytesOfWords, bytesOfWord, List.cons_append, List.nil_append, wordsOfBytes, hw]
    rw [ih fun x hx => h x (by simp [hx])]

/-- Every word of an instruction has 32 bits. -/
theorem Raw.words_lt (r : Raw) : ∀ w ∈ r.words, w < 4294967296 := by
  cases r with
  | short op o =>
    intro w hw
    simp only [Raw.words, List.mem_singleton] at hw
    subst hw
    exact (word0_digits 0 (by decide) _ _ _ _).2.2.2.2.2.2
  | long op o =>
    intro w hw
    have h1 := (word1_digits o).2.2.2.2.2.2.2
    have h2 := (word2_digits o).2.2.2.2
    have h3 := o.lit.isLt
    have h4 : o.lit.toNat % 4294967296 < 4294967296 := Nat.mod_lt _ (by decide)
    have h5 : o.lit.toNat / 4294967296 < 4294967296 := by omega
    simp only [Raw.words] at hw
    cases hf : o.form <;> rw [hf] at hw <;> simp only [List.mem_cons, List.not_mem_nil, or_false] at hw
    · have h0 := (word0_digits 1 (by decide) o.ver1 op o.d o.a).2.2.2.2.2.2
      rcases hw with rfl | rfl | rfl <;> assumption
    · have h0 := (word0_digits 2 (by decide) o.ver1 op o.d o.a).2.2.2.2.2.2
      rcases hw with rfl | rfl | rfl <;> assumption
    · have h0 := (word0_digits 3 (by decide) o.ver1 op o.d o.a).2.2.2.2.2.2
      rcases hw with rfl | rfl | rfl | rfl | rfl <;> assumption

/-! ### One form at a time -/

theorem readSpec_code (f : Nat) (sp : Spec) : readSpec f sp.code = .ok sp := by
  unfold readSpec
  rw [Spec.ofCode_code]

theorem ver_back (b : Bool) : (decide ((if b = true then 1 else 0) = 1) : Bool) = b := by cases b <;> rfl

/-- What the decoder does once the opcode and the form are known. -/
def decodeTail (op : Op) (ver1 : Bool) (w0 : Nat) (len : Nat) (rest : List Nat) : Except Reject Raw :=
  match len, rest with
  | 0, _ => readShort op ver1 w0
  | 1, w1 :: w2 :: _ => readLong op .len01 ver1 w0 w1 w2 0
  | 2, l0 :: l1 :: _ => readLit op ver1 w0 l0 l1
  | 3, w1 :: w2 :: l0 :: l1 :: _ => readLong op .len11 ver1 w0 w1 w2 (joinLit l0 l1)
  | _, _ => .error ⟨4, 10⟩

/-- What the decoder does with the first word of an instruction whose opcode has the form. -/
theorem decode_head (len : Nat) (hl : len < 4) (ver1 : Bool) (op : Op) (d a : Spec) (rest : List Nat)
    (ho : op.lens.contains len = true) :
    Raw.decode (word0 len ver1 op d a :: rest) = decodeTail op ver1 (word0 len ver1 op d a) len rest := by
  obtain ⟨h1, h2, h3, h4, h5, h6, h7⟩ := word0_digits len hl ver1 op d a
  have hv : ¬ 2 ≤ word0 len ver1 op d a / 4 % 4 := by rw [h2]; split <;> decide
  unfold Raw.decode
  simp only
  rw [if_neg hv]
  simp only [h3, h4, Op.find_code, h1, ho, Bool.not_true, Bool.false_eq_true, h2, ver_back, if_false]
  rfl

theorem readShort_back (op : Op) (o : Short) (h : (Raw.short op o).check = none) :
    readShort op o.ver1 (word0 0 o.ver1 op o.d o.a) = .ok (.short op o) := by
  obtain ⟨h1, h2, h3, h4, h5, h6, h7⟩ := word0_digits 0 (by decide) o.ver1 op o.d o.a
  unfold readShort
  simp only [h5, h6, readSpec_code]
  show (match (Raw.short op ⟨o.ver1, o.d, o.a⟩).check with
    | none => Except.ok (Raw.short op ⟨o.ver1, o.d, o.a⟩)
    | some r => .error r) = _
  rw [h]

/-- The fields that the literal form leaves at their implied values. -/
def litForm (op : Op) (o : Long) : Long :=
  { form := .len10, ver1 := o.ver1, d := o.d, a := o.a, b := if o.a = .lit then .zero else .lit, c := .zero, pn := false,
    pi := 7, perm := .none, look := 0, ty := op.defaultTy, mod := 0, imm := 0, lit := o.lit }

theorem litImplied_back {op : Op} {o : Long} (hf : o.form = .len10) (h : litImplied op o = true) : litForm op o = o := by
  obtain ⟨form, ver1, d, a, b, c, pn, pi, perm, look, ty, mod, imm, lit⟩ := o
  simp only [litImplied, Bool.and_eq_true, Bool.or_eq_true, decide_eq_true_eq, Bool.not_eq_true'] at h
  obtain ⟨⟨⟨⟨⟨⟨⟨⟨hc, hn⟩, hp⟩, hm⟩, hk⟩, ht⟩, hmod⟩, himm⟩, hab⟩ := h
  simp only at hf hc hn hp hm hk ht hmod himm hab
  have hp' : pi = 7 := Fin.ext hp
  have hk' : look = 0 := Fin.ext hk
  have hm' : mod = 0 := Fin.ext hmod
  have hi' : imm = 0 := Fin.ext himm
  have hb' : b = if a = .lit then .zero else .lit := by
    rcases hab with ⟨hb, ha⟩ | ⟨ha, hb⟩
    · rw [if_neg ha, hb]
    · rw [if_pos ha, hb]
  simp only [litForm, hf, hc, hn, hp', hm, hk', ht, hm', hi', ← hb']

theorem readLit_back (op : Op) (o : Long) (hf : o.form = .len10) (h : (Raw.long op o).check = none)
    (hi : litImplied op o = true) :
    readLit op o.ver1 (word0 2 o.ver1 op o.d o.a) (o.lit.toNat % 4294967296) (o.lit.toNat / 4294967296) = .ok (.long op o) := by
  obtain ⟨h1, h2, h3, h4, h5, h6, h7⟩ := word0_digits 2 (by decide) o.ver1 op o.d o.a
  unfold readLit
  simp only [h5, h6, readSpec_code, joinLit_split]
  show (match (Raw.long op (litForm op o)).check with
    | none => Except.ok (Raw.long op (litForm op o))
    | some r => .error r) = _
  rw [litImplied_back hf hi, h]

/-- What a form with words 1 and 2 that passes its checks passes of them. -/
theorem check_long {op : Op} {o : Long} (hf : o.form ≠ .len10) (h : (Raw.long op o).check = none) :
    op.lens.contains o.form.len = true ∧ ¬ (o.pn = true ∧ o.pi.val = 7) ∧ (o.form = .len01 → o.lit = 0) ∧
      checkLong op o = none := by
  unfold Raw.check at h
  simp only at h
  split at h
  · cases h
  · rename_i hl
    cases hform : o.form <;> rw [hform] at h hf hl <;> simp only at h
    · split at h
      · cases h
      · rename_i hp
        split at h
        · cases h
        · rename_i hlit
          refine ⟨by simpa using hl, by simpa using hp, fun _ => not_not.1 hlit, h⟩
    · exact absurd rfl hf
    · split at h
      · cases h
      · rename_i hp
        exact ⟨by simpa using hl, by simpa using hp, fun hx => LongForm.noConfusion hx, h⟩

/-- A check that is passed, with the checks after it. -/
theorem passed {p : Prop} [Decidable p] {r : Reject} {x : Option Reject} (h : (if p then some r else x) = none) :
    ¬ p ∧ x = none := by
  split at h
  · cases h
  · exact ⟨by assumption, h⟩

theorem readLong_back (op : Op) (o : Long) (n : Nat) (hn : n < 4) (lit : W64) (hl : lit = o.lit) (hf : o.form ≠ .len10)
    (h : (Raw.long op o).check = none) :
    readLong op o.form o.ver1 (word0 n o.ver1 op o.d o.a) (word1 o) (word2 o) lit = .ok (.long op o) := by
  obtain ⟨h1, h2, h3, h4, h5, h6, h7⟩ := word0_digits n hn o.ver1 op o.d o.a
  obtain ⟨g1, g2, g3, g4, g5, g6, g7, g8⟩ := word1_digits o
  obtain ⟨k1, k2, k3, k4, k5⟩ := word2_digits o
  obtain ⟨_, hp, _, hc⟩ := check_long hf h
  have hp' : ¬ ((if o.pn = true then 1 else 0) = 1 ∧ o.pi.val = 7) := by
    intro hx
    exact hp ⟨by by_contra hq; rw [if_neg hq] at hx; exact absurd hx.1 (by decide), hx.2⟩
  unfold readLong
  simp only [h5, h6, g1, g2, g3, g4, g5, g6, g7, k1, k2, k3, k4, Perm.ofCodes_codes, Ty.ofCode_code, readSpec_code, hp', if_false,
    Nat.zero_ne_one]
  have hv : (decide (o.a.code < 128) : Bool) = (match o.a with
      | .v _ => true
      | _ => false) := by
    cases o.a with
    | v n => exact decide_eq_true n.isLt
    | s n => exact decide_eq_false (by show ¬ 128 + n.val < 128; omega)
    | x n => exact decide_eq_false (by show ¬ 256 + n.val < 128; omega)
    | q n => exact decide_eq_false (by show ¬ 264 + n.val < 128; omega)
    | p n => exact decide_eq_false (by show ¬ 272 + n.val < 128; omega)
    | lit => rfl
    | zero => rfl
    | ind k o => exact decide_eq_false (by show ¬ 384 + 16 * k.val + o.val < 128; omega)
  have hc2 := hc
  unfold checkLong at hc2
  simp only at hc2
  obtain ⟨q1, hc3⟩ := passed hc2
  obtain ⟨q2, _⟩ := passed hc3
  rw [if_neg (by rw [hv]; exact q1), if_neg q2]
  have hx : ({ o with pn := decide ((if o.pn = true then 1 else 0) = 1), lit := lit } : Long) = o := by rw [ver_back, hl]
  show (match (Raw.long op { o with pn := decide ((if o.pn = true then 1 else 0) = 1), lit := lit }).check with
    | none => Except.ok (Raw.long op { o with pn := decide ((if o.pn = true then 1 else 0) = 1), lit := lit })
    | some r => .error r) = _
  rw [hx, h]

/-- The words of a raw instruction that passes its checks decode to it, whatever follows. -/
theorem Raw.decode_words (r : Raw) (h : r.check = none) (rest : List Nat) : Raw.decode (r.words ++ rest) = .ok r := by
  cases r with
  | short op o =>
    have hl : op.lens.contains 0 = true := by
      unfold Raw.check at h
      simp only at h
      split at h
      · assumption
      · cases h
    simp only [Raw.words, List.cons_append, List.nil_append]
    rw [decode_head 0 (by decide) o.ver1 op o.d o.a rest hl]
    exact readShort_back op o h
  | long op o =>
    simp only [Raw.words]
    cases hf : o.form with
    | len01 =>
      obtain ⟨hl, _, hlit, _⟩ := check_long (by rw [hf]; decide) h
      rw [hf] at hl
      simp only [List.cons_append, List.nil_append]
      rw [decode_head 1 (by decide) o.ver1 op o.d o.a _ hl]
      have := readLong_back op o 1 (by decide) 0 (hlit hf).symm (by rw [hf]; decide) h
      rwa [hf] at this
    | len10 =>
      have h' := h
      unfold Raw.check at h'
      simp only [hf] at h'
      split at h'
      · cases h'
      · rename_i hl
        split at h'
        · rename_i hi
          simp only [List.cons_append, List.nil_append]
          rw [decode_head 2 (by decide) o.ver1 op o.d o.a _ (by simpa [LongForm.len] using hl)]
          exact readLit_back op o hf h hi
        · cases h'
    | len11 =>
      obtain ⟨hl, _, _, _⟩ := check_long (by rw [hf]; decide) h
      rw [hf] at hl
      simp only [List.cons_append, List.nil_append]
      rw [decode_head 3 (by decide) o.ver1 op o.d o.a _ hl]
      have := readLong_back op o 3 (by decide) (joinLit (o.lit.toNat % 4294967296) (o.lit.toNat / 4294967296)) (joinLit_split _)
        (by rw [hf]; decide) h
      rwa [hf] at this

end Sys2Proof
end

