-- ==== Sys2Proof/Laws/Integer.lean ====
section
/-!
SUPPORT. The integer meanings whose results keep a form of their own: moves, sums, products and shifts that stay affine,
comparisons that give a step, and the negation of a predicate (R35, R176 to R184).
-/
namespace Sys2Proof.Machine

theorem nwords_long (o : Long) : longWords o = lenWords o.form.len := by
  unfold longWords
  cases o.form <;> rfl

theorem aff_width {t : Ty} (h : affTy t = true) : t.width = 32 := by
  simp only [affTy, Bool.or_eq_true, decide_eq_true_eq] at h
  rcases h with rfl | rfl <;> rfl

theorem aff_not_pred {t : Ty} (h : affTy t = true) : t ≠ .pred := by
  simp only [affTy, Bool.or_eq_true, decide_eq_true_eq] at h
  rcases h with rfl | rfl <;> simp

/-- A 32-bit integer source is read from the low word alone. -/
theorem intOf_low {t : Ty} (h : affTy t = true) (a : W64) : intOf t ((a.setWidth 32).setWidth 64) = intOf t a := by
  simp only [affTy, Bool.or_eq_true, decide_eq_true_eq] at h
  have h1 : ((a.setWidth 32).setWidth 64).toNat % 2 ^ 32 = a.toNat % 2 ^ 32 := by
    rw [BitVec.toNat_setWidth, BitVec.toNat_setWidth]
    omega
  rcases h with rfl | rfl
  · unfold intOf
    simp only [Ty.signedInt, if_true, Ty.width]
    unfold signed
    simp only [h1]
  · unfold intOf
    simp only [Ty.signedInt, Bool.false_eq_true, if_false, Ty.width, h1]

theorem patOf_low {t : Ty} (hw : t.width = 32) (ht : t ≠ .pred) (a : W64) : patOf t ((a.setWidth 32).setWidth 64) = patOf t a := by
  unfold patOf
  rw [if_neg ht, if_neg ht, hw, BitVec.toNat_setWidth, BitVec.toNat_setWidth]
  omega

/-- The affine rule of a sum or difference. -/
theorem sum_affine {t : Ty} (h : affTy t = true) {f : Int → Int → Int} {g : W32 → W32 → W32}
    (hfg : ∀ x y : W32, ∀ m n : Int, m % 2 ^ 32 = (x.toNat : Int) → n % 2 ^ 32 = (y.toNat : Int) → f m n % 2 ^ 32 = ((g x y).toNat : Int))
    (hg : ∀ p q r s i : W32, g p q + g r s * i = g (p + r * i) (q + s * i)) (p q : W32 × W32) (i : Nat) :
    (g p.1 q.1 + g p.2 q.2 * BitVec.ofNat 32 i).setWidth 64 = storeInt t false
      (f (intOf t ((p.1 + p.2 * BitVec.ofNat 32 i).setWidth 64)) (intOf t ((q.1 + q.2 * BitVec.ofNat 32 i).setWidth 64))) := by
  rw [hg]
  exact (storeInt_word h _ _ (hfg _ _ _ _ (intOf_word h _) (intOf_word h _))).symm

section
variable {s : State} {c : Ctx} {o : Long}

/-- IADD and ISUB. -/
theorem runSum_computes {op : Op} {words : Nat} {f : Int → Int → Int} {g : W32 → W32 → W32}
    (hfg : ∀ x y : W32, ∀ m n : Int, m % 2 ^ 32 = (x.toNat : Int) → n % 2 ^ 32 = (y.toNat : Int) → f m n % 2 ^ 32 = ((g x y).toNat : Int))
    (hg : ∀ p q r s i : W32, g p q + g r s * i = g (p + r * i) (q + s * i))
    (hs : s.here = some c) (ha : c.actsOn o ≠ []) (hr : c.readable op o = true)
    (hw : c.e.canWrite c.ke.regs (c.actsOn o) o.ty.wide o.d = true) :
    ∃ t e, (Host.Outcome.next (c.runSum words op o f g) : Host.Outcome State Fault Refusal) = .next t ∧ OnlyEntry s t e ∧
      Wrote ((c.reads op o).e.stepped words) e c.ke.regs (c.actsOn o) o.ty.wide o.d
        (fun i => storeInt o.ty (satOf o) (f (intOf o.ty ((c.reads op o).a i)) (intOf o.ty ((c.reads op o).b i)))) := by
  refine computes_of_lane (f := fun _ r i => storeInt o.ty (satOf o) (f (intOf o.ty (r.a i)) (intOf o.ty (r.b i)))) hs ha hr fun l hl =>
    lane_write hl hw fun i hi => ?_
  obtain ⟨v1, v2, v3⟩ := hl.vals i hi
  rw [← v1, ← v2]
  by_cases hok : (affTy o.ty && !satOf o) = true
  · have h2 := Bool.and_eq_true_iff.1 hok
    have hsat : satOf o = false := by simpa using h2.2
    refine affineOr_at (F := fun x y => storeInt o.ty (satOf o) (f (intOf o.ty x) (intOf o.ty y))) ?_ ?_ ?_ ?_
    · rw [each_at hl _ hi, ← v1, ← v2]
    · intro _ p q r hpq
      cases hpq
      rw [hsat]
      exact sum_affine h2.1 hfg hg p q i
    · intro w _ y
      simp only [intOf_low h2.1]
    · intro w _ x
      simp only [intOf_low h2.1]
  · have hf : (affTy o.ty && !satOf o) = false := by simpa using hok
    unfold Lane.affineOr
    rw [hf]
    simp only [Bool.not_false, Bool.or_true, Bool.true_or, if_true]
    rw [each_at hl _ hi, ← v1, ← v2]

theorem add_word (x y : W32) (m n : Int) (hm : m % 2 ^ 32 = (x.toNat : Int)) (hn : n % 2 ^ 32 = (y.toNat : Int)) :
    (m + n) % 2 ^ 32 = ((x + y).toNat : Int) := by
  rw [BitVec.toNat_add, Int.add_emod, hm, hn]
  norm_cast

theorem sub_word (x y : W32) (m n : Int) (hm : m % 2 ^ 32 = (x.toNat : Int)) (hn : n % 2 ^ 32 = (y.toNat : Int)) :
    (m - n) % 2 ^ 32 = ((x - y).toNat : Int) := by
  rw [BitVec.toNat_sub, Int.sub_emod, hm, hn]
  have := x.isLt
  have := y.isLt
  omega

theorem mul_word (x y : W32) (m n : Int) (hm : m % 2 ^ 32 = (x.toNat : Int)) (hn : n % 2 ^ 32 = (y.toNat : Int)) :
    (m * n) % 2 ^ 32 = ((x * y).toNat : Int) := by
  rw [BitVec.toNat_mul, Int.mul_emod, hm, hn]
  norm_cast

theorem add_stride (p q r s i : W32) : (p + q) + (r + s) * i = (p + r * i) + (q + s * i) := by ring
theorem sub_stride (p q r s i : W32) : (p - q) + (r - s) * i = (p + r * i) - (q + s * i) := by ring

/-- IMUL. -/
theorem runImul_computes {words : Nat} (hs : s.here = some c) (ha : c.actsOn o ≠ []) (hr : c.readable .imul o = true)
    (hw : c.e.canWrite c.ke.regs (c.actsOn o) o.ty.wide o.d = true) :
    ∃ t e, (Host.Outcome.next (c.runImul words o) : Host.Outcome State Fault Refusal) = .next t ∧ OnlyEntry s t e ∧
      Wrote ((c.reads .imul o).e.stepped words) e c.ke.regs (c.actsOn o) o.ty.wide o.d
        (fun i => storeInt o.ty (satOf o) (intOf o.ty ((c.reads .imul o).a i) * intOf o.ty ((c.reads .imul o).b i))) := by
  refine computes_of_lane (f := fun _ r i => storeInt o.ty (satOf o) (intOf o.ty (r.a i) * intOf o.ty (r.b i))) hs ha hr fun l hl =>
    lane_write hl hw fun i hi => ?_
  obtain ⟨v1, v2, v3⟩ := hl.vals i hi
  rw [← v1, ← v2]
  by_cases hok : (affTy o.ty && !satOf o) = true
  · have h2 := Bool.and_eq_true_iff.1 hok
    have hsat : satOf o = false := by simpa using h2.2
    refine affineOr_at (F := fun x y => storeInt o.ty (satOf o) (intOf o.ty x * intOf o.ty y)) ?_ ?_ ?_ ?_
    · rw [each_at hl _ hi, ← v1, ← v2]
    · intro _ p q r hpq
      rw [hsat]
      have key : ∀ x y z : W32, x * y = z → z.setWidth 64 = storeInt o.ty false (intOf o.ty (x.setWidth 64) * intOf o.ty (y.setWidth 64)) := by
        intro x y z hz
        subst hz
        exact (storeInt_word h2.1 _ _ (mul_word _ _ _ _ (intOf_word h2.1 _) (intOf_word h2.1 _))).symm
      refine key _ _ _ ?_
      split at hpq
      · rename_i hq
        cases hpq
        rw [hq]
        ring
      · split at hpq
        · rename_i hp
          cases hpq
          rw [hp]
          ring
        · cases hpq
    · intro w _ y
      simp only [intOf_low h2.1]
    · intro w _ x
      simp only [intOf_low h2.1]
  · have hf : (affTy o.ty && !satOf o) = false := by simpa using hok
    unfold Lane.affineOr
    rw [hf]
    simp only [Bool.not_false, Bool.or_true, Bool.true_or, if_true]
    rw [each_at hl _ hi, ← v1, ← v2]

/-- SHL. -/
theorem runShl_computes {words : Nat} (hs : s.here = some c) (ha : c.actsOn o ≠ []) (hr : c.readable .shl o = true)
    (hw : c.e.canWrite c.ke.regs (c.actsOn o) o.ty.wide o.d = true) :
    ∃ t e, (Host.Outcome.next (c.runShl words o) : Host.Outcome State Fault Refusal) = .next t ∧ OnlyEntry s t e ∧
      Wrote ((c.reads .shl o).e.stepped words) e c.ke.regs (c.actsOn o) o.ty.wide o.d
        (fun i => storeInt o.ty (satOf o) (intOf o.ty ((c.reads .shl o).a i) * (2 ^ shiftCount o.ty ((c.reads .shl o).b i) : Nat))) := by
  refine computes_of_lane (f := fun _ r i => storeInt o.ty (satOf o) (intOf o.ty (r.a i) * (2 ^ shiftCount o.ty (r.b i) : Nat))) hs ha hr
    fun l hl => lane_write hl hw fun i hi => ?_
  obtain ⟨v1, v2, v3⟩ := hl.vals i hi
  rw [← v1, ← v2]
  by_cases hok : (affTy o.ty && !satOf o) = true
  · have h2 := Bool.and_eq_true_iff.1 hok
    have hsat : satOf o = false := by simpa using h2.2
    have hwid := aff_width h2.1
    have hnp := aff_not_pred h2.1
    refine affineOr_at (F := fun x y => storeInt o.ty (satOf o) (intOf o.ty x * (2 ^ shiftCount o.ty y : Nat))) ?_ ?_ ?_ ?_
    · rw [each_at hl _ hi, ← v1, ← v2]
    · intro _ p q r hpq
      rw [hsat]
      split at hpq
      · rename_i hq
        cases hpq
        have hcount : shiftCount o.ty ((q.1 + q.2 * BitVec.ofNat 32 i).setWidth 64) = q.1.toNat % 32 := by
          unfold shiftCount patOf
          rw [if_neg hnp, hwid, hq]
          rw [BitVec.toNat_setWidth]
          have := q.1.isLt
          rw [show (0 : W32) * BitVec.ofNat 32 i = 0 by ring, show q.1 + 0 = q.1 by ring]
          omega
        rw [hcount]
        refine (storeInt_word h2.1 _ _ ?_).symm
        have hp := mul_word (p.1 + p.2 * BitVec.ofNat 32 i) (BitVec.ofNat 32 (2 ^ (q.1.toNat % 32))) _ ((2 ^ (q.1.toNat % 32) : Nat) : Int)
          (intOf_word h2.1 _) (by rw [BitVec.toNat_ofNat]; norm_cast)
        rw [hp]
        congr 2
        rw [BitVec.shiftLeft_eq_mul_twoPow, BitVec.shiftLeft_eq_mul_twoPow]
        have h3 : BitVec.twoPow 32 (q.1.toNat % 32) = BitVec.ofNat 32 (2 ^ (q.1.toNat % 32)) := by
          apply BitVec.eq_of_toNat_eq
          rw [BitVec.toNat_twoPow, BitVec.toNat_ofNat]
        rw [h3]
        ring
      · cases hpq
    · intro w _ y
      simp only [intOf_low h2.1]
    · intro w _ x
      simp only [shiftCount, patOf_low hwid hnp]
  · have hf : (affTy o.ty && !satOf o) = false := by simpa using hok
    unfold Lane.affineOr
    rw [hf]
    simp only [Bool.not_false, Bool.or_true, Bool.true_or, if_true]
    rw [each_at hl _ hi, ← v1, ← v2]

end

/-! ### Steps (R183) -/

/-- A predicate that holds below a point of the range holds below the number of places where it holds. -/
theorem filter_prefix (p : Nat → Bool) (hp : ∀ i j, i ≤ j → p j = true → p i = true) :
    ∀ n i, i < n → p i = decide (i < ((List.range n).filter p).length) := by
  intro n
  induction n with
  | zero => intro i hi; omega
  | succ n ih =>
    intro i hi
    rw [List.range_succ, List.filter_append, List.length_append]
    cases hn : p n with
    | true =>
      have hall : ∀ j, j ≤ n → p j = true := fun j hj => hp j n hj hn
      have hlen : ((List.range n).filter p).length = n := by
        rw [List.filter_eq_self.2 fun j hj => hall j (by have := List.mem_range.1 hj; omega), List.length_range]
      rw [hall i (by omega), hlen]
      simp only [List.filter_cons, hn, if_true, List.filter_nil, List.length_singleton]
      simp only [true_eq_decide_iff]
      omega
    | false =>
      simp only [List.filter_cons, hn, Bool.false_eq_true, if_false, List.filter_nil, List.length_nil, Nat.add_zero]
      by_cases h : i < n
      · exact ih i h
      · have : i = n := by omega
        subst this
        rw [hn]
        have hle : ((List.range i).filter p).length ≤ i := by
          have := List.length_filter_le p (List.range i)
          rwa [List.length_range] at this
        simp only [false_eq_decide_iff]
        omega

theorem filter_compl (p : Nat → Bool) (n : Nat) :
    ((List.range n).filter p).length + ((List.range n).filter fun i => !p i).length = n := by
  induction n with
  | zero => rfl
  | succ n ih =>
    rw [List.range_succ, List.filter_append, List.filter_append, List.length_append, List.length_append]
    cases hn : p n <;> simp [hn] <;> omega

/-- A predicate that holds from a point of the range on. -/
theorem filter_suffix (p : Nat → Bool) (hp : ∀ i j, i ≤ j → p i = true → p j = true) (n i : Nat) (hi : i < n) :
    p i = decide (n - ((List.range n).filter p).length ≤ i) := by
  have h := filter_prefix (fun i => !p i) (fun a b hab hb => by
    cases ha : p a with
    | false => simp
    | true => simp [hp a b hab ha] at hb) n i hi
  have hc := filter_compl p n
  have h2 : p i = !decide (i < ((List.range n).filter fun i => !p i).length) := by rw [← h]; simp
  rw [h2, ← decide_not]
  congr 1
  simp only [eq_iff_iff]
  omega

/-- The range of a 32-bit integer type. -/
def tyLo (t : Ty) : Int := if t.signedInt then -(2 ^ 31 : Nat) else 0
def tyHi (t : Ty) : Int := if t.signedInt then (2 ^ 31 : Nat) - 1 else (2 ^ 32 : Nat) - 1

theorem intOf_range {t : Ty} (h : affTy t = true) (x : W32) : tyLo t ≤ intOf t (x.setWidth 64) ∧ intOf t (x.setWidth 64) ≤ tyHi t := by
  have hx := x.isLt
  simp only [affTy, Bool.or_eq_true, decide_eq_true_eq] at h
  have h64 : (x.setWidth 64).toNat = x.toNat := by
    rw [BitVec.toNat_setWidth]
    exact Nat.mod_eq_of_lt (by omega)
  rcases h with rfl | rfl
  · unfold intOf tyLo tyHi signed
    simp only [Ty.signedInt, if_true, Ty.width, h64]
    rw [Nat.mod_eq_of_lt hx]
    split <;> omega
  · unfold intOf tyLo tyHi
    simp only [Ty.signedInt, Bool.false_eq_true, if_false, Ty.width, h64]
    omega

/-- A value of the type's range is the value of its low word. -/
theorem intOf_unique {t : Ty} (h : affTy t = true) (x : W32) {z : Int} (hz : z % 2 ^ 32 = (x.toNat : Int)) (h1 : tyLo t ≤ z)
    (h2 : z ≤ tyHi t) : intOf t (x.setWidth 64) = z := by
  have ha := intOf_word h x
  have hb := intOf_range h x
  have : affTy t = true := h
  simp only [affTy, Bool.or_eq_true, decide_eq_true_eq] at this
  rcases this with rfl | rfl
  · unfold tyLo tyHi at *
    simp only [Ty.signedInt, if_true] at *
    omega
  · unfold tyLo tyHi at *
    simp only [Ty.signedInt, Bool.false_eq_true, if_false] at *
    omega

/-- An affine source that does not leave the type's range has the exact values of its sequence (R183). -/
theorem affine_exact {t : Ty} (h : affTy t = true) (b d : W32) (n i : Nat) (hi : i < n)
    (hlast : tyLo t ≤ intOf t (b.setWidth 64) + d.toInt * ((n - 1 : Nat) : Int) ∧
      intOf t (b.setWidth 64) + d.toInt * ((n - 1 : Nat) : Int) ≤ tyHi t) :
    intOf t ((b + d * BitVec.ofNat 32 i).setWidth 64) = intOf t (b.setWidth 64) + d.toInt * i := by
  have h0 := intOf_range h b
  apply intOf_unique h
  · have hd : d.toInt % 2 ^ 32 = (d.toNat : Int) := by
      rw [BitVec.toInt_eq_toNat_cond]
      have := d.isLt
      split <;> omega
    exact add_word _ _ _ _ (intOf_word h b) (mul_word _ _ _ _ hd (by rw [BitVec.toNat_ofNat]; norm_cast))
  · rcases le_total 0 d.toInt with hd | hd
    · have : 0 ≤ d.toInt * i := by positivity
      omega
    · have : d.toInt * ((n - 1 : Nat) : Int) ≤ d.toInt * i := mul_le_mul_of_nonpos_left (by omega) hd
      omega
  · rcases le_total 0 d.toInt with hd | hd
    · have : d.toInt * i ≤ d.toInt * ((n - 1 : Nat) : Int) := mul_le_mul_of_nonneg_left (by omega) hd
      omega
    · have : d.toInt * i ≤ 0 := mul_nonpos_of_nonpos_of_nonneg hd (by positivity)
      omega

/-- The step that R183 gives holds the comparison in every item of the range. -/
theorem stepPred_at {t : Ty} (ht : affTy t = true) {cc start n : Nat} {b d u : W32} {r : PReg} (hcc : 2 ≤ cc)
    (h : stepPred t cc start n b d u = some r) {i : Nat} (hi : i < n) :
    r.at start i = condOf cc (intOf t ((b + d * BitVec.ofNat 32 i).setWidth 64)) (intOf t (u.setWidth 64)) := by
  by_cases hc : intOf t (b.setWidth 64) + d.toInt * ((n - 1 : Nat) : Int) < tyLo t ∨
      tyHi t < intOf t (b.setWidth 64) + d.toInt * ((n - 1 : Nat) : Int)
  · have h' : stepPred t cc start n b d u = none := if_pos hc
    rw [h'] at h
    cases h
  · have hlast : tyLo t ≤ intOf t (b.setWidth 64) + d.toInt * ((n - 1 : Nat) : Int) ∧
        intOf t (b.setWidth 64) + d.toInt * ((n - 1 : Nat) : Int) ≤ tyHi t := by omega
    have h := (if_neg hc).symm.trans h
    rw [affine_exact ht b d n i hi hlast]
    generalize intOf t (b.setWidth 64) = B at h
    generalize intOf t (u.setWidth 64) = U at h
    generalize d.toInt = D at h
    set C : Nat → Bool := fun i => condOf cc (B + D * (i : Int)) U with hC
    show r.at start i = C i
    -- the comparison holds below a point or from a point on
    have hmono : (∀ i j, i ≤ j → C j = true → C i = true) ∨ (∀ i j, i ≤ j → C i = true → C j = true) := by
      have step : ∀ i j : Nat, i ≤ j → (0 ≤ D → D * (i : Int) ≤ D * (j : Int)) ∧ (D ≤ 0 → D * (j : Int) ≤ D * (i : Int)) := by
        intro i j hij
        exact ⟨fun hd => mul_le_mul_of_nonneg_left (by exact_mod_cast hij) hd,
          fun hd => mul_le_mul_of_nonpos_left (by exact_mod_cast hij) hd⟩
      have hcond : ∀ x y, condOf cc x y = if cc = 2 then decide (x < y) else if cc = 3 then decide (x ≤ y)
          else if cc = 4 then decide (y < x) else decide (y ≤ x) := by
        intro x y
        match cc, hcc with
        | 2, _ => rfl
        | 3, _ => rfl
        | 4, _ => rfl
        | 5, _ => rfl
        | k + 6, _ =>
          simp only [condOf]
          rw [if_neg (by omega), if_neg (by omega), if_neg (by omega)]
      rcases le_total 0 D with hd | hd
      · by_cases h23 : cc = 2 ∨ cc = 3
        · left
          intro i j hij hj
          have := (step i j hij).1 hd
          simp only [hC, hcond] at hj ⊢
          rcases h23 with rfl | rfl <;> simp at hj ⊢ <;> omega
        · right
          intro i j hij hj
          have := (step i j hij).1 hd
          simp only [hC, hcond] at hj ⊢
          rw [if_neg (by omega), if_neg (by omega)] at hj ⊢
          by_cases h4 : cc = 4
          · rw [if_pos h4] at hj ⊢
            simp only [decide_eq_true_eq] at hj ⊢
            omega
          · rw [if_neg h4] at hj ⊢
            simp only [decide_eq_true_eq] at hj ⊢
            omega
      · by_cases h23 : cc = 2 ∨ cc = 3
        · right
          intro i j hij hj
          have := (step i j hij).2 hd
          simp only [hC, hcond] at hj ⊢
          rcases h23 with rfl | rfl <;> simp at hj ⊢ <;> omega
        · left
          intro i j hij hj
          have := (step i j hij).2 hd
          simp only [hC, hcond] at hj ⊢
          rw [if_neg (by omega), if_neg (by omega)] at hj ⊢
          by_cases h4 : cc = 4
          · rw [if_pos h4] at hj ⊢
            simp only [decide_eq_true_eq] at hj ⊢
            omega
          · rw [if_neg h4] at hj ⊢
            simp only [decide_eq_true_eq] at hj ⊢
            omega
    simp only [Option.some.injEq] at h
    have hmem : ∀ k, k ∈ (List.range n).filter C ↔ k < n ∧ C k = true := by
      intro k
      rw [List.mem_filter, List.mem_range]
    split at h
    · rename_i he
      subst h
      have : C i = false := by
        cases hci : C i with
        | false => rfl
        | true =>
          have := (hmem i).2 ⟨hi, hci⟩
          rw [List.isEmpty_iff.1 he] at this
          cases this
      rw [this]
      rfl
    · rename_i he
      split at h
      · rename_i hn
        subst h
        have hc := filter_compl C n
        have h0 : (List.range n).filter (fun i => !C i) = [] := List.length_eq_zero_iff.1 (by omega)
        have : C i = true := by
          cases hci : C i with
          | true => rfl
          | false =>
            have : i ∈ (List.range n).filter (fun i => !C i) := List.mem_filter.2 ⟨List.mem_range.2 hi, by simp [hci]⟩
            rw [h0] at this
            cases this
        rw [this]
        rfl
      · rename_i hn
        split at h
        · rename_i h0
          subst h
          have h0 : C 0 = true := ((hmem 0).1 (by simpa using h0)).2
          rcases hmono with hm | hm
          · rw [filter_prefix C hm n i hi]
            simp only [PReg.at, Bool.not_false]
            split <;> simp <;> omega
          · exfalso
            apply hn
            rw [List.filter_eq_self.2 fun j _ => hm 0 j (by omega) h0, List.length_range]
        · rename_i h0
          subst h
          have h0 : C 0 = false := by
            cases hc0 : C 0 with
            | false => rfl
            | true => exact absurd ((hmem 0).2 ⟨by omega, hc0⟩) (by simpa using h0)
          have hle : ((List.range n).filter C).length ≤ n := by
            have := List.length_filter_le C (List.range n)
            rwa [List.length_range] at this
          rcases hmono with hm | hm
          · exfalso
            apply he
            rw [List.isEmpty_iff]
            apply List.filter_eq_nil_iff.2
            intro j _ hj
            have := hm 0 j (by omega) hj
            rw [h0] at this
            cases this
          · rw [filter_suffix C hm n i hi]
            simp only [PReg.at, Bool.not_true]
            split <;> simp <;> omega

theorem condOf_mirror {cc : Nat} (h : cc ≤ 5) (x y : Int) : condOf (mirror cc) x y = condOf cc y x := by
  match cc, h with
  | 0, _ => simp [mirror, condOf, eq_comm]
  | 1, _ => simp [mirror, condOf, eq_comm]
  | 2, _ => rfl
  | 3, _ => rfl
  | 4, _ => rfl
  | 5, _ => rfl

theorem condOf_compares {cc : Nat} (h : cc ≤ 5) (x y : Int) : condOf cc x y = compares cc x y := by
  rcases lt_trichotomy x y with hxy | hxy | hxy
  · have h1 : ¬ x = y := by omega
    have h2 : ¬ y < x := by omega
    have h3 : x ≤ y := by omega
    have h4 : ¬ y ≤ x := by omega
    match cc, h with
    | 0, _ => simp [compares, condOf, hxy, h1, h2]
    | 1, _ => simp [compares, condOf, hxy, h1]
    | 2, _ => simp [compares, condOf, hxy]
    | 3, _ => simp [compares, condOf, hxy, h3]
    | 4, _ => simp [compares, condOf, hxy, h1, h2]
    | 5, _ => simp [compares, condOf, h1, h2, h4]
  · subst hxy
    match cc, h with
    | 0, _ => simp [compares, condOf]
    | 1, _ => simp [compares, condOf]
    | 2, _ => simp [compares, condOf]
    | 3, _ => simp [compares, condOf]
    | 4, _ => simp [compares, condOf]
    | 5, _ => simp [compares, condOf]
  · have h1 : ¬ x = y := by omega
    have h2 : ¬ x < y := by omega
    have h3 : ¬ x ≤ y := by omega
    have h4 : y ≤ x := by omega
    match cc, h with
    | 0, _ => simp [compares, condOf, h1, h2]
    | 1, _ => simp [compares, condOf, hxy, h1]
    | 2, _ => simp [compares, condOf, h1, h2]
    | 3, _ => simp [compares, condOf, h1, h2, h3]
    | 4, _ => simp [compares, condOf, hxy]
    | 5, _ => simp [compares, condOf, hxy, h4]

end Sys2Proof.Machine
end

