-- ==== Sys2Proof/Laws/Memory.lean ====
section
/-!
SUPPORT. Memory keeps its canonical form under every operation, a read gives what was last written, and a write leaves every other
address alone.
-/
namespace Sys2Proof.Machine

/-! ### The canonical form -/

theorem above_mono {lo hi : Nat} (h : lo ≤ hi) : ∀ {m : List Host.Cell}, Memory.above hi m = true → Memory.above lo m = true
  | [], _ => rfl
  | c :: m, hm => by
    simp only [Memory.above, Bool.and_eq_true, decide_eq_true_eq] at hm ⊢
    exact ⟨⟨h.trans hm.1.1, hm.1.2⟩, hm.2⟩

theorem above_put {lo a : Nat} {b : Byte} {m : List Host.Cell} (h : lo ≤ a) (hm : Memory.above (a + 1) m = true) :
    Memory.above lo (Memory.put a b m) = true := by
  unfold Memory.put
  split
  · exact above_mono (by omega) hm
  · rename_i hb
    simp only [Memory.above, Bool.and_eq_true, decide_eq_true_eq, bne_iff_ne]
    exact ⟨⟨h, hb⟩, hm⟩

theorem above_write {a : Nat} {b : Byte} : ∀ {lo : Nat} {m : List Host.Cell}, lo ≤ a → Memory.above lo m = true →
    Memory.above lo (Memory.write m a b) = true
  | _, [], h, _ => above_put h rfl
  | lo, c :: m, h, hm => by
    simp only [Memory.above, Bool.and_eq_true, decide_eq_true_eq] at hm
    unfold Memory.write
    split
    · rename_i hc
      refine above_put h ?_
      simp only [Memory.above, Bool.and_eq_true, decide_eq_true_eq]
      exact ⟨⟨by omega, hm.1.2⟩, hm.2⟩
    · split
      · rename_i he
        exact above_put h (he ▸ hm.2)
      · simp only [Memory.above, Bool.and_eq_true, decide_eq_true_eq]
        exact ⟨hm.1, above_write (by omega) hm.2⟩

theorem wf_write {m : List Host.Cell} (h : Memory.wf m = true) (a : Nat) (b : Byte) : Memory.wf (Memory.write m a b) = true :=
  above_write (Nat.zero_le a) h

theorem wf_writeN : ∀ {bs : List Byte} {m : List Host.Cell} {a : Nat}, Memory.wf m = true → Memory.wf (Memory.writeN m a bs) = true
  | [], _, _, h => h
  | _ :: _, _, _, h => by rw [Memory.writeN]; exact wf_writeN (wf_write h _ _)

theorem above_filter (p : Host.Cell → Bool) : ∀ {lo : Nat} {m : List Host.Cell}, Memory.above lo m = true →
    Memory.above lo (m.filter p) = true
  | _, [], _ => rfl
  | lo, c :: m, h => by
    simp only [Memory.above, Bool.and_eq_true, decide_eq_true_eq] at h
    rw [List.filter_cons]
    split
    · simp only [Memory.above, Bool.and_eq_true, decide_eq_true_eq]
      exact ⟨h.1, above_filter p h.2⟩
    · exact above_mono (by omega) (above_filter p h.2)

theorem wf_filter {m : List Host.Cell} (h : Memory.wf m = true) (p : Host.Cell → Bool) : Memory.wf (m.filter p) = true :=
  above_filter p h

theorem wf_clear {m : List Host.Cell} (h : Memory.wf m = true) (a n : Nat) : Memory.wf (Memory.clear m a n) = true := wf_filter h _

theorem reset_wf : Memory.wf State.reset.mem = true := rfl

/-! ### Reads -/

/-- Below every listed address memory reads 0. -/
theorem read_below : ∀ {lo a : Nat} {m : List Host.Cell}, Memory.above lo m = true → a < lo → Memory.read m a = 0
  | _, _, [], _, _ => rfl
  | lo, a, c :: m, h, ha => by
    simp only [Memory.above, Bool.and_eq_true, decide_eq_true_eq] at h
    simp only [Memory.read]
    rw [if_neg (by omega), if_pos (by omega)]

theorem read_put {lo a x : Nat} {b : Byte} {m : List Host.Cell} (hm : Memory.above lo m = true) (h : a < lo) :
    Memory.read (Memory.put a b m) x = if x = a then b else Memory.read m x := by
  unfold Memory.put
  split
  · rename_i hb
    split
    · rename_i hx
      rw [hx, hb, read_below hm h]
    · rfl
  · simp only [Memory.read]
    split
    · rfl
    · split
      · rename_i hx hlt
        rw [read_below hm (by omega)]
      · rfl

/-- A byte read after one byte is written: the byte written at its address, the old byte elsewhere. -/
theorem read_write {a x : Nat} {b : Byte} : ∀ {lo : Nat} {m : List Host.Cell}, Memory.above lo m = true →
    Memory.read (Memory.write m a b) x = if x = a then b else Memory.read m x
  | _, [], _ => by
    have := @read_put (a + 1) a x b [] rfl (by omega)
    exact this
  | lo, c :: m, h => by
    simp only [Memory.above, Bool.and_eq_true, decide_eq_true_eq] at h
    unfold Memory.write
    split
    · rename_i hc
      refine read_put (lo := a + 1) ?_ (by omega)
      simp only [Memory.above, Bool.and_eq_true, decide_eq_true_eq]
      exact ⟨⟨by omega, h.1.2⟩, h.2⟩
    · split
      · rename_i hc he
        rw [read_put h.2 (by omega)]
        simp only [Memory.read]
        by_cases hx : x = a
        · rw [if_pos hx, if_pos hx]
        · rw [if_neg hx, if_neg hx, if_neg (by omega)]
          by_cases hlt : x < c.1
          · rw [if_pos hlt, read_below h.2 (by omega)]
          · rw [if_neg hlt]
      · rename_i hc he
        simp only [Memory.read]
        rw [read_write h.2]
        by_cases hx : x = a
        · rw [if_neg (by omega), if_neg (by omega), if_pos hx, if_pos hx]
        · rw [if_neg hx, if_neg hx]

theorem read_write_same {m : List Host.Cell} (h : Memory.wf m = true) (a : Nat) (b : Byte) : Memory.read (Memory.write m a b) a = b := by
  rw [read_write h, if_pos rfl]

theorem read_write_other {m : List Host.Cell} (h : Memory.wf m = true) {a x : Nat} (b : Byte) (hx : x ≠ a) :
    Memory.read (Memory.write m a b) x = Memory.read m x := by
  rw [read_write h, if_neg hx]

/-- A byte read after a run of bytes is written. -/
theorem read_writeN {x : Nat} : ∀ {bs : List Byte} {m : List Host.Cell} {a : Nat}, Memory.wf m = true →
    Memory.read (Memory.writeN m a bs) x = if a ≤ x ∧ x < a + bs.length then bs.getD (x - a) 0 else Memory.read m x
  | [], m, a, _ => by
    rw [if_neg (by simp only [List.length_nil]; omega)]
    rfl
  | b :: bs, m, a, h => by
    simp only [Memory.writeN, List.length_cons]
    rw [read_writeN (wf_write h a b), read_write h]
    by_cases hx : x = a
    · subst hx
      rw [if_neg (by omega), if_pos rfl, if_pos (by omega)]
      simp
    · by_cases hr : a ≤ x ∧ x < a + (bs.length + 1)
      · rw [if_pos (by omega), if_pos hr]
        obtain ⟨k, rfl⟩ : ∃ k, x = a + 1 + k := ⟨x - (a + 1), by omega⟩
        rw [show a + 1 + k - (a + 1) = k by omega, show a + 1 + k - a = k + 1 by omega, List.getD_cons_succ]
      · rw [if_neg (by omega), if_neg hx, if_neg hr]

theorem read_writeN_other {bs : List Byte} {m : List Host.Cell} (h : Memory.wf m = true) {a x : Nat} (hx : x < a ∨ a + bs.length ≤ x) :
    Memory.read (Memory.writeN m a bs) x = Memory.read m x := by
  rw [read_writeN h, if_neg (by omega)]

theorem readN_length (m : List Host.Cell) : ∀ (n a : Nat), (Memory.readN m a n).length = n
  | 0, _ => rfl
  | n + 1, a => by rw [Memory.readN, List.length_cons, readN_length m n]

theorem readN_congr {m m' : List Host.Cell} : ∀ {n a : Nat}, (∀ x, a ≤ x → x < a + n → Memory.read m x = Memory.read m' x) →
    Memory.readN m a n = Memory.readN m' a n
  | 0, _, _ => rfl
  | n + 1, a, h => by
    rw [Memory.readN, Memory.readN, h a (Nat.le_refl a) (by omega), readN_congr fun x h1 h2 => h x (by omega) (by omega)]

/-- Reading back a run of bytes gives the bytes. -/
theorem readN_writeN : ∀ {bs : List Byte} {m : List Host.Cell} {a : Nat}, Memory.wf m = true →
    Memory.readN (Memory.writeN m a bs) a bs.length = bs
  | [], _, _, _ => rfl
  | b :: bs, m, a, h => by
    rw [List.length_cons, Memory.readN, Memory.writeN, readN_writeN (wf_write h a b), read_writeN (wf_write h a b),
      if_neg (by omega), read_write h, if_pos rfl]

/-- A range that a write does not touch reads as before. -/
theorem readN_writeN_other {bs : List Byte} {m : List Host.Cell} (h : Memory.wf m = true) {a x n : Nat}
    (hx : x + n ≤ a ∨ a + bs.length ≤ x) : Memory.readN (Memory.writeN m a bs) x n = Memory.readN m x n :=
  readN_congr fun y h1 h2 => read_writeN_other h (by omega)

theorem read_filter {m : List Host.Cell} (p : Host.Cell → Bool) (q : Nat → Bool) (hp : ∀ c, p c = q c.1) (x : Nat) :
    ∀ {lo : Nat}, Memory.above lo m = true → Memory.read (m.filter p) x = if q x = true then Memory.read m x else 0 := by
  induction m with
  | nil =>
    intro lo _
    simp only [List.filter_nil, Memory.read, ite_self]
  | cons c m ih =>
    intro lo h
    simp only [Memory.above, Bool.and_eq_true, decide_eq_true_eq] at h
    rw [List.filter_cons]
    by_cases hc : q c.1 = true
    · rw [if_pos (by rw [hp, hc])]
      simp only [Memory.read]
      by_cases hx : x = c.1
      · rw [if_pos hx, if_pos hx, hx, if_pos hc]
      · rw [if_neg hx, if_neg hx, ih h.2]
        by_cases hlt : x < c.1
        · rw [if_pos hlt, if_pos hlt, ite_self]
        · rw [if_neg hlt, if_neg hlt]
    · rw [if_neg (by rw [hp]; exact hc), ih h.2]
      simp only [Memory.read]
      by_cases hx : x = c.1
      · rw [hx, if_neg hc, if_neg hc]
      · rw [if_neg hx]
        by_cases hlt : x < c.1
        · rw [if_pos hlt, read_below h.2 (by omega)]
        · rw [if_neg hlt]

/-- A cleared range reads 0 and every other byte as before. -/
theorem read_clear {m : List Host.Cell} (h : Memory.wf m = true) (a n x : Nat) :
    Memory.read (Memory.clear m a n) x = if a ≤ x ∧ x < a + n then 0 else Memory.read m x := by
  unfold Memory.clear
  rw [read_filter _ (fun y => y < a || a + n ≤ y) (fun _ => rfl) x h]
  by_cases hx : a ≤ x ∧ x < a + n
  · rw [if_neg (by simp; omega), if_pos hx]
  · rw [if_pos (by simp; omega), if_neg hx]

/-! ### The operations of the state on memory keep the form -/

theorem poke_wf {s : State} (h : Memory.wf s.mem = true) (pa : Nat) (bs : List Byte) : Memory.wf (s.poke pa bs).mem = true := wf_writeN h

theorem pokeN_wf {s : State} (h : Memory.wf s.mem = true) (pa n v : Nat) : Memory.wf (s.pokeN pa n v).mem = true := wf_writeN h

theorem setFat_wf {s : State} (h : Memory.wf s.mem = true) (frame v : Nat) : Memory.wf (s.setFat frame v).mem = true := wf_write h _ _

theorem writePieces_wf : ∀ {ps : List (Nat × Nat)} {s : State} {bs : List Byte}, Memory.wf s.mem = true →
    Memory.wf (s.writePieces ps bs).mem = true
  | [], _, _, h => h
  | (_, _) :: _, _, _, h => by rw [State.writePieces]; exact writePieces_wf (poke_wf h _ _)

theorem peek_poke {s : State} (h : Memory.wf s.mem = true) (pa : Nat) (bs : List Byte) : (s.poke pa bs).peek pa bs.length = bs :=
  readN_writeN h

theorem peek_poke_other {s : State} (h : Memory.wf s.mem = true) {pa x n : Nat} {bs : List Byte}
    (hx : x + n ≤ pa ∨ pa + bs.length ≤ x) : (s.poke pa bs).peek x n = s.peek x n := readN_writeN_other h hx

theorem leNat_leBytes : ∀ (n v : Nat), leNat (leBytes n v) = v % 256 ^ n
  | 0, v => by simp [leBytes, leNat, Nat.mod_one]
  | n + 1, v => by
    rw [leBytes, leNat, leNat_leBytes n, pow_succ', Nat.mod_mul]
    simp

theorem leBytes_length : ∀ (n v : Nat), (leBytes n v).length = n
  | 0, _ => rfl
  | n + 1, v => by rw [leBytes, List.length_cons, leBytes_length n]

/-- A number written reads back. -/
theorem peekN_pokeN {s : State} (h : Memory.wf s.mem = true) (pa n v : Nat) : (s.pokeN pa n v).peekN pa n = v % 256 ^ n := by
  have e := readN_writeN (bs := leBytes n v) (m := s.mem) (a := pa) h
  rw [leBytes_length] at e
  unfold State.peekN State.peek State.pokeN State.poke
  rw [e, leNat_leBytes]

end Sys2Proof.Machine
end

