-- ==== Sys2Proof/Laws/PerInstr.lean ====
section
/-!
SUPPORT. One statement for each constructor of Instr: the row of the opcode table that a well-formed instruction's fields select
is the row that it is (R148, R151).
-/
namespace Sys2Proof

/-- The fields of an instruction select its own row. -/
def Laws.RowBack.Statement (i : Instr) : Prop := ∀ r, i.toRaw = some r → i.rowOk = true → r.toInstr = some i

theorem Laws.RowBack.nop : ∀ o, Laws.RowBack.Statement (.nop o) :=
  fun _ => fun r hr _ => by cases hr; rfl
theorem Laws.RowBack.nopLong : ∀ o, Laws.RowBack.Statement (.nopLong o) :=
  fun _ => fun r hr _ => by cases hr; rfl
theorem Laws.RowBack.exit : ∀ o, Laws.RowBack.Statement (.exit o) :=
  fun _ => fun r hr _ => by cases hr; rfl
theorem Laws.RowBack.exitLong : ∀ o, Laws.RowBack.Statement (.exitLong o) :=
  fun _ => fun r hr _ => by cases hr; rfl
theorem Laws.RowBack.join : ∀ o, Laws.RowBack.Statement (.join o) :=
  fun _ => fun r hr _ => by cases hr; rfl
theorem Laws.RowBack.joinLong : ∀ o, Laws.RowBack.Statement (.joinLong o) :=
  fun _ => fun r hr _ => by cases hr; rfl
theorem Laws.RowBack.yield : ∀ o, Laws.RowBack.Statement (.yield o) :=
  fun _ => fun r hr _ => by cases hr; rfl
theorem Laws.RowBack.yieldLong : ∀ o, Laws.RowBack.Statement (.yieldLong o) :=
  fun _ => fun r hr _ => by cases hr; rfl
theorem Laws.RowBack.ret : ∀ o, Laws.RowBack.Statement (.ret o) :=
  fun _ => fun r hr _ => by cases hr; rfl
theorem Laws.RowBack.retLong : ∀ o, Laws.RowBack.Statement (.retLong o) :=
  fun _ => fun r hr _ => by cases hr; rfl
theorem Laws.RowBack.elect : ∀ o, Laws.RowBack.Statement (.elect o) :=
  fun _ => fun r hr _ => by cases hr; rfl
theorem Laws.RowBack.electLong : ∀ o, Laws.RowBack.Statement (.electLong o) :=
  fun _ => fun r hr _ => by cases hr; rfl
theorem Laws.RowBack.trap : ∀ o, Laws.RowBack.Statement (.trap o) :=
  fun _ => fun r hr _ => by cases hr; rfl
theorem Laws.RowBack.trapLong : ∀ o, Laws.RowBack.Statement (.trapLong o) :=
  fun _ => fun r hr _ => by cases hr; rfl
theorem Laws.RowBack.idx : ∀ o, Laws.RowBack.Statement (.idx o) :=
  fun _ => fun r hr _ => by cases hr; rfl
theorem Laws.RowBack.idxLong : ∀ o, Laws.RowBack.Statement (.idxLong o) :=
  fun _ => fun r hr _ => by cases hr; rfl
theorem Laws.RowBack.formof : ∀ o, Laws.RowBack.Statement (.formof o) :=
  fun _ => fun r hr _ => by cases hr; rfl
theorem Laws.RowBack.formofLong : ∀ o, Laws.RowBack.Statement (.formofLong o) :=
  fun _ => fun r hr _ => by cases hr; rfl
theorem Laws.RowBack.bra : ∀ o, Laws.RowBack.Statement (.bra o) :=
  fun _ => fun r hr _ => by cases hr; rfl
theorem Laws.RowBack.call : ∀ o, Laws.RowBack.Statement (.call o) :=
  fun _ => fun r hr _ => by cases hr; rfl
theorem Laws.RowBack.bru : ∀ o, Laws.RowBack.Statement (.bru o) :=
  fun _ => fun r hr _ => by cases hr; rfl
theorem Laws.RowBack.brc : ∀ o, Laws.RowBack.Statement (.brc o) :=
  fun _ => fun r hr _ => by cases hr; rfl
theorem Laws.RowBack.yieldc : ∀ o, Laws.RowBack.Statement (.yieldc o) :=
  fun _ => fun r hr _ => by cases hr; rfl
theorem Laws.RowBack.split : ∀ o, Laws.RowBack.Statement (.split o) :=
  fun _ => fun r hr _ => by cases hr; rfl
theorem Laws.RowBack.fuse : ∀ o, Laws.RowBack.Statement (.fuse o) :=
  fun _ => fun r hr _ => by cases hr; rfl
theorem Laws.RowBack.vote : ∀ o, Laws.RowBack.Statement (.vote o) :=
  fun _ => fun r hr _ => by cases hr; rfl
theorem Laws.RowBack.voteLong : ∀ o, Laws.RowBack.Statement (.voteLong o) :=
  fun _ => fun r hr _ => by cases hr; rfl
theorem Laws.RowBack.reord : ∀ o, Laws.RowBack.Statement (.reord o) :=
  fun _ => fun r hr _ => by cases hr; rfl
theorem Laws.RowBack.mov : ∀ o, Laws.RowBack.Statement (.mov o) :=
  fun _ => fun r hr _ => by cases hr; rfl
theorem Laws.RowBack.movLong : ∀ o, Laws.RowBack.Statement (.movLong o) :=
  fun _ => fun r hr _ => by cases hr; rfl
theorem Laws.RowBack.movi : ∀ o, Laws.RowBack.Statement (.movi o) :=
  fun _ => fun r hr _ => by cases hr; rfl
theorem Laws.RowBack.moviLong : ∀ o, Laws.RowBack.Statement (.moviLong o) :=
  fun _ => fun r hr _ => by cases hr; rfl
theorem Laws.RowBack.sel : ∀ o, Laws.RowBack.Statement (.sel o) :=
  fun _ => fun r hr _ => by cases hr; rfl
theorem Laws.RowBack.selLong : ∀ o, Laws.RowBack.Statement (.selLong o) :=
  fun _ => fun r hr _ => by cases hr; rfl
theorem Laws.RowBack.iadd : ∀ o, Laws.RowBack.Statement (.iadd o) :=
  fun _ => fun r hr _ => by cases hr; rfl
theorem Laws.RowBack.iaddLong : ∀ o, Laws.RowBack.Statement (.iaddLong o) :=
  fun _ => fun r hr _ => by cases hr; rfl
theorem Laws.RowBack.isub : ∀ o, Laws.RowBack.Statement (.isub o) :=
  fun _ => fun r hr _ => by cases hr; rfl
theorem Laws.RowBack.isubLong : ∀ o, Laws.RowBack.Statement (.isubLong o) :=
  fun _ => fun r hr _ => by cases hr; rfl
theorem Laws.RowBack.ineg : ∀ o, Laws.RowBack.Statement (.ineg o) :=
  fun _ => fun r hr _ => by cases hr; rfl
theorem Laws.RowBack.inegLong : ∀ o, Laws.RowBack.Statement (.inegLong o) :=
  fun _ => fun r hr _ => by cases hr; rfl
theorem Laws.RowBack.iabs : ∀ o, Laws.RowBack.Statement (.iabs o) :=
  fun _ => fun r hr _ => by cases hr; rfl
theorem Laws.RowBack.iabsLong : ∀ o, Laws.RowBack.Statement (.iabsLong o) :=
  fun _ => fun r hr _ => by cases hr; rfl
theorem Laws.RowBack.imin : ∀ o, Laws.RowBack.Statement (.imin o) :=
  fun _ => fun r hr _ => by cases hr; rfl
theorem Laws.RowBack.iminLong : ∀ o, Laws.RowBack.Statement (.iminLong o) :=
  fun _ => fun r hr _ => by cases hr; rfl
theorem Laws.RowBack.imax : ∀ o, Laws.RowBack.Statement (.imax o) :=
  fun _ => fun r hr _ => by cases hr; rfl
theorem Laws.RowBack.imaxLong : ∀ o, Laws.RowBack.Statement (.imaxLong o) :=
  fun _ => fun r hr _ => by cases hr; rfl
theorem Laws.RowBack.imul : ∀ o, Laws.RowBack.Statement (.imul o) :=
  fun _ => fun r hr _ => by cases hr; rfl
theorem Laws.RowBack.imulLong : ∀ o, Laws.RowBack.Statement (.imulLong o) :=
  fun _ => fun r hr _ => by cases hr; rfl
theorem Laws.RowBack.imulh : ∀ o, Laws.RowBack.Statement (.imulh o) :=
  fun _ => fun r hr _ => by cases hr; rfl
theorem Laws.RowBack.imulhLong : ∀ o, Laws.RowBack.Statement (.imulhLong o) :=
  fun _ => fun r hr _ => by cases hr; rfl
theorem Laws.RowBack.imad : ∀ o, Laws.RowBack.Statement (.imad o) :=
  fun _ => fun r hr _ => by cases hr; rfl
theorem Laws.RowBack.imadLong : ∀ o, Laws.RowBack.Statement (.imadLong o) :=
  fun _ => fun r hr _ => by cases hr; rfl
theorem Laws.RowBack.shl : ∀ o, Laws.RowBack.Statement (.shl o) :=
  fun _ => fun r hr _ => by cases hr; rfl
theorem Laws.RowBack.shlLong : ∀ o, Laws.RowBack.Statement (.shlLong o) :=
  fun _ => fun r hr _ => by cases hr; rfl
theorem Laws.RowBack.shr : ∀ o, Laws.RowBack.Statement (.shr o) :=
  fun _ => fun r hr _ => by cases hr; rfl
theorem Laws.RowBack.shrLong : ∀ o, Laws.RowBack.Statement (.shrLong o) :=
  fun _ => fun r hr _ => by cases hr; rfl
theorem Laws.RowBack.sar : ∀ o, Laws.RowBack.Statement (.sar o) :=
  fun _ => fun r hr _ => by cases hr; rfl
theorem Laws.RowBack.sarLong : ∀ o, Laws.RowBack.Statement (.sarLong o) :=
  fun _ => fun r hr _ => by cases hr; rfl
theorem Laws.RowBack.rol : ∀ o, Laws.RowBack.Statement (.rol o) :=
  fun _ => fun r hr _ => by cases hr; rfl
theorem Laws.RowBack.rolLong : ∀ o, Laws.RowBack.Statement (.rolLong o) :=
  fun _ => fun r hr _ => by cases hr; rfl
theorem Laws.RowBack.and : ∀ o, Laws.RowBack.Statement (.and o) :=
  fun _ => fun r hr _ => by cases hr; rfl
theorem Laws.RowBack.andLong : ∀ o, Laws.RowBack.Statement (.andLong o) :=
  fun _ => fun r hr _ => by cases hr; rfl
theorem Laws.RowBack.or : ∀ o, Laws.RowBack.Statement (.or o) :=
  fun _ => fun r hr _ => by cases hr; rfl
theorem Laws.RowBack.orLong : ∀ o, Laws.RowBack.Statement (.orLong o) :=
  fun _ => fun r hr _ => by cases hr; rfl
theorem Laws.RowBack.xor : ∀ o, Laws.RowBack.Statement (.xor o) :=
  fun _ => fun r hr _ => by cases hr; rfl
theorem Laws.RowBack.xorLong : ∀ o, Laws.RowBack.Statement (.xorLong o) :=
  fun _ => fun r hr _ => by cases hr; rfl
theorem Laws.RowBack.andn : ∀ o, Laws.RowBack.Statement (.andn o) :=
  fun _ => fun r hr _ => by cases hr; rfl
theorem Laws.RowBack.andnLong : ∀ o, Laws.RowBack.Statement (.andnLong o) :=
  fun _ => fun r hr _ => by cases hr; rfl
theorem Laws.RowBack.not : ∀ o, Laws.RowBack.Statement (.not o) :=
  fun _ => fun r hr _ => by cases hr; rfl
theorem Laws.RowBack.notLong : ∀ o, Laws.RowBack.Statement (.notLong o) :=
  fun _ => fun r hr _ => by cases hr; rfl
theorem Laws.RowBack.popc : ∀ o, Laws.RowBack.Statement (.popc o) :=
  fun _ => fun r hr _ => by cases hr; rfl
theorem Laws.RowBack.popcLong : ∀ o, Laws.RowBack.Statement (.popcLong o) :=
  fun _ => fun r hr _ => by cases hr; rfl
theorem Laws.RowBack.clz : ∀ o, Laws.RowBack.Statement (.clz o) :=
  fun _ => fun r hr _ => by cases hr; rfl
theorem Laws.RowBack.clzLong : ∀ o, Laws.RowBack.Statement (.clzLong o) :=
  fun _ => fun r hr _ => by cases hr; rfl
theorem Laws.RowBack.ctz : ∀ o, Laws.RowBack.Statement (.ctz o) :=
  fun _ => fun r hr _ => by cases hr; rfl
theorem Laws.RowBack.ctzLong : ∀ o, Laws.RowBack.Statement (.ctzLong o) :=
  fun _ => fun r hr _ => by cases hr; rfl
theorem Laws.RowBack.brev : ∀ o, Laws.RowBack.Statement (.brev o) :=
  fun _ => fun r hr _ => by cases hr; rfl
theorem Laws.RowBack.brevLong : ∀ o, Laws.RowBack.Statement (.brevLong o) :=
  fun _ => fun r hr _ => by cases hr; rfl
theorem Laws.RowBack.bfx : ∀ o, Laws.RowBack.Statement (.bfx o) :=
  fun _ => fun r hr _ => by cases hr; rfl
theorem Laws.RowBack.bfxLong : ∀ o, Laws.RowBack.Statement (.bfxLong o) :=
  fun _ => fun r hr _ => by cases hr; rfl
theorem Laws.RowBack.bfi : ∀ o, Laws.RowBack.Statement (.bfi o) :=
  fun _ => fun r hr _ => by cases hr; rfl
theorem Laws.RowBack.bfiLong : ∀ o, Laws.RowBack.Statement (.bfiLong o) :=
  fun _ => fun r hr _ => by cases hr; rfl
theorem Laws.RowBack.icmp : ∀ o, Laws.RowBack.Statement (.icmp o) :=
  fun _ => fun r hr _ => by cases hr; rfl
theorem Laws.RowBack.icmpLong : ∀ o, Laws.RowBack.Statement (.icmpLong o) :=
  fun _ => fun r hr _ => by cases hr; rfl
theorem Laws.RowBack.plog : ∀ o, Laws.RowBack.Statement (.plog o) :=
  fun _ => fun r hr _ => by cases hr; rfl
theorem Laws.RowBack.plogLong : ∀ o, Laws.RowBack.Statement (.plogLong o) :=
  fun _ => fun r hr _ => by cases hr; rfl
theorem Laws.RowBack.lea : ∀ o, Laws.RowBack.Statement (.lea o) :=
  fun _ => fun r hr _ => by cases hr; rfl
theorem Laws.RowBack.leaLong : ∀ o, Laws.RowBack.Statement (.leaLong o) :=
  fun _ => fun r hr _ => by cases hr; rfl
theorem Laws.RowBack.icvt : ∀ o, Laws.RowBack.Statement (.icvt o) :=
  fun _ => fun r hr _ => by cases hr; rfl
theorem Laws.RowBack.icvtLong : ∀ o, Laws.RowBack.Statement (.icvtLong o) :=
  fun _ => fun r hr _ => by cases hr; rfl
theorem Laws.RowBack.fadd : ∀ o, Laws.RowBack.Statement (.fadd o) :=
  fun _ => fun r hr _ => by cases hr; rfl
theorem Laws.RowBack.faddLong : ∀ o, Laws.RowBack.Statement (.faddLong o) :=
  fun _ => fun r hr _ => by cases hr; rfl
theorem Laws.RowBack.fsub : ∀ o, Laws.RowBack.Statement (.fsub o) :=
  fun _ => fun r hr _ => by cases hr; rfl
theorem Laws.RowBack.fsubLong : ∀ o, Laws.RowBack.Statement (.fsubLong o) :=
  fun _ => fun r hr _ => by cases hr; rfl
theorem Laws.RowBack.fmul : ∀ o, Laws.RowBack.Statement (.fmul o) :=
  fun _ => fun r hr _ => by cases hr; rfl
theorem Laws.RowBack.fmulLong : ∀ o, Laws.RowBack.Statement (.fmulLong o) :=
  fun _ => fun r hr _ => by cases hr; rfl
theorem Laws.RowBack.fmin : ∀ o, Laws.RowBack.Statement (.fmin o) :=
  fun _ => fun r hr _ => by cases hr; rfl
theorem Laws.RowBack.fminLong : ∀ o, Laws.RowBack.Statement (.fminLong o) :=
  fun _ => fun r hr _ => by cases hr; rfl
theorem Laws.RowBack.fmax : ∀ o, Laws.RowBack.Statement (.fmax o) :=
  fun _ => fun r hr _ => by cases hr; rfl
theorem Laws.RowBack.fmaxLong : ∀ o, Laws.RowBack.Statement (.fmaxLong o) :=
  fun _ => fun r hr _ => by cases hr; rfl
theorem Laws.RowBack.ffma : ∀ o, Laws.RowBack.Statement (.ffma o) :=
  fun _ => fun r hr _ => by cases hr; rfl
theorem Laws.RowBack.ffmaLong : ∀ o, Laws.RowBack.Statement (.ffmaLong o) :=
  fun _ => fun r hr _ => by cases hr; rfl
theorem Laws.RowBack.fabs : ∀ o, Laws.RowBack.Statement (.fabs o) :=
  fun _ => fun r hr _ => by cases hr; rfl
theorem Laws.RowBack.fabsLong : ∀ o, Laws.RowBack.Statement (.fabsLong o) :=
  fun _ => fun r hr _ => by cases hr; rfl
theorem Laws.RowBack.fneg : ∀ o, Laws.RowBack.Statement (.fneg o) :=
  fun _ => fun r hr _ => by cases hr; rfl
theorem Laws.RowBack.fnegLong : ∀ o, Laws.RowBack.Statement (.fnegLong o) :=
  fun _ => fun r hr _ => by cases hr; rfl
theorem Laws.RowBack.fclass : ∀ o, Laws.RowBack.Statement (.fclass o) :=
  fun _ => fun r hr _ => by cases hr; rfl
theorem Laws.RowBack.fclassLong : ∀ o, Laws.RowBack.Statement (.fclassLong o) :=
  fun _ => fun r hr _ => by cases hr; rfl
theorem Laws.RowBack.fcmp : ∀ o, Laws.RowBack.Statement (.fcmp o) :=
  fun _ => fun r hr _ => by cases hr; rfl
theorem Laws.RowBack.fcmpLong : ∀ o, Laws.RowBack.Statement (.fcmpLong o) :=
  fun _ => fun r hr _ => by cases hr; rfl
theorem Laws.RowBack.frcp : ∀ o, Laws.RowBack.Statement (.frcp o) :=
  fun _ => fun r hr _ => by cases hr; rfl
theorem Laws.RowBack.frsq : ∀ o, Laws.RowBack.Statement (.frsq o) :=
  fun _ => fun r hr _ => by cases hr; rfl
theorem Laws.RowBack.fsqrt : ∀ o, Laws.RowBack.Statement (.fsqrt o) :=
  fun _ => fun r hr _ => by cases hr; rfl
theorem Laws.RowBack.fdiv : ∀ o, Laws.RowBack.Statement (.fdiv o) :=
  fun _ => fun r hr _ => by cases hr; rfl
theorem Laws.RowBack.fexp2 : ∀ o, Laws.RowBack.Statement (.fexp2 o) :=
  fun _ => fun r hr _ => by cases hr; rfl
theorem Laws.RowBack.flog2 : ∀ o, Laws.RowBack.Statement (.flog2 o) :=
  fun _ => fun r hr _ => by cases hr; rfl
theorem Laws.RowBack.ftanh : ∀ o, Laws.RowBack.Statement (.ftanh o) :=
  fun _ => fun r hr _ => by cases hr; rfl
theorem Laws.RowBack.fcvt : ∀ o, Laws.RowBack.Statement (.fcvt o) :=
  fun _ => fun r hr _ => by cases hr; rfl
theorem Laws.RowBack.fcvtLong : ∀ o, Laws.RowBack.Statement (.fcvtLong o) :=
  fun _ => fun r hr hk => by cases hr; simp_all [Instr.rowOk, Raw.toInstr, Op.longRow]
theorem Laws.RowBack.fcvtB8 : ∀ o, Laws.RowBack.Statement (.fcvtB8 o) :=
  fun _ => fun r hr hk => by cases hr; simp_all [Instr.rowOk, Raw.toInstr, Op.longRow]
theorem Laws.RowBack.fitof : ∀ o, Laws.RowBack.Statement (.fitof o) :=
  fun _ => fun r hr _ => by cases hr; rfl
theorem Laws.RowBack.fftoi : ∀ o, Laws.RowBack.Statement (.fftoi o) :=
  fun _ => fun r hr _ => by cases hr; rfl
theorem Laws.RowBack.fftoiLong : ∀ o, Laws.RowBack.Statement (.fftoiLong o) :=
  fun _ => fun r hr _ => by cases hr; rfl
theorem Laws.RowBack.qcvt : ∀ o, Laws.RowBack.Statement (.qcvt o) :=
  fun _ => fun r hr _ => by cases hr; rfl
theorem Laws.RowBack.qscaleFit : ∀ o, Laws.RowBack.Statement (.qscaleFit o) :=
  fun _ => fun r hr hk => by cases hr; simp only [Instr.rowOk, decide_eq_true_eq] at hk; simp [Raw.toInstr, Op.longRow, hk]
theorem Laws.RowBack.qscaleApply : ∀ o, Laws.RowBack.Statement (.qscaleApply o) :=
  fun _ => fun r hr hk => by cases hr; simp_all [Instr.rowOk, Raw.toInstr, Op.longRow]
theorem Laws.RowBack.perm : ∀ o, Laws.RowBack.Statement (.perm o) :=
  fun _ => fun r hr _ => by cases hr; rfl
theorem Laws.RowBack.redu : ∀ o, Laws.RowBack.Statement (.redu o) :=
  fun _ => fun r hr _ => by cases hr; rfl
theorem Laws.RowBack.scan : ∀ o, Laws.RowBack.Statement (.scan o) :=
  fun _ => fun r hr _ => by cases hr; rfl
theorem Laws.RowBack.zmod : ∀ o, Laws.RowBack.Statement (.zmod o) :=
  fun _ => fun r hr _ => by cases hr; rfl
theorem Laws.RowBack.zadd : ∀ o, Laws.RowBack.Statement (.zadd o) :=
  fun _ => fun r hr _ => by cases hr; rfl
theorem Laws.RowBack.zsub : ∀ o, Laws.RowBack.Statement (.zsub o) :=
  fun _ => fun r hr _ => by cases hr; rfl
theorem Laws.RowBack.zmul : ∀ o, Laws.RowBack.Statement (.zmul o) :=
  fun _ => fun r hr _ => by cases hr; rfl
theorem Laws.RowBack.zmulc : ∀ o, Laws.RowBack.Statement (.zmulc o) :=
  fun _ => fun r hr _ => by cases hr; rfl
theorem Laws.RowBack.zred : ∀ o, Laws.RowBack.Statement (.zred o) :=
  fun _ => fun r hr _ => by cases hr; rfl
theorem Laws.RowBack.ztom : ∀ o, Laws.RowBack.Statement (.ztom o) :=
  fun _ => fun r hr _ => by cases hr; rfl
theorem Laws.RowBack.zfromm : ∀ o, Laws.RowBack.Statement (.zfromm o) :=
  fun _ => fun r hr _ => by cases hr; rfl
theorem Laws.RowBack.zntt : ∀ o, Laws.RowBack.Statement (.zntt o) :=
  fun _ => fun r hr _ => by cases hr; rfl
theorem Laws.RowBack.zintt : ∀ o, Laws.RowBack.Statement (.zintt o) :=
  fun _ => fun r hr _ => by cases hr; rfl
theorem Laws.RowBack.ztwid : ∀ o, Laws.RowBack.Statement (.ztwid o) :=
  fun _ => fun r hr _ => by cases hr; rfl
theorem Laws.RowBack.ld : ∀ o, Laws.RowBack.Statement (.ld o) :=
  fun _ => fun r hr _ => by cases hr; rfl
theorem Laws.RowBack.ldp : ∀ o, Laws.RowBack.Statement (.ldp o) :=
  fun _ => fun r hr _ => by cases hr; rfl
theorem Laws.RowBack.lds : ∀ o, Laws.RowBack.Statement (.lds o) :=
  fun _ => fun r hr _ => by cases hr; rfl
theorem Laws.RowBack.pref : ∀ o, Laws.RowBack.Statement (.pref o) :=
  fun _ => fun r hr _ => by cases hr; rfl
theorem Laws.RowBack.st : ∀ o, Laws.RowBack.Statement (.st o) :=
  fun _ => fun r hr _ => by cases hr; rfl
theorem Laws.RowBack.stp : ∀ o, Laws.RowBack.Statement (.stp o) :=
  fun _ => fun r hr _ => by cases hr; rfl
theorem Laws.RowBack.sts : ∀ o, Laws.RowBack.Statement (.sts o) :=
  fun _ => fun r hr _ => by cases hr; rfl
theorem Laws.RowBack.chkb : ∀ o, Laws.RowBack.Statement (.chkb o) :=
  fun _ => fun r hr _ => by cases hr; rfl
theorem Laws.RowBack.chkx : ∀ o, Laws.RowBack.Statement (.chkx o) :=
  fun _ => fun r hr _ => by cases hr; rfl
theorem Laws.RowBack.xset : ∀ o, Laws.RowBack.Statement (.xset o) :=
  fun _ => fun r hr _ => by cases hr; rfl
theorem Laws.RowBack.atom : ∀ o, Laws.RowBack.Statement (.atom o) :=
  fun _ => fun r hr _ => by cases hr; rfl
theorem Laws.RowBack.atoms : ∀ o, Laws.RowBack.Statement (.atoms o) :=
  fun _ => fun r hr _ => by cases hr; rfl
theorem Laws.RowBack.cas : ∀ o, Laws.RowBack.Statement (.cas o) :=
  fun _ => fun r hr _ => by cases hr; rfl
theorem Laws.RowBack.lock : ∀ o, Laws.RowBack.Statement (.lock o) :=
  fun _ => fun r hr _ => by cases hr; rfl
theorem Laws.RowBack.unlock : ∀ o, Laws.RowBack.Statement (.unlock o) :=
  fun _ => fun r hr _ => by cases hr; rfl
theorem Laws.RowBack.fence : ∀ o, Laws.RowBack.Statement (.fence o) :=
  fun _ => fun r hr _ => by cases hr; rfl
theorem Laws.RowBack.cmaint : ∀ o, Laws.RowBack.Statement (.cmaint o) :=
  fun _ => fun r hr _ => by cases hr; rfl
theorem Laws.RowBack.bari : ∀ o, Laws.RowBack.Statement (.bari o) :=
  fun _ => fun r hr _ => by cases hr; rfl
theorem Laws.RowBack.barv : ∀ o, Laws.RowBack.Statement (.barv o) :=
  fun _ => fun r hr _ => by cases hr; rfl
theorem Laws.RowBack.barn : ∀ o, Laws.RowBack.Statement (.barn o) :=
  fun _ => fun r hr _ => by cases hr; rfl
theorem Laws.RowBack.barw : ∀ o, Laws.RowBack.Statement (.barw o) :=
  fun _ => fun r hr _ => by cases hr; rfl
theorem Laws.RowBack.waitv : ∀ o, Laws.RowBack.Statement (.waitv o) :=
  fun _ => fun r hr _ => by cases hr; rfl
theorem Laws.RowBack.waitc : ∀ o, Laws.RowBack.Statement (.waitc o) :=
  fun _ => fun r hr _ => by cases hr; rfl
theorem Laws.RowBack.gang : ∀ o, Laws.RowBack.Statement (.gang o) :=
  fun _ => fun r hr _ => by cases hr; rfl
theorem Laws.RowBack.fblk : ∀ o, Laws.RowBack.Statement (.fblk o) :=
  fun _ => fun r hr _ => by cases hr; rfl
theorem Laws.RowBack.amap : ∀ o, Laws.RowBack.Statement (.amap o) :=
  fun _ => fun r hr _ => by cases hr; rfl
theorem Laws.RowBack.mma : ∀ o, Laws.RowBack.Statement (.mma o) :=
  fun _ => fun r hr _ => by cases hr; rfl
theorem Laws.RowBack.mmas : ∀ o, Laws.RowBack.Statement (.mmas o) :=
  fun _ => fun r hr _ => by cases hr; rfl
theorem Laws.RowBack.zmma : ∀ o, Laws.RowBack.Statement (.zmma o) :=
  fun _ => fun r hr _ => by cases hr; rfl
theorem Laws.RowBack.cmpr : ∀ o, Laws.RowBack.Statement (.cmpr o) :=
  fun _ => fun r hr _ => by cases hr; rfl
theorem Laws.RowBack.aclr : ∀ o, Laws.RowBack.Statement (.aclr o) :=
  fun _ => fun r hr _ => by cases hr; rfl
theorem Laws.RowBack.ald : ∀ o, Laws.RowBack.Statement (.ald o) :=
  fun _ => fun r hr _ => by cases hr; rfl
theorem Laws.RowBack.ast : ∀ o, Laws.RowBack.Statement (.ast o) :=
  fun _ => fun r hr _ => by cases hr; rfl
theorem Laws.RowBack.amov : ∀ o, Laws.RowBack.Statement (.amov o) :=
  fun _ => fun r hr _ => by cases hr; rfl
theorem Laws.RowBack.ascl : ∀ o, Laws.RowBack.Statement (.ascl o) :=
  fun _ => fun r hr _ => by cases hr; rfl
theorem Laws.RowBack.adrain : ∀ o, Laws.RowBack.Statement (.adrain o) :=
  fun _ => fun r hr hk => by cases hr; simp_all [Instr.rowOk, Raw.toInstr, Op.longRow]
theorem Laws.RowBack.adrainMem : ∀ o, Laws.RowBack.Statement (.adrainMem o) :=
  fun _ => fun r hr hk => by cases hr; simp_all [Instr.rowOk, Raw.toInstr, Op.longRow]
theorem Laws.RowBack.cpy : ∀ o, Laws.RowBack.Statement (.cpy o) :=
  fun _ => fun r hr _ => by cases hr; rfl
theorem Laws.RowBack.cpyp : ∀ o, Laws.RowBack.Statement (.cpyp o) :=
  fun _ => fun r hr _ => by cases hr; rfl
theorem Laws.RowBack.cpyk : ∀ o, Laws.RowBack.Statement (.cpyk o) :=
  fun _ => fun r hr _ => by cases hr; rfl
theorem Laws.RowBack.coll : ∀ o, Laws.RowBack.Statement (.coll o) :=
  fun _ => fun r hr _ => by cases hr; rfl
theorem Laws.RowBack.cstat : ∀ o, Laws.RowBack.Statement (.cstat o) :=
  fun _ => fun r hr _ => by cases hr; rfl
theorem Laws.RowBack.cnt : ∀ o, Laws.RowBack.Statement (.cnt o) :=
  fun _ => fun r hr _ => by cases hr; rfl
theorem Laws.RowBack.cancel : ∀ o, Laws.RowBack.Statement (.cancel o) :=
  fun _ => fun r hr _ => by cases hr; rfl
theorem Laws.RowBack.strm : ∀ o, Laws.RowBack.Statement (.strm o) :=
  fun _ => fun r hr _ => by cases hr; rfl
theorem Laws.RowBack.strx : ∀ o, Laws.RowBack.Statement (.strx o) :=
  fun _ => fun r hr _ => by cases hr; rfl
theorem Laws.RowBack.csrr : ∀ o, Laws.RowBack.Statement (.csrr o) :=
  fun _ => fun r hr hk => by cases hr; simp_all [Instr.rowOk, Raw.toInstr, Op.longRow]
theorem Laws.RowBack.csrrXflag : ∀ o, Laws.RowBack.Statement (.csrrXflag o) :=
  fun _ => fun r hr hk => by cases hr; simp_all [Instr.rowOk, Raw.toInstr, Op.longRow]
theorem Laws.RowBack.csrrTrapq : ∀ o, Laws.RowBack.Statement (.csrrTrapq o) :=
  fun _ => fun r hr hk => by cases hr; simp_all [Instr.rowOk, Raw.toInstr, Op.longRow]
theorem Laws.RowBack.csrw : ∀ o, Laws.RowBack.Statement (.csrw o) :=
  fun _ => fun r hr hk => by cases hr; simp_all [Instr.rowOk, csrwOwnRows, Raw.toInstr, Op.longRow]
theorem Laws.RowBack.csrwXflag : ∀ o, Laws.RowBack.Statement (.csrwXflag o) :=
  fun _ => fun r hr hk => by cases hr; simp_all [Instr.rowOk, Raw.toInstr, Op.longRow]
theorem Laws.RowBack.csrwRgen : ∀ o, Laws.RowBack.Statement (.csrwRgen o) :=
  fun _ => fun r hr hk => by cases hr; simp_all [Instr.rowOk, Raw.toInstr, Op.longRow]
theorem Laws.RowBack.corePartWrite : ∀ o, Laws.RowBack.Statement (.corePartWrite o) :=
  fun _ => fun r hr hk => by cases hr; simp_all [Instr.rowOk, Raw.toInstr, Op.longRow]
theorem Laws.RowBack.coreRetWrite : ∀ o, Laws.RowBack.Statement (.coreRetWrite o) :=
  fun _ => fun r hr hk => by cases hr; simp_all [Instr.rowOk, Raw.toInstr, Op.longRow]
theorem Laws.RowBack.qePsumClear : ∀ o, Laws.RowBack.Statement (.qePsumClear o) :=
  fun _ => fun r hr hk => by cases hr; simp_all [Instr.rowOk, Raw.toInstr, Op.longRow]
theorem Laws.RowBack.qeLseedWrite : ∀ o, Laws.RowBack.Statement (.qeLseedWrite o) :=
  fun _ => fun r hr hk => by cases hr; simp_all [Instr.rowOk, Raw.toInstr, Op.longRow]
theorem Laws.RowBack.time : ∀ o, Laws.RowBack.Statement (.time o) :=
  fun _ => fun r hr _ => by cases hr; rfl
theorem Laws.RowBack.save : ∀ o, Laws.RowBack.Statement (.save o) :=
  fun _ => fun r hr _ => by cases hr; rfl
theorem Laws.RowBack.rest : ∀ o, Laws.RowBack.Statement (.rest o) :=
  fun _ => fun r hr _ => by cases hr; rfl
theorem Laws.RowBack.tret : ∀ o, Laws.RowBack.Statement (.tret o) :=
  fun _ => fun r hr _ => by cases hr; rfl
theorem Laws.RowBack.clrx : ∀ o, Laws.RowBack.Statement (.clrx o) :=
  fun _ => fun r hr _ => by cases hr; rfl
theorem Laws.RowBack.rplr : ∀ o, Laws.RowBack.Statement (.rplr o) :=
  fun _ => fun r hr _ => by cases hr; rfl
theorem Laws.RowBack.rplq : ∀ o, Laws.RowBack.Statement (.rplq o) :=
  fun _ => fun r hr _ => by cases hr; rfl
theorem Laws.RowBack.qwait : ∀ o, Laws.RowBack.Statement (.qwait o) :=
  fun _ => fun r hr _ => by cases hr; rfl
theorem Laws.RowBack.fltack : ∀ o, Laws.RowBack.Statement (.fltack o) :=
  fun _ => fun r hr _ => by cases hr; rfl
theorem Laws.RowBack.rejoin : ∀ e, Laws.RowBack.Statement (.rejoin e) :=
  fun _ => fun r hr _ => by cases hr
theorem Laws.RowBack.fuseHoldEnd : ∀ e, Laws.RowBack.Statement (.fuseHoldEnd e) :=
  fun _ => fun r hr _ => by cases hr
theorem Laws.RowBack.fuseRetry : ∀ e, Laws.RowBack.Statement (.fuseRetry e) :=
  fun _ => fun r hr _ => by cases hr
theorem Laws.RowBack.yieldcWake : ∀ e, Laws.RowBack.Statement (.yieldcWake e) :=
  fun _ => fun r hr _ => by cases hr
theorem Laws.RowBack.watchdog : ∀ core slot, Laws.RowBack.Statement (.watchdog core slot) :=
  fun _ _ => fun r hr _ => by cases hr
theorem Laws.RowBack.timeout : ∀ e, Laws.RowBack.Statement (.timeout e) :=
  fun _ => fun r hr _ => by cases hr
theorem Laws.RowBack.lockRetry : ∀ e, Laws.RowBack.Statement (.lockRetry e) :=
  fun _ => fun r hr _ => by cases hr
theorem Laws.RowBack.waitvReevaluate : ∀ e, Laws.RowBack.Statement (.waitvReevaluate e) :=
  fun _ => fun r hr _ => by cases hr
theorem Laws.RowBack.gangMemberLeave : ∀ flight snum, Laws.RowBack.Statement (.gangMemberLeave flight snum) :=
  fun _ _ => fun r hr _ => by cases hr
theorem Laws.RowBack.gangLatchTimeout : ∀ flight, Laws.RowBack.Statement (.gangLatchTimeout flight) :=
  fun _ => fun r hr _ => by cases hr
theorem Laws.RowBack.engineQueueEnter : ∀ flight, Laws.RowBack.Statement (.engineQueueEnter flight) :=
  fun _ => fun r hr _ => by cases hr
theorem Laws.RowBack.matrixEngineStart : ∀ core, Laws.RowBack.Statement (.matrixEngineStart core) :=
  fun _ => fun r hr _ => by cases hr
theorem Laws.RowBack.matrixRetire : ∀ core, Laws.RowBack.Statement (.matrixRetire core) :=
  fun _ => fun r hr _ => by cases hr
theorem Laws.RowBack.syncMatrixComplete : ∀ core, Laws.RowBack.Statement (.syncMatrixComplete core) :=
  fun _ => fun r hr _ => by cases hr
theorem Laws.RowBack.drainPerform : ∀ core, Laws.RowBack.Statement (.drainPerform core) :=
  fun _ => fun r hr _ => by cases hr
theorem Laws.RowBack.copyChunkPerform : ∀ op chunk, Laws.RowBack.Statement (.copyChunkPerform op chunk) :=
  fun _ _ => fun r hr _ => by cases hr
theorem Laws.RowBack.streamElementDeliver : ∀ e queue, Laws.RowBack.Statement (.streamElementDeliver e queue) :=
  fun _ _ => fun r hr _ => by cases hr
theorem Laws.RowBack.collExchange : ∀ op agree others, Laws.RowBack.Statement (.collExchange op agree others) :=
  fun _ _ _ => fun r hr _ => by cases hr
theorem Laws.RowBack.collAbortFlit : ∀ fn id use cause, Laws.RowBack.Statement (.collAbortFlit fn id use cause) :=
  fun _ _ _ _ => fun r hr _ => by cases hr
theorem Laws.RowBack.collTimeout : ∀ op, Laws.RowBack.Statement (.collTimeout op) :=
  fun _ => fun r hr _ => by cases hr
theorem Laws.RowBack.flightDispatch : Laws.RowBack.Statement .flightDispatch :=
  fun r hr _ => by cases hr
theorem Laws.RowBack.stallSweep : ∀ tag, Laws.RowBack.Statement (.stallSweep tag) :=
  fun _ => fun r hr _ => by cases hr
theorem Laws.RowBack.quiescenceComplete : ∀ flight, Laws.RowBack.Statement (.quiescenceComplete flight) :=
  fun _ => fun r hr _ => by cases hr
theorem Laws.RowBack.clrxComplete : ∀ core, Laws.RowBack.Statement (.clrxComplete core) :=
  fun _ => fun r hr _ => by cases hr
theorem Laws.RowBack.reorderPhaseClose : ∀ tag, Laws.RowBack.Statement (.reorderPhaseClose tag) :=
  fun _ => fun r hr _ => by cases hr
theorem Laws.RowBack.launchComplete : ∀ tag, Laws.RowBack.Statement (.launchComplete tag) :=
  fun _ => fun r hr _ => by cases hr
theorem Laws.RowBack.partitionWordTakeEffect : ∀ core, Laws.RowBack.Statement (.partitionWordTakeEffect core) :=
  fun _ => fun r hr _ => by cases hr
theorem Laws.RowBack.poolZeroingDone : ∀ core, Laws.RowBack.Statement (.poolZeroingDone core) :=
  fun _ => fun r hr _ => by cases hr
theorem Laws.RowBack.retentionEntry : ∀ core bank, Laws.RowBack.Statement (.retentionEntry core bank) :=
  fun _ _ => fun r hr _ => by cases hr
theorem Laws.RowBack.retentionEntryDone : ∀ core bank, Laws.RowBack.Statement (.retentionEntryDone core bank) :=
  fun _ _ => fun r hr _ => by cases hr
theorem Laws.RowBack.retentionExitDone : ∀ core bank, Laws.RowBack.Statement (.retentionExitDone core bank) :=
  fun _ _ => fun r hr _ => by cases hr
theorem Laws.RowBack.budgetRefill : ∀ part, Laws.RowBack.Statement (.budgetRefill part) :=
  fun _ => fun r hr _ => by cases hr
theorem Laws.RowBack.budgetExhausted : ∀ part, Laws.RowBack.Statement (.budgetExhausted part) :=
  fun _ => fun r hr _ => by cases hr
theorem Laws.RowBack.kick : ∀ fn qid w, Laws.RowBack.Statement (.kick fn qid w) :=
  fun _ _ _ => fun r hr _ => by cases hr
theorem Laws.RowBack.q0go : ∀ fn, Laws.RowBack.Statement (.q0go fn) :=
  fun _ => fun r hr _ => by cases hr
theorem Laws.RowBack.schedulingPass : ∀ part, Laws.RowBack.Statement (.schedulingPass part) :=
  fun _ => fun r hr _ => by cases hr
theorem Laws.RowBack.faultAck : ∀ fn qid, Laws.RowBack.Statement (.faultAck fn qid) :=
  fun _ _ => fun r hr _ => by cases hr
theorem Laws.RowBack.signal : ∀ fn qid, Laws.RowBack.Statement (.signal fn qid) :=
  fun _ _ => fun r hr _ => by cases hr
theorem Laws.RowBack.wait : ∀ fn qid, Laws.RowBack.Statement (.wait fn qid) :=
  fun _ _ => fun r hr _ => by cases hr
theorem Laws.RowBack.waitPacketDone : ∀ fn qid, Laws.RowBack.Statement (.waitPacketDone fn qid) :=
  fun _ _ => fun r hr _ => by cases hr
theorem Laws.RowBack.copy : ∀ fn qid, Laws.RowBack.Statement (.copy fn qid) :=
  fun _ _ => fun r hr _ => by cases hr
theorem Laws.RowBack.launch : ∀ fn qid, Laws.RowBack.Statement (.launch fn qid) :=
  fun _ _ => fun r hr _ => by cases hr
theorem Laws.RowBack.gangReservation : ∀ fn qid, Laws.RowBack.Statement (.gangReservation fn qid) :=
  fun _ _ => fun r hr _ => by cases hr
theorem Laws.RowBack.admitPkt : ∀ fn qid, Laws.RowBack.Statement (.admitPkt fn qid) :=
  fun _ _ => fun r hr _ => by cases hr
theorem Laws.RowBack.admissionComplete : ∀ unit, Laws.RowBack.Statement (.admissionComplete unit) :=
  fun _ => fun r hr _ => by cases hr
theorem Laws.RowBack.destroy : ∀ fn qid, Laws.RowBack.Statement (.destroy fn qid) :=
  fun _ _ => fun r hr _ => by cases hr
theorem Laws.RowBack.regq : ∀ fn qid, Laws.RowBack.Statement (.regq fn qid) :=
  fun _ _ => fun r hr _ => by cases hr
theorem Laws.RowBack.unregq : ∀ fn qid, Laws.RowBack.Statement (.unregq fn qid) :=
  fun _ _ => fun r hr _ => by cases hr
theorem Laws.RowBack.resetq : ∀ fn qid, Laws.RowBack.Statement (.resetq fn qid) :=
  fun _ _ => fun r hr _ => by cases hr
theorem Laws.RowBack.rekey : ∀ fn qid, Laws.RowBack.Statement (.rekey fn qid) :=
  fun _ _ => fun r hr _ => by cases hr
theorem Laws.RowBack.seqGap : ∀ fn qid, Laws.RowBack.Statement (.seqGap fn qid) :=
  fun _ _ => fun r hr _ => by cases hr
theorem Laws.RowBack.vfReset : ∀ fn, Laws.RowBack.Statement (.vfReset fn) :=
  fun _ => fun r hr _ => by cases hr
theorem Laws.RowBack.pfQueueReset : Laws.RowBack.Statement .pfQueueReset :=
  fun r hr _ => by cases hr
theorem Laws.RowBack.functionLevelReset : ∀ fn, Laws.RowBack.Statement (.functionLevelReset fn) :=
  fun _ => fun r hr _ => by cases hr
theorem Laws.RowBack.partitionApply : ∀ part, Laws.RowBack.Statement (.partitionApply part) :=
  fun _ => fun r hr _ => by cases hr
theorem Laws.RowBack.partitionApplyDone : ∀ part, Laws.RowBack.Statement (.partitionApplyDone part) :=
  fun _ => fun r hr _ => by cases hr
theorem Laws.RowBack.partProtWrite : ∀ v, Laws.RowBack.Statement (.partProtWrite v) :=
  fun _ => fun r hr _ => by cases hr
theorem Laws.RowBack.partWaymWrite : ∀ owner mask, Laws.RowBack.Statement (.partWaymWrite owner mask) :=
  fun _ _ => fun r hr _ => by cases hr
theorem Laws.RowBack.regionApply : ∀ region, Laws.RowBack.Statement (.regionApply region) :=
  fun _ => fun r hr _ => by cases hr
theorem Laws.RowBack.regionRevoke : ∀ region, Laws.RowBack.Statement (.regionRevoke region) :=
  fun _ => fun r hr _ => by cases hr
theorem Laws.RowBack.pageSectorMove : ∀ va newFrame, Laws.RowBack.Statement (.pageSectorMove va newFrame) :=
  fun _ _ => fun r hr _ => by cases hr
theorem Laws.RowBack.hostDma : ∀ fn addr write len data, Laws.RowBack.Statement (.hostDma fn addr write len data) :=
  fun _ _ _ _ _ => fun r hr _ => by cases hr
theorem Laws.RowBack.secIwinWrite : ∀ v, Laws.RowBack.Statement (.secIwinWrite v) :=
  fun _ => fun r hr _ => by cases hr
theorem Laws.RowBack.lineWriteback : ∀ line, Laws.RowBack.Statement (.lineWriteback line) :=
  fun _ => fun r hr _ => by cases hr
theorem Laws.RowBack.lineFill : ∀ line, Laws.RowBack.Statement (.lineFill line) :=
  fun _ => fun r hr _ => by cases hr
theorem Laws.RowBack.tableApply : ∀ sel, Laws.RowBack.Statement (.tableApply sel) :=
  fun _ => fun r hr _ => by cases hr
theorem Laws.RowBack.tableTakeEffect : Laws.RowBack.Statement .tableTakeEffect :=
  fun r hr _ => by cases hr
theorem Laws.RowBack.slotSend : ∀ pair, Laws.RowBack.Statement (.slotSend pair) :=
  fun _ => fun r hr _ => by cases hr
theorem Laws.RowBack.gondolaResponse : ∀ pair poisoned, Laws.RowBack.Statement (.gondolaResponse pair poisoned) :=
  fun _ _ => fun r hr _ => by cases hr
theorem Laws.RowBack.flitReceive : ∀ pair ok, Laws.RowBack.Statement (.flitReceive pair ok) :=
  fun _ _ => fun r hr _ => by cases hr
theorem Laws.RowBack.lossOfLock : ∀ pair, Laws.RowBack.Statement (.lossOfLock pair) :=
  fun _ => fun r hr _ => by cases hr
theorem Laws.RowBack.retrainEnd : ∀ pair spares, Laws.RowBack.Statement (.retrainEnd pair spares) :=
  fun _ _ => fun r hr _ => by cases hr
theorem Laws.RowBack.tetherStall : ∀ pair, Laws.RowBack.Statement (.tetherStall pair) :=
  fun _ => fun r hr _ => by cases hr
theorem Laws.RowBack.pairDown : ∀ pair, Laws.RowBack.Statement (.pairDown pair) :=
  fun _ => fun r hr _ => by cases hr
theorem Laws.RowBack.peerLinkUp : ∀ port peerId, Laws.RowBack.Statement (.peerLinkUp port peerId) :=
  fun _ _ => fun r hr _ => by cases hr
theorem Laws.RowBack.peerRequest : ∀ port fn exp rfn write offset len data, Laws.RowBack.Statement (.peerRequest port fn exp rfn write offset len data) :=
  fun _ _ _ _ _ _ _ _ => fun r hr _ => by cases hr
theorem Laws.RowBack.peerPortDown : ∀ port, Laws.RowBack.Statement (.peerPortDown port) :=
  fun _ => fun r hr _ => by cases hr
theorem Laws.RowBack.patrolStep : Laws.RowBack.Statement .patrolStep :=
  fun r hr _ => by cases hr
theorem Laws.RowBack.patrolDeferRetry : Laws.RowBack.Statement .patrolDeferRetry :=
  fun r hr _ => by cases hr
theorem Laws.RowBack.featureCommit : Laws.RowBack.Statement .featureCommit :=
  fun r hr _ => by cases hr
theorem Laws.RowBack.telemetrySample : ∀ tmax tgmax c0k c0g, Laws.RowBack.Statement (.telemetrySample tmax tgmax c0k c0g) :=
  fun _ _ _ _ => fun r hr _ => by cases hr
theorem Laws.RowBack.registerWrite : ∀ fn offset size v, Laws.RowBack.Statement (.registerWrite fn offset size v) :=
  fun _ _ _ _ => fun r hr _ => by cases hr
theorem Laws.RowBack.telGet : Laws.RowBack.Statement .telGet :=
  fun r hr _ => by cases hr
theorem Laws.RowBack.spmapGet : Laws.RowBack.Statement .spmapGet :=
  fun r hr _ => by cases hr
theorem Laws.RowBack.patlogGet : Laws.RowBack.Statement .patlogGet :=
  fun r hr _ => by cases hr
theorem Laws.RowBack.resetPart : ∀ part, Laws.RowBack.Statement (.resetPart part) :=
  fun _ => fun r hr _ => by cases hr
theorem Laws.RowBack.resetDev : Laws.RowBack.Statement .resetDev :=
  fun r hr _ => by cases hr
theorem Laws.RowBack.linkRetrain : ∀ pair, Laws.RowBack.Statement (.linkRetrain pair) :=
  fun _ => fun r hr _ => by cases hr
theorem Laws.RowBack.dbgNonce : Laws.RowBack.Statement .dbgNonce :=
  fun r hr _ => by cases hr
theorem Laws.RowBack.dbgUnlock : ∀ token, Laws.RowBack.Statement (.dbgUnlock token) :=
  fun _ => fun r hr _ => by cases hr
theorem Laws.RowBack.dbgRd : ∀ addr, Laws.RowBack.Statement (.dbgRd addr) :=
  fun _ => fun r hr _ => by cases hr
theorem Laws.RowBack.dbgWr : ∀ addr v, Laws.RowBack.Statement (.dbgWr addr v) :=
  fun _ _ => fun r hr _ => by cases hr
theorem Laws.RowBack.getCertificate : ∀ session, Laws.RowBack.Statement (.getCertificate session) :=
  fun _ => fun r hr _ => by cases hr
theorem Laws.RowBack.keyExchange : ∀ fn, Laws.RowBack.Statement (.keyExchange fn) :=
  fun _ => fun r hr _ => by cases hr
theorem Laws.RowBack.getMeasurements : ∀ session index, Laws.RowBack.Statement (.getMeasurements session index) :=
  fun _ _ => fun r hr _ => by cases hr
theorem Laws.RowBack.keyLoad : ∀ session fn tk, Laws.RowBack.Statement (.keyLoad session fn tk) :=
  fun _ _ _ => fun r hr _ => by cases hr
theorem Laws.RowBack.keyClear : ∀ session fn, Laws.RowBack.Statement (.keyClear session fn) :=
  fun _ _ => fun r hr _ => by cases hr
theorem Laws.RowBack.keyQuery : ∀ session fn, Laws.RowBack.Statement (.keyQuery session fn) :=
  fun _ _ => fun r hr _ => by cases hr
theorem Laws.RowBack.ideKm : ∀ session fn key, Laws.RowBack.Statement (.ideKm session fn key) :=
  fun _ _ _ => fun r hr _ => by cases hr
theorem Laws.RowBack.lockInterface : ∀ fn, Laws.RowBack.Statement (.lockInterface fn) :=
  fun _ => fun r hr _ => by cases hr
theorem Laws.RowBack.startInterface : ∀ fn, Laws.RowBack.Statement (.startInterface fn) :=
  fun _ => fun r hr _ => by cases hr
theorem Laws.RowBack.stopInterface : ∀ fn, Laws.RowBack.Statement (.stopInterface fn) :=
  fun _ => fun r hr _ => by cases hr
theorem Laws.RowBack.deviceReset : Laws.RowBack.Statement .deviceReset :=
  fun r hr _ => by cases hr
theorem Laws.RowBack.initialTraining : ∀ pair ok, Laws.RowBack.Statement (.initialTraining pair ok) :=
  fun _ _ => fun r hr _ => by cases hr
theorem Laws.RowBack.patrolTestEnd : ∀ failing, Laws.RowBack.Statement (.patrolTestEnd failing) :=
  fun _ => fun r hr _ => by cases hr
theorem Laws.RowBack.powerThrottle : ∀ pnow thr c0over, Laws.RowBack.Statement (.powerThrottle pnow thr c0over) :=
  fun _ _ _ => fun r hr _ => by cases hr
theorem Laws.RowBack.d3hot : ∀ enter, Laws.RowBack.Statement (.d3hot enter) :=
  fun _ => fun r hr _ => by cases hr
theorem Laws.RowBack.endSession : ∀ session, Laws.RowBack.Statement (.endSession session) :=
  fun _ => fun r hr _ => by cases hr
theorem Laws.RowBack.lifecycleTransition : ∀ target signed, Laws.RowBack.Statement (.lifecycleTransition target signed) :=
  fun _ _ => fun r hr _ => by cases hr
theorem Laws.RowBack.channelSubstitution : ∀ channel, Laws.RowBack.Statement (.channelSubstitution channel) :=
  fun _ => fun r hr _ => by cases hr
theorem Laws.RowBack.smbusFallback : Laws.RowBack.Statement .smbusFallback :=
  fun r hr _ => by cases hr

end Sys2Proof
end

