-- ==== Sys2Proof/Laws/Predicates.lean ====
section
/-!
SUPPORT. MOV, ICMP and PLOG: the results that keep the form of a predicate (R176, R183, R184).
-/
namespace Sys2Proof.Machine

theorem truth_ite (b : Bool) : truth b = if b = true then 1 else 0 := rfl

/-- A predicate written as it stands. -/
theorem putP_wrote {e : Entry} {nregs : Nat} {acting : List Nat} {wide : Bool} {items : Option (List Nat)} {n : Fin 8} {r : PReg}
    {f : Nat → W64} (hw : e.canWrite nregs acting wide (.p n) = true)
    (hc : CoverOk e nregs acting wide items (.p n)) (hf : ∀ i ∈ acting, r.at e.start i = (f i != 0)) :
    Wrote e (e.putP n r items) nregs acting wide (.p n) f := by
  simp only [Entry.canWrite, decide_eq_true_eq] at hw
  refine ⟨fun m i hi => ?_, fun m i hi => ?_, fun m i hi => ?_, putP_onlyRegs _ _ _ _⟩
  · rw [putP_vAt _ _ _ hi]
    simp [Entry.destOf]
  · have hcv := covers_iff hc hi (fun _ _ h => by cases h)
    rw [putP_pAt _ _ _ hw hi]
    simp only [hcv, Spec.p.injEq]
    by_cases ha : i ∈ acting
    · simp only [ha, and_true, true_and, hf i ha]
      by_cases h1 : m = n
      · subst h1
        by_cases h7 : m = 7
        · subst h7; rfl
        · have : m.val ≠ 7 := fun h => h7 (Fin.ext h)
          simp [h7, this]
      · have h2 : m.val ≠ n.val := fun h => h1 (Fin.ext h)
        have h3 : ¬ n = m := fun h => h1 h.symm
        simp [h2, h3]
    · simp [ha]
  · rw [putP_xAt _ _ _ hi]
    simp

section
variable {s : State} {c : Ctx} {o : Long}

theorem reads_entry (c : Ctx) (op : Op) (o : Long) : OnlyReads c.e (c.reads op o).e := reads_only c (c.actsOn o) op o

/-- The entry that the lanes hold has the predicates and the range of the entry that issues. -/
theorem lanes_entry {op : Op} {l : Lane} (hl : LanesOf c op o l) : OnlyReads c.e l.e := by
  rw [hl.e]
  exact reads_entry c op o

theorem cover_lanes {op : Op} {l : Lane} (hl : LanesOf c op o l) (wide : Bool) (d : Spec) :
    CoverOk l.e c.ke.regs (c.actsOn o) wide l.items d := by
  rw [hl.items]
  exact cover_ok (lanes_entry hl) _ _ _ _ _

/-- A result of a type of at most 32 bits lies in the low 32 bits. -/
theorem storePat_low {t : Ty} (h : t.width ≤ 32) (n : Nat) : ((storePat t n).setWidth 32).setWidth 64 = storePat t n := by
  have hb : (storePat t n).toNat < 2 ^ 32 := by
    unfold storePat
    have h1 : n % 2 ^ t.width < 2 ^ 32 :=
      Nat.lt_of_lt_of_le (Nat.mod_lt _ (Nat.two_pow_pos _)) (Nat.pow_le_pow_right (by decide) h)
    split
    · exact Nat.lt_of_le_of_lt (by rw [BitVec.toNat_ofNat]; exact Nat.mod_le _ _) (wrapZ_lt 32 _)
    · exact Nat.lt_of_le_of_lt (by rw [BitVec.toNat_ofNat]; exact Nat.mod_le _ _) h1
  apply BitVec.eq_of_toNat_eq
  rw [BitVec.toNat_setWidth, BitVec.toNat_setWidth, Nat.mod_eq_of_lt hb]
  exact Nat.mod_eq_of_lt (by omega)

/-- An affine MOV gives every item the value of its source at the type (R176). -/
theorem affineMov_at {t : Ty} {b d : W32} {n i : Nat} {v : OpVal} (hv : affineMov t b d n = some v) (hi : i < n) :
    v.at i = storePat t (patOf t ((OpVal.aff b d).at i)) := by
  unfold affineMov at hv
  simp only at hv
  split at hv
  · rename_i h32
    cases hv
    have hnp : t ≠ .pred := fun h => by subst h; exact absurd h32 (by decide)
    have hlt : (b + d * BitVec.ofNat 32 i).toNat < 2 ^ 32 := (b + d * BitVec.ofNat 32 i).isLt
    simp only [OpVal.at]
    unfold storePat patOf
    rw [if_neg hnp, h32]
    simp only [lt_irrefl, false_and, if_false]
    apply BitVec.eq_of_toNat_eq
    rw [BitVec.toNat_ofNat, BitVec.toNat_setWidth]
    omega
  · split at hv
    · rename_i hc
      cases hv
      have hf := of_decide_eq_true (List.all_eq_true.mp hc.2.2 i (List.mem_range.mpr hi))
      rw [OpVal.norm_at]
      show (_ + _ * BitVec.ofNat 32 i : W32).setWidth 64 = _
      rw [BitVec.mul_comm _ (BitVec.ofNat 32 i), ← hf, storePat_low (Nat.le_of_lt hc.1)]
      simp only [OpVal.at, patOf, if_neg hc.2.1]
      rw [storePat_mod, BitVec.mul_comm _ d, BitVec.toNat_setWidth]
      congr 1
      have hlt : (b + d * BitVec.ofNat 32 i).toNat < 2 ^ 32 := (b + d * BitVec.ofNat 32 i).isLt
      omega
    · cases hv

/-- MOV. -/
theorem runMov_computes {words : Nat} (hs : s.here = some c) (ha : c.actsOn o ≠ []) (hr : c.readable .mov o = true)
    (hw : c.e.canWrite c.ke.regs (c.actsOn o) o.ty.wide o.d = true) (hp : (∃ n, o.a = .p n) → o.perm = .none) :
    ∃ t e, (Host.Outcome.next (c.runMov words o) : Host.Outcome State Fault Refusal) = .next t ∧ OnlyEntry s t e ∧
      Wrote ((c.reads .mov o).e.stepped words) e c.ke.regs (c.actsOn o) o.ty.wide o.d
        (fun i => storePat o.ty (patOf o.ty ((c.reads .mov o).a i))) := by
  refine computes_of_lane (f := fun _ r i => storePat o.ty (patOf o.ty (r.a i))) hs ha hr fun l hl => ?_
  have general : ∃ x, l.write c.ke.regs o.ty.wide o.ty.signedInt o.d
      (match l.a, l.items with
        | .aff b d, none => (affineMov o.ty b d l.e.len).getD (l.each fun a _ _ => storePat o.ty (patOf o.ty a))
        | _, _ => l.each fun a _ _ => storePat o.ty (patOf o.ty a)) = .ok x ∧
      Wrote (c.reads .mov o).e x c.ke.regs (c.actsOn o) o.ty.wide o.d (fun i => storePat o.ty (patOf o.ty ((c.reads .mov o).a i))) := by
    refine lane_write hl hw fun i hi => ?_
    obtain ⟨v1, _, _⟩ := hl.vals i hi
    have hd : (l.each fun a _ _ => storePat o.ty (patOf o.ty a)).at i = storePat o.ty (patOf o.ty ((c.reads .mov o).a i)) :=
      each_at hl _ hi
    split
    · rename_i b d hab _
      cases hv : affineMov o.ty b d l.e.len with
      | none => exact hd
      | some v =>
        rw [Option.getD_some, affineMov_at hv (live_lt (by rw [(lanes_entry hl).live]; exact actsOn_live hi)), ← v1, hab]
    · exact hd
  have hx : ∀ d a, o.ty = .pred → o.d = .p d → o.a = .p a → ∃ x, (Except.ok (l.e.putP d (l.e.pred a) l.items) : Except Stop Entry) = .ok x ∧
      Wrote (c.reads .mov o).e x c.ke.regs (c.actsOn o) o.ty.wide o.d (fun i => storePat o.ty (patOf o.ty ((c.reads .mov o).a i))) := by
    intro d a ht hd had
    refine ⟨_, rfl, ?_⟩
    rw [← hl.e, hd]
    apply putP_wrote
    · rw [(lanes_entry hl).canWrite, ← hd]
      exact hw
    · exact cover_lanes hl _ _
    · intro i hi
      have hread : (c.reads .mov o).a i = if c.e.pAt a i then 1 else 0 := by
        unfold Ctx.reads Ctx.readsFor
        simp only [hp ⟨a, had⟩, Entry.through, had, Entry.sourceAt]
      rw [hread, ht]
      obtain ⟨st, y, he⟩ := lanes_entry hl
      have h1 : (l.e.pred a).at l.e.start i = c.e.pAt a i := by rw [he]; rfl
      rw [h1]
      cases c.e.pAt a i <;> decide
  by_cases hcase : ∃ d a, o.ty = .pred ∧ o.d = .p d ∧ o.a = .p a
  · obtain ⟨d, a, ht, hd, had⟩ := hcase
    have := hx d a ht hd had
    simp only [ht, hd, had] at this ⊢
    exact this
  · split
    · rename_i d a ht hd had
      exact absurd ⟨d, a, ht, hd, had⟩ hcase
    · exact general

/-- ICMP. -/
theorem runIcmp_computes {words : Nat} (hs : s.here = some c) (ha : c.actsOn o ≠ []) (hr : c.readable .icmp o = true)
    (hw : c.e.canWrite c.ke.regs (c.actsOn o) o.ty.wide o.d = true) (hcc : o.mod.val % 8 ≤ 5) :
    ∃ t e, (Host.Outcome.next (c.runIcmp words o) : Host.Outcome State Fault Refusal) = .next t ∧ OnlyEntry s t e ∧
      Wrote ((c.reads .icmp o).e.stepped words) e c.ke.regs (c.actsOn o) o.ty.wide o.d
        (fun i => if compares (o.mod.val % 8) (intOf o.ty ((c.reads .icmp o).a i)) (intOf o.ty ((c.reads .icmp o).b i)) then 1 else 0) := by
  refine computes_of_lane
    (f := fun _ r i => if compares (o.mod.val % 8) (intOf o.ty (r.a i)) (intOf o.ty (r.b i)) then 1 else 0) hs ha hr fun l hl => ?_
  simp only
  have hd : ∀ i ∈ c.actsOn o, (l.each fun a b _ => truth (condOf (o.mod.val % 8) (intOf o.ty a) (intOf o.ty b))).at i =
      if compares (o.mod.val % 8) (intOf o.ty ((c.reads .icmp o).a i)) (intOf o.ty ((c.reads .icmp o).b i)) then 1 else 0 := by
    intro i hi
    rw [each_at hl _ hi, condOf_compares hcc]
    rfl
  split
  · rename_i d r hdd hstep
    refine ⟨_, rfl, ?_⟩
    rw [← hl.e, hdd]
    apply putP_wrote
    · rw [(lanes_entry hl).canWrite, ← hdd]
      exact hw
    · have hnone : l.items = none := by
        unfold Lane.step at hstep
        split at hstep
        · cases hstep
        · rename_i hg
          simp only [not_or] at hg
          simpa using hg.1
      rw [← hnone]
      exact cover_lanes hl _ _
    · intro i hi
      obtain ⟨v1, v2, _⟩ := hl.vals i hi
      have hlt : i < l.e.len := by rw [(lanes_entry hl).len]; exact live_lt (actsOn_live hi)
      rw [← v1, ← v2, ← condOf_compares hcc]
      unfold Lane.step at hstep
      split at hstep
      · cases hstep
      · rename_i hg
        simp only [not_or] at hg
        have hty : affTy o.ty = true := by simpa using hg.2.1
        split at hstep
        · rename_i b d2 u hA hB
          rw [hA, hB]
          have hu : intOf o.ty ((OpVal.uni u).at i) = intOf o.ty ((u.setWidth 32).setWidth 64) := (intOf_low hty u).symm
          rw [hu, stepPred_at hty (by omega) hstep hlt]
          show condOf _ (intOf o.ty ((OpVal.aff b d2).at i)) _ = _
          cases condOf (o.mod.val % 8) (intOf o.ty ((OpVal.aff b d2).at i)) (intOf o.ty ((u.setWidth 32).setWidth 64)) <;> rfl
        · rename_i u b d2 hA hB
          rw [hA, hB]
          have hu : intOf o.ty ((OpVal.uni u).at i) = intOf o.ty ((u.setWidth 32).setWidth 64) := (intOf_low hty u).symm
          have hm : 2 ≤ mirror (o.mod.val % 8) := by
            have h2 : 2 ≤ o.mod.val % 8 := by omega
            generalize o.mod.val % 8 = cc at h2 hcc
            match cc, h2, hcc with
            | 2, _, _ => decide
            | 3, _, _ => decide
            | 4, _, _ => decide
            | 5, _, _ => decide
          rw [hu, stepPred_at hty hm hstep hlt, condOf_mirror hcc]
          show condOf _ _ (intOf o.ty ((OpVal.aff b d2).at i)) = _
          cases condOf (o.mod.val % 8) (intOf o.ty ((u.setWidth 32).setWidth 64)) (intOf o.ty ((OpVal.aff b d2).at i)) <;> rfl
        · cases hstep
  · exact lane_write hl hw hd

theorem plogBit_eq (lut : Nat) (a b x : W64) :
    plogBit lut a b x = if lut.testBit ((decide (a ≠ 0)).toNat * 4 + (decide (b ≠ 0)).toNat * 2 + (decide (x ≠ 0)).toNat) then 1 else 0 := by
  unfold plogBit truth
  have key : ∀ (y : W64) (k : Nat), (if y = 0 then 0 else k) = (decide (y ≠ 0)).toNat * k := by
    intro y k
    by_cases h : y = 0
    · rw [if_pos h, decide_eq_false (fun g => g h)]; simp
    · rw [if_neg h, decide_eq_true h]; simp
  rw [key a 4, key b 2, key x 1, Nat.mul_one]

/-- PLOG. -/
theorem runPlog_computes {words : Nat} (hs : s.here = some c) (ha : c.actsOn o ≠ []) (hr : c.readable .plog o = true)
    (hw : c.e.canWrite c.ke.regs (c.actsOn o) false o.d = true) (hi : o.imm.val < 256) (hp : (∃ n, o.a = .p n) → o.perm = .none) :
    ∃ t e, (Host.Outcome.next (c.runPlog words o) : Host.Outcome State Fault Refusal) = .next t ∧ OnlyEntry s t e ∧
      Wrote ((c.reads .plog o).e.stepped words) e c.ke.regs (c.actsOn o) false o.d
        (fun i => if o.imm.val.testBit ((decide ((c.reads .plog o).a i ≠ 0)).toNat * 4 +
          (decide ((c.reads .plog o).b i ≠ 0)).toNat * 2 + (decide ((c.reads .plog o).c i ≠ 0)).toNat) then 1 else 0) := by
  refine computes_of_lane (f := fun _ r i => if o.imm.val.testBit ((decide (r.a i ≠ 0)).toNat * 4 +
    (decide (r.b i ≠ 0)).toNat * 2 + (decide (r.c i ≠ 0)).toNat) then 1 else 0) hs ha hr fun l hl => ?_
  have hm : o.imm.val % 256 = o.imm.val := Nat.mod_eq_of_lt hi
  simp only [hm]
  have hdense : ∃ x, l.write c.ke.regs false false o.d (l.each fun a b x => plogBit o.imm.val a b x) = .ok x ∧
      Wrote (c.reads .plog o).e x c.ke.regs (c.actsOn o) false o.d (fun i => if o.imm.val.testBit
        ((decide ((c.reads .plog o).a i ≠ 0)).toNat * 4 + (decide ((c.reads .plog o).b i ≠ 0)).toNat * 2 +
          (decide ((c.reads .plog o).c i ≠ 0)).toNat) then 1 else 0) :=
    lane_write hl hw fun i hi => by rw [each_at hl _ hi, plogBit_eq]
  split
  · rename_i d a hdd had
    split
    · rename_i t sense hpred
      split
      · rename_i hc
        refine ⟨_, rfl, ?_⟩
        rw [← hl.e, hdd]
        apply putP_wrote
        · rw [(lanes_entry hl).canWrite, ← hdd]
          exact hw
        · have hnone : l.items = none := by simpa using hc.1
          rw [← hnone]
          exact cover_lanes hl _ _
        · intro i hi
          obtain ⟨_, himm, hb, hcz⟩ := hc
          have hra : (c.reads .plog o).a i = if c.e.pAt a i then 1 else 0 := by
            unfold Ctx.reads Ctx.readsFor
            simp only [hp ⟨a, had⟩, Entry.through, had, Entry.sourceAt]
          have hrb : (c.reads .plog o).b i = 0 := by
            unfold Ctx.reads Ctx.readsFor
            simp only [hb, Entry.sourceAt]
          have hrc : (c.reads .plog o).c i = 0 := by
            unfold Ctx.reads Ctx.readsFor
            simp only [hcz, Entry.sourceAt]
          obtain ⟨st, y, he⟩ := lanes_entry hl
          have h1 : (PReg.aff t sense).at l.e.start i = c.e.pAt a i := by
            rw [← hpred, he]
            rfl
          rw [hra, hrb, hrc, himm]
          have h2 : (PReg.aff t (!sense)).at l.e.start i = !(PReg.aff t sense).at l.e.start i := by
            simp only [PReg.at]
            split <;> simp
          rw [h2, h1]
          cases c.e.pAt a i <;> decide
      · exact hdense
    · exact hdense
  · exact hdense

end

end Sys2Proof.Machine
end

