-- ==== Sys2Proof/Laws/State.lean ====
section
/-!
SUPPORT. What each update of the state leaves in each field, true by definition.
-/
namespace Sys2Proof.Machine

section
variable (s : State)

/-! poke -/
@[simp] theorem State.poke_clock (pa : Nat) (bs : List Byte) : (s.poke pa bs).clock = s.clock := rfl
@[simp] theorem State.poke_cur (pa : Nat) (bs : List Byte) : (s.poke pa bs).cur = s.cur := rfl
@[simp] theorem State.poke_agenda (pa : Nat) (bs : List Byte) : (s.poke pa bs).agenda = s.agenda := rfl
@[simp] theorem State.poke_draws (pa : Nat) (bs : List Byte) : (s.poke pa bs).draws = s.draws := rfl
@[simp] theorem State.poke_nextId (pa : Nat) (bs : List Byte) : (s.poke pa bs).nextId = s.nextId := rfl
@[simp] theorem State.poke_turns (pa : Nat) (bs : List Byte) : (s.poke pa bs).turns = s.turns := rfl
@[simp] theorem State.poke_ttNext (pa : Nat) (bs : List Byte) : (s.poke pa bs).ttNext = s.ttNext := rfl
@[simp] theorem State.poke_slots (pa : Nat) (bs : List Byte) : (s.poke pa bs).slots = s.slots := rfl
@[simp] theorem State.poke_flights (pa : Nat) (bs : List Byte) : (s.poke pa bs).flights = s.flights := rfl
@[simp] theorem State.poke_remains (pa : Nat) (bs : List Byte) : (s.poke pa bs).remains = s.remains := rfl
@[simp] theorem State.poke_launches (pa : Nat) (bs : List Byte) : (s.poke pa bs).launches = s.launches := rfl
@[simp] theorem State.poke_kernels (pa : Nat) (bs : List Byte) : (s.poke pa bs).kernels = s.kernels := rfl
@[simp] theorem State.poke_cores (pa : Nat) (bs : List Byte) : (s.poke pa bs).cores = s.cores := rfl
@[simp] theorem State.poke_mem (pa : Nat) (bs : List Byte) : (s.poke pa bs).mem = Memory.writeN s.mem pa bs := rfl
@[simp] theorem State.poke_tags (pa : Nat) (bs : List Byte) : (s.poke pa bs).tags = s.tags := rfl
@[simp] theorem State.poke_tier (pa : Nat) (bs : List Byte) : (s.poke pa bs).tier = s.tier := rfl
@[simp] theorem State.poke_queue (pa : Nat) (bs : List Byte) : (s.poke pa bs).queue = s.queue := rfl
@[simp] theorem State.poke_oper (pa : Nat) (bs : List Byte) : (s.poke pa bs).oper = s.oper := rfl
@[simp] theorem State.poke_sec (pa : Nat) (bs : List Byte) : (s.poke pa bs).sec = s.sec := rfl
@[simp] theorem State.poke_thx (pa : Nat) (bs : List Byte) : (s.poke pa bs).thx = s.thx := rfl
@[simp] theorem State.poke_fleet (pa : Nat) (bs : List Byte) : (s.poke pa bs).fleet = s.fleet := rfl

/-! pokeN -/
@[simp] theorem State.pokeN_clock (pa n v : Nat) : (s.pokeN pa n v).clock = s.clock := rfl
@[simp] theorem State.pokeN_cur (pa n v : Nat) : (s.pokeN pa n v).cur = s.cur := rfl
@[simp] theorem State.pokeN_agenda (pa n v : Nat) : (s.pokeN pa n v).agenda = s.agenda := rfl
@[simp] theorem State.pokeN_draws (pa n v : Nat) : (s.pokeN pa n v).draws = s.draws := rfl
@[simp] theorem State.pokeN_nextId (pa n v : Nat) : (s.pokeN pa n v).nextId = s.nextId := rfl
@[simp] theorem State.pokeN_turns (pa n v : Nat) : (s.pokeN pa n v).turns = s.turns := rfl
@[simp] theorem State.pokeN_ttNext (pa n v : Nat) : (s.pokeN pa n v).ttNext = s.ttNext := rfl
@[simp] theorem State.pokeN_slots (pa n v : Nat) : (s.pokeN pa n v).slots = s.slots := rfl
@[simp] theorem State.pokeN_flights (pa n v : Nat) : (s.pokeN pa n v).flights = s.flights := rfl
@[simp] theorem State.pokeN_remains (pa n v : Nat) : (s.pokeN pa n v).remains = s.remains := rfl
@[simp] theorem State.pokeN_launches (pa n v : Nat) : (s.pokeN pa n v).launches = s.launches := rfl
@[simp] theorem State.pokeN_kernels (pa n v : Nat) : (s.pokeN pa n v).kernels = s.kernels := rfl
@[simp] theorem State.pokeN_cores (pa n v : Nat) : (s.pokeN pa n v).cores = s.cores := rfl
@[simp] theorem State.pokeN_mem (pa n v : Nat) : (s.pokeN pa n v).mem = Memory.writeN s.mem pa (leBytes n v) := rfl
@[simp] theorem State.pokeN_tags (pa n v : Nat) : (s.pokeN pa n v).tags = s.tags := rfl
@[simp] theorem State.pokeN_tier (pa n v : Nat) : (s.pokeN pa n v).tier = s.tier := rfl
@[simp] theorem State.pokeN_queue (pa n v : Nat) : (s.pokeN pa n v).queue = s.queue := rfl
@[simp] theorem State.pokeN_oper (pa n v : Nat) : (s.pokeN pa n v).oper = s.oper := rfl
@[simp] theorem State.pokeN_sec (pa n v : Nat) : (s.pokeN pa n v).sec = s.sec := rfl
@[simp] theorem State.pokeN_thx (pa n v : Nat) : (s.pokeN pa n v).thx = s.thx := rfl
@[simp] theorem State.pokeN_fleet (pa n v : Nat) : (s.pokeN pa n v).fleet = s.fleet := rfl

/-! setTags -/
@[simp] theorem State.setTags_clock (first count tag : Nat) : (s.setTags first count tag).clock = s.clock := rfl
@[simp] theorem State.setTags_cur (first count tag : Nat) : (s.setTags first count tag).cur = s.cur := rfl
@[simp] theorem State.setTags_agenda (first count tag : Nat) : (s.setTags first count tag).agenda = s.agenda := rfl
@[simp] theorem State.setTags_draws (first count tag : Nat) : (s.setTags first count tag).draws = s.draws := rfl
@[simp] theorem State.setTags_nextId (first count tag : Nat) : (s.setTags first count tag).nextId = s.nextId := rfl
@[simp] theorem State.setTags_turns (first count tag : Nat) : (s.setTags first count tag).turns = s.turns := rfl
@[simp] theorem State.setTags_ttNext (first count tag : Nat) : (s.setTags first count tag).ttNext = s.ttNext := rfl
@[simp] theorem State.setTags_slots (first count tag : Nat) : (s.setTags first count tag).slots = s.slots := rfl
@[simp] theorem State.setTags_flights (first count tag : Nat) : (s.setTags first count tag).flights = s.flights := rfl
@[simp] theorem State.setTags_remains (first count tag : Nat) : (s.setTags first count tag).remains = s.remains := rfl
@[simp] theorem State.setTags_launches (first count tag : Nat) : (s.setTags first count tag).launches = s.launches := rfl
@[simp] theorem State.setTags_kernels (first count tag : Nat) : (s.setTags first count tag).kernels = s.kernels := rfl
@[simp] theorem State.setTags_cores (first count tag : Nat) : (s.setTags first count tag).cores = s.cores := rfl
@[simp] theorem State.setTags_mem (first count tag : Nat) : (s.setTags first count tag).mem = s.mem := rfl
@[simp] theorem State.setTags_tier (first count tag : Nat) : (s.setTags first count tag).tier = s.tier := rfl
@[simp] theorem State.setTags_queue (first count tag : Nat) : (s.setTags first count tag).queue = s.queue := rfl
@[simp] theorem State.setTags_oper (first count tag : Nat) : (s.setTags first count tag).oper = s.oper := rfl
@[simp] theorem State.setTags_sec (first count tag : Nat) : (s.setTags first count tag).sec = s.sec := rfl
@[simp] theorem State.setTags_thx (first count tag : Nat) : (s.setTags first count tag).thx = s.thx := rfl
@[simp] theorem State.setTags_fleet (first count tag : Nat) : (s.setTags first count tag).fleet = s.fleet := rfl

/-! setFat -/
@[simp] theorem State.setFat_clock (frame v : Nat) : (s.setFat frame v).clock = s.clock := rfl
@[simp] theorem State.setFat_cur (frame v : Nat) : (s.setFat frame v).cur = s.cur := rfl
@[simp] theorem State.setFat_agenda (frame v : Nat) : (s.setFat frame v).agenda = s.agenda := rfl
@[simp] theorem State.setFat_draws (frame v : Nat) : (s.setFat frame v).draws = s.draws := rfl
@[simp] theorem State.setFat_nextId (frame v : Nat) : (s.setFat frame v).nextId = s.nextId := rfl
@[simp] theorem State.setFat_turns (frame v : Nat) : (s.setFat frame v).turns = s.turns := rfl
@[simp] theorem State.setFat_ttNext (frame v : Nat) : (s.setFat frame v).ttNext = s.ttNext := rfl
@[simp] theorem State.setFat_slots (frame v : Nat) : (s.setFat frame v).slots = s.slots := rfl
@[simp] theorem State.setFat_flights (frame v : Nat) : (s.setFat frame v).flights = s.flights := rfl
@[simp] theorem State.setFat_remains (frame v : Nat) : (s.setFat frame v).remains = s.remains := rfl
@[simp] theorem State.setFat_launches (frame v : Nat) : (s.setFat frame v).launches = s.launches := rfl
@[simp] theorem State.setFat_kernels (frame v : Nat) : (s.setFat frame v).kernels = s.kernels := rfl
@[simp] theorem State.setFat_cores (frame v : Nat) : (s.setFat frame v).cores = s.cores := rfl
@[simp] theorem State.setFat_tags (frame v : Nat) : (s.setFat frame v).tags = s.tags := rfl
@[simp] theorem State.setFat_tier (frame v : Nat) : (s.setFat frame v).tier = s.tier := rfl
@[simp] theorem State.setFat_queue (frame v : Nat) : (s.setFat frame v).queue = s.queue := rfl
@[simp] theorem State.setFat_oper (frame v : Nat) : (s.setFat frame v).oper = s.oper := rfl
@[simp] theorem State.setFat_sec (frame v : Nat) : (s.setFat frame v).sec = s.sec := rfl
@[simp] theorem State.setFat_thx (frame v : Nat) : (s.setFat frame v).thx = s.thx := rfl
@[simp] theorem State.setFat_fleet (frame v : Nat) : (s.setFat frame v).fleet = s.fleet := rfl

/-! setCounter -/
@[simp] theorem State.setCounter_clock (x : Group) : (s.setCounter x).clock = s.clock := rfl
@[simp] theorem State.setCounter_cur (x : Group) : (s.setCounter x).cur = s.cur := rfl
@[simp] theorem State.setCounter_agenda (x : Group) : (s.setCounter x).agenda = s.agenda := rfl
@[simp] theorem State.setCounter_draws (x : Group) : (s.setCounter x).draws = s.draws := rfl
@[simp] theorem State.setCounter_nextId (x : Group) : (s.setCounter x).nextId = s.nextId := rfl
@[simp] theorem State.setCounter_turns (x : Group) : (s.setCounter x).turns = s.turns := rfl
@[simp] theorem State.setCounter_ttNext (x : Group) : (s.setCounter x).ttNext = s.ttNext := rfl
@[simp] theorem State.setCounter_slots (x : Group) : (s.setCounter x).slots = s.slots := rfl
@[simp] theorem State.setCounter_flights (x : Group) : (s.setCounter x).flights = s.flights := rfl
@[simp] theorem State.setCounter_remains (x : Group) : (s.setCounter x).remains = s.remains := rfl
@[simp] theorem State.setCounter_launches (x : Group) : (s.setCounter x).launches = s.launches := rfl
@[simp] theorem State.setCounter_kernels (x : Group) : (s.setCounter x).kernels = s.kernels := rfl
@[simp] theorem State.setCounter_cores (x : Group) : (s.setCounter x).cores = s.cores := rfl
@[simp] theorem State.setCounter_mem (x : Group) : (s.setCounter x).mem = s.mem := rfl
@[simp] theorem State.setCounter_tags (x : Group) : (s.setCounter x).tags = s.tags := rfl
@[simp] theorem State.setCounter_tier (x : Group) : (s.setCounter x).tier = { s.tier with groups := x :: s.tier.groups.filter fun y => y.group ≠ x.group } := rfl
@[simp] theorem State.setCounter_queue (x : Group) : (s.setCounter x).queue = s.queue := rfl
@[simp] theorem State.setCounter_oper (x : Group) : (s.setCounter x).oper = s.oper := rfl
@[simp] theorem State.setCounter_sec (x : Group) : (s.setCounter x).sec = s.sec := rfl
@[simp] theorem State.setCounter_thx (x : Group) : (s.setCounter x).thx = s.thx := rfl
@[simp] theorem State.setCounter_fleet (x : Group) : (s.setCounter x).fleet = s.fleet := rfl

/-! addAway -/
@[simp] theorem State.addAway_clock (l : OffLine) : (s.addAway l).clock = s.clock := rfl
@[simp] theorem State.addAway_cur (l : OffLine) : (s.addAway l).cur = s.cur := rfl
@[simp] theorem State.addAway_agenda (l : OffLine) : (s.addAway l).agenda = s.agenda := rfl
@[simp] theorem State.addAway_draws (l : OffLine) : (s.addAway l).draws = s.draws := rfl
@[simp] theorem State.addAway_nextId (l : OffLine) : (s.addAway l).nextId = s.nextId := rfl
@[simp] theorem State.addAway_turns (l : OffLine) : (s.addAway l).turns = s.turns := rfl
@[simp] theorem State.addAway_ttNext (l : OffLine) : (s.addAway l).ttNext = s.ttNext := rfl
@[simp] theorem State.addAway_slots (l : OffLine) : (s.addAway l).slots = s.slots := rfl
@[simp] theorem State.addAway_flights (l : OffLine) : (s.addAway l).flights = s.flights := rfl
@[simp] theorem State.addAway_remains (l : OffLine) : (s.addAway l).remains = s.remains := rfl
@[simp] theorem State.addAway_launches (l : OffLine) : (s.addAway l).launches = s.launches := rfl
@[simp] theorem State.addAway_kernels (l : OffLine) : (s.addAway l).kernels = s.kernels := rfl
@[simp] theorem State.addAway_cores (l : OffLine) : (s.addAway l).cores = s.cores := rfl
@[simp] theorem State.addAway_mem (l : OffLine) : (s.addAway l).mem = s.mem := rfl
@[simp] theorem State.addAway_tags (l : OffLine) : (s.addAway l).tags = s.tags := rfl
@[simp] theorem State.addAway_tier (l : OffLine) : (s.addAway l).tier = { s.tier with offpkg := l :: s.tier.offpkg.filter fun x => x.line ≠ l.line } := rfl
@[simp] theorem State.addAway_queue (l : OffLine) : (s.addAway l).queue = s.queue := rfl
@[simp] theorem State.addAway_oper (l : OffLine) : (s.addAway l).oper = s.oper := rfl
@[simp] theorem State.addAway_sec (l : OffLine) : (s.addAway l).sec = s.sec := rfl
@[simp] theorem State.addAway_thx (l : OffLine) : (s.addAway l).thx = s.thx := rfl
@[simp] theorem State.addAway_fleet (l : OffLine) : (s.addAway l).fleet = s.fleet := rfl

/-! setCore -/
@[simp] theorem State.setCore_clock (c : Nat) (x : Core) : (s.setCore c x).clock = s.clock := rfl
@[simp] theorem State.setCore_cur (c : Nat) (x : Core) : (s.setCore c x).cur = s.cur := rfl
@[simp] theorem State.setCore_agenda (c : Nat) (x : Core) : (s.setCore c x).agenda = s.agenda := rfl
@[simp] theorem State.setCore_draws (c : Nat) (x : Core) : (s.setCore c x).draws = s.draws := rfl
@[simp] theorem State.setCore_nextId (c : Nat) (x : Core) : (s.setCore c x).nextId = s.nextId := rfl
@[simp] theorem State.setCore_turns (c : Nat) (x : Core) : (s.setCore c x).turns = s.turns := rfl
@[simp] theorem State.setCore_ttNext (c : Nat) (x : Core) : (s.setCore c x).ttNext = s.ttNext := rfl
@[simp] theorem State.setCore_slots (c : Nat) (x : Core) : (s.setCore c x).slots = s.slots := rfl
@[simp] theorem State.setCore_flights (c : Nat) (x : Core) : (s.setCore c x).flights = s.flights := rfl
@[simp] theorem State.setCore_remains (c : Nat) (x : Core) : (s.setCore c x).remains = s.remains := rfl
@[simp] theorem State.setCore_launches (c : Nat) (x : Core) : (s.setCore c x).launches = s.launches := rfl
@[simp] theorem State.setCore_kernels (c : Nat) (x : Core) : (s.setCore c x).kernels = s.kernels := rfl
@[simp] theorem State.setCore_cores (c : Nat) (x : Core) : (s.setCore c x).cores = s.cores.set c x := rfl
@[simp] theorem State.setCore_mem (c : Nat) (x : Core) : (s.setCore c x).mem = s.mem := rfl
@[simp] theorem State.setCore_tags (c : Nat) (x : Core) : (s.setCore c x).tags = s.tags := rfl
@[simp] theorem State.setCore_tier (c : Nat) (x : Core) : (s.setCore c x).tier = s.tier := rfl
@[simp] theorem State.setCore_queue (c : Nat) (x : Core) : (s.setCore c x).queue = s.queue := rfl
@[simp] theorem State.setCore_oper (c : Nat) (x : Core) : (s.setCore c x).oper = s.oper := rfl
@[simp] theorem State.setCore_sec (c : Nat) (x : Core) : (s.setCore c x).sec = s.sec := rfl
@[simp] theorem State.setCore_thx (c : Nat) (x : Core) : (s.setCore c x).thx = s.thx := rfl
@[simp] theorem State.setCore_fleet (c : Nat) (x : Core) : (s.setCore c x).fleet = s.fleet := rfl

/-! modCore -/
@[simp] theorem State.modCore_clock (c : Nat) (f : Core → Core) : (s.modCore c f).clock = s.clock := rfl
@[simp] theorem State.modCore_cur (c : Nat) (f : Core → Core) : (s.modCore c f).cur = s.cur := rfl
@[simp] theorem State.modCore_agenda (c : Nat) (f : Core → Core) : (s.modCore c f).agenda = s.agenda := rfl
@[simp] theorem State.modCore_draws (c : Nat) (f : Core → Core) : (s.modCore c f).draws = s.draws := rfl
@[simp] theorem State.modCore_nextId (c : Nat) (f : Core → Core) : (s.modCore c f).nextId = s.nextId := rfl
@[simp] theorem State.modCore_turns (c : Nat) (f : Core → Core) : (s.modCore c f).turns = s.turns := rfl
@[simp] theorem State.modCore_ttNext (c : Nat) (f : Core → Core) : (s.modCore c f).ttNext = s.ttNext := rfl
@[simp] theorem State.modCore_slots (c : Nat) (f : Core → Core) : (s.modCore c f).slots = s.slots := rfl
@[simp] theorem State.modCore_flights (c : Nat) (f : Core → Core) : (s.modCore c f).flights = s.flights := rfl
@[simp] theorem State.modCore_remains (c : Nat) (f : Core → Core) : (s.modCore c f).remains = s.remains := rfl
@[simp] theorem State.modCore_launches (c : Nat) (f : Core → Core) : (s.modCore c f).launches = s.launches := rfl
@[simp] theorem State.modCore_kernels (c : Nat) (f : Core → Core) : (s.modCore c f).kernels = s.kernels := rfl
@[simp] theorem State.modCore_cores (c : Nat) (f : Core → Core) : (s.modCore c f).cores = s.cores.set c (f (s.core c)) := rfl
@[simp] theorem State.modCore_mem (c : Nat) (f : Core → Core) : (s.modCore c f).mem = s.mem := rfl
@[simp] theorem State.modCore_tags (c : Nat) (f : Core → Core) : (s.modCore c f).tags = s.tags := rfl
@[simp] theorem State.modCore_tier (c : Nat) (f : Core → Core) : (s.modCore c f).tier = s.tier := rfl
@[simp] theorem State.modCore_queue (c : Nat) (f : Core → Core) : (s.modCore c f).queue = s.queue := rfl
@[simp] theorem State.modCore_oper (c : Nat) (f : Core → Core) : (s.modCore c f).oper = s.oper := rfl
@[simp] theorem State.modCore_sec (c : Nat) (f : Core → Core) : (s.modCore c f).sec = s.sec := rfl
@[simp] theorem State.modCore_thx (c : Nat) (f : Core → Core) : (s.modCore c f).thx = s.thx := rfl
@[simp] theorem State.modCore_fleet (c : Nat) (f : Core → Core) : (s.modCore c f).fleet = s.fleet := rfl

/-! modSlot -/
@[simp] theorem State.modSlot_clock (core num : Nat) (f : Slot → Slot) : (s.modSlot core num f).clock = s.clock := rfl
@[simp] theorem State.modSlot_cur (core num : Nat) (f : Slot → Slot) : (s.modSlot core num f).cur = s.cur := rfl
@[simp] theorem State.modSlot_agenda (core num : Nat) (f : Slot → Slot) : (s.modSlot core num f).agenda = s.agenda := rfl
@[simp] theorem State.modSlot_draws (core num : Nat) (f : Slot → Slot) : (s.modSlot core num f).draws = s.draws := rfl
@[simp] theorem State.modSlot_nextId (core num : Nat) (f : Slot → Slot) : (s.modSlot core num f).nextId = s.nextId := rfl
@[simp] theorem State.modSlot_turns (core num : Nat) (f : Slot → Slot) : (s.modSlot core num f).turns = s.turns := rfl
@[simp] theorem State.modSlot_ttNext (core num : Nat) (f : Slot → Slot) : (s.modSlot core num f).ttNext = s.ttNext := rfl
@[simp] theorem State.modSlot_slots (core num : Nat) (f : Slot → Slot) : (s.modSlot core num f).slots = s.slots.map fun x => if x.core = core ∧ x.num = num then f x else x := rfl
@[simp] theorem State.modSlot_flights (core num : Nat) (f : Slot → Slot) : (s.modSlot core num f).flights = s.flights := rfl
@[simp] theorem State.modSlot_remains (core num : Nat) (f : Slot → Slot) : (s.modSlot core num f).remains = s.remains := rfl
@[simp] theorem State.modSlot_launches (core num : Nat) (f : Slot → Slot) : (s.modSlot core num f).launches = s.launches := rfl
@[simp] theorem State.modSlot_kernels (core num : Nat) (f : Slot → Slot) : (s.modSlot core num f).kernels = s.kernels := rfl
@[simp] theorem State.modSlot_cores (core num : Nat) (f : Slot → Slot) : (s.modSlot core num f).cores = s.cores := rfl
@[simp] theorem State.modSlot_mem (core num : Nat) (f : Slot → Slot) : (s.modSlot core num f).mem = s.mem := rfl
@[simp] theorem State.modSlot_tags (core num : Nat) (f : Slot → Slot) : (s.modSlot core num f).tags = s.tags := rfl
@[simp] theorem State.modSlot_tier (core num : Nat) (f : Slot → Slot) : (s.modSlot core num f).tier = s.tier := rfl
@[simp] theorem State.modSlot_queue (core num : Nat) (f : Slot → Slot) : (s.modSlot core num f).queue = s.queue := rfl
@[simp] theorem State.modSlot_oper (core num : Nat) (f : Slot → Slot) : (s.modSlot core num f).oper = s.oper := rfl
@[simp] theorem State.modSlot_sec (core num : Nat) (f : Slot → Slot) : (s.modSlot core num f).sec = s.sec := rfl
@[simp] theorem State.modSlot_thx (core num : Nat) (f : Slot → Slot) : (s.modSlot core num f).thx = s.thx := rfl
@[simp] theorem State.modSlot_fleet (core num : Nat) (f : Slot → Slot) : (s.modSlot core num f).fleet = s.fleet := rfl

/-! modEntry -/
@[simp] theorem State.modEntry_clock (r : EntryRef) (f : Entry → Entry) : (s.modEntry r f).clock = s.clock := rfl
@[simp] theorem State.modEntry_cur (r : EntryRef) (f : Entry → Entry) : (s.modEntry r f).cur = s.cur := rfl
@[simp] theorem State.modEntry_agenda (r : EntryRef) (f : Entry → Entry) : (s.modEntry r f).agenda = s.agenda := rfl
@[simp] theorem State.modEntry_draws (r : EntryRef) (f : Entry → Entry) : (s.modEntry r f).draws = s.draws := rfl
@[simp] theorem State.modEntry_nextId (r : EntryRef) (f : Entry → Entry) : (s.modEntry r f).nextId = s.nextId := rfl
@[simp] theorem State.modEntry_turns (r : EntryRef) (f : Entry → Entry) : (s.modEntry r f).turns = s.turns := rfl
@[simp] theorem State.modEntry_ttNext (r : EntryRef) (f : Entry → Entry) : (s.modEntry r f).ttNext = s.ttNext := rfl
@[simp] theorem State.modEntry_slots (r : EntryRef) (f : Entry → Entry) : (s.modEntry r f).slots = s.slots.map fun x => if x.core = r.core ∧ x.num = r.slot then x.modEntry r.pos f else x := rfl
@[simp] theorem State.modEntry_flights (r : EntryRef) (f : Entry → Entry) : (s.modEntry r f).flights = s.flights := rfl
@[simp] theorem State.modEntry_remains (r : EntryRef) (f : Entry → Entry) : (s.modEntry r f).remains = s.remains := rfl
@[simp] theorem State.modEntry_launches (r : EntryRef) (f : Entry → Entry) : (s.modEntry r f).launches = s.launches := rfl
@[simp] theorem State.modEntry_kernels (r : EntryRef) (f : Entry → Entry) : (s.modEntry r f).kernels = s.kernels := rfl
@[simp] theorem State.modEntry_cores (r : EntryRef) (f : Entry → Entry) : (s.modEntry r f).cores = s.cores := rfl
@[simp] theorem State.modEntry_mem (r : EntryRef) (f : Entry → Entry) : (s.modEntry r f).mem = s.mem := rfl
@[simp] theorem State.modEntry_tags (r : EntryRef) (f : Entry → Entry) : (s.modEntry r f).tags = s.tags := rfl
@[simp] theorem State.modEntry_tier (r : EntryRef) (f : Entry → Entry) : (s.modEntry r f).tier = s.tier := rfl
@[simp] theorem State.modEntry_queue (r : EntryRef) (f : Entry → Entry) : (s.modEntry r f).queue = s.queue := rfl
@[simp] theorem State.modEntry_oper (r : EntryRef) (f : Entry → Entry) : (s.modEntry r f).oper = s.oper := rfl
@[simp] theorem State.modEntry_sec (r : EntryRef) (f : Entry → Entry) : (s.modEntry r f).sec = s.sec := rfl
@[simp] theorem State.modEntry_thx (r : EntryRef) (f : Entry → Entry) : (s.modEntry r f).thx = s.thx := rfl
@[simp] theorem State.modEntry_fleet (r : EntryRef) (f : Entry → Entry) : (s.modEntry r f).fleet = s.fleet := rfl

/-! setEntry -/
@[simp] theorem State.setEntry_clock (r : EntryRef) (e : Entry) : (s.setEntry r e).clock = s.clock := rfl
@[simp] theorem State.setEntry_cur (r : EntryRef) (e : Entry) : (s.setEntry r e).cur = s.cur := rfl
@[simp] theorem State.setEntry_agenda (r : EntryRef) (e : Entry) : (s.setEntry r e).agenda = s.agenda := rfl
@[simp] theorem State.setEntry_draws (r : EntryRef) (e : Entry) : (s.setEntry r e).draws = s.draws := rfl
@[simp] theorem State.setEntry_nextId (r : EntryRef) (e : Entry) : (s.setEntry r e).nextId = s.nextId := rfl
@[simp] theorem State.setEntry_turns (r : EntryRef) (e : Entry) : (s.setEntry r e).turns = s.turns := rfl
@[simp] theorem State.setEntry_ttNext (r : EntryRef) (e : Entry) : (s.setEntry r e).ttNext = s.ttNext := rfl
@[simp] theorem State.setEntry_slots (r : EntryRef) (e : Entry) : (s.setEntry r e).slots = s.slots.map fun x => if x.core = r.core ∧ x.num = r.slot then x.modEntry r.pos fun _ => e else x := rfl
@[simp] theorem State.setEntry_flights (r : EntryRef) (e : Entry) : (s.setEntry r e).flights = s.flights := rfl
@[simp] theorem State.setEntry_remains (r : EntryRef) (e : Entry) : (s.setEntry r e).remains = s.remains := rfl
@[simp] theorem State.setEntry_launches (r : EntryRef) (e : Entry) : (s.setEntry r e).launches = s.launches := rfl
@[simp] theorem State.setEntry_kernels (r : EntryRef) (e : Entry) : (s.setEntry r e).kernels = s.kernels := rfl
@[simp] theorem State.setEntry_cores (r : EntryRef) (e : Entry) : (s.setEntry r e).cores = s.cores := rfl
@[simp] theorem State.setEntry_mem (r : EntryRef) (e : Entry) : (s.setEntry r e).mem = s.mem := rfl
@[simp] theorem State.setEntry_tags (r : EntryRef) (e : Entry) : (s.setEntry r e).tags = s.tags := rfl
@[simp] theorem State.setEntry_tier (r : EntryRef) (e : Entry) : (s.setEntry r e).tier = s.tier := rfl
@[simp] theorem State.setEntry_queue (r : EntryRef) (e : Entry) : (s.setEntry r e).queue = s.queue := rfl
@[simp] theorem State.setEntry_oper (r : EntryRef) (e : Entry) : (s.setEntry r e).oper = s.oper := rfl
@[simp] theorem State.setEntry_sec (r : EntryRef) (e : Entry) : (s.setEntry r e).sec = s.sec := rfl
@[simp] theorem State.setEntry_thx (r : EntryRef) (e : Entry) : (s.setEntry r e).thx = s.thx := rfl
@[simp] theorem State.setEntry_fleet (r : EntryRef) (e : Entry) : (s.setEntry r e).fleet = s.fleet := rfl

/-! mapEntries -/
@[simp] theorem State.mapEntries_clock (f : Slot → Entry → Entry) : (s.mapEntries f).clock = s.clock := rfl
@[simp] theorem State.mapEntries_cur (f : Slot → Entry → Entry) : (s.mapEntries f).cur = s.cur := rfl
@[simp] theorem State.mapEntries_agenda (f : Slot → Entry → Entry) : (s.mapEntries f).agenda = s.agenda := rfl
@[simp] theorem State.mapEntries_draws (f : Slot → Entry → Entry) : (s.mapEntries f).draws = s.draws := rfl
@[simp] theorem State.mapEntries_nextId (f : Slot → Entry → Entry) : (s.mapEntries f).nextId = s.nextId := rfl
@[simp] theorem State.mapEntries_turns (f : Slot → Entry → Entry) : (s.mapEntries f).turns = s.turns := rfl
@[simp] theorem State.mapEntries_ttNext (f : Slot → Entry → Entry) : (s.mapEntries f).ttNext = s.ttNext := rfl
@[simp] theorem State.mapEntries_flights (f : Slot → Entry → Entry) : (s.mapEntries f).flights = s.flights := rfl
@[simp] theorem State.mapEntries_remains (f : Slot → Entry → Entry) : (s.mapEntries f).remains = s.remains := rfl
@[simp] theorem State.mapEntries_launches (f : Slot → Entry → Entry) : (s.mapEntries f).launches = s.launches := rfl
@[simp] theorem State.mapEntries_kernels (f : Slot → Entry → Entry) : (s.mapEntries f).kernels = s.kernels := rfl
@[simp] theorem State.mapEntries_cores (f : Slot → Entry → Entry) : (s.mapEntries f).cores = s.cores := rfl
@[simp] theorem State.mapEntries_mem (f : Slot → Entry → Entry) : (s.mapEntries f).mem = s.mem := rfl
@[simp] theorem State.mapEntries_tags (f : Slot → Entry → Entry) : (s.mapEntries f).tags = s.tags := rfl
@[simp] theorem State.mapEntries_tier (f : Slot → Entry → Entry) : (s.mapEntries f).tier = s.tier := rfl
@[simp] theorem State.mapEntries_queue (f : Slot → Entry → Entry) : (s.mapEntries f).queue = s.queue := rfl
@[simp] theorem State.mapEntries_oper (f : Slot → Entry → Entry) : (s.mapEntries f).oper = s.oper := rfl
@[simp] theorem State.mapEntries_sec (f : Slot → Entry → Entry) : (s.mapEntries f).sec = s.sec := rfl
@[simp] theorem State.mapEntries_thx (f : Slot → Entry → Entry) : (s.mapEntries f).thx = s.thx := rfl
@[simp] theorem State.mapEntries_fleet (f : Slot → Entry → Entry) : (s.mapEntries f).fleet = s.fleet := rfl

/-! yielded -/
@[simp] theorem State.yielded_clock (r : EntryRef) : (s.yielded r).clock = s.clock := rfl
@[simp] theorem State.yielded_cur (r : EntryRef) : (s.yielded r).cur = s.cur := rfl
@[simp] theorem State.yielded_agenda (r : EntryRef) : (s.yielded r).agenda = s.agenda := rfl
@[simp] theorem State.yielded_draws (r : EntryRef) : (s.yielded r).draws = s.draws := rfl
@[simp] theorem State.yielded_nextId (r : EntryRef) : (s.yielded r).nextId = s.nextId := rfl
@[simp] theorem State.yielded_turns (r : EntryRef) : (s.yielded r).turns = s.turns := rfl
@[simp] theorem State.yielded_ttNext (r : EntryRef) : (s.yielded r).ttNext = s.ttNext := rfl
@[simp] theorem State.yielded_flights (r : EntryRef) : (s.yielded r).flights = s.flights := rfl
@[simp] theorem State.yielded_remains (r : EntryRef) : (s.yielded r).remains = s.remains := rfl
@[simp] theorem State.yielded_launches (r : EntryRef) : (s.yielded r).launches = s.launches := rfl
@[simp] theorem State.yielded_kernels (r : EntryRef) : (s.yielded r).kernels = s.kernels := rfl
@[simp] theorem State.yielded_cores (r : EntryRef) : (s.yielded r).cores = s.cores := rfl
@[simp] theorem State.yielded_mem (r : EntryRef) : (s.yielded r).mem = s.mem := rfl
@[simp] theorem State.yielded_tags (r : EntryRef) : (s.yielded r).tags = s.tags := rfl
@[simp] theorem State.yielded_tier (r : EntryRef) : (s.yielded r).tier = s.tier := rfl
@[simp] theorem State.yielded_queue (r : EntryRef) : (s.yielded r).queue = s.queue := rfl
@[simp] theorem State.yielded_oper (r : EntryRef) : (s.yielded r).oper = s.oper := rfl
@[simp] theorem State.yielded_sec (r : EntryRef) : (s.yielded r).sec = s.sec := rfl
@[simp] theorem State.yielded_thx (r : EntryRef) : (s.yielded r).thx = s.thx := rfl
@[simp] theorem State.yielded_fleet (r : EntryRef) : (s.yielded r).fleet = s.fleet := rfl

/-! modFlight -/
@[simp] theorem State.modFlight_clock (id : Nat) (f : Flight → Flight) : (s.modFlight id f).clock = s.clock := rfl
@[simp] theorem State.modFlight_cur (id : Nat) (f : Flight → Flight) : (s.modFlight id f).cur = s.cur := rfl
@[simp] theorem State.modFlight_agenda (id : Nat) (f : Flight → Flight) : (s.modFlight id f).agenda = s.agenda := rfl
@[simp] theorem State.modFlight_draws (id : Nat) (f : Flight → Flight) : (s.modFlight id f).draws = s.draws := rfl
@[simp] theorem State.modFlight_nextId (id : Nat) (f : Flight → Flight) : (s.modFlight id f).nextId = s.nextId := rfl
@[simp] theorem State.modFlight_turns (id : Nat) (f : Flight → Flight) : (s.modFlight id f).turns = s.turns := rfl
@[simp] theorem State.modFlight_ttNext (id : Nat) (f : Flight → Flight) : (s.modFlight id f).ttNext = s.ttNext := rfl
@[simp] theorem State.modFlight_slots (id : Nat) (f : Flight → Flight) : (s.modFlight id f).slots = s.slots := rfl
@[simp] theorem State.modFlight_flights (id : Nat) (f : Flight → Flight) : (s.modFlight id f).flights = s.flights.map fun x => if x.id = id then f x else x := rfl
@[simp] theorem State.modFlight_remains (id : Nat) (f : Flight → Flight) : (s.modFlight id f).remains = s.remains := rfl
@[simp] theorem State.modFlight_launches (id : Nat) (f : Flight → Flight) : (s.modFlight id f).launches = s.launches := rfl
@[simp] theorem State.modFlight_kernels (id : Nat) (f : Flight → Flight) : (s.modFlight id f).kernels = s.kernels := rfl
@[simp] theorem State.modFlight_cores (id : Nat) (f : Flight → Flight) : (s.modFlight id f).cores = s.cores := rfl
@[simp] theorem State.modFlight_mem (id : Nat) (f : Flight → Flight) : (s.modFlight id f).mem = s.mem := rfl
@[simp] theorem State.modFlight_tags (id : Nat) (f : Flight → Flight) : (s.modFlight id f).tags = s.tags := rfl
@[simp] theorem State.modFlight_tier (id : Nat) (f : Flight → Flight) : (s.modFlight id f).tier = s.tier := rfl
@[simp] theorem State.modFlight_queue (id : Nat) (f : Flight → Flight) : (s.modFlight id f).queue = s.queue := rfl
@[simp] theorem State.modFlight_oper (id : Nat) (f : Flight → Flight) : (s.modFlight id f).oper = s.oper := rfl
@[simp] theorem State.modFlight_sec (id : Nat) (f : Flight → Flight) : (s.modFlight id f).sec = s.sec := rfl
@[simp] theorem State.modFlight_thx (id : Nat) (f : Flight → Flight) : (s.modFlight id f).thx = s.thx := rfl
@[simp] theorem State.modFlight_fleet (id : Nat) (f : Flight → Flight) : (s.modFlight id f).fleet = s.fleet := rfl

/-! modLaunch -/
@[simp] theorem State.modLaunch_clock (tag : Nat) (f : Launch → Launch) : (s.modLaunch tag f).clock = s.clock := rfl
@[simp] theorem State.modLaunch_cur (tag : Nat) (f : Launch → Launch) : (s.modLaunch tag f).cur = s.cur := rfl
@[simp] theorem State.modLaunch_agenda (tag : Nat) (f : Launch → Launch) : (s.modLaunch tag f).agenda = s.agenda := rfl
@[simp] theorem State.modLaunch_draws (tag : Nat) (f : Launch → Launch) : (s.modLaunch tag f).draws = s.draws := rfl
@[simp] theorem State.modLaunch_nextId (tag : Nat) (f : Launch → Launch) : (s.modLaunch tag f).nextId = s.nextId := rfl
@[simp] theorem State.modLaunch_turns (tag : Nat) (f : Launch → Launch) : (s.modLaunch tag f).turns = s.turns := rfl
@[simp] theorem State.modLaunch_ttNext (tag : Nat) (f : Launch → Launch) : (s.modLaunch tag f).ttNext = s.ttNext := rfl
@[simp] theorem State.modLaunch_slots (tag : Nat) (f : Launch → Launch) : (s.modLaunch tag f).slots = s.slots := rfl
@[simp] theorem State.modLaunch_flights (tag : Nat) (f : Launch → Launch) : (s.modLaunch tag f).flights = s.flights := rfl
@[simp] theorem State.modLaunch_remains (tag : Nat) (f : Launch → Launch) : (s.modLaunch tag f).remains = s.remains := rfl
@[simp] theorem State.modLaunch_launches (tag : Nat) (f : Launch → Launch) : (s.modLaunch tag f).launches = s.launches.map fun x => if x.tag = tag then f x else x := rfl
@[simp] theorem State.modLaunch_kernels (tag : Nat) (f : Launch → Launch) : (s.modLaunch tag f).kernels = s.kernels := rfl
@[simp] theorem State.modLaunch_cores (tag : Nat) (f : Launch → Launch) : (s.modLaunch tag f).cores = s.cores := rfl
@[simp] theorem State.modLaunch_mem (tag : Nat) (f : Launch → Launch) : (s.modLaunch tag f).mem = s.mem := rfl
@[simp] theorem State.modLaunch_tags (tag : Nat) (f : Launch → Launch) : (s.modLaunch tag f).tags = s.tags := rfl
@[simp] theorem State.modLaunch_tier (tag : Nat) (f : Launch → Launch) : (s.modLaunch tag f).tier = s.tier := rfl
@[simp] theorem State.modLaunch_queue (tag : Nat) (f : Launch → Launch) : (s.modLaunch tag f).queue = s.queue := rfl
@[simp] theorem State.modLaunch_oper (tag : Nat) (f : Launch → Launch) : (s.modLaunch tag f).oper = s.oper := rfl
@[simp] theorem State.modLaunch_sec (tag : Nat) (f : Launch → Launch) : (s.modLaunch tag f).sec = s.sec := rfl
@[simp] theorem State.modLaunch_thx (tag : Nat) (f : Launch → Launch) : (s.modLaunch tag f).thx = s.thx := rfl
@[simp] theorem State.modLaunch_fleet (tag : Nat) (f : Launch → Launch) : (s.modLaunch tag f).fleet = s.fleet := rfl

/-! modFn -/
@[simp] theorem State.modFn_clock (n : Nat) (g : FnBlock → FnBlock) : (s.modFn n g).clock = s.clock := rfl
@[simp] theorem State.modFn_cur (n : Nat) (g : FnBlock → FnBlock) : (s.modFn n g).cur = s.cur := rfl
@[simp] theorem State.modFn_agenda (n : Nat) (g : FnBlock → FnBlock) : (s.modFn n g).agenda = s.agenda := rfl
@[simp] theorem State.modFn_draws (n : Nat) (g : FnBlock → FnBlock) : (s.modFn n g).draws = s.draws := rfl
@[simp] theorem State.modFn_nextId (n : Nat) (g : FnBlock → FnBlock) : (s.modFn n g).nextId = s.nextId := rfl
@[simp] theorem State.modFn_turns (n : Nat) (g : FnBlock → FnBlock) : (s.modFn n g).turns = s.turns := rfl
@[simp] theorem State.modFn_ttNext (n : Nat) (g : FnBlock → FnBlock) : (s.modFn n g).ttNext = s.ttNext := rfl
@[simp] theorem State.modFn_slots (n : Nat) (g : FnBlock → FnBlock) : (s.modFn n g).slots = s.slots := rfl
@[simp] theorem State.modFn_flights (n : Nat) (g : FnBlock → FnBlock) : (s.modFn n g).flights = s.flights := rfl
@[simp] theorem State.modFn_remains (n : Nat) (g : FnBlock → FnBlock) : (s.modFn n g).remains = s.remains := rfl
@[simp] theorem State.modFn_launches (n : Nat) (g : FnBlock → FnBlock) : (s.modFn n g).launches = s.launches := rfl
@[simp] theorem State.modFn_kernels (n : Nat) (g : FnBlock → FnBlock) : (s.modFn n g).kernels = s.kernels := rfl
@[simp] theorem State.modFn_cores (n : Nat) (g : FnBlock → FnBlock) : (s.modFn n g).cores = s.cores := rfl
@[simp] theorem State.modFn_mem (n : Nat) (g : FnBlock → FnBlock) : (s.modFn n g).mem = s.mem := rfl
@[simp] theorem State.modFn_tags (n : Nat) (g : FnBlock → FnBlock) : (s.modFn n g).tags = s.tags := rfl
@[simp] theorem State.modFn_tier (n : Nat) (g : FnBlock → FnBlock) : (s.modFn n g).tier = s.tier := rfl
@[simp] theorem State.modFn_queue (n : Nat) (g : FnBlock → FnBlock) : (s.modFn n g).queue = { s.queue with fns := s.queue.fns.set n (g (s.fnBlock n)) } := rfl
@[simp] theorem State.modFn_oper (n : Nat) (g : FnBlock → FnBlock) : (s.modFn n g).oper = s.oper := rfl
@[simp] theorem State.modFn_sec (n : Nat) (g : FnBlock → FnBlock) : (s.modFn n g).sec = s.sec := rfl
@[simp] theorem State.modFn_thx (n : Nat) (g : FnBlock → FnBlock) : (s.modFn n g).thx = s.thx := rfl
@[simp] theorem State.modFn_fleet (n : Nat) (g : FnBlock → FnBlock) : (s.modFn n g).fleet = s.fleet := rfl

/-! modQcb -/
@[simp] theorem State.modQcb_clock (fn qid : Nat) (f : Qcb → Qcb) : (s.modQcb fn qid f).clock = s.clock := rfl
@[simp] theorem State.modQcb_cur (fn qid : Nat) (f : Qcb → Qcb) : (s.modQcb fn qid f).cur = s.cur := rfl
@[simp] theorem State.modQcb_agenda (fn qid : Nat) (f : Qcb → Qcb) : (s.modQcb fn qid f).agenda = s.agenda := rfl
@[simp] theorem State.modQcb_draws (fn qid : Nat) (f : Qcb → Qcb) : (s.modQcb fn qid f).draws = s.draws := rfl
@[simp] theorem State.modQcb_nextId (fn qid : Nat) (f : Qcb → Qcb) : (s.modQcb fn qid f).nextId = s.nextId := rfl
@[simp] theorem State.modQcb_turns (fn qid : Nat) (f : Qcb → Qcb) : (s.modQcb fn qid f).turns = s.turns := rfl
@[simp] theorem State.modQcb_ttNext (fn qid : Nat) (f : Qcb → Qcb) : (s.modQcb fn qid f).ttNext = s.ttNext := rfl
@[simp] theorem State.modQcb_slots (fn qid : Nat) (f : Qcb → Qcb) : (s.modQcb fn qid f).slots = s.slots := rfl
@[simp] theorem State.modQcb_flights (fn qid : Nat) (f : Qcb → Qcb) : (s.modQcb fn qid f).flights = s.flights := rfl
@[simp] theorem State.modQcb_remains (fn qid : Nat) (f : Qcb → Qcb) : (s.modQcb fn qid f).remains = s.remains := rfl
@[simp] theorem State.modQcb_launches (fn qid : Nat) (f : Qcb → Qcb) : (s.modQcb fn qid f).launches = s.launches := rfl
@[simp] theorem State.modQcb_kernels (fn qid : Nat) (f : Qcb → Qcb) : (s.modQcb fn qid f).kernels = s.kernels := rfl
@[simp] theorem State.modQcb_cores (fn qid : Nat) (f : Qcb → Qcb) : (s.modQcb fn qid f).cores = s.cores := rfl
@[simp] theorem State.modQcb_mem (fn qid : Nat) (f : Qcb → Qcb) : (s.modQcb fn qid f).mem = s.mem := rfl
@[simp] theorem State.modQcb_tags (fn qid : Nat) (f : Qcb → Qcb) : (s.modQcb fn qid f).tags = s.tags := rfl
@[simp] theorem State.modQcb_tier (fn qid : Nat) (f : Qcb → Qcb) : (s.modQcb fn qid f).tier = s.tier := rfl
@[simp] theorem State.modQcb_oper (fn qid : Nat) (f : Qcb → Qcb) : (s.modQcb fn qid f).oper = s.oper := rfl
@[simp] theorem State.modQcb_sec (fn qid : Nat) (f : Qcb → Qcb) : (s.modQcb fn qid f).sec = s.sec := rfl
@[simp] theorem State.modQcb_thx (fn qid : Nat) (f : Qcb → Qcb) : (s.modQcb fn qid f).thx = s.thx := rfl
@[simp] theorem State.modQcb_fleet (fn qid : Nat) (f : Qcb → Qcb) : (s.modQcb fn qid f).fleet = s.fleet := rfl

/-! modPart -/
@[simp] theorem State.modPart_clock (p : Nat) (g : Partition → Partition) : (s.modPart p g).clock = s.clock := rfl
@[simp] theorem State.modPart_cur (p : Nat) (g : Partition → Partition) : (s.modPart p g).cur = s.cur := rfl
@[simp] theorem State.modPart_agenda (p : Nat) (g : Partition → Partition) : (s.modPart p g).agenda = s.agenda := rfl
@[simp] theorem State.modPart_draws (p : Nat) (g : Partition → Partition) : (s.modPart p g).draws = s.draws := rfl
@[simp] theorem State.modPart_nextId (p : Nat) (g : Partition → Partition) : (s.modPart p g).nextId = s.nextId := rfl
@[simp] theorem State.modPart_turns (p : Nat) (g : Partition → Partition) : (s.modPart p g).turns = s.turns := rfl
@[simp] theorem State.modPart_ttNext (p : Nat) (g : Partition → Partition) : (s.modPart p g).ttNext = s.ttNext := rfl
@[simp] theorem State.modPart_slots (p : Nat) (g : Partition → Partition) : (s.modPart p g).slots = s.slots := rfl
@[simp] theorem State.modPart_flights (p : Nat) (g : Partition → Partition) : (s.modPart p g).flights = s.flights := rfl
@[simp] theorem State.modPart_remains (p : Nat) (g : Partition → Partition) : (s.modPart p g).remains = s.remains := rfl
@[simp] theorem State.modPart_launches (p : Nat) (g : Partition → Partition) : (s.modPart p g).launches = s.launches := rfl
@[simp] theorem State.modPart_kernels (p : Nat) (g : Partition → Partition) : (s.modPart p g).kernels = s.kernels := rfl
@[simp] theorem State.modPart_cores (p : Nat) (g : Partition → Partition) : (s.modPart p g).cores = s.cores := rfl
@[simp] theorem State.modPart_mem (p : Nat) (g : Partition → Partition) : (s.modPart p g).mem = s.mem := rfl
@[simp] theorem State.modPart_tags (p : Nat) (g : Partition → Partition) : (s.modPart p g).tags = s.tags := rfl
@[simp] theorem State.modPart_tier (p : Nat) (g : Partition → Partition) : (s.modPart p g).tier = s.tier := rfl
@[simp] theorem State.modPart_queue (p : Nat) (g : Partition → Partition) : (s.modPart p g).queue = s.queue := rfl
@[simp] theorem State.modPart_oper (p : Nat) (g : Partition → Partition) : (s.modPart p g).oper = { s.oper with parts := s.oper.parts.set p (g (s.part p)) } := rfl
@[simp] theorem State.modPart_sec (p : Nat) (g : Partition → Partition) : (s.modPart p g).sec = s.sec := rfl
@[simp] theorem State.modPart_thx (p : Nat) (g : Partition → Partition) : (s.modPart p g).thx = s.thx := rfl
@[simp] theorem State.modPart_fleet (p : Nat) (g : Partition → Partition) : (s.modPart p g).fleet = s.fleet := rfl

/-! setTdi -/
@[simp] theorem State.setTdi_clock (fn : Nat) (t : Tdi) : (s.setTdi fn t).clock = s.clock := rfl
@[simp] theorem State.setTdi_cur (fn : Nat) (t : Tdi) : (s.setTdi fn t).cur = s.cur := rfl
@[simp] theorem State.setTdi_agenda (fn : Nat) (t : Tdi) : (s.setTdi fn t).agenda = s.agenda := rfl
@[simp] theorem State.setTdi_draws (fn : Nat) (t : Tdi) : (s.setTdi fn t).draws = s.draws := rfl
@[simp] theorem State.setTdi_nextId (fn : Nat) (t : Tdi) : (s.setTdi fn t).nextId = s.nextId := rfl
@[simp] theorem State.setTdi_turns (fn : Nat) (t : Tdi) : (s.setTdi fn t).turns = s.turns := rfl
@[simp] theorem State.setTdi_ttNext (fn : Nat) (t : Tdi) : (s.setTdi fn t).ttNext = s.ttNext := rfl
@[simp] theorem State.setTdi_slots (fn : Nat) (t : Tdi) : (s.setTdi fn t).slots = s.slots := rfl
@[simp] theorem State.setTdi_flights (fn : Nat) (t : Tdi) : (s.setTdi fn t).flights = s.flights := rfl
@[simp] theorem State.setTdi_remains (fn : Nat) (t : Tdi) : (s.setTdi fn t).remains = s.remains := rfl
@[simp] theorem State.setTdi_launches (fn : Nat) (t : Tdi) : (s.setTdi fn t).launches = s.launches := rfl
@[simp] theorem State.setTdi_kernels (fn : Nat) (t : Tdi) : (s.setTdi fn t).kernels = s.kernels := rfl
@[simp] theorem State.setTdi_cores (fn : Nat) (t : Tdi) : (s.setTdi fn t).cores = s.cores := rfl
@[simp] theorem State.setTdi_mem (fn : Nat) (t : Tdi) : (s.setTdi fn t).mem = s.mem := rfl
@[simp] theorem State.setTdi_tags (fn : Nat) (t : Tdi) : (s.setTdi fn t).tags = s.tags := rfl
@[simp] theorem State.setTdi_tier (fn : Nat) (t : Tdi) : (s.setTdi fn t).tier = s.tier := rfl
@[simp] theorem State.setTdi_queue (fn : Nat) (t : Tdi) : (s.setTdi fn t).queue = s.queue := rfl
@[simp] theorem State.setTdi_oper (fn : Nat) (t : Tdi) : (s.setTdi fn t).oper = s.oper := rfl
@[simp] theorem State.setTdi_sec (fn : Nat) (t : Tdi) : (s.setTdi fn t).sec = { s.sec with tdis := s.sec.tdis.set fn t } := rfl
@[simp] theorem State.setTdi_thx (fn : Nat) (t : Tdi) : (s.setTdi fn t).thx = s.thx := rfl
@[simp] theorem State.setTdi_fleet (fn : Nat) (t : Tdi) : (s.setTdi fn t).fleet = s.fleet := rfl

/-! modLink -/
@[simp] theorem State.modLink_clock (p : Nat) (f : Link_ → Link_) : (s.modLink p f).clock = s.clock := rfl
@[simp] theorem State.modLink_cur (p : Nat) (f : Link_ → Link_) : (s.modLink p f).cur = s.cur := rfl
@[simp] theorem State.modLink_agenda (p : Nat) (f : Link_ → Link_) : (s.modLink p f).agenda = s.agenda := rfl
@[simp] theorem State.modLink_draws (p : Nat) (f : Link_ → Link_) : (s.modLink p f).draws = s.draws := rfl
@[simp] theorem State.modLink_nextId (p : Nat) (f : Link_ → Link_) : (s.modLink p f).nextId = s.nextId := rfl
@[simp] theorem State.modLink_turns (p : Nat) (f : Link_ → Link_) : (s.modLink p f).turns = s.turns := rfl
@[simp] theorem State.modLink_ttNext (p : Nat) (f : Link_ → Link_) : (s.modLink p f).ttNext = s.ttNext := rfl
@[simp] theorem State.modLink_slots (p : Nat) (f : Link_ → Link_) : (s.modLink p f).slots = s.slots := rfl
@[simp] theorem State.modLink_flights (p : Nat) (f : Link_ → Link_) : (s.modLink p f).flights = s.flights := rfl
@[simp] theorem State.modLink_remains (p : Nat) (f : Link_ → Link_) : (s.modLink p f).remains = s.remains := rfl
@[simp] theorem State.modLink_launches (p : Nat) (f : Link_ → Link_) : (s.modLink p f).launches = s.launches := rfl
@[simp] theorem State.modLink_kernels (p : Nat) (f : Link_ → Link_) : (s.modLink p f).kernels = s.kernels := rfl
@[simp] theorem State.modLink_cores (p : Nat) (f : Link_ → Link_) : (s.modLink p f).cores = s.cores := rfl
@[simp] theorem State.modLink_mem (p : Nat) (f : Link_ → Link_) : (s.modLink p f).mem = s.mem := rfl
@[simp] theorem State.modLink_tags (p : Nat) (f : Link_ → Link_) : (s.modLink p f).tags = s.tags := rfl
@[simp] theorem State.modLink_tier (p : Nat) (f : Link_ → Link_) : (s.modLink p f).tier = s.tier := rfl
@[simp] theorem State.modLink_queue (p : Nat) (f : Link_ → Link_) : (s.modLink p f).queue = s.queue := rfl
@[simp] theorem State.modLink_oper (p : Nat) (f : Link_ → Link_) : (s.modLink p f).oper = s.oper := rfl
@[simp] theorem State.modLink_sec (p : Nat) (f : Link_ → Link_) : (s.modLink p f).sec = s.sec := rfl
@[simp] theorem State.modLink_thx (p : Nat) (f : Link_ → Link_) : (s.modLink p f).thx = { s.thx with links := s.thx.links.set p (f (s.link p)) } := rfl
@[simp] theorem State.modLink_fleet (p : Nat) (f : Link_ → Link_) : (s.modLink p f).fleet = s.fleet := rfl

/-! setPort -/
@[simp] theorem State.setPort_clock (p : Nat) (x : Port) : (s.setPort p x).clock = s.clock := rfl
@[simp] theorem State.setPort_cur (p : Nat) (x : Port) : (s.setPort p x).cur = s.cur := rfl
@[simp] theorem State.setPort_agenda (p : Nat) (x : Port) : (s.setPort p x).agenda = s.agenda := rfl
@[simp] theorem State.setPort_draws (p : Nat) (x : Port) : (s.setPort p x).draws = s.draws := rfl
@[simp] theorem State.setPort_nextId (p : Nat) (x : Port) : (s.setPort p x).nextId = s.nextId := rfl
@[simp] theorem State.setPort_turns (p : Nat) (x : Port) : (s.setPort p x).turns = s.turns := rfl
@[simp] theorem State.setPort_ttNext (p : Nat) (x : Port) : (s.setPort p x).ttNext = s.ttNext := rfl
@[simp] theorem State.setPort_slots (p : Nat) (x : Port) : (s.setPort p x).slots = s.slots := rfl
@[simp] theorem State.setPort_flights (p : Nat) (x : Port) : (s.setPort p x).flights = s.flights := rfl
@[simp] theorem State.setPort_remains (p : Nat) (x : Port) : (s.setPort p x).remains = s.remains := rfl
@[simp] theorem State.setPort_launches (p : Nat) (x : Port) : (s.setPort p x).launches = s.launches := rfl
@[simp] theorem State.setPort_kernels (p : Nat) (x : Port) : (s.setPort p x).kernels = s.kernels := rfl
@[simp] theorem State.setPort_cores (p : Nat) (x : Port) : (s.setPort p x).cores = s.cores := rfl
@[simp] theorem State.setPort_mem (p : Nat) (x : Port) : (s.setPort p x).mem = s.mem := rfl
@[simp] theorem State.setPort_tags (p : Nat) (x : Port) : (s.setPort p x).tags = s.tags := rfl
@[simp] theorem State.setPort_tier (p : Nat) (x : Port) : (s.setPort p x).tier = s.tier := rfl
@[simp] theorem State.setPort_queue (p : Nat) (x : Port) : (s.setPort p x).queue = s.queue := rfl
@[simp] theorem State.setPort_oper (p : Nat) (x : Port) : (s.setPort p x).oper = s.oper := rfl
@[simp] theorem State.setPort_sec (p : Nat) (x : Port) : (s.setPort p x).sec = s.sec := rfl
@[simp] theorem State.setPort_thx (p : Nat) (x : Port) : (s.setPort p x).thx = { s.thx with ports := s.thx.ports.set p x } := rfl
@[simp] theorem State.setPort_fleet (p : Nat) (x : Port) : (s.setPort p x).fleet = s.fleet := rfl

/-! dropReq -/
@[simp] theorem State.dropReq_clock (id : Nat) : (s.dropReq id).clock = s.clock := rfl
@[simp] theorem State.dropReq_cur (id : Nat) : (s.dropReq id).cur = s.cur := rfl
@[simp] theorem State.dropReq_agenda (id : Nat) : (s.dropReq id).agenda = s.agenda := rfl
@[simp] theorem State.dropReq_draws (id : Nat) : (s.dropReq id).draws = s.draws := rfl
@[simp] theorem State.dropReq_nextId (id : Nat) : (s.dropReq id).nextId = s.nextId := rfl
@[simp] theorem State.dropReq_turns (id : Nat) : (s.dropReq id).turns = s.turns := rfl
@[simp] theorem State.dropReq_ttNext (id : Nat) : (s.dropReq id).ttNext = s.ttNext := rfl
@[simp] theorem State.dropReq_slots (id : Nat) : (s.dropReq id).slots = s.slots := rfl
@[simp] theorem State.dropReq_flights (id : Nat) : (s.dropReq id).flights = s.flights := rfl
@[simp] theorem State.dropReq_remains (id : Nat) : (s.dropReq id).remains = s.remains := rfl
@[simp] theorem State.dropReq_launches (id : Nat) : (s.dropReq id).launches = s.launches := rfl
@[simp] theorem State.dropReq_kernels (id : Nat) : (s.dropReq id).kernels = s.kernels := rfl
@[simp] theorem State.dropReq_cores (id : Nat) : (s.dropReq id).cores = s.cores := rfl
@[simp] theorem State.dropReq_mem (id : Nat) : (s.dropReq id).mem = s.mem := rfl
@[simp] theorem State.dropReq_tags (id : Nat) : (s.dropReq id).tags = s.tags := rfl
@[simp] theorem State.dropReq_tier (id : Nat) : (s.dropReq id).tier = s.tier := rfl
@[simp] theorem State.dropReq_queue (id : Nat) : (s.dropReq id).queue = s.queue := rfl
@[simp] theorem State.dropReq_oper (id : Nat) : (s.dropReq id).oper = s.oper := rfl
@[simp] theorem State.dropReq_sec (id : Nat) : (s.dropReq id).sec = s.sec := rfl
@[simp] theorem State.dropReq_fleet (id : Nat) : (s.dropReq id).fleet = s.fleet := rfl

/-! modFleet -/
@[simp] theorem State.modFleet_clock (f : Fleet → Fleet) : (s.modFleet f).clock = s.clock := rfl
@[simp] theorem State.modFleet_cur (f : Fleet → Fleet) : (s.modFleet f).cur = s.cur := rfl
@[simp] theorem State.modFleet_agenda (f : Fleet → Fleet) : (s.modFleet f).agenda = s.agenda := rfl
@[simp] theorem State.modFleet_draws (f : Fleet → Fleet) : (s.modFleet f).draws = s.draws := rfl
@[simp] theorem State.modFleet_nextId (f : Fleet → Fleet) : (s.modFleet f).nextId = s.nextId := rfl
@[simp] theorem State.modFleet_turns (f : Fleet → Fleet) : (s.modFleet f).turns = s.turns := rfl
@[simp] theorem State.modFleet_ttNext (f : Fleet → Fleet) : (s.modFleet f).ttNext = s.ttNext := rfl
@[simp] theorem State.modFleet_slots (f : Fleet → Fleet) : (s.modFleet f).slots = s.slots := rfl
@[simp] theorem State.modFleet_flights (f : Fleet → Fleet) : (s.modFleet f).flights = s.flights := rfl
@[simp] theorem State.modFleet_remains (f : Fleet → Fleet) : (s.modFleet f).remains = s.remains := rfl
@[simp] theorem State.modFleet_launches (f : Fleet → Fleet) : (s.modFleet f).launches = s.launches := rfl
@[simp] theorem State.modFleet_kernels (f : Fleet → Fleet) : (s.modFleet f).kernels = s.kernels := rfl
@[simp] theorem State.modFleet_cores (f : Fleet → Fleet) : (s.modFleet f).cores = s.cores := rfl
@[simp] theorem State.modFleet_mem (f : Fleet → Fleet) : (s.modFleet f).mem = s.mem := rfl
@[simp] theorem State.modFleet_tags (f : Fleet → Fleet) : (s.modFleet f).tags = s.tags := rfl
@[simp] theorem State.modFleet_tier (f : Fleet → Fleet) : (s.modFleet f).tier = s.tier := rfl
@[simp] theorem State.modFleet_queue (f : Fleet → Fleet) : (s.modFleet f).queue = s.queue := rfl
@[simp] theorem State.modFleet_oper (f : Fleet → Fleet) : (s.modFleet f).oper = s.oper := rfl
@[simp] theorem State.modFleet_sec (f : Fleet → Fleet) : (s.modFleet f).sec = s.sec := rfl
@[simp] theorem State.modFleet_thx (f : Fleet → Fleet) : (s.modFleet f).thx = s.thx := rfl
@[simp] theorem State.modFleet_fleet (f : Fleet → Fleet) : (s.modFleet f).fleet = f s.fleet := rfl

/-! modPatUnit -/
@[simp] theorem State.modPatUnit_clock (u : Nat) (f : PatUnit → PatUnit) : (s.modPatUnit u f).clock = s.clock := rfl
@[simp] theorem State.modPatUnit_cur (u : Nat) (f : PatUnit → PatUnit) : (s.modPatUnit u f).cur = s.cur := rfl
@[simp] theorem State.modPatUnit_agenda (u : Nat) (f : PatUnit → PatUnit) : (s.modPatUnit u f).agenda = s.agenda := rfl
@[simp] theorem State.modPatUnit_draws (u : Nat) (f : PatUnit → PatUnit) : (s.modPatUnit u f).draws = s.draws := rfl
@[simp] theorem State.modPatUnit_nextId (u : Nat) (f : PatUnit → PatUnit) : (s.modPatUnit u f).nextId = s.nextId := rfl
@[simp] theorem State.modPatUnit_turns (u : Nat) (f : PatUnit → PatUnit) : (s.modPatUnit u f).turns = s.turns := rfl
@[simp] theorem State.modPatUnit_ttNext (u : Nat) (f : PatUnit → PatUnit) : (s.modPatUnit u f).ttNext = s.ttNext := rfl
@[simp] theorem State.modPatUnit_slots (u : Nat) (f : PatUnit → PatUnit) : (s.modPatUnit u f).slots = s.slots := rfl
@[simp] theorem State.modPatUnit_flights (u : Nat) (f : PatUnit → PatUnit) : (s.modPatUnit u f).flights = s.flights := rfl
@[simp] theorem State.modPatUnit_remains (u : Nat) (f : PatUnit → PatUnit) : (s.modPatUnit u f).remains = s.remains := rfl
@[simp] theorem State.modPatUnit_launches (u : Nat) (f : PatUnit → PatUnit) : (s.modPatUnit u f).launches = s.launches := rfl
@[simp] theorem State.modPatUnit_kernels (u : Nat) (f : PatUnit → PatUnit) : (s.modPatUnit u f).kernels = s.kernels := rfl
@[simp] theorem State.modPatUnit_cores (u : Nat) (f : PatUnit → PatUnit) : (s.modPatUnit u f).cores = s.cores := rfl
@[simp] theorem State.modPatUnit_mem (u : Nat) (f : PatUnit → PatUnit) : (s.modPatUnit u f).mem = s.mem := rfl
@[simp] theorem State.modPatUnit_tags (u : Nat) (f : PatUnit → PatUnit) : (s.modPatUnit u f).tags = s.tags := rfl
@[simp] theorem State.modPatUnit_tier (u : Nat) (f : PatUnit → PatUnit) : (s.modPatUnit u f).tier = s.tier := rfl
@[simp] theorem State.modPatUnit_queue (u : Nat) (f : PatUnit → PatUnit) : (s.modPatUnit u f).queue = s.queue := rfl
@[simp] theorem State.modPatUnit_oper (u : Nat) (f : PatUnit → PatUnit) : (s.modPatUnit u f).oper = s.oper := rfl
@[simp] theorem State.modPatUnit_sec (u : Nat) (f : PatUnit → PatUnit) : (s.modPatUnit u f).sec = s.sec := rfl
@[simp] theorem State.modPatUnit_thx (u : Nat) (f : PatUnit → PatUnit) : (s.modPatUnit u f).thx = s.thx := rfl

/-! setBank -/
@[simp] theorem State.setBank_clock (core bank : Nat) (b : Bank) : (s.setBank core bank b).clock = s.clock := rfl
@[simp] theorem State.setBank_cur (core bank : Nat) (b : Bank) : (s.setBank core bank b).cur = s.cur := rfl
@[simp] theorem State.setBank_agenda (core bank : Nat) (b : Bank) : (s.setBank core bank b).agenda = s.agenda := rfl
@[simp] theorem State.setBank_draws (core bank : Nat) (b : Bank) : (s.setBank core bank b).draws = s.draws := rfl
@[simp] theorem State.setBank_nextId (core bank : Nat) (b : Bank) : (s.setBank core bank b).nextId = s.nextId := rfl
@[simp] theorem State.setBank_turns (core bank : Nat) (b : Bank) : (s.setBank core bank b).turns = s.turns := rfl
@[simp] theorem State.setBank_ttNext (core bank : Nat) (b : Bank) : (s.setBank core bank b).ttNext = s.ttNext := rfl
@[simp] theorem State.setBank_slots (core bank : Nat) (b : Bank) : (s.setBank core bank b).slots = s.slots := rfl
@[simp] theorem State.setBank_flights (core bank : Nat) (b : Bank) : (s.setBank core bank b).flights = s.flights := rfl
@[simp] theorem State.setBank_remains (core bank : Nat) (b : Bank) : (s.setBank core bank b).remains = s.remains := rfl
@[simp] theorem State.setBank_launches (core bank : Nat) (b : Bank) : (s.setBank core bank b).launches = s.launches := rfl
@[simp] theorem State.setBank_kernels (core bank : Nat) (b : Bank) : (s.setBank core bank b).kernels = s.kernels := rfl
@[simp] theorem State.setBank_mem (core bank : Nat) (b : Bank) : (s.setBank core bank b).mem = s.mem := rfl
@[simp] theorem State.setBank_tags (core bank : Nat) (b : Bank) : (s.setBank core bank b).tags = s.tags := rfl
@[simp] theorem State.setBank_tier (core bank : Nat) (b : Bank) : (s.setBank core bank b).tier = s.tier := rfl
@[simp] theorem State.setBank_queue (core bank : Nat) (b : Bank) : (s.setBank core bank b).queue = s.queue := rfl
@[simp] theorem State.setBank_oper (core bank : Nat) (b : Bank) : (s.setBank core bank b).oper = s.oper := rfl
@[simp] theorem State.setBank_sec (core bank : Nat) (b : Bank) : (s.setBank core bank b).sec = s.sec := rfl
@[simp] theorem State.setBank_thx (core bank : Nat) (b : Bank) : (s.setBank core bank b).thx = s.thx := rfl
@[simp] theorem State.setBank_fleet (core bank : Nat) (b : Bank) : (s.setBank core bank b).fleet = s.fleet := rfl

/-! tick -/
@[simp] theorem State.tick_clock (n : Nat) : (s.tick n).clock = s.clock + n := rfl
@[simp] theorem State.tick_cur (n : Nat) : (s.tick n).cur = s.cur := rfl
@[simp] theorem State.tick_agenda (n : Nat) : (s.tick n).agenda = s.agenda := rfl
@[simp] theorem State.tick_draws (n : Nat) : (s.tick n).draws = s.draws := rfl
@[simp] theorem State.tick_nextId (n : Nat) : (s.tick n).nextId = s.nextId := rfl
@[simp] theorem State.tick_turns (n : Nat) : (s.tick n).turns = s.turns := rfl
@[simp] theorem State.tick_ttNext (n : Nat) : (s.tick n).ttNext = s.ttNext := rfl
@[simp] theorem State.tick_remains (n : Nat) : (s.tick n).remains = s.remains := rfl
@[simp] theorem State.tick_launches (n : Nat) : (s.tick n).launches = s.launches := rfl
@[simp] theorem State.tick_kernels (n : Nat) : (s.tick n).kernels = s.kernels := rfl
@[simp] theorem State.tick_cores (n : Nat) : (s.tick n).cores = s.cores := rfl
@[simp] theorem State.tick_mem (n : Nat) : (s.tick n).mem = s.mem := rfl
@[simp] theorem State.tick_tags (n : Nat) : (s.tick n).tags = s.tags := rfl
@[simp] theorem State.tick_tier (n : Nat) : (s.tick n).tier = s.tier := rfl
@[simp] theorem State.tick_queue (n : Nat) : (s.tick n).queue = s.queue := rfl
@[simp] theorem State.tick_sec (n : Nat) : (s.tick n).sec = s.sec := rfl
@[simp] theorem State.tick_fleet (n : Nat) : (s.tick n).fleet = s.fleet := rfl

/-! An entry's own updates -/
variable (e : Entry)
@[simp] theorem Entry.advance_pos (words : Nat) : (e.advance words).pos = e.pos := rfl
@[simp] theorem Entry.advance_start (words : Nat) : (e.advance words).start = e.start := rfl
@[simp] theorem Entry.advance_len (words : Nat) : (e.advance words).len = e.len := rfl
@[simp] theorem Entry.advance_wstart (words : Nat) : (e.advance words).wstart = e.wstart := rfl
@[simp] theorem Entry.advance_width (words : Nat) : (e.advance words).width = e.width := rfl
@[simp] theorem Entry.advance_snum (words : Nat) : (e.advance words).snum = e.snum := rfl
@[simp] theorem Entry.advance_pc (words : Nat) : (e.advance words).pc = e.pc + 4 * words := rfl
@[simp] theorem Entry.advance_status (words : Nat) : (e.advance words).status = e.status := rfl
@[simp] theorem Entry.advance_retired (words : Nat) : (e.advance words).retired = e.retired + 1 := rfl
@[simp] theorem Entry.advance_regs (words : Nat) : (e.advance words).regs = e.regs := rfl
@[simp] theorem Entry.advance_xregs (words : Nat) : (e.advance words).xregs = e.xregs := rfl
@[simp] theorem Entry.advance_preds (words : Nat) : (e.advance words).preds = e.preds := rfl
@[simp] theorem Entry.advance_scalars (words : Nat) : (e.advance words).scalars = e.scalars := rfl
@[simp] theorem Entry.advance_levels (words : Nat) : (e.advance words).levels = e.levels := rfl
@[simp] theorem Entry.advance_mask (words : Nat) : (e.advance words).mask = e.mask := rfl
@[simp] theorem Entry.advance_dead (words : Nat) : (e.advance words).dead = e.dead := rfl
@[simp] theorem Entry.advance_ended (words : Nat) : (e.advance words).ended = e.ended := rfl
@[simp] theorem Entry.advance_xflag (words : Nat) : (e.advance words).xflag = e.xflag := rfl
@[simp] theorem Entry.advance_gen (words : Nat) : (e.advance words).gen = e.gen := rfl
@[simp] theorem Entry.advance_modctx (words : Nat) : (e.advance words).modctx = e.modctx := rfl
@[simp] theorem Entry.advance_counts (words : Nat) : (e.advance words).counts = e.counts := rfl
@[simp] theorem Entry.advance_seq (words : Nat) : (e.advance words).seq = e.seq := rfl
@[simp] theorem Entry.advance_stats (words : Nat) : (e.advance words).stats = e.stats := rfl
@[simp] theorem Entry.advance_chain (words : Nat) : (e.advance words).chain = e.chain := rfl
@[simp] theorem Entry.advance_streams (words : Nat) : (e.advance words).streams = e.streams := rfl
@[simp] theorem Entry.advance_ops (words : Nat) : (e.advance words).ops = e.ops := rfl
@[simp] theorem Entry.advance_order (words : Nat) : (e.advance words).order = e.order := rfl
@[simp] theorem Entry.advance_window (words : Nat) : (e.advance words).window = e.window := rfl
@[simp] theorem Entry.advance_bad (words : Nat) : (e.advance words).bad = e.bad := rfl
@[simp] theorem Entry.advance_dsts (words : Nat) : (e.advance words).dsts = e.dsts := rfl

@[simp] theorem Entry.jump_pos (pc : Nat) : (e.jump pc).pos = e.pos := rfl
@[simp] theorem Entry.jump_start (pc : Nat) : (e.jump pc).start = e.start := rfl
@[simp] theorem Entry.jump_len (pc : Nat) : (e.jump pc).len = e.len := rfl
@[simp] theorem Entry.jump_wstart (pc : Nat) : (e.jump pc).wstart = e.wstart := rfl
@[simp] theorem Entry.jump_width (pc : Nat) : (e.jump pc).width = e.width := rfl
@[simp] theorem Entry.jump_snum (pc : Nat) : (e.jump pc).snum = e.snum := rfl
@[simp] theorem Entry.jump_pc (pc : Nat) : (e.jump pc).pc = pc % 2 ^ 64 := rfl
@[simp] theorem Entry.jump_status (pc : Nat) : (e.jump pc).status = e.status := rfl
@[simp] theorem Entry.jump_retired (pc : Nat) : (e.jump pc).retired = e.retired + 1 := rfl
@[simp] theorem Entry.jump_regs (pc : Nat) : (e.jump pc).regs = e.regs := rfl
@[simp] theorem Entry.jump_xregs (pc : Nat) : (e.jump pc).xregs = e.xregs := rfl
@[simp] theorem Entry.jump_preds (pc : Nat) : (e.jump pc).preds = e.preds := rfl
@[simp] theorem Entry.jump_scalars (pc : Nat) : (e.jump pc).scalars = e.scalars := rfl
@[simp] theorem Entry.jump_levels (pc : Nat) : (e.jump pc).levels = e.levels := rfl
@[simp] theorem Entry.jump_mask (pc : Nat) : (e.jump pc).mask = e.mask := rfl
@[simp] theorem Entry.jump_dead (pc : Nat) : (e.jump pc).dead = e.dead := rfl
@[simp] theorem Entry.jump_ended (pc : Nat) : (e.jump pc).ended = e.ended := rfl
@[simp] theorem Entry.jump_xflag (pc : Nat) : (e.jump pc).xflag = e.xflag := rfl
@[simp] theorem Entry.jump_gen (pc : Nat) : (e.jump pc).gen = e.gen := rfl
@[simp] theorem Entry.jump_modctx (pc : Nat) : (e.jump pc).modctx = e.modctx := rfl
@[simp] theorem Entry.jump_counts (pc : Nat) : (e.jump pc).counts = e.counts := rfl
@[simp] theorem Entry.jump_seq (pc : Nat) : (e.jump pc).seq = e.seq := rfl
@[simp] theorem Entry.jump_stats (pc : Nat) : (e.jump pc).stats = e.stats := rfl
@[simp] theorem Entry.jump_chain (pc : Nat) : (e.jump pc).chain = e.chain := rfl
@[simp] theorem Entry.jump_streams (pc : Nat) : (e.jump pc).streams = e.streams := rfl
@[simp] theorem Entry.jump_ops (pc : Nat) : (e.jump pc).ops = e.ops := rfl
@[simp] theorem Entry.jump_order (pc : Nat) : (e.jump pc).order = e.order := rfl
@[simp] theorem Entry.jump_window (pc : Nat) : (e.jump pc).window = e.window := rfl
@[simp] theorem Entry.jump_bad (pc : Nat) : (e.jump pc).bad = e.bad := rfl
@[simp] theorem Entry.jump_dsts (pc : Nat) : (e.jump pc).dsts = e.dsts := rfl

@[simp] theorem Entry.putS_pos (n : Nat) (w : W64) : (e.putS n w).pos = e.pos := rfl
@[simp] theorem Entry.putS_start (n : Nat) (w : W64) : (e.putS n w).start = e.start := rfl
@[simp] theorem Entry.putS_len (n : Nat) (w : W64) : (e.putS n w).len = e.len := rfl
@[simp] theorem Entry.putS_wstart (n : Nat) (w : W64) : (e.putS n w).wstart = e.wstart := rfl
@[simp] theorem Entry.putS_width (n : Nat) (w : W64) : (e.putS n w).width = e.width := rfl
@[simp] theorem Entry.putS_snum (n : Nat) (w : W64) : (e.putS n w).snum = e.snum := rfl
@[simp] theorem Entry.putS_pc (n : Nat) (w : W64) : (e.putS n w).pc = e.pc := rfl
@[simp] theorem Entry.putS_status (n : Nat) (w : W64) : (e.putS n w).status = e.status := rfl
@[simp] theorem Entry.putS_retired (n : Nat) (w : W64) : (e.putS n w).retired = e.retired := rfl
@[simp] theorem Entry.putS_regs (n : Nat) (w : W64) : (e.putS n w).regs = e.regs := rfl
@[simp] theorem Entry.putS_xregs (n : Nat) (w : W64) : (e.putS n w).xregs = e.xregs := rfl
@[simp] theorem Entry.putS_preds (n : Nat) (w : W64) : (e.putS n w).preds = e.preds := rfl
@[simp] theorem Entry.putS_scalars (n : Nat) (w : W64) : (e.putS n w).scalars = e.scalars.set n w := rfl
@[simp] theorem Entry.putS_levels (n : Nat) (w : W64) : (e.putS n w).levels = e.levels := rfl
@[simp] theorem Entry.putS_mask (n : Nat) (w : W64) : (e.putS n w).mask = e.mask := rfl
@[simp] theorem Entry.putS_dead (n : Nat) (w : W64) : (e.putS n w).dead = e.dead := rfl
@[simp] theorem Entry.putS_ended (n : Nat) (w : W64) : (e.putS n w).ended = e.ended := rfl
@[simp] theorem Entry.putS_xflag (n : Nat) (w : W64) : (e.putS n w).xflag = e.xflag := rfl
@[simp] theorem Entry.putS_gen (n : Nat) (w : W64) : (e.putS n w).gen = e.gen := rfl
@[simp] theorem Entry.putS_modctx (n : Nat) (w : W64) : (e.putS n w).modctx = e.modctx := rfl
@[simp] theorem Entry.putS_counts (n : Nat) (w : W64) : (e.putS n w).counts = e.counts := rfl
@[simp] theorem Entry.putS_seq (n : Nat) (w : W64) : (e.putS n w).seq = e.seq := rfl
@[simp] theorem Entry.putS_stats (n : Nat) (w : W64) : (e.putS n w).stats = e.stats := rfl
@[simp] theorem Entry.putS_chain (n : Nat) (w : W64) : (e.putS n w).chain = e.chain := rfl
@[simp] theorem Entry.putS_streams (n : Nat) (w : W64) : (e.putS n w).streams = e.streams := rfl
@[simp] theorem Entry.putS_ops (n : Nat) (w : W64) : (e.putS n w).ops = e.ops := rfl
@[simp] theorem Entry.putS_order (n : Nat) (w : W64) : (e.putS n w).order = e.order := rfl
@[simp] theorem Entry.putS_window (n : Nat) (w : W64) : (e.putS n w).window = e.window := rfl
@[simp] theorem Entry.putS_bad (n : Nat) (w : W64) : (e.putS n w).bad = e.bad := rfl
@[simp] theorem Entry.putS_dsts (n : Nat) (w : W64) : (e.putS n w).dsts = e.dsts := rfl

@[simp] theorem Entry.setX_pos : e.setX.pos = e.pos := rfl
@[simp] theorem Entry.setX_start : e.setX.start = e.start := rfl
@[simp] theorem Entry.setX_len : e.setX.len = e.len := rfl
@[simp] theorem Entry.setX_wstart : e.setX.wstart = e.wstart := rfl
@[simp] theorem Entry.setX_width : e.setX.width = e.width := rfl
@[simp] theorem Entry.setX_snum : e.setX.snum = e.snum := rfl
@[simp] theorem Entry.setX_pc : e.setX.pc = e.pc := rfl
@[simp] theorem Entry.setX_status : e.setX.status = e.status := rfl
@[simp] theorem Entry.setX_retired : e.setX.retired = e.retired := rfl
@[simp] theorem Entry.setX_regs : e.setX.regs = e.regs := rfl
@[simp] theorem Entry.setX_xregs : e.setX.xregs = e.xregs := rfl
@[simp] theorem Entry.setX_preds : e.setX.preds = e.preds := rfl
@[simp] theorem Entry.setX_scalars : e.setX.scalars = e.scalars := rfl
@[simp] theorem Entry.setX_levels : e.setX.levels = e.levels := rfl
@[simp] theorem Entry.setX_mask : e.setX.mask = e.mask := rfl
@[simp] theorem Entry.setX_dead : e.setX.dead = e.dead := rfl
@[simp] theorem Entry.setX_ended : e.setX.ended = e.ended := rfl
@[simp] theorem Entry.setX_xflag : e.setX.xflag = true := rfl
@[simp] theorem Entry.setX_gen : e.setX.gen = e.gen := rfl
@[simp] theorem Entry.setX_modctx : e.setX.modctx = e.modctx := rfl
@[simp] theorem Entry.setX_counts : e.setX.counts = e.counts := rfl
@[simp] theorem Entry.setX_seq : e.setX.seq = e.seq := rfl
@[simp] theorem Entry.setX_stats : e.setX.stats = e.stats := rfl
@[simp] theorem Entry.setX_chain : e.setX.chain = e.chain := rfl
@[simp] theorem Entry.setX_streams : e.setX.streams = e.streams := rfl
@[simp] theorem Entry.setX_ops : e.setX.ops = e.ops := rfl
@[simp] theorem Entry.setX_order : e.setX.order = e.order := rfl
@[simp] theorem Entry.setX_window : e.setX.window = e.window := rfl
@[simp] theorem Entry.setX_bad : e.setX.bad = e.bad := rfl
@[simp] theorem Entry.setX_dsts : e.setX.dsts = e.dsts := rfl

end

end Sys2Proof.Machine
end

