-- ==== Sys2Proof/Tests/Slice0.lean ====
section
/-!
SUPPORT. Tests: words of the spec, an ill-formed term for each check, single steps with results worked out by hand, and for each
statement with hypotheses a state and operands that meet them.
-/
set_option Elab.async false

namespace Sys2Proof.Test

open Machine

/-! ### A small machine: one kernel, one flight of one strand of 16 items on core 0 -/

/-- Maps page `k` of the device address space to a frame. -/
def page (s : State) (k frame flags owner : Nat) : State :=
  ((s.pokeN (Config.ttPool + 8192 + 8 * k) 8 (1 + owner * 16 + flags + frame * 65536)).setFat frame 4).setTags (frame * 512) 512 owner

/-- v0: 3i + 1; v1: 5 + 2i; v2: 7; v4, v5: pairs; v6, v7: addresses 0x20000 + 4i; v8: 4i; v10 to v17: i. -/
def regs0 : List VReg :=
  let den (f : Nat → Nat) : VReg := .den ((List.range 16).map fun i => BitVec.ofNat 32 (f i))
  [den fun i => 3 * i + 1, .aff 5 2, .uni 7, .uni 3, den fun i => 100 - i, den fun i => i, den fun i => 0x20000 + 4 * i, .uni 0,
   den fun i => 4 * i, .uni 0] ++ List.replicate 8 (den fun i => i) ++ List.replicate 110 (.uni 0)

/-- s10: 0x20000; s11: 64; s12: 0x20100; s13: 5; s14: 17. -/
def scalars0 : List W64 :=
  [BitVec.ofNat 64 Config.paramVa, 16, 0, 0, 0, 16] ++ List.replicate 4 0 ++ [0x20000, 64, 0x20100, 5, 17] ++ List.replicate 49 0

def entry0 : Entry := { placeEntry with
  regs := regs0
  scalars := scalars0
  xregs := .uni 0x1000 :: .den ((List.range 16).map fun i => BitVec.ofNat 32 (i % 2 + 0x1000)) :: List.replicate 6 (.uni 0)
  preds := [.uni true, .aff 8 true, .den ((List.range 16).map fun i => i % 2 == 0)] ++ List.replicate 4 (.uni false) }

def flight0 : Flight := { placeFlight 0 with spadSize := 4096 }

/-- Page 2 may be read and written, and the bonded tier holds its first lines; page 1 holds the code.  Owner 1 fills the upper
ways. -/
def base0 : State :=
  let s := page (State.reset.loadProgram []) 2 32 (512 + 1024) 1
  { s with
    tier := { s.tier with lines := s.tier.lines ++ (List.range 8).map fun k => ⟨4096 + k, 15, 0, 8⟩ }
    oper := { s.oper with waym := 0x00FF :: 0xFF00 :: List.replicate 14 0 } }

/-- The machine with an entry, a flight and a launch. -/
def machine (e : Entry := entry0) (f : Flight := flight0) (l : Launch := placeLaunch) (k : Kernel := placeKernel) : State :=
  { base0 with slots := [⟨0, 0, 0, 0, [e]⟩], flights := [f], launches := [l], kernels := [k] }

def demo : State := machine

/-- Some value of an option has a property. -/
theorem some_and {α : Type} {P : α → Prop} [DecidablePred P] {x : Option α} (h : (x.any fun a => decide (P a)) = true) :
    ∃ a, x = some a ∧ P a := by
  cases x with
  | none => simp at h
  | some a => exact ⟨a, rfl, by simpa using h⟩

theorem ok_and {ε α : Type} {P : α → Prop} [DecidablePred P] {x : Except ε α} (h : (match x with
    | .ok a => decide (P a)
    | .error _ => false) = true) : ∃ a, x = .ok a ∧ P a := by
  cases x with
  | error e => simp at h
  | ok a => exact ⟨a, rfl, by simpa using h⟩

theorem some_then {α : Type} {P : α → Prop} {x : Option α} (h : x.isSome = true) (g : P (x.get h)) : ∃ a, x = some a ∧ P a :=
  ⟨x.get h, by simp, g⟩

theorem next_of {x : Host.Outcome State Fault Refusal} (h : (match x with
    | .next _ => true
    | _ => false) = true) : ∃ t, x = .next t := by
  cases x with
  | next t => exact ⟨t, rfl⟩
  | fault f => cases h
  | refused r => cases h

theorem next_and {P : State → Prop} [DecidablePred P] {x : Host.Outcome State Fault Refusal} (h : (match x with
    | .next t => decide (P t)
    | _ => false) = true) : ∃ t, x = .next t ∧ P t := by
  cases x with
  | next t => exact ⟨t, rfl, by simpa using h⟩
  | fault f => cases h
  | refused r => cases h

/-- The context of the small machine. -/
theorem demo_here : ∃ c, demo.here = some c ∧ c.e = entry0 ∧ c.fl = flight0 := some_and (by decide +kernel)

theorem demo_sound : SoundStore demo := by unfold SoundStore SoundMemory; decide +kernel

/-! ### Premises that speak of every sector -/

def fills (s : State) (o : Nat) : Bool := decide (o = 15) || !(s.quota o).isEmpty

theorem mayFill_of {s : State} {o : Nat} (h : fills s o = true) : s.mayFill o := by
  simp only [fills, Bool.or_eq_true, decide_eq_true_eq, Bool.not_eq_true', List.isEmpty_eq_false_iff] at h
  exact h

/-- `Ctx.roomFor`, as a proposition that can be decided. -/
abbrev Room (n : Nat) (c : Ctx) : Prop :=
  (c.s.core c.ref.core).cache.length + n ≤ coreSectors ∧ (c.s.tier.dies.getD (c.ref.core / 24) []).length + n ≤ dieLines ∧
    (c.s.core c.ref.core).replay.length ≤ 512

def keptB (c : Ctx) : Bool :=
  fills c.s c.la.owner && fills c.s 0 && (c.s.tags.all fun r => fills c.s r.tag) && c.s.cores.all fun k => k.cache.all fun x => fills c.s x.tag

theorem tag_cases : ∀ (ts : List TagRun) (n : Nat), tagOf ts n = 0 ∨ ∃ r ∈ ts, tagOf ts n = r.tag
  | [], _ => .inl rfl
  | r :: rs, n => by
    unfold tagOf
    split
    · exact .inr ⟨r, by simp, rfl⟩
    · rcases tag_cases rs n with h | ⟨x, hx, h⟩
      · exact .inl h
      · exact .inr ⟨x, by simp [hx], h⟩

theorem kept_of {c : Ctx} (h : keptB c = true) : c.kept := by
  simp only [keptB, Bool.and_eq_true, List.all_eq_true] at h
  obtain ⟨⟨⟨h1, h2⟩, h3⟩, h4⟩ := h
  refine ⟨mayFill_of h1, fun k x hx => ?_, fun n => ?_⟩
  · unfold State.core at hx
    rcases Nat.lt_or_ge k c.s.cores.length with hk | hk
    · rw [List.getD_eq_getElem _ _ hk] at hx
      exact mayFill_of (h4 _ (List.getElem_mem hk) x hx)
    · rw [List.getD_eq_default _ _ hk] at hx
      cases hx
  · rcases tag_cases c.s.tags n with h | ⟨r, hr, h⟩
    · rw [h]; exact mayFill_of h2
    · rw [h]; exact mayFill_of (h3 r hr)

/-- A context of the small machine in which writes stay on the package, and with a property that can be decided. -/
theorem kept_and {P : Ctx → Prop} [DecidablePred P] {x : Option Ctx} (h : (x.any fun c => keptB c && decide (P c)) = true) :
    ∃ c, x = some c ∧ c.kept ∧ P c := by
  cases x with
  | none => simp at h
  | some c =>
    simp only [Option.any_some, Bool.and_eq_true, decide_eq_true_eq] at h
    exact ⟨c, rfl, kept_of h.1, h.2⟩

/-- Accesses of a context that are served. -/
theorem served_and {P : Ctx → Prop} [DecidablePred P] {x : Option Ctx} {k : AccKind} {n : Nat} {accs : Ctx → List (Nat × Nat)} {pa : Nat → Nat}
    (h : (x.any fun c => keptB c && decide ((c.overlap 0 k.writes ((accs c).map fun a => ⟨a.1, a.2, n⟩) = none ∧
        c.ref.core < c.s.cores.length ∧ c.s.unsettled c.slot c.e = [] ∧
        Room (accs c).length c ∧
        ∀ a ∈ accs c, c.s.check c.agent (some c.ref.core) k a.2 n n = .ok [(pa a.2, n)] ∧ pa a.2 % 128 + n ≤ 128) ∧ P c)) = true) :
    ∃ c, x = some c ∧ c.served k n (accs c) pa ∧ P c := by
  cases x with
  | none => simp at h
  | some c =>
    simp only [Option.any_some, Bool.and_eq_true, decide_eq_true_eq] at h
    obtain ⟨h1, ⟨h2, h3, h4, h5, h6⟩, h7⟩ := h
    exact ⟨c, rfl, ⟨h2, h3, h4, kept_of h1, h5, h6⟩, h7⟩

/-! ### Words (R137 to R151) -/

/-- IADD is MAJ 0x09, MIN 0: D v3, A v1, B v2, p7, TY n32. -/
theorem test_decode_iadd : decodeWords [1 + 16 * 0x09 + 16384 * 3 + 8388608 * 1, 2 + 512 * 0x17F + 262144 * 7, 16 * 2] =
    .ok (.iaddLong { plainLong with d := .v 3, a := .v 1, b := .v 2, ty := .n32 }) := by decide +kernel

/-! ### Encodings and steps -/

theorem witness_DecodeEncode : (Instr.iaddLong { plainLong with d := .v 3, a := .v 1, b := .v 2, ty := .n32 }).WellFormed ∧
    (Instr.iaddLong { plainLong with d := .v 3, a := .v 1, b := .v 2, ty := .n32 }).toRaw ≠ none := by decide +kernel

theorem witness_DecodedWordsAreCanonical : decode [0x00, 0xC0, 0xDF, 0xBF] = .ok (.nop ⟨false, .zero, .zero⟩) := by decide +kernel

/-- A loaded EXIT is fetched, decodes, and names no register beyond `.regs`. -/
theorem witness_StepRunsDecoded : ∃ p, (State.reset.withFetchWord 32 0xBFDFC400).picks = some p ∧ ∃ c, p.2.ctxAt p.1 = some c ∧
    c.e.status = .ready ∧ c.e.bad = [] ∧ ∃ ws, c.words = .ok ws ∧
      decodeWords ws = .ok (.exit ⟨false, .zero, .zero⟩) ∧ Raw.regsOk (.short .exit ⟨false, .zero, .zero⟩) c.ke.regs = true := by
  exact some_then (by decide +kernel) (some_then (by decide +kernel) ⟨by decide +kernel, by decide +kernel, ok_and (by decide +kernel)⟩)

/-- A word with VER 10 takes ILLEGAL. -/
theorem witness_StepTakesIllegal : ∃ p, (State.reset.withFetchWord 32 0xBFDFC008).picks = some p ∧ ∃ c, p.2.ctxAt p.1 = some c ∧
    ∃ ws, c.words = .ok ws ∧ decodeWords ws = .error ⟨1, 10⟩ :=
  some_then (by decide +kernel) (some_then (by decide +kernel) (ok_and (by decide +kernel)))

theorem witness_StepKeepsStore : SoundStore demo ∧ ∃ t, step demo = .next t := ⟨demo_sound, next_of (by decide +kernel)⟩

/-! ### Arithmetic -/

/-- `iadd.i32 v20, v0, v2`. -/
def addO : Long := { plainLong with d := .v 20, a := .v 0, b := .v 2 }

/-- The hypotheses that the item-wise statements share, for an instruction on the small machine. -/
def Runs (i : Instr) (op : Op) (o : Long) (wide : Bool) (s : State := demo) : Prop :=
  i.WellFormed ∧ i.toRaw = some (.long op o) ∧
    ∃ c, s.here = some c ∧ c.actsOn o ≠ [] ∧ c.readable op o = true ∧ c.e.canWrite c.ke.regs (c.actsOn o) wide o.d = true

theorem witness_IntegerResults : Runs (.iaddLong addO) .iadd addO false ∧ (integerFormula .iadd addO).isSome = true :=
  ⟨⟨by decide +kernel, by decide +kernel, some_and (by decide +kernel)⟩, rfl⟩

/-- The same through a modifier, an indexed source and a 64-bit pair, into an indexed destination. -/
theorem witness_IntegerResults_wide :
    Runs (.isubLong { plainLong with d := .v 20, a := .v 4, b := .ind 0 4, perm := .bfly 2, ty := .n64 }) .isub
      { plainLong with d := .v 20, a := .v 4, b := .ind 0 4, perm := .bfly 2, ty := .n64 } true :=
  ⟨by decide +kernel, by decide +kernel, some_and (by decide +kernel)⟩

theorem witness_BitResults : Runs (.shlLong { addO with ty := .i64, a := .v 4, b := .s 14 }) .shl { addO with ty := .i64, a := .v 4, b := .s 14 } true ∧
    (bitFormula .shl { addO with ty := .i64, a := .v 4, b := .s 14 }).isSome = true :=
  ⟨⟨by decide +kernel, by decide +kernel, some_and (by decide +kernel)⟩, rfl⟩

theorem witness_TestResults : Runs (.icmpLong { addO with d := .p 3, mod := 2 }) .icmp { addO with d := .p 3, mod := 2 } false ∧
    (testFormula .icmp { addO with d := .p 3, mod := 2 }).isSome = true :=
  ⟨⟨by decide +kernel, by decide +kernel, some_and (by decide +kernel)⟩, rfl⟩

theorem witness_FloatResults : Runs (.faddLong { addO with ty := .f32 }) .fadd { addO with ty := .f32 } false ∧
    (floatFormula .fadd { addO with ty := .f32 }).isSome = true :=
  ⟨⟨by decide +kernel, by decide +kernel, some_and (by decide +kernel)⟩, rfl⟩

theorem witness_ConversionResults : Runs (.fitof { plainLong with d := .v 20, a := .v 0, mod := 4 }) .fitof { plainLong with d := .v 20, a := .v 0, mod := 4 } false ∧
    (convFormula .fitof { plainLong with d := .v 20, a := .v 0, mod := 4 }).isSome = true :=
  ⟨⟨by decide +kernel, by decide +kernel, some_and (by decide +kernel)⟩, rfl⟩

/-- An entry with a modulus context: q = 17, and −q⁻¹ modulo 2^64. -/
def modular : State := machine { entry0 with modctx := some (17, 0x0F0F0F0F0F0F0F0F) }

def zaddO : Long := { plainLong with d := .v 20, a := .v 4, b := .v 6, ty := .z64 }

theorem witness_ModularResults : (Instr.zadd zaddO).WellFormed ∧ (Instr.zadd zaddO).toRaw = some (.long .zadd zaddO) ∧
    (modularFormula 17 0x0F0F0F0F0F0F0F0F .zadd).isSome = true ∧ ∃ c, modular.here = some c ∧
      c.e.modctx = some (BitVec.ofNat 64 17, BitVec.ofNat 64 0x0F0F0F0F0F0F0F0F) ∧ c.actsOn zaddO ≠ [] ∧ c.readable .zadd zaddO = true ∧
      c.e.canWrite c.ke.regs (c.actsOn zaddO) true zaddO.d = true :=
  ⟨by decide +kernel, by decide +kernel, rfl, some_and (by decide +kernel)⟩

theorem witness_ModularProducts : 17 % 2 = 1 ∧ 3 ≤ 17 ∧ 17 < 2 ^ 62 ∧ (17 * 0x0F0F0F0F0F0F0F0F + 1) % 2 ^ 64 = 0 ∧ 16 < 17 := by decide

theorem witness_ModularProducts_bounds : 3 % 2 = 1 ∧ (3 * 0x5555555555555555 + 1) % 2 ^ 64 = 0 ∧ 2 < 3 ∧ (2 ^ 62 - 1) % 2 = 1 ∧ 2 ^ 62 - 1 < 2 ^ 62 := by
  decide

def zmodO : Long := { plainLong with d := .s 20, a := .s 14, ty := .n64 }

theorem witness_ModulusContext : (Instr.zmod zmodO).WellFormed ∧ ∃ c, demo.here = some c ∧ c.actsOn zmodO = 0 :: (List.range 15).map (· + 1) ∧
    c.readable .zmod zmodO = true ∧ c.whole zmodO = true ∧ c.uniSources .zmod zmodO = true :=
  ⟨by decide +kernel, some_and (by decide +kernel)⟩

/-- A modulus that is even, and one that is too small. -/
theorem witness_ModulusContext_bad : ∃ c, demo.here = some c ∧ (c.reads .zmod { zmodO with a := .s 11 }).a 0 = 64 ∧
    (c.reads .zmod { zmodO with a := .zero }).a 0 = 0 := some_and (by decide +kernel)

theorem witness_NeedsModulus : ∃ c, demo.here = some c ∧ c.e.modctx = none := some_and (by decide +kernel)

theorem witness_ButterflyResults : ∃ c, modular.here = some c ∧
    c.e.modctx = some (BitVec.ofNat 64 17, BitVec.ofNat 64 0x0F0F0F0F0F0F0F0F) ∧ c.actsOn { zaddO with perm := .bfly 3 } ≠ [] ∧
    c.e.canWrite c.ke.regs (c.actsOn { zaddO with perm := .bfly 3 }) true zaddO.d = true ∧
    ((Instr.zntt { zaddO with perm := .bfly 3 }).WellFormed ∧ c.readable .zntt { zaddO with perm := .bfly 3 } = true) ∧
    (Instr.zintt { zaddO with perm := .bfly 3 }).WellFormed ∧ c.readable .zintt { zaddO with perm := .bfly 3 } = true :=
  some_and (by decide +kernel)

/-- `iadd.i32 s20, s13, s14` under no mask. -/
theorem witness_ScalarResults : (Instr.iaddLong { plainLong with d := .s 20, a := .s 13, b := .s 14 }).WellFormed ∧
    (itemFormula .iadd { plainLong with d := .s 20, a := .s 13, b := .s 14 }).isSome = true ∧
    ∃ c, demo.here = some c ∧ c.actsOn { plainLong with d := .s 20, a := .s 13, b := .s 14 } = 0 :: (List.range 15).map (· + 1) ∧
      c.readable .iadd { plainLong with d := .s 20, a := .s 13, b := .s 14 } = true ∧
      c.whole { plainLong with d := .s 20, a := .s 13, b := .s 14 } = true ∧
      c.uniSources .iadd { plainLong with d := .s 20, a := .s 13, b := .s 14 } = true :=
  ⟨by decide +kernel, rfl, some_and (by decide +kernel)⟩

/-- With one live item any source will do. -/
def lone : State := machine { entry0 with ended := (List.range 16).map fun i => i != 5 }

theorem witness_ScalarResults_single : ∃ c, lone.here = some c ∧ c.actsOn { addO with d := .s 20 } = [5] ∧
    c.readable .iadd { addO with d := .s 20 } = true ∧ c.e.single = some 5 := some_and (by decide +kernel)

theorem witness_ScalarBreach : (Instr.iaddLong { addO with d := .s 20 }).WellFormed ∧ ∃ c, demo.here = some c ∧
    c.actsOn { addO with d := .s 20 } ≠ [] ∧ c.readable .iadd { addO with d := .s 20 } = true ∧ c.e.single = none ∧
    c.spreadSources .iadd { addO with d := .s 20 } = true := ⟨by decide +kernel, some_and (by decide +kernel)⟩

/-- A guard that holds for some items only. -/
theorem witness_ScalarBreach_guard : (Instr.iaddLong { plainLong with d := .s 20, a := .s 13, b := .s 14, pi := 2 }).WellFormed ∧
    ∃ c, demo.here = some c ∧ c.actsOn { plainLong with d := .s 20, a := .s 13, b := .s 14, pi := 2 } ≠ [] ∧ c.e.single = none ∧
      c.whole { plainLong with d := .s 20, a := .s 13, b := .s 14, pi := 2 } = false := ⟨by decide +kernel, some_and (by decide +kernel)⟩

/-- A guard that is false for every item. -/
theorem witness_NoItems : (Instr.iaddLong { addO with pi := 3 }).WellFormed ∧ ∃ c, demo.here = some c ∧ c.actsOn { addO with pi := 3 } = [] ∧
    c.readable .iadd { addO with pi := 3 } = true := ⟨by decide +kernel, some_and (by decide +kernel)⟩

/-- x2 holds an empty window; queue 1 has elements to come but none queued. -/
def queued : State := machine { entry0 with streams :=
  [none, some { wide := false, base := 0x20000, istride := 4, counts := [8], strides := [4], total := 8, fetched := 7, queued := [], popped := 7,
                op := none, ended := false }, none, none] }

theorem witness_SourceStops_index : (Instr.iaddLong { addO with a := .ind 2 0 }).WellFormed ∧ ∃ c, demo.here = some c ∧
    ((c.actsOn { addO with a := .ind 2 0 }).filter fun j => (c.e.target 2 0 c.ke.regs false j).isNone) = 0 :: (List.range 15).map (· + 1) :=
  ⟨by decide +kernel, some_and (by decide +kernel)⟩

theorem witness_SourceStops_queue : (Instr.iaddLong { addO with a := .q 1 }).WellFormed ∧ ∃ c, queued.here = some c ∧
    ∃ st, c.e.streams.getD 1 none = some st ∧ st.queued = [] ∧ st.ended = false ∧ st.fetched < st.total :=
  ⟨by decide +kernel, some_then (by decide +kernel) (some_and (by decide +kernel))⟩

theorem witness_AffineSums : ∃ c, demo.here = some c ∧ c.whole { plainLong with d := .v 20, a := .v 1, b := .v 2 } = true ∧
    c.actsOn { plainLong with d := .v 20, a := .v 1, b := .v 2 } ≠ [] ∧ (20 : Nat) < c.e.regs.length ∧
    (c.e.readV 1 false).affine = some (5, 2) ∧ (c.e.readV 2 false).affine = some (7, 0) ∧ c.e.single = none := some_and (by decide +kernel)

/-- One value for all items. -/
theorem witness_ResultForms_uni : (Instr.iaddLong { plainLong with d := .v 20, a := .v 2, b := .s 13 }).WellFormed ∧ ∃ c, demo.here = some c ∧
    c.actsOn { plainLong with d := .v 20, a := .v 2, b := .s 13 } ≠ [] ∧ c.readable .iadd { plainLong with d := .v 20, a := .v 2, b := .s 13 } = true ∧
    c.e.single = none ∧ c.whole { plainLong with d := .v 20, a := .v 2, b := .s 13 } = true ∧
    c.uniSources .iadd { plainLong with d := .v 20, a := .v 2, b := .s 13 } = true := ⟨by decide +kernel, some_and (by decide +kernel)⟩

theorem witness_ResultForms_den : ∃ c, demo.here = some c ∧ c.readable .iadd addO = true ∧ (20 : Nat) < c.e.regs.length ∧ c.e.single = none ∧
    c.spreadSources .iadd addO = true := some_and (by decide +kernel)

theorem witness_ResultForms_next : ∃ t, exec (.iaddLong addO) demo = .next t := next_of (by decide +kernel)

theorem witness_PermResults : Runs (.perm addO) .perm addO false := ⟨by decide +kernel, by decide +kernel, some_and (by decide +kernel)⟩

/-- `scan.i32.excl` of MOD 64. -/
theorem witness_ScanResults : Runs (.scan { addO with b := .zero, mod := 64 }) .scan { addO with b := .zero, mod := 64 } false :=
  ⟨by decide +kernel, by decide +kernel, some_and (by decide +kernel)⟩

theorem witness_ReduResults : (Instr.redu { addO with b := .zero, d := .s 20 }).WellFormed ∧ ∃ c, demo.here = some c ∧
    c.readable .redu { addO with b := .zero, d := .s 20 } = true ∧
    c.e.canWriteEvery c.ke.regs (c.actsOn { addO with b := .zero, d := .s 20 }) false (.s 20) = true :=
  ⟨by decide +kernel, some_and (by decide +kernel)⟩

theorem witness_FoldValues : Ty.i32.isInt = true := rfl

theorem witness_StochasticResults : Runs (.qcvt { plainLong with d := .v 20, a := .v 0, ty := .f32, mod := 64 + 0x1C }) .qcvt
    { plainLong with d := .v 20, a := .v 0, ty := .f32, mod := 64 + 0x1C } false :=
  ⟨by decide +kernel, by decide +kernel, some_and (by decide +kernel)⟩

/-- Shifts by the width and by the width less one. -/
theorem witness_ShiftCounts : Runs (.shrLong { addO with ty := .n32, b := .lit, form := .len11, lit := 32 }) .shr
    { addO with ty := .n32, b := .lit, form := .len11, lit := 32 } false ∧
    Runs (.sarLong { addO with b := .lit, form := .len11, lit := 31 }) .sar { addO with b := .lit, form := .len11, lit := 31 } false :=
  ⟨⟨by decide +kernel, by decide +kernel, some_and (by decide +kernel)⟩, by decide +kernel, by decide +kernel, some_and (by decide +kernel)⟩

theorem witness_SignBits : Runs (.fnegLong { addO with b := .zero, ty := .f32 }) .fneg { addO with b := .zero, ty := .f32 } false :=
  ⟨by decide +kernel, by decide +kernel, some_and (by decide +kernel)⟩

/-! ### Control -/

theorem witness_NopResults : ∃ c, demo.here = some c ∧ c.e.pc < 2 ^ 64 := some_and (by decide +kernel)

theorem witness_ExitResults : (Instr.exitLong { plainLong with pi := 2 }).toRaw = some (.long .exit { plainLong with pi := 2 }) ∧
    ∃ c, demo.here = some c ∧ c.actsOn { plainLong with pi := 2 } ≠ [] := ⟨rfl, some_and (by decide +kernel)⟩

theorem witness_EndsItems : ∃ e, demo.entry ⟨0, 0, 0⟩ = some e ∧ e.status = .ready ∧ (0 : Nat) ∉ [3, 15] ∧ e.live 0 = true :=
  some_and (by decide +kernel)

theorem witness_YieldResults : (Instr.yield ⟨false, .zero, .zero⟩).toRaw = some (.short .yield ⟨false, .zero, .zero⟩) ∧
    ∃ c, demo.here = some c ∧ c.e.len = 16 := ⟨rfl, some_and (by decide +kernel)⟩

theorem witness_Transfers : (Instr.retLong { plainLong with a := .s 10 }).toRaw = some (.long .ret { plainLong with a := .s 10 }) ∧
    ∃ c, demo.here = some c ∧ c.e.pc < 2 ^ 64 := ⟨rfl, some_and (by decide +kernel)⟩

/-- A UNI predicate, and one that is not. -/
theorem witness_UniformBranch : ∃ c, demo.here = some c ∧ c.e.pc < 2 ^ 64 ∧ c.e.pred 0 = .uni true ∧ (c.e.pred 2).code ≠ 0 :=
  some_and (by decide +kernel)

theorem witness_ElectResults : (Instr.elect ⟨false, .p 4, .zero⟩).toRaw = some (.short .elect ⟨false, .p 4, .zero⟩) ∧
    ∃ c, demo.here = some c ∧ c.e.preds.length = 7 := ⟨rfl, some_and (by decide +kernel)⟩

theorem witness_IdxResults : Runs (.idxLong { plainLong with d := .v 20, mod := 1 }) .idx { plainLong with d := .v 20, mod := 1 } false ∧
    ∃ c, demo.here = some c ∧ c.whole { plainLong with d := .v 20, mod := 1 } = true ∧ c.e.single = none ∧ (20 : Nat) < c.e.regs.length :=
  ⟨⟨by decide +kernel, by decide +kernel, some_and (by decide +kernel)⟩, some_and (by decide +kernel)⟩

theorem witness_IdxResults_next : ∃ t, exec (.idxLong { plainLong with d := .v 20, mod := 1 }) demo = .next t := next_of (by decide +kernel)

theorem witness_FormofResults : (Instr.formofLong { plainLong with d := .s 20, a := .v 1 }).WellFormed ∧ ∃ c, demo.here = some c ∧
    c.e.canRead c.ke.regs c.e.activeList false (.v 1) = true := ⟨by decide +kernel, some_and (by decide +kernel)⟩

theorem witness_VoteResults : (Instr.voteLong { plainLong with d := .s 20, a := .p 2, mod := 2 }).WellFormed ∧ ∃ c, demo.here = some c ∧
    c.readableFor c.e.activeList .vote { plainLong with d := .s 20, a := .p 2, mod := 2 } = true ∧
    c.e.canWriteEvery c.ke.regs c.e.activeList true (.s 20) = true ∧ ∀ i ∈ c.e.activeList, c.e.posOf i < 64 :=
  ⟨by decide +kernel, some_and (by decide +kernel)⟩

theorem witness_TrapResults : (Instr.trapLong { plainLong with imm := 65535 }).toRaw = some (.long .trap { plainLong with imm := 65535 }) ∧
    ∃ c, demo.here = some c ∧ c.e.status = .ready := ⟨rfl, some_and (by decide +kernel)⟩

def brcO (n : Fin 8) : Long := { plainLong with a := .p n, imm := 14 }

theorem witness_BranchWhole : ∃ c, demo.here = some c ∧ c.e.pc < 2 ^ 64 ∧ c.e.activeList ≠ [] ∧ c.e.pred 0 = .uni true := some_and (by decide +kernel)

theorem witness_BranchCuts : ∃ c, demo.here = some c ∧ c.e.pc < 2 ^ 64 ∧ c.e.activeList ≠ [] ∧ c.e.pred 1 = .aff 8 true ∧
    c.slot.freePos = 1 :: (List.range 6).map (· + 2) ∧ c.e.start < 8 ∧ 8 < c.e.start + c.e.len ∧ (7 < 8 - c.e.start ∧ c.e.live 7 = true) ∧
    8 - c.e.start ≤ 8 ∧ c.e.live 8 = true := some_and (by decide +kernel)

/-- A predicate held item by item. -/
theorem witness_BranchMasks : ∃ c, demo.here = some c ∧ c.e.pc < 2 ^ 64 ∧ c.e.activeList ≠ [] ∧
    c.e.pred 2 = .den ((List.range 16).map fun i => i % 2 == 0) := some_and (by decide +kernel)

/-- A full piece table. -/
def crowded : State := { demo with slots := [⟨0, 0, 0, 0, (List.range 8).map fun p => { entry0 with pos := p }⟩] }

theorem witness_BranchMasks_full : ∃ c, crowded.here = some c ∧ c.e.pred 1 = .aff 8 true ∧ c.slot.freePos = [] ∧ c.e.activeList ≠ [] :=
  some_and (by decide +kernel)

theorem witness_JoinResults : (Instr.join ⟨false, .zero, .zero⟩).toRaw = some (.short .join ⟨false, .zero, .zero⟩) ∧
    (∃ c, demo.here = some c ∧ c.e.levels = []) ∧
    (∃ c, (machine { entry0 with levels := [.cut 4 2] }).here = some c ∧ c.e.levels = [.cut 4 2]) ∧
    (∃ c, (machine { entry0 with levels := [.mask (List.replicate 16 true) 0x10040 (List.replicate 16 true) 1] }).here = some c ∧
      c.e.levels = [.mask (List.replicate 16 true) 0x10040 (List.replicate 16 true) 1]) ∧
    ∃ c, (machine { entry0 with levels := [.mask (List.replicate 16 true) 0x10040 (List.replicate 16 false) 1] }).here = some c ∧
      c.e.levels = [.mask (List.replicate 16 true) 0x10040 (List.replicate 16 false) 1] :=
  ⟨rfl, some_and (by decide +kernel), some_and (by decide +kernel), some_and (by decide +kernel), some_and (by decide +kernel)⟩

/-- Two pieces of a strand: items 0 to 7 and 8 to 15, both at their JOIN. -/
def piece (p start len : Nat) : Entry := { entry0 with
  pos := p, start := start, len := len, status := .atJoin, levels := [.cut 9 2], regs := List.replicate 128 (.uni 3), preds := List.replicate 7 (.uni false)
  xregs := List.replicate 8 (.uni 0), mask := List.replicate len true, dead := List.replicate len false, ended := List.replicate len false }

theorem witness_MergeKeepsValues : Contiguous [piece 0 0 8, piece 1 8 8] ∧ piece 1 8 8 ∈ [piece 0 0 8, piece 1 8 8] ∧ (piece 1 8 8).live 7 = true :=
  ⟨⟨rfl, trivial⟩, by simp, by decide +kernel⟩

def split2 : State := { demo with slots := [⟨0, 0, 0, 0, [piece 0 0 8, piece 1 8 8]⟩] }

theorem witness_RejoinResults : ∃ x, split2.slot 0 0 = some x ∧ x.entries = [piece 0 0 8, piece 1 8 8] ∧ (piece 0 0 8).pos ≠ (piece 1 8 8).pos ∧
    (piece 0 0 8).status = .atJoin ∧ (piece 0 0 8).levels = [.cut 9 2] ∧ (piece 1 8 8).levels = [.cut 9 2] ∧
    (piece 0 0 8).start + (piece 0 0 8).len = (piece 1 8 8).start ∧
    (∀ k, k < 4 → (piece 0 0 8).counts.getD k 0 + (piece 1 8 8).counts.getD k 0 ≤ 63) ∧ (piece 0 0 8).live 0 = true ∧
    (piece 0 0 8).pc = (piece 1 8 8).pc ∧ 0 < (piece 0 0 8).len ∧ (piece 1 8 8).status = .atJoin ∧ (split2.slots.filter fun y => decide (y.core = 0) && decide (y.num = 0)) = [x] :=
  some_and (by decide +kernel)

def splitO : Long := { plainLong with d := .s 20, mod := 1 }

/-- A strand of 16 under `.w16` stays; one of 64 makes four. -/
theorem witness_SplitResults : ∃ c, demo.here = some c ∧ (20 : Nat) < c.e.scalars.length ∧ c.e.width ≤ 16 := some_and (by decide +kernel)

def wide64 : State := machine { entry0 with len := 64, width := 64, regs := List.replicate 128 (.uni 3), xregs := List.replicate 8 (.uni 0)
                                            preds := List.replicate 7 (.uni false), mask := List.replicate 64 true, dead := List.replicate 64 false
                                            ended := List.replicate 64 false }

theorem witness_SplitResults_wide : ∃ c, wide64.here = some c ∧ (20 : Nat) < c.e.scalars.length ∧ 16 < c.e.width ∧ 0 < c.e.len ∧
    (c.e.len + 16 - 1) / 16 ≤ 1 + c.slot.freePos.length ∧ ∀ k, k < 4 → k * 16 < c.e.len ∧ c.e.live (k * 16) = true := some_and (by decide +kernel)

def fuseO : Long := { plainLong with d := .s 20 }

theorem witness_FuseResults_alone : ∃ c, demo.here = some c ∧ c.fusePartner false = (1, none) ∧ c.abutting false = [] := some_and (by decide +kernel)

/-- Two strands of 16 side by side, both at the same instruction. -/
def twin (p start : Nat) : Entry := { piece p start 16 with status := .ready, levels := [], wstart := start, width := 16, snum := p }
def twins : State := { demo with slots := [⟨0, 0, 0, 0, [twin 0 0, twin 1 16]⟩], flights := [{ flight0 with last := 31 }] }

/-- An operation that has not retired. -/
def busy : AsyncOp := ⟨0, 0, 0, 0, false, 0, 0, .matrix 0⟩

def twinsBusy : State := { twins with slots := [⟨0, 0, 0, 0, [twin 0 0, { twin 1 16 with ops := [busy] }]⟩] }

theorem witness_FuseResults_waits : ∃ c, twinsBusy.here = some c ∧ ∃ p, (c.fusePartner false).2 = some p ∧ (c.fusePartner false).1 = 0 ∧ p.2.ops ≠ [] :=
  some_then (by decide +kernel) (some_and (by decide +kernel))

theorem witness_FuseMerges : ∃ c, twins.here = some c ∧ (20 : Nat) < c.e.scalars.length ∧ c.slot.entries = [c.e, twin 1 16] ∧ c.e.pos ≠ (twin 1 16).pos ∧
    (twins.slots.filter fun y => decide (y.core = c.slot.core) && decide (y.num = c.slot.num)) = [c.slot] ∧
    c.fusePartner false = (0, some (c.slot, twin 1 16)) ∧ c.e.ops = [] ∧ (twin 1 16).ops = [] ∧ c.e.levels = [] ∧ (twin 1 16).levels = [] ∧
    c.e.start + c.e.len = (twin 1 16).start ∧ c.e.live 0 = true ∧ 0 < c.e.len ∧ (twin 1 16).status = .ready := some_and (by decide +kernel)

def yieldcO : Long := { plainLong with mod := 4, imm := 7 }

/-- Counts at, and above, the threshold 1. -/
theorem witness_YieldcResults : (∃ c, (machine { entry0 with counts := [1, 0, 0, 0] }).here = some c ∧ c.e.counts.getD (yieldcO.mod.val % 4) 0 ≤ yieldcO.mod.val / 4) ∧
    ∃ c, (machine { entry0 with counts := [2, 0, 0, 0] }).here = some c ∧ yieldcO.mod.val / 4 < c.e.counts.getD (yieldcO.mod.val % 4) 0 :=
  ⟨some_and (by decide +kernel), some_and (by decide +kernel)⟩

def reordO : Long := { plainLong with a := .v 0, b := .v 10, imm := 6 }

/-- A launch with a deposit region of 1 KiB in page 2. -/
def depositing : State := machine (l := { placeLaunch with deposit := some ⟨0x20000, 1024, 3⟩ })

theorem witness_ReordResults : SoundStore depositing ∧ ∃ c, depositing.here = some c ∧ c.kept ∧ c.s.unsettled c.slot c.e = [] ∧ Room 16 c ∧ c.ref.core < depositing.cores.length ∧ c.actsOn reordO = 0 :: (List.range 15).map (· + 1) ∧
    c.readable .reord reordO = true ∧ c.la.deposit = some ⟨0x20000, 1024, 3⟩ ∧ c.e.pc < 2 ^ 64 ∧ c.ke.code < 2 ^ 64 ∧
    c.overlap 0 true ((c.actsOn reordO).map fun i => ⟨i, 0x20000 + 64 * (c.e.start + i), 64⟩) = none ∧
    (∀ i ∈ c.actsOn reordO, c.s.check c.agent (some c.ref.core) .store (0x20000 + 64 * (c.e.start + i)) 64 1 = .ok [(0x200000 + 64 * i, 64)]) ∧
    ∀ i ∈ c.actsOn reordO, ∀ j ∈ c.actsOn reordO, i ≠ j → 0x200000 + 64 * i + 64 ≤ 0x200000 + 64 * j ∨ 0x200000 + 64 * j + 64 ≤ 0x200000 + 64 * i :=
  ⟨by unfold SoundStore SoundMemory; decide +kernel, kept_and (by decide +kernel)⟩

/-! ### Memory -/

/-- Physical address of a device address in page 2. -/
def paOf (va : Nat) : Nat := va + 0x1E0000

def ldO : Long := { plainLong with d := .v 20, a := .v 6, ty := .n32 }

/-- What the statements on loads and stores ask of an access by every item to its own word of page 2. -/
def Serves (s : State) (i : Instr) (op : Op) (o : Long) (k : AccKind) (reach : Ctx → List (Nat × Nat)) (n : Nat) : Prop :=
  i.WellFormed ∧ ∃ c, s.here = some c ∧ c.served k n (reach c) paOf ∧ c.actsOn o ≠ [] ∧ c.readable op o = true ∧
    c.e.canWrite c.ke.regs (c.actsOn o) o.ty.wide o.d = true

theorem witness_LoadResults : Serves demo (.ld ldO) .ld ldO .load (fun c => c.reaches ldO fun i => addrOf ldO ((c.reads .ld ldO).a i)) 4 :=
  ⟨by decide +kernel, served_and (by decide +kernel)⟩

/-- An acquire load at system scope. -/
theorem witness_LoadResults_acquire : Serves demo (.ld { ldO with mod := 17 }) .ld { ldO with mod := 17 } .load
    (fun c => c.reaches ldO fun i => addrOf ldO ((c.reads .ld ldO).a i)) 4 :=
  ⟨by decide +kernel, served_and (by decide +kernel)⟩

def ldpO : Long := { plainLong with d := .v 20, a := .s 10, ty := .n32, mod := 8 }

theorem witness_LoadsWords : (20 : Nat) + 4 ≤ 128 ∧ Serves demo (.ldp ldpO) .ldp ldpO .load
    (fun c => c.reachesWords ldpO (fun i => addrOf ldpO ((c.reads .ldp ldpO).a i)) 4) 4 :=
  ⟨by decide, by decide +kernel, served_and (by decide +kernel)⟩

def ldsO : Long := { plainLong with d := .v 20, a := .v 8, ty := .n32, imm := 4032 }

/-- What they ask of an access to the scratchpad. -/
def ServesSpad (i : Instr) (op : Op) (o : Long) (writes reads : Bool) (reach : Ctx → List (Nat × Nat)) (n : Nat) : Prop :=
  i.WellFormed ∧ ∃ c, demo.here = some c ∧ c.actsOn o ≠ [] ∧ c.readable op o = true ∧
    c.overlap 1 writes ((reach c).map fun a => ⟨a.1, a.2, n⟩) = none ∧
    (∀ a ∈ reach c, a.2 % n = 0 ∧ a.2 + n ≤ c.fl.spadSize ∧ (reads = true → c.fl.damagedIn a.2 n = false)) ∧
    c.e.canWrite c.ke.regs (c.actsOn o) o.ty.wide o.d = true

/-- Item 15 reaches the last word of the allocation. -/
theorem witness_LoadsScratchpad : ServesSpad (.lds ldsO) .lds ldsO false true (fun c => c.reaches ldsO fun i => offsetOf ldsO ((c.reads .lds ldsO).a i)) 4 ∧
    ∃ c, demo.here = some c ∧ offsetOf ldsO ((c.reads .lds ldsO).a 15) + 4 = c.fl.spadSize ∧ c.mustWait (ldsO.mod.val % 4) (ldsO.mod.val / 4 % 8) = false :=
  ⟨⟨by decide +kernel, some_and (by decide +kernel)⟩, some_and (by decide +kernel)⟩

def stO : Long := { plainLong with a := .v 6, b := .v 0, ty := .n32 }

theorem witness_StoreResults : SoundStore demo ∧ Serves demo (.st stO) .st stO .store
    (fun c => c.reaches stO fun i => addrOf stO ((c.reads .st stO).a i)) 4 ∧ ∃ c, demo.here = some c ∧ c.mustWait (stO.mod.val % 4) (stO.mod.val / 4 % 8) = false :=
  ⟨demo_sound, ⟨by decide +kernel, served_and (by decide +kernel)⟩, some_and (by decide +kernel)⟩

/-- A release store at device scope. -/
theorem witness_StoreResults_release : Serves demo (.st { stO with mod := 18 }) .st { stO with mod := 18 } .store
    (fun c => c.reaches stO fun i => addrOf stO ((c.reads .st stO).a i)) 4 ∧ ∃ c, demo.here = some c ∧ c.mustWait 2 4 = false :=
  ⟨⟨by decide +kernel, served_and (by decide +kernel)⟩, some_and (by decide +kernel)⟩

def stpO : Long := { plainLong with a := .s 10, b := .v 8, ty := .n32, mod := 12 }

theorem witness_StoresWords : Serves demo (.stp stpO) .stp stpO .store
    (fun c => c.reachesWords stpO (fun i => addrOf stpO ((c.reads .stp stpO).a i)) 8) 4 := ⟨by decide +kernel, served_and (by decide +kernel)⟩

def stsO : Long := { plainLong with a := .v 8, b := .v 0, ty := .n32 }

theorem witness_StoresScratchpad : SoundStore demo ∧ ServesSpad (.sts stsO) .sts stsO true false
    (fun c => c.reaches stsO fun i => offsetOf stsO ((c.reads .sts stsO).a i)) 4 := ⟨demo_sound, by decide +kernel, some_and (by decide +kernel)⟩

theorem witness_PrefetchResults : ∃ c, demo.here = some c ∧ c.actsOn { plainLong with a := .v 6 } ≠ [] ∧ c.readable .pref { plainLong with a := .v 6 } = true ∧ Room 16 c :=
  some_and (by decide +kernel)

/-- The lines that the demo holds take one way of eight in their sets. -/
theorem witness_PrefetchResults_tier : (∀ line, ∃ w, demo.freeWay 1 line = some (w, demo)) ∧ ∃ c, lone.here = some c ∧ (c.actsOn { plainLong with a := .v 6 }).length = 1 := by
  refine ⟨fun line => ?_, some_and (by decide +kernel)⟩
  have hw : (9 : Nat) ∈ demo.quota 1 := by decide +kernel
  have hl : ∀ h ∈ demo.tier.lines, h.way = 8 := by decide +kernel
  unfold State.freeWay
  simp only
  cases hf : (demo.quota 1).find? fun w => !((demo.tier.lines.filter fun h => decide (h.line % tierSets = line % tierSets)).any fun h => decide (h.way = w)) with
  | some w => exact ⟨w, rfl⟩
  | none =>
    have := List.find?_eq_none.mp hf 9 hw
    simp only [Bool.not_eq_true, Bool.not_eq_false', List.any_eq_true, List.mem_filter, decide_eq_true_eq] at this
    obtain ⟨h, ⟨hm, _⟩, h9⟩ := this
    have := hl h hm
    omega

def chkbO : Long := { plainLong with a := .v 10, b := .s 15, c := .s 14, ty := .i32, imm := 2 }

/-- i + 2 ≤ 17 for every item: item 15 passes with nothing to spare, and fails by one under IMM 3. -/
theorem witness_CheckResults : ∃ c, demo.here = some c ∧ c.actsOn chkbO ≠ [] ∧ c.readable .chkb chkbO = true ∧
    (∀ i ∈ c.actsOn chkbO, intOf chkbO.ty ((c.reads .chkb chkbO).b i) ≤ intOf chkbO.ty ((c.reads .chkb chkbO).a i) ∧
      intOf chkbO.ty ((c.reads .chkb chkbO).a i) + chkbO.imm.val ≤ intOf chkbO.ty ((c.reads .chkb chkbO).c i)) ∧
    ((c.actsOn chkbO).filter fun i => !(decide (intOf chkbO.ty ((c.reads .chkb { chkbO with imm := 3 }).b i) ≤ intOf chkbO.ty ((c.reads .chkb { chkbO with imm := 3 }).a i)) &&
      decide (intOf chkbO.ty ((c.reads .chkb { chkbO with imm := 3 }).a i) + 3 ≤ intOf chkbO.ty ((c.reads .chkb { chkbO with imm := 3 }).c i)))) = [15] :=
  some_and (by decide +kernel)

def chkxO : Long := { plainLong with a := .x 0, imm := 16 }

/-- x0 is the window [0, 16); it passes CHKX 16 and fails CHKX 17. -/
theorem witness_CheckResults_window : ∃ c, demo.here = some c ∧ c.actsOn chkxO ≠ [] ∧ c.readable .chkx chkxO = true ∧
    (∀ i ∈ c.actsOn chkxO, ((c.reads .chkx chkxO).a i).toNat % 256 + 16 ≤ ((c.reads .chkx chkxO).a i).toNat / 256 % 256 ∧
      ((c.reads .chkx chkxO).a i).toNat / 256 % 256 ≤ c.ke.regs) ∧
    ((c.actsOn chkxO).filter fun i => decide (((c.reads .chkx { chkxO with imm := 17 }).a i).toNat / 256 % 256 < ((c.reads .chkx { chkxO with imm := 17 }).a i).toNat % 256 + 17) ||
      decide (c.ke.regs < ((c.reads .chkx { chkxO with imm := 17 }).a i).toNat / 256 % 256)) = 0 :: (List.range 15).map (· + 1) :=
  some_and (by decide +kernel)

theorem witness_WindowResults : Runs (.xset { plainLong with d := .x 3, a := .s 13, b := .s 14, ty := .n32 }) .xset
    { plainLong with d := .x 3, a := .s 13, b := .s 14, ty := .n32 } false := ⟨by decide +kernel, by decide +kernel, some_and (by decide +kernel)⟩

def atomO : Long := { plainLong with d := .v 20, a := .v 6, b := .v 0, ty := .n32, mod := 12 }

theorem witness_AtomicResults : SoundStore demo ∧ Serves demo (.atom atomO) .atom atomO .atomic
    (fun c => c.reaches atomO fun i => ((c.reads .atom atomO).a i).toNat) 4 ∧ ∃ c, demo.here = some c ∧ c.mustWait 0 3 = false ∧
      ∀ j ∈ c.actsOn atomO, ∀ k ∈ c.actsOn atomO, j ≠ k →
        paOf ((c.reads .atom atomO).a j).toNat + 4 ≤ paOf ((c.reads .atom atomO).a k).toNat ∨
          paOf ((c.reads .atom atomO).a k).toNat + 4 ≤ paOf ((c.reads .atom atomO).a j).toNat :=
  ⟨demo_sound, ⟨by decide +kernel, served_and (by decide +kernel)⟩, some_and (by decide +kernel)⟩

def casO : Long := { atomO with c := .v 2 }

theorem witness_AtomicResults_cas : Serves demo (.cas casO) .cas casO .atomic (fun c => c.reaches casO fun i => ((c.reads .cas casO).a i).toNat) 4 :=
  ⟨by decide +kernel, served_and (by decide +kernel)⟩

def sumO : Long := { plainLong with a := .s 10, b := .v 0, ty := .n32, mod := 12 }

theorem witness_AtomicsInOrder : SoundStore demo ∧ Serves demo (.atom sumO) .atom sumO .atomic (fun c => c.reaches sumO fun _ => 0x20000) 4 ∧
    ∃ c, demo.here = some c ∧ c.coherent 3 = true ∧ ∀ j ∈ c.actsOn sumO, ((c.reads .atom sumO).a j).toNat = 0x20000 :=
  ⟨demo_sound, ⟨by decide +kernel, served_and (by decide +kernel)⟩, some_and (by decide +kernel)⟩

def atomsO : Long := { plainLong with d := .v 20, a := .v 8, b := .v 0, ty := .n32, mod := 4 }

theorem witness_ScratchpadAtomics : SoundStore demo ∧ ServesSpad (.atoms atomsO) .atoms atomsO true true
    (fun c => c.reaches atomsO fun j => ((c.reads .atoms atomsO).a j).toNat % 2 ^ 32) 4 ∧ ∃ c, demo.here = some c ∧
      ∀ j ∈ c.actsOn atomsO, ∀ k ∈ c.actsOn atomsO, j ≠ k →
        ((c.reads .atoms atomsO).a j).toNat % 2 ^ 32 + 4 ≤ ((c.reads .atoms atomsO).a k).toNat % 2 ^ 32 ∨
          ((c.reads .atoms atomsO).a k).toNat % 2 ^ 32 + 4 ≤ ((c.reads .atoms atomsO).a j).toNat % 2 ^ 32 :=
  ⟨demo_sound, ⟨by decide +kernel, some_and (by decide +kernel)⟩, some_and (by decide +kernel)⟩

def cassO : Long := { plainLong with d := .v 20, a := .v 8, b := .v 0, c := .v 2, ty := .n32, mod := 64 }

theorem witness_ScratchpadAtomics_cas : ServesSpad (.cas cassO) .cas cassO true true
    (fun c => c.reaches cassO fun j => ((c.reads .cas cassO).a j).toNat % 2 ^ 32) 4 := ⟨by decide +kernel, some_and (by decide +kernel)⟩

def fenceO : Long := { plainLong with mod := 3 + 4 * 3 }

theorem witness_FenceResults : (Instr.fence fenceO).WellFormed ∧ ∃ c, demo.here = some c ∧ c.mustWait 3 3 = false ∧ c.actsOn fenceO ≠ [] ∧
    c.actsOn { fenceO with pi := 3 } = [] := ⟨by decide +kernel, some_and (by decide +kernel)⟩

theorem witness_ReleasePublishes : 3 ≤ 3 ∧ SoundStore demo ∧ ∃ c, demo.here = some c ∧ c.ref.core < demo.cores.length ∧
    (demo.core c.ref.core).cache = [] :=
  ⟨by decide, demo_sound, some_and (by decide +kernel)⟩

theorem witness_AcquireSees : 3 ≤ 4 ∧ SoundStore demo ∧ ∃ c, demo.here = some c ∧ c.ref.core < demo.cores.length :=
  ⟨by decide, demo_sound, some_and (by decide +kernel)⟩

def cmaintO : Long := { plainLong with a := .s 10, b := .s 11 }

theorem witness_MaintainResults : (Instr.cmaint cmaintO).WellFormed ∧ SoundStore demo ∧ ∃ c, demo.here = some c ∧ c.kept ∧ c.actsOn cmaintO ≠ [] ∧
    c.readable .cmaint cmaintO = true ∧ c.ref.core < demo.cores.length ∧ c.s.unsettled c.slot c.e = [] ∧
    (∀ i ∈ c.actsOn cmaintO, c.rangeTag ((c.reads .cmaint cmaintO).a i).toNat (((c.reads .cmaint cmaintO).b i).toNat % 2 ^ 32) = none) ∧
    c.rangeSectors demo 0x20000 64 = [0x4000] := ⟨by decide +kernel, demo_sound, kept_and (by decide +kernel)⟩

/-- One item. -/
theorem witness_MaintainResults_one : ∃ c, lone.here = some c ∧ c.actsOn cmaintO = [5] := some_and (by decide +kernel)

/-! ### Locks, waits and barriers -/

def lockO : Long := { plainLong with d := .s 20, a := .s 10, mod := 32 + 2 }

/-- The first item of an entry of 16 and those after it. -/
def all16 : List Nat := 0 :: (List.range 15).map (· + 1)

/-- What the statements on locks ask of an access to the word at 0x20000. -/
def ServesLock (s : State) (i : Instr) (op : Op) (o : Long) : Prop :=
  i.WellFormed ∧ ∃ c, s.here = some c ∧ c.served .atomic 8 [(0, 0x20000)] (fun _ => 0x200000) ∧ c.actsOn o = all16 ∧ c.readable op o = true ∧
    c.uniSources op o = true ∧ addrOf o ((c.reads op o).a 0) = 0x20000 ∧ c.e.canWriteEvery c.ke.regs c.e.activeList false o.d = true ∧
    c.mustWait 2 (o.mod.val / 32 + 2) = false

/-- A word that some other entry holds. -/
def lockHeld : State := demo.pokeN 0x200000 8 0x8001000000000040

theorem witness_LockResults : SoundStore demo ∧ ServesLock demo (.lock lockO) .lock lockO ∧ ∃ c, demo.here = some c ∧
    leNat ((List.range 8).map fun k => atomicView c demo 3 (0x200000 + k)) = 0 :=
  ⟨demo_sound, ⟨by decide +kernel, served_and (accs := fun _ => [(0, 0x20000)]) (by decide +kernel)⟩, some_and (by decide +kernel)⟩

theorem witness_LockResults_held : SoundStore lockHeld ∧ ServesLock lockHeld (.lock lockO) .lock lockO ∧ ∃ c, lockHeld.here = some c ∧
    leNat ((List.range 8).map fun k => atomicView c lockHeld 3 (0x200000 + k)) ≠ 0 :=
  ⟨by unfold SoundStore SoundMemory; decide +kernel, ⟨by decide +kernel, served_and (accs := fun _ => [(0, 0x20000)]) (by decide +kernel)⟩, some_and (by decide +kernel)⟩

def unlockO : Long := { plainLong with d := .s 20, a := .s 10, mod := 32 }

/-- The word of the entry itself: owner 1 from item 0. -/
def lockMine : State := demo.pokeN 0x200000 8 (2 ^ 63 + 2 ^ 48 + placeLaunch.tag * 2 ^ 32)

theorem witness_UnlockResults : SoundStore lockMine ∧ ServesLock lockMine (.unlock unlockO) .unlock unlockO ∧ ∃ c, lockMine.here = some c ∧
    leNat ((List.range 8).map fun k => atomicView c lockMine 3 (0x200000 + k)) = c.identity.toNat :=
  ⟨by unfold SoundStore SoundMemory; decide +kernel, ⟨by decide +kernel, served_and (accs := fun _ => [(0, 0x20000)]) (by decide +kernel)⟩, some_and (by decide +kernel)⟩

theorem witness_UnlockResults_other : ServesLock lockHeld (.unlock unlockO) .unlock unlockO ∧ ∃ c, lockHeld.here = some c ∧
    leNat ((List.range 8).map fun k => atomicView c lockHeld 3 (0x200000 + k)) ≠ c.identity.toNat :=
  ⟨⟨by decide +kernel, served_and (accs := fun _ => [(0, 0x20000)]) (by decide +kernel)⟩, some_and (by decide +kernel)⟩

/-- The entry waits on a LOCK until clock 64 × 2^2. -/
def lockWaits : State := machine { entry0 with status := .parked (.lock lockO 3 0x20000) (some 256) }

theorem witness_LockRetryResults : SoundStore lockWaits ∧ ∃ c, lockWaits.ctxAt ⟨0, 0, 0⟩ = some c ∧ c.kept ∧
    c.e.status = .parked (.lock lockO 3 0x20000) (some 256) ∧ c.s.unsettled c.slot c.e = [] ∧ Room 1 c ∧ 0 < lockWaits.cores.length ∧
    lockWaits.check c.agent (some 0) .atomic 0x20000 8 8 = .ok [(0x200000, 8)] ∧ lockWaits.lockBefore 3 0x20000 = false ∧
    c.e.canWriteEvery c.ke.regs c.e.activeList false lockO.d = true ∧ ∀ k, k < 8 → atomicView c lockWaits 3 (0x200000 + k) = 0 :=
  ⟨by unfold SoundStore SoundMemory; decide +kernel, kept_and (by decide +kernel)⟩

/-- A or B of a barrier instruction at offset 64 (s11). -/
def barO : Long := { plainLong with d := .s 20, a := .s 11, b := .s 13, mod := 1 }

/-- A registered barrier that expects 20 arrivals, with 18 counted in phase 7. -/
def barred : State := machine (f := { flight0 with bars := [⟨64, true, [], 0⟩], spad := Memory.writeN [] 64 (leBytes 8 (20 + 18 * 2 ^ 24 + 7 * 2 ^ 48 + 2 ^ 63)) })

/-- What the statements on barriers ask. -/
def ServesBar (s : State) (i : Instr) (op : Op) (o : Long) : Prop :=
  i.WellFormed ∧ ∃ c, s.here = some c ∧ c.actsOn o = all16 ∧ c.readable op o = true ∧ c.uniSources op o = true ∧
    c.s.unsettled c.slot c.e = [] ∧ ((c.reads op o).a 0).toNat = 64 ∧ c.e.canWriteEvery c.ke.regs c.e.activeList false o.d = true ∧ 64 + 8 ≤ c.fl.spadSize

theorem witness_BarrierInit : SoundStore demo ∧ ServesBar demo (.bari barO) .bari barO ∧ SoundStore barred ∧ ServesBar barred (.bari barO) .bari barO ∧
    (∃ c, demo.here = some c ∧ bits (c.fl.word 64) 63 1 = 0 ∧ c.fl.bars.length < 16) ∧ ∃ c, barred.here = some c ∧ bits (c.fl.word 64) 24 24 = 18 :=
  ⟨demo_sound, ⟨by decide +kernel, some_and (by decide +kernel)⟩, by unfold SoundStore SoundMemory; decide +kernel, ⟨by decide +kernel, some_and (by decide +kernel)⟩,
    some_and (by decide +kernel), some_and (by decide +kernel)⟩

def barvO : Long := { barO with b := .zero, mod := 0 }
def barnO : Long := { barO with mod := 0 }

/-- BARV arrives 16 times, past 20; BARN five times. -/
theorem witness_BarrierArrivals : SoundStore barred ∧ ServesBar barred (.barv barvO) .barv barvO ∧ ServesBar barred (.barn barnO) .barn barnO ∧
    ∃ c, barred.here = some c ∧ (c.fl.bars.find? fun b => decide (b.off = 64)) = some ⟨64, true, [], 0⟩ ∧ bits (c.fl.word 64) 63 1 = 1 ∧
      bits (c.fl.word 64) 0 24 = 20 ∧ ((c.reads .barn barnO).b 0).toNat = 5 :=
  ⟨by unfold SoundStore SoundMemory; decide +kernel, ⟨by decide +kernel, some_and (by decide +kernel)⟩, ⟨by decide +kernel, some_and (by decide +kernel)⟩,
    some_and (by decide +kernel)⟩

/-- B is 0x20000 × 2^9. -/
def barnBad : Long := { barnO with b := .lit, form := .len11, lit := 2 ^ 24 }

theorem witness_BarrierCountBad : ServesBar barred (.barn barnBad) .barn barnBad ∧ ∃ c, barred.here = some c ∧
    (c.fl.bars.find? fun b => decide (b.off = 64)) = some ⟨64, true, [], 0⟩ ∧ bits (c.fl.word 64) 63 1 = 1 ∧
    2 ^ 24 ≤ ((c.reads .barn barnBad).b 0).toNat := ⟨⟨by decide +kernel, some_and (by decide +kernel)⟩, some_and (by decide +kernel)⟩

def barwO : Long := { barO with mod := 2 }
def barwSame : Long := { barwO with b := .v 2 }

/-- The phase is 7: s13 holds 5 and v2 holds 7. -/
theorem witness_BarrierWaits : ServesBar barred (.barw barwO) .barw barwO ∧ ServesBar barred (.barw barwSame) .barw barwSame ∧ ∃ c, barred.here = some c ∧
    bits (c.fl.word 64) 48 15 ≠ ((c.reads .barw barwO).b 0).toNat % 2 ^ 15 ∧ bits (c.fl.word 64) 48 15 = ((c.reads .barw barwSame).b 0).toNat % 2 ^ 15 :=
  ⟨⟨by decide +kernel, some_and (by decide +kernel)⟩, ⟨by decide +kernel, some_and (by decide +kernel)⟩, some_and (by decide +kernel)⟩

theorem witness_BarrierUninit : ServesBar demo (.barv barvO) .barv barvO ∧ ServesBar demo (.barn barnO) .barn barnO ∧ ServesBar demo (.barw barwO) .barw barwO ∧
    ∃ c, demo.here = some c ∧ (c.fl.bars.find? fun b => decide (b.off = 64)) = none :=
  ⟨⟨by decide +kernel, some_and (by decide +kernel)⟩, ⟨by decide +kernel, some_and (by decide +kernel)⟩,
    ⟨by decide +kernel, some_and (by decide +kernel)⟩, some_and (by decide +kernel)⟩

/-- Class 1, threshold 1. -/
def waitcO : Long := { plainLong with d := .s 20, imm := 1 + 4, mod := 2 }

theorem witness_WaitcResults : (Instr.waitc waitcO).WellFormed ∧ (∃ c, demo.here = some c ∧ c.s.unsettled c.slot c.e = [] ∧ c.actsOn waitcO = all16 ∧
      c.e.canWriteEvery c.ke.regs c.e.activeList false waitcO.d = true ∧ c.e.counts.getD 1 0 ≤ 1) ∧
    ∃ c, (machine { entry0 with counts := [0, 2, 0, 0] }).here = some c ∧ c.actsOn waitcO = all16 ∧ 1 < c.e.counts.getD 1 0 :=
  ⟨by decide +kernel, some_and (by decide +kernel), some_and (by decide +kernel)⟩

/-- The word at each item's address against 0: `eq`, then `ne`, at device scope. -/
def waitvO : Long := { plainLong with d := .s 20, a := .v 6, b := .v 9, ty := .n32, imm := 8 * 3, mod := 2 }

theorem witness_WaitvResults : (Instr.waitv waitvO).WellFormed ∧ (Instr.waitv { waitvO with imm := 25 }).WellFormed ∧ ∃ c, demo.here = some c ∧
    c.served .load 4 (c.reaches waitvO fun i => ((c.reads .waitv waitvO).a i).toNat) (fun va => va + 0x1E0000) ∧ c.actsOn waitvO = all16 ∧
    c.readable .waitv waitvO = true ∧ c.e.canWriteEvery c.ke.regs c.e.activeList false waitvO.d = true ∧
    ((c.actsOn waitvO).all fun i => compares 0 (intOf .n32 (storePat .n32 (leNat ((c.acquire demo 3 false).seen 0
      (((c.reads .waitv waitvO).a i).toNat + 0x1E0000) 4)))) (intOf .n32 ((c.reads .waitv waitvO).b i))) = true :=
  ⟨by decide +kernel, by decide +kernel, served_and (accs := fun c => c.reaches waitvO fun i => ((c.reads .waitv waitvO).a i).toNat) (by decide +kernel)⟩

def yieldcWaits : State := machine { entry0 with status := .parked (.yieldc 1 1 0x10000) none }
def barwWaits : State := { machine { entry0 with status := .parked (.barw barwO 64 5) (some 256) } with clock := 256 }

theorem witness_WaitWakes : (∃ c, yieldcWaits.ctxAt ⟨0, 0, 0⟩ = some c ∧ c.e.status = .parked (.yieldc 1 1 0x10000) none ∧ c.e.counts.getD 1 0 ≤ 1) ∧
    (∃ c, (machine { entry0 with status := .parked (.yieldc 1 1 0x10000) none, counts := [0, 2, 0, 0] }).ctxAt ⟨0, 0, 0⟩ = some c ∧
      c.e.status = .parked (.yieldc 1 1 0x10000) none ∧ 1 < c.e.counts.getD 1 0) ∧
    (∃ c, barwWaits.ctxAt ⟨0, 0, 0⟩ = some c ∧ c.e.status = .parked (.barw barwO 64 5) (some 256) ∧ 256 ≤ barwWaits.clock ∧
      c.e.canWriteEvery 128 c.e.activeList false barwO.d = true) := ⟨some_and (by decide +kernel), some_and (by decide +kernel), some_and (by decide +kernel)⟩

/-- One item of the entry is under the mask, and its WAITV holds now. -/
def waitv1 : Long := { waitvO with a := .s 10 }
def waitvReady : State := machine { entry0 with status := .parked (.waitv waitv1) none, mask := (List.range 16).map fun i => i == 4 }

theorem witness_WaitWakes_again : (Instr.waitv waitv1).WellFormed ∧ ∃ c, waitvReady.ctxAt ⟨0, 0, 0⟩ = some c ∧ c.kept ∧ c.e.status = .parked (.waitv waitv1) none ∧
    c.s.unsettled c.slot c.e = [] ∧ Room 1 c ∧ c.actsOn waitv1 = [4] ∧ c.readable .waitv waitv1 = true ∧ ((c.reads .waitv waitv1).a 4).toNat = 0x20000 ∧
    waitvReady.check c.agent (some 0) .load 0x20000 4 4 = .ok [(0x200000, 4)] ∧
    compares 0 (intOf .n32 (storePat .n32 (leNat ((c.acquire waitvReady 3 false).seen 0 0x200000 4)))) (intOf .n32 ((c.reads .waitv waitv1).b 4)) = true :=
  ⟨by decide +kernel, kept_and (by decide +kernel)⟩

/-! ### Faults, special registers, save and restore -/

theorem witness_FaultTaken : ∃ c, demo.ctxAt ⟨0, 0, 0⟩ = some c ∧ c.e.status = .ready ∧ c.la.fn < c.s.queue.fns.length ∧ c.ref.core < c.s.cores.length ∧
    c.s.outstanding c.slot c.e = false := some_and (by decide +kernel)

/-- Function 1 has a ring of fault records in page 2. -/
def ringed : State := { demo with queue := { demo.queue with fns := demo.queue.fns.set 1 { fltbase := 0x20000, recno := 1023 * 1024 + 63 } } }

theorem witness_FaultRecorded : ∃ c, ringed.ctxAt ⟨0, 0, 0⟩ = some c ∧ c.la.fn ≠ 0 ∧ (c.s.fnBlock c.la.fn).fltbase ≠ 0 ∧ c.s.outstanding c.slot c.e = false ∧
    (∀ x ∈ c.s.slots, ∀ e ∈ x.entries, e.ops = []) ∧ (∀ g ∈ c.s.flights, g.saved = []) ∧
    ∃ p, c.s.devPieces ⟨c.la.fn, c.la.fn, 0xFE, 0, 0⟩ .store ((c.s.fnBlock c.la.fn).fltbase.toNat + 64 * ((c.s.fnBlock c.la.fn).recno % 1024)) 64 1 = .ok p ∧
      p.2 = [(0x200FC0, 64)] ∧ Memory.wf p.1.mem = true ∧ fills p.1 1 = true :=
  some_then (by decide +kernel) ⟨by decide +kernel, by decide +kernel, by decide +kernel, by decide +kernel, by decide +kernel, ok_and (by decide +kernel)⟩

/-- A second strand of the flight, in slot 5, waits on the handler. -/
def trapped : State := { demo with slots := demo.slots ++ [⟨0, 5, 0, 0, [{ entry0 with status := .onHandler 5 1 9 3 }]⟩] }

def tretO : Long := { plainLong with a := .s 13, mod := 1 }

theorem witness_ReturnResults : (Instr.tret tretO).WellFormed ∧ (∃ c, trapped.here = some c ∧ c.actsOn tretO = all16 ∧ c.readable .tret tretO = true ∧
    c.uniSources .tret tretO = true ∧ ((c.reads .tret tretO).a 0).toNat = 5) ∧
    (∃ y, (trapped.ctxAt ⟨0, 5, 0⟩).map Ctx.e = some y ∧ y.status = .onHandler 5 1 9 3) ∧
    (∀ f ∈ trapped.queue.faults, f.fn = 1 → f.recno = 9 → f.cls = 2) ∧ (Instr.tret { tretO with mod := 0 }).WellFormed ∧ (Instr.tret { tretO with mod := 2 }).WellFormed :=
  ⟨by decide +kernel, some_and (by decide +kernel), some_and (by decide +kernel), by decide +kernel, by decide +kernel, by decide +kernel⟩

theorem witness_ReturnOfNothing : (Instr.tret tretO).WellFormed ∧ ∃ c, demo.here = some c ∧ c.actsOn tretO = all16 ∧ c.readable .tret tretO = true ∧
    c.uniSources .tret tretO = true ∧ ((c.reads .tret tretO).a 0).toNat = 5 ∧ demo.entry ⟨demo.cur.core, bits 5 0 7, bits 5 7 3⟩ = none :=
  ⟨by decide +kernel, some_and (by decide +kernel)⟩

/-- The slot has run as long as the watchdog lets it. -/
def expired : State := { demo with slots := [⟨0, 0, 0, 2 ^ 20, [entry0]⟩] }

theorem witness_WatchdogFires : (∃ x, expired.slot 0 0 = some x ∧ 2 ^ 20 ≤ x.watchdog ∧
      x.entries.find? (fun e => decide (e.status = .ready)) = some entry0) ∧ (∃ x, demo.slot 0 0 = some x ∧ x.watchdog < 2 ^ 20) ∧
    ∃ c, expired.ctxAt ⟨0, 0, 0⟩ = some c ∧ c.e = entry0 ∧ c.la.fn < expired.queue.fns.length :=
  ⟨some_and (by decide +kernel), some_and (by decide +kernel), some_and (by decide +kernel)⟩

def csrO (n : Fin 65536) : Long := { plainLong with d := .s 20, imm := n }

theorem witness_RegisterReads : (∀ o ∈ [1, 2, 3, 4, 5, 0x10, 0x100, 0x102, 0x105, 0x180, 0x181].map csrO, (Instr.csrr o).WellFormed) ∧
    (Instr.time { plainLong with d := .s 20 }).WellFormed ∧ ∃ c, demo.here = some c ∧ c.actsOn (csrO 1) ≠ [] ∧ c.readable .csrr (csrO 1) = true ∧
    c.readable .csrr (csrO 0x180) = true ∧ c.e.canWriteEvery c.ke.regs c.e.activeList true (.s 20) = true ∧
    c.e.canWriteEvery c.ke.regs c.e.activeList false (.s 20) = true := ⟨by decide +kernel, by decide +kernel, some_and (by decide +kernel)⟩

/-- One activation waits on core 0. -/
def activated : State := demo.modCore 0 fun k => { k with trapq := [(5, 6)] }

theorem witness_ReadsThatChange : (Instr.csrrXflag (csrO 0)).WellFormed ∧ (Instr.csrrTrapq (csrO 0x104)).WellFormed ∧
    (∃ c, demo.here = some c ∧ c.actsOn (csrO 0x104) ≠ [] ∧ c.readable .csrr (csrO 0x104) = true ∧ demo.cur.core < demo.cores.length ∧
      (demo.core demo.cur.core).trapq = []) ∧
    ∃ c, activated.here = some c ∧ c.actsOn (csrO 0x104) ≠ [] ∧ (activated.core activated.cur.core).trapq = [(5, 6)] :=
  ⟨by decide +kernel, by decide +kernel, some_and (by decide +kernel), some_and (by decide +kernel)⟩

def csrwO (n : Fin 65536) : Long := { plainLong with a := .s 11, imm := n }

theorem witness_RegisterWrites : (Instr.csrw (csrwO 0x101)).WellFormed ∧ (Instr.csrwXflag (csrwO 0)).WellFormed ∧ (Instr.csrwRgen (csrwO 1)).WellFormed ∧
    (Instr.corePartWrite (csrwO 0x100)).WellFormed ∧ (Instr.coreRetWrite (csrwO 0x102)).WellFormed ∧ (Instr.qePsumClear (csrwO 0x180)).WellFormed ∧
    (Instr.qeLseedWrite (csrwO 0x181)).WellFormed ∧ ∃ c, demo.here = some c ∧ c.actsOn (csrwO 0x101) = all16 ∧ c.readable .csrw (csrwO 0x101) = true ∧
    c.uniSources .csrw (csrwO 0x101) = true ∧ demo.cur.core < demo.cores.length :=
  ⟨by decide +kernel, by decide +kernel, by decide +kernel, by decide +kernel, by decide +kernel, by decide +kernel, by decide +kernel, some_and (by decide +kernel)⟩

def saveO : Long := { plainLong with d := .s 20, a := .s 13, b := .s 10 }

/-- A second flight of the launch, in slot 5 of core 0. -/
def flight1 : Flight := { placeFlight 1 with num := 3, alloc := [⟨0, 0, 8192, 8192⟩] }
def entry1 : Entry := { entry0 with scalars := 77 :: entry0.scalars.tail }
def two : State := { demo with flights := [flight0, flight1], slots := demo.slots ++ [⟨0, 5, 1, 0, [entry1]⟩] }
def twoSaving : State := { demo with
  flights := [flight0, { flight1 with state := .saving, saveArea := 0x20000 }]
  slots := [⟨0, 0, 0, 0, [{ entry0 with status := .held (.save 1 saveO) }]⟩, ⟨0, 5, 1, 0, [entry1]⟩] }

theorem witness_SaveResults : (Instr.save saveO).WellFormed ∧ (∃ c, demo.here = some c ∧ c.actsOn saveO = all16 ∧ c.readable .save saveO = true ∧
      c.uniSources .save saveO = true ∧ demo.flightAt 0 ((c.reads .save saveO).a 0).toNat = none ∧
      c.e.canWriteEvery c.ke.regs c.e.activeList false saveO.d = true) ∧
    (∃ c, two.here = some c ∧ c.actsOn saveO = all16 ∧ c.readable .save saveO = true ∧ c.uniSources .save saveO = true ∧
      two.flightAt 0 ((c.reads .save saveO).a 0).toNat = some flight1 ∧ c.overlap 0 true [⟨0, ((c.reads .save saveO).b 0).toNat, 256⟩] = none ∧
      c.s.unsettled c.slot c.e = [] ∧ two.check c.agent (some 0) (.pool true) ((c.reads .save saveO).b 0).toNat 256 4096 = .ok [(0x200000, 128), (0x200080, 128)]) ∧
    (∃ f, twoSaving.flightOf 1 = some f ∧ f.state = .saving ∧ twoSaving.quiet f = true ∧ twoSaving.launchOf f.tag = some placeLaunch ∧
      twoSaving.kernelOf placeLaunch.fn placeLaunch.kid = some placeKernel) ∧
    (∃ e, twoSaving.entry ⟨0, 0, 0⟩ = some e ∧ e.status = .held (.save 1 saveO) ∧ e.canWriteEvery 128 e.activeList false saveO.d = true) ∧
    ∀ x ∈ twoSaving.slots, (x.core = 0 → x.num = 0 → x.flight ≠ 1) ∧ ∀ y ∈ x.entries, y.bad = [] :=
  ⟨by decide +kernel, some_and (by decide +kernel), some_and (by decide +kernel), some_and (by decide +kernel), some_and (by decide +kernel), by decide +kernel⟩

def restO : Long := { plainLong with d := .s 20, a := .s 10 }

/-- Flight 1 is saved, and a record of it stands at 0x20000. -/
def saved1 : State := ({ demo with flights := [flight0, { flight1 with state := .saved, alloc := [], saved := [⟨0, 5, 1, 0, [entry1]⟩] }] }).poke 0x200000
  (leBytes 4 0x52535654 ++ leBytes 4 1 ++ leBytes 8 128 ++ leBytes 8 0 ++ leBytes 4 3 ++ leBytes 4 0 ++ leBytes 4 (1 + 2 * 16 + 256) ++ leBytes 4 3840 ++
    leBytes 4 256 ++ leBytes 4 1280 ++ leBytes 4 2739 ++ leBytes 4 2739 ++ leBytes 4 2816 ++ leBytes 4 3072 ++ leBytes 4 3584 ++ leBytes 4 3584)

def ServesRest (s : State) : Prop := (Instr.rest restO).WellFormed ∧ ∃ c, s.here = some c ∧ c.actsOn restO = all16 ∧
    c.readable .rest restO = true ∧ c.uniSources .rest restO = true ∧ c.e.canWriteEvery c.ke.regs c.e.activeList false restO.d = true ∧
    ((c.reads .rest restO).a 0).toNat = 0x20000 ∧ c.overlap 0 false [⟨0, 0x20000, 256⟩] = none ∧ c.s.unsettled c.slot c.e = [] ∧ Room 2 c ∧
    s.check c.agent (some s.cur.core) (.pool false) 0x20000 256 4096 = .ok [(0x200000, 128), (0x200080, 128)]

def recordAt (s : State) : Nat := leNat (s.readPieces [(0x200000, 128), (0x200080, 128)])

/-- The registers of the saved entry take 1459 bytes and its streams 256. -/
theorem witness_RestoreResults : (ServesRest demo ∧ demo.savedBy (recordAt demo) = none) ∧ ServesRest saved1 ∧ saveHeaderOk (recordAt saved1) 1459 256 = true ∧
    saveHeaderOk (recordAt saved1) 1500 256 = false ∧
    ∃ f, saved1.savedBy (recordAt saved1) = some f ∧ saved1.launchOf f.tag = some placeLaunch ∧ saved1.kernelFor f = some placeKernel ∧
      f.sectionLens placeKernel = (1459, 256) ∧ bits (recordAt saved1) 119 1 = 0 ∧
      ((saved1.modFlight f.id fun f => { f with placing := none, alloc := [] }).recordRoom f placeKernel (bits (recordAt saved1) 64 64) 0 =
        some [⟨0, 0, 8192, 8192⟩]) ∧ saved1.banksLive [⟨0, 0, 8192, 8192⟩] = true ∧ f.saved.length ≤ (saved1.freeSlots 0).length ∧
      f.pair = false ∧ (∀ x ∈ f.saved, x.core = f.core) ∧ f.saved = [⟨0, 5, 1, 0, [entry1]⟩] ∧ entry1.ops = [] ∧ entry1.status = .ready :=
  ⟨⟨⟨by decide +kernel, some_and (by decide +kernel)⟩, by decide +kernel⟩, ⟨by decide +kernel, some_and (by decide +kernel)⟩, by decide +kernel, by decide +kernel,
    some_and (by decide +kernel)⟩

/-- The banks that the record would take are not live; and a core whose pool is to change takes none. -/
theorem witness_RestoreResults_waits : ((saved1.modCore 0 fun k => { k with banks := List.replicate 48 (.retained true) }).banksLive [⟨0, 0, 8192, 8192⟩] = false) ∧
    ∃ f, saved1.savedBy (recordAt saved1) = some f ∧
      ((saved1.modCore 0 fun k => { k with pend := some (4, 4) }).recordRoom f placeKernel (bits (recordAt saved1) 64 64) 0 = none) :=
  ⟨by decide +kernel, some_and (by decide +kernel)⟩

/-- The record of a pair flight, restored on an odd core. -/
def savedOdd : State := { saved1 with cur := ⟨1, 0, 0⟩, slots := [⟨1, 0, 0, 0, [entry0]⟩] }.poke 0x20000E [BitVec.ofNat 8 128]

theorem witness_RestoreResults_odd : ServesRest savedOdd ∧ savedOdd.cur.core % 2 = 1 ∧ bits (recordAt savedOdd) 119 1 = 1 ∧
    saveHeaderOk (recordAt savedOdd) 1459 256 = true ∧ (savedOdd.savedBy (recordAt savedOdd)).isSome = true :=
  ⟨⟨by decide +kernel, some_and (by decide +kernel)⟩, by decide +kernel, by decide +kernel, by decide +kernel, by decide +kernel⟩

def clrxO : Long := { plainLong with d := .s 20 }
def clearing : State := ({ demo with slots := [⟨0, 0, 0, 0, [{ entry0 with status := .held (.clrx clrxO) }]⟩] }).modCore 0 fun k => { k with clearing := some (⟨0, 0, 0⟩, false, 0) }

theorem witness_ClearResults : (Instr.clrx clrxO).WellFormed ∧ (∃ c, demo.here = some c ∧ c.actsOn clrxO ≠ [] ∧ c.readable .clrx clrxO = true ∧
      c.e.canWriteEvery c.ke.regs c.e.activeList false clrxO.d = true ∧ ∀ x ∈ demo.slots, x.flight = c.fl.id) ∧
    (∃ x ∈ two.slots, x.core ∈ [0] ∧ x.flight ≠ 0) ∧ SoundStore clearing ∧ (clearing.core 0).clearing = some (⟨0, 0, 0⟩, false, 0) ∧
    ∃ e, clearing.entry ⟨0, 0, 0⟩ = some e ∧ e.status = .held (.clrx clrxO) ∧ e.canWriteEvery 128 e.activeList false clrxO.d = true :=
  ⟨by decide +kernel, some_and (by decide +kernel), by decide +kernel, by unfold SoundStore SoundMemory; decide +kernel, by decide +kernel,
    some_and (by decide +kernel)⟩

def rplqO : Long := { plainLong with d := .s 20, a := .s 13 }
def rplrO : Long := { plainLong with d := .s 20, a := .s 13, mod := 2 }

theorem witness_ReplayResults : (Instr.rplq rplqO).WellFormed ∧ (Instr.rplr rplrO).WellFormed ∧ ∃ c, demo.here = some c ∧ c.actsOn rplqO = all16 ∧
    c.readable .rplq rplqO = true ∧ c.uniSources .rplq rplqO = true ∧ c.readable .rplr rplrO = true ∧ c.uniSources .rplr rplrO = true ∧
    (∀ x ∈ demo.slots, ∀ e ∈ x.entries, e.status ≠ .held .replay) ∧ demo.cur.core < demo.cores.length :=
  ⟨by decide +kernel, by decide +kernel, some_and (by decide +kernel)⟩

def qwaitO : Long := { plainLong with d := .s 20, mod := 3 }
def rung : State := { demo with queue := { demo.queue with bells := [9, 0, 0, 0] } }
def fltackO : Long := { plainLong with d := .s 20, a := .s 13, b := .s 15 }

/-- Open records with number 5: of code 19, and of another launch with a fault of class 3. -/
def opened (code cls tag : Nat) : State := { demo with
  launches := [placeLaunch, { placeLaunch with tag := 7 }], queue := { demo.queue with faults := [⟨1, 5, code, cls, true, true, tag, 0, 0, true⟩] } }

theorem witness_QueueEngineResults : (Instr.qwait qwaitO).WellFormed ∧ (Instr.fltack fltackO).WellFormed ∧
    (∃ c, rung.here = some c ∧ c.actsOn qwaitO = all16 ∧ c.readable .qwait qwaitO = true ∧ c.e.canWriteEvery c.ke.regs c.e.activeList true qwaitO.d = true ∧
      rung.bell c.e.snum ≠ 0) ∧
    (∃ c, demo.here = some c ∧ demo.bell c.e.snum = 0 ∧ demo.queue.psum = 0 ∧ c.actsOn fltackO = all16 ∧ c.readable .fltack fltackO = true ∧
      c.uniSources .fltack fltackO = true ∧ c.e.canWriteEvery c.ke.regs c.e.activeList false fltackO.d = true ∧ demo.queue.faults = []) ∧
    (∃ c, (opened 19 2 0).here = some c ∧ c.actsOn fltackO = all16 ∧ ((c.reads .fltack fltackO).a 0).toNat = 5 ∧
      ((c.reads .fltack { fltackO with b := .p 7 }).b 0).toNat = 1 ∧ c.uniSources .fltack { fltackO with b := .p 7 } = true ∧ c.la.fn = 1) ∧
    ∃ c, (opened 16 3 7).here = some c ∧ ((c.reads .fltack fltackO).b 0).toNat = 0 ∧
      ((opened 16 3 7).launchOf 7).map Launch.killed = some false ∧ c.fl.id ∉ (opened 16 3 7).flightsOf 7 :=
  ⟨by decide +kernel, by decide +kernel, some_and (by decide +kernel), some_and (by decide +kernel), some_and (by decide +kernel), some_and (by decide +kernel)⟩

theorem witness_OtherTimeouts : (∃ e, (machine { entry0 with status := .parked (.qwait qwaitO) (some 0) }).entry ⟨0, 0, 0⟩ = some e ∧
      e.status = .parked (.qwait qwaitO) (some 0) ∧ e.canWriteEvery 128 e.activeList true qwaitO.d = true) ∧
    ∃ e, (machine { entry0 with status := .parked (.lock lockO 3 0x20000) (some 0) }).entry ⟨0, 0, 0⟩ = some e ∧
      e.status = .parked (.lock lockO 3 0x20000) (some 0) ∧ e.canWriteEvery 128 e.activeList false lockO.d = true :=
  ⟨some_and (by decide +kernel), some_and (by decide +kernel)⟩

/-- Three strands side by side: the lowest and the highest both hold a FUSE for the middle one. -/
def rivals : State := { demo with
  slots := [⟨0, 0, 0, 0, [{ twin 0 0 with status := .held (.fuse fuseO) }, twin 1 16, { twin 2 32 with status := .held (.fuse { fuseO with mod := 1 }) }]⟩]
  flights := [{ flight0 with last := 47 }] }

theorem witness_FuseHolds : (∃ c, (machine { entry0 with status := .held (.fuse fuseO) }).ctxAt ⟨0, 0, 0⟩ = some c ∧ c.e.status = .held (.fuse fuseO) ∧
      c.fusePartner false = (1, none) ∧ c.fuseRival fuseO = false) ∧
    ∃ c, rivals.ctxAt ⟨0, 0, 2⟩ = some c ∧ c.e.status = .held (.fuse { fuseO with mod := 1 }) ∧ c.fuseRival { fuseO with mod := 1 } = true :=
  ⟨some_and (by decide +kernel), some_and (by decide +kernel)⟩

/-! ### The matrix engine -/

/-- Four rows of 16 bytes from offset 0 of the scratchpad. -/
def map16 : BitVec 128 := 16 * 2 ^ 32 + 4 * 2 ^ 48 + 16 * 2 ^ 64

/-- A flight with two tiles of 16 by 32 residues or doubles, and every map register on the same 64 bytes. -/
def flightM : Flight := { flight0 with tiles := [[(3, 7)], []], maps := List.replicate 8 map16, last := 31, fmt := some 1 }
def kernelM : Kernel := { placeKernel with tiles := 2, acls := 4 }
def mat : State := machine (f := flightM) (k := kernelM)

def gangO : Long := { plainLong with d := .s 20, a := .s 15, imm := 1, mod := 4 }

/-- The list 0 names strand 0 once, and as two fields the same strand twice. -/
theorem witness_GangResults : (Instr.gang gangO).WellFormed ∧ (Instr.gang { gangO with imm := 2 }).WellFormed ∧ ∃ c, mat.here = some c ∧ c.actsOn gangO = all16 ∧
    c.readable .gang gangO = true ∧ c.uniSources .gang gangO = true ∧ c.e.canWriteEvery c.ke.regs c.e.activeList false gangO.d = true ∧
    ((c.reads .gang gangO).a 0).toNat = 0 ∧ c.fl.latch = none ∧ mat.hasStrand c.fl.id 0 = true :=
  ⟨by decide +kernel, by decide +kernel, some_and (by decide +kernel)⟩

def latched : Latch := ⟨9, .mma, { plainLong with a := .s 15, b := .s 13, ty := .i8, mod := 6, imm := 1 }, 0, 5, 0, none, 0, some 256⟩

theorem witness_GangResults_latched : ∃ c, (machine (f := { flightM with latch := some latched }) (k := kernelM)).here = some c ∧ c.fl.latch ≠ none := some_and (by decide +kernel)

def fblkO : Long := { plainLong with d := .s 20, a := .s 11 }
def amapO : Long := { plainLong with d := .s 20, a := .s 11, imm := 7 }

/-- A valid block and a valid map at offset 64; zeros there are no block, but are a map. -/
def fblkHere : State := machine (f := { flightM with spad := Memory.writeN [] 64 (leBytes 64 (1 + 2 ^ 8)) }) (k := kernelM)

theorem witness_MatrixRegisters : (Instr.fblk fblkO).WellFormed ∧ (Instr.amap amapO).WellFormed ∧ (∃ c, fblkHere.here = some c ∧ c.actsOn fblkO = all16 ∧
      c.readable .fblk fblkO = true ∧ c.uniSources .fblk fblkO = true ∧ c.readable .amap amapO = true ∧ c.uniSources .amap amapO = true ∧
      c.e.canWriteEvery c.ke.regs c.e.activeList false fblkO.d = true ∧ ((c.reads .fblk fblkO).a 0).toNat = 64 ∧
      c.overlap 1 false [⟨0, 64, 64⟩] = none ∧ c.overlap 1 false [⟨0, 64, 16⟩] = none ∧ 64 + 64 ≤ c.fl.spadSize ∧ c.fl.damagedIn 64 64 = false ∧ c.fl.damagedIn 64 16 = false ∧
      fmtValid (BitVec.ofNat 512 (leNat (Memory.readN c.fl.spad 64 64))) = true ∧
      mapValid (BitVec.ofNat 128 (leNat (Memory.readN c.fl.spad 64 16))) c.fl.spadSize = false) ∧
    ∃ c, mat.here = some c ∧ fmtValid (BitVec.ofNat 512 (leNat (Memory.readN c.fl.spad 64 64))) = false ∧
      mapValid (BitVec.ofNat 128 (leNat (Memory.readN c.fl.spad 64 16))) c.fl.spadSize = true :=
  ⟨by decide +kernel, by decide +kernel, some_and (by decide +kernel), some_and (by decide +kernel)⟩

/-- MMA.i8 on tile 1 with maps 0 and 0 from the origins 0 and (5, 0). -/
def mmaO : Long := latched.o
def mmasO : Long := { mmaO with ty := .n8 }
def zmmaO : Long := { mmaO with ty := .z64, mod := 0 }

theorem witness_MultiplyIssue : (Instr.mma mmaO).WellFormed ∧ (Instr.mmas mmasO).WellFormed ∧ (Instr.zmma zmmaO).WellFormed ∧
    ∃ c, mat.here = some c ∧ c.actsOn mmaO = all16 ∧ c.readable .mma mmaO = true ∧ c.uniSources .mma mmaO = true ∧ c.e.counts.getD 1 0 < 63 ∧
      mat.gangLeft c.fl = [] ∧ (∀ x ∈ c.s.slots, ∀ y ∈ x.entries, y.awaits (mat.nextId + 1) = false) ∧ (∀ f ∈ c.s.flights, f.saved = [] ∧ f.released = []) ∧
      0 < c.s.cores.length ∧ (c.s.core 0).queue.length < 8 ∧ c.fl.tileCore (tileNo mmaO) = 0 ∧ badMap c.fl.maps .mma mmaO = none ∧
      badMap c.fl.maps .mmas mmasO = none ∧ mmaO.ty ≠ .b8 := ⟨by decide +kernel, by decide +kernel, by decide +kernel, some_and (by decide +kernel)⟩

/-- Two strands of a gang, and the first of them has arrived with the instruction latched. -/
def gang2 : State := { twins with flights := [{ flightM with gang := [0, 1], gangE := 2 }], kernels := [kernelM] }
def gang2Latched : State := { gang2 with
  cur := ⟨0, 0, 1⟩, flights := [{ flightM with gang := [0, 1], gangE := 2, latch := some latched }]
  slots := [⟨0, 0, 0, 0, [{ twin 0 0 with status := .parked (.latch 9) (some 256) }, twin 1 16]⟩] }

theorem witness_MultiplyIssue_first : ∃ c, gang2.here = some c ∧ c.actsOn mmaO = all16 ∧ c.readable .mma mmaO = true ∧ c.uniSources .mma mmaO = true ∧
    c.e.counts.getD 1 0 < 63 ∧ c.e.snum ∈ gang2.gangLeft c.fl ∧ c.fl.latch = none ∧ gang2.slot 0 0 = some c.slot ∧ c.slot.flight = c.fl.id ∧
    gang2.entry ⟨0, 0, 1⟩ = some (twin 1 16) ∧ (twin 1 16).snum ∈ c.fl.gang ∧ (twin 1 16).snum ≠ c.e.snum ∧ (twin 1 16).liveCount ≠ 0 := some_and (by decide +kernel)

theorem witness_MultiplyIssue_last : ∃ c, gang2Latched.here = some c ∧ c.fl.latch = some latched ∧ (c.reads .mma mmaO).a 0 = latched.a ∧
    (c.reads .mma mmaO).b 0 = latched.b ∧ c.e.counts.getD 1 0 < 63 ∧ gang2Latched.gangLeft c.fl = [0, 1] ∧ c.e.snum = 1 ∧
    (gang2Latched.entry ⟨0, 0, 0⟩).map (fun y => (y.snum, y.awaits 9)) = some (0, true) ∧ (c.s.core 0).queue.length < 8 ∧
    badMap c.fl.maps .mma mmaO = none := some_and (by decide +kernel)

/-- A third strand outside the gang; another instruction at the latch; a matrix counter of 63. -/
def outsider : State := { gang2 with
  cur := ⟨0, 0, 2⟩, slots := [⟨0, 0, 0, 0, [twin 0 0, twin 1 16, twin 2 32]⟩], flights := [{ flightM with gang := [0, 1], last := 47 }] }

theorem witness_MultiplyStops : (∃ c, (machine { entry0 with counts := [0, 63, 0, 0] } flightM (k := kernelM)).here = some c ∧ c.actsOn mmaO = all16 ∧
      c.readable .mma mmaO = true ∧ c.uniSources .mma mmaO = true ∧ 63 ≤ c.e.counts.getD 1 0) ∧
    (∃ c, outsider.here = some c ∧ c.actsOn mmaO = all16 ∧ outsider.gangLeft c.fl ≠ [] ∧ c.e.snum ∉ outsider.gangLeft c.fl ∧ c.e.counts.getD 1 0 < 63) ∧
    ∃ c, gang2Latched.here = some c ∧ c.e.snum ∈ gang2Latched.gangLeft c.fl ∧ c.fl.latch = some latched ∧
      ¬((c.reads .mma { mmaO with b := .s 14 }).b 0 = latched.b) := ⟨some_and (by decide +kernel), some_and (by decide +kernel), some_and (by decide +kernel)⟩

def cmprO : Long := { plainLong with d := .s 20, a := .s 15, b := .s 15, ty := .i8, imm := 8 }
def aldO : Long := { plainLong with a := .s 15, ty := .f32 }
def drainMemO : Long := { plainLong with a := .s 10, b := .s 11, c := .s 14, ty := .z64, mod := 1 }

theorem witness_EngineIssue : (Instr.cmpr cmprO).WellFormed ∧ (Instr.aclr plainLong).WellFormed ∧ (Instr.ald aldO).WellFormed ∧ (Instr.ast aldO).WellFormed ∧
    (Instr.amov plainLong).WellFormed ∧ (Instr.ascl aldO).WellFormed ∧ (Instr.adrain aldO).WellFormed ∧ (Instr.adrainMem { drainMemO with ty := .f64 }).WellFormed ∧
    ∃ c, mat.here = some c ∧ c.actsOn cmprO = all16 ∧ c.readable .cmpr cmprO = true ∧ c.uniSources .cmpr cmprO = true ∧
      c.readable .adrain { drainMemO with ty := .f64 } = true ∧ c.uniSources .adrain { drainMemO with ty := .f64 } = true ∧ badMap c.fl.maps .cmpr cmprO = none ∧
      badMap c.fl.maps .aclr plainLong = none ∧ (c.s.core 0).queue.length < 8 :=
  ⟨by decide +kernel, by decide +kernel, by decide +kernel, by decide +kernel, by decide +kernel, by decide +kernel, by decide +kernel, by decide +kernel,
    some_and (by decide +kernel)⟩

/-- An instruction in the queue of core 0. -/
def inQueue (id : Nat) (op : Op) (o : Long) : EngInstr := ⟨id, 0, op, o, 0, 0, 0, none, some 1, List.replicate 8 map16, 32, none, [], [], false⟩
def matQueue (xs : List EngInstr) (clock : Nat) (e : Entry := entry0) : State :=
  { ({ machine e flightM (k := kernelM) with clock := clock }).modCore 0 fun k => { k with queue := xs } with turns := 0 }

def full : State := matQueue ((List.range 8).map fun k => inQueue k .aclr plainLong) 0

theorem witness_EngineFull : (∃ c, full.here = some c ∧ c.actsOn plainLong = all16 ∧ c.readable .aclr plainLong = true ∧ c.uniSources .aclr plainLong = true ∧
      8 ≤ (full.core (c.fl.tileCore (tileNo plainLong))).queue.length) ∧
    ∃ f, (machine (f := { flightM with released := [latched] }) (k := kernelM)).flightOf 0 = some f ∧ f.released = [latched] ∧ latched.core < mat.cores.length ∧
      badMap f.maps latched.op latched.o = none := ⟨some_and (by decide +kernel), some_and (by decide +kernel)⟩

/-- The maps hold bytes, and ALD.f32 needs words. -/
theorem witness_MatrixOperandKills : ∃ c, mat.here = some c ∧ c.actsOn aldO = all16 ∧ c.readable .ald aldO = true ∧ c.uniSources .ald aldO = true ∧
    (badMap c.fl.maps .ald aldO).isSome = true ∧ (mat.core (c.fl.tileCore (tileNo aldO))).queue.length < 8 ∧ ∀ f ∈ mat.flights, f.released = [] :=
  some_and (by decide +kernel)

theorem witness_EngineStarts : mat.engineDrained 0 = false ∧ ({ mat with fleet := { mat.fleet with patTest := some (0, 0) } }).engineDrained 0 = true ∧
    ((matQueue [inQueue 5 .aclr plainLong] 7).core 0).queue = [inQueue 5 .aclr plainLong] ∧
    ((matQueue [{ inQueue 5 .aclr plainLong with started := some 0 }, inQueue 6 .aclr plainLong] 31).core 0).queue =
      [{ inQueue 5 .aclr plainLong with started := some 0 }, inQueue 6 .aclr plainLong] ∧
    mat.banksLive (((mat.flightOf 0).map Flight.alloc).getD []) = true ∧
    (mat.modCore 0 fun k => { k with banks := List.replicate 48 (.retained true) }).banksLive (((mat.flightOf 0).map Flight.alloc).getD []) = false :=
  ⟨by decide +kernel, by decide +kernel, by decide +kernel, by decide +kernel, by decide +kernel, by decide +kernel⟩

def startedAt0 (op : Op) (o : Long) : EngInstr := { inQueue 5 op o with started := some 0 }

theorem witness_MultiplyRetires : ((matQueue [startedAt0 .mma mmaO] 56).core 0).queue = [startedAt0 .mma mmaO] ∧
    (∃ f, (matQueue [startedAt0 .mma mmaO] 56).flightOf 0 = some f ∧ f.spoiled = [] ∧ tileNo mmaO < f.tiles.length ∧ f.saved = []) ∧ entry0.ops = [] :=
  ⟨by decide +kernel, some_and (by decide +kernel), rfl⟩

/-- One operation of the matrix class, performed, and one of another class that is not. -/
def opDone : AsyncOp := ⟨4, 1, 0, 0, true, 0, 0, .matrix 5⟩
def opOther : AsyncOp := ⟨5, 0, 1, 0, false, 0, 0, .matrix 6⟩
def opsHere : Entry := { entry0 with ops := [opDone, opOther], counts := [1, 1, 0, 0] }

theorem witness_OperationsRetire : opsHere.ops.filter (fun x => decide (x.cls = 1)) = [opDone] ∧ opDone.cls = 1 ∧ opDone.done = true ∧
    opDone.kind = .matrix 5 ∧ opsHere.headDone 0 = none ∧ opsHere.headDone 2 = none ∧ opsHere.headDone 3 = none ∧
    (∀ x ∈ opsHere.ops, x ≠ opDone → x.id ≠ opDone.id) ∧ 1 < opsHere.counts.length := by decide +kernel

theorem witness_IntegerProducts : (mmaO.ty = .i8 ∨ mmaO.ty = .n8) ∧ 127 < 128 ∧ 191 < 192 := by decide
theorem witness_ResidueProducts : zmmaO.ty = .z64 ∧ 15 < 16 ∧ 31 < 32 ∧ 0 < 17 ∧ 17 < 2 ^ 64 := by decide

theorem witness_MapPlaces : mapValid map16 64 = true ∧ 3 < (opMap map16).rows ∧ 15 < (opMap map16).cols ∧ (opMap map16).at 3 15 = some 63 ∧
    (opMap map16).at 0 0 = some 0 := by decide +kernel

theorem witness_EngineCompletes : ((matQueue [startedAt0 .cmpr cmprO] 40 { entry0 with status := .held (.engine 5) }).core 0).queue = [startedAt0 .cmpr cmprO] ∧
    (∃ f, (matQueue [startedAt0 .cmpr cmprO] 40 { entry0 with status := .held (.engine 5) }).flightOf 0 = some f ∧ f.spoiled = []) ∧
    ∃ y, (matQueue [startedAt0 .cmpr cmprO] 40 { entry0 with status := .held (.engine 5) }).entry ⟨0, 0, 0⟩ = some y ∧ y.status = .held (.engine 5) ∧
      y.canWriteEvery 128 y.activeList false cmprO.d = true := ⟨by decide +kernel, some_and (by decide +kernel), some_and (by decide +kernel)⟩

theorem witness_AccumulatorResults : tileNo plainLong < flightM.tiles.length ∧ (inQueue 5 .ast aldO).map 0 = opMap map16 ∧ mapValid map16 64 = true ∧
    Memory.wf flightM.spad = true ∧ ((inQueue 5 .ast aldO).map 0).at (originRow 0 + 3) (originCol 0 + 15) = some 63 :=
  ⟨by decide +kernel, rfl, by decide +kernel, by decide +kernel, by decide +kernel⟩

theorem witness_CompressKeeps : 2 ≤ [5, 9, 9, 1].length ∧ 0 ∉ keptOf [5, 9, 9, 1] 2 ∧ 1 ∈ keptOf [5, 9, 9, 1] 2 := by decide +kernel

/-- Residues of eight bytes: two rows of two. -/
def map8 : BitVec 128 := 16 * 2 ^ 32 + 2 * 2 ^ 48 + 2 * 2 ^ 64 + 3 * 2 ^ 82
def drainO : Long := { plainLong with a := .s 15, ty := .z64, mod := 4 }
def drainNow : EngInstr := { startedAt0 .adrain drainO with maps := List.replicate 8 map8, q := some (17, 3) }

theorem witness_DrainsToScratchpad : ((matQueue [drainNow] 32).core 0).queue = [drainNow] ∧ ((matQueue [drainNow] 32).core 0).drains = [] ∧
    (∃ f, (matQueue [drainNow] 32).flightOf 0 = some f ∧ f.spoiled = [] ∧ (matQueue [drainNow] 32).dimsOf f = (16, 32) ∧ tileNo drainNow.o < f.tiles.length ∧
      Memory.wf f.spad = true ∧ f.saved = [] ∧ mapValid map8 f.spadSize = true) ∧ drainNow.map 0 = opMap map8 :=
  ⟨by decide +kernel, by decide +kernel, some_and (by decide +kernel), rfl⟩

theorem witness_DrainValues : (0 : Nat) < 17 ∧ 17 < 2 ^ 63 := by decide

theorem witness_GangEvents : (∃ f, (machine (f := { flightM with gang := [0, 7] }) (k := kernelM)).flightOf 0 = some f ∧ 7 ∈ f.gang ∧
      (machine (f := { flightM with gang := [0, 7] }) (k := kernelM)).hasStrand 0 7 = false ∧ mat.hasStrand 0 0 = true) ∧
    ∃ f, ({ gang2Latched with clock := 256 }).flightOf 0 = some f ∧ f.latch = some latched ∧ latched.deadline = some 256 ∧
      (({ gang2Latched with clock := 256 }).launchOf f.tag).isSome = true ∧
      ({ gang2Latched with clock := 256 }).slot 0 0 = some ⟨0, 0, 0, 0, [{ twin 0 0 with status := .parked (.latch 9) (some 256) }, twin 1 16]⟩ :=
  ⟨some_and (by decide +kernel), some_and (by decide +kernel)⟩

/-- A drain of tile 0, read by the engine, to one element at 0x20000. -/
def toMem : EngInstr := { inQueue 5 .adrain { plainLong with a := .s 10, b := .s 11, c := .s 14, ty := .f64, mod := 1 } with
  a := 0x20000, b := 64, c := 1 + 2 ^ 16, data := [(0, 5)], started := some 0 }
def drainingM : State := mat.modCore 0 fun k => { k with drains := [toMem] }

theorem readN_same {m m' : List Host.Cell} (n a : Nat) (h : ∀ k, k < n → Memory.read m (a + k) = Memory.read m' (a + k)) :
    Memory.readN m a n = Memory.readN m' a n := by
  induction n generalizing a with
  | zero => rfl
  | succ n ih =>
    simp only [Memory.readN]
    rw [ih (a + 1) fun k hk => by have := h (k + 1) (by omega); rwa [show a + (k + 1) = a + 1 + k by omega] at this]
    have := h 0 (by omega)
    simp only [Nat.add_zero] at this
    rw [this]

/-- A walk reads nothing but its own table words. -/
theorem walk_same {u s : State} {va t2 t3 t4 : Nat} (h0 : va < 2 ^ 52) (hp : ∀ a, Config.ttRoot ≤ a → u.peekN a 8 = s.peekN a 8)
    (h2 : tableOf (s.peekN (Config.ttRoot + 8 * bits va 39 13) 8) (Config.ttRoot + 8 * bits va 39 13) = .ok t2) (g2 : Config.ttRoot ≤ t2)
    (h3 : tableOf (s.peekN (t2 + 8 * bits va 30 9) 8) (t2 + 8 * bits va 30 9) = .ok t3) (g3 : Config.ttRoot ≤ t3)
    (h4 : tableOf (s.peekN (t3 + 8 * bits va 21 9) 8) (t3 + 8 * bits va 21 9) = .ok t4) (g4 : Config.ttRoot ≤ t4) : u.walk va = s.walk va := by
  unfold State.walk
  simp only [if_neg (show ¬2 ^ 52 ≤ va by omega), hp _ (show Config.ttRoot ≤ Config.ttRoot + 8 * bits va 39 13 by omega), h2,
    hp _ (show Config.ttRoot ≤ t2 + 8 * bits va 30 9 by omega), h3, hp _ (show Config.ttRoot ≤ t3 + 8 * bits va 21 9 by omega), h4,
    hp _ (show Config.ttRoot ≤ t4 + 8 * bits va 16 5 by omega)]

theorem frame_still {s : State} {l : Leaf} {va : Nat} (hm : l.move = false) :
    s.frameAddr l va = (if l.big then l.frame + bits va 16 5 else l.frame) * 65536 + va % 65536 := by
  unfold State.frameAddr
  rw [if_neg (by rw [hm]; decide)]

/-- A store that its page allows, in one sector. -/
theorem check_at {s : State} {g : Agent} {va pa : Nat} {l : Leaf} (hz : sectorsOf va 8 = [(va, 8)]) (h8 : va % 8 = 0) (hw : s.walk va = .leaf l)
    (ha : s.frameAddr l va = pa) (ho : l.owner = g.owner) (h15 : l.owner ≠ 15) (hp : l.prot = s.fat (pa / 65536) % 4) (hwr : l.wr = true)
    (hs : l.isSealed = false) (ht : tagOf s.tags (pa / 128) = l.owner) (hq : s.tetherCheck g va pa = none) :
    s.check g none .drain va 8 8 = .ok [(pa, 8)] := by
  have hc : s.checkPage g .drain va = .ok (l, pa) := by simp_all [State.checkPage]
  simp [State.check, hz, State.checkPages, hc, State.checkTags, ht, hq, h8]

/-- It stays so while memory changes outside the tables alone. -/
theorem check_moved {s : State} {m : List Host.Cell} {cs : List Core} {ti : Tier} {g : Agent} {va pa t2 t3 t4 : Nat} {l : Leaf}
    (h : ∀ a, a < pa ∨ pa + 8 ≤ a → Memory.read m a = Memory.read s.mem a) (hr : pa + 8 ≤ Config.ttRoot)
    (hz : sectorsOf va 8 = [(va, 8)]) (h8 : va % 8 = 0) (h0 : va < 2 ^ 52)
    (h2 : tableOf (s.peekN (Config.ttRoot + 8 * bits va 39 13) 8) (Config.ttRoot + 8 * bits va 39 13) = .ok t2) (g2 : Config.ttRoot ≤ t2)
    (h3 : tableOf (s.peekN (t2 + 8 * bits va 30 9) 8) (t2 + 8 * bits va 30 9) = .ok t3) (g3 : Config.ttRoot ≤ t3)
    (h4 : tableOf (s.peekN (t3 + 8 * bits va 21 9) 8) (t3 + 8 * bits va 21 9) = .ok t4) (g4 : Config.ttRoot ≤ t4)
    (hw : s.walk va = .leaf l) (hm : l.move = false) (ha : s.frameAddr l va = pa) (ho : l.owner = g.owner) (h15 : l.owner ≠ 15)
    (hp : l.prot = s.fat (pa / 65536) % 4) (hwr : l.wr = true) (hs : l.isSealed = false) (ht : tagOf s.tags (pa / 128) = l.owner)
    (hq : ({ s with mem := m, cores := cs, tier := ti }).tetherCheck g va pa = none) :
    ({ s with mem := m, cores := cs, tier := ti }).check g none .drain va 8 8 = .ok [(pa, 8)] := by
  have hr' : ∀ a, Config.ttRoot ≤ a → ({ s with mem := m, cores := cs, tier := ti }).peekN a 8 = s.peekN a 8 := fun a h1 => by
    unfold State.peekN State.peek
    rw [readN_same 8 a fun k hk => h _ (Or.inr (by omega))]
  have hf : ({ s with mem := m, cores := cs, tier := ti }).fat (pa / 65536) = s.fat (pa / 65536) := by
    unfold State.fat
    rw [show Memory.read ({ s with mem := m, cores := cs, tier := ti } : State).mem (Config.fatBase + pa / 65536 / 2) =
      Memory.read s.mem (Config.fatBase + pa / 65536 / 2) from h _ (Or.inr (by have : Config.ttRoot ≤ Config.fatBase := by decide +kernel
                                                                               omega))]
  exact check_at hz h8 ((walk_same h0 hr' h2 g2 h3 g3 h4 g4).trans hw) (((frame_still hm).trans (frame_still hm).symm).trans ha) ho h15
    (hp.trans (by rw [hf])) hwr hs ht hq

/-- The table that a table word names, in the small machine. -/
def tableAt (a : Nat) : Nat := match tableOf (drainingM.peekN a 8) a with
  | .ok t => t
  | .error _ => 0

theorem tableAt_ok {a : Nat} (h : (match tableOf (drainingM.peekN a 8) a with
    | .ok _ => true
    | .error _ => false) = true) : tableOf (drainingM.peekN a 8) a = .ok (tableAt a) := by
  unfold tableAt
  split at h
  · next t e => rw [e]
  · cases h

/-- Who drains. -/
def agentM : Agent := drainingM.agentOf flightM

/-- The leaf of page 2. -/
def leafHere : Leaf := match drainingM.walk 0x20000 with
  | .leaf l => l
  | _ => ⟨0, 0, false, false, false, false, 0, false, 0⟩

/-- A tier that still holds the sector, and differs in nothing else, lets the store through. -/
theorem tether_same {s : State} {m : List Host.Cell} {cs : List Core} {ti : Tier} {g : Agent} {va pa : Nat} (hr : s.tier.regroups ti)
    (hp : s.tier.poisoned.contains (pa / 128) = false) (hon : ({ s with mem := m, cores := cs, tier := ti }).onPkg (pa / 128) = true) :
    ({ s with mem := m, cores := cs, tier := ti }).tetherCheck g va pa = none := by
  unfold State.tetherCheck
  simp only [hon, if_true]
  have : ti.poisoned = s.tier.poisoned := by rw [hr]
  simp only [this, hp, Bool.false_eq_true, if_false]

theorem check_same (m : List Host.Cell) (cs : List Core) (ti : Tier) (h : ∀ a, a < 0x200000 ∨ 0x200000 + 8 ≤ a → Memory.read m a = Memory.read drainingM.mem a)
    (hr : drainingM.tier.regroups ti) (hon : ∀ k, drainingM.onPkg k = true → ({ drainingM with mem := m, cores := cs, tier := ti }).onPkg k = true) :
    ({ drainingM with mem := m, cores := cs, tier := ti }).check agentM none .drain 0x20000 8 8 = .ok [(0x200000, 8)] :=
  check_moved (l := leafHere) h (by decide +kernel) (by decide +kernel) (by decide) (by decide) (tableAt_ok (by decide +kernel)) (by decide +kernel)
    (tableAt_ok (by decide +kernel)) (by decide +kernel) (tableAt_ok (by decide +kernel)) (by decide +kernel) (by decide +kernel) (by decide +kernel)
    (by decide +kernel) (by decide +kernel) (by decide +kernel) (by decide +kernel) (by decide +kernel) (by decide +kernel) (by decide +kernel)
    (tether_same hr (by decide +kernel) (hon _ (by decide +kernel)))

theorem witness_DrainsToMemory : SoundStore drainingM ∧ (drainingM.core 0).queue = [] ∧ (drainingM.core 0).drains = [toMem] ∧ toMem.parked = false ∧
    (∃ f, drainingM.flightOf 0 = some f ∧ f = flightM ∧ drainingM.dimsOf f = (16, 32) ∧ f.saved = [] ∧ f.pair = false ∧ f.core = 0) ∧
    toMem.o.ty.bytes ∣ toMem.b.toNat ∧ drainingM.check agentM none .drain 0x20000 8 8 = .ok [(0x200000, 8)] ∧
    (drainingM.tier.dies.getD 0 []).length + (drainingM.core 0).cache.length + 1 ≤ dieLines ∧ drainingM.mayFill agentM.owner ∧
    (drainingM.core 0).cache = [] ∧
    ∀ u : State, u = { drainingM with mem := u.mem, cores := u.cores, tier := u.tier } → drainingM.tier.regroups u.tier →
      (∀ k, drainingM.onPkg k = true → u.onPkg k = true) →
      (∀ a, Memory.read u.mem a = Memory.read drainingM.mem a ∨ Memory.read u.mem a = drainingM.freshAt 0 a ∨ 0x200000 ≤ a ∧ a < 0x200008) →
      u.check agentM none .drain 0x20000 8 8 = .ok [(0x200000, 8)] := by
  have hc : (drainingM.core 0).cache = [] := by decide +kernel
  refine ⟨by unfold SoundStore SoundMemory; decide +kernel, by decide +kernel, by decide +kernel, rfl, some_and (by decide +kernel), by decide +kernel,
    by decide +kernel, by decide +kernel, mayFill_of (by decide +kernel), hc, fun u hu hr hon h => ?_⟩
  rw [hu] at hon ⊢
  refine check_same _ _ _ (fun a ha => ?_) hr hon
  have hfresh : drainingM.freshAt 0 a = Memory.read drainingM.mem a := by simp [State.freshAt, Core.hit, hc]
  rcases h a with h | h | h
  · exact h
  · rw [h, hfresh]
  · omega

/-! ### Copies, collectives and streams -/

/-- What the statements ask of an instruction that acts once for its entry. -/
def Once (s : State) (i : Instr) (op : Op) (o : Long) (P : Ctx → Prop) : Prop :=
  i.WellFormed ∧ ∃ c, s.here = some c ∧ c.kept ∧ c.actsOn o = all16 ∧ c.readable op o = true ∧ c.uniSources op o = true ∧
    c.e.canWriteEvery c.ke.regs c.e.activeList false o.d = true ∧ c.ref.core < s.cores.length ∧ P c

/-- 64 bytes from 0x20100 to 0x20000. -/
def cpyO : Long := { plainLong with d := .s 20, a := .s 10, b := .s 12, c := .s 11 }
def counted63 : State := machine { entry0 with counts := [63, 0, 0, 0] }

theorem witness_ChunksCover : (chunksOf 0x20FF0 0x30000 4128).map Chunk.len = [16, 4096, 16] := by decide +kernel

/-- A destination and a source beyond the scratchpad, a peer without a window, a copy of nothing, the counter at 63, and a copy that is
issued; a scratchpad side that ends with the allocation is not beyond it. -/
theorem witness_CopyIssue : SoundStore demo ∧ Once demo (.cpy { cpyO with mod := 1 }) .cpy { cpyO with mod := 1 } (fun c => c.beyond .spad 0x20000 64 = true) ∧
    Once demo (.cpy { cpyO with mod := 4 }) .cpy { cpyO with mod := 4 } (fun c => c.beyond .mem 0x20000 64 = false ∧ c.beyond .spad 0x20100 64 = true) ∧
    Once demo (.cpy { cpyO with mod := 2 }) .cpy { cpyO with mod := 2 } (fun c => (match c.peerPort .peer .mem 0x20000 0x20100 (some 0) with
      | .error () => true
      | .ok _ => false) = true ∧ c.beyond .spad 4032 64 = false ∧ c.beyond .spad 4033 64 = true) ∧
    Once demo (.cpy { cpyO with c := .s 6 }) .cpy { cpyO with c := .s 6 } (fun c => ((c.reads .cpy { cpyO with c := .s 6 }).c 0).toNat % 2 ^ 32 = 0) ∧
    Once counted63 (.cpy cpyO) .cpy cpyO (fun c => 63 ≤ c.e.counts.getD 0 0 ∧ ((c.reads .cpy cpyO).c 0).toNat % 2 ^ 32 = 64) ∧
    Once demo (.cpy cpyO) .cpy cpyO (fun c => c.e.counts.getD 0 0 < 63 ∧ ((c.reads .cpy cpyO).a 0).toNat = 0x20000) :=
  ⟨demo_sound, ⟨by decide +kernel, kept_and (by decide +kernel)⟩, ⟨by decide +kernel, kept_and (by decide +kernel)⟩, ⟨by decide +kernel, kept_and (by decide +kernel)⟩,
    ⟨by decide +kernel, kept_and (by decide +kernel)⟩, ⟨by decide +kernel, kept_and (by decide +kernel)⟩, by decide +kernel, kept_and (by decide +kernel)⟩

/-- A record at offset 64: `rows` rows of 16 bytes, 32 apart, from 0x20100 to 0x20000. -/
def rowsAt (rows : Nat) : State := machine
  (f := { flight0 with spad := Memory.writeN [] 64 (leBytes 8 0x20000 ++ leBytes 8 0x20100 ++ leBytes 4 16 ++ leBytes 4 rows ++ leBytes 4 32 ++ leBytes 4 32) })
  (l := { placeLaunch with regions := [⟨0x20000, 1024, 3⟩] })

def cpypO : Long := { plainLong with d := .s 20, a := .s 11 }
def rowFits (c : Ctx) (rows : Nat) : Bool :=
  c.sideOk .mem 0x20000 ((rows - 1) * 32 + 16) 1 0 && c.sideOk .mem 0x20100 ((rows - 1) * 32 + 16) 0 0

/-- Four rows, and so many that the source ends with the region; none; and one too many. -/
theorem witness_RowCopyIssue : (∀ rows ∈ [4, 24, 0, 25], SoundStore (rowsAt rows)) ∧ ∀ rows ∈ [4, 24, 0, 25],
    Once (rowsAt rows) (.cpyp cpypO) .cpyp cpypO (fun c => (∀ a ∈ [(0, 64)], a.2 % 32 = 0 ∧ a.2 + 32 ≤ c.fl.spadSize ∧ c.fl.damagedIn a.2 32 = false) ∧
      c.overlap 1 false [⟨0, 64, 32⟩] = none ∧ c.e.counts.getD 0 0 < 63 ∧ bits (leNat (Memory.readN c.fl.spad 64 32)) 160 32 = rows ∧
      (rows = 0 ∨ rowFits c rows = decide (rows < 25))) := by
  refine ⟨fun rows h => ?_, fun rows h => ?_⟩ <;>
    (simp only [List.mem_cons, List.not_mem_nil, or_false] at h; rcases h with rfl | rfl | rfl | rfl)
  iterate 4 (unfold SoundStore SoundMemory; decide +kernel)
  iterate 4 exact ⟨by decide +kernel, kept_and (by decide +kernel)⟩

/-- Four words from 0x20100 to 0x20000, the first, a middle one and the only one of a chain. -/
def cpykO (m : Fin 128) : Long := { plainLong with d := .s 20, a := .s 10, b := .s 12, c := if m < 32 then .zero else .s 13, imm := 1, mod := m }

theorem witness_ChainCopyIssue : SoundStore demo ∧
    Once demo (.cpyk { cpykO 0 with b := .s 13 }) .cpyk { cpykO 0 with b := .s 13 } (fun c => ((c.reads .cpyk { cpykO 0 with b := .s 13 }).b 0).toNat % 16 ≠ 0) ∧
    Once demo (.cpyk (cpykO 16)) .cpyk (cpykO 16) (fun c => c.e.chain.isOpen = false ∧ (0x20000 : Nat) % 16 = 0 ∧ c.beyond .mem 0x20000 16 = false) ∧
    Once demo (.cpyk (cpykO 0)) .cpyk (cpykO 0) (fun c => c.e.counts.getD 0 0 < 63) ∧
    Once (machine { entry0 with chain := { isOpen := true } }) (.cpyk (cpykO 32)) .cpyk (cpykO 32) (fun c => c.e.chain.isOpen = true) ∧
    Once demo (.cpyk (cpykO 50)) .cpyk (cpykO 50) (fun c => (match c.peerPort .peer .mem 0x20000 0x20100 none with
      | .error () => true
      | .ok _ => false) = true) :=
  ⟨demo_sound, ⟨by decide +kernel, kept_and (by decide +kernel)⟩, ⟨by decide +kernel, kept_and (by decide +kernel)⟩, ⟨by decide +kernel, kept_and (by decide +kernel)⟩,
    ⟨by decide +kernel, kept_and (by decide +kernel)⟩, by decide +kernel, kept_and (by decide +kernel)⟩

/-- A copy of two chunks to 0x20000, the first of which has started if asked. -/
def copying (started : Bool) : CopyOp := { plainCopy 0x20000 0x20200 64 with chunks := [⟨0x20000, 0x20200, 64, 0, started, false⟩, ⟨0x20040, 0x20240, 64, 1, false, false⟩] }
def copyAsync (started : Bool) : AsyncOp := ⟨7, 0, 0, 0, false, 0, 0, .copy (copying started)⟩
def copyHere (started : Bool) : State := machine { entry0 with ops := [copyAsync started], counts := [1, 0, 0, 0], stats := [⟨7, 0, 0, 1, 0, 0, 0, 0⟩] }

theorem fn_demo : demo.mayFill 1 := mayFill_of (by decide +kernel)

theorem witness_ChunkPerforms : ∀ b : Bool, (copyHere b).opAt 7 = some (⟨0, 0, 0⟩, copyAsync b) ∧
    (∃ e, (copyHere b).entry ⟨0, 0, 0⟩ = some e ∧ copyAsync b ∈ e.ops ∧ ∀ j < 4, e.headDone j = none) ∧ (copyHere b).flightWith 7 = some flight0 ∧
    (∀ x ∈ (copyHere b).slots, ∀ y ∈ x.entries, ∀ z ∈ y.ops, z.id = 7 → z = copyAsync b) ∧ SoundStore (copyHere b) ∧
    (copyHere b).check ((copyHere b).agentOf flight0) none .load 0x20200 64 1 = .ok [(0x200200, 64)] ∧
    (copyHere b).check ((copyHere b).agentOf flight0) none .store 0x20000 64 1 = .ok [(0x200000, 64)] ∧
    ((copyHere b).tier.dies.getD ((copyHere b).agentOf flight0).die []).length + 2 ≤ dieLines ∧ fills (copyHere b) ((copyHere b).agentOf flight0).owner = true := by
  intro b
  have hs : ∀ b : Bool, SoundStore (copyHere b) := fun b => by unfold SoundStore SoundMemory; cases b <;> decide +kernel
  refine ⟨?_, some_and ?_, ?_, ?_, hs b, ?_, ?_, ?_, ?_⟩ <;> cases b <;> decide +kernel

/-- A chain of two commands. -/
def chained : CopyOp := { copying true with link := some .first, chain := 3, sum := 5 }
def chainOps : List AsyncOp := [⟨7, 0, 0, 0, true, 0, 0, .copy chained⟩, ⟨8, 0, 1, 0, false, 0, 0, .copy { chained with link := some .last, sum := 9 }⟩]

theorem witness_ChainEnds : chained.link.isSome = true ∧ chained.link ≠ some .last ∧ ({ chained with link := some .last } : CopyOp).link = some .last ∧ chained.denied = false ∧
    chainOps[1]? = some ⟨8, 0, 1, 0, false, 0, 0, .copy { chained with link := some .last, sum := 9 }⟩ ∧ (8 : Nat) ≠ 7 := by decide +kernel

/-- Function 1 is rank 2 of four in a collective named 5. -/
def collHere : State := { demo with thx := { demo.thx with colls := demo.thx.colls.set 1 [{ ident := 5, v := true, p := 4, rank := 2 }] } }
/-- The identifier that s13 names, four elements from 0x20000. -/
def collO : Long := { plainLong with d := .s 20, a := .s 10, b := .lit, c := .s 13, ty := .n32, form := .len11, lit := 4 }

theorem witness_CollectiveIssue : SoundStore demo ∧ SoundStore collHere ∧
    Once demo (.coll collO) .coll collO (fun c => c.s.collEntry c.la.fn 5 = none ∧ ((c.reads .coll collO).c 0).setWidth 32 = (5 : W32)) ∧
    Once collHere (.coll { collO with mod := 1, imm := 4 }) .coll { collO with mod := 1, imm := 4 } (fun c => (c.s.collEntry c.la.fn 5).map CollEnt.p = some 4) ∧
    Once collHere (.coll { collO with mod := 2 }) .coll { collO with mod := 2 } (fun c => c.e.counts.getD 2 0 < 63 ∧ (c.s.collEntry c.la.fn 5).map CollEnt.rank = some 2 ∧
      c.overlap 0 false [⟨0, 0x20000 + 32, 16⟩] = none ∧ collHere.check c.agent (some c.ref.core) .load (0x20000 + 32) 16 1 = .ok [(0x200020, 16)] ∧
      c.s.unsettled c.slot c.e = [] ∧ (collHere.tier.dies.getD (c.ref.core / 24) []).length + 1 ≤ dieLines) :=
  ⟨demo_sound, by unfold SoundStore SoundMemory; decide +kernel, ⟨by decide +kernel, kept_and (by decide +kernel)⟩, ⟨by decide +kernel, kept_and (by decide +kernel)⟩,
    by decide +kernel, kept_and (by decide +kernel)⟩

/-- An outstanding reduction of four integers among two, this module the first of them. -/
def reducing : CollOp := ⟨5, 0, 0, 0, .n32, 4, 0, 0x20000, 0, 2, List.replicate 16 1, 0, []⟩
def collAsync : AsyncOp := ⟨7, 2, 0, 0, false, 0, 0, .coll reducing⟩
def reduceHere (clock : Nat) : State := { machine { entry0 with ops := [collAsync], counts := [0, 0, 1, 0], stats := [⟨7, 0, 2, 1, 0, 0, 0, 0⟩] } with clock := clock }

theorem witness_CollectiveValues : reducing.ty = .n32 ∧ reducing.kind = 0 ∧ reducing.op % 8 = 0 ∧ 3 < reducing.count := by decide

theorem witness_CollectiveEvents : ∀ n ∈ [2 ^ 26 - 1, 2 ^ 26], (reduceHere n).opAt 7 = some (⟨0, 0, 0⟩, collAsync) ∧
    (∃ e, (reduceHere n).entry ⟨0, 0, 0⟩ = some e ∧ e.ops.filter (fun x => decide (x.cls = 2)) = [collAsync] ∧ e.status = .ready ∧ e.headDone 0 = none ∧ e.headDone 1 = none) ∧
    (reduceHere n).flightWith 7 = some flight0 ∧ reducing.complete ([List.replicate 16 2].take 0 ++ [reducing.local_] ++ [List.replicate 16 2].drop 0) = true ∧
    (reduceHere n).check ((reduceHere n).agentOf flight0) none .store reducing.result.1 16 1 = .ok [(0x200000, 16)] ∧ SoundStore (reduceHere n) ∧
    ((reduceHere n).tier.dies.getD ((reduceHere n).agentOf flight0).die []).length + 1 ≤ dieLines ∧ fills (reduceHere n) ((reduceHere n).agentOf flight0).owner = true ∧
    fills (reduceHere n) ((reduceHere n).ownerOf 0) = true ∧ (reduceHere n).fnOf 0 = some 1 ∧ (∀ y ∈ (reduceHere n).flights, y.saved = []) := by
  intro n h
  have hs : ∀ n, SoundStore (reduceHere n) := fun n => by
    have : SoundStore (reduceHere 0) := by unfold SoundStore SoundMemory; decide +kernel
    exact this
  simp only [List.mem_cons, List.not_mem_nil, or_false] at h
  refine ⟨?_, some_and ?_, ?_, ?_, ?_, hs n, ?_, ?_, ?_, ?_, ?_⟩ <;> rcases h with rfl | rfl <;> decide +kernel

def cstatO : Long := { plainLong with d := .s 20, a := .s 6 }

/-- The ticket 0 of an outstanding copy that has performed a chunk, and of nothing. -/
theorem witness_StatusReads : (Instr.cstat cstatO).WellFormed ∧ (∃ c, demo.here = some c ∧ c.actsOn cstatO = all16 ∧ c.readable .cstat cstatO = true ∧
      c.e.canWriteEvery c.ke.regs c.e.activeList true cstatO.d = true ∧ ((c.reads .cstat cstatO).a 0).toNat % 2 ^ 32 = 0 ∧ c.e.stats = []) ∧
    ∃ c, (copyHere true).here = some c ∧ c.e.stats.find? (fun x => decide (x.seq = 0 ∧ x.cls = 0)) = some ⟨7, 0, 0, 1, 0, 0, 0, 0⟩ ∧
      c.e.ops.find? (fun z => decide (z.id = 7)) = some (copyAsync true) := ⟨by decide +kernel, some_and (by decide +kernel), some_and (by decide +kernel)⟩

theorem witness_CountersRead : (Instr.cnt { plainLong with d := .s 20 }).WellFormed ∧ ∃ c, demo.here = some c ∧ c.actsOn { plainLong with d := .s 20 } ≠ [] ∧
    c.readable .cnt { plainLong with d := .s 20 } = true ∧ c.e.canWriteEvery c.ke.regs c.e.activeList false (.s 20) = true :=
  ⟨by decide +kernel, some_and (by decide +kernel)⟩

def cancelO : Long := { plainLong with d := .s 20, a := .s 6 }

/-- Nothing outstanding; a matrix operation; and a copy one of whose chunks has started. -/
theorem witness_CancelResults : (Instr.cancel cancelO).WellFormed ∧ (∃ c, demo.here = some c ∧ c.actsOn cancelO = all16 ∧ c.readable .cancel cancelO = true ∧
      c.e.canWriteEvery c.ke.regs c.e.activeList false cancelO.d = true ∧ c.e.ops = []) ∧
    (∃ c, (machine { entry0 with ops := [busy], stats := [⟨0, 0, 0, 1, 0, 0, 0, 0⟩] }).here = some c ∧ c.e.statOf 0 = some ⟨0, 0, 0, 1, 0, 0, 0, 0⟩ ∧
      c.e.ops.find? (fun z => decide (z.id = 0)) = some busy ∧ busy.kind = .matrix 0) ∧
    ∃ c, (copyHere true).here = some c ∧ c.e.statOf 0 = some ⟨7, 0, 0, 1, 0, 0, 0, 0⟩ ∧ c.e.ops.find? (fun z => decide (z.id = 7)) = some (copyAsync true) ∧
      (copyAsync true).done = false ∧ (copyHere true).opAt 7 = some ((copyHere true).cur, copyAsync true) ∧ ∀ j < 4, c.e.headDone j = none :=
  ⟨by decide +kernel, some_and (by decide +kernel), some_and (by decide +kernel), some_and (by decide +kernel)⟩

/-- A record at offset 64: words from 0x20000, 4 bytes an item, 64 apart, `n` times. -/
def streamAt (n extra : Nat) : State := machine
  (f := { flight0 with spad := Memory.writeN [] 64 (leBytes 8 0x20000 ++ leBytes 4 4 ++ leBytes 4 n ++ leBytes 4 64 ++ leBytes 4 0 ++ leBytes 4 0 ++ leBytes 4 0 ++
    leBytes 4 0 ++ leBytes 12 extra) })
  (l := { placeLaunch with regions := [⟨0x20000, 1024, 3⟩] })

def strmO : Long := { plainLong with d := .s 20, a := .s 11, imm := 1 }

theorem witness_StreamIssue : ∀ p ∈ [(16, 0), (16, 1)], SoundStore (streamAt p.1 p.2) ∧
    Once (streamAt p.1 p.2) (.strm strmO) .strm strmO (fun c => (∀ a ∈ [(0, 64), (0, 80), (0, 96)], a.2 % 16 = 0 ∧ a.2 + 16 ≤ c.fl.spadSize ∧ c.fl.damagedIn a.2 16 = false) ∧
      c.overlap 1 false ([(0, 64), (0, 80), (0, 96)].map fun a => ⟨a.1, a.2, 16⟩) = none ∧ c.e.counts.getD 3 0 < 63 ∧ c.e.streams.getD 1 none = none ∧
      decide (bits (leNat (Memory.readN c.fl.spad 64 48)) 288 96 = 0) = decide (p.2 = 0) ∧ c.e.len = 16 ∧
      ∀ i < 16, ∀ j < 16, 0x20000 + c.e.posOf i * 4 + j * 64 + 4 ≤ 0x20000 + 1024) := by
  intro p h
  simp only [List.mem_cons, List.not_mem_nil, or_false] at h
  rcases h with rfl | rfl
  · exact ⟨by unfold SoundStore SoundMemory; decide +kernel, by decide +kernel, kept_and (by decide +kernel)⟩
  · exact ⟨by unfold SoundStore SoundMemory; decide +kernel, by decide +kernel, kept_and (by decide +kernel)⟩

/-- A stream in queue 1 with one row queued of four. -/
def stream1 : Stream := ⟨false, 0x20000, 4, [4, 1, 1], [64, 0, 0], 4, 1, [List.replicate 16 3], 0, some 7, false⟩
def streaming : State := machine { entry0 with
  streams := [none, some stream1, none, none], ops := [⟨7, 3, 0, 0, false, 0, 0, .stream 1⟩], counts := [0, 0, 0, 1] }
def strxO : Long := { plainLong with d := .s 20, imm := 1 }

theorem witness_StreamEnds : (Instr.strx strxO).WellFormed ∧ (∃ c, demo.here = some c ∧ c.actsOn strxO = all16 ∧ c.readable .strx strxO = true ∧
      c.e.canWriteEvery c.ke.regs c.e.activeList false strxO.d = true ∧ ((c.e.streams.getD 1 none).map Stream.running).getD false = false) ∧
    ∃ c, streaming.here = some c ∧ ((c.e.streams.getD 1 none).map Stream.running).getD false = true ∧ 1 < c.e.streams.length :=
  ⟨by decide +kernel, some_and (by decide +kernel), some_and (by decide +kernel)⟩

/-- The next row, item by item; a full queue; a stream that is over. -/
theorem witness_StreamDelivers : (∃ c, streaming.ctxAt ⟨0, 0, 0⟩ = some c ∧ 1 < c.e.streams.length ∧ c.e.streams.getD 1 none = some stream1 ∧ c.fl.state = .resident ∧
      c.e.status ≠ .done ∧ (streaming.tier.dies.getD 0 []).length + c.e.len ≤ dieLines ∧ (streaming.core 0).replay = [] ∧
      ∀ i < 16, c.e.live i = true ∧ streaming.check c.agent none .load (0x20000 + 4 * i + 64) 4 4 = .ok [(0x200000 + 4 * i + 64, 4)]) ∧
    16 ≤ ({ stream1 with queued := List.replicate 16 [] } : Stream).queued.length ∧ ({ stream1 with fetched := 4 } : Stream).total ≤ 4 :=
  ⟨some_and (by decide +kernel), by decide, by decide⟩

/-! ### Packets -/

/-- 128 bytes from fields given by their lowest bit. -/
def packet (fs : List (Nat × Nat)) : List Byte := leBytes 128 ((fs.map fun f => f.2 * 2 ^ f.1).sum)

/-- An authenticated queue of a function with one packet that waits to be parsed. -/
def ring (fn : Nat) (p : List Byte) : Qcb := ⟨fn, 1, 0x30000, 64, 0, 0, 2, true, 1, 0, 0, 15, 0, 0, 0, [], 0, 0, some 0, [p], none, none, false⟩
def handed (s : State) (fn : Nat) (p : List Byte) : State := { s with queue := { s.queue with qcbs := [ring fn p] } }

theorem heads (s : State) (fn : Nat) {p : List Byte} (h : packetOk p = true) : Heads (handed s fn p) (ring fn p) p :=
  ⟨by simp [State.qcb, handed, ring], rfl, fun _ => rfl, h⟩

/-- Partition 0 has the first pair and serves functions 1 and 2. -/
def ready : State := { demo with
  cores := State.reset.cores
  oper := { demo.oper with parts := demo.oper.parts.set 0 { cur := { pairs := 1, fns := 6, slots := 16, savesz := 2 ^ 20, saveb := 0x40000000 } } } }

def launchP (more : List (Nat × Nat)) : List Byte := packet ([(0, 5), (256, 16)] ++ more)

/-- A premise about a packet that the machine `ready` has at its head. -/
theorem ready_and (fn : Nat) (p : List Byte) {P : State → Qcb → Prop} [Decidable (P (handed ready fn p) (ring fn p))]
    (h : (packetOk p && decide (P (handed ready fn p) (ring fn p))) = true) : ∃ s q, Heads s q p ∧ P s q := by
  rw [Bool.and_eq_true, decide_eq_true_eq] at h
  exact ⟨_, _, heads ready fn h.1, h.2⟩

theorem witness_LaunchRefused_physical : ∃ s q, Heads s q (launchP [(320, 1)]) ∧ pfield (launchP [(320, 1)]) 7 0 = 5 ∧ q.tried = false ∧ q.fn = 0 :=
  ready_and 0 _ (by decide +kernel)

theorem witness_LaunchRefused_length : ∀ n ∈ [4, 4104], let p := launchP [(320, 1), (448, n)]
    ∃ s q, Heads s q p ∧ pfield p 7 0 = 5 ∧ q.tried = false ∧ q.fn ≠ 0 ∧ (pfield p 463 448 % 8 ≠ 0 ∨ 4096 < pfield p 463 448) := by
  intro n hn
  simp only [List.mem_cons, List.not_mem_nil, or_false] at hn
  rcases hn with rfl | rfl <;> exact ready_and 1 _ (by decide +kernel)

theorem witness_LaunchRefused_kernel : let p := launchP [(320, 1), (192, 9), (448, 4096)]
    ∃ s q, Heads s q p ∧ pfield p 7 0 = 5 ∧ q.tried = false ∧ q.fn ≠ 0 ∧ pfield p 463 448 % 8 = 0 ∧ pfield p 463 448 ≤ 4096 ∧
      s.kernelOf q.fn (BitVec.ofNat 64 (pfield p 255 192)) = none :=
  ready_and 1 _ (by decide +kernel)

/-- No partition, one that does not exist, and one that does not serve the function. -/
theorem witness_LaunchRefused_partitions : (∀ n ∈ [0, 0x10000, 2], let p := launchP [(320, n)]
    ∃ s q, Heads s q p ∧ pfield p 7 0 = 5 ∧ q.tried = false ∧ q.fn ≠ 0 ∧ s.kernelOf q.fn (BitVec.ofNat 64 (pfield p 255 192)) ≠ none) ∧
    pfield (launchP [(320, 0)]) 351 320 = 0 ∧ 2 ^ 16 ≤ pfield (launchP [(320, 0x10000)]) 351 320 ∧
    (pfield (launchP [(320, 2)]) 351 320).testBit 1 = true ∧ (ready.part 1).cur.fns.testBit 1 = false := by
  refine ⟨fun n hn => ?_, by decide +kernel, by decide +kernel, by decide +kernel, by decide +kernel⟩
  simp only [List.mem_cons, List.not_mem_nil, or_false] at hn
  rcases hn with rfl | rfl | rfl <;> exact ready_and 1 _ (by decide +kernel)

/-- A launch of too many items, and one of none. -/
theorem witness_LaunchRefused_status : (∃ s q, Heads s q (packet [(0, 5), (320, 1), (256, 17)]) ∧ q.tried = false ∧
      ∃ r, s.readLaunch q.fn (packet [(0, 5), (320, 1), (256, 17)]) = .ok r ∧ s.launchStatus q.fn r ≠ 0) ∧
    ∃ s q, Heads s q (packet [(0, 5), (320, 1)]) ∧ q.tried = false ∧
      ∃ r, s.readLaunch q.fn (packet [(0, 5), (320, 1)]) = .ok r ∧ s.launchStatus q.fn r = 0 ∧ r.n = 0 :=
  ⟨⟨_, _, heads ready 1 (by decide +kernel), rfl, ok_and (by decide +kernel)⟩, ⟨_, _, heads ready 1 (by decide +kernel), rfl, ok_and (by decide +kernel)⟩⟩

/-- Every launch tag is taken. -/
@[irreducible] def everyTag : List Launch := (List.range 65536).map fun t => { placeLaunch with tag := t }
def tagless : State := { ready with launches := everyTag }

theorem freeTag_none {s : State} (h : s.launches = everyTag) : s.freeTag = none := by
  unfold State.freeTag
  rw [List.find?_eq_none, h]
  intro t ht
  have : (everyTag.any fun l => decide (l.tag = t)) = true := by
    unfold everyTag
    exact List.any_eq_true.2 ⟨_, List.mem_map.2 ⟨t, ht, rfl⟩, by simp⟩
  simpa using this

/-- A launch for which no tag is free, and one that has been tried since the last pass. -/
theorem witness_LaunchRefused_waits : (∃ s q, Heads s q (launchP [(320, 1)]) ∧ q.tried = false ∧ s.freeTag = none ∧
      ∃ r, s.readLaunch q.fn (launchP [(320, 1)]) = .ok r ∧ s.launchStatus q.fn r = 0 ∧ r.n ≠ 0 ∧ r.parts.length < 2) ∧
    ∃ s q, Heads s q (launchP [(320, 1)]) ∧ q.tried = true :=
  ⟨⟨_, _, heads tagless 1 (by decide +kernel), rfl, freeTag_none rfl, ok_and (by decide +kernel)⟩,
   { ready with queue := { ready.queue with qcbs := [{ ring 1 (launchP [(320, 1)]) with tried := true }] } },
   { ring 1 (launchP [(320, 1)]) with tried := true }, ⟨by decide +kernel, by decide +kernel, by decide +kernel, by decide +kernel⟩, rfl⟩

def launchFields : List Byte := launchP [(320, 1), (288, 5), (192, 0)]

theorem ready_sound : SoundMemory ready := by unfold SoundMemory; decide +kernel

theorem handed_sound {s : State} (fn : Nat) (p : List Byte) (h : SoundMemory s) : SoundMemory (handed s fn p) := h

/-- A region that holds 64 bytes for each of 16 items. -/
theorem witness_LaunchStatuses_deposits : ∃ r : LaunchReq, r.k.reord = true ∧ r.n = 16 ∧ r.regions[r.dep]? = some ⟨0x20000, 1024, 3⟩ :=
  ⟨⟨{ placeKernel with reord := true }, 16, 1, [0], 1, 0, [], true, 16, [⟨0x20000, 1024, 0, 0, 0, 0xFFF, 3, false, 1⟩]⟩, rfl, rfl, by decide⟩

theorem witness_LaunchStatuses : ∃ r, ready.readLaunch 1 launchFields = .ok r ∧ ready.launchStatus 1 r = 0 ∧ r.parts.length < 2 :=
  ok_and (by decide +kernel)

/-- Two regions that overlap, under a kernel with two records, and a list of another shape. -/
theorem witness_LaunchStatuses_regions : ∃ r : LaunchReq, r.grants.length = 2 ∧ r.k.grants.length = 0 ∧
    ∃ x y : LRegion, r.regions[0]? = some x ∧ r.regions[1]? = some y ∧ x.base < y.base + y.size ∧ y.base < x.base + x.size :=
  let g : Grant := ⟨0x20000, 128, 0, 0, 0, 0xFFF, 3, false, 1⟩
  ⟨⟨placeKernel, 16, 1, [0], 1, 0, [], true, 16, [g, g]⟩, rfl, rfl, ⟨0x20000, 128, 3⟩, ⟨0x20000, 128, 3⟩, by decide +kernel⟩

theorem witness_LaunchCommits : ∃ s q, Heads s q launchFields ∧ q.tried = false ∧ pfield launchFields 7 0 = 5 ∧ (∃ r, s.readLaunch q.fn launchFields = .ok r ∧
    s.launchStatus q.fn r = 0 ∧ r.n ≠ 0 ∧ r.parts.length < 2) ∧ s.freeTag = some 1 ∧ SoundMemory s ∧ q.fn < s.queue.fns.length :=
  ⟨_, _, heads ready 1 (by decide +kernel), rfl, by decide +kernel, ok_and (by decide +kernel), by decide +kernel, handed_sound 1 _ ready_sound, by decide +kernel⟩

/-- Two partitions of one pair each and a kernel for 64 items. -/
def twoParts : State :=
  let p (n base : Nat) : Partition := { cur := { pairs := n, fns := 6, slots := 16, savesz := 2 ^ 20, saveb := base } }
  { demo with cores := State.reset.cores, kernels := [{ placeKernel with nmax := 64 }]
              oper := { demo.oper with parts := (demo.oper.parts.set 0 (p 1 0x40000000)).set 1 (p 2 0x50000000) } }

def gangP : List Byte := packet [(0, 5), (320, 3), (256, 32), (352, 1)]

theorem witness_GangReserves : ∃ s q, Heads s q gangP ∧ q.tried = false ∧ pfield gangP 7 0 = 5 ∧ (∃ r, s.readLaunch q.fn gangP = .ok r ∧
    s.launchStatus q.fn r = 0 ∧ r.n ≠ 0 ∧ 2 ≤ r.parts.length ∧
    ((s.commit q gangP r 1).placeGang 1 r.k r.gres r.parts).any (fun u => s.banksLive (u.piecesOf 1)) = true) ∧ s.freeTag = some 1 ∧
    ∀ f ∈ s.flights, f.tag ≠ 1 :=
  ⟨_, _, heads twoParts 1 (by decide +kernel), rfl, by decide +kernel, ok_and (by decide +kernel), by decide +kernel, by decide +kernel⟩

/-- The second partition's save pool is taken by another flight. -/
def noRoom : State := { twoParts with flights := flight0 :: [{ placeFlight 7 with part := 1, saveArea := 0x50000000, lmax := 2 ^ 20 }] }

theorem witness_GangReserves_waits : ∃ s q, Heads s q gangP ∧ q.tried = false ∧ pfield gangP 7 0 = 5 ∧ (∃ r, s.readLaunch q.fn gangP = .ok r ∧
    s.launchStatus q.fn r = 0 ∧ r.n ≠ 0 ∧ 2 ≤ r.parts.length ∧
    (s.commit q gangP r 1).placeGang 1 r.k r.gres r.parts = none) ∧ s.freeTag = some 1 ∧ ∀ f ∈ s.flights, f.tag ≠ 1 :=
  ⟨_, _, heads noRoom 1 (by decide +kernel), rfl, by decide +kernel, ok_and (by decide +kernel), by decide +kernel, by decide +kernel⟩

/-! ### Dispatch, sweeps and phases -/

def launch1 : Launch := { placeLaunch with next := 0, nextFlight := 0 }

theorem witness_DispatchResults : ∃ (s : State) (la : Launch) (k : Kernel) (area core : Nat) (alloc : List Alloc), s.launches = [la] ∧ s.kernelOf la.fn la.kid = some k ∧ la.killed = false ∧
    la.relaunch = [] ∧ la.phase = 0 ∧ la.next < la.n ∧ (∀ f ∈ s.flights, f.tag = la.tag → f.state ≠ .saved) ∧ la.parts = [0] ∧
    s.budgetOpen 0 = true ∧ s.reservePool 0 k = some area ∧ s.bestSite k (s.sites 0 k) = some (core, alloc) ∧
    s.banksLive alloc = true ∧ s.cores.length = 96 :=
  ⟨{ ready with launches := [launch1], flights := [], slots := [] }, launch1, placeKernel, 0x40000000, 0,
    [⟨0, 0, 0, 8192⟩], by decide +kernel⟩

theorem witness_DispatchResults_none : ∃ s : State, s.launches = [] := ⟨{ ready with launches := [] }, rfl⟩

def parkedFlight : Flight := { flight0 with parkedSince := some 0, lmax := 4096 }

theorem witness_SweepResults : ∃ (s : State) (la : Launch) (f : Flight), s.launchOf 0 = some la ∧ f ∈ s.flights ∧ f.tag = 0 ∧ f.state ≠ .saved ∧
    (∀ g ∈ s.flights, g.tag = 0 → g.state ≠ .saved → g.num < f.num ∨ g = f) ∧ s.flightOf f.id = some f ∧ f.state = .resident ∧
    f.lmax ≠ 0 ∧ f.core < s.cores.length ∧ la.next < la.n ∧ la.swept = false ∧
    ∀ g ∈ s.flights, g.tag = 0 → g.state ≠ .saved → ∃ a ∈ g.parkedSince, max a la.lastSweep + 64 * Config.clocksPerUs ≤ s.clock :=
  ⟨{ ready with launches := [launch1], flights := [parkedFlight], clock := 64 * Config.clocksPerUs }, launch1, parkedFlight, by decide +kernel⟩

theorem witness_SweepResults_rests : ∃ (s : State) (la : Launch) (f : Flight), s.launchOf 0 = some la ∧ f ∈ s.flights ∧ f.tag = 0 ∧ f.state ≠ .saved ∧
    (∃ g ∈ s.flights, g.tag = 0 ∧ g.state ≠ .saved ∧ g.parkedSince = none) ∧ la.n ≤ la.next ∧ la.relaunch = [] :=
  ⟨ready, placeLaunch, flight0, by decide +kernel⟩

def rec0 : RRec := ⟨0, 5, 3, 0, [7, 8]⟩

theorem witness_PhaseCloses : ∃ (s : State) (la : Launch) (k : Kernel), s.launchOf 0 = some la ∧ s.kernelOf la.fn la.kid = some k ∧ la.killed = false ∧ la.n ≤ la.next ∧
    la.relaunch = [] ∧ la.recs ≠ [] ∧ ∀ f ∈ s.flights, f.tag ≠ 0 :=
  ⟨{ ready with launches := [{ placeLaunch with recs := [rec0] }], flights := [] }, { placeLaunch with recs := [rec0] }, placeKernel,
    by decide +kernel⟩

theorem witness_PhaseCloses_waits : ∃ (s : State) (la : Launch) (k : Kernel), s.launchOf 0 = some la ∧ s.kernelOf la.fn la.kid = some k ∧
    ∃ f ∈ s.flights, f.tag = 0 := ⟨ready, placeLaunch, placeKernel, by decide +kernel⟩

theorem witness_RelaunchOrder : ∃ (recs : List RRec) (w n : Nat), recs.length = 2 ∧ 1 ≤ w ∧ 1 ≤ n ∧ ∀ r ∈ recs, r.die < 4 :=
  ⟨[{ rec0 with die := 3 }, rec0], 16, 8, by decide⟩

theorem witness_RelaunchedStrand : ∃ x : RStrand, x.recs = rec0 :: [rec0] := ⟨⟨0, [rec0, rec0]⟩, rfl⟩

def startedL : Started := ⟨3, 1, 1, launchFields, none, some 0, none⟩

/-- Every item is placed and every flight is over. -/
def ended : State := { ready with flights := [], queue := { ready.queue with started := [startedL] } }

theorem witness_LaunchCompletes : ∃ la x, ended.launchOf 0 = some la ∧ la.n ≤ la.next ∧ la.relaunch = [] ∧ la.recs = [] ∧
    (∀ f ∈ ended.flights, f.tag ≠ 0) ∧ (la.killed = true → ended.openRecord 0 = false) ∧
    (ended.queue.started.find? fun p => decide (p.tag = some 0)) = some x ∧ ended.cores.length = 96 :=
  ⟨placeLaunch, startedL, by decide +kernel⟩

theorem witness_LaunchCompletes_waits : ∃ la, demo.launchOf 0 = some la ∧ ∃ f ∈ demo.flights, f.tag = 0 := ⟨placeLaunch, by decide +kernel⟩

/-- A sector of the bonded tier with one byte that its core wrote. -/
def wrote1 : State := ready.modCore 0 fun k => { k with cache := [⟨0x200000 / 128, 0xAB, true, 1, 1⟩] }

theorem witness_LaunchCompletes_merge : ∃ x, SoundStore wrote1 ∧ wrote1.cores.length = 96 ∧ x ∈ (wrote1.core 0).cache ∧
    x.wrote.getLsbD 0 = true ∧ (∀ k, ∀ y ∈ (wrote1.core k).cache, wrote1.mayFill y.tag) ∧
    ∀ k, k ≠ 0 → ∀ y ∈ (wrote1.core k).cache, y.sector = x.sector → y.wrote.getLsbD 0 = false := by
  have hc : ∀ k, k ≠ 0 → (wrote1.core k).cache = [] := by
    have : ∀ k ∈ List.range 96, k ≠ 0 → (wrote1.core k).cache = [] := by decide +kernel
    intro k hk
    rcases Nat.lt_or_ge k 96 with h | h
    · exact this k (List.mem_range.2 h) hk
    · have hl : wrote1.cores.length = 96 := by decide +kernel
      unfold State.core; rw [List.getD_eq_default _ _ (by omega)]; rfl
  refine ⟨⟨0x200000 / 128, 0xAB, true, 1, 1⟩, by unfold SoundStore SoundMemory; decide +kernel, by decide +kernel, by decide +kernel,
    by decide +kernel, fun k => ?_, fun k hk => by simp [hc k hk]⟩
  by_cases hk : k = 0
  · subst hk
    have : ∀ y ∈ (wrote1.core 0).cache, fills wrote1 y.tag = true := by decide +kernel
    exact fun y hy => mayFill_of (this y hy)
  · simp [hc k hk]

/-! ### Admissions -/

/-- A kernel object: header, the entry's annotation at 128, tables at 136, code at 65,536 (R353, R354). -/
def object (fs : List (Nat × Nat)) (tables code : List Byte) : List Byte :=
  leBytes 128 (([(0, 0x4F4B5254), (32, 1), (64, 16), (72, 2), (80, 1), (160, 65536), (192, code.length / 4), (224, 128), (256, 8),
    (320, 136), (352, tables.length), (384, 136 + tables.length), (480, 0xFFFF)] ++ fs).map fun (f : Nat × Nat) => f.2 * 2 ^ f.1).sum ++
    leBytes 8 0 ++ tables ++ List.replicate (65400 - tables.length) 0 ++ code

def exitOnly : List Byte := object [] [] (leBytes 4 0xBFDFC400)
def noGrants : List Byte := leBytes 32 0

/-- The Arbiter accepts a kernel that is one EXIT. -/
theorem test_verdict_accepts : verdict .tenant 1 0x20000 [0x30000] 0 exitOnly noGrants = none := by decide +kernel

/-- It rejects what is no object, an address off a page boundary, and code that is no instruction (ADM-ENC-02, ADM-ENC-01). -/
theorem test_verdict_rejects : verdict .tenant 1 0x20000 [] 0 [] noGrants = some { fam := 1, num := 2 } ∧
    verdict .tenant 1 0x20080 [0x30000] 0 exitOnly noGrants = some { fam := 1, num := 2 } := by decide +kernel

theorem witness_VerdictOrder : ¬(headerOk (leBytes 8 0) 0 = true) ∧
    (headerOk exitOnly 0 = true ∧ tablesOk exitOnly = true ∧ ∃ r, grantCheck 1 [0x30000] exitOnly (leBytes 64 1) = some r) :=
  ⟨by decide +kernel, by decide +kernel, by decide +kernel, some_then (P := fun _ => True) (by decide +kernel) trivial |>.imp fun _ h => h.1⟩

/-- A parameter named N. -/
theorem witness_VerdictOrder_names : let b := object [(304, 1)] (leBytes 16 (2 * 2 ^ 16 + 0x4E * 2 ^ 64)) (leBytes 4 0xBFDFC400)
    headerOk b 0 = true ∧ tablesOk b = true ∧ grantCheck 1 [0x30000] b noGrants = none ∧ ∃ p ∈ (namesOf b).params, p.1 = "N".toList := by
  decide +kernel

/-- A word that is no instruction. -/
theorem witness_VerdictOrder_code : let b := object [] [] (leBytes 4 0)
    headerOk b 0 = true ∧ tablesOk b = true ∧ grantCheck 1 [0x30000] b noGrants = none ∧ (namesOf b).params = [] ∧
    ∃ r, Raw.decode (wordsOfBytes ((b.drop (pfield b 191 160)).take (4 * pfield b 223 192))) = .error r ∧ r.kind = 9 := by
  refine ⟨by decide +kernel, by decide +kernel, by decide +kernel, by decide +kernel, ⟨9, 0⟩, by decide +kernel⟩

/-- An object of 8 bytes at 0x20000, a grant list of nothing, room for the record. -/
def admitP : List Byte := packet [(0, 6), (192, 0x20000), (256, 8), (320, 0x20080), (384, 77), (448, 0x20100)]

theorem readAdmit_ok : ∃ b, (handed ready 1 admitP).readAdmit 1 admitP = .ok b ∧ b.1.length = 8 := ok_and (by decide +kernel)

theorem witness_AdmitResults_physical : ∃ s q, Heads s q admitP ∧ pfield admitP 7 0 = 6 ∧ q.fn = 0 := ready_and 0 _ (by decide +kernel)

/-- An object where no page is mapped. -/
theorem witness_AdmitResults_fault : let p := packet [(0, 6), (192, 0x50000), (256, 8), (320, 0x20080), (448, 0x20100)]
    ∃ s q, Heads s q p ∧ pfield p 7 0 = 6 ∧ q.fn ≠ 0 ∧ ∃ f, s.readAdmit q.fn p = .error (.fault f) := by
  refine ⟨_, _, heads ready 1 (by decide +kernel), by decide +kernel, by decide, ?_⟩
  refine (show (match State.readAdmit (handed ready 1 (packet [(0, 6), (192, 0x50000), (256, 8), (320, 0x20080), (448, 0x20100)])) 1
      (packet [(0, 6), (192, 0x50000), (256, 8), (320, 0x20080), (448, 0x20100)]) with
    | .error (.fault _) => true
    | _ => false) = true → _ from fun h => ?_) (by decide +kernel)
  split at h
  · exact ⟨_, by assumption⟩
  · cases h

theorem witness_AdmitResults : ∃ s q, Heads s q admitP ∧ pfield admitP 7 0 = 6 ∧ q.fn ≠ 0 ∧
    (∃ b, s.readAdmit q.fn admitP = .ok b ∧ (pagesOf (pfield admitP 255 192) (pfield admitP 287 256)).any s.pageTaken = false) ∧
    (∃ u, s.freeUnit = some u ∧ u < s.queue.units.length) ∧ (∀ k ∈ s.cores, ∀ y ∈ k.cache, y.dirty = false) ∧ SoundMemory s ∧
    ∃ va, pagesOf (pfield admitP 255 192) (pfield admitP 287 256) = [va] ∧ ∃ l, s.walk va = .leaf l := by
  refine ⟨_, _, heads ready 1 (by decide +kernel), by decide +kernel, by decide, ok_and (by decide +kernel), some_and (by decide +kernel),
    by decide +kernel, handed_sound 1 _ ready_sound, 0x20000, by decide +kernel, ?_⟩
  refine (show (match State.walk (handed ready 1 admitP) 0x20000 with
    | .leaf _ => true
    | _ => false) = true → _ from fun h => ?_) (by decide +kernel)
  split at h
  · exact ⟨_, by assumption⟩
  · cases h

/-- The unit is at work on the page. -/
def admission : Admission := ⟨1, 1, admitP, 0, 4, [0x20000], 3⟩
def admitting : State := { ready with
  clock := 4
  queue := { ready.queue with started := [⟨3, 1, 1, admitP, none, none, some 0⟩], units := some admission :: List.replicate 3 none } }

theorem witness_AdmitResults_taken : ∃ s q, Heads s q admitP ∧ pfield admitP 7 0 = 6 ∧ q.fn ≠ 0 ∧
    ∃ b, s.readAdmit q.fn admitP = .ok b ∧ (pagesOf (pfield admitP 255 192) (pfield admitP 287 256)).any s.pageTaken = true :=
  ⟨_, _, heads admitting 1 (by decide +kernel), by decide +kernel, by decide, ok_and (by decide +kernel)⟩

/-- Every unit is at work on another page. -/
theorem witness_AdmitResults_waits : ∃ s q, Heads s q admitP ∧ pfield admitP 7 0 = 6 ∧ q.fn ≠ 0 ∧ s.freeUnit = none ∧
    ∃ b, s.readAdmit q.fn admitP = .ok b ∧ (pagesOf (pfield admitP 255 192) (pfield admitP 287 256)).any s.pageTaken = false :=
  ⟨_, _, heads { ready with queue := { ready.queue with units := List.replicate 4 (some { admission with pages := [0x70000] }) } } 1
    (by decide +kernel), by decide +kernel, by decide, by decide +kernel, ok_and (by decide +kernel)⟩

theorem witness_AdmissionResults : ∃ x, admitting.queue.units.getD 0 none = some admission ∧
    (admitting.queue.started.find? fun x => decide (x.id = admission.id)) = some x ∧
    (∃ b, admitting.readAdmit admission.fn admission.packet = .ok b ∧ b.1.length = 8) ∧ SoundMemory admitting ∧
    admission.fn < admitting.sec.mlogs.length ∧ admission.fn < 15 ∧ pfield x.packet 127 64 = 0 ∧ admission.doneAt ≤ admitting.clock ∧
    admitting.earlierWrites admission.started admission.pages = false ∧ admitting.clock - 1 < admission.doneAt :=
  ⟨⟨3, 1, 1, admitP, none, none, some 0⟩, by decide +kernel, by decide +kernel, ok_and (by decide +kernel), ready_sound, by decide +kernel,
    by decide +kernel, by decide +kernel, by decide +kernel, by decide +kernel, by decide +kernel⟩

/-! ### Kicks and packets -/

/-- A queue of function 1 whose packet waits, mapped to slot 17. -/
def ringQ : Qcb := { ring 1 [] with slot := some 17 }
def withQ (q : Qcb) : State := { ready with queue := { ready.queue with qcbs := [q] } }
def fnFault : FaultRec := ⟨1, 7, 19, 2, true, true, 0, 0, 0, true⟩

theorem sound_of_mem {s t : State} (h : SoundMemory s) (e : t.mem = s.mem) : SoundMemory t := by unfold SoundMemory at *; rw [e]; exact h

theorem walk_leaf {s : State} {va : Nat} (h : (match s.walk va with
    | .leaf _ => true
    | _ => false) = true) : ∃ l, s.walk va = .leaf l := by
  split at h
  · exact ⟨_, by assumption⟩
  · cases h

/-- The same queue registered, its QCB in its backing store and in the entry of slot 17; and one that no slot holds. -/
def kickable : State := ready.enterQcb ringQ
def kickableLow : State := ready.enterQcb { ringQ with slot := none }

theorem witness_KickResults : kickable.tdi 1 ≠ .error ∧ kickable.sec.life ≠ 4 ∧ kickable.registered 1 1 = true ∧
    kickable.kickSlot 1 1 = some 17 ∧ 17 / 16 < kickable.queue.bells.length ∧ SoundMemory kickable ∧
    (∀ x ∈ kickable.slots, ∀ e ∈ x.entries, e.status = .ready) ∧ kickableLow.registered 1 1 = true ∧ kickableLow.kickSlot 1 1 = none ∧
    kickable.registered 1 2 = false := by unfold SoundMemory; decide +kernel

/-- The queue engine's strand of slots 16 to 31 waits for a doorbell. -/
def waiter : Entry := { entry0 with snum := 1, status := .parked (.qwait { plainLong with d := .s 20 }) none }
def ringing : State := { kickable with slots := [⟨0, 0, 0, 0, [waiter]⟩] }

theorem witness_KickWakes : ∃ e, ringing.tdi 1 ≠ .error ∧ ringing.sec.life ≠ 4 ∧ ringing.registered 1 1 = true ∧ SoundMemory ringing ∧
    ringing.kickSlot 1 1 = some 17 ∧ ringing.queue.psum = 0 ∧
    ringing.entry ⟨0, 0, 0⟩ = some e ∧ e.status = .parked (.qwait { plainLong with d := .s 20 }) none ∧ e.snum = 17 / 16 ∧
    e.canWriteEvery (ringing.regsOf ⟨0, 0, 0⟩) e.activeList true (.s 20) = true ∧ ringing.bell 1 ||| BitVec.ofNat 64 (2 ^ 17) ≠ 0 := by
  unfold SoundMemory
  exact ⟨waiter, by decide +kernel⟩

/-- A function with a live region for its ring: two pages at 0x20000. -/
def region1 : Region := { vbase := 0x20000, pages := 1, owner := 1, rd := true, wr := true, fns := 2, live := true }
def regioned : State := { ready with oper := { ready.oper with regions := ready.oper.regions.set 0 region1 } }

theorem witness_QueueZero : regioned.regStatus 1 0 0x20000 6 2 0 0 false true = 0 ∧ regioned.regStatus 1 0 0x20000 5 2 0 0 false true ≠ 0 ∧
    1 < regioned.queue.fns.length ∧ regioned.sec.life ≠ 4 ∧ SoundMemory regioned ∧
    ({ regioned with queue := { regioned.queue with fns := regioned.queue.fns.set 1 { q0base := 0x20000 } } }.fnBlock 1).q0base = 0x20000 :=
  ⟨by decide +kernel, by decide +kernel, by decide +kernel, by decide +kernel, sound_of_mem ready_sound rfl, by decide +kernel⟩

theorem witness_RegistrationStatus : regioned.regStatus 1 3 0x20000 6 2 0 0 false false = 0 ∧
    regioned.regStatus 1 3 0x20040 6 2 0 0 false false = 1 ∧ (withQ ringQ).regStatus 1 1 0x20000 6 2 0 0 false false = 2 ∧
    regioned.regStatus 1 8192 0x20000 6 2 0 0 false false = 3 ∧ regioned.regStatus 1 3 0x20000 5 2 0 0 false false = 4 ∧
    regioned.regStatus 1 3 0x20000 6 2 13 13 false false = 4 := by decide +kernel

/-- Two queues that wait for one slot of partition 0, the second of higher priority; neither has a slot. -/
def passing : State := let q : Qcb := { ring 1 [] with auth := false, slot := none, ceil := 12 }
  { ready with queue := { ready.queue with qcbs := [q, { q with qid := 2, epri := 3, bpri := 3 }] }, mem := Memory.writeN (Memory.writeN ready.mem (shadowOf 1 1) [1]) (shadowOf 1 2) [2] }

theorem witness_PassResults : let s := passing
    SoundMemory s ∧ (s.queue.qcbs.map fun q => (q.fn, q.qid)).Nodup ∧ (∀ q ∈ s.queue.qcbs, s.holdsReserved q = false) ∧
    (∀ q ∈ s.queue.qcbs, q.slot = none) ∧ s.passSlots 0 = [4] ∧ (s.passQueues 0).length = 2 ∧
    ∀ q ∈ s.passQueues 0, q.state = 1 ∧ q.auth = false ∧ q.cls < 4 ∧ q.fn < 15 ∧ q.qid < 8192 ∧ s.isWaiting q = true ∧ s.kicked q.fn q.qid < 2 * q.size ∧
      (s.kicked q.fn q.qid + 2 ^ 32 - q.ridx) % 2 ^ 32 % (2 * q.size) ≤ q.size := by unfold SoundMemory; decide +kernel

/-- An index within the ring, one beyond it, and one too far from the read index. -/
theorem witness_IndexChecks : (∀ w ∈ [3, 128, 65], let s : State := { withQ { ringQ with slot := none } with
      mem := Memory.writeN ready.mem (shadowOf 1 1) (leBytes 4 w) }
    s.qcb 1 1 = some { ringQ with slot := none } ∧ s.kicked 1 1 = w) ∧ 1 < ready.queue.fns.length ∧ ringQ.state = 1 ∧ ringQ.size = 64 := by
  decide +kernel

/-- A packet of an authenticated ring with its number and MAC. -/
def numberedBody (n : Nat) : List Byte := leBytes 112 (4 + n * 2 ^ 32)
def numbered (q : Qcb) (n : Nat) : List Byte := numberedBody n ++ q.mac 9 (numberedBody n)

def sessioned (q : Qcb) : State := { withQ q with sec := { ready.sec with sessions := [⟨0, 1, 9⟩] } }

theorem numberedBody_length (n : Nat) : (numberedBody n).length = 112 := by simp [numberedBody, leBytes]

theorem mac_append (q : Qcb) (k : Nat) {b : List Byte} (m : List Byte) (h : b.length = 112) : q.mac k (b ++ m) = q.mac k b := by
  unfold Qcb.mac
  rw [List.take_append_of_le_length (by omega)]

theorem numbered_good {q : Qcb} (n : Nat) (h1 : q.fn = 1) (h2 : q.secret = some 9) : (sessioned q).macGood q (numbered q n) = true := by
  have hd : (numbered q n).drop 112 = q.mac 9 (numbered q n) := by
    unfold numbered
    rw [mac_append q 9 _ (numberedBody_length n), List.drop_append_of_le_length (by rw [numberedBody_length]),
      List.drop_eq_nil_of_le (by rw [numberedBody_length]), List.nil_append]
  unfold State.macGood
  rw [h2, h1]
  simp only [sessioned, List.any_cons, hd]
  rfl

def seq5 : Qcb := { ringQ with parsed := [], seq := 5, secret := some 9 }

/-- Numbers already passed, expected, ahead and too far ahead of 5. -/
theorem witness_SequenceNumbers : seq5.parsed = [] ∧ seq5.held = [] ∧ seq5.seq = 5 ∧ (sessioned seq5).qcb 1 1 = some seq5 ∧
    (∀ n ∈ [3, 5, 9, 70], (sessioned seq5).macGood seq5 (numbered seq5 n) = true ∧ leNat (((numbered seq5 n).drop 4).take 4) = n) ∧
    (withQ seq5).macGood seq5 (numbered seq5 5) = false := by
  refine ⟨rfl, rfl, rfl, by decide +kernel, fun n hn => ⟨numbered_good n rfl rfl, ?_⟩, rfl⟩
  unfold numbered
  rw [List.drop_append_of_le_length (by rw [numberedBody_length]; omega),
    List.take_append_of_le_length (by rw [List.length_drop, numberedBody_length]; omega)]
  revert n
  decide +kernel

theorem witness_GapEnds : let q := { ringQ with held := [(7, [])], gapt := 100 }
    ({ withQ q with clock := 100 } : State).qcb 1 1 = some q ∧ q.state = 1 ∧ 1 < ready.queue.fns.length ∧
      ({ withQ q with clock := 99 } : State).clock < q.gapt := by decide +kernel

/-- A queue that is not mapped, a packet that a fence holds, and one that is malformed. -/
theorem witness_PacketStops : (withQ { ringQ with slot := none }).qcb 1 1 = some { ringQ with slot := none } ∧
    (let q := { ring 1 (packet [(0, 4), (8, 1)]) with infl := 1 }
     (withQ q).headPacket q = .ok (some (packet [(0, 4), (8, 1)])) ∧ pfield (packet [(0, 4), (8, 1)]) 8 8 = 1) ∧
    let q := ring 1 (packet [(0, 77)])
    (withQ q).headPacket q = .ok (some (packet [(0, 77)])) ∧ packetOk (packet [(0, 77)]) = false ∧ pfield (packet [(0, 77)]) 8 8 = 0 := by
  decide +kernel

/-- A premise about a packet of function 1 at the head in any machine. -/
theorem head_and (s : State) (p : List Byte) {P : State → Qcb → Prop} [Decidable (P (handed s 1 p) (ring 1 p))]
    (h : (packetOk p && decide (P (handed s 1 p) (ring 1 p))) = true) : ∃ s q, Heads s q p ∧ P s q := by
  rw [Bool.and_eq_true, decide_eq_true_eq] at h
  exact ⟨_, _, heads s 1 h.1, h.2⟩

def findFault (s : State) (fn n : Nat) : Option FaultRec :=
  s.queue.faults.find? fun f => decide (f.fn = fn) && decide (f.recno = n) && f.isOpen

/-- A TETHER_STALL that resumes, a fault of class 3 that is killed, and a disposition that is none. -/
theorem witness_FaultAckResults : (∀ d ∈ [1, 2], let p := packet [(0, 1), (192, 7), (224, d)]
      ∃ s q, Heads s q p ∧ findFault s q.fn 7 = some fnFault ∧ pfield p 223 192 = 7 ∧ pfield p 231 224 = d) ∧
    (let p := packet [(0, 1), (192, 7)]
      ∃ s q, Heads s q p ∧ ∃ f, findFault s q.fn 7 = some f ∧ f.launch = true ∧ f.cls = 3 ∧ ∃ la, s.launchOf f.tag = some la ∧ la.killed = false) ∧
    let p := packet [(0, 1), (192, 8)]
    ∃ s q, Heads s q p ∧ findFault s q.fn 8 = none := by
  refine ⟨fun d hd => ?_, ?_, head_and demo _ (by decide +kernel)⟩
  · simp only [List.mem_cons, List.not_mem_nil, or_false] at hd
    rcases hd with rfl | rfl <;> exact head_and { demo with queue := { demo.queue with faults := [fnFault] } } _ (by decide +kernel)
  · exact ⟨_, _, heads { demo with queue := { demo.queue with faults := [{ fnFault with cls := 3, code := 7 }] } } 1 (by decide +kernel),
      some_and (by decide +kernel)⟩

/-- The address of SIGNAL and WAIT is served, and one is not. -/
theorem witness_SignalResults : let p := packet [(0, 2), (192, 0x20008), (256, 5), (320, 1)]
    ∃ s q, Heads s q p ∧ pfield p 7 0 = 2 ∧ q.fn ≠ 0 ∧ ∃ u, s.devPieces (fnAgent q.fn) .atomic 0x20008 8 8 = .ok u ∧ u.2 = [(0x200008, 8)] ∧
      decide (u.1.mem = s.mem) = true ∧ fills u.1 q.fn = true :=
  ⟨_, _, heads demo 1 (by decide +kernel), by decide +kernel, by decide, ok_and (by decide +kernel)⟩

theorem witness_SignalResults_fault : let p := packet [(0, 2), (192, 0x50008)]
    ∃ s q, Heads s q p ∧ ∃ f, s.devPieces (fnAgent q.fn) .atomic 0x50008 8 8 = .error (.fault f) := by
  refine ⟨_, _, heads demo 1 (by decide +kernel), ?_⟩
  refine (show (match State.devPieces (handed demo 1 (packet [(0, 2), (192, 0x50008)])) (fnAgent 1) .atomic 0x50008 8 8 with
    | .error (.fault _) => true
    | _ => false) = true → _ from fun h => ?_) (by decide +kernel)
  split at h
  · exact ⟨_, by assumption⟩
  · cases h

/-- A WAIT whose condition holds, one whose condition fails, and one that waits already. -/
theorem witness_WaitPacketResults : (∀ v ∈ [0, 1], let p := packet [(0, 3), (192, 0x20008), (256, v)]
      ∃ s q, Heads s q p ∧ q.fn ≠ 0 ∧ q.waiting = none ∧ ∃ u, s.devPieces (fnAgent q.fn) .load 0x20008 8 8 = .ok u ∧ u.2 = [(0x200008, 8)] ∧
        compares (pfield p 322 320) (u.1.peekN 0x200008 8) (pfield p 319 256) = decide (v = 0)) ∧
    let q : Qcb := { ring 1 (packet [(0, 3), (192, 0x20008), (256, 1)]) with waiting := some (some 5) }
    (withQ q).qcb 1 1 = some q ∧ (withQ q).headPacket q = .ok (some (packet [(0, 3), (192, 0x20008), (256, 1)])) := by
  refine ⟨fun v hv => ?_, by decide +kernel⟩
  simp only [List.mem_cons, List.not_mem_nil, or_false] at hv
  rcases hv with rfl | rfl <;> exact ⟨_, _, heads demo 1 (by decide +kernel), by decide, rfl, ok_and (by decide +kernel)⟩

theorem witness_CopyPacketResults : ∀ n ∈ [0, 100], let p := packet [(0, 4), (192, 0x20000), (256, 0x20200), (320, n)]
    ∃ s q, Heads s q p ∧ pfield p 7 0 = 4 ∧ pfield p 351 320 = n := by
  intro n hn
  simp only [List.mem_cons, List.not_mem_nil, or_false] at hn
  rcases hn with rfl | rfl <;> exact head_and demo _ (by decide +kernel)

/-- A kernel with a launch under way, one without, and no kernel. -/
theorem witness_DestroyResults : (let p := packet [(0, 7)]
      ∃ s q, Heads s q p ∧ q.fn ≠ 0 ∧ ∃ l ∈ s.launches, l.fn = q.fn ∧ l.kid = 0 ∧ l.killed = false) ∧
    (let p := packet [(0, 7)]
      ∃ s q, Heads s q p ∧ q.fn ≠ 0 ∧ (∀ l ∈ s.launches, l.fn = q.fn → l.kid = 0 → l.killed = true) ∧ SoundMemory s ∧
        ∃ k, s.kernelOf q.fn 0 = some k ∧ k.pages = [placeVa] ∧ (s.frameOf placeVa).isSome = true) ∧
    let p := packet [(0, 7), (192, 9)]
    (∃ s q, Heads s q p ∧ q.fn ≠ 0 ∧ s.kernelOf q.fn 9 = none) ∧ ∃ s q, Heads s q p ∧ q.fn = 0 := by
  refine ⟨head_and demo _ (by decide +kernel), ?_, head_and demo _ (by decide +kernel), _, _, heads demo 0 (by decide +kernel), rfl⟩
  exact ⟨_, _, heads { ready with launches := [], flights := [], slots := [] } 1 (by decide +kernel), by decide, by decide +kernel,
    handed_sound 1 _ (sound_of_mem ready_sound rfl), placeKernel, by decide +kernel, rfl, by decide +kernel⟩

def regqP (more : List (Nat × Nat)) : List Byte := packet ([(0, 8), (192, 1), (208, 3), (224, 0x20000), (288, 6), (294, 2)] ++ more)

theorem witness_RegisterResults : (∃ s q, Heads s q (regqP []) ∧ SoundMemory s ∧
      s.regStatus q.fn 3 0x20000 6 2 0 0 false false = 0) ∧
    ∃ s q, Heads s q (packet [(0, 8), (192, 1), (208, 3), (288, 5)]) ∧ SoundMemory s ∧ s.regStatus q.fn 3 0 5 0 0 0 false false ≠ 0 :=
  ⟨⟨_, _, heads regioned 1 (by decide +kernel), handed_sound 1 _ (sound_of_mem ready_sound rfl), by decide +kernel⟩,
   ⟨_, _, heads regioned 1 (by decide +kernel), handed_sound 1 _ (sound_of_mem ready_sound rfl), by decide +kernel⟩⟩

/-- UNREGQ, RESETQ and REKEY of a queue that is and of one that is not; the queue that carries them is authenticated. -/
theorem witness_QueueChanges : (∀ c ∈ [(2, 1), (2, 5), (3, 1), (3, 5), (4, 1), (4, 5)],
    let p := packet [(0, 8), (192, c.1), (208, c.2)]
    ∃ s q, Heads s q p ∧ pfield p 7 0 = 8 ∧ pfield p 199 192 = c.1 ∧ (s.qcb q.fn (pfield p 220 208)).map Qcb.auth = if c.2 = 1 then some true else none) ∧
    (∃ s q, Heads s q (packet [(0, 8), (192, 3), (208, 1), (224, 128)]) ∧ 2 * q.size ≤ pfield (packet [(0, 8), (192, 3), (208, 1), (224, 128)]) 255 224) ∧
    let q : Qcb := { ring 1 [] with qid := 2, auth := false }
    ∃ s y, Heads s y (packet [(0, 8), (192, 4), (208, 2)]) ∧ s.qcb y.fn 2 = some q ∧ q.slot ≠ none ∧ SoundMemory s ∧ s.kicked 1 2 < 2 * q.size ∧
      (s.kicked 1 2 + 2 ^ 32 - 0) % 2 ^ 32 % (2 * q.size) ≤ q.size := by
  refine ⟨fun c hc => ?_, head_and demo _ (by decide +kernel), ?_⟩
  · simp only [List.mem_cons, List.not_mem_nil, or_false] at hc
    rcases hc with rfl | rfl | rfl | rfl | rfl | rfl <;> exact head_and demo _ (by decide +kernel)
  · refine ⟨{ demo with queue := { demo.queue with qcbs := [ring 1 (packet [(0, 8), (192, 4), (208, 2)]), { ring 1 [] with qid := 2, auth := false }] } },
      ring 1 (packet [(0, 8), (192, 4), (208, 2)]), ⟨by decide +kernel, by decide +kernel, by decide +kernel, by decide +kernel⟩, by unfold SoundMemory; decide +kernel⟩

/-! ### Cores, budgets, partitions, regions, moves and resets -/

def withCore (s : State) (f : Core → Core) : State := s.modCore 0 f

/-- A pending word on a core that no flight holds, with one, and a core whose pool is being zeroed. -/
theorem witness_PoolChanges : (let s := withCore { ready with flights := [] } fun k => { k with pend := some (10, 8) }
      0 < s.cores.length ∧ (s.core 0).pend = some (10, 8) ∧ (s.core 0).zeroing = none ∧ s.flights = []) ∧
    (∃ f ∈ ready.flights, f.state ≠ .saved ∧ f.tag < handlerTags ∧ 0 ∈ f.cores) ∧ (ready.core 0).pend = none ∧
    (let s := { withCore ready fun k => { k with zeroing := some 512 } with clock := 512 }
     s.cores.length = 96 ∧ (s.core 0).zeroing = some 512 ∧ 512 ≤ s.clock) := by decide +kernel

def parkedOn : State := { ready with
  flights := [parkedFlight], launches := [{ placeLaunch with cls := 2 }], clock := 64 * Config.clocksPerUs }

/-- A bank of no flight; one whose flight is parked; one whose flight is not; entering, leaving and retained banks. -/
theorem witness_RetentionResults : ((ready.core 0).banks[20]? = some .live ∧ ready.holders 0 20 = [] ∧ 20 ∉ (ready.core 0).woken) ∧
    ((parkedOn.core 0).banks[0]? = some .live ∧ parkedOn.holders 0 0 ≠ [] ∧ (parkedOn.core 0).prken = true ∧
      ∀ f ∈ parkedOn.holders 0 0, (∃ a ∈ f.parkedSince, a + 64 * Config.clocksPerUs ≤ parkedOn.clock) ∧
        ∃ la ∈ parkedOn.launchOf f.tag, la.cls ≠ 0) ∧
    (∃ f ∈ ready.holders 0 0, f.parkedSince = none) ∧
    (∀ b ∈ [Bank.entering true 0 false, .leaving true 0, .retained true], let s := withCore ready fun k => { k with banks := k.banks.set 0 b }
      0 < s.cores.length ∧ (s.core 0).banks[0]? = some b ∧ s.bankWanted 0 0 = true) := by decide +kernel

def spend (x : Partition) : State := { ready with flights := [{ flight0 with lmax := 4096 }], oper := { ready.oper with parts := ready.oper.parts.set 0 x }, clock := 2 * Config.clocksPerUs }

theorem witness_BudgetResults : (let s := spend { cur := { period := 2, refill := 5, cap := 9 }, bal := -3 }
      s.oper.parts.length = 16 ∧ (s.part 0).cur.period ≠ 0 ∧ (s.part 0).bal ≤ 0 ∧
      ((s.part 0).charged + 1) * ((s.part 0).cur.period * Config.clocksPerUs) ≤ s.clock ∧ (s.flights.map Flight.id).Nodup ∧
      ∃ f ∈ s.flights, f.part = 0 ∧ f.state = .resident ∧ f.lmax ≠ 0) ∧ (ready.part 0).cur.period = 0 := by decide +kernel

/-- A shadow record that fits: no flight reserves anything in the save pool. -/
def unreserved : State := { spend { cur := { pairs := 1, fns := 2 }, shadow := { pairs := 2, fns := 2 } } with
  flights := [flight0, { placeFlight 1 with part := 3, lmax := 4096 }] }

/-- A shadow record that is taken, with the pair of a flight leaving; one that is not; one under way, with and without a flight that must leave. -/
theorem witness_PartitionResults : (let s := spend { cur := { pairs := 1, fns := 2 }, shadow := { pairs := 2, fns := 2 } }
      s.oper.parts.length = 16 ∧ s.cores.length = 96 ∧ (s.part 0).busy = false ∧ s.partStat 0 ≠ 0) ∧
    (unreserved.partStat 0 = 0 ∧ (unreserved.part 0).busy = false ∧
      ∀ f ∈ List.range 15, (unreserved.part 0).cur.fns.testBit f = true → (unreserved.part 0).shadow.fns.testBit f = true) ∧
    (let s := spend { busy := true, leaving := 1 }
     s.cores.length = 96 ∧ (s.part 0).busy = true ∧ ∃ f ∈ s.flights, f.part = 0 ∧ f.state ≠ .saved ∧ (s.part 0).leaving.testBit (f.core / 2) = true) ∧
    (let s := spend { busy := true, leaving := 2 }
     s.cores.length = 96 ∧ (s.part 0).busy = true ∧ ∀ f ∈ s.flights, f.part = 0 → f.state ≠ .saved → (s.part 0).leaving.testBit (f.core / 2) = false) := by
  decide +kernel

/-- A flight on a pair that leaves its partition, in a save pool that stays. -/
theorem witness_PartitionResults_leaves : let s := { spend { cur := { pairs := 1, fns := 2 }, shadow := { pairs := 2, fns := 2, savesz := 4096, saveb := 0x20000 } } with
      oper := { ready.oper with
        parts := ready.oper.parts.set 0 { cur := { pairs := 1, fns := 2 }, shadow := { pairs := 2, fns := 2, savesz := 4096, saveb := 0x20000 } }
        regions := ready.oper.regions.set 0 { vbase := 0x20000, pages := 1, spool := true, live := true } } }
    s.partStat 0 = 0 ∧ ∃ f ∈ s.flights, f.part = 0 ∧ f.state = .resident ∧ f.lmax ≠ 0 ∧ (s.part 0).cur.pairs.testBit (f.core / 2) = true ∧
      (s.part 0).shadow.pairs.testBit (f.core / 2) = false := by decide +kernel

def guarded : State := { ready with
  oper := { ready.oper with prot := 2 }
  sec := { ready.sec with tdis := ready.sec.tdis.set 1 .run } }

theorem witness_ProtectionWrites : (let s := guarded
      s.tdi 1 = .run ∧ s.oper.prot.testBit 1 = true ∧ (0 : W64).getLsbD 1 = false ∧ 1 < s.sec.tdis.length) ∧
    (∀ f ∈ List.range 15, ready.oper.prot.testBit f = true → (6 : W64).getLsbD f = true) ∧
    ready.oper.waym.length = 16 ∧ (∀ m ∈ [0x00FF, 0xFFFF], let w (k : Nat) : Nat := if k = 2 then m else ready.oper.waym.getD k 0
      w 15 = 0 ∧ ((∀ i ∈ List.range 14, ∀ j ∈ List.range 14, i < j → w (i + 1) &&& w (j + 1) = 0) ↔ m = 0x00FF)) := by decide +kernel

/-- Region 0 is live; region 1 may be granted; the others are not what a region may be, or overlap it. -/
def granting (r : Region) : State := { ready with
  oper := { ready.oper with regions := (ready.oper.regions.set 0 { region1 with vbase := 0x60000 }).set 1 r } }

theorem witness_GrantResults : (granting region1).oper.regions.length = 512 ∧ SoundMemory (granting region1) ∧
    ((granting region1).region 0).live = true ∧
    ((granting { region1 with live := false, pages := 0 }).region 1).bad = true ∧
    (let s := granting { region1 with live := false, vbase := 0x60000 }
     s.oper.regions.length = 512 ∧ (s.region 1).bad = false ∧ (s.grantOf 1).1 = 3) ∧ ((granting { region1 with live := false, vbase := 0x70000 }).grantOf 1).1 = 0 :=
  ⟨by decide +kernel, sound_of_mem ready_sound rfl, by decide +kernel, by decide +kernel, by decide +kernel, by decide +kernel⟩

theorem witness_ScrubResults : SoundMemory ready ∧ (32 + 1) * 65536 ≤ Config.fatBase := ⟨ready_sound, by decide⟩

theorem witness_PageMapped : SoundMemory State.reset ∧ State.reset.peekN (Config.ttRoot + 8 * bits 0x20000 39 13) 8 = 0 ∧ State.reset.mem = [] ∧
    (Config.ttPool + State.reset.ttNext) % 4096 = 0 ∧ Config.ttPool + State.reset.ttNext + 8192 < 2 ^ 64 ∧
    Config.ttRoot + 65536 ≤ Config.ttPool + State.reset.ttNext := by unfold SoundMemory; decide +kernel

theorem witness_RevokeResults : (let s := granting region1
      s.oper.regions.length = 512 ∧ (s.region 2).live = false ∧ (s.region 0).live = true ∧ s.regionBusy (s.region 0) = false) ∧
    (let s := { granting region1 with launches := [{ placeLaunch with regions := [⟨0x60000, 128, 3⟩] }] }
     s.oper.regions.length = 512 ∧ (s.region 0).live = true ∧ s.regionBusy (s.region 0) = true ∧ ∃ l ∈ s.launches, l.killed = false ∧ bits (s.region 0).fns l.fn 1 = 1 ∧
       ∃ x ∈ l.regions, x.base < (s.region 0).vbase + 65536 * (s.region 0).pages ∧ (s.region 0).vbase < x.base + x.size) := by decide +kernel

/-- The page of a live region that nothing uses. -/
theorem witness_RevokeResults_page : let s := { ready with kernels := [], oper := { ready.oper with regions := ready.oper.regions.set 0 region1 } }
    SoundMemory s ∧ (s.region 0).live = true ∧ s.regionBusy (s.region 0) = false ∧ (s.region 0).pages = 1 ∧
    ∃ l, s.walk 0x20000 = .leaf l ∧ (s.scrubFrame (s.frameAddr l 0x20000 / 65536) 1 0).walk 0x20000 = .leaf l := by
  refine ⟨sound_of_mem ready_sound rfl, by decide +kernel, by decide +kernel, rfl, ?_⟩
  refine (show (match ({ ready with kernels := [], oper := { ready.oper with regions := ready.oper.regions.set 0 region1 } } : State).walk 0x20000 with
    | .leaf l => decide ((({ ready with kernels := [], oper := { ready.oper with regions := ready.oper.regions.set 0 region1 } } : State).scrubFrame
        (({ ready with kernels := [], oper := { ready.oper with regions := ready.oper.regions.set 0 region1 } } : State).frameAddr l 0x20000 / 65536) 1 0).walk 0x20000 = .leaf l)
    | _ => false) = true → _ from fun h => ?_) (by decide +kernel)
  split at h
  · exact ⟨_, by assumption, of_decide_eq_true h⟩
  · cases h

theorem witness_MoveStarts : SoundMemory ready ∧ ready.freeForward 4096 = some Config.fwdBase ∧
    ∃ l, ready.walk 0x20000 = .leaf l ∧ l.move = false ∧ l.big = false ∧ (l.addr + 8 ≤ Config.fwdBase ∨ Config.fwdBase + 524288 ≤ l.addr) := by
  refine ⟨ready_sound, by decide +kernel, ?_⟩
  refine (show (match ready.walk 0x20000 with
    | .leaf l => decide (l.move = false ∧ l.big = false ∧ (l.addr + 8 ≤ Config.fwdBase ∨ Config.fwdBase + 524288 ≤ l.addr))
    | _ => false) = true → _ from fun h => ?_) (by decide +kernel)
  split at h
  · exact ⟨_, by assumption, of_decide_eq_true h⟩
  · cases h

/-- Page 2 has begun to move to frame 40. -/
def moving : State := match execPageSectorMove 0x20000 40 ready with
  | .next t => t
  | _ => ready

theorem moving_sound : SoundStore moving := by unfold SoundStore SoundMemory; decide +kernel

/-- OLD and NEW of the move, and what the rest of the machine says of a sector of OLD. -/
theorem moving_entry : bits (moving.peekN Config.fwdBase 8) 0 26 = 32 ∧ bits (moving.peekN Config.fwdBase 8) 32 26 = 40 := by decide +kernel

theorem moving_caches : ∀ c ∈ moving.cores, ∀ x ∈ c.cache, x.sector = 32 * 512 → x.dirty = false := by decide +kernel

theorem moving_rest : moving.cores.length = 96 ∧ (moving.presentIn 4096).length = 4 ∧ 0 < moving.tier.dies.length ∧
    (moving.peekN (Config.fwdBase + 64) 64).testBit 0 = false ∧ (40 * 512 + 1) * 128 ≤ Config.fwdBase := by decide +kernel

theorem witness_SectorMoves : SoundStore moving ∧ bits (moving.peekN Config.fwdBase 8) 0 26 = 32 ∧
    (∀ c ∈ moving.cores, ∀ x ∈ c.cache, x.sector = 32 * 512 → x.dirty = false) ∧ (moving.presentIn 4096).length = 4 :=
  ⟨moving_sound, moving_entry.1, moving_caches, moving_rest.2.1⟩

/-- A page in move whose forwarding entry is the table's last. -/
def forwarded : State := (page ready 2 32 (512 + 1024 + 2048) 1).pokeN (Config.fwdBase + 128 * 4095) 8 (32 + 40 * 2 ^ 32 + 2 ^ 63)

theorem witness_SectorMoves_leaf : ∃ l, forwarded.walk 0x20000 = .leaf l ∧ l.move = true ∧ l.big = false ∧
    forwarded.fwdEntry l.frame 4096 = some (Config.fwdBase + 128 * 4095) := by
  refine (show (match forwarded.walk 0x20000 with
    | .leaf l => decide (l.move = true ∧ l.big = false ∧ forwarded.fwdEntry l.frame 4096 = some (Config.fwdBase + 128 * 4095))
    | _ => false) = true → _ from fun h => ?_) (by decide +kernel)
  split at h
  · exact ⟨_, by assumption, of_decide_eq_true h⟩
  · cases h

/-- Host DMA of a function to its page, to one in move, to one that is none; and of a function in ERROR. -/
theorem witness_HostAccess : (∃ u, ready.devPieces ⟨1, 1, 0xFE, 0, 0⟩ .store 0x20010 8 1 = .ok u ∧ u.2 = [(0x200010, 8)] ∧ decide (u.1.mem = ready.mem) = true ∧
      fills u.1 1 = true) ∧
    (match moving.devPieces ⟨2, 2, 0xFE, 0, 0⟩ .store 0x20010 8 1 with
      | .error (.park _ _ _) => true
      | _ => false) = true ∧
    (match ready.devPieces ⟨1, 1, 0xFE, 0, 0⟩ .load 0x50010 8 1 with
      | .error (.fault _) => true
      | _ => false) = true ∧ ready.tdi 1 ≠ .error ∧
    ({ ready with sec := { ready.sec with tdis := ready.sec.tdis.set 1 .error } } : State).tdi 1 = .error :=
  ⟨ok_and (by decide +kernel), by decide +kernel, by decide +kernel, by decide +kernel, by decide +kernel⟩

theorem witness_FunctionResets : 1 < ready.queue.fns.length ∧ 1 < ready.sec.tdis.length ∧ 0 < ready.queue.fns.length := by decide +kernel

/-! ### The patrol, keys, interfaces and registers -/

def late (x : Fleet) : State := { ready with clock := 10 ^ 9, fleet := x }
def testing (u : Nat) : Fleet := { Fleet.reset with patTest := some (u, 5) }

/-- A step is due, one is not; the unit may be class 0's, be the last, or neither. -/
theorem witness_PatrolSteps : (late Fleet.reset).fleet.patTest = none ∧ (late Fleet.reset).fleet.patSwap = none ∧ (late Fleet.reset).fleet.patWait = false ∧
    (late Fleet.reset).fleet.patLast + 5000 * Config.clocksPerUs ≤ (late Fleet.reset).clock ∧
    (let s := { late Fleet.reset with launches := [{ placeLaunch with cls := 0 }] }
     s.nextUnit 868 s.fleet.patNext = 0 ∧ s.putOff 0 = true) ∧ (late Fleet.reset).putOff 5 = false ∧ (late Fleet.reset).putOff 867 = false ∧
    (late { Fleet.reset with patNext := 867 }).nextUnit 868 867 = 867 ∧ (late Fleet.reset).nextUnit 868 ((867 + 1) % 868) = 0 ∧ (late Fleet.reset).nextUnit 868 ((5 + 1) % 868) = 6 ∧ (late { Fleet.reset with patNext := 5 }).nextUnit 868 5 = 5 ∧
    ((late Fleet.reset).patUnit 3).out = false ∧ ready.clock < ready.fleet.patLast + 5000 * Config.clocksPerUs := by decide +kernel

theorem witness_PatrolRetries : let s := late { Fleet.reset with patWait := true, patLast := 10 ^ 9 - 50 * Config.clocksPerUs }
    s.fleet.patWait = true ∧ s.fleet.patLast + 50 * Config.clocksPerUs ≤ s.clock ∧ s.nextUnit 868 ((s.fleet.patNext + 1) % 868) = 1 ∧ s.fleet.patNext < 1 ∧
      s.fleet.patDefer + (s.clock - s.fleet.patLast) < 400000 * Config.clocksPerUs ∧
      ({ s with launches := [{ placeLaunch with cls := 0 }] } : State).putOff 0 = true ∧
      ({ s with launches := [{ placeLaunch with cls := 1 }] } : State).putOff 0 = false := by decide +kernel

theorem witness_PatrolPasses : let s := late (testing 3)
    s.fleet.patTest = some (3, 5) ∧ s.fleet.patSwap = none ∧ ready.fleet.patSwap = none ∧ 5 + Config.clocksPerUs * 40 ≤ s.clock ∧ 3 < s.fleet.patUnits.length ∧ ready.fleet.patTest = none ∧
      ({ s with clock := 6 } : State).clock < 5 + Config.clocksPerUs * 40 := by decide +kernel

/-- A column group that swaps a column; cores with and without a spare core; a unit of the Arbiter. -/
theorem witness_PatrolFails : (∀ u ∈ [3, 200, 865], let s := late (testing u)
      s.fleet.patSwap = none ∧ s.fleet.patTest = some (u, 5) ∧ (s.onCore (if u < 96 then u else (u - 96) / 8) = [] ∨
        s.losesCore u [0] = false) ∧ 5 + Config.clocksPerUs * 40 ≤ s.clock ∧ s.fleet.patUnits.length = 868 ∧ s.fleet.spcore.length = 96 ∧
      s.fleet.patLog.length = 16 ∧ s.cores.length = 96 ∧ (∀ k ∈ s.kernels, k.unit ≠ u - 864 ∨ u < 864) ∧ (s.patUnit u).owners = 0) ∧
    Fleet.reset.spares.cspr.testBit 0 = false ∧
    (((Fleet.reset.patUnits.drop (96 + 8 * 13)).take 8).map PatUnit.swapped).sum + 1 ≤ 2 ∧
    (let s := late { testing 3 with spares := { cspr := 3 } }
     s.fleet.patTest = some (3, 5) ∧ s.fleet.spares.cspr.testBit 0 = true ∧ s.fleet.spares.cspr.testBit 1 = true) := by decide +kernel

/-- Core 0, which holds a flight, fails; and the same core once the flight has left it. -/
theorem witness_PatrolSwaps : (let s := { late (testing 0) with flights := [{ flight0 with lmax := 4096 }] }
      s.fleet.patSwap = none ∧ s.fleet.patTest = some (0, 5) ∧ s.losesCore 0 [0] = true ∧ s.onCore (unitCore 0) = [0] ∧
      5 + Config.clocksPerUs * 40 ≤ s.clock ∧ (s.flights.map Flight.id).Nodup ∧ flight0.state = .resident) ∧
    (let s := { late { Fleet.reset with patSwap := some (0, [0]) } with flights := [{ flight0 with lmax := 4096 }] }
     s.onCore (unitCore 0) ≠ []) ∧
    let s := { late { Fleet.reset with patSwap := some (0, [0]) } with flights := [] }
    s.fleet.patSwap = some (0, [0]) ∧ s.onCore (unitCore 0) = [] ∧ s.fleet.patTest = none ∧ 40 * Config.clocksPerUs ≤ s.clock := by decide +kernel

theorem witness_FeatureResults : (let x := { Fleet.reset with faccept := 0x100 }
      x.faccept &&& x.foffer ≠ x.faccept) ∧
    (let x := { Fleet.reset with faccept := 7 }
     x.faccept &&& x.foffer = x.faccept ∧ x.admitted = false ∧ x.flocked = false) ∧ { Fleet.reset with flocked := true }.flocked = true := by decide

theorem witness_PowerResults : Fleet.reset.c0exc + 2 ≤ 0xFFFF ∧ Fleet.reset.plim < 4096 ∧ (∃ l ∈ demo.launches, l.tag < handlerTags) ∧
    ∀ l ∈ State.reset.launches, handlerTags ≤ l.tag := by decide +kernel

def bound (fn : Nat) : State := { ready with sec := { ready.sec with sessions := [⟨0, fn, 9⟩] } }

theorem witness_SidebandResults : (∀ k ∈ (bound 1).sec.sessions, k.fn ≠ 0) ∧ (∃ k ∈ (bound 0).sec.sessions, k.fn = 0) ∧
    Fleet.reset.spcore.length = 96 ∧ Fleet.reset.patLog.length = 16 ∧ Fleet.reset.patLog[3]? = some ⟨0, 0, 0, 0, 0, 0⟩ ∧
    (∃ l ∈ (bound 0).launches, 0 ∈ l.parts ∧ l.killed = false) ∧ 5 < (bound 0).thx.links.length ∧
    ({ bound 0 with thx := { Thx.reset with links := Thx.reset.links.set 5 { state := 0 } } } : State).link 5 = { state := 0 } := by decide +kernel

/-- The window is open in service and where a token opened its scope, and shut in production. -/
def isOpen (s : State) (hzd : Bool) : Bool :=
  decide (s.sec.life = 1 ∨ s.sec.life = 3) || (decide (s.sec.dbgState = 2) && s.sec.dbgScope.testBit (if hzd then 1 else 2))

theorem witness_DebugWindow : isOpen ready true = false ∧ isOpen { ready with sec := { ready.sec with life := 3 } } false = true ∧
      isOpen { ready with sec := { ready.sec with dbgState := 2, dbgScope := 2 } } true = true ∧ 256 * 5 % 256 = 0 ∧ 256 * 5 / 256 < ready.cores.length := by
  decide +kernel

/-- The checks of a token, but for the signature and the device's name, which the model leaves free. -/
theorem witness_DebugUnlock : (let s := { ready with fleet := { ready.fleet with features := 64 }, sec := { ready.sec with nonce := some (leBytes 32 7) } }
                                 let t := leBytes 1024 (0x4B544244 + 2 * 2 ^ 288 + 2 * 2 ^ 296 + 7 * 2 ^ 320)
      s.fleet.features.testBit 6 = true ∧ s.sec.nonce = some ((t.drop 40).take 32) ∧ t.length = 1024 ∧ leNat (t.take 4) = 0x4B544244 ∧
        leNat ((t.drop 36).take 1) = s.sec.life ∧ leNat ((t.drop 38).take 2) = 0 ∧ leNat ((t.drop 72).take 440) = 0 ∧
        leNat ((t.drop 37).take 1) < 8 ∧ s.sec.life = 2 ∧ s.sec.unlk < 64) ∧ ready.fleet.features.testBit 6 = false ∧
    (∀ l ∈ ready.launches, l.fn ≠ 0 → l.owner = l.fn) ∧ ({ ready with kernels := [] } : State).kernels = [] := by decide +kernel

theorem witness_WindowWrites : ready.iwinBusy (3 + 2 ^ 22) = false ∧ ready.iwinBusy 48 = true := by decide +kernel

theorem witness_SessionResults : (bound 1).sec.sessions.find? (fun y => decide (y.id = 0)) = some ⟨0, 1, 9⟩ ∧ (∀ x ∈ (bound 1).sec.sessions, x.id ≠ 1) ∧
    (∀ j ∈ List.range 1, ∃ x ∈ (bound 1).sec.sessions, x.id = j) ∧
    let s := { ready with sec := { ready.sec with sessions := (List.range 16).map fun i => ⟨i, 1, i⟩ } }
    ∀ i ∈ List.range 16, ∃ x ∈ s.sec.sessions, x.id = i := by decide +kernel

/-- Function 1 with its own session and an empty slot, with a loaded one, and in another state of the lifecycle. -/
theorem witness_KeyResults : (bound 1).sec.life = 2 ∧ (bound 1).sec.dbgState ≠ 1 ∧ (bound 1).sec.keys.getD 1 .empty = .empty ∧
    1 < (bound 1).sec.keys.length ∧ 1 < (bound 1).queue.fns.length ∧
    (({ bound 1 with sec := { (bound 1).sec with keys := (bound 1).sec.keys.set 1 ⟨[1], true, 4, none⟩ } } : State).sec.keys.getD 1 .empty).loaded = true ∧
    ({ bound 1 with sec := { (bound 1).sec with life := 3 } } : State).sec.life ≠ 2 ∧ (bound 2).sec.sessions.find? (fun y => decide (y.id = 0)) = some ⟨0, 2, 9⟩ := by
  decide +kernel

def interface (x : Tdi) : State := { bound 1 with sec := { (bound 1).sec with tdis := ready.sec.tdis.set 1 x } }

theorem witness_InterfaceResults : (∀ x ∈ [Tdi.unlocked, .locked, .run], (interface x).tdi 1 = x) ∧ 1 < (interface .run).sec.tdis.length ∧
    (interface .run).sec.sessions.find? (fun y => decide (y.id = 0)) = some ⟨0, 1, 9⟩ ∧ ∀ x ∈ (interface .run).sec.sessions, x.id ≠ 4 := by decide +kernel

theorem witness_LifecycleResults : ready.sec.life < 3 ∧ 1 ≤ ready.sec.life ∧ ready.sec.keys[1]? = some .empty := by decide +kernel

theorem witness_WriteResults : ready.mapAt 1 0x9000 = none ∧ 1 < ready.queue.fns.length ∧ 5 < ready.thx.links.length ∧
    (600 ≤ bits 700 0 12 ∧ bits 700 0 12 ≤ 2200) := by decide +kernel

theorem witness_WriteResults_width : (ready.fnBlock 1).inWidth := by unfold FnBlock.inWidth; decide +kernel

/-! ### The Gondola, tethers and peers -/

def gLine : Nat := 5000
def stored (attr : Nat) (mac : W64) : OffLine := ⟨gLine, attr, 1, 7, mac⟩
def farAway (l : OffLine) (more : Group → Group := id) : State := { ready with tier := { ready.tier with
  offpkg := [l], groups := [more ⟨gLine / 8, 0, List.replicate 8 0, List.replicate 8 false, false⟩] } }

theorem witness_LinesReturn : ready.lineAttr 4097 ≠ 3 ∧ SoundMemory ready ∧ ready.presentIn gLine = [] ∧
    (∃ p, (farAway (stored 0 0)).readLine gLine = .ok p) ∧ 0 < ready.tier.dies.length ∧
    (ready.counter (ready.groupOf 4097)).bad = false ∧ (ready.counter (ready.groupOf 4097)).minors.length = 8 ∧
    (ready.counter (ready.groupOf 4097)).poison.length = 8 ∧ (ready.counter (ready.groupOf 4097)).poison.getD (4097 % 8) false = false :=
  ⟨by decide +kernel, ready_sound, by decide +kernel, ⟨7, by rfl⟩, by decide +kernel, by decide +kernel, by decide +kernel, by decide +kernel, by decide +kernel⟩

/-- A line that the bonded tier alone holds, clean and dirty; one that nothing holds. -/
theorem witness_WriteBackResults : ∀ d ∈ [0, 5], let s := { ready with tier := { ready.tier with lines := [⟨gLine, 15, d, 8⟩] } }
    gLine * 512 < Config.reserve ∧ (∀ c ∈ s.cores, ∀ x ∈ c.cache, x.sector / 4 ≠ gLine) ∧ (∀ k ∈ s.tier.dies, ∀ x ∈ k, x.line ≠ gLine) ∧
      s.tier.lines.filter (fun x => decide (x.line = gLine)) = [⟨gLine, 15, d, 8⟩] ∧ s.lineAttr gLine ≠ 3 ∧ s.inTier 6000 = false ∧
      (s.counter (s.groupOf gLine)).minors.length = 8 := by decide +kernel

/-- A line of attribute 0; lines of attribute 2 that are poisoned, whose counters are bad, and whose MAC does not verify. -/
theorem witness_FillChecks : (farAway (stored 0 0)).away gLine = some (stored 0 0) ∧ ((farAway (stored 0 0)).presentIn gLine).length ≠ 4 ∧
    ((farAway (stored 2 0) fun g => { g with poison := List.replicate 8 true }).counter (gLine / 8)).poison.getD 0 false = true ∧
    ((farAway (stored 2 0) fun g => { g with bad := true }).counter (gLine / 8)).bad = true ∧ ready.groupOf gLine = gLine / 8 := by decide +kernel

theorem lineMac_of_sec {s t : State} (h : s.sec = t.sec) (o line major minor : Nat) (ct : BitVec 4096) :
    s.lineMac o line major minor ct = t.lineMac o line major minor ct := by
  unfold State.lineMac State.ownerKey State.epoch
  rw [h]

theorem farAway_sec (l : OffLine) : (farAway l).sec = ready.sec := rfl

theorem witness_FillChecks_mac : ∃ l : OffLine, l.line = gLine ∧ l.attr = 2 ∧ (farAway l).macOk l 0 0 = false := by
  refine ⟨⟨gLine, 2, 1, 7, ready.lineMac 1 gLine 0 0 7 + 1⟩, rfl, rfl, ?_⟩
  unfold State.macOk
  refine decide_eq_false ?_
  rw [lineMac_of_sec (farAway_sec _)]
  simp

/-- A read of a line that was answered, and the entry that waits for it. -/
def read1 : TReq := ⟨3, 8, 1, 1, 1, gLine, 4 * gLine, 1, 0, 0, some 5, some 453, 1, 0, [], none⟩
def filling (l : OffLine) (e : Entry := entry0) : State := { farAway l with slots := [⟨0, 0, 0, 0, [e]⟩], thx := { ready.thx with reqs := [read1] } }

theorem witness_FillResults : ((filling (stored 0 0)).thx.reqs.find? fun r => decide (r.line = gLine ∧ r.kind = 1) && r.answered.isSome) = some read1 ∧
    read1.pref = [] ∧ (∀ c ∈ List.range 96, ((filling (stored 0 0)).core c).flying = []) ∧
    (∃ p, (filling (stored 0 0)).pullLine 1 0 gLine = .ok p ∧ p.tier.dies.length = 4) ∧
    (∀ x ∈ (filling (stored 2 0)).slots, ∀ e ∈ x.entries, e.status ≠ .held (.fill gLine)) ∧
    ∃ c, (filling (stored 0 0) { entry0 with status := .held (.fill gLine) }).ctxAt ⟨0, 0, 0⟩ = some c ∧ c.e.status = .held (.fill gLine) :=
  ⟨by decide +kernel, by decide +kernel, by decide +kernel, ok_and (by decide +kernel), by decide +kernel, some_and (by decide +kernel)⟩

/-- A fill that fails: the line's counter entry is beyond correction. -/
theorem witness_FillResults_fails : 
    ({ filling (stored 2 0) with tier := (farAway (stored 2 0) fun g => { g with bad := true }).tier } : State).pullLine 1 0 gLine = .error 2 :=
  by decide +kernel

theorem witness_TableResults : ready.thx.tapBusy = false ∧ (ready.thx.mstShadow.filter fun e => decide (e.share = 0xFE)).length < 4 ∧
    (0 : Nat).testBit 0 = false ∧ 4 ≤ (({ ready.thx with mstShadow := List.replicate 256 ⟨0xFE, 0⟩ } : Thx).mstShadow.filter fun e => decide (e.share = 0xFE)).length ∧
    (let x : Thx := { ready.thx with tapBusy := true, tapDue := 3, slotCtr := 768 }
     x.tapBusy = true ∧ 256 * x.tapDue ≤ x.slotCtr) ∧
    ∀ c ∈ List.range 96, (∀ r ∈ (ready.core c).replay, r.kind ≤ 2 ∧ r.work = .again) ∧ ((ready.core c).replay.map Replay.index).Nodup := by
  decide +kernel

/-- A pair that is UP, with requests of its queues. -/
def asks (rs : List TReq) : State := { ready with thx := { ready.thx with reqs := rs, slotCtr := 460, links := ready.thx.links.map fun l => { l with state := 0, sent := 460 } } }
def ask1 : TReq := { read1 with share := 0xFE, cls := 1, sentSlot := none, answered := none, left := 1 }

theorem witness_SlotResults : let s := asks [ask1, { ask1 with id := 4, cls := 2 }]
    8 < s.thx.links.length ∧ (s.link 8).state = 0 ∧ (s.link 8).sent = s.thx.slotCtr ∧ (s.thx.mst.getD (s.thx.slotCtr % 256) ⟨0xFF, 0⟩).share = 0xFE ∧
      (s.thx.mst.getD (s.thx.slotCtr % 256) ⟨0xFF, 0⟩).cls ≤ 1 ∧ s.thx.reqs = [] ++ ask1 :: [{ ask1 with id := 4, cls := 2 }] ∧
      (∀ r ∈ [{ ask1 with id := 4, cls := 2 }], r.id ≠ ask1.id) ∧ (ready.link 8).state ≠ 0 ∧
      (∀ r ∈ (asks [{ ask1 with share := 5 }]).thx.reqs, r.share ≠ 0xFE) := by decide +kernel

theorem witness_ResponseResults : let q := { ask1 with sentSlot := some 5 }
    let s := asks [q]
    (s.link 8).state = 0 ∧ s.thx.reqs = [] ++ q :: [] ∧ q.pair = 8 ∧ q.answered = none ∧ 5 + 448 ≤ s.thx.slotCtr ∧ q.kind = 1 ∧
      ({ q with kind := 2 } : TReq).kind ≠ 1 ∧ ∀ c ∈ List.range 96, (s.core c).flying = [] := by decide +kernel

def linked (l : Link_) : State := { ready with clock := 10 ^ 6, thx := { ready.thx with links := ready.thx.links.set 8 l } }

theorem witness_RetrainStarts : (∀ k ∈ [0, 1, 2], ((linked { state := k }).link 8).state = k) ∧ 8 < ready.thx.links.length ∧
    (let s := { linked { state := 0 } with slots := [⟨0, 0, 0, 0, [{ entry0 with status := .held (.fill 4936) }]⟩] }
     (∃ c, s.ctxAt ⟨0, 0, 0⟩ = some c ∧ c.e.status = .held (.fill 4936)) ∧ 4936 % 64 = 8 ∧ (s.core 0).replay = [] ∧ (s.waitingOn 8).length ≤ 512 ∧
       ∀ k ∈ List.range 96, (s.core k).flying = []) := by
  refine ⟨by decide +kernel, by decide +kernel, some_and (by decide +kernel), by decide +kernel⟩

theorem witness_RetrainEnds : ((linked { state := 1, since := some 5 }).link 8).state = 1 ∧ ((linked { state := 1, since := some 5 }).link 8).since = some 5 ∧
    ((linked { state := 0 }).link 8).state ≠ 1 ∧ 8 < (linked {}).thx.links.length ∧
    ∀ c ∈ List.range 96, ((linked { state := 1, since := some 5 }).core c).replay = [] := by decide +kernel

def stalledR : Replay := ⟨0, 1, 0, 1, 0, 0, 0, 0x20000, 4, 0, 0, 0, 0, some 8, 0, 0, 0, 0, 0, 0, .again⟩

theorem witness_TetherEvents : (let y := (linked { state := 1, since := some 5 }).link 8
      y.state = 1 ∧ y.since = some 5 ∧ y.stalled = false ∧ 5 + 40 * Config.clocksPerUs < (linked {}).clock) ∧
    (let s := (linked { state := 1, since := some 5 }).modCore 0 fun k => { k with replay := [stalledR] }
     (∃ x, (s.entryWith stalledR.flight stalledR.item).bind s.ctxAt = some x ∧ x.la.fn < s.queue.fns.length ∧ x.ref.core = 0) ∧
       (s.core 0).replay = stalledR :: [] ∧ ∀ c ∈ List.range 96, c ≠ 0 → (s.core c).replay = []) ∧
    ((linked { state := 1 }).link 8).since = none ∧ ((linked { state := 0 }).link 8).state ≠ 1 := by
  refine ⟨by decide +kernel, ⟨some_and (by decide +kernel), by decide +kernel⟩, by decide +kernel⟩

theorem witness_ChannelStandsIn : (5 : Nat) < 768 ∧ ready.fleet.spares.gch < 48 ∧ 48 ≤ ({ gch := 48 } : Spares).gch := by decide

/-- A port whose session stands, and an export of function 1 over its page; one over a page in move, and one over no page. -/
def exporting (base : W64) (s : State := ready) : State := { s with thx := { s.thx with
  ports := s.thx.ports.set 2 ⟨0, true, 77⟩
  exports_ := s.thx.exports_.set 1 ((List.replicate 16 {}).set 3 { v := true, rights := 3, rfn := 4, peerId := 77, base := base, size := 64 }) } }

theorem witness_PeerResults : (let s := exporting 0x20000
      let e := (s.thx.exports_.getD 1 []).getD 3 {}
      (s.port 2).sess = true ∧ e.v = true ∧ e.rfn = 4 ∧ e.peerId = (s.port 2).peerId ∧ e.rights.testBit 0 = true ∧ e.rights.testBit 1 = true ∧
        8 + 8 ≤ e.size ∧ 2 < s.thx.ports.length) ∧
    (∃ u, (exporting 0x20000).devPieces ⟨1, 1, 0xFE, 0, 0⟩ .store (0x20000 + 8) 8 1 = .ok u ∧ u.2 = [(0x200008, 8)] ∧ fills u.1 1 = true ∧
      decide (u.1.mem = ready.mem) = true) ∧
    (match (exporting 0x50000).devPieces ⟨1, 1, 0xFE, 0, 0⟩ .load (0x50000 + 8) 8 1 with
      | .error (.fault _) => true
      | _ => false) = true ∧
    (match (exporting 0x20000 (page ready 2 32 (512 + 1024 + 2048) 2)).devPieces ⟨1, 1, 0xFE, 0, 0⟩ .load (0x20000 + 8) 8 1 with
      | .error (.park _ _ _) => true
      | _ => false) = true ∧ (ready.port 2).sess = false :=
  ⟨by decide +kernel, ok_and (by decide +kernel), by decide +kernel, by decide +kernel, by decide +kernel⟩

/-- An entry with one copy to the port. -/
def peerCopy : CopyOp := { plainCopy 0x20000 0 64 with dsp := .peer, port := 2 }
def peering : Entry := { entry0 with counts := [1, 0, 0, 0], seq := 1, ops := [⟨9, 0, 0, 0, false, 0, 0, .copy peerCopy⟩] }

theorem witness_PortGoesDown : let s := { exporting 0x20000 with slots := [⟨0, 0, 0, 0, [peering]⟩] }
    2 < s.thx.ports.length ∧ (s.slots.map fun x => (x.core, x.num)).Nodup ∧ (∀ x ∈ s.slots, (x.entries.map Entry.pos).Nodup) ∧
      s.entry ⟨0, 0, 0⟩ = some peering ∧ (∀ f ∈ s.flights, f.saved = []) ∧ peering.ops = [⟨9, 0, 0, 0, false, 0, 0, .copy peerCopy⟩] ∧
      peerCopy.dsp = .peer ∧ peerCopy.port = 2 ∧ peerCopy.cancelled = false ∧ peerCopy.broken = false ∧ peering.status = .ready := by
  decide +kernel

theorem witness_PortGoesDown_idle : (∀ x ∈ ready.slots, ∀ e ∈ x.entries, e.ops = []) ∧ ∀ f ∈ ready.flights, f.saved = [] := by decide +kernel

/-! ### Words of every family, written out from R138 to R142 and R148 -/

/-- FUSE, SPLIT, VOTE and REORD: MAJ 0x05, 0x06, 0x07. -/
theorem test_decode_control : decodeWords [0xBFA50451, 0x001EFF7F, 0x00000000] = .ok (.fuse fuseO) ∧
    decodeWords [0xBFA50051, 0x001EFF7F, 0x00000200] = .ok (.split splitO) ∧
    decodeWords [0x88A50061, 0x001EFF7F, 0x00000000] = .ok (.voteLong { plainLong with d := .s 20, a := .p 1 }) ∧
    decodeWords [0x005FC071, 0x001EFE0A, 0x00060000] = .ok (.reord reordO) := by decide +kernel

/-- IADD under !p2, ZADD, ZMOD; IADD with the literal 5 (LEN 10); FADD in its short form. -/
theorem test_decode_arithmetic : decodeWords [0x00050091, 0x002AFE02, 0x00000000] = .ok (.iaddLong { addO with pn := true, pi := 2 }) ∧
    decodeWords [0x02050251, 0x001EFE06, 0x000000D0] = .ok (.zadd zaddO) ∧
    decodeWords [0x47250241, 0x001EFF7F, 0x00000030] = .ok (.zmod zmodO) ∧
    decodeWords [0x0080C092, 0x00000005, 0x00000000] = .ok (.iaddLong { plainLong with d := .v 3, a := .v 1, b := .lit, ty := .i32, form := .len10, lit := 5 }) ∧
    decodeWords [0x01004180] = .ok (.fadd ⟨false, .v 1, .v 2⟩) := by decide +kernel

/-- LDP, STP, CHKB, CHKX, ATOM, CAS, LOCK, FENCE, CMAINT: MAJ 0x28 to 0x2D. -/
theorem test_decode_memory : decodeWords [0x45050681, 0x001EFF7F, 0x00001020] = .ok (.ldp ldpO) ∧
    decodeWords [0x455FC691, 0x001EFE08, 0x00001820] = .ok (.stp stpO) ∧
    decodeWords [0x055FC2A1, 0x001D1C8F, 0x00020000] = .ok (.chkb chkbO) ∧
    decodeWords [0x805FC6A1, 0x001EFF7F, 0x00100000] = .ok (.chkx chkxO) ∧
    decodeWords [0x030502B1, 0x001EFE00, 0x00001820] = .ok (.atom atomO) ∧
    decodeWords [0x03050AB1, 0x001C0400, 0x00001820] = .ok (.cas casO) ∧
    decodeWords [0x452502C1, 0x001EFF7F, 0x00004400] = .ok (.lock lockO) ∧
    decodeWords [0xBFDFC2D1, 0x001EFF7F, 0x00001E00] = .ok (.fence fenceO) ∧
    decodeWords [0x455FC6D1, 0x001EFE8B, 0x00000000] = .ok (.cmaint cmaintO) := by decide +kernel

/-- BARI, WAITV, WAITC, YIELDC. -/
theorem test_decode_waiting : decodeWords [0x45A502E1, 0x001EFE8D, 0x00000200] = .ok (.bari barO) ∧
    decodeWords [0x032502F1, 0x001EFE09, 0x00180420] = .ok (.waitv waitvO) ∧
    decodeWords [0xBFA506F1, 0x001EFF7F, 0x00050400] = .ok (.waitc waitcO) ∧
    decodeWords [0xBFDFC041, 0x001EFF7F, 0x00070800] = .ok (.yieldc yieldcO) := by decide +kernel

/-- GANG, AMAP, CMPR, ALD, and ADRAIN to memory. -/
theorem test_decode_matrix : decodeWords [0x47A50301, 0x001EFF7F, 0x00010800] = .ok (.gang gangO) ∧
    decodeWords [0x45A50B01, 0x001EFF7F, 0x00070000] = .ok (.amap amapO) ∧
    decodeWords [0x47A50341, 0x001EFE8F, 0x000800A0] = .ok (.cmpr cmprO) ∧
    decodeWords [0x47DFC751, 0x001EFF7F, 0x00000050] = .ok (.ald aldO) ∧
    decodeWords [0x455FC361, 0x001D1C8B, 0x000002D0] = .ok (.adrainMem drainMemO) := by decide +kernel

/-- CPY, COLL with a literal (LEN 11), CSTAT, CANCEL, STRM, STRX, SAVE, TRET, CLRX, RPLR, QWAIT, FLTACK. -/
theorem test_decode_system : decodeWords [0x45250381, 0x001D168C, 0x00000000] = .ok (.cpy cpyO) ∧
    decodeWords [0x45250393, 0x001D1B7E, 0x00000020, 0x00000004, 0x00000000] = .ok (.coll collO) ∧
    decodeWords [0x432503A1, 0x001EFF7F, 0x00000000] = .ok (.cstat cstatO) ∧
    decodeWords [0x43250BA1, 0x001EFF7F, 0x00000000] = .ok (.cancel cancelO) ∧
    decodeWords [0x45A503B1, 0x001EFF7F, 0x00010000] = .ok (.strm strmO) ∧
    decodeWords [0xBFA507B1, 0x001EFF7F, 0x00010000] = .ok (.strx strxO) ∧
    decodeWords [0x46A503D1, 0x001EFE8A, 0x00000000] = .ok (.save saveO) ∧
    decodeWords [0x46DFCBD1, 0x001EFF7F, 0x00000200] = .ok (.tret tretO) ∧
    decodeWords [0xBFA50FD1, 0x001EFF7F, 0x00000000] = .ok (.clrx clrxO) ∧
    decodeWords [0x46A503E1, 0x001EFF7F, 0x00000400] = .ok (.rplr rplrO) ∧
    decodeWords [0xBFA50BE1, 0x001EFF7F, 0x00000600] = .ok (.qwait qwaitO) ∧
    decodeWords [0x46A50FE1, 0x001EFE8F, 0x00000000] = .ok (.fltack fltackO) := by decide +kernel

/-! ### Ill-formed terms, one for each check of R151 and for the arguments of a step -/

/-- A destination x register outside XSET, a source q4, a TY and a MOD that the row has not, a field it does not use, a permutation it does not take, a
guard that is never, two literals, a short form the row has not, a literal with bits beyond its type, and a row that the fields do not select. -/
theorem test_ill_formed : ∀ i ∈ [Instr.iaddLong { addO with d := .x 3 }, .iaddLong { addO with ty := .f32 }, .iaddLong { addO with mod := 127 },
      .iaddLong { addO with imm := 1 }, .iaddLong { addO with c := .v 1 }, .iaddLong { addO with a := .s 1, perm := .bfly 1 },
      .iaddLong { addO with pn := true, pi := 7 }, .iaddLong { addO with a := .lit, b := .lit, form := .len11 },
      .iaddLong { addO with b := .lit }, .iaddLong { addO with b := .lit, form := .len11, lit := 2 ^ 40 },
      .ldp { ldpO with mod := 1 }, .adrain drainMemO, .csrr { plainLong with d := .s 20, imm := 0 }], ¬i.WellFormed := by decide +kernel

/-- Parts that the device has not: core 96, entry 8, slot 128, partition 16, queue 8192, grant 512, pair 80, port 4, unit 4, function 15. -/
theorem test_bad_arguments : ∀ i ∈ [Instr.rejoin ⟨96, 0, 0⟩, .timeout ⟨0, 0, 8⟩, .watchdog 0 128, .matrixRetire 96, .retentionEntry 0 48, .budgetRefill 16,
      .kick 1 8192 0, .vfReset 0, .regionApply 512, .slotSend 80, .peerLinkUp 4 0, .admissionComplete 4, .q0go 15, .registerWrite 1 0 9 0,
      .streamElementDeliver ⟨0, 0, 0⟩ 4, .schedulingPass 17, .dbgUnlock [], .keyLoad 0 1 []], ¬i.WellFormed := by decide +kernel

/-- The operands of the tests are well formed. -/
theorem test_well_formed : ∀ i ∈ [Instr.iaddLong addO, .zadd zaddO, .zmod zmodO, .split splitO, .fuse fuseO, .yieldc yieldcO, .reord reordO, .ld ldO,
    .ldp ldpO, .lds ldsO, .st stO, .stp stpO, .sts stsO, .chkb chkbO, .chkx chkxO, .atom atomO, .cas casO, .atom sumO, .atoms atomsO, .cas cassO,
    .fence fenceO, .cmaint cmaintO, .lock lockO, .unlock unlockO, .bari barO, .barv barvO, .barn barnO, .barw barwO, .waitc waitcO, .waitv waitvO,
    .tret tretO, .save saveO, .rest restO, .clrx clrxO, .rplq rplqO, .rplr rplrO, .qwait qwaitO, .fltack fltackO, .gang gangO, .fblk fblkO,
    .amap amapO, .mma mmaO, .mmas mmasO, .zmma zmmaO, .cmpr cmprO, .ald aldO, .adrainMem drainMemO, .adrain drainO, .cpy cpyO, .cpyp cpypO,
    .coll collO, .cstat cstatO, .cancel cancelO, .strm strmO, .strx strxO], i.WellFormed := by decide +kernel

/-- A strand of the latched gang has gone, and the others have all arrived. -/
def gangLeaves : State := { gang2Latched with
  slots := [⟨0, 0, 0, 0, [{ twin 0 0 with status := .parked (.latch 9) (some 256) }]⟩] }

theorem witness_GangEvents_leaves : ∃ f, gangLeaves.flightOf 0 = some f ∧ f.latch = some latched ∧ 1 ∈ f.gang ∧ gangLeaves.hasStrand 0 1 = false ∧
    (∀ k ∈ gangLeaves.gangLeft f, k ∈ gangLeaves.arrivedAt 0 latched.id) ∧ isMultiply latched.op = true ∧
    latched.core < gangLeaves.cores.length ∧ (gangLeaves.core latched.core).queue.length < 8 ∧ (∀ g ∈ gangLeaves.flights, g.released = []) ∧
    latched.o.ty ≠ .b8 ∧ badMap f.maps latched.op latched.o = none ∧
    (gang2Latched.flightOf 0 = some f → ∃ k ∈ gang2Latched.gangLeft f, k ∉ gang2Latched.arrivedAt 0 latched.id) :=
  some_and (by decide +kernel)

def cmprB8 : Long := { cmprO with ty := .b8, mod := 4 }

/-- CMPR of binary8 while the format register is empty. -/
theorem witness_MatrixOperandKills_format : (Instr.cmpr cmprB8).WellFormed ∧ ∃ c, (machine (f := { flightM with fmt := none }) (k := kernelM)).here = some c ∧
    c.actsOn cmprB8 = all16 ∧ c.readable .cmpr cmprB8 = true ∧ c.uniSources .cmpr cmprB8 = true ∧ cmprB8.ty = .b8 ∧ c.fl.fmt = none ∧
    (c.s.core 0).queue.length < 8 ∧ ∀ f ∈ c.s.flights, f.released = [] := ⟨by decide +kernel, some_and (by decide +kernel)⟩

/-! ### Cryptography: FIPS 197 C.3, SP 800-38B D.3, RFC 4231 case 2 -/

def bytesBE (n v : Nat) : List Byte := (leBytes n v).reverse

theorem test_aes256 : ((Crypto.aes ((List.range 32).map (BitVec.ofNat 8))) (Crypto.blockOf (bytesBE 16 0x00112233445566778899aabbccddeeff))).toList =
    bytesBE 16 0x8ea2b7ca516745bfeafc49904b496089 := by decide +kernel

theorem test_cmac256 : Crypto.cmac (bytesBE 32 0x603deb1015ca71be2b73aef0857d77811f352c073b6108d72d9810a30914dff4) [] =
    bytesBE 16 0x028962f61b7bf89efc6b551f4667d983 := by decide +kernel

theorem test_hmac512 : Crypto.hmac (Crypto.text "Jefe") (Crypto.text "what do ya want for nothing?") =
    bytesBE 64 0x164b7a7bfcf819e2e395fbe73b56e0a387bd64222e831fd610270cd7ea2505549758bf75c05a994a6d034f65f8f0e6fdcaeab1a34d4a6b4b636e070a38bce737 := by
  decide +kernel

end Sys2Proof.Test
end

section
/-!
PROOF. What a row of the opcode table gives an instruction: the fields of a well-formed instruction select its own row, its type is one
that its opcode allows, and its short and longer forms share one meaning (R138, R146, R151).
-/
namespace Sys2Proof

/-! ### Well-formed instructions and their rows -/

/-- A well-formed instruction passes the checks of R151 and stands in its own row. -/
theorem wellFormed_parts {i : Instr} {r : Raw} (hw : i.WellFormed) (hr : i.toRaw = some r) :
    r.check = none ∧ i.rowOk = true := by
  unfold Instr.WellFormed Instr.wf at hw
  simpa only [hr, Bool.and_eq_true, Option.isNone_iff_eq_none] using hw

/-- The fields of an instruction select the instruction, for every row of the opcode table. -/
theorem toInstr_of_toRaw {i : Instr} {r : Raw} (hr : i.toRaw = some r) (hk : i.rowOk = true) : r.toInstr = some i := by
  cases i <;> cases hr <;> simp_all [Instr.rowOk, csrwOwnRows, Raw.toInstr, Op.shortRow, Op.longRow]
  case qscaleFit.refl => omega

theorem toInstr_of_wellFormed {i : Instr} {r : Raw} (hw : i.WellFormed) (hr : i.toRaw = some r) : r.toInstr = some i :=
  toInstr_of_toRaw hr (wellFormed_parts hw hr).2

/-! ### The type that an instruction carries -/

theorem checkShort_tyOk {op : Op} {o : Short} (h : checkShort op o = none) : op.tyOk op.defaultTy 0 0 = true := by
  unfold checkShort at h
  simpa using (passed h).1

theorem checkLit_tyOk {op : Op} {o : Long} (h : checkLit op o = none) : op.tyOk o.ty 0 0 = true := by
  unfold checkLit at h
  simpa using (passed h).1

theorem checkLong_tyOk {op : Op} {o : Long} (h : checkLong op o = none) : op.tyOk o.ty o.mod.val o.imm.val = true := by
  unfold checkLong at h
  simpa using (passed (passed h).2).1

theorem tyOk_mem {op : Op} {t : Ty} {m imm : Nat} (h : op.tyOk t m imm = true) : t ∈ op.types := by
  unfold Op.tyOk at h
  exact List.contains_iff_mem.1 (Bool.and_eq_true_iff.1 h).1

end Sys2Proof

namespace Sys2Proof.Machine

/-- The type of an instruction that passes its checks is one of its opcode's (R146, R151 item 7). -/
theorem check_ty_mem {r : Raw} (h : r.check = none) : (Raw.full r).2.ty ∈ (Raw.full r).1.types := by
  cases r with
  | short op o =>
    unfold Raw.check at h
    simp only at h
    split at h
    · exact tyOk_mem (checkShort_tyOk h)
    · cases h
  | long op o =>
    by_cases hf : o.form = .len10
    · unfold Raw.check at h
      simp only [hf] at h
      have h' := (passed h).2
      split at h'
      · exact tyOk_mem (checkLit_tyOk h')
      · cases h'
    · obtain ⟨_, _, _, hc⟩ := check_long hf h
      exact tyOk_mem (checkLong_tyOk hc)

/-! ### One meaning for the forms of an opcode -/

/-- The meaning of a well-formed instruction whose opcode has one row for its short form and one for its longer forms: `run`, for its number
of words and its fields in the long form (R138). -/
theorem exec_of_rows {op : Op} {short : Short → Instr} {long : Long → Instr} {run : Ctx → Nat → Long → State}
    (hs : ∀ o, op.shortRow o = some (short o)) (hl : ∀ o, op.longRow o = long o)
    (es : ∀ o s, exec (short o) s = s.issue fun c => run c 1 (o.toLong op))
    (el : ∀ o s, exec (long o) s = s.issue fun c => run c (longWords o) o)
    {i : Instr} {r : Raw} {o : Long} (hw : i.WellFormed) (hr : i.toRaw = some r) (hf : Raw.full r = (op, o)) (s : State) :
    exec i s = s.issue fun c => run c r.nwords o := by
  have hi := toInstr_of_wellFormed hw hr
  cases r with
  | short op' o' =>
    cases hf
    cases (hs o').symm.trans hi
    exact es o' s
  | long op' o' =>
    cases hf
    cases (congrArg some (hl o)).symm.trans hi
    rw [Raw.nwords, ← nwords_long]
    exact el o s

end Sys2Proof.Machine
end

section
/-!
PROOF. The shifts take their count modulo the width of the type (R179).
-/
namespace Sys2Proof.Machine

variable {i : Instr} {r : Raw} {o : Long}

theorem exec_shl (hw : i.WellFormed) (hr : i.toRaw = some r) (hf : Raw.full r = (.shl, o)) (s : State) :
    exec i s = s.issue fun c => c.runShl r.nwords o :=
  exec_of_rows (run := Ctx.runShl) (fun _ => rfl) (fun _ => rfl) (fun _ _ => rfl) (fun _ _ => rfl) hw hr hf s

theorem exec_shr (hw : i.WellFormed) (hr : i.toRaw = some r) (hf : Raw.full r = (.shr, o)) (s : State) :
    exec i s = s.issue fun c => c.runShift r.nwords .shr o shrPat :=
  exec_of_rows (run := fun c n o => c.runShift n .shr o shrPat) (fun _ => rfl) (fun _ => rfl) (fun _ _ => rfl) (fun _ _ => rfl) hw hr hf s

theorem exec_sar (hw : i.WellFormed) (hr : i.toRaw = some r) (hf : Raw.full r = (.sar, o)) (s : State) :
    exec i s = s.issue fun c => c.runShift r.nwords .sar o sarPat :=
  exec_of_rows (run := fun c n o => c.runShift n .sar o sarPat) (fun _ => rfl) (fun _ => rfl) (fun _ _ => rfl) (fun _ _ => rfl) hw hr hf s

theorem exec_rol (hw : i.WellFormed) (hr : i.toRaw = some r) (hf : Raw.full r = (.rol, o)) (s : State) :
    exec i s = s.issue fun c => c.runShift r.nwords .rol o rolPat :=
  exec_of_rows (run := fun c n o => c.runShift n .rol o rolPat) (fun _ => rfl) (fun _ => rfl) (fun _ _ => rfl) (fun _ _ => rfl) hw hr hf s

/-- An integer instruction is not of type pred. -/
theorem ty_not_pred (hw : i.WellFormed) (hr : i.toRaw = some r) (ht : (Raw.full r).1.types = tysInt) : (Raw.full r).2.ty ≠ .pred := by
  intro hp
  have hm := check_ty_mem (wellFormed_parts hw hr).1
  rw [ht, hp] at hm
  exact absurd hm (by decide)

/-- The count of a shift is B mod the width, B unsigned at the type's width. -/
theorem shiftCount_word {t : Ty} (ht : t ≠ .pred) (b : W64) : shiftCount t b = (word t b).toNat % t.width := by
  rw [shiftCount, patOf_word ht]

/-- A shift of patterns is the shift `g` of words, by the count that B gives. -/
theorem shift_computes {op : Op} {f : Nat → Nat → Nat → Nat} {g : BitVec o.ty.width → Nat → BitVec o.ty.width} {words : Nat}
    (ht : o.ty ≠ .pred) (hx : ∀ s, exec i s = s.issue fun c => c.runShift words op o f)
    (hfg : ∀ a k, k < o.ty.width → f o.ty.width a.toNat k = (g a k).toNat) :
    Computes i op o words o.ty.wide fun _ rd k =>
      storePat o.ty (g (word o.ty (rd.a k)) ((word o.ty (rd.b k)).toNat % o.ty.width)).toNat := by
  intro s c hs ha hr hw
  rw [hx]
  refine issued hs (laneEach_computes
    (f := fun a b _ => storePat o.ty (g (word o.ty a) ((word o.ty b).toNat % o.ty.width)).toNat) hs ha hr hw fun a b _ => ?_)
  simp only [patOf_word ht]
  rw [hfg _ _ (Nat.mod_lt _ (width_pos _))]

/-- SHL is the exact product by a power of two, stored once. -/
theorem shl_computes {words : Nat} (ht : o.ty ≠ .pred) (hx : ∀ s, exec i s = s.issue fun c => c.runShl words o) :
    Computes i .shl o words o.ty.wide fun _ rd k =>
      storeInt o.ty (satOf o) (intOf o.ty (rd.a k) * 2 ^ ((word o.ty (rd.b k)).toNat % o.ty.width)) := by
  intro s c hs ha hr hw
  rw [hx]
  refine issued hs ?_
  simpa only [shiftCount_word ht, Nat.cast_pow, Nat.cast_ofNat] using runShl_computes hs ha hr hw

/-- Settles O8, opcode by opcode: SHL is `shl_computes`, and the others are the shifts of words that their patterns stand for. -/
theorem shiftCounts : Obligations.ShiftCounts := by
  intro i r op o hw hr hf hop
  have hty : o.ty ≠ .pred := by
    have ht := ty_not_pred hw hr
    rw [hf] at ht
    exact ht (by rcases hop with rfl | rfl | rfl | rfl <;> rfl)
  rcases hop with rfl | rfl | rfl | rfl <;> simp only [reduceCtorEq, if_true, if_false]
  · exact shl_computes hty (exec_shl hw hr hf)
  · exact shift_computes hty (exec_shr hw hr hf) fun a k _ => shr_eq a k
  · exact shift_computes hty (exec_sar hw hr hf) fun a k _ => sar_eq (width_pos _) a k
  · exact shift_computes hty (exec_rol hw hr hf) fun a _ hk => rol_eq a hk

end Sys2Proof.Machine
end

section
/-!
PROOF. NOP and BRU: an issue that ends by putting its entry back changes that entry alone (R157, R166).
-/
namespace Sys2Proof.Machine

variable {s : State} {c : Ctx}

/-- An issue that puts back an entry at the same position changes nothing else. -/
theorem put_only (hs : s.here = some c) {e : Entry} (hp : e.pos = c.e.pos) : OnlyEntry s (c.put e) e := by
  obtain ⟨hc, _⟩ := here_parts hs
  obtain ⟨h1, h2, _⟩ := ctxAt_parts hc
  rw [Ctx.put, h1, h2]
  exact setEntry_only hc hp

/-- What an instruction that puts an entry back answers. -/
theorem issue_put (hs : s.here = some c) {f : Ctx → State} {e : Entry} (hf : f c = c.put e) (hp : e.pos = c.e.pos) :
    ∃ t, s.issue f = .next t ∧ OnlyEntry s t e :=
  ⟨c.put e, by rw [issue_eq hs, hf], put_only hs hp⟩

/-- Settles O16: NOP puts back its entry stepped past its words. -/
theorem nopRetires : Obligations.NopRetires :=
  fun _ _ hs => ⟨fun _ => issue_put hs rfl rfl, fun _ => issue_put hs rfl rfl⟩

/-- The address that a transfer computes is `PC + 4 × IMM` in 64 bits (R147). -/
theorem branchTarget_eq (e : Entry) (o : Long) : branchTarget e.pc o = e.branch o := by
  rw [branchTarget, Entry.branch, wrapZ_ofInt, signed_toInt (by decide), BitVec.ofInt_add, BitVec.ofInt_mul, BitVec.ofInt_natCast]
  rfl

theorem jump_branch (e : Entry) (o : Long) : e.jump (branchTarget e.pc o) = e.goesTo (e.branch o) := by
  have h : e.branch o % 2 ^ 64 = e.branch o := Nat.mod_eq_of_lt (BitVec.isLt _)
  rw [branchTarget_eq, Entry.jump, Entry.goesTo, h]

/-- BRU on a condition that it can read: the transfer where MOD[0] selects its truth, else the next instruction. -/
theorem execBru_of_condition {o : Long} {b : Bool} (hs : s.here = some c) (hb : c.bruCondition o = .ok b) :
    ∃ t, execBru o s = .next t ∧
      OnlyEntry s t (if b = decide (o.mod.val % 2 = 0) then c.e.goesTo (c.e.branch o) else c.e.stepped (longWords o)) := by
  refine issue_put hs ?_ ?_
  · have hsense : (b != decide (o.mod.val % 2 = 1)) = decide (b = decide (o.mod.val % 2 = 0)) := by
      rcases Nat.mod_two_eq_zero_or_one o.mod.val with h | h <;> cases b <;> simp [h]
    simp only [hb, bind, Except.bind, pure, Except.pure, Ctx.close, jump_branch, hsense, decide_eq_true_eq]
    rfl
  · split <;> rfl

/-- BRU on a predicate that is not UNI (R43). -/
theorem execBru_breach {o : Long} {n : Fin 8} (hs : s.here = some c) (ha : o.a = .p n) (hn : (c.e.pred n).code ≠ 0) :
    execBru o s = .next (c.raise (longWords o) (breach c.e)) := by
  have hb : c.bruCondition o = .error (.fault (breach c.e)) := by
    rw [Ctx.bruCondition, ha]
    cases hp : c.e.pred n with
    | uni t => exact absurd (by rw [hp]; rfl) hn
    | aff thr sense => simp only [hp]
    | den vs => simp only [hp]
  rw [execBru, issue_eq hs, hb]
  rfl

/-- BRU's condition from a scalar: whether it is not zero (R166). -/
theorem bruCondition_scalar {o : Long} {n : Fin 64} (ha : o.a = .s n) : c.bruCondition o = .ok (decide (c.e.sAt n ≠ 0)) := by
  have hz : (c.e.sAt n != 0) = decide (c.e.sAt n ≠ 0) := Bool.eq_iff_iff.2 (by simp)
  rw [← hz, Ctx.bruCondition, ha]
  rfl

/-- BRU's condition from a predicate that holds one truth for the whole entry (R43). -/
theorem bruCondition_uni {o : Long} {n : Fin 8} {b : Bool} (ha : o.a = .p n) (hp : c.e.pred n = .uni b) : c.bruCondition o = .ok b := by
  simp only [Ctx.bruCondition, ha, hp]

/-- Settles O18: a scalar and a UNI predicate give BRU's condition, and any other predicate its fault. -/
theorem uniformBranches : Obligations.UniformBranches := by
  refine fun o s c hs _ => ⟨fun n b h => execBru_of_condition hs ?_, fun n ha hn => execBru_breach hs ha hn⟩
  rcases h with ⟨ha, rfl⟩ | ⟨m, ha, hp⟩
  · exact bruCondition_scalar ha
  · exact bruCondition_uni ha hp

end Sys2Proof.Machine
end

section
/-!
PROOF. FABS and FNEG act on the highest bit of the pattern alone (R196).
-/
namespace Sys2Proof.Machine
open Sys2Proof.Float (Fmt)

/-! ### The sign bit of a pattern -/

theorem fmt_width (f : Fmt) : f.width = f.eb + f.fb + 1 := by
  unfold Fmt.width
  omega

/-- The sign bit is the highest bit of the format's width. -/
theorem signBit_eq {f : Fmt} {w : Nat} (hw : f.width = w) : f.signBit = 2 ^ (w - 1) := by
  rw [← hw, fmt_width, Nat.add_sub_cancel, Fmt.signBit]

/-- Above every set bit of `r`, a sum with a power of two sets one bit. -/
theorem add_two_pow_eq_xor {r n : Nat} (hr : r < 2 ^ n) : r + 2 ^ n = r ^^^ 2 ^ n := by
  have hor := Nat.two_pow_add_eq_or_of_lt hr 1
  rw [Nat.mul_one, Nat.add_comm] at hor
  rw [hor]
  refine Nat.eq_of_testBit_eq fun k => ?_
  rw [Nat.testBit_or, Nat.testBit_xor, Nat.testBit_two_pow]
  by_cases hk : n = k
  · subst hk
    simp [Nat.testBit_lt_two_pow hr]
  · simp [hk]

/-- FABS keeps the bits below the sign bit. -/
theorem fabs_eq_and {f : Fmt} {w : Nat} (hw : f.width = w) (a : BitVec w) :
    Float.fabs f a.toNat = (a &&& ~~~BitVec.intMin w).toNat := by
  rw [Float.fabs, signBit_eq hw]
  refine Nat.eq_of_testBit_eq fun k => ?_
  rw [Nat.testBit_mod_two_pow, BitVec.testBit_toNat, BitVec.testBit_toNat, BitVec.getLsbD_and, BitVec.getLsbD_not,
    BitVec.getLsbD_intMin, Bool.and_comm]
  by_cases hk : k < w
  · have hbelow : decide (k < w - 1) = !decide (k + 1 = w) := by
      rw [← decide_not, decide_eq_decide]
      omega
    simp [hk, hbelow]
  · simp [BitVec.getLsbD_of_ge a k (by omega)]

/-- FNEG adds the sign bit or takes it away: it inverts it. -/
theorem fneg_eq_xor {f : Fmt} {w : Nat} (hw : f.width = w) (a : BitVec w) :
    Float.fneg f a.toNat = (a ^^^ BitVec.intMin w).toNat := by
  obtain ⟨n, rfl⟩ : ∃ n, w = n + 1 := ⟨f.eb + f.fb, by rw [← hw, fmt_width]⟩
  have hlt := a.isLt
  rw [Float.fneg, signBit_eq hw, hw, Nat.mod_eq_of_lt hlt, BitVec.toNat_xor, BitVec.toNat_intMin_of_pos (Nat.zero_lt_succ n),
    Nat.succ_sub_one]
  split
  case isTrue h => exact add_two_pow_eq_xor h
  case isFalse h =>
    have hr : a.toNat - 2 ^ n < 2 ^ n := by omega
    have ha : a.toNat = (a.toNat - 2 ^ n) ^^^ 2 ^ n := by rw [← add_two_pow_eq_xor hr]; omega
    calc a.toNat - 2 ^ n = (a.toNat - 2 ^ n) ^^^ 2 ^ n ^^^ 2 ^ n := (Nat.xor_xor_cancel_right _ _).symm
      _ = a.toNat ^^^ 2 ^ n := by rw [← ha]

/-! ### The instructions -/

variable {i : Instr} {r : Raw} {o : Long}

theorem exec_fabs (hw : i.WellFormed) (hr : i.toRaw = some r) (hf : Raw.full r = (.fabs, o)) (s : State) :
    exec i s = s.issue fun c => c.fltT r.nwords .fabs o fun f a _ _ => Float.fabs f a :=
  exec_of_rows (run := fun c n o => c.fltT n .fabs o fun f a _ _ => Float.fabs f a)
    (fun _ => rfl) (fun _ => rfl) (fun _ _ => rfl) (fun _ _ => rfl) hw hr hf s

theorem exec_fneg (hw : i.WellFormed) (hr : i.toRaw = some r) (hf : Raw.full r = (.fneg, o)) (s : State) :
    exec i s = s.issue fun c => c.fltT r.nwords .fneg o fun f a _ _ => Float.fneg f a :=
  exec_of_rows (run := fun c n o => c.fltT n .fneg o fun f a _ _ => Float.fneg f a)
    (fun _ => rfl) (fun _ => rfl) (fun _ _ => rfl) (fun _ _ => rfl) hw hr hf s

/-- A floating-point type is not pred, and its format has its width (R89). -/
theorem tysFloat_width {t : Ty} (ht : t ∈ tysFloat) : t ≠ .pred ∧ (fmtOf t).width = t.width := by
  revert t
  decide

/-- A result that the pattern of A alone gives is the function `h` of A's word that the pattern stands for. -/
theorem unaryFlt_computes {op : Op} {g : Fmt → Nat → Nat} {h : BitVec o.ty.width → BitVec o.ty.width} {words : Nat}
    (ht : o.ty ≠ .pred) (hx : ∀ s, exec i s = s.issue fun c => c.fltT words op o fun f a _ _ => g f a)
    (hg : ∀ a, g (fmtOf o.ty) a.toNat = (h a).toNat) :
    Computes i op o words o.ty.wide fun _ rd k => (h (word o.ty (rd.a k))).setWidth 64 := by
  intro s c hs ha hr hw
  rw [hx]
  refine issued hs (laneEach_computes (f := fun a _ _ => (h (word o.ty a)).setWidth 64) hs ha hr hw fun a _ _ => ?_)
  simp only [patOf_word ht, hg, BitVec.ofNat_toNat]

/-- Settles O10, opcode by opcode: `fabs_eq_and` and `fneg_eq_xor` say what the patterns' functions do to the highest bit. -/
theorem signBits : Obligations.SignBits := by
  intro i r op o hw hr hf hop
  have hty : o.ty ∈ tysFloat := by
    have hm := check_ty_mem (wellFormed_parts hw hr).1
    rw [hf] at hm
    rcases hop with rfl | rfl <;> exact hm
  obtain ⟨hp, hwd⟩ := tysFloat_width hty
  rcases hop with rfl | rfl <;> simp only [reduceCtorEq, if_true, if_false]
  · exact unaryFlt_computes hp (exec_fabs hw hr hf) (fabs_eq_and hwd)
  · exact unaryFlt_computes hp (exec_fneg hw hr hf) (fneg_eq_xor hwd)

end Sys2Proof.Machine
end

section
/-!
PROOF. CNT: an instruction that acts once for its entry, and whose status goes to every item of the entry, changes that entry alone
(R217, R233, R281).
-/
namespace Sys2Proof.Machine

/-! ### A status written to every item (R233) -/

/-- Reading changes nothing that decides which items are acted on. -/
theorem OnlyReads.activeList_eq {a b : Entry} (h : OnlyReads a b) : b.activeList = a.activeList := by
  obtain ⟨_, _, rfl⟩ := h
  rfl

/-- Reading changes nothing that decides whether a destination can be written. -/
theorem OnlyReads.canWriteEvery_eq {a b : Entry} (h : OnlyReads a b) (nregs : Nat) (acting : List Nat) (wide : Bool) (d : Spec) :
    b.canWriteEvery nregs acting wide d = a.canWriteEvery nregs acting wide d := by
  obtain ⟨_, _, rfl⟩ := h
  cases d <;> rfl

theorem OnlyReads.pos_eq {a b : Entry} (h : OnlyReads a b) : b.pos = a.pos := by
  obtain ⟨_, _, rfl⟩ := h
  rfl

theorem WroteEvery.pos_eq {e x : Entry} {nregs : Nat} {wide sg : Bool} {d : Spec} {w : W64} (h : WroteEvery e x nregs wide sg d w) :
    x.pos = e.pos := by
  rw [h.rest]

/-- Going on to the next instruction leaves what was written. -/
theorem WroteEvery.advance {e x : Entry} {nregs : Nat} {wide sg : Bool} {d : Spec} {w : W64} (h : WroteEvery e x nregs wide sg d w)
    (words : Nat) : WroteEvery (e.stepped words) (x.advance words) nregs wide sg d w where
  v := h.v
  p := h.p
  x := h.x
  s := h.s
  rest := by
    rw [Entry.advance, Entry.stepped, h.rest]

/-- A status reaches D, over the entry as its sources left it. -/
theorem LanesOf.writeAll_wrote {c : Ctx} {op : Op} {o : Long} {l : Lane} (hl : LanesOf c op o l) {wide : Bool} (w : W64)
    (hw : c.e.canWriteEvery c.ke.regs c.e.activeList wide o.d = true) :
    ∃ x, l.e.writeAll c.ke.regs wide o.d w = .ok x ∧ WroteEvery (c.reads op o).e x c.ke.regs wide false o.d w := by
  have hread : OnlyReads c.e (c.reads op o).e := reads_only c (c.actsOn o) op o
  rw [hl.e, Entry.writeAll]
  apply writeEvery_wrote
  rw [hread.canWriteEvery_eq, hread.activeList_eq]
  exact hw

/-! ### An instruction that acts once for its entry (R217) -/

/-- With items to act on and its sources read, it goes on with what they hold. -/
theorem once_eq {c : Ctx} {op : Op} {o : Long} (k : Lane → State) (ha : c.actsOn o ≠ []) (hr : c.readable op o = true) :
    ∃ l, LanesOf c op o l ∧ c.once op o k = k l := by
  obtain ⟨l, hl, he, hacting, hitems, hvals⟩ := lanes_eq ha (fun i hi => live_lt (actsOn_live hi)) hr
  refine ⟨l, ⟨he, hacting, hitems, hvals⟩, ?_⟩
  have hsome : l.acting.isEmpty = false := by rw [hacting]; exact List.isEmpty_eq_false_iff.2 ha
  have hlanes : c.lanes op o (c.e.acting o.pi o.pn) = .ok l := hl
  simp only [Ctx.once, Ctx.memLane, hlanes, hsome, Bool.false_eq_true, if_false]

/-- One that does nothing but write a status `w` writes it to every item, and changes nothing outside its entry. -/
theorem once_writes {s : State} {c : Ctx} {op : Op} {o : Long} {wide : Bool} {f : Ctx → State} {w : W64} (hs : s.here = some c)
    (ha : c.actsOn o ≠ []) (hr : c.readable op o = true) (hw : c.e.canWriteEvery c.ke.regs c.e.activeList wide o.d = true)
    (hf : f c = c.once op o fun l =>
      c.close (longWords o) ((l.e.writeAll c.ke.regs wide o.d w).map fun e => e.advance (longWords o))) :
    ∃ t e, s.issue f = .next t ∧ OnlyEntry s t e ∧ WroteEvery ((c.reads op o).e.stepped (longWords o)) e c.ke.regs wide false o.d w := by
  obtain ⟨l, hl, honce⟩ := once_eq _ ha hr
  obtain ⟨x, hx, hwrote⟩ := hl.writeAll_wrote w hw
  have hput : f c = c.put (x.advance (longWords o)) := by
    rw [hf, honce, hx]
    rfl
  have hpos : x.pos = c.e.pos := hwrote.pos_eq.trans (reads_only c (c.actsOn o) op o).pos_eq
  obtain ⟨t, ht, honly⟩ := issue_put hs hput hpos
  exact ⟨t, _, ht, honly, hwrote.advance _⟩

/-- Settles O37: CNT does nothing but write the word of its entry's counters. -/
theorem countersRead : Obligations.CountersRead :=
  fun _ _ _ hs ha _ hr hw => once_writes hs ha hr hw rfl

end Sys2Proof.Machine
end
